-- ==== Sys2Proof/Word.lean ====
section
/-! DEFINITION. The word types of the Urkor (R4, R8, R12, R24): bytes, 32-bit register words, 57-bit program counters,
lane sets, and key pairs. -/

namespace Sys2Proof

/-- One byte. -/
abbrev Byte := BitVec 8

/-- A 32-bit register word (R161). -/
abbrev W32 := BitVec 32

/-- A 64-bit register pair, device register or instruction word (R163, R298, R317). -/
abbrev W64 := BitVec 64

/-- A virtual program counter (R243). -/
abbrev PcVal := BitVec 57

/-- A set of the 32 lanes of a group, one bit a lane (R241). -/
abbrev LaneSet := BitVec 32

/-- The two AES-256 keys of a key slot, the data key above the tweak key (R24, R299). -/
abbrev KeyPair := BitVec 512

/-- One paddock word register (R33). -/
abbrev W256 := BitVec 256

end Sys2Proof
end

