-- ==== Sys2Proof/Syntax.lean ====
section
/-! DEFINITION. The syntax of the Urkor: element types, operands, the sixteen instruction formats of R318 as records, the
clause header of R313, the paddock bundle of R50, and one constructor of `Instr` for each row of the opcode table. -/

namespace Sys2Proof

/-- The types of R320, in the order of their codes. Code 15 is F64, and B128 in the formats of R376. -/
inductive Ty where
  | i8 | i16 | i32 | i64 | n8 | n16 | n32 | n64 | b8 | b16 | b32 | b64 | f16 | bf16 | f32 | f64
  deriving DecidableEq, Repr

/-- An operand of an 11-bit operand field (R319): a V register, an S register, or a 9-bit immediate as its bits. -/
inductive Opnd where
  | v (r : Nat)
  | s (r : Nat)
  | imm (i : Nat)
  deriving DecidableEq, Repr

/-- Format VOP. -/
structure VopF where
  ty : Ty
  mod : Nat
  vd : Nat
  a : Opnd
  b : Opnd
  c : Opnd
  la : Nat
  deriving DecidableEq, Repr

/-- Format SOP. -/
structure SopF where
  ty : Ty
  mod : Nat
  sd : Nat
  a : Opnd
  b : Opnd
  c : Opnd
  la : Nat
  deriving DecidableEq, Repr

/-- Format SIMM. -/
structure SimmF where
  sd : Nat
  imm : Nat
  deriving DecidableEq, Repr

/-- Format BR. `off` is the 29-bit field. -/
structure BrF where
  cc : Nat
  kn : Nat
  vc : Nat
  sc : Nat
  off : Nat
  deriving DecidableEq, Repr

/-- Format KOP. -/
structure KopF where
  kd : Nat
  ks : Nat
  fld : Nat
  dir : Bool
  sr : Nat
  deriving DecidableEq, Repr

/-- Format SPC. -/
structure SpcF where
  dv : Bool
  sreg : Nat
  reg : Nat
  deriving DecidableEq, Repr

/-- Format WCNT: the five thresholds. -/
structure WcntF where
  vm : Nat
  sm : Nat
  mx : Nat
  cp : Nat
  st : Nat
  deriving DecidableEq, Repr

/-- Format MEM. -/
structure MemF where
  ty : Ty
  scope : Nat
  ord : Nat
  ofr : Bool
  vr : Nat
  sb : Nat
  vx : Nat
  xv : Bool
  off : Nat
  la : Nat
  deriving DecidableEq, Repr

/-- Format SMEM. -/
structure SmemF where
  ty : Ty
  scope : Nat
  ord : Nat
  ofr : Bool
  sd : Nat
  sb : Nat
  off : Nat
  la : Nat
  deriving DecidableEq, Repr

/-- Format MEMA. -/
structure MemaF where
  ty : Ty
  scope : Nat
  ord : Nat
  aop : Nat
  vd : Nat
  sb : Nat
  vx : Nat
  xv : Bool
  va : Nat
  la : Nat
  deriving DecidableEq, Repr

/-- Format SATM. -/
structure SatmF where
  ty : Ty
  scope : Nat
  ord : Nat
  aop : Nat
  sd : Nat
  sb : Nat
  sa : Nat
  la : Nat
  deriving DecidableEq, Repr

/-- Format VCV. -/
structure VcvF where
  dfmt : Nat
  sfmt : Nat
  vd : Nat
  a : Opnd
  b : Opnd
  rmo : Bool
  rm : Nat
  sat : Bool
  ps : Nat
  deriving DecidableEq, Repr

/-- Format MTX. -/
structure MtxF where
  ad : Nat
  ta : Nat
  tb : Nat
  mod : Nat
  sa : Nat
  fmtc : Nat
  rm : Nat
  sat : Bool
  la : Nat
  deriving DecidableEq, Repr

/-- Format CPYF. -/
structure CpyF where
  qn : Nat
  kind : Nat
  sa : Nat
  sb : Nat
  sz : Opnd
  so : Nat
  bv : Bool
  la : Nat
  deriving DecidableEq, Repr

/-- Format BAR. -/
structure BarF where
  sd : Nat
  sa : Nat
  rank : Nat
  rmt : Bool
  n : Nat
  sg : Nat
  la : Nat
  deriving DecidableEq, Repr

/-- Format ENG. -/
structure EngF where
  sd : Nat
  sa : Nat
  sb : Nat
  x8 : Nat
  n4 : Nat
  n2 : Nat
  fn : Nat
  m3 : Nat
  la : Nat
  deriving DecidableEq, Repr

/-- A clause header (R313). -/
structure Header where
  count : Nat
  cls : Nat
  stop : Bool
  nofold : Bool
  ordinal : Nat
  wvm : Nat
  wsm : Nat
  wmx : Nat
  wcp : Nat
  wst : Nat
  deriving DecidableEq, Repr

/-- The FETCH slot of a bundle (R58, R59). -/
inductive FetchOp where
  | fnop
  | fld (wd g : Nat)
  | flds (wd g : Nat)
  | fgth (wd wa : Nat)
  deriving DecidableEq, Repr

/-- The selector of PSET (R70). -/
inductive PsetOp where
  | addr (g imm : Nat)
  | stride (g imm : Nat)
  | count (g imm : Nat)
  | ctr (c imm : Nat)
  | addrW (g wa k : Nat)
  | ctrW (c wa k : Nat)
  deriving DecidableEq, Repr

/-- The three-operand lanewise operations of R63. -/
inductive PLane where
  | padd | pmul | pfma | pmax | pmin
  deriving DecidableEq, Repr

/-- The OP slot of a bundle (R60 to R70). `ty` is the TY code of R55. -/
inductive PadOp where
  | pnop
  | lane (op : PLane) (ty wd wa wb wc rm : Nat) (sat : Bool)
  | pand (wd wa wb : Nat)
  | por (wd wa wb : Nat)
  | pxor (wd wa wb : Nat)
  | psel (wd wa wb wc : Nat)
  | pshf (wd wa wb n : Nat)
  | ppopc (wd wa : Nat)
  | pcmp (ty cc wd wa wb : Nat)
  | pcvt (dty sty wd wa wb part rm : Nat)
  | pdot (ty zd wa wb part rm : Nat) (one : Bool)
  | pred (ty wd zs g : Nat)
  | predSum (ty wd zs rm : Nat)
  | zclr (zd : Nat)
  | pset (p : PsetOp)
  deriving DecidableEq, Repr

/-- The WB slot of a bundle (R71). -/
inductive WbOp where
  | wnop
  | wst (ws g mask : Nat)
  | wsnd (float : Bool) (ws g : Nat)
  | wz (zs grp g : Nat)
  deriving DecidableEq, Repr

/-- The condition of PBR (R73). -/
inductive PbrCond where
  | always
  | ctrZ (c : Nat)
  | ctrNz (c : Nat)
  | wordZ (w : Nat)
  | wordNz (w : Nat)
  deriving DecidableEq, Repr

/-- The control byte of a bundle (R73, R74). -/
inductive CtlOp where
  | cnone
  | loop (c d : Nat)
  | pbr (cond : PbrCond) (tgt : Nat)
  | pret
  | phalt
  deriving DecidableEq, Repr

/-- A legal paddock bundle (R50, R51). -/
structure Bundle where
  ctl : CtlOp
  fetch : FetchOp
  op : PadOp
  wb : WbOp
  deriving DecidableEq, Repr

/-- One constructor for each row of the opcode table: the instructions, and the machine's steps that no instruction word
names (spec/95). -/
inductive Instr where
  /-- SMOV (R338). Copies a scalar operand into Sd. -/
  | smov (f : SopF)
  /-- SMOVI (R339). Writes a 32-bit immediate into one S register. -/
  | smovi (f : SimmF)
  /-- SADD (R338). Scalar add modulo 2^w. -/
  | sadd (f : SopF)
  /-- SSUB (R338). Scalar subtract modulo 2^w. -/
  | ssub (f : SopF)
  /-- SMUL (R338). Scalar multiply modulo 2^w. -/
  | smul (f : SopF)
  /-- SMULH (R338). High half of the scalar product. -/
  | smulh (f : SopF)
  /-- SDIV (R338). Scalar divide rounded toward zero, with R201 borderline results. -/
  | sdiv (f : SopF)
  /-- SREM (R338). Scalar remainder with the dividend's sign. -/
  | srem (f : SopF)
  /-- SAND (R338). Scalar bitwise AND. -/
  | sand (f : SopF)
  /-- SOR (R338). Scalar bitwise OR. -/
  | sor (f : SopF)
  /-- SXOR (R338). Scalar bitwise XOR. -/
  | sxor (f : SopF)
  /-- SNOT (R338). Scalar bitwise NOT. -/
  | snot (f : SopF)
  /-- SSHL (R338). Scalar shift left, 0 when the count reaches the width. -/
  | sshl (f : SopF)
  /-- SSHR (R338). Scalar logical shift right. -/
  | sshr (f : SopF)
  /-- SSAR (R338). Scalar arithmetic shift right. -/
  | ssar (f : SopF)
  /-- SMIN (R338). Smaller of two scalar operands. -/
  | smin (f : SopF)
  /-- SMAX (R338). Larger of two scalar operands. -/
  | smax (f : SopF)
  /-- SCMP (R338). Writes 1 if the scalar comparison holds, else 0. -/
  | scmp (f : SopF)
  /-- SSEL (R338). Selects one of two scalar operands by a condition. -/
  | ssel (f : SopF)
  /-- NOP (R343). Does nothing but count as an issue. -/
  | nop (f : BrF)
  /-- BRA (R341). Moves the whole path to the target clause. -/
  | bra (f : BrF)
  /-- BRC (R341). Moves the whole path to the target if a scalar condition holds. -/
  | brc (f : BrF)
  /-- CALL (R342). Saves the next header address in an S pair and branches. -/
  | call (f : BrF)
  /-- RET (R342). Moves the path to the address in an S pair. -/
  | ret (f : BrF)
  /-- JMPI (R342). Indirect jump to the address in an S pair. -/
  | jmpi (f : BrF)
  /-- EXIT (R247). Ends the path's active lanes, clears them from every MASK and re-evaluates JOIN waiters. -/
  | exit (f : BrF)
  /-- WAITC (R343). Holds the path until the outstanding counts reach the given thresholds. -/
  | waitc (f : WcntF)
  /-- YIELD (R343). The group gives way for one scheduler choice. -/
  | yield (f : BrF)
  /-- SRDSR (R344). Reads a special register into an S or V register. -/
  | srdsr (f : SpcF)
  /-- SWRSR (R344). Writes a special register from an S or V register. -/
  | swrsr (f : SpcF)
  /-- SETFMT (R345). Sets the issuing path's FMT from an immediate. -/
  | setfmt (f : SimmF)
  /-- SETPART (R346). Sets the group's partition tile width. -/
  | setpart (f : SimmF)
  /-- IF (R248). Deepens nesting counters and deactivates lanes whose condition is false. -/
  | ifLanes (f : BrF)
  /-- ELSE (R248). Swaps lanes at nesting levels 0 and 1. -/
  | elseLanes (f : BrF)
  /-- ENDIF (R248). Decrements every non-zero nesting counter. -/
  | endif (f : BrF)
  /-- BRV (R252). Splits the path by a per-lane condition into a taken and a fall-through path. -/
  | brv (f : BrF)
  /-- MARK (R251). Writes MASK, PC and FMT of a rejoin register. -/
  | mark (f : BrF)
  /-- JOIN (R254). Brings the path to wait on a rejoin register. -/
  | join (f : BrF)
  /-- KMOV (R352). Copies a rejoin register or one of its fields to or from S registers. -/
  | kmov (f : KopF)
  /-- KAND (R352). ANDs a scalar into a rejoin register's MASK. -/
  | kand (f : KopF)
  /-- KOR (R352). ORs a scalar into a rejoin register's MASK. -/
  | kor (f : KopF)
  /-- SPIN (R354). Marks the issuing path spinning at once. -/
  | spin (f : BrF)
  /-- VADD (R358). Lane-wise integer add, optionally saturating. -/
  | vadd (f : VopF)
  /-- VSUB (R358). Lane-wise integer subtract, optionally saturating. -/
  | vsub (f : VopF)
  /-- VMUL (R358). Lane-wise integer multiply. -/
  | vmul (f : VopF)
  /-- VMULH (R358). High half of the lane-wise product. -/
  | vmulh (f : VopF)
  /-- VMAD (R358). Lane-wise integer multiply-add. -/
  | vmad (f : VopF)
  /-- VAND (R358). Lane-wise bitwise AND. -/
  | vand (f : VopF)
  /-- VOR (R358). Lane-wise bitwise OR. -/
  | vor (f : VopF)
  /-- VXOR (R358). Lane-wise bitwise XOR. -/
  | vxor (f : VopF)
  /-- VNOT (R358). Lane-wise bitwise NOT. -/
  | vnot (f : VopF)
  /-- VSHL (R358). Lane-wise shift left. -/
  | vshl (f : VopF)
  /-- VSHR (R358). Lane-wise logical shift right. -/
  | vshr (f : VopF)
  /-- VSAR (R358). Lane-wise arithmetic shift right. -/
  | vsar (f : VopF)
  /-- VMIN (R358). Lane-wise integer minimum. -/
  | vmin (f : VopF)
  /-- VMAX (R358). Lane-wise integer maximum. -/
  | vmax (f : VopF)
  /-- VABS (R358). Lane-wise integer absolute value. -/
  | vabs (f : VopF)
  /-- VCLZ (R358). Lane-wise count of leading zeros. -/
  | vclz (f : VopF)
  /-- VPOPC (R358). Lane-wise population count. -/
  | vpopc (f : VopF)
  /-- VBREV (R358). Lane-wise bit reversal. -/
  | vbrev (f : VopF)
  /-- VCMP (R358). Lane-wise integer compare writing 1 or 0. -/
  | vcmp (f : VopF)
  /-- VSEL (R358). Lane-wise select by a condition. -/
  | vsel (f : VopF)
  /-- VMOV (R358). Lane-wise move. -/
  | vmov (f : VopF)
  /-- VIOTA (R358). Writes a + b times the lane number. -/
  | viota (f : VopF)
  /-- VMOVS (R360). Copies one lane of a V register into an S register. -/
  | vmovs (f : SopF)
  /-- VFADD (R361). Floating-point add with one rounding. -/
  | vfadd (f : VopF)
  /-- VFSUB (R361). Floating-point subtract. -/
  | vfsub (f : VopF)
  /-- VFMUL (R361). Floating-point multiply. -/
  | vfmul (f : VopF)
  /-- VFMA (R361). Fused multiply-add with one rounding. -/
  | vfma (f : VopF)
  /-- VFMIN (R205). Floating minimum preferring numbers over quiet NaNs. -/
  | vfmin (f : VopF)
  /-- VFMAX (R205). Floating maximum preferring numbers over quiet NaNs. -/
  | vfmax (f : VopF)
  /-- VFMINN (R205). Floating minimum propagating NaN. -/
  | vfminn (f : VopF)
  /-- VFMAXN (R205). Floating maximum propagating NaN. -/
  | vfmaxn (f : VopF)
  /-- VFABS (R362). Floating absolute value. -/
  | vfabs (f : VopF)
  /-- VFNEG (R362). Floating negation. -/
  | vfneg (f : VopF)
  /-- VFRCP (R204). Correctly rounded reciprocal. -/
  | vfrcp (f : VopF)
  /-- VFRSQ (R204). Correctly rounded reciprocal square root. -/
  | vfrsq (f : VopF)
  /-- VFSQRT (R204). Correctly rounded square root. -/
  | vfsqrt (f : VopF)
  /-- VFDIV (R204). Correctly rounded division. -/
  | vfdiv (f : VopF)
  /-- VFEXP2 (R204). Correctly rounded 2^a. -/
  | vfexp2 (f : VopF)
  /-- VFLOG2 (R204). Correctly rounded log2 a. -/
  | vflog2 (f : VopF)
  /-- VFSIN (R204). Correctly rounded sine. -/
  | vfsin (f : VopF)
  /-- VFCOS (R204). Correctly rounded cosine. -/
  | vfcos (f : VopF)
  /-- VFCLASS (R363). Writes a class mask of the floating value. -/
  | vfclass (f : VopF)
  /-- VFRND (R364). Rounds to an integral value in the same format. -/
  | vfrnd (f : VopF)
  /-- VFCMP (R365). Floating compare writing 1 or 0. -/
  | vfcmp (f : VopF)
  /-- VADDMIN (R206). Rounded sum followed by a minimum with a third operand. -/
  | vaddmin (f : VopF)
  /-- VADDMAX (R206). Rounded sum followed by a maximum with a third operand. -/
  | vaddmax (f : VopF)
  /-- VSHFL (R367). Each lane reads Va from a per-lane position of its tile. -/
  | vshfl (f : VopF)
  /-- VSHUP (R367). Each lane reads Va from n positions lower in its tile. -/
  | vshup (f : VopF)
  /-- VSHDN (R367). Each lane reads Va from n positions higher in its tile. -/
  | vshdn (f : VopF)
  /-- VBCAST (R368). Broadcasts one tile position of Va to the tile. -/
  | vbcast (f : VopF)
  /-- VVOTE (R369). ALL, ANY or BALLOT vote over the tile's active lanes. -/
  | vvote (f : VopF)
  /-- VRED (R370). Reduction over the tile's active lanes in ascending order. -/
  | vred (f : VopF)
  /-- VSCAN (R370). Inclusive or exclusive scan over the tile's active lanes. -/
  | vscan (f : VopF)
  /-- VCMPX (R372). One bitonic compare-exchange stage on key and payload pairs. -/
  | vcmpx (f : VopF)
  /-- VMATCH (R369). Mask of tile lanes holding an equal value. -/
  | vmatch (f : VopF)
  /-- VCOMPACT (R373). Compacts selected lanes' values toward the tile start. -/
  | vcompact (f : VopF)
  /-- VCVT (R414). Converts elements between floating and integer formats. -/
  | vcvt (f : VcvF)
  /-- VCVTS (R415). Narrowing conversion with stochastic rounding. -/
  | vcvts (f : VcvF)
  /-- VPACK (R416). Packs to I4 or encodes one block in a block format. -/
  | vpack (f : VcvF)
  /-- VUNPACK (R416). Unpacks I4 or decodes a block-format element to F32. -/
  | vunpack (f : VcvF)
  /-- LD (R379). Global load of one element per active lane. -/
  | ld (f : MemF)
  /-- LDR (R380). Global load that may enter or hit a fold entry. -/
  | ldr (f : MemF)
  /-- ST (R381). Global store of one element per active lane. -/
  | st (f : MemF)
  /-- LDS (R382). Scratchpad load, locally or from a cluster rank. -/
  | lds (f : MemF)
  /-- STS (R382). Scratchpad store, locally or to a cluster rank. -/
  | sts (f : MemF)
  /-- ATOM (R384). Global read-modify-write per active lane. -/
  | atom (f : MemaF)
  /-- ATOMS (R385). One global atomic for the group, old value to Sd. -/
  | atoms (f : SatmF)
  /-- SLD (R383). Uniform global load into S registers. -/
  | sld (f : SmemF)
  /-- SST (R383). Uniform global store from S registers. -/
  | sst (f : SmemF)
  /-- FENCE (R220). Fills a fence token covering earlier accesses of the chosen kind and scope. -/
  | fence (f : EngF)
  /-- WAITF (R386). Holds the path until a token is free or satisfied. -/
  | waitf (f : EngF)
  /-- PHASE (R387). Declares a team-private phase region and writes a status. -/
  | phase (f : EngF)
  /-- PUBLISH (R388). Ends a phase range and fills a token for the publication. -/
  | publish (f : EngF)
  /-- SRAMCFG_FIFO (R397). Converts the highest cache block to a FIFO for the team. -/
  | sramcfgFifo (f : EngF)
  /-- SRAMCFG_FREE (R397). Returns a FIFO block of the team to cache mode. -/
  | sramcfgFree (f : EngF)
  /-- QPUT (R398). Appends one or two entries to a hardware FIFO. -/
  | qput (f : EngF)
  /-- QGET (R398). Removes one or two entries from a hardware FIFO. -/
  | qget (f : EngF)
  /-- BARINIT (R393). Initialises a barrier object and orphans its tags. -/
  | barinit (f : BarF)
  /-- BARINV (R393). Invalidates a barrier object and wakes its waiters. -/
  | barinv (f : BarF)
  /-- BARARR (R394). Releases and arrives at a barrier object, returning GEN. -/
  | bararr (f : BarF)
  /-- BARWAIT (R395). Waits for a barrier phase to complete, then acquires. -/
  | barwait (f : BarF)
  /-- YIELDW (R396). Leaves the ready set until a phase or token completes, then continues at a label. -/
  | yieldw (f : BrF)
  /-- REC_BEGIN (R399). Defines a route range and starts recording. -/
  | recBegin (f : EngF)
  /-- REC_END (R399). Ends recording or replay of a route range. -/
  | recEnd (f : EngF)
  /-- REC_REPLAY (R399). Switches a route range to replay. -/
  | recReplay (f : EngF)
  /-- REC_FORGET (R399). Frees a route range's routes and returns it to IDLE. -/
  | recForget (f : EngF)
  /-- REC_STAT (R400). Returns a range's summed counter record into eight S registers. -/
  | recStat (f : EngF)
  /-- REC_SLICE_APPLY (R120). One slice applies a broadcast REC transition. -/
  | recSliceApply (bc slice : Nat)
  /-- CPY_GS (R389). Issues a global-to-scratchpad copy. -/
  | cpyGs (f : CpyF)
  /-- CPY_SG (R389). Issues a scratchpad-to-global copy. -/
  | cpySg (f : CpyF)
  /-- CPY_GG (R389). Issues a global-to-global copy. -/
  | cpyGg (f : CpyF)
  /-- CPY_SR (R389). Issues a copy into another cluster core's scratchpad. -/
  | cpySr (f : CpyF)
  /-- CPY_RS (R389). Issues a copy from another cluster core's scratchpad. -/
  | cpyRs (f : CpyF)
  /-- PREF (R391). Issues a prefetch of a global range into home slices. -/
  | pref (f : CpyF)
  /-- CPYR_ADD (R390). Issues an add-reduction copy into global memory. -/
  | cpyrAdd (f : CpyF)
  /-- CPYR_MIN (R390). Issues a min-reduction copy. -/
  | cpyrMin (f : CpyF)
  /-- CPYR_MAX (R390). Issues a max-reduction copy. -/
  | cpyrMax (f : CpyF)
  /-- CPYR_AND (R390). Issues an AND-reduction copy. -/
  | cpyrAnd (f : CpyF)
  /-- CPYR_OR (R390). Issues an OR-reduction copy. -/
  | cpyrOr (f : CpyF)
  /-- CFENCE (R132). Enters named copy queues and fills a token. -/
  | cfence (f : EngF)
  /-- CSTEP (R146). Advances the team's stage counter and releases schedule issues. -/
  | cstep (f : EngF)
  /-- MMA (R405). Matrix multiply-accumulate into an accumulator block. -/
  | mma (f : MtxF)
  /-- MMAB (R405). Binary XOR or AND popcount matrix accumulate. -/
  | mmab (f : MtxF)
  /-- MATRIX_K_STEP (R210). One K step of an MMA or MMAB completes and PROG advances. -/
  | matrixKStep (core : Nat)
  /-- MZERO (R406). Zeroes an accumulator block. -/
  | mzero (f : MtxF)
  /-- MLDA (R406). Loads an accumulator block from scratchpad. -/
  | mlda (f : MtxF)
  /-- MSTA (R407). Converts and stores an accumulator block to scratchpad. -/
  | msta (f : MtxF)
  /-- MCVT (R408). Converts an accumulator block into another block. -/
  | mcvt (f : MtxF)
  /-- MPROG (R409). Reads a block's progress word. -/
  | mprog (f : MtxF)
  /-- MPROG_SET (R409). Sets a block's progress word. -/
  | mprogSet (f : MtxF)
  /-- TMAP (R410). Writes a tile descriptor from four S registers. -/
  | tmap (f : MtxF)
  /-- TMAP_RD (R410). Reads a tile descriptor into four S registers. -/
  | tmapRd (f : MtxF)
  /-- TSIDE (R410). Writes a tile descriptor's side-list fields. -/
  | tside (f : MtxF)
  /-- MNGI (R418). Installs a mangle from a descriptor. -/
  | mngi (f : EngF)
  /-- MNGU (R98). Uninstalls a mangle at its home slice. -/
  | mngu (f : EngF)
  /-- MNGF (R419). Makes a fire request for a mangle slot. -/
  | mngf (f : EngF)
  /-- MNGS (R420). Snapshots a mangle's status into four S registers. -/
  | mngs (f : EngF)
  /-- PLAUNCH (R421). Checks a paddock launch record and dispatches its tasks. -/
  | plaunch (f : EngF)
  /-- PGO (R422). Ships registers to a paddock task and holds the group until it ends. -/
  | pgo (f : EngF)
  /-- PWAIT (R421). Waits for a paddock token and then acquires. -/
  | pwait (f : EngF)
  /-- LAUNCH (R423). Submits a launch record from the device. -/
  | launch (f : EngF)
  /-- LEAVE (R424). Queues an early leave request with the governor. -/
  | leave (f : EngF)
  /-- PLACE (R425). Gives a placement or affinity hint. -/
  | place (f : EngF)
  /-- TRAP (R426). Retires and raises TRAPI with an immediate. -/
  | trap (f : EngF)
  /-- ERET (R277). Returns from a trap handler or ends a safe-point routine. -/
  | eret (f : EngF)
  /-- SYSCALL (R427). Writes a call record and holds the group for the supervisor. -/
  | syscall (f : EngF)
  /-- CSRR (R429). Reads a control register into an S pair. -/
  | csrr (f : EngF)
  /-- CSRW (R429). Writes a control register from an S pair. -/
  | csrw (f : EngF)
  /-- TLBINV_ALL (R430). Removes all cached translations. -/
  | tlbinvAll (f : EngF)
  /-- TLBINV_ASID (R430). Removes cached translations of one ASID. -/
  | tlbinvAsid (f : EngF)
  /-- TLBINV_PAGE (R430). Removes cached translations of one VA of one ASID. -/
  | tlbinvPage (f : EngF)
  /-- TLBINV_UNIT_ACT (R430). A TLB or walk cache acts on a TLBINV broadcast and drops fold entries. -/
  | tlbinvUnitAct (bc unit : Nat)
  /-- FLTRPL_ALL (R287). Broadcasts the replay of every parked access. -/
  | fltrplAll (f : EngF)
  /-- FLTRPL_UNIT_ACT (R287). A unit clears its fault records and releases its parked accesses. -/
  | fltrplUnitAct (bc unit : Nat)
  /-- BRK (R426). Raises a DEBUG trap. -/
  | brk (f : EngF)
  /-- HALTBC (R431). Starts the fatal-error halt broadcast. -/
  | haltbc (f : EngF)
  /-- BUNDLE_ISSUE (R52). A paddock core issues one bundle in read, translate, perform and control steps. -/
  | bundleIssue (pcore : Nat)
  /-- TASK_ADMIT (R38). The distributor admits a waiting paddock task to its core by its pin address. -/
  | taskAdmit (task : Nat)
  /-- TASK_START (R39). A paddock task's bundles and arguments are loaded and its state set. -/
  | taskStart (task : Nat)
  /-- TASK_SAVE (R45). A task gives up the core at a bundle boundary and is saved to a save slot. -/
  | taskSave (task : Nat)
  /-- TASK_RESUME (R45). A saved task is restored and its bundles reloaded. -/
  | taskResume (task : Nat)
  /-- COMPLETION_ADD (R40). After a task's writes perform, its completion word takes a normal or error increment. -/
  | completionAdd (task : Nat)
  /-- PGO_RETURN (R42). After the task's writes perform, returned words are written to the group or a machine check is raised. -/
  | pgoReturn (task : Nat)
  /-- PADDOCK_WALK (R47). A stack walker completes a page walk for a paddock access. -/
  | paddockWalk (task : Nat)
  /-- FIRING_WORK_LIMIT (R45). After 4,096 column cycles of firing work the core issues 16 task bundles first. -/
  | firingWorkLimit (pcore : Nat)
  /-- PASS_START (R91). Once leave is granted a mangle pass begins streaming weights past held latches. -/
  | passStart (handle : Nat)
  /-- SWITCH_IN (R94). At pass end the home slice switches in results of every carried slot. -/
  | switchIn (handle : Nat)
  /-- PERFORM_STORE (R105). A store merges at the serialisation point and sends updates and pushes. -/
  | performStore (core slot group op sec : Nat)
  /-- SERVE_LOAD (R217). A load is served from the store buffer, L1 or the serialisation point. -/
  | serveLoad (core slot group op sec : Nat)
  /-- PERFORM_ATOMIC (R109). An atomic reads, modifies and writes in one step. -/
  | performAtomic (core slot group op sec : Nat)
  /-- DELIVER (R106). A core applies the oldest channel message and acknowledges it. -/
  | deliver (slice core : Nat)
  /-- ACKNOWLEDGE (R105). A store's counter reaches zero and it is acknowledged to its issuer. -/
  | acknowledge (ack : Nat)
  /-- PIN_AGE_RECALL (R112). A pin older than 8,192 cycles is recalled and a scope trap is raised. -/
  | pinAgeRecall (sector : Nat)
  /-- RESULT_RETIRE (R167). A result retires and is named by its content hash. -/
  | resultRetire (core slot group op : Nat)
  /-- SLICE_FILL (R19). A slice fill reads column words and corrects or poisons them. -/
  | sliceFill (sector : Nat)
  /-- CE_WRITEBACK (R19). A corrected word is written back through its owning slice. -/
  | ceWriteback (word : Nat)
  /-- CXL_RESPONSE (R18). A CXL response arrives, poisoned words logging CXLPOIS. -/
  | cxlResponse (word : Nat) (poisoned : Bool)
  /-- SLICE_EVICT (R104). After all invalidations are acknowledged the slice writes back and frees a sector. -/
  | sliceEvict (sector : Nat)
  /-- DROP_NOTICE (R104). An L1 drop notice removes the core from the exact sharer list. -/
  | dropNotice (core sector : Nat)
  /-- PUBLISH_LINE (R119). A published private line performs as one store with invalidations. -/
  | publishLine (pub line : Nat)
  /-- ENGINE_ACCESS (R226). A copy, paddock or mangle access performs at the serialisation point. -/
  | engineAccess (core op n : Nat)
  /-- COPY_UNIT_WRITE (R134). A destination unit of a copy is written and counted. -/
  | copyUnitWrite (core op unit : Nat)
  /-- ENGINE_ARRIVAL (R140). Counted units arrive at a barrier object or are discarded as stale. -/
  | engineArrival (core op : Nat)
  /-- BLOCK_SWITCH_DONE (R151). A switching SRAM block takes its new mode after its lines are released. -/
  | blockSwitchDone (core block : Nat)
  /-- MSHR_RETRY (R159). A rejected instruction retries for miss-status entries. -/
  | mshrRetry (core slot group op : Nat)
  /-- SPIN_MARK_TIMEOUT (R260). A spinning mark clears after 4,096 cycles. -/
  | spinMarkTimeout (core slot group path : Nat)
  /-- GROUP_STARVING (R271). A group ready for 64 cycles without issue becomes starving. -/
  | groupStarving (core slot group : Nat)
  /-- LAUNCH_QUEUE_READ (R267). The device reads and checks the record at HEAD of an enabled queue. -/
  | launchQueueRead (q : Nat)
  /-- LQPTR_TAIL_WRITE (R267). A TAIL write advances the queue or pauses it with OVERRUN. -/
  | lqptrTailWrite (q tail : Nat)
  /-- LQCTL_ERR_CLEAR (R267). Clearing ERR resumes a paused launch queue. -/
  | lqctlErrClear (q : Nat)
  /-- CLUSTER_ADMIT (R268). The distributor admits a whole cluster to a rectangle of cores. -/
  | clusterAdmit (grid clu die row col : Nat)
  /-- ADMISSION_WAIT_LIMIT (R269). A cluster waiting 2^20 cycles blocks lower-ranked admission on its die. -/
  | admissionWaitLimit (die grid clu : Nat)
  /-- ADMISSION_PREEMPT_LIMIT (R269). A further 2^16 cycles makes the distributor request pre-emption of lower-priority teams. -/
  | admissionPreemptLimit (die grid clu victimGrid victimClu : Nat)
  /-- GRID_COMPLETION_ADD (R265). When every team of a grid has ended its completion word is incremented. -/
  | gridCompletionAdd (grid : Nat)
  /-- LEAVE_GRANT (R273). The governor grants the oldest request that fits the budget. -/
  | leaveGrant (die : Nat)
  /-- LEAVE_GRANT_EXPIRY (R424). An unused LEAVE grant is released after 2^16 cycles. -/
  | leaveGrantExpiry (core slot group : Nat)
  /-- PAGE_WALK (R284). A die walker finishes a walk, giving a translation or a fault outcome. -/
  | pageWalk (core slot group op sec : Nat)
  /-- TRAP_ENTRY (R277). A path enters the user trap handler after the frame is written. -/
  | trapEntry (core slot group path : Nat)
  /-- PREEMPT_SAVE (R292). Once every group holds at a safe point control state is saved and SAVE routines run. -/
  | preemptSave (grid clu : Nat)
  /-- PREEMPT_LIMIT_EXPIRY (R293). A cluster reaching PRELIM without a safe point is forcibly halted. -/
  | preemptLimitExpiry (grid clu : Nat)
  /-- TEAMCTL_RESUME (R281). Releases every group of a team held for a machine check. -/
  | teamctlResume (core slot : Nat)
  /-- TEAMCTL_KILL (R281). Gives a team a forced halt. -/
  | teamctlKill (core slot : Nat)
  /-- SCRESP_WRITE (R428). Writes S0 of a group held in SYSCALL and releases it. -/
  | screspWrite (die value : Nat)
  /-- CKREPLAY_WRITE (R309). Starts a replay from a stored checkpoint. -/
  | ckreplayWrite (ckslot : Nat)
  /-- CHECKPOINT_TIMER (R309). A die timer reaching T takes a checkpoint of both dies. -/
  | checkpointTimer (die : Nat)
  /-- REPLAY_DIVERGE (R309). A replayed event waiting 2^20 cycles sets DIVERGED. -/
  | replayDiverge (slice : Nat)
  /-- KEYLOAD (R299). Mailbox command that loads or replaces a key slot. -/
  | keyload
  /-- KEYCLEAR (R299). Mailbox command that empties a key slot. -/
  | keyclear
  /-- ATTEST (R305). Mailbox command that writes a signed attestation report. -/
  | attest
  /-- EXTEND (R304). Mailbox command that extends a measurement register. -/
  | extendMr
  /-- PLIMIT (R299). Mailbox command that sets each die's leave budget from a power limit. -/
  | plimit
  /-- DUMPMAP (R299). Mailbox command that maps a stored dump into BAR2. -/
  | dumpmap
  /-- DBGREAD (R308). Mailbox command that writes a held team's save form. -/
  | dbgread
  /-- MAILBOX_DONE (R299). Firmware writes the result and clears BUSY. -/
  | mailboxDone
  /-- REGISTER_WRITE (R298). A store to a device register without behaviour of its own. -/
  | registerWrite (off value : Nat)
  /-- HOST_POSTED_WRITE (R226). A host posted write performs as an engine access in arrival order. -/
  | hostPostedWrite (fn : Nat)
  /-- HOST_READ (R226). A host read is served after earlier posted writes are acknowledged. -/
  | hostRead (fn index : Nat)
  /-- REMOTE_REQUEST_RECEIVE (R301). A remote request is performed once or refused at the receiving device. -/
  | remoteRequestReceive (index : Nat)
  /-- REMOTE_ACK (R302). A remote acknowledgement decrements the sender's path counter. -/
  | remoteAck (index : Nat)
  /-- FLIT_CRC_FAIL (R300). A flit failing CRC is resent; after 8 failures the port goes down. -/
  | flitCrcFail (port : Nat)
  /-- PLACEMENT_FREEZE (R29). The placement engine marks a unit in transition and waits for earlier accesses. -/
  | placementFreeze (asid va target : Nat)
  /-- PLACEMENT_COPY (R29). The placement engine copies a unit to its new location. -/
  | placementCopy (mv : Nat)
  /-- PLACEMENT_SWITCH (R29). The unit's translation switches and waiting accesses are released. -/
  | placementSwitch (mv : Nat)
  /-- SAMPLE_TAKE (R307). After PERIOD issues a quarter writes a sample record. -/
  | sampleTake (core slot group path : Nat)
  /-- TEMP_LIMIT (R312). Module temperature over its limit lowers the leave budget. -/
  | tempLimit (die budget : Nat)
  /-- DUMP_WRITE (R310). After halt and drain firmware writes a fatal-error dump. -/
  | dumpWrite (sect : Nat)
  /-- DUMP_CORE_TIMEOUT (R310). A core silent for 2^20 cycles abandons its dump section. -/
  | dumpCoreTimeout (core : Nat)
  /-- DEVICE_RESET (R311). Reset starts bring-up: image check, HBM training, CXL, links, READY. -/
  | deviceReset
  /-- CLUSTER_MOVE (R270). The device decides by itself to move a resident cluster, requesting its pre-emption at safe points for readmission elsewhere. -/
  | clusterMove (grid clu : Nat)
  /-- TEMP_BELOW_LIMIT (R312). Module temperature falls back below its limit and firmware restores the leave budget. -/
  | tempBelowLimit (die : Nat)
  /-- PORT_RETRAIN (R300). Firmware retrains a Dalgaop port that went down, and the port comes up again. -/
  | portRetrain (port : Nat)
  /-- ELIGIBILITY_COUNT (R274). Each cycle, every quarter increments the bucket for its number of ready groups, or charges the stall reason of its oldest group. -/
  | eligibilityCount (core : Nat)
  /-- PADDOCK_TASK_KILL (R47). The supervisor kills a parked paddock task, which ends it with an error end of kind KILLED. -/
  | paddockTaskKill (task : Nat)
  /-- ASID_SUSPEND (R45). The supervisor suspends a task's ASID, which makes its paddock tasks give up their cores and be saved. -/
  | asidSuspend (asid : Nat)
  deriving DecidableEq, Repr

end Sys2Proof
end

