-- ==== Sys2Proof/WellFormed.lean ====
section
/-! DEFINITION. Which field values each instruction accepts: the checks 0x02, 0x03 and 0x04 of ILLOP that the word alone
decides (R318 to R326), tested in ascending order. The check 0x05 and BADREG to ILLPART depend on the state and stand with
the meanings. A term is well formed when its fields fit and every check passes. -/

namespace Sys2Proof

/-- The code of a type (R320). -/
def Ty.code : Ty → Nat
  | .i8 => 0 | .i16 => 1 | .i32 => 2 | .i64 => 3 | .n8 => 4 | .n16 => 5 | .n32 => 6 | .n64 => 7
  | .b8 => 8 | .b16 => 9 | .b32 => 10 | .b64 => 11 | .f16 => 12 | .bf16 => 13 | .f32 => 14 | .f64 => 15

/-- The type of a 4-bit code (R320). -/
def Ty.ofCode : Nat → Ty
  | 0 => .i8 | 1 => .i16 | 2 => .i32 | 3 => .i64 | 4 => .n8 | 5 => .n16 | 6 => .n32 | 7 => .n64
  | 8 => .b8 | 9 => .b16 | 10 => .b32 | 11 => .b64 | 12 => .f16 | 13 => .bf16 | 14 => .f32 | _ => .f64

/-- The operand fits its field (R319). -/
def Opnd.fits : Opnd → Bool
  | .v r => decide (r < 256)
  | .s r => decide (r < 1024)
  | .imm i => decide (i < 512)

/-- The kinds of operand that an instruction takes in a field: any, an S register or an immediate, a V register, or none. -/
inductive OpKind where
  | any | uni | vec | unused
  deriving DecidableEq, Repr

/-- An unused field is zero, and a V operand has bit [8] clear (R318, R319: DETAIL 0x02). -/
def Opnd.clean (o : Opnd) : OpKind → Bool
  | .unused => decide (o = .v 0)
  | _ => match o with
    | .v r => decide (r < 256)
    | _ => true

/-- The operand is of an accepted kind (R326: DETAIL 0x04). -/
def Opnd.kindOk (o : Opnd) : OpKind → Bool
  | .any => true
  | .unused => true
  | .uni => match o with | .v _ => false | _ => true
  | .vec => match o with | .v _ => true | _ => false

/-- First failing check in ascending order of DETAIL, zero where none fails (R326). -/
def details (d2 d3 d4 : Bool) : Nat := if !d2 then 2 else if !d3 then 3 else if !d4 then 4 else 0

/-- How an instruction reads MOD (R321). -/
inductive ModKind where
  | zero | sat | cc | scc | rm | rmFloat | vote | red | scan | desc
  deriving DecidableEq, Repr

/-- MOD is one that R321 accepts under the type: its unused bits are zero (R337, R356, R359: DETAIL 0x03), its code is one
that R321 names, and AND, OR and XOR are for B types, the others for numbers (R370). -/
def ModKind.accepts (k : ModKind) (mod : Nat) (ty : Ty) : Bool :=
  let rmOk : Bool := decide (mod % 4 = 0) && (decide (16 ≤ mod) || decide (mod = 0))
  let redOk (op : Nat) : Bool :=
    if ty = .b32 || ty = .b64 then decide (3 ≤ op ∧ op ≤ 5) else decide (op ≤ 2)
  match k with
  | .zero => decide (mod = 0)
  | .sat => decide (mod % 16 = 0)
  | .desc => decide (mod % 16 = 0)
  | .cc => decide (mod % 4 = 0) && decide (mod / 4 ≤ 5)
  | .scc => decide (mod ≤ 5)
  | .rm => rmOk
  | .rmFloat => if ty.code < 12 then decide (mod = 0) else rmOk
  | .vote => decide (mod % 4 = 0) && decide (mod / 4 ≤ 2)
  | .red => decide (mod % 4 = 0) && redOk (mod / 4)
  | .scan => decide (mod % 2 = 0) && redOk (mod / 4)

/-- What a VOP instruction accepts: types, MOD, kinds of OA, OB and OC, and whether LA is a field (R318). -/
structure VopSpec where
  tys : List Nat
  mod : ModKind
  a : OpKind
  b : OpKind
  c : OpKind
  la : Bool

/-- What a SOP instruction accepts. -/
structure SopSpec where
  tys : List Nat
  mod : ModKind
  a : OpKind
  b : OpKind
  c : OpKind
  la : Bool

/-- Whether a SIMM instruction uses SD. -/
abbrev SimmSpec := Bool

/-- What a BR instruction uses: KN, VC, SC, OFF, and how many CC codes (0: CC must be zero). -/
structure BrSpec where
  kn : Bool
  vc : Bool
  sc : Bool
  off : Bool
  ccs : Nat

/-- Whether an SPC instruction writes the special register. -/
abbrev SpcSpec := Bool

/-- Whether a KOP instruction is KMOV. -/
abbrev KopSpec := Bool

/-- The four VCV instructions. -/
inductive VcvSpec where
  | vcvt | vcvts | vpack | vunpack
  deriving DecidableEq, Repr

/-- Global memory or the scratchpad. -/
inductive Space where
  | global | scratch
  deriving DecidableEq, Repr

/-- What a MEM instruction accepts: types, its space, and whether it stores. -/
structure MemSpec where
  tys : List Nat
  space : Space
  store : Bool

/-- What an SMEM instruction accepts. -/
structure SmemSpec where
  tys : List Nat
  space : Space
  store : Bool

/-- What an MTX instruction uses: AD, the largest TA, TB, SA, FMTC, RM, SAT, and the accepted MOD codes (none where its entry does
not name MOD). -/
structure MtxSpec where
  ad : Bool
  ta : Nat
  tb : Bool
  sa : Bool
  fmtc : Bool
  rm : Bool
  sat : Bool
  mods : List Nat

/-- What a CPYF instruction accepts: KIND codes, and whether it is PREF. -/
structure CpySpec where
  kinds : List Nat
  pref : Bool

/-- What a BAR instruction uses: SD, N, SG, and RMT with RANK. -/
structure BarSpec where
  sd : Bool
  n : Bool
  sg : Bool
  rank : Bool

/-- What an ENG instruction uses: SD, SA, SB, the largest X8, N4, FN, and the accepted M3 and N2 codes. -/
structure EngSpec where
  sd : Bool
  sa : Bool
  sb : Bool
  x8 : Nat
  n4 : Bool
  fn : Bool
  m3 : List Nat
  n2 : List Nat

/-- A field is used, or zero. -/
def zeroUnless (used : Bool) (x : Nat) : Bool := used || decide (x = 0)

/-- Every field fits its width (R318). -/
def VopF.fits (f : VopF) : Bool :=
  decide (f.mod < 32) && decide (f.vd < 256) && f.a.fits && f.b.fits && f.c.fits && decide (f.la < 16)
/-- The checks of a VOP word. -/
def VopF.check (f : VopF) (p : VopSpec) : Nat :=
  details
    (f.a.clean p.a && f.b.clean p.b && f.c.clean p.c && zeroUnless p.la f.la)
    (p.tys.contains f.ty.code && p.mod.accepts f.mod f.ty)
    (f.a.kindOk p.a && f.b.kindOk p.b && f.c.kindOk p.c)

/-- Every field fits its width. -/
def SopF.fits (f : SopF) : Bool :=
  decide (f.mod < 8) && decide (f.sd < 1024) && f.a.fits && f.b.fits && f.c.fits && decide (f.la < 16)
/-- The checks of a SOP word. -/
def SopF.check (f : SopF) (p : SopSpec) : Nat :=
  details
    (f.a.clean p.a && f.b.clean p.b && f.c.clean p.c && zeroUnless p.la f.la)
    (p.tys.contains f.ty.code && p.mod.accepts f.mod f.ty)
    (f.a.kindOk p.a && f.b.kindOk p.b && f.c.kindOk p.c)

/-- Every field fits its width. -/
def SimmF.fits (f : SimmF) : Bool := decide (f.sd < 1024) && decide (f.imm < 4294967296)
/-- The checks of a SIMM word. -/
def SimmF.check (f : SimmF) (p : SimmSpec) : Nat := details (zeroUnless p f.sd) true true

/-- Every field fits its width. -/
def BrF.fits (f : BrF) : Bool :=
  decide (f.cc < 8) && decide (f.kn < 16) && decide (f.vc < 256) && decide (f.sc < 1024) && decide (f.off < 536870912)
/-- The checks of a BR word. In YIELDW.B KN is unused, and in YIELDW.F SC is (R324). -/
def BrF.check (f : BrF) (p : BrSpec) : Nat :=
  let yieldw := p.kn && p.sc
  details
    (zeroUnless p.kn f.kn && zeroUnless p.vc f.vc && zeroUnless p.sc f.sc && zeroUnless p.off f.off
      && zeroUnless (decide (p.ccs ≠ 0)) f.cc
      && (!yieldw || (if f.cc = 0 then decide (f.kn = 0) else decide (f.sc = 0) && decide (f.kn < 8))))
    (decide (p.ccs = 0) || decide (f.cc < p.ccs))
    true

/-- Every field fits its width. -/
def KopF.fits (f : KopF) : Bool :=
  decide (f.kd < 16) && decide (f.ks < 16) && decide (f.fld < 4) && decide (f.sr < 1024)
/-- The checks of a KOP word: the fields that each form of R324 does not use are zero. -/
def KopF.check (f : KopF) (kmov : KopSpec) : Nat :=
  let ok :=
    if kmov then
      if f.fld = 0 then !f.dir && decide (f.sr = 0)
      else if f.dir then decide (f.kd = 0) else decide (f.ks = 0)
    else decide (f.fld = 1) && !f.dir && decide (f.ks = 0)
  details ok true true

/-- Every field fits its width. -/
def SpcF.fits (f : SpcF) : Bool := decide (f.sreg < 32) && decide (f.reg < 1024)
/-- The checks of an SPC word (R325): LANEID and NEST take DV = 1, the others DV = 0. -/
def SpcF.check (f : SpcF) (write : SpcSpec) : Nat :=
  let vec := decide (f.sreg = 0) || decide (f.sreg = 7)
  details
    (!f.dv || decide (f.reg < 256))
    (decide (f.sreg ≤ 11) && decide (f.dv = vec) && (!write || decide (7 ≤ f.sreg)))
    true

/-- Every field fits its width. -/
def WcntF.fits (f : WcntF) : Bool :=
  decide (f.vm < 16) && decide (f.sm < 16) && decide (f.mx < 16) && decide (f.cp < 16) && decide (f.st < 16)
/-- A WCNT word has no further check. -/
def WcntF.check (_ : WcntF) : Nat := 0

/-- SCOPE and ORD of R322: both zero or both non-zero on an access, SCOPE non-zero on an atomic, ACQ for loads, REL for
stores. -/
def qualOk (scope ord : Nat) (atomic store : Bool) : Bool :=
  decide (scope ≤ 5) && decide (ord ≤ 2) &&
    if atomic then decide (scope ≠ 0)
    else (decide (scope = 0) == decide (ord = 0)) && !(decide (ord = 1) && store) && !(decide (ord = 2) && !store)

/-- Every field fits its width. -/
def MemF.fits (f : MemF) : Bool :=
  decide (f.scope < 8) && decide (f.ord < 4) && decide (f.vr < 256) && decide (f.sb < 1024) && decide (f.vx < 256)
    && decide (f.off < 8192) && decide (f.la < 16)
/-- The checks of a MEM word. -/
def MemF.check (f : MemF) (p : MemSpec) : Nat :=
  details
    ((f.xv || decide (f.vx = 0)) && (!f.ofr || (p.store || decide (p.space = .scratch))))
    (p.tys.contains f.ty.code &&
      (if p.space = .scratch then decide (f.scope = 0) && decide (f.ord = 0) else qualOk f.scope f.ord false p.store))
    true

/-- Every field fits its width. -/
def SmemF.fits (f : SmemF) : Bool :=
  decide (f.scope < 8) && decide (f.ord < 4) && decide (f.sd < 1024) && decide (f.sb < 1024)
    && decide (f.off < 1048576) && decide (f.la < 16)
/-- The checks of an SMEM word. -/
def SmemF.check (f : SmemF) (p : SmemSpec) : Nat :=
  details (!f.ofr || p.store) (p.tys.contains f.ty.code && qualOk f.scope f.ord false p.store) true

/-- The types and operations of R384: I and N for ADD, MIN and MAX, B for the bitwise ones, EXCH and CAS, and F32 and F64
for ADD, MIN and MAX. Code 15 is F64 here (log 17). -/
def atomTyOk (aop : Nat) (ty : Ty) : Bool :=
  if aop ≤ 2 then [2, 6, 3, 7, 14, 15].contains ty.code else [10, 11].contains ty.code

/-- Every field fits its width. -/
def MemaF.fits (f : MemaF) : Bool :=
  decide (f.scope < 8) && decide (f.ord < 4) && decide (f.aop < 8) && decide (f.vd < 256) && decide (f.sb < 1024)
    && decide (f.vx < 256) && decide (f.va < 256) && decide (f.la < 16)
/-- The checks of a MEMA word. -/
def MemaF.check (f : MemaF) : Nat :=
  details (f.xv || decide (f.vx = 0)) (atomTyOk f.aop f.ty && qualOk f.scope f.ord true false) true

/-- Every field fits its width. -/
def SatmF.fits (f : SatmF) : Bool :=
  decide (f.scope < 8) && decide (f.ord < 4) && decide (f.aop < 8) && decide (f.sd < 1024) && decide (f.sb < 1024)
    && decide (f.sa < 1024) && decide (f.la < 16)
/-- The checks of a SATM word. -/
def SatmF.check (f : SatmF) : Nat :=
  details true (atomTyOk f.aop f.ty && qualOk f.scope f.ord true false) true

/-- Bits of an element of a VCV format code (R185, R324), zero where the code names no format. -/
def fmtBits : Nat → Nat
  | 0 => 32 | 1 => 16 | 2 => 16 | 3 => 64 | 4 => 8 | 5 => 8 | 6 => 4 | 7 => 4 | 8 => 6 | 9 => 8 | 10 => 8 | 11 => 8
  | 12 => 4 | 13 => 1 | 14 => 16 | 15 => 16 | 16 => 32 | 17 => 32 | 18 => 64 | 19 => 64 | _ => 0

/-- Elements of one register, or of one pair for 64 bits (R413). -/
def fmtCount (c : Nat) : Nat := if fmtBits c = 64 then 1 else if fmtBits c = 0 then 1 else 32 / fmtBits c

/-- The format pair is one that the instruction accepts (R414 to R416). A pair that is not raises ILLFMT in the meaning. -/
def VcvSpec.pairOk (p : VcvSpec) (d s : Nat) : Bool :=
  let plain (c : Nat) : Bool := [0, 1, 2, 3, 4, 5, 10, 11, 14, 15, 16, 17, 18, 19].contains c
  let frac : Nat → Nat := fun c => match c with
    | 0 => 23 | 1 => 10 | 2 => 7 | 3 => 52 | 4 => 3 | _ => 2
  match p with
  | .vcvt => plain d && plain s
  | .vcvts => [0, 1, 2, 3].contains s && [0, 1, 2, 4, 5].contains d && decide (frac d < frac s)
  | .vpack => (decide (d = 12) && [10, 14, 16].contains s) || ([6, 7, 8, 9].contains d && decide (s = 0))
  | .vunpack => (decide (s = 12) && [10, 14, 16].contains d) || ([6, 7, 8, 9].contains s && decide (d = 0))

/-- A block format (R185). -/
def isBlock (c : Nat) : Bool := [6, 7, 8, 9].contains c

/-- The fields are those of the block form of VPACK or VUNPACK (R416). -/
def VcvSpec.block (p : VcvSpec) (d s : Nat) : Bool := match p with
  | .vpack => isBlock d
  | .vunpack => isBlock s
  | _ => false

/-- The fields are those of the I4 form of VPACK or VUNPACK (R416). -/
def VcvSpec.i4 (p : VcvSpec) (d s : Nat) : Bool := match p with
  | .vpack => decide (d = 12)
  | .vunpack => decide (s = 12)
  | _ => false

/-- The elements are placed by R413, and both formats have a number of elements there. -/
def VcvSpec.placed (p : VcvSpec) (d s : Nat) : Bool :=
  let counted (c : Nat) : Bool := decide (c < 20) && !isBlock c && decide (c ≠ 13)
  (decide (p = .vcvt) || decide (p = .vcvts) || p.i4 d s) && counted d && counted s

/-- Every field fits its width. -/
def VcvF.fits (f : VcvF) : Bool :=
  decide (f.dfmt < 32) && decide (f.sfmt < 32) && decide (f.vd < 256) && f.a.fits && f.b.fits && decide (f.rm < 4)
    && decide (f.ps < 4)
/-- The checks of a VCV word (R412 to R416). They come before the one of the format pair (R326). -/
def VcvF.check (f : VcvF) (p : VcvSpec) : Nat :=
  let block := p.block f.dfmt f.sfmt
  let placed := p.placed f.dfmt f.sfmt
  let nd := fmtCount f.dfmt
  let ns := fmtCount f.sfmt
  let bUnread := placed && decide (f.ps * nd + nd ≤ ns)
  let noRound := decide (p = .vcvts) || p.i4 f.dfmt f.sfmt
  let blockUnpack := block && decide (p = .vunpack)
  let vOrUni (o : Opnd) : Bool := match o with
    | .imm _ => [0, 3, 16, 17, 18, 19].contains f.sfmt
    | _ => true
  details
    (f.a.clean .any && f.b.clean .any && (f.rmo || decide (f.rm = 0)) && (!noRound || (!f.rmo && decide (f.rm = 0)))
      && (!bUnread || decide (f.b = .v 0))
      && (!block || (decide (f.b = .v 0) && !f.sat && decide (f.ps = 0))))
    (!placed || decide (f.ps * nd < 2 * ns))
    (if blockUnpack then f.a.kindOk .vec else vOrUni f.a && vOrUni f.b)

/-- Every field fits its width. -/
def MtxF.fits (f : MtxF) : Bool :=
  decide (f.ad < 16) && decide (f.ta < 32) && decide (f.tb < 32) && decide (f.mod < 8) && decide (f.sa < 1024)
    && decide (f.fmtc < 32) && decide (f.rm < 4) && decide (f.la < 16)
/-- The checks of an MTX word (R324, R402). -/
def MtxF.check (f : MtxF) (p : MtxSpec) : Nat :=
  details
    (zeroUnless p.ad f.ad && decide (f.ta ≤ p.ta) && zeroUnless p.tb f.tb && zeroUnless p.sa f.sa
      && zeroUnless p.fmtc f.fmtc && zeroUnless p.rm f.rm && (p.sat || !f.sat) && (!p.mods.isEmpty || decide (f.mod = 0)))
    (p.mods.isEmpty || p.mods.contains f.mod)
    true

/-- Every field fits its width. -/
def CpyF.fits (f : CpyF) : Bool :=
  decide (f.qn < 8) && decide (f.kind < 8) && decide (f.sa < 1024) && decide (f.sb < 1024) && f.sz.fits
    && decide (f.so < 1024) && decide (f.la < 16)
/-- The checks of a CPYF word (R389 to R391). -/
def CpyF.check (f : CpyF) (p : CpySpec) : Nat :=
  details
    (f.sz.clean .uni && (f.bv || decide (f.so = 0)) && (!p.pref || (if f.bv then decide (f.sa = 0) else decide (f.sa < 8))))
    (p.kinds.contains f.kind)
    (f.sz.kindOk .uni)

/-- Every field fits its width. -/
def BarF.fits (f : BarF) : Bool :=
  decide (f.sd < 1024) && decide (f.sa < 1024) && decide (f.rank < 16) && decide (f.n < 4096) && decide (f.sg < 1024)
    && decide (f.la < 16)
/-- The checks of a BAR word (R324, R393 to R395). -/
def BarF.check (f : BarF) (p : BarSpec) : Nat :=
  details
    (zeroUnless p.sd f.sd && zeroUnless p.n f.n && zeroUnless p.sg f.sg && (p.rank || !f.rmt)
      && (f.rmt || decide (f.rank = 0)))
    true true

/-- Every field fits its width. -/
def EngF.fits (f : EngF) : Bool :=
  decide (f.sd < 1024) && decide (f.sa < 1024) && decide (f.sb < 1024) && decide (f.x8 < 256) && decide (f.n4 < 16)
    && decide (f.n2 < 4) && decide (f.fn < 8) && decide (f.m3 < 8) && decide (f.la < 16)
/-- The checks of an ENG word (R325). A code field that the form does not use accepts zero alone. -/
def EngF.check (f : EngF) (p : EngSpec) : Nat :=
  details
    (zeroUnless p.sd f.sd && zeroUnless p.sa f.sa && zeroUnless p.sb f.sb && decide (f.x8 ≤ p.x8) && zeroUnless p.n4 f.n4
      && zeroUnless p.fn f.fn && (decide (p.m3 ≠ [0]) || decide (f.m3 = 0)) && (decide (p.n2 ≠ [0]) || decide (f.n2 = 0)))
    (p.m3.contains f.m3 && p.n2.contains f.n2)
    true

/-- The fields that SMOV accepts (R338, R324, R325). -/
def specSmov : SopSpec := ⟨[10, 11], .zero, .uni, .unused, .unused, false⟩
/-- The fields that SMOVI accepts (R339, R324, R325). -/
def specSmovi : SimmSpec := true
/-- The fields that SADD accepts (R338, R324, R325). -/
def specSadd : SopSpec := ⟨[2, 6, 3, 7], .zero, .uni, .uni, .unused, false⟩
/-- The fields that SSUB accepts (R338, R324, R325). -/
def specSsub : SopSpec := ⟨[2, 6, 3, 7], .zero, .uni, .uni, .unused, false⟩
/-- The fields that SMUL accepts (R338, R324, R325). -/
def specSmul : SopSpec := ⟨[2, 6, 3, 7], .zero, .uni, .uni, .unused, false⟩
/-- The fields that SMULH accepts (R338, R324, R325). -/
def specSmulh : SopSpec := ⟨[2, 6, 3, 7], .zero, .uni, .uni, .unused, false⟩
/-- The fields that SDIV accepts (R338, R324, R325). -/
def specSdiv : SopSpec := ⟨[2, 6, 3, 7], .zero, .uni, .uni, .unused, true⟩
/-- The fields that SREM accepts (R338, R324, R325). -/
def specSrem : SopSpec := ⟨[2, 6, 3, 7], .zero, .uni, .uni, .unused, true⟩
/-- The fields that SAND accepts (R338, R324, R325). -/
def specSand : SopSpec := ⟨[10, 11], .zero, .uni, .uni, .unused, false⟩
/-- The fields that SOR accepts (R338, R324, R325). -/
def specSor : SopSpec := ⟨[10, 11], .zero, .uni, .uni, .unused, false⟩
/-- The fields that SXOR accepts (R338, R324, R325). -/
def specSxor : SopSpec := ⟨[10, 11], .zero, .uni, .uni, .unused, false⟩
/-- The fields that SNOT accepts (R338, R324, R325). -/
def specSnot : SopSpec := ⟨[10, 11], .zero, .uni, .unused, .unused, false⟩
/-- The fields that SSHL accepts (R338, R324, R325). -/
def specSshl : SopSpec := ⟨[10, 11], .zero, .uni, .uni, .unused, false⟩
/-- The fields that SSHR accepts (R338, R324, R325). -/
def specSshr : SopSpec := ⟨[10, 11], .zero, .uni, .uni, .unused, false⟩
/-- The fields that SSAR accepts (R338, R324, R325). -/
def specSsar : SopSpec := ⟨[2, 3], .zero, .uni, .uni, .unused, false⟩
/-- The fields that SMIN accepts (R338, R324, R325). -/
def specSmin : SopSpec := ⟨[2, 6, 3, 7], .zero, .uni, .uni, .unused, false⟩
/-- The fields that SMAX accepts (R338, R324, R325). -/
def specSmax : SopSpec := ⟨[2, 6, 3, 7], .zero, .uni, .uni, .unused, false⟩
/-- The fields that SCMP accepts (R338, R324, R325). -/
def specScmp : SopSpec := ⟨[2, 6, 3, 7], .scc, .uni, .uni, .unused, false⟩
/-- The fields that SSEL accepts (R338, R324, R325). -/
def specSsel : SopSpec := ⟨[10, 11], .zero, .uni, .uni, .uni, false⟩
/-- The fields that NOP accepts (R343, R324, R325). -/
def specNop : BrSpec := ⟨false, false, false, false, 0⟩
/-- The fields that BRA accepts (R341, R324, R325). -/
def specBra : BrSpec := ⟨false, false, false, true, 0⟩
/-- The fields that BRC accepts (R341, R324, R325). -/
def specBrc : BrSpec := ⟨false, false, true, true, 4⟩
/-- The fields that CALL accepts (R342, R324, R325). -/
def specCall : BrSpec := ⟨false, false, true, true, 0⟩
/-- The fields that RET accepts (R342, R324, R325). -/
def specRet : BrSpec := ⟨false, false, true, false, 0⟩
/-- The fields that JMPI accepts (R342, R324, R325). -/
def specJmpi : BrSpec := ⟨false, false, true, false, 0⟩
/-- The fields that EXIT accepts (R247, R324, R325). -/
def specExit : BrSpec := ⟨false, false, false, false, 0⟩
/-- The fields that YIELD accepts (R343, R324, R325). -/
def specYield : BrSpec := ⟨false, false, false, false, 0⟩
/-- The fields that SRDSR accepts (R344, R324, R325). -/
def specSrdsr : SpcSpec := false
/-- The fields that SWRSR accepts (R344, R324, R325). -/
def specSwrsr : SpcSpec := true
/-- The fields that SETFMT accepts (R345, R324, R325). -/
def specSetfmt : SimmSpec := false
/-- The fields that SETPART accepts (R346, R324, R325). -/
def specSetpart : SimmSpec := false
/-- The fields that IF accepts (R248, R324, R325). -/
def specIfLanes : BrSpec := ⟨false, true, false, false, 0⟩
/-- The fields that ELSE accepts (R248, R324, R325). -/
def specElseLanes : BrSpec := ⟨false, false, false, false, 0⟩
/-- The fields that ENDIF accepts (R248, R324, R325). -/
def specEndif : BrSpec := ⟨false, false, false, false, 0⟩
/-- The fields that BRV accepts (R252, R324, R325). -/
def specBrv : BrSpec := ⟨false, true, false, true, 0⟩
/-- The fields that MARK accepts (R251, R324, R325). -/
def specMark : BrSpec := ⟨true, false, false, true, 0⟩
/-- The fields that JOIN accepts (R254, R324, R325). -/
def specJoin : BrSpec := ⟨true, false, false, false, 0⟩
/-- The fields that KMOV accepts (R352, R324, R325). -/
def specKmov : KopSpec := true
/-- The fields that KAND accepts (R352, R324, R325). -/
def specKand : KopSpec := false
/-- The fields that KOR accepts (R352, R324, R325). -/
def specKor : KopSpec := false
/-- The fields that SPIN accepts (R354, R324, R325). -/
def specSpin : BrSpec := ⟨false, false, false, false, 0⟩
/-- The fields that VADD accepts (R358, R324, R325). -/
def specVadd : VopSpec := ⟨[2, 6, 3, 7], .sat, .any, .any, .unused, false⟩
/-- The fields that VSUB accepts (R358, R324, R325). -/
def specVsub : VopSpec := ⟨[2, 6, 3, 7], .sat, .any, .any, .unused, false⟩
/-- The fields that VMUL accepts (R358, R324, R325). -/
def specVmul : VopSpec := ⟨[2, 6, 3, 7], .zero, .any, .any, .unused, false⟩
/-- The fields that VMULH accepts (R358, R324, R325). -/
def specVmulh : VopSpec := ⟨[2, 6, 3, 7], .zero, .any, .any, .unused, false⟩
/-- The fields that VMAD accepts (R358, R324, R325). -/
def specVmad : VopSpec := ⟨[2, 6, 3, 7], .zero, .any, .any, .any, false⟩
/-- The fields that VAND accepts (R358, R324, R325). -/
def specVand : VopSpec := ⟨[10, 11], .zero, .any, .any, .unused, false⟩
/-- The fields that VOR accepts (R358, R324, R325). -/
def specVor : VopSpec := ⟨[10, 11], .zero, .any, .any, .unused, false⟩
/-- The fields that VXOR accepts (R358, R324, R325). -/
def specVxor : VopSpec := ⟨[10, 11], .zero, .any, .any, .unused, false⟩
/-- The fields that VNOT accepts (R358, R324, R325). -/
def specVnot : VopSpec := ⟨[10, 11], .zero, .any, .unused, .unused, false⟩
/-- The fields that VSHL accepts (R358, R324, R325). -/
def specVshl : VopSpec := ⟨[10, 11], .zero, .any, .any, .unused, false⟩
/-- The fields that VSHR accepts (R358, R324, R325). -/
def specVshr : VopSpec := ⟨[10, 11], .zero, .any, .any, .unused, false⟩
/-- The fields that VSAR accepts (R358, R324, R325). -/
def specVsar : VopSpec := ⟨[2, 3], .zero, .any, .any, .unused, false⟩
/-- The fields that VMIN accepts (R358, R324, R325). -/
def specVmin : VopSpec := ⟨[2, 6, 3, 7], .zero, .any, .any, .unused, false⟩
/-- The fields that VMAX accepts (R358, R324, R325). -/
def specVmax : VopSpec := ⟨[2, 6, 3, 7], .zero, .any, .any, .unused, false⟩
/-- The fields that VABS accepts (R358, R324, R325). -/
def specVabs : VopSpec := ⟨[2, 3], .zero, .any, .unused, .unused, false⟩
/-- The fields that VCLZ accepts (R358, R324, R325). -/
def specVclz : VopSpec := ⟨[10, 11], .zero, .any, .unused, .unused, false⟩
/-- The fields that VPOPC accepts (R358, R324, R325). -/
def specVpopc : VopSpec := ⟨[10, 11], .zero, .any, .unused, .unused, false⟩
/-- The fields that VBREV accepts (R358, R324, R325). -/
def specVbrev : VopSpec := ⟨[10, 11], .zero, .any, .unused, .unused, false⟩
/-- The fields that VCMP accepts (R358, R324, R325). -/
def specVcmp : VopSpec := ⟨[2, 6, 3, 7], .cc, .any, .any, .unused, false⟩
/-- The fields that VSEL accepts (R358, R324, R325). -/
def specVsel : VopSpec := ⟨[10, 11], .zero, .any, .any, .any, false⟩
/-- The fields that VMOV accepts (R358, R324, R325). -/
def specVmov : VopSpec := ⟨[10, 11], .zero, .any, .unused, .unused, false⟩
/-- The fields that VIOTA accepts (R358, R324, R325). -/
def specViota : VopSpec := ⟨[2, 6, 3, 7], .zero, .any, .any, .unused, false⟩
/-- The fields that VMOVS accepts (R360, R324, R325). -/
def specVmovs : SopSpec := ⟨[10, 11], .zero, .vec, .uni, .unused, false⟩
/-- The fields that VFADD accepts (R361, R324, R325). -/
def specVfadd : VopSpec := ⟨[12, 13, 14, 15], .rm, .any, .any, .unused, false⟩
/-- The fields that VFSUB accepts (R361, R324, R325). -/
def specVfsub : VopSpec := ⟨[12, 13, 14, 15], .rm, .any, .any, .unused, false⟩
/-- The fields that VFMUL accepts (R361, R324, R325). -/
def specVfmul : VopSpec := ⟨[12, 13, 14, 15], .rm, .any, .any, .unused, false⟩
/-- The fields that VFMA accepts (R361, R324, R325). -/
def specVfma : VopSpec := ⟨[12, 13, 14, 15], .rm, .any, .any, .any, false⟩
/-- The fields that VFMIN accepts (R205, R324, R325). -/
def specVfmin : VopSpec := ⟨[12, 13, 14, 15], .zero, .any, .any, .unused, false⟩
/-- The fields that VFMAX accepts (R205, R324, R325). -/
def specVfmax : VopSpec := ⟨[12, 13, 14, 15], .zero, .any, .any, .unused, false⟩
/-- The fields that VFMINN accepts (R205, R324, R325). -/
def specVfminn : VopSpec := ⟨[12, 13, 14, 15], .zero, .any, .any, .unused, false⟩
/-- The fields that VFMAXN accepts (R205, R324, R325). -/
def specVfmaxn : VopSpec := ⟨[12, 13, 14, 15], .zero, .any, .any, .unused, false⟩
/-- The fields that VFABS accepts (R362, R324, R325). -/
def specVfabs : VopSpec := ⟨[12, 13, 14, 15], .zero, .any, .unused, .unused, false⟩
/-- The fields that VFNEG accepts (R362, R324, R325). -/
def specVfneg : VopSpec := ⟨[12, 13, 14, 15], .zero, .any, .unused, .unused, false⟩
/-- The fields that VFRCP accepts (R204, R324, R325). -/
def specVfrcp : VopSpec := ⟨[12, 13, 14, 15], .rm, .any, .unused, .unused, true⟩
/-- The fields that VFRSQ accepts (R204, R324, R325). -/
def specVfrsq : VopSpec := ⟨[12, 13, 14, 15], .rm, .any, .unused, .unused, true⟩
/-- The fields that VFSQRT accepts (R204, R324, R325). -/
def specVfsqrt : VopSpec := ⟨[12, 13, 14, 15], .rm, .any, .unused, .unused, true⟩
/-- The fields that VFDIV accepts (R204, R324, R325). -/
def specVfdiv : VopSpec := ⟨[12, 13, 14, 15], .rm, .any, .any, .unused, true⟩
/-- The fields that VFEXP2 accepts (R204, R324, R325). -/
def specVfexp2 : VopSpec := ⟨[12, 13, 14, 15], .rm, .any, .unused, .unused, true⟩
/-- The fields that VFLOG2 accepts (R204, R324, R325). -/
def specVflog2 : VopSpec := ⟨[12, 13, 14, 15], .rm, .any, .unused, .unused, true⟩
/-- The fields that VFSIN accepts (R204, R324, R325). -/
def specVfsin : VopSpec := ⟨[12, 13, 14, 15], .rm, .any, .unused, .unused, true⟩
/-- The fields that VFCOS accepts (R204, R324, R325). -/
def specVfcos : VopSpec := ⟨[12, 13, 14, 15], .rm, .any, .unused, .unused, true⟩
/-- The fields that VFCLASS accepts (R363, R324, R325). -/
def specVfclass : VopSpec := ⟨[12, 13, 14, 15], .zero, .any, .unused, .unused, false⟩
/-- The fields that VFRND accepts (R364, R324, R325). -/
def specVfrnd : VopSpec := ⟨[12, 13, 14, 15], .rm, .any, .unused, .unused, false⟩
/-- The fields that VFCMP accepts (R365, R324, R325). -/
def specVfcmp : VopSpec := ⟨[12, 13, 14, 15], .cc, .any, .any, .unused, false⟩
/-- The fields that VADDMIN accepts (R206, R324, R325). -/
def specVaddmin : VopSpec := ⟨[2, 6, 12, 13, 14, 15], .rmFloat, .any, .any, .any, false⟩
/-- The fields that VADDMAX accepts (R206, R324, R325). -/
def specVaddmax : VopSpec := ⟨[2, 6, 12, 13, 14, 15], .rmFloat, .any, .any, .any, false⟩
/-- The fields that VSHFL accepts (R367, R324, R325). -/
def specVshfl : VopSpec := ⟨[10, 11], .zero, .vec, .any, .any, false⟩
/-- The fields that VSHUP accepts (R367, R324, R325). -/
def specVshup : VopSpec := ⟨[10, 11], .zero, .vec, .uni, .any, false⟩
/-- The fields that VSHDN accepts (R367, R324, R325). -/
def specVshdn : VopSpec := ⟨[10, 11], .zero, .vec, .uni, .any, false⟩
/-- The fields that VBCAST accepts (R368, R324, R325). -/
def specVbcast : VopSpec := ⟨[10, 11], .zero, .vec, .uni, .unused, false⟩
/-- The fields that VVOTE accepts (R369, R324, R325). -/
def specVvote : VopSpec := ⟨[10], .vote, .vec, .unused, .unused, false⟩
/-- The fields that VRED accepts (R370, R324, R325). -/
def specVred : VopSpec := ⟨[2, 6, 3, 7, 10, 11, 12, 13, 14, 15], .red, .vec, .unused, .unused, false⟩
/-- The fields that VSCAN accepts (R370, R324, R325). -/
def specVscan : VopSpec := ⟨[2, 6, 3, 7, 10, 11, 12, 13, 14, 15], .scan, .vec, .unused, .unused, false⟩
/-- The fields that VCMPX accepts (R372, R324, R325). -/
def specVcmpx : VopSpec := ⟨[2, 6, 14], .desc, .vec, .uni, .uni, false⟩
/-- The fields that VMATCH accepts (R369, R324, R325). -/
def specVmatch : VopSpec := ⟨[10, 11], .zero, .vec, .unused, .unused, false⟩
/-- The fields that VCOMPACT accepts (R373, R324, R325). -/
def specVcompact : VopSpec := ⟨[10, 11], .zero, .vec, .any, .any, false⟩
/-- The fields that VCVT accepts (R414, R324, R325). -/
def specVcvt : VcvSpec := .vcvt
/-- The fields that VCVTS accepts (R415, R324, R325). -/
def specVcvts : VcvSpec := .vcvts
/-- The fields that VPACK accepts (R416, R324, R325). -/
def specVpack : VcvSpec := .vpack
/-- The fields that VUNPACK accepts (R416, R324, R325). -/
def specVunpack : VcvSpec := .vunpack
/-- The fields that LD accepts (R379, R324, R325). -/
def specLd : MemSpec := ⟨[0, 4, 1, 5, 10, 11, 15], .global, false⟩
/-- The fields that LDR accepts (R380, R324, R325). -/
def specLdr : MemSpec := ⟨[0, 4, 1, 5, 10, 11, 15], .global, false⟩
/-- The fields that ST accepts (R381, R324, R325). -/
def specSt : MemSpec := ⟨[8, 9, 10, 11, 15], .global, true⟩
/-- The fields that LDS accepts (R382, R324, R325). -/
def specLds : MemSpec := ⟨[0, 4, 1, 5, 10, 11, 15], .scratch, false⟩
/-- The fields that STS accepts (R382, R324, R325). -/
def specSts : MemSpec := ⟨[8, 9, 10, 11, 15], .scratch, true⟩
/-- The fields that SLD accepts (R383, R324, R325). -/
def specSld : SmemSpec := ⟨[0, 4, 1, 5, 10, 11], .global, false⟩
/-- The fields that SST accepts (R383, R324, R325). -/
def specSst : SmemSpec := ⟨[8, 9, 10, 11], .global, true⟩
/-- The fields that FENCE accepts (R220, R324, R325). -/
def specFence : EngSpec := ⟨false, false, false, 0, false, true, [1, 2, 3, 4, 5], [0, 1, 2]⟩
/-- The fields that WAITF accepts (R386, R324, R325). -/
def specWaitf : EngSpec := ⟨false, false, false, 0, false, true, [0], [0]⟩
/-- The fields that PHASE accepts (R387, R324, R325). -/
def specPhase : EngSpec := ⟨true, true, true, 0, false, false, [0], [0]⟩
/-- The fields that PUBLISH accepts (R388, R324, R325). -/
def specPublish : EngSpec := ⟨false, true, false, 0, false, true, [0], [0]⟩
/-- The fields that SRAMCFG_FIFO accepts (R397, R324, R325). -/
def specSramcfgFifo : EngSpec := ⟨true, false, false, 0, false, false, [0], [0]⟩
/-- The fields that SRAMCFG_FREE accepts (R397, R324, R325). -/
def specSramcfgFree : EngSpec := ⟨false, true, false, 0, false, false, [1], [0]⟩
/-- The fields that QPUT accepts (R398, R324, R325). -/
def specQput : EngSpec := ⟨false, true, false, 255, false, false, [0, 1], [0]⟩
/-- The fields that QGET accepts (R398, R324, R325). -/
def specQget : EngSpec := ⟨false, true, false, 255, false, false, [0, 1], [0]⟩
/-- The fields that BARINIT accepts (R393, R324, R325). -/
def specBarinit : BarSpec := ⟨false, true, false, false⟩
/-- The fields that BARINV accepts (R393, R324, R325). -/
def specBarinv : BarSpec := ⟨false, false, false, false⟩
/-- The fields that BARARR accepts (R394, R324, R325). -/
def specBararr : BarSpec := ⟨true, true, false, true⟩
/-- The fields that BARWAIT accepts (R395, R324, R325). -/
def specBarwait : BarSpec := ⟨false, false, true, true⟩
/-- The fields that YIELDW accepts (R396, R324, R325). -/
def specYieldw : BrSpec := ⟨true, false, true, true, 2⟩
/-- The fields that REC_BEGIN accepts (R399, R324, R325). -/
def specRecBegin : EngSpec := ⟨true, true, true, 63, false, false, [0], [0]⟩
/-- The fields that REC_END accepts (R399, R324, R325). -/
def specRecEnd : EngSpec := ⟨true, false, false, 63, false, false, [0], [0]⟩
/-- The fields that REC_REPLAY accepts (R399, R324, R325). -/
def specRecReplay : EngSpec := ⟨true, false, false, 63, false, false, [0], [0]⟩
/-- The fields that REC_FORGET accepts (R399, R324, R325). -/
def specRecForget : EngSpec := ⟨true, false, false, 63, false, false, [0], [0]⟩
/-- The fields that REC_STAT accepts (R400, R324, R325). -/
def specRecStat : EngSpec := ⟨true, false, false, 63, false, false, [0], [0]⟩
/-- The fields that CPY_GS accepts (R389, R324, R325). -/
def specCpyGs : CpySpec := ⟨[0], false⟩
/-- The fields that CPY_SG accepts (R389, R324, R325). -/
def specCpySg : CpySpec := ⟨[1], false⟩
/-- The fields that CPY_GG accepts (R389, R324, R325). -/
def specCpyGg : CpySpec := ⟨[2], false⟩
/-- The fields that CPY_SR accepts (R389, R324, R325). -/
def specCpySr : CpySpec := ⟨[3], false⟩
/-- The fields that CPY_RS accepts (R389, R324, R325). -/
def specCpyRs : CpySpec := ⟨[4], false⟩
/-- The fields that PREF accepts (R391, R324, R325). -/
def specPref : CpySpec := ⟨[0], true⟩
/-- The fields that CPYR_ADD accepts (R390, R324, R325). -/
def specCpyrAdd : CpySpec := ⟨[0, 1, 2, 3, 4, 5], false⟩
/-- The fields that CPYR_MIN accepts (R390, R324, R325). -/
def specCpyrMin : CpySpec := ⟨[0, 1, 2, 3, 4, 5], false⟩
/-- The fields that CPYR_MAX accepts (R390, R324, R325). -/
def specCpyrMax : CpySpec := ⟨[0, 1, 2, 3, 4, 5], false⟩
/-- The fields that CPYR_AND accepts (R390, R324, R325). -/
def specCpyrAnd : CpySpec := ⟨[6, 7], false⟩
/-- The fields that CPYR_OR accepts (R390, R324, R325). -/
def specCpyrOr : CpySpec := ⟨[6, 7], false⟩
/-- The fields that CFENCE accepts (R132, R324, R325). -/
def specCfence : EngSpec := ⟨false, false, false, 255, false, true, [0], [0]⟩
/-- The fields that CSTEP accepts (R146, R324, R325). -/
def specCstep : EngSpec := ⟨false, false, false, 0, false, false, [0], [0]⟩
/-- The fields that MMA accepts (R405, R324, R325). -/
def specMma : MtxSpec := ⟨true, 31, true, false, false, false, false, [0]⟩
/-- The fields that MMAB accepts (R405, R324, R325). -/
def specMmab : MtxSpec := ⟨true, 31, true, false, false, false, false, [0, 1]⟩
/-- The fields that MZERO accepts (R406, R324, R325). -/
def specMzero : MtxSpec := ⟨true, 0, false, false, false, false, false, []⟩
/-- The fields that MLDA accepts (R406, R324, R325). -/
def specMlda : MtxSpec := ⟨true, 0, false, true, false, false, false, []⟩
/-- The fields that MSTA accepts (R407, R324, R325). -/
def specMsta : MtxSpec := ⟨true, 0, false, true, true, true, true, []⟩
/-- The fields that MCVT accepts (R408, R324, R325). -/
def specMcvt : MtxSpec := ⟨true, 15, false, false, true, true, false, []⟩
/-- The fields that MPROG accepts (R409, R324, R325). -/
def specMprog : MtxSpec := ⟨true, 0, false, true, false, false, false, [0]⟩
/-- The fields that MPROG_SET accepts (R409, R324, R325). -/
def specMprogSet : MtxSpec := ⟨true, 0, false, true, false, false, false, [1]⟩
/-- The fields that TMAP accepts (R410, R324, R325). -/
def specTmap : MtxSpec := ⟨false, 31, false, true, false, false, false, [0]⟩
/-- The fields that TMAP_RD accepts (R410, R324, R325). -/
def specTmapRd : MtxSpec := ⟨false, 31, false, true, false, false, false, [1]⟩
/-- The fields that TSIDE accepts (R410, R324, R325). -/
def specTside : MtxSpec := ⟨false, 31, false, true, false, false, false, [0]⟩
/-- The fields that MNGI accepts (R418, R324, R325). -/
def specMngi : EngSpec := ⟨true, true, false, 0, false, false, [0], [0]⟩
/-- The fields that MNGU accepts (R98, R324, R325). -/
def specMngu : EngSpec := ⟨true, true, false, 0, false, false, [0], [0]⟩
/-- The fields that MNGF accepts (R419, R324, R325). -/
def specMngf : EngSpec := ⟨false, true, true, 0, false, false, [0], [0]⟩
/-- The fields that MNGS accepts (R420, R324, R325). -/
def specMngs : EngSpec := ⟨true, true, false, 0, false, false, [0], [0]⟩
/-- The fields that PLAUNCH accepts (R421, R324, R325). -/
def specPlaunch : EngSpec := ⟨false, true, false, 0, false, true, [0], [0]⟩
/-- The fields that PGO accepts (R422, R324, R325). -/
def specPgo : EngSpec := ⟨false, true, true, 255, true, false, [0], [0, 1, 2, 3]⟩
/-- The fields that PWAIT accepts (R421, R324, R325). -/
def specPwait : EngSpec := ⟨false, false, false, 0, false, true, [0], [0]⟩
/-- The fields that LAUNCH accepts (R423, R324, R325). -/
def specLaunch : EngSpec := ⟨false, true, false, 0, false, true, [0], [0]⟩
/-- The fields that LEAVE accepts (R424, R324, R325). -/
def specLeave : EngSpec := ⟨false, false, false, 0, false, false, [0, 1, 2, 3, 4], [0]⟩
/-- The fields that PLACE accepts (R425, R324, R325). -/
def specPlace : EngSpec := ⟨false, true, true, 0, false, false, [0], [0]⟩
/-- The fields that TRAP accepts (R426, R324, R325). -/
def specTrap : EngSpec := ⟨false, false, false, 255, false, false, [0], [0]⟩
/-- The fields that ERET accepts (R277, R324, R325). -/
def specEret : EngSpec := ⟨false, false, false, 0, false, false, [0], [0]⟩
/-- The fields that SYSCALL accepts (R427, R324, R325). -/
def specSyscall : EngSpec := ⟨false, false, false, 255, false, false, [0], [0]⟩
/-- The fields that CSRR accepts (R429, R324, R325). -/
def specCsrr : EngSpec := ⟨true, false, false, 255, true, false, [0], [0]⟩
/-- The fields that CSRW accepts (R429, R324, R325). -/
def specCsrw : EngSpec := ⟨false, true, false, 255, true, false, [0], [0]⟩
/-- The fields that TLBINV_ALL accepts (R430, R324, R325). -/
def specTlbinvAll : EngSpec := ⟨false, false, false, 0, false, false, [0], [0]⟩
/-- The fields that TLBINV_ASID accepts (R430, R324, R325). -/
def specTlbinvAsid : EngSpec := ⟨false, true, false, 0, false, false, [1], [0]⟩
/-- The fields that TLBINV_PAGE accepts (R430, R324, R325). -/
def specTlbinvPage : EngSpec := ⟨false, true, true, 0, false, false, [2], [0]⟩
/-- The fields that FLTRPL_ALL accepts (R287, R324, R325). -/
def specFltrplAll : EngSpec := ⟨false, false, false, 0, false, false, [0], [0]⟩
/-- The fields that BRK accepts (R426, R324, R325). -/
def specBrk : EngSpec := ⟨false, false, false, 127, false, false, [0], [0]⟩
/-- The fields that HALTBC accepts (R431, R324, R325). -/
def specHaltbc : EngSpec := ⟨false, false, false, 0, false, false, [0], [0]⟩

/-- A term that an instruction word can stand for: every field fits and is accepted. A machine step has no word. -/
def Instr.wf : Instr → Bool
  | .smov f => f.fits && f.check specSmov = 0
  | .smovi f => f.fits && f.check specSmovi = 0
  | .sadd f => f.fits && f.check specSadd = 0
  | .ssub f => f.fits && f.check specSsub = 0
  | .smul f => f.fits && f.check specSmul = 0
  | .smulh f => f.fits && f.check specSmulh = 0
  | .sdiv f => f.fits && f.check specSdiv = 0
  | .srem f => f.fits && f.check specSrem = 0
  | .sand f => f.fits && f.check specSand = 0
  | .sor f => f.fits && f.check specSor = 0
  | .sxor f => f.fits && f.check specSxor = 0
  | .snot f => f.fits && f.check specSnot = 0
  | .sshl f => f.fits && f.check specSshl = 0
  | .sshr f => f.fits && f.check specSshr = 0
  | .ssar f => f.fits && f.check specSsar = 0
  | .smin f => f.fits && f.check specSmin = 0
  | .smax f => f.fits && f.check specSmax = 0
  | .scmp f => f.fits && f.check specScmp = 0
  | .ssel f => f.fits && f.check specSsel = 0
  | .nop f => f.fits && f.check specNop = 0
  | .bra f => f.fits && f.check specBra = 0
  | .brc f => f.fits && f.check specBrc = 0
  | .call f => f.fits && f.check specCall = 0
  | .ret f => f.fits && f.check specRet = 0
  | .jmpi f => f.fits && f.check specJmpi = 0
  | .exit f => f.fits && f.check specExit = 0
  | .waitc f => f.fits && f.check = 0
  | .yield f => f.fits && f.check specYield = 0
  | .srdsr f => f.fits && f.check specSrdsr = 0
  | .swrsr f => f.fits && f.check specSwrsr = 0
  | .setfmt f => f.fits && f.check specSetfmt = 0
  | .setpart f => f.fits && f.check specSetpart = 0
  | .ifLanes f => f.fits && f.check specIfLanes = 0
  | .elseLanes f => f.fits && f.check specElseLanes = 0
  | .endif f => f.fits && f.check specEndif = 0
  | .brv f => f.fits && f.check specBrv = 0
  | .mark f => f.fits && f.check specMark = 0
  | .join f => f.fits && f.check specJoin = 0
  | .kmov f => f.fits && f.check specKmov = 0
  | .kand f => f.fits && f.check specKand = 0
  | .kor f => f.fits && f.check specKor = 0
  | .spin f => f.fits && f.check specSpin = 0
  | .vadd f => f.fits && f.check specVadd = 0
  | .vsub f => f.fits && f.check specVsub = 0
  | .vmul f => f.fits && f.check specVmul = 0
  | .vmulh f => f.fits && f.check specVmulh = 0
  | .vmad f => f.fits && f.check specVmad = 0
  | .vand f => f.fits && f.check specVand = 0
  | .vor f => f.fits && f.check specVor = 0
  | .vxor f => f.fits && f.check specVxor = 0
  | .vnot f => f.fits && f.check specVnot = 0
  | .vshl f => f.fits && f.check specVshl = 0
  | .vshr f => f.fits && f.check specVshr = 0
  | .vsar f => f.fits && f.check specVsar = 0
  | .vmin f => f.fits && f.check specVmin = 0
  | .vmax f => f.fits && f.check specVmax = 0
  | .vabs f => f.fits && f.check specVabs = 0
  | .vclz f => f.fits && f.check specVclz = 0
  | .vpopc f => f.fits && f.check specVpopc = 0
  | .vbrev f => f.fits && f.check specVbrev = 0
  | .vcmp f => f.fits && f.check specVcmp = 0
  | .vsel f => f.fits && f.check specVsel = 0
  | .vmov f => f.fits && f.check specVmov = 0
  | .viota f => f.fits && f.check specViota = 0
  | .vmovs f => f.fits && f.check specVmovs = 0
  | .vfadd f => f.fits && f.check specVfadd = 0
  | .vfsub f => f.fits && f.check specVfsub = 0
  | .vfmul f => f.fits && f.check specVfmul = 0
  | .vfma f => f.fits && f.check specVfma = 0
  | .vfmin f => f.fits && f.check specVfmin = 0
  | .vfmax f => f.fits && f.check specVfmax = 0
  | .vfminn f => f.fits && f.check specVfminn = 0
  | .vfmaxn f => f.fits && f.check specVfmaxn = 0
  | .vfabs f => f.fits && f.check specVfabs = 0
  | .vfneg f => f.fits && f.check specVfneg = 0
  | .vfrcp f => f.fits && f.check specVfrcp = 0
  | .vfrsq f => f.fits && f.check specVfrsq = 0
  | .vfsqrt f => f.fits && f.check specVfsqrt = 0
  | .vfdiv f => f.fits && f.check specVfdiv = 0
  | .vfexp2 f => f.fits && f.check specVfexp2 = 0
  | .vflog2 f => f.fits && f.check specVflog2 = 0
  | .vfsin f => f.fits && f.check specVfsin = 0
  | .vfcos f => f.fits && f.check specVfcos = 0
  | .vfclass f => f.fits && f.check specVfclass = 0
  | .vfrnd f => f.fits && f.check specVfrnd = 0
  | .vfcmp f => f.fits && f.check specVfcmp = 0
  | .vaddmin f => f.fits && f.check specVaddmin = 0
  | .vaddmax f => f.fits && f.check specVaddmax = 0
  | .vshfl f => f.fits && f.check specVshfl = 0
  | .vshup f => f.fits && f.check specVshup = 0
  | .vshdn f => f.fits && f.check specVshdn = 0
  | .vbcast f => f.fits && f.check specVbcast = 0
  | .vvote f => f.fits && f.check specVvote = 0
  | .vred f => f.fits && f.check specVred = 0
  | .vscan f => f.fits && f.check specVscan = 0
  | .vcmpx f => f.fits && f.check specVcmpx = 0
  | .vmatch f => f.fits && f.check specVmatch = 0
  | .vcompact f => f.fits && f.check specVcompact = 0
  | .vcvt f => f.fits && f.check specVcvt = 0
  | .vcvts f => f.fits && f.check specVcvts = 0
  | .vpack f => f.fits && f.check specVpack = 0
  | .vunpack f => f.fits && f.check specVunpack = 0
  | .ld f => f.fits && f.check specLd = 0
  | .ldr f => f.fits && f.check specLdr = 0
  | .st f => f.fits && f.check specSt = 0
  | .lds f => f.fits && f.check specLds = 0
  | .sts f => f.fits && f.check specSts = 0
  | .atom f => f.fits && f.check = 0
  | .atoms f => f.fits && f.check = 0
  | .sld f => f.fits && f.check specSld = 0
  | .sst f => f.fits && f.check specSst = 0
  | .fence f => f.fits && f.check specFence = 0
  | .waitf f => f.fits && f.check specWaitf = 0
  | .phase f => f.fits && f.check specPhase = 0
  | .publish f => f.fits && f.check specPublish = 0
  | .sramcfgFifo f => f.fits && f.check specSramcfgFifo = 0
  | .sramcfgFree f => f.fits && f.check specSramcfgFree = 0
  | .qput f => f.fits && f.check specQput = 0
  | .qget f => f.fits && f.check specQget = 0
  | .barinit f => f.fits && f.check specBarinit = 0
  | .barinv f => f.fits && f.check specBarinv = 0
  | .bararr f => f.fits && f.check specBararr = 0
  | .barwait f => f.fits && f.check specBarwait = 0
  | .yieldw f => f.fits && f.check specYieldw = 0
  | .recBegin f => f.fits && f.check specRecBegin = 0
  | .recEnd f => f.fits && f.check specRecEnd = 0
  | .recReplay f => f.fits && f.check specRecReplay = 0
  | .recForget f => f.fits && f.check specRecForget = 0
  | .recStat f => f.fits && f.check specRecStat = 0
  | .recSliceApply _ _ => false
  | .cpyGs f => f.fits && f.check specCpyGs = 0
  | .cpySg f => f.fits && f.check specCpySg = 0
  | .cpyGg f => f.fits && f.check specCpyGg = 0
  | .cpySr f => f.fits && f.check specCpySr = 0
  | .cpyRs f => f.fits && f.check specCpyRs = 0
  | .pref f => f.fits && f.check specPref = 0
  | .cpyrAdd f => f.fits && f.check specCpyrAdd = 0
  | .cpyrMin f => f.fits && f.check specCpyrMin = 0
  | .cpyrMax f => f.fits && f.check specCpyrMax = 0
  | .cpyrAnd f => f.fits && f.check specCpyrAnd = 0
  | .cpyrOr f => f.fits && f.check specCpyrOr = 0
  | .cfence f => f.fits && f.check specCfence = 0
  | .cstep f => f.fits && f.check specCstep = 0
  | .mma f => f.fits && f.check specMma = 0
  | .mmab f => f.fits && f.check specMmab = 0
  | .matrixKStep _ => false
  | .mzero f => f.fits && f.check specMzero = 0
  | .mlda f => f.fits && f.check specMlda = 0
  | .msta f => f.fits && f.check specMsta = 0
  | .mcvt f => f.fits && f.check specMcvt = 0
  | .mprog f => f.fits && f.check specMprog = 0
  | .mprogSet f => f.fits && f.check specMprogSet = 0
  | .tmap f => f.fits && f.check specTmap = 0
  | .tmapRd f => f.fits && f.check specTmapRd = 0
  | .tside f => f.fits && f.check specTside = 0
  | .mngi f => f.fits && f.check specMngi = 0
  | .mngu f => f.fits && f.check specMngu = 0
  | .mngf f => f.fits && f.check specMngf = 0
  | .mngs f => f.fits && f.check specMngs = 0
  | .plaunch f => f.fits && f.check specPlaunch = 0
  | .pgo f => f.fits && f.check specPgo = 0
  | .pwait f => f.fits && f.check specPwait = 0
  | .launch f => f.fits && f.check specLaunch = 0
  | .leave f => f.fits && f.check specLeave = 0
  | .place f => f.fits && f.check specPlace = 0
  | .trap f => f.fits && f.check specTrap = 0
  | .eret f => f.fits && f.check specEret = 0
  | .syscall f => f.fits && f.check specSyscall = 0
  | .csrr f => f.fits && f.check specCsrr = 0
  | .csrw f => f.fits && f.check specCsrw = 0
  | .tlbinvAll f => f.fits && f.check specTlbinvAll = 0
  | .tlbinvAsid f => f.fits && f.check specTlbinvAsid = 0
  | .tlbinvPage f => f.fits && f.check specTlbinvPage = 0
  | .tlbinvUnitAct _ _ => false
  | .fltrplAll f => f.fits && f.check specFltrplAll = 0
  | .fltrplUnitAct _ _ => false
  | .brk f => f.fits && f.check specBrk = 0
  | .haltbc f => f.fits && f.check specHaltbc = 0
  | .bundleIssue _ => false
  | .taskAdmit _ => false
  | .taskStart _ => false
  | .taskSave _ => false
  | .taskResume _ => false
  | .completionAdd _ => false
  | .pgoReturn _ => false
  | .paddockWalk _ => false
  | .firingWorkLimit _ => false
  | .passStart _ => false
  | .switchIn _ => false
  | .performStore _ _ _ _ _ => false
  | .serveLoad _ _ _ _ _ => false
  | .performAtomic _ _ _ _ _ => false
  | .deliver _ _ => false
  | .acknowledge _ => false
  | .pinAgeRecall _ => false
  | .resultRetire _ _ _ _ => false
  | .sliceFill _ => false
  | .ceWriteback _ => false
  | .cxlResponse _ _ => false
  | .sliceEvict _ => false
  | .dropNotice _ _ => false
  | .publishLine _ _ => false
  | .engineAccess _ _ _ => false
  | .copyUnitWrite _ _ _ => false
  | .engineArrival _ _ => false
  | .blockSwitchDone _ _ => false
  | .mshrRetry _ _ _ _ => false
  | .spinMarkTimeout _ _ _ _ => false
  | .groupStarving _ _ _ => false
  | .launchQueueRead _ => false
  | .lqptrTailWrite _ _ => false
  | .lqctlErrClear _ => false
  | .clusterAdmit _ _ _ _ _ => false
  | .admissionWaitLimit _ _ _ => false
  | .admissionPreemptLimit _ _ _ _ _ => false
  | .gridCompletionAdd _ => false
  | .leaveGrant _ => false
  | .leaveGrantExpiry _ _ _ => false
  | .pageWalk _ _ _ _ _ => false
  | .trapEntry _ _ _ _ => false
  | .preemptSave _ _ => false
  | .preemptLimitExpiry _ _ => false
  | .teamctlResume _ _ => false
  | .teamctlKill _ _ => false
  | .screspWrite _ _ => false
  | .ckreplayWrite _ => false
  | .checkpointTimer _ => false
  | .replayDiverge _ => false
  | .keyload => false
  | .keyclear => false
  | .attest => false
  | .extendMr => false
  | .plimit => false
  | .dumpmap => false
  | .dbgread => false
  | .mailboxDone => false
  | .registerWrite _ _ => false
  | .hostPostedWrite _ => false
  | .hostRead _ _ => false
  | .remoteRequestReceive _ => false
  | .remoteAck _ => false
  | .flitCrcFail _ => false
  | .placementFreeze _ _ _ => false
  | .placementCopy _ => false
  | .placementSwitch _ => false
  | .sampleTake _ _ _ _ => false
  | .tempLimit _ _ => false
  | .dumpWrite _ => false
  | .dumpCoreTimeout _ => false
  | .deviceReset => false
  | .clusterMove _ _ => false
  | .tempBelowLimit _ => false
  | .portRetrain _ => false
  | .eligibilityCount _ => false
  | .paddockTaskKill _ => false
  | .asidSuspend _ => false

end Sys2Proof
end

