-- ==== Sys2Proof/Decode.lean ====
section
/-! DEFINITION. From words to instructions and back: the fields of the sixteen formats (R318), the decode of every opcode
(R327) with the checks of R326 that the word decides, the encoder, clause headers (R313, R316) and paddock bundles (R50 to
R73). A field list gives the fields of a format from bit 0 upward. -/

namespace Sys2Proof

/-- A number laid out as fields from bit 0 upward: (width, value) each. -/
def pack : List (Nat × Nat) → Nat
  | [] => 0
  | (w, x) :: t => x + 2 ^ w * pack t

/-- The values of the fields of the given widths, from bit 0 upward. -/
def unpack : List Nat → Nat → List Nat
  | [], _ => []
  | w :: ws, x => x % 2 ^ w :: unpack ws (x / 2 ^ w)

/-- The field that carries an operand (R319). -/
def Opnd.code : Opnd → Nat
  | .v r => r
  | .imm i => 512 + i
  | .s r => 1024 + r

/-- The operand that an 11-bit field names (R319). A V field with bit [8] set keeps it, and the checks refuse it. -/
def Opnd.ofCode (n : Nat) : Opnd :=
  if 1024 ≤ n then .s (n - 1024) else if 512 ≤ n then .imm (n - 512) else .v n

/-- One for true, zero for false. -/
def boolNat (b : Bool) : Nat := if b then 1 else 0

/-- Widths of format VOP from bit 0 upward, below OPC (R318). -/
def vopWidths : List Nat := [4, 11, 11, 11, 8, 5, 4]

/-- The word of a VOP instruction with opcode `opc`. -/
def VopF.toWord (f : VopF) (opc : Nat) : Nat :=
  pack [(4, f.la), (11, f.c.code), (11, f.b.code), (11, f.a.code), (8, f.vd), (5, f.mod), (4, f.ty.code), (10, opc)]

/-- The fields of a VOP word. -/
def VopF.ofWord (w : Nat) : VopF :=
  match unpack vopWidths w with
  | [la, c, b, a, vd, mod, ty] => { la := la, c := .ofCode c, b := .ofCode b, a := .ofCode a, vd := vd, mod := mod, ty := .ofCode ty }
  | _ => { la := 0, c := .v 0, b := .v 0, a := .v 0, vd := 0, mod := 0, ty := .i8 }

/-- Read a VOP word: the instruction, or the DETAIL of the first check that fails. -/
def VopF.read (p : VopSpec) (mk : VopF → Instr) (w : Nat) : Except Nat Instr :=
  let f := VopF.ofWord w
  if (f.check p) = 0 then .ok (mk f) else .error (f.check p)

/-- Widths of format SOP from bit 0 upward, below OPC (R318). -/
def sopWidths : List Nat := [4, 11, 11, 11, 10, 3, 4]

/-- The word of a SOP instruction with opcode `opc`. -/
def SopF.toWord (f : SopF) (opc : Nat) : Nat :=
  pack [(4, f.la), (11, f.c.code), (11, f.b.code), (11, f.a.code), (10, f.sd), (3, f.mod), (4, f.ty.code), (10, opc)]

/-- The fields of a SOP word. -/
def SopF.ofWord (w : Nat) : SopF :=
  match unpack sopWidths w with
  | [la, c, b, a, sd, mod, ty] => { la := la, c := .ofCode c, b := .ofCode b, a := .ofCode a, sd := sd, mod := mod, ty := .ofCode ty }
  | _ => { la := 0, c := .v 0, b := .v 0, a := .v 0, sd := 0, mod := 0, ty := .i8 }

/-- Read a SOP word: the instruction, or the DETAIL of the first check that fails. -/
def SopF.read (p : SopSpec) (mk : SopF → Instr) (w : Nat) : Except Nat Instr :=
  let f := SopF.ofWord w
  if (f.check p) = 0 then .ok (mk f) else .error (f.check p)

/-- Widths of format SIMM from bit 0 upward, below OPC (R318). -/
def simmWidths : List Nat := [4, 32, 8, 10]

/-- The word of a SIMM instruction with opcode `opc`. -/
def SimmF.toWord (f : SimmF) (opc : Nat) : Nat :=
  pack [(4, 0), (32, f.imm), (8, 0), (10, f.sd), (10, opc)]

/-- The fields of a SIMM word. -/
def SimmF.ofWord (w : Nat) : SimmF :=
  match unpack simmWidths w with
  | [_, imm, _, sd] => { imm := imm, sd := sd }
  | _ => { imm := 0, sd := 0 }

/-- The reserved bits of a SIMM word are zero. -/
def simmZero (w : Nat) : Bool :=
  match unpack simmWidths w with
  | [z0, _, z2, _] => decide (z0 = 0) && decide (z2 = 0)
  | _ => true

/-- Read a SIMM word: the instruction, or the DETAIL of the first check that fails. -/
def SimmF.read (p : SimmSpec) (mk : SimmF → Instr) (w : Nat) : Except Nat Instr :=
  let f := SimmF.ofWord w
  if simmZero w then (if (f.check p) = 0 then .ok (mk f) else .error (f.check p)) else .error 2

/-- Widths of format BR from bit 0 upward, below OPC (R318). -/
def brWidths : List Nat := [29, 10, 8, 4, 3]

/-- The word of a BR instruction with opcode `opc`. -/
def BrF.toWord (f : BrF) (opc : Nat) : Nat :=
  pack [(29, f.off), (10, f.sc), (8, f.vc), (4, f.kn), (3, f.cc), (10, opc)]

/-- The fields of a BR word. -/
def BrF.ofWord (w : Nat) : BrF :=
  match unpack brWidths w with
  | [off, sc, vc, kn, cc] => { off := off, sc := sc, vc := vc, kn := kn, cc := cc }
  | _ => { off := 0, sc := 0, vc := 0, kn := 0, cc := 0 }

/-- Read a BR word: the instruction, or the DETAIL of the first check that fails. -/
def BrF.read (p : BrSpec) (mk : BrF → Instr) (w : Nat) : Except Nat Instr :=
  let f := BrF.ofWord w
  if (f.check p) = 0 then .ok (mk f) else .error (f.check p)

/-- Widths of format KOP from bit 0 upward, below OPC (R318). -/
def kopWidths : List Nat := [33, 10, 1, 2, 4, 4]

/-- The word of a KOP instruction with opcode `opc`. -/
def KopF.toWord (f : KopF) (opc : Nat) : Nat :=
  pack [(33, 0), (10, f.sr), (1, boolNat f.dir), (2, f.fld), (4, f.ks), (4, f.kd), (10, opc)]

/-- The fields of a KOP word. -/
def KopF.ofWord (w : Nat) : KopF :=
  match unpack kopWidths w with
  | [_, sr, dir, fld, ks, kd] => { sr := sr, dir := decide (dir = 1), fld := fld, ks := ks, kd := kd }
  | _ => { sr := 0, dir := false, fld := 0, ks := 0, kd := 0 }

/-- The reserved bits of a KOP word are zero. -/
def kopZero (w : Nat) : Bool :=
  match unpack kopWidths w with
  | [z0, _, _, _, _, _] => decide (z0 = 0)
  | _ => true

/-- Read a KOP word: the instruction, or the DETAIL of the first check that fails. -/
def KopF.read (p : KopSpec) (mk : KopF → Instr) (w : Nat) : Except Nat Instr :=
  let f := KopF.ofWord w
  if kopZero w then (if (f.check p) = 0 then .ok (mk f) else .error (f.check p)) else .error 2

/-- Widths of format SPC from bit 0 upward, below OPC (R318). -/
def spcWidths : List Nat := [38, 10, 5, 1]

/-- The word of a SPC instruction with opcode `opc`. -/
def SpcF.toWord (f : SpcF) (opc : Nat) : Nat :=
  pack [(38, 0), (10, f.reg), (5, f.sreg), (1, boolNat f.dv), (10, opc)]

/-- The fields of a SPC word. -/
def SpcF.ofWord (w : Nat) : SpcF :=
  match unpack spcWidths w with
  | [_, reg, sreg, dv] => { reg := reg, sreg := sreg, dv := decide (dv = 1) }
  | _ => { reg := 0, sreg := 0, dv := false }

/-- The reserved bits of a SPC word are zero. -/
def spcZero (w : Nat) : Bool :=
  match unpack spcWidths w with
  | [z0, _, _, _] => decide (z0 = 0)
  | _ => true

/-- Read a SPC word: the instruction, or the DETAIL of the first check that fails. -/
def SpcF.read (p : SpcSpec) (mk : SpcF → Instr) (w : Nat) : Except Nat Instr :=
  let f := SpcF.ofWord w
  if spcZero w then (if (f.check p) = 0 then .ok (mk f) else .error (f.check p)) else .error 2

/-- Widths of format WCNT from bit 0 upward, below OPC (R318). -/
def wcntWidths : List Nat := [34, 4, 4, 4, 4, 4]

/-- The word of a WCNT instruction with opcode `opc`. -/
def WcntF.toWord (f : WcntF) (opc : Nat) : Nat :=
  pack [(34, 0), (4, f.st), (4, f.cp), (4, f.mx), (4, f.sm), (4, f.vm), (10, opc)]

/-- The fields of a WCNT word. -/
def WcntF.ofWord (w : Nat) : WcntF :=
  match unpack wcntWidths w with
  | [_, st, cp, mx, sm, vm] => { st := st, cp := cp, mx := mx, sm := sm, vm := vm }
  | _ => { st := 0, cp := 0, mx := 0, sm := 0, vm := 0 }

/-- The reserved bits of a WCNT word are zero. -/
def wcntZero (w : Nat) : Bool :=
  match unpack wcntWidths w with
  | [z0, _, _, _, _, _] => decide (z0 = 0)
  | _ => true

/-- Read a WCNT word: the instruction, or the DETAIL of the first check that fails. -/
def WcntF.read (mk : WcntF → Instr) (w : Nat) : Except Nat Instr :=
  let f := WcntF.ofWord w
  if wcntZero w then (if (f.check) = 0 then .ok (mk f) else .error (f.check)) else .error 2

/-- Widths of format MEM from bit 0 upward, below OPC (R318). -/
def memWidths : List Nat := [4, 13, 1, 8, 10, 8, 1, 2, 3, 4]

/-- The word of a MEM instruction with opcode `opc`. -/
def MemF.toWord (f : MemF) (opc : Nat) : Nat :=
  pack [(4, f.la), (13, f.off), (1, boolNat f.xv), (8, f.vx), (10, f.sb), (8, f.vr), (1, boolNat f.ofr), (2, f.ord), (3, f.scope), (4, f.ty.code), (10, opc)]

/-- The fields of a MEM word. -/
def MemF.ofWord (w : Nat) : MemF :=
  match unpack memWidths w with
  | [la, off, xv, vx, sb, vr, ofr, ord, scope, ty] => { la := la, off := off, xv := decide (xv = 1), vx := vx, sb := sb, vr := vr, ofr := decide (ofr = 1), ord := ord, scope := scope, ty := .ofCode ty }
  | _ => { la := 0, off := 0, xv := false, vx := 0, sb := 0, vr := 0, ofr := false, ord := 0, scope := 0, ty := .i8 }

/-- Read a MEM word: the instruction, or the DETAIL of the first check that fails. -/
def MemF.read (p : MemSpec) (mk : MemF → Instr) (w : Nat) : Except Nat Instr :=
  let f := MemF.ofWord w
  if (f.check p) = 0 then .ok (mk f) else .error (f.check p)

/-- Widths of format SMEM from bit 0 upward, below OPC (R318). -/
def smemWidths : List Nat := [4, 20, 10, 10, 1, 2, 3, 4]

/-- The word of a SMEM instruction with opcode `opc`. -/
def SmemF.toWord (f : SmemF) (opc : Nat) : Nat :=
  pack [(4, f.la), (20, f.off), (10, f.sb), (10, f.sd), (1, boolNat f.ofr), (2, f.ord), (3, f.scope), (4, f.ty.code), (10, opc)]

/-- The fields of a SMEM word. -/
def SmemF.ofWord (w : Nat) : SmemF :=
  match unpack smemWidths w with
  | [la, off, sb, sd, ofr, ord, scope, ty] => { la := la, off := off, sb := sb, sd := sd, ofr := decide (ofr = 1), ord := ord, scope := scope, ty := .ofCode ty }
  | _ => { la := 0, off := 0, sb := 0, sd := 0, ofr := false, ord := 0, scope := 0, ty := .i8 }

/-- Read a SMEM word: the instruction, or the DETAIL of the first check that fails. -/
def SmemF.read (p : SmemSpec) (mk : SmemF → Instr) (w : Nat) : Except Nat Instr :=
  let f := SmemF.ofWord w
  if (f.check p) = 0 then .ok (mk f) else .error (f.check p)

/-- Widths of format MEMA from bit 0 upward, below OPC (R318). -/
def memaWidths : List Nat := [4, 3, 8, 1, 8, 10, 8, 3, 2, 3, 4]

/-- The word of a MEMA instruction with opcode `opc`. -/
def MemaF.toWord (f : MemaF) (opc : Nat) : Nat :=
  pack [(4, f.la), (3, 0), (8, f.va), (1, boolNat f.xv), (8, f.vx), (10, f.sb), (8, f.vd), (3, f.aop), (2, f.ord), (3, f.scope), (4, f.ty.code), (10, opc)]

/-- The fields of a MEMA word. -/
def MemaF.ofWord (w : Nat) : MemaF :=
  match unpack memaWidths w with
  | [la, _, va, xv, vx, sb, vd, aop, ord, scope, ty] => { la := la, va := va, xv := decide (xv = 1), vx := vx, sb := sb, vd := vd, aop := aop, ord := ord, scope := scope, ty := .ofCode ty }
  | _ => { la := 0, va := 0, xv := false, vx := 0, sb := 0, vd := 0, aop := 0, ord := 0, scope := 0, ty := .i8 }

/-- The reserved bits of a MEMA word are zero. -/
def memaZero (w : Nat) : Bool :=
  match unpack memaWidths w with
  | [_, z1, _, _, _, _, _, _, _, _, _] => decide (z1 = 0)
  | _ => true

/-- Read a MEMA word: the instruction, or the DETAIL of the first check that fails. -/
def MemaF.read (mk : MemaF → Instr) (w : Nat) : Except Nat Instr :=
  let f := MemaF.ofWord w
  if memaZero w then (if (f.check) = 0 then .ok (mk f) else .error (f.check)) else .error 2

/-- Widths of format SATM from bit 0 upward, below OPC (R318). -/
def satmWidths : List Nat := [4, 8, 10, 10, 10, 3, 2, 3, 4]

/-- The word of a SATM instruction with opcode `opc`. -/
def SatmF.toWord (f : SatmF) (opc : Nat) : Nat :=
  pack [(4, f.la), (8, 0), (10, f.sa), (10, f.sb), (10, f.sd), (3, f.aop), (2, f.ord), (3, f.scope), (4, f.ty.code), (10, opc)]

/-- The fields of a SATM word. -/
def SatmF.ofWord (w : Nat) : SatmF :=
  match unpack satmWidths w with
  | [la, _, sa, sb, sd, aop, ord, scope, ty] => { la := la, sa := sa, sb := sb, sd := sd, aop := aop, ord := ord, scope := scope, ty := .ofCode ty }
  | _ => { la := 0, sa := 0, sb := 0, sd := 0, aop := 0, ord := 0, scope := 0, ty := .i8 }

/-- The reserved bits of a SATM word are zero. -/
def satmZero (w : Nat) : Bool :=
  match unpack satmWidths w with
  | [_, z1, _, _, _, _, _, _, _] => decide (z1 = 0)
  | _ => true

/-- Read a SATM word: the instruction, or the DETAIL of the first check that fails. -/
def SatmF.read (mk : SatmF → Instr) (w : Nat) : Except Nat Instr :=
  let f := SatmF.ofWord w
  if satmZero w then (if (f.check) = 0 then .ok (mk f) else .error (f.check)) else .error 2

/-- Widths of format VCV from bit 0 upward, below OPC (R318). -/
def vcvWidths : List Nat := [8, 2, 1, 2, 1, 11, 11, 8, 5, 5]

/-- The word of a VCV instruction with opcode `opc`. -/
def VcvF.toWord (f : VcvF) (opc : Nat) : Nat :=
  pack [(8, 0), (2, f.ps), (1, boolNat f.sat), (2, f.rm), (1, boolNat f.rmo), (11, f.b.code), (11, f.a.code), (8, f.vd), (5, f.sfmt), (5, f.dfmt), (10, opc)]

/-- The fields of a VCV word. -/
def VcvF.ofWord (w : Nat) : VcvF :=
  match unpack vcvWidths w with
  | [_, ps, sat, rm, rmo, b, a, vd, sfmt, dfmt] => { ps := ps, sat := decide (sat = 1), rm := rm, rmo := decide (rmo = 1), b := .ofCode b, a := .ofCode a, vd := vd, sfmt := sfmt, dfmt := dfmt }
  | _ => { ps := 0, sat := false, rm := 0, rmo := false, b := .v 0, a := .v 0, vd := 0, sfmt := 0, dfmt := 0 }

/-- The reserved bits of a VCV word are zero. -/
def vcvZero (w : Nat) : Bool :=
  match unpack vcvWidths w with
  | [z0, _, _, _, _, _, _, _, _, _] => decide (z0 = 0)
  | _ => true

/-- Read a VCV word: the instruction, or the DETAIL of the first check that fails. -/
def VcvF.read (p : VcvSpec) (mk : VcvF → Instr) (w : Nat) : Except Nat Instr :=
  let f := VcvF.ofWord w
  if vcvZero w then (if (f.check p) = 0 then .ok (mk f) else .error (f.check p)) else .error 2

/-- Widths of format MTX from bit 0 upward, below OPC (R318). -/
def mtxWidths : List Nat := [4, 15, 1, 2, 5, 10, 3, 5, 5, 4]

/-- The word of a MTX instruction with opcode `opc`. -/
def MtxF.toWord (f : MtxF) (opc : Nat) : Nat :=
  pack [(4, f.la), (15, 0), (1, boolNat f.sat), (2, f.rm), (5, f.fmtc), (10, f.sa), (3, f.mod), (5, f.tb), (5, f.ta), (4, f.ad), (10, opc)]

/-- The fields of a MTX word. -/
def MtxF.ofWord (w : Nat) : MtxF :=
  match unpack mtxWidths w with
  | [la, _, sat, rm, fmtc, sa, mod, tb, ta, ad] => { la := la, sat := decide (sat = 1), rm := rm, fmtc := fmtc, sa := sa, mod := mod, tb := tb, ta := ta, ad := ad }
  | _ => { la := 0, sat := false, rm := 0, fmtc := 0, sa := 0, mod := 0, tb := 0, ta := 0, ad := 0 }

/-- The reserved bits of a MTX word are zero. -/
def mtxZero (w : Nat) : Bool :=
  match unpack mtxWidths w with
  | [_, z1, _, _, _, _, _, _, _, _] => decide (z1 = 0)
  | _ => true

/-- Read a MTX word: the instruction, or the DETAIL of the first check that fails. -/
def MtxF.read (p : MtxSpec) (mk : MtxF → Instr) (w : Nat) : Except Nat Instr :=
  let f := MtxF.ofWord w
  if mtxZero w then (if (f.check p) = 0 then .ok (mk f) else .error (f.check p)) else .error 2

/-- Widths of format CPY from bit 0 upward, below OPC (R318). -/
def cpyWidths : List Nat := [4, 2, 1, 10, 11, 10, 10, 3, 3]

/-- The word of a CPY instruction with opcode `opc`. -/
def CpyF.toWord (f : CpyF) (opc : Nat) : Nat :=
  pack [(4, f.la), (2, 0), (1, boolNat f.bv), (10, f.so), (11, f.sz.code), (10, f.sb), (10, f.sa), (3, f.kind), (3, f.qn), (10, opc)]

/-- The fields of a CPY word. -/
def CpyF.ofWord (w : Nat) : CpyF :=
  match unpack cpyWidths w with
  | [la, _, bv, so, sz, sb, sa, kind, qn] => { la := la, bv := decide (bv = 1), so := so, sz := .ofCode sz, sb := sb, sa := sa, kind := kind, qn := qn }
  | _ => { la := 0, bv := false, so := 0, sz := .v 0, sb := 0, sa := 0, kind := 0, qn := 0 }

/-- The reserved bits of a CPY word are zero. -/
def cpyZero (w : Nat) : Bool :=
  match unpack cpyWidths w with
  | [_, z1, _, _, _, _, _, _, _] => decide (z1 = 0)
  | _ => true

/-- Read a CPY word: the instruction, or the DETAIL of the first check that fails. -/
def CpyF.read (p : CpySpec) (mk : CpyF → Instr) (w : Nat) : Except Nat Instr :=
  let f := CpyF.ofWord w
  if cpyZero w then (if (f.check p) = 0 then .ok (mk f) else .error (f.check p)) else .error 2

/-- Widths of format BAR from bit 0 upward, below OPC (R318). -/
def barWidths : List Nat := [4, 3, 10, 12, 1, 4, 10, 10]

/-- The word of a BAR instruction with opcode `opc`. -/
def BarF.toWord (f : BarF) (opc : Nat) : Nat :=
  pack [(4, f.la), (3, 0), (10, f.sg), (12, f.n), (1, boolNat f.rmt), (4, f.rank), (10, f.sa), (10, f.sd), (10, opc)]

/-- The fields of a BAR word. -/
def BarF.ofWord (w : Nat) : BarF :=
  match unpack barWidths w with
  | [la, _, sg, n, rmt, rank, sa, sd] => { la := la, sg := sg, n := n, rmt := decide (rmt = 1), rank := rank, sa := sa, sd := sd }
  | _ => { la := 0, sg := 0, n := 0, rmt := false, rank := 0, sa := 0, sd := 0 }

/-- The reserved bits of a BAR word are zero. -/
def barZero (w : Nat) : Bool :=
  match unpack barWidths w with
  | [_, z1, _, _, _, _, _, _] => decide (z1 = 0)
  | _ => true

/-- Read a BAR word: the instruction, or the DETAIL of the first check that fails. -/
def BarF.read (p : BarSpec) (mk : BarF → Instr) (w : Nat) : Except Nat Instr :=
  let f := BarF.ofWord w
  if barZero w then (if (f.check p) = 0 then .ok (mk f) else .error (f.check p)) else .error 2

/-- Widths of format ENG from bit 0 upward, below OPC (R318). -/
def engWidths : List Nat := [4, 3, 3, 2, 4, 8, 10, 10, 10]

/-- The word of a ENG instruction with opcode `opc`. -/
def EngF.toWord (f : EngF) (opc : Nat) : Nat :=
  pack [(4, f.la), (3, f.m3), (3, f.fn), (2, f.n2), (4, f.n4), (8, f.x8), (10, f.sb), (10, f.sa), (10, f.sd), (10, opc)]

/-- The fields of a ENG word. -/
def EngF.ofWord (w : Nat) : EngF :=
  match unpack engWidths w with
  | [la, m3, fn, n2, n4, x8, sb, sa, sd] => { la := la, m3 := m3, fn := fn, n2 := n2, n4 := n4, x8 := x8, sb := sb, sa := sa, sd := sd }
  | _ => { la := 0, m3 := 0, fn := 0, n2 := 0, n4 := 0, x8 := 0, sb := 0, sa := 0, sd := 0 }

/-- Read a ENG word: the instruction, or the DETAIL of the first check that fails. -/
def EngF.read (p : EngSpec) (mk : EngF → Instr) (w : Nat) : Except Nat Instr :=
  let f := EngF.ofWord w
  if (f.check p) = 0 then .ok (mk f) else .error (f.check p)


/-- The instruction that opcode `opc` and the fields of `w` make (R327), or the DETAIL of its ILLOP (R326). -/
def decodeOp (opc w : Nat) : Except Nat Instr :=
  match opc with
  | 0x001 => SopF.read specSmov .smov w
  | 0x002 => SimmF.read specSmovi .smovi w
  | 0x003 => SopF.read specSadd .sadd w
  | 0x004 => SopF.read specSsub .ssub w
  | 0x005 => SopF.read specSmul .smul w
  | 0x006 => SopF.read specSmulh .smulh w
  | 0x007 => SopF.read specSdiv .sdiv w
  | 0x008 => SopF.read specSrem .srem w
  | 0x009 => SopF.read specSand .sand w
  | 0x00A => SopF.read specSor .sor w
  | 0x00B => SopF.read specSxor .sxor w
  | 0x00C => SopF.read specSnot .snot w
  | 0x00D => SopF.read specSshl .sshl w
  | 0x00E => SopF.read specSshr .sshr w
  | 0x00F => SopF.read specSsar .ssar w
  | 0x010 => SopF.read specSmin .smin w
  | 0x011 => SopF.read specSmax .smax w
  | 0x012 => SopF.read specScmp .scmp w
  | 0x013 => SopF.read specSsel .ssel w
  | 0x040 => BrF.read specNop .nop w
  | 0x041 => BrF.read specBra .bra w
  | 0x042 => BrF.read specBrc .brc w
  | 0x043 => BrF.read specCall .call w
  | 0x044 => BrF.read specRet .ret w
  | 0x045 => BrF.read specJmpi .jmpi w
  | 0x046 => BrF.read specExit .exit w
  | 0x047 => WcntF.read .waitc w
  | 0x048 => BrF.read specYield .yield w
  | 0x049 => SpcF.read specSrdsr .srdsr w
  | 0x04A => SpcF.read specSwrsr .swrsr w
  | 0x04B => SimmF.read specSetfmt .setfmt w
  | 0x04C => SimmF.read specSetpart .setpart w
  | 0x050 => BrF.read specIfLanes .ifLanes w
  | 0x051 => BrF.read specElseLanes .elseLanes w
  | 0x052 => BrF.read specEndif .endif w
  | 0x053 => BrF.read specBrv .brv w
  | 0x054 => BrF.read specMark .mark w
  | 0x055 => BrF.read specJoin .join w
  | 0x056 => KopF.read specKmov .kmov w
  | 0x057 => KopF.read specKand .kand w
  | 0x058 => KopF.read specKor .kor w
  | 0x059 => BrF.read specSpin .spin w
  | 0x081 => VopF.read specVadd .vadd w
  | 0x082 => VopF.read specVsub .vsub w
  | 0x083 => VopF.read specVmul .vmul w
  | 0x084 => VopF.read specVmulh .vmulh w
  | 0x085 => VopF.read specVmad .vmad w
  | 0x086 => VopF.read specVand .vand w
  | 0x087 => VopF.read specVor .vor w
  | 0x088 => VopF.read specVxor .vxor w
  | 0x089 => VopF.read specVnot .vnot w
  | 0x08A => VopF.read specVshl .vshl w
  | 0x08B => VopF.read specVshr .vshr w
  | 0x08C => VopF.read specVsar .vsar w
  | 0x08D => VopF.read specVmin .vmin w
  | 0x08E => VopF.read specVmax .vmax w
  | 0x08F => VopF.read specVabs .vabs w
  | 0x090 => VopF.read specVclz .vclz w
  | 0x091 => VopF.read specVpopc .vpopc w
  | 0x092 => VopF.read specVbrev .vbrev w
  | 0x093 => VopF.read specVcmp .vcmp w
  | 0x094 => VopF.read specVsel .vsel w
  | 0x095 => VopF.read specVmov .vmov w
  | 0x096 => VopF.read specViota .viota w
  | 0x097 => SopF.read specVmovs .vmovs w
  | 0x0C1 => VopF.read specVfadd .vfadd w
  | 0x0C2 => VopF.read specVfsub .vfsub w
  | 0x0C3 => VopF.read specVfmul .vfmul w
  | 0x0C4 => VopF.read specVfma .vfma w
  | 0x0C5 => VopF.read specVfmin .vfmin w
  | 0x0C6 => VopF.read specVfmax .vfmax w
  | 0x0C7 => VopF.read specVfminn .vfminn w
  | 0x0C8 => VopF.read specVfmaxn .vfmaxn w
  | 0x0C9 => VopF.read specVfabs .vfabs w
  | 0x0CA => VopF.read specVfneg .vfneg w
  | 0x0CB => VopF.read specVfrcp .vfrcp w
  | 0x0CC => VopF.read specVfrsq .vfrsq w
  | 0x0CD => VopF.read specVfsqrt .vfsqrt w
  | 0x0CE => VopF.read specVfdiv .vfdiv w
  | 0x0CF => VopF.read specVfexp2 .vfexp2 w
  | 0x0D0 => VopF.read specVflog2 .vflog2 w
  | 0x0D1 => VopF.read specVfsin .vfsin w
  | 0x0D2 => VopF.read specVfcos .vfcos w
  | 0x0D3 => VopF.read specVfclass .vfclass w
  | 0x0D4 => VopF.read specVfrnd .vfrnd w
  | 0x0D5 => VopF.read specVfcmp .vfcmp w
  | 0x0D6 => VopF.read specVaddmin .vaddmin w
  | 0x0D7 => VopF.read specVaddmax .vaddmax w
  | 0x101 => VopF.read specVshfl .vshfl w
  | 0x102 => VopF.read specVshup .vshup w
  | 0x103 => VopF.read specVshdn .vshdn w
  | 0x104 => VopF.read specVbcast .vbcast w
  | 0x105 => VopF.read specVvote .vvote w
  | 0x106 => VopF.read specVred .vred w
  | 0x107 => VopF.read specVscan .vscan w
  | 0x108 => VopF.read specVcmpx .vcmpx w
  | 0x109 => VopF.read specVmatch .vmatch w
  | 0x10A => VopF.read specVcompact .vcompact w
  | 0x141 => VcvF.read specVcvt .vcvt w
  | 0x142 => VcvF.read specVcvts .vcvts w
  | 0x143 => VcvF.read specVpack .vpack w
  | 0x144 => VcvF.read specVunpack .vunpack w
  | 0x181 => MemF.read specLd .ld w
  | 0x182 => MemF.read specLdr .ldr w
  | 0x183 => MemF.read specSt .st w
  | 0x184 => MemF.read specLds .lds w
  | 0x185 => MemF.read specSts .sts w
  | 0x1C1 => MemaF.read .atom w
  | 0x1C2 => SatmF.read .atoms w
  | 0x1C3 => SmemF.read specSld .sld w
  | 0x1C4 => SmemF.read specSst .sst w
  | 0x201 => EngF.read specFence .fence w
  | 0x202 => EngF.read specWaitf .waitf w
  | 0x203 => EngF.read specPhase .phase w
  | 0x204 => EngF.read specPublish .publish w
  | 0x205 => if (EngF.ofWord w).m3 = 0 then EngF.read specSramcfgFifo .sramcfgFifo w else EngF.read specSramcfgFree .sramcfgFree w
  | 0x206 => EngF.read specQput .qput w
  | 0x207 => EngF.read specQget .qget w
  | 0x208 => BarF.read specBarinit .barinit w
  | 0x209 => BarF.read specBararr .bararr w
  | 0x20A => BarF.read specBarwait .barwait w
  | 0x20B => BarF.read specBarinv .barinv w
  | 0x20C => BrF.read specYieldw .yieldw w
  | 0x210 => EngF.read specRecBegin .recBegin w
  | 0x211 => EngF.read specRecEnd .recEnd w
  | 0x212 => EngF.read specRecReplay .recReplay w
  | 0x213 => EngF.read specRecForget .recForget w
  | 0x214 => EngF.read specRecStat .recStat w
  | 0x241 => match (CpyF.ofWord w).kind with
    | 0 => CpyF.read specCpyGs .cpyGs w
    | 1 => CpyF.read specCpySg .cpySg w
    | 2 => CpyF.read specCpyGg .cpyGg w
    | 3 => CpyF.read specCpySr .cpySr w
    | _ => CpyF.read specCpyRs .cpyRs w
  | 0x242 => CpyF.read specPref .pref w
  | 0x243 => CpyF.read specCpyrAdd .cpyrAdd w
  | 0x244 => CpyF.read specCpyrMin .cpyrMin w
  | 0x245 => CpyF.read specCpyrMax .cpyrMax w
  | 0x246 => CpyF.read specCpyrAnd .cpyrAnd w
  | 0x247 => CpyF.read specCpyrOr .cpyrOr w
  | 0x248 => EngF.read specCfence .cfence w
  | 0x249 => EngF.read specCstep .cstep w
  | 0x281 => MtxF.read specMma .mma w
  | 0x282 => MtxF.read specMmab .mmab w
  | 0x283 => MtxF.read specMzero .mzero w
  | 0x284 => MtxF.read specMlda .mlda w
  | 0x285 => MtxF.read specMsta .msta w
  | 0x286 => MtxF.read specMcvt .mcvt w
  | 0x287 => if (MtxF.ofWord w).mod = 1 then MtxF.read specMprogSet .mprogSet w else MtxF.read specMprog .mprog w
  | 0x288 => if (MtxF.ofWord w).mod = 1 then MtxF.read specTmapRd .tmapRd w else MtxF.read specTmap .tmap w
  | 0x289 => MtxF.read specTside .tside w
  | 0x2C1 => EngF.read specMngi .mngi w
  | 0x2C2 => EngF.read specMngu .mngu w
  | 0x2C3 => EngF.read specMngf .mngf w
  | 0x2C4 => EngF.read specMngs .mngs w
  | 0x2C5 => EngF.read specPlaunch .plaunch w
  | 0x2C6 => EngF.read specPgo .pgo w
  | 0x2C7 => EngF.read specPwait .pwait w
  | 0x2C8 => EngF.read specLaunch .launch w
  | 0x2C9 => EngF.read specLeave .leave w
  | 0x2CA => EngF.read specPlace .place w
  | 0x2D0 => EngF.read specTrap .trap w
  | 0x2D1 => EngF.read specEret .eret w
  | 0x2D2 => EngF.read specSyscall .syscall w
  | 0x2D3 => EngF.read specCsrr .csrr w
  | 0x2D4 => EngF.read specCsrw .csrw w
  | 0x2D5 => match (EngF.ofWord w).m3 with
    | 0 => EngF.read specTlbinvAll .tlbinvAll w
    | 1 => EngF.read specTlbinvAsid .tlbinvAsid w
    | _ => EngF.read specTlbinvPage .tlbinvPage w
  | 0x2D6 => EngF.read specFltrplAll .fltrplAll w
  | 0x2D7 => EngF.read specBrk .brk w
  | 0x2D8 => EngF.read specHaltbc .haltbc w
  | _ => .error 1

/-- The decoder of one 64-bit instruction word (R317, R326). -/
def decode (w : W64) : Except Nat Instr := decodeOp (w.toNat / 2 ^ 54) w.toNat

/-- The word of a well-formed instruction (R318, R327). A machine step has none. -/
def encode : Instr → Option W64
  | .smov f => some (BitVec.ofNat 64 (f.toWord 0x001))
  | .smovi f => some (BitVec.ofNat 64 (f.toWord 0x002))
  | .sadd f => some (BitVec.ofNat 64 (f.toWord 0x003))
  | .ssub f => some (BitVec.ofNat 64 (f.toWord 0x004))
  | .smul f => some (BitVec.ofNat 64 (f.toWord 0x005))
  | .smulh f => some (BitVec.ofNat 64 (f.toWord 0x006))
  | .sdiv f => some (BitVec.ofNat 64 (f.toWord 0x007))
  | .srem f => some (BitVec.ofNat 64 (f.toWord 0x008))
  | .sand f => some (BitVec.ofNat 64 (f.toWord 0x009))
  | .sor f => some (BitVec.ofNat 64 (f.toWord 0x00A))
  | .sxor f => some (BitVec.ofNat 64 (f.toWord 0x00B))
  | .snot f => some (BitVec.ofNat 64 (f.toWord 0x00C))
  | .sshl f => some (BitVec.ofNat 64 (f.toWord 0x00D))
  | .sshr f => some (BitVec.ofNat 64 (f.toWord 0x00E))
  | .ssar f => some (BitVec.ofNat 64 (f.toWord 0x00F))
  | .smin f => some (BitVec.ofNat 64 (f.toWord 0x010))
  | .smax f => some (BitVec.ofNat 64 (f.toWord 0x011))
  | .scmp f => some (BitVec.ofNat 64 (f.toWord 0x012))
  | .ssel f => some (BitVec.ofNat 64 (f.toWord 0x013))
  | .nop f => some (BitVec.ofNat 64 (f.toWord 0x040))
  | .bra f => some (BitVec.ofNat 64 (f.toWord 0x041))
  | .brc f => some (BitVec.ofNat 64 (f.toWord 0x042))
  | .call f => some (BitVec.ofNat 64 (f.toWord 0x043))
  | .ret f => some (BitVec.ofNat 64 (f.toWord 0x044))
  | .jmpi f => some (BitVec.ofNat 64 (f.toWord 0x045))
  | .exit f => some (BitVec.ofNat 64 (f.toWord 0x046))
  | .waitc f => some (BitVec.ofNat 64 (f.toWord 0x047))
  | .yield f => some (BitVec.ofNat 64 (f.toWord 0x048))
  | .srdsr f => some (BitVec.ofNat 64 (f.toWord 0x049))
  | .swrsr f => some (BitVec.ofNat 64 (f.toWord 0x04A))
  | .setfmt f => some (BitVec.ofNat 64 (f.toWord 0x04B))
  | .setpart f => some (BitVec.ofNat 64 (f.toWord 0x04C))
  | .ifLanes f => some (BitVec.ofNat 64 (f.toWord 0x050))
  | .elseLanes f => some (BitVec.ofNat 64 (f.toWord 0x051))
  | .endif f => some (BitVec.ofNat 64 (f.toWord 0x052))
  | .brv f => some (BitVec.ofNat 64 (f.toWord 0x053))
  | .mark f => some (BitVec.ofNat 64 (f.toWord 0x054))
  | .join f => some (BitVec.ofNat 64 (f.toWord 0x055))
  | .kmov f => some (BitVec.ofNat 64 (f.toWord 0x056))
  | .kand f => some (BitVec.ofNat 64 (f.toWord 0x057))
  | .kor f => some (BitVec.ofNat 64 (f.toWord 0x058))
  | .spin f => some (BitVec.ofNat 64 (f.toWord 0x059))
  | .vadd f => some (BitVec.ofNat 64 (f.toWord 0x081))
  | .vsub f => some (BitVec.ofNat 64 (f.toWord 0x082))
  | .vmul f => some (BitVec.ofNat 64 (f.toWord 0x083))
  | .vmulh f => some (BitVec.ofNat 64 (f.toWord 0x084))
  | .vmad f => some (BitVec.ofNat 64 (f.toWord 0x085))
  | .vand f => some (BitVec.ofNat 64 (f.toWord 0x086))
  | .vor f => some (BitVec.ofNat 64 (f.toWord 0x087))
  | .vxor f => some (BitVec.ofNat 64 (f.toWord 0x088))
  | .vnot f => some (BitVec.ofNat 64 (f.toWord 0x089))
  | .vshl f => some (BitVec.ofNat 64 (f.toWord 0x08A))
  | .vshr f => some (BitVec.ofNat 64 (f.toWord 0x08B))
  | .vsar f => some (BitVec.ofNat 64 (f.toWord 0x08C))
  | .vmin f => some (BitVec.ofNat 64 (f.toWord 0x08D))
  | .vmax f => some (BitVec.ofNat 64 (f.toWord 0x08E))
  | .vabs f => some (BitVec.ofNat 64 (f.toWord 0x08F))
  | .vclz f => some (BitVec.ofNat 64 (f.toWord 0x090))
  | .vpopc f => some (BitVec.ofNat 64 (f.toWord 0x091))
  | .vbrev f => some (BitVec.ofNat 64 (f.toWord 0x092))
  | .vcmp f => some (BitVec.ofNat 64 (f.toWord 0x093))
  | .vsel f => some (BitVec.ofNat 64 (f.toWord 0x094))
  | .vmov f => some (BitVec.ofNat 64 (f.toWord 0x095))
  | .viota f => some (BitVec.ofNat 64 (f.toWord 0x096))
  | .vmovs f => some (BitVec.ofNat 64 (f.toWord 0x097))
  | .vfadd f => some (BitVec.ofNat 64 (f.toWord 0x0C1))
  | .vfsub f => some (BitVec.ofNat 64 (f.toWord 0x0C2))
  | .vfmul f => some (BitVec.ofNat 64 (f.toWord 0x0C3))
  | .vfma f => some (BitVec.ofNat 64 (f.toWord 0x0C4))
  | .vfmin f => some (BitVec.ofNat 64 (f.toWord 0x0C5))
  | .vfmax f => some (BitVec.ofNat 64 (f.toWord 0x0C6))
  | .vfminn f => some (BitVec.ofNat 64 (f.toWord 0x0C7))
  | .vfmaxn f => some (BitVec.ofNat 64 (f.toWord 0x0C8))
  | .vfabs f => some (BitVec.ofNat 64 (f.toWord 0x0C9))
  | .vfneg f => some (BitVec.ofNat 64 (f.toWord 0x0CA))
  | .vfrcp f => some (BitVec.ofNat 64 (f.toWord 0x0CB))
  | .vfrsq f => some (BitVec.ofNat 64 (f.toWord 0x0CC))
  | .vfsqrt f => some (BitVec.ofNat 64 (f.toWord 0x0CD))
  | .vfdiv f => some (BitVec.ofNat 64 (f.toWord 0x0CE))
  | .vfexp2 f => some (BitVec.ofNat 64 (f.toWord 0x0CF))
  | .vflog2 f => some (BitVec.ofNat 64 (f.toWord 0x0D0))
  | .vfsin f => some (BitVec.ofNat 64 (f.toWord 0x0D1))
  | .vfcos f => some (BitVec.ofNat 64 (f.toWord 0x0D2))
  | .vfclass f => some (BitVec.ofNat 64 (f.toWord 0x0D3))
  | .vfrnd f => some (BitVec.ofNat 64 (f.toWord 0x0D4))
  | .vfcmp f => some (BitVec.ofNat 64 (f.toWord 0x0D5))
  | .vaddmin f => some (BitVec.ofNat 64 (f.toWord 0x0D6))
  | .vaddmax f => some (BitVec.ofNat 64 (f.toWord 0x0D7))
  | .vshfl f => some (BitVec.ofNat 64 (f.toWord 0x101))
  | .vshup f => some (BitVec.ofNat 64 (f.toWord 0x102))
  | .vshdn f => some (BitVec.ofNat 64 (f.toWord 0x103))
  | .vbcast f => some (BitVec.ofNat 64 (f.toWord 0x104))
  | .vvote f => some (BitVec.ofNat 64 (f.toWord 0x105))
  | .vred f => some (BitVec.ofNat 64 (f.toWord 0x106))
  | .vscan f => some (BitVec.ofNat 64 (f.toWord 0x107))
  | .vcmpx f => some (BitVec.ofNat 64 (f.toWord 0x108))
  | .vmatch f => some (BitVec.ofNat 64 (f.toWord 0x109))
  | .vcompact f => some (BitVec.ofNat 64 (f.toWord 0x10A))
  | .vcvt f => some (BitVec.ofNat 64 (f.toWord 0x141))
  | .vcvts f => some (BitVec.ofNat 64 (f.toWord 0x142))
  | .vpack f => some (BitVec.ofNat 64 (f.toWord 0x143))
  | .vunpack f => some (BitVec.ofNat 64 (f.toWord 0x144))
  | .ld f => some (BitVec.ofNat 64 (f.toWord 0x181))
  | .ldr f => some (BitVec.ofNat 64 (f.toWord 0x182))
  | .st f => some (BitVec.ofNat 64 (f.toWord 0x183))
  | .lds f => some (BitVec.ofNat 64 (f.toWord 0x184))
  | .sts f => some (BitVec.ofNat 64 (f.toWord 0x185))
  | .atom f => some (BitVec.ofNat 64 (f.toWord 0x1C1))
  | .atoms f => some (BitVec.ofNat 64 (f.toWord 0x1C2))
  | .sld f => some (BitVec.ofNat 64 (f.toWord 0x1C3))
  | .sst f => some (BitVec.ofNat 64 (f.toWord 0x1C4))
  | .fence f => some (BitVec.ofNat 64 (f.toWord 0x201))
  | .waitf f => some (BitVec.ofNat 64 (f.toWord 0x202))
  | .phase f => some (BitVec.ofNat 64 (f.toWord 0x203))
  | .publish f => some (BitVec.ofNat 64 (f.toWord 0x204))
  | .sramcfgFifo f => some (BitVec.ofNat 64 (f.toWord 0x205))
  | .sramcfgFree f => some (BitVec.ofNat 64 (f.toWord 0x205))
  | .qput f => some (BitVec.ofNat 64 (f.toWord 0x206))
  | .qget f => some (BitVec.ofNat 64 (f.toWord 0x207))
  | .barinit f => some (BitVec.ofNat 64 (f.toWord 0x208))
  | .barinv f => some (BitVec.ofNat 64 (f.toWord 0x20B))
  | .bararr f => some (BitVec.ofNat 64 (f.toWord 0x209))
  | .barwait f => some (BitVec.ofNat 64 (f.toWord 0x20A))
  | .yieldw f => some (BitVec.ofNat 64 (f.toWord 0x20C))
  | .recBegin f => some (BitVec.ofNat 64 (f.toWord 0x210))
  | .recEnd f => some (BitVec.ofNat 64 (f.toWord 0x211))
  | .recReplay f => some (BitVec.ofNat 64 (f.toWord 0x212))
  | .recForget f => some (BitVec.ofNat 64 (f.toWord 0x213))
  | .recStat f => some (BitVec.ofNat 64 (f.toWord 0x214))
  | .recSliceApply _ _ => none
  | .cpyGs f => some (BitVec.ofNat 64 (f.toWord 0x241))
  | .cpySg f => some (BitVec.ofNat 64 (f.toWord 0x241))
  | .cpyGg f => some (BitVec.ofNat 64 (f.toWord 0x241))
  | .cpySr f => some (BitVec.ofNat 64 (f.toWord 0x241))
  | .cpyRs f => some (BitVec.ofNat 64 (f.toWord 0x241))
  | .pref f => some (BitVec.ofNat 64 (f.toWord 0x242))
  | .cpyrAdd f => some (BitVec.ofNat 64 (f.toWord 0x243))
  | .cpyrMin f => some (BitVec.ofNat 64 (f.toWord 0x244))
  | .cpyrMax f => some (BitVec.ofNat 64 (f.toWord 0x245))
  | .cpyrAnd f => some (BitVec.ofNat 64 (f.toWord 0x246))
  | .cpyrOr f => some (BitVec.ofNat 64 (f.toWord 0x247))
  | .cfence f => some (BitVec.ofNat 64 (f.toWord 0x248))
  | .cstep f => some (BitVec.ofNat 64 (f.toWord 0x249))
  | .mma f => some (BitVec.ofNat 64 (f.toWord 0x281))
  | .mmab f => some (BitVec.ofNat 64 (f.toWord 0x282))
  | .matrixKStep _ => none
  | .mzero f => some (BitVec.ofNat 64 (f.toWord 0x283))
  | .mlda f => some (BitVec.ofNat 64 (f.toWord 0x284))
  | .msta f => some (BitVec.ofNat 64 (f.toWord 0x285))
  | .mcvt f => some (BitVec.ofNat 64 (f.toWord 0x286))
  | .mprog f => some (BitVec.ofNat 64 (f.toWord 0x287))
  | .mprogSet f => some (BitVec.ofNat 64 (f.toWord 0x287))
  | .tmap f => some (BitVec.ofNat 64 (f.toWord 0x288))
  | .tmapRd f => some (BitVec.ofNat 64 (f.toWord 0x288))
  | .tside f => some (BitVec.ofNat 64 (f.toWord 0x289))
  | .mngi f => some (BitVec.ofNat 64 (f.toWord 0x2C1))
  | .mngu f => some (BitVec.ofNat 64 (f.toWord 0x2C2))
  | .mngf f => some (BitVec.ofNat 64 (f.toWord 0x2C3))
  | .mngs f => some (BitVec.ofNat 64 (f.toWord 0x2C4))
  | .plaunch f => some (BitVec.ofNat 64 (f.toWord 0x2C5))
  | .pgo f => some (BitVec.ofNat 64 (f.toWord 0x2C6))
  | .pwait f => some (BitVec.ofNat 64 (f.toWord 0x2C7))
  | .launch f => some (BitVec.ofNat 64 (f.toWord 0x2C8))
  | .leave f => some (BitVec.ofNat 64 (f.toWord 0x2C9))
  | .place f => some (BitVec.ofNat 64 (f.toWord 0x2CA))
  | .trap f => some (BitVec.ofNat 64 (f.toWord 0x2D0))
  | .eret f => some (BitVec.ofNat 64 (f.toWord 0x2D1))
  | .syscall f => some (BitVec.ofNat 64 (f.toWord 0x2D2))
  | .csrr f => some (BitVec.ofNat 64 (f.toWord 0x2D3))
  | .csrw f => some (BitVec.ofNat 64 (f.toWord 0x2D4))
  | .tlbinvAll f => some (BitVec.ofNat 64 (f.toWord 0x2D5))
  | .tlbinvAsid f => some (BitVec.ofNat 64 (f.toWord 0x2D5))
  | .tlbinvPage f => some (BitVec.ofNat 64 (f.toWord 0x2D5))
  | .tlbinvUnitAct _ _ => none
  | .fltrplAll f => some (BitVec.ofNat 64 (f.toWord 0x2D6))
  | .fltrplUnitAct _ _ => none
  | .brk f => some (BitVec.ofNat 64 (f.toWord 0x2D7))
  | .haltbc f => some (BitVec.ofNat 64 (f.toWord 0x2D8))
  | .bundleIssue _ => none
  | .taskAdmit _ => none
  | .taskStart _ => none
  | .taskSave _ => none
  | .taskResume _ => none
  | .completionAdd _ => none
  | .pgoReturn _ => none
  | .paddockWalk _ => none
  | .firingWorkLimit _ => none
  | .passStart _ => none
  | .switchIn _ => none
  | .performStore _ _ _ _ _ => none
  | .serveLoad _ _ _ _ _ => none
  | .performAtomic _ _ _ _ _ => none
  | .deliver _ _ => none
  | .acknowledge _ => none
  | .pinAgeRecall _ => none
  | .resultRetire _ _ _ _ => none
  | .sliceFill _ => none
  | .ceWriteback _ => none
  | .cxlResponse _ _ => none
  | .sliceEvict _ => none
  | .dropNotice _ _ => none
  | .publishLine _ _ => none
  | .engineAccess _ _ _ => none
  | .copyUnitWrite _ _ _ => none
  | .engineArrival _ _ => none
  | .blockSwitchDone _ _ => none
  | .mshrRetry _ _ _ _ => none
  | .spinMarkTimeout _ _ _ _ => none
  | .groupStarving _ _ _ => none
  | .launchQueueRead _ => none
  | .lqptrTailWrite _ _ => none
  | .lqctlErrClear _ => none
  | .clusterAdmit _ _ _ _ _ => none
  | .admissionWaitLimit _ _ _ => none
  | .admissionPreemptLimit _ _ _ _ _ => none
  | .gridCompletionAdd _ => none
  | .leaveGrant _ => none
  | .leaveGrantExpiry _ _ _ => none
  | .pageWalk _ _ _ _ _ => none
  | .trapEntry _ _ _ _ => none
  | .preemptSave _ _ => none
  | .preemptLimitExpiry _ _ => none
  | .teamctlResume _ _ => none
  | .teamctlKill _ _ => none
  | .screspWrite _ _ => none
  | .ckreplayWrite _ => none
  | .checkpointTimer _ => none
  | .replayDiverge _ => none
  | .keyload => none
  | .keyclear => none
  | .attest => none
  | .extendMr => none
  | .plimit => none
  | .dumpmap => none
  | .dbgread => none
  | .mailboxDone => none
  | .registerWrite _ _ => none
  | .hostPostedWrite _ => none
  | .hostRead _ _ => none
  | .remoteRequestReceive _ => none
  | .remoteAck _ => none
  | .flitCrcFail _ => none
  | .placementFreeze _ _ _ => none
  | .placementCopy _ => none
  | .placementSwitch _ => none
  | .sampleTake _ _ _ _ => none
  | .tempLimit _ _ => none
  | .dumpWrite _ => none
  | .dumpCoreTimeout _ => none
  | .deviceReset => none
  | .clusterMove _ _ => none
  | .tempBelowLimit _ => none
  | .portRetrain _ => none
  | .eligibilityCount _ => none
  | .paddockTaskKill _ => none
  | .asidSuspend _ => none

/-- The instruction that the decoder reads from an opcode-table row's bits: one 64-bit word (R317), stored little-endian
(R4), so the table's bit numbers are the word's own. -/
def decodeTableWord (nbits w : Nat) : Option Instr :=
  if w < 2 ^ nbits then (decode (BitVec.ofNat 64 w)).toOption else none

/-- The class of an opcode: 0 general, 1 memory, 2 matrix, 3 system, by its group (R315, R327). A reserved opcode counts
as general, so that it passes the check of R316. -/
def classOf (opc : Nat) : Nat :=
  match decodeOp opc 0 with
  | .error 1 => 0
  | _ =>
    let g := opc / 64
    if g ≤ 5 then 0 else if g ≤ 9 then 1 else if g = 10 then 2 else 3

/-- The PC-changing instructions of R245, with YIELDW and ERET (R315): BRA, BRC, CALL, RET, JMPI, BRV, JOIN. -/
def mustBeLast (opc : Nat) : Bool := [0x41, 0x42, 0x43, 0x44, 0x45, 0x53, 0x55, 0x20C, 0x2D1].contains opc

/-- Clause header fields from bit 0 upward (R313): reserved, WST, WCP, WMX, WSM, WVM, ORDINAL, NOFOLD, STOP, CLASS, COUNT,
SIG. -/
def headerWidths : List Nat := [16, 4, 4, 4, 4, 4, 12, 1, 1, 2, 4, 8]

/-- The header that a word holds, or the DETAIL of the first of the checks 0x01 to 0x03 of R316 that fails. -/
def decodeHeader (w : W64) : Except Nat Header :=
  match unpack headerWidths w.toNat with
  | [z, wst, wcp, wmx, wsm, wvm, ord, nofold, stop, cls, count, sig] =>
    if sig ≠ 0xC5 then .error 1
    else if z ≠ 0 then .error 2
    else if stop = 0 ∧ ord ≠ 0 then .error 3
    else .ok { count := count + 1, cls := cls, stop := decide (stop = 1), nofold := decide (nofold = 1), ordinal := ord,
               wvm := wvm, wsm := wsm, wmx := wmx, wcp := wcp, wst := wst }
  | _ => .error 1

/-- The word of a header. -/
def encodeHeader (h : Header) : W64 :=
  BitVec.ofNat 64 (pack [(16, 0), (4, h.wst), (4, h.wcp), (4, h.wmx), (4, h.wsm), (4, h.wvm), (12, h.ordinal),
    (1, boolNat h.nofold), (1, boolNat h.stop), (2, h.cls), (4, h.count - 1), (8, 0xC5)])

/-- The checks 0x04 and 0x05 of R316 over the words of a clause. -/
def clauseError (h : Header) (words : List W64) : Nat :=
  let opcs := words.map (fun w => w.toNat / 2 ^ 54)
  if opcs.any (fun o => !(classOf o = 0 || classOf o = h.cls)) then 4
  else if opcs.dropLast.any mustBeLast then 5
  else 0

/-- The FETCH slot (R58). -/
def decodeFetch (x : Nat) : Option FetchOp :=
  match unpack [21, 4, 3, 4, 4] x with
  | [z, wa, g, wd, fop] =>
    if z ≠ 0 then none
    else if fop = 0 then if wa = 0 ∧ g = 0 ∧ wd = 0 then some .fnop else none
    else if fop = 1 then if wa = 0 then some (.fld wd g) else none
    else if fop = 2 then if wa = 0 then some (.flds wd g) else none
    else if fop = 3 then if g = 0 then some (.fgth wd wa) else none
    else none
  | _ => none

/-- Lanes of a TY view, and whether it is floating (R55). -/
def padLanes (ty : Nat) : Nat := if ty ≤ 1 then 8 else if ty = 5 then 32 else 16
/-- A floating TY of R55. -/
def padFloat (ty : Nat) : Bool := ty = 1 || ty = 2 || ty = 3

/-- The pairs of PCVT (R66): whether `part` and Wb and RM are used, and the largest part. -/
def pcvtPair (d s : Nat) : Option (Nat × Bool × Bool) :=
  match d, s with
  | 1, 2 => some (1, false, false)
  | 1, 3 => some (1, false, false)
  | 0, 4 => some (1, false, false)
  | 0, 5 => some (3, false, false)
  | 2, 1 => some (0, true, true)
  | 3, 1 => some (0, true, true)
  | 4, 0 => some (0, true, false)
  | 1, 0 => some (0, false, true)
  | 0, 1 => some (0, false, true)
  | _, _ => none

/-- PSET's layout (R70). -/
def decodePset (x : Nat) : Option PadOp :=
  match unpack [32, 4, 3, 3] x with
  | [imm, wa, idx, sel] =>
    let small := imm < 65536
    if sel = 0 then if wa = 0 then some (.pset (.addr idx imm)) else none
    else if sel = 1 then if wa = 0 ∧ small then some (.pset (.stride idx imm)) else none
    else if sel = 2 then if wa = 0 ∧ small then some (.pset (.count idx imm)) else none
    else if sel = 3 then if wa = 0 ∧ small ∧ idx ≤ 3 then some (.pset (.ctr idx imm)) else none
    else if sel = 4 then if imm % 2 ^ 30 = 0 then some (.pset (.addrW idx wa (imm / 2 ^ 30))) else none
    else if sel = 5 then
      if imm % 2 ^ 30 = 0 ∧ idx ≤ 3 then some (.pset (.ctrW idx wa (imm / 2 ^ 30))) else none
    else none
  | _ => none

/-- The OP slot (R60 to R70). -/
def decodePadOp (x : Nat) : Option PadOp :=
  match unpack [21, 2, 4, 4, 4, 4, 3, 6] x with
  | [xf, rm, c, b, a, d, ty, opc] =>
    -- the X field is [56:36]: bit 20 is [56], so SAT is bit 20 and CC or STY is bits 20 to 18
    let sat := xf / 2 ^ 20
    let hi3 := xf / 2 ^ 18
    let lane (op : PLane) (rounds usesC saturates : Bool) : Option PadOp :=
      if 5 < ty ∨ xf % 2 ^ 20 ≠ 0 ∨ (sat = 1 ∧ (!saturates || padFloat ty)) ∨ (!usesC ∧ c ≠ 0)
          ∨ (rm ≠ 0 ∧ !(rounds && padFloat ty)) then none
      else some (.lane op ty d a b c rm (sat = 1))
    let plain (usesB usesC : Bool) (p : PadOp) : Option PadOp :=
      if ty ≠ 0 ∨ rm ≠ 0 ∨ xf ≠ 0 ∨ (!usesB ∧ b ≠ 0) ∨ (!usesC ∧ c ≠ 0) then none else some p
    match opc with
    | 0x00 => if xf = 0 ∧ rm = 0 ∧ c = 0 ∧ b = 0 ∧ a = 0 ∧ d = 0 ∧ ty = 0 then some .pnop else none
    | 0x01 => lane .padd true false true
    | 0x02 => lane .pmul true false true
    | 0x03 => lane .pfma true true true
    | 0x04 => lane .pmax false false false
    | 0x05 => lane .pmin false false false
    | 0x06 => plain true false (.pand d a b)
    | 0x07 => plain true false (.por d a b)
    | 0x08 => plain true false (.pxor d a b)
    | 0x09 =>
      let n := xf / 2 ^ 16
      if ty ≠ 0 ∨ rm ≠ 0 ∨ c ≠ 0 ∨ xf % 2 ^ 16 ≠ 0 ∨ (n = 0 ∧ b ≠ 0) then none else some (.pshf d a b n)
    | 0x0A =>
      let part := xf / 2 ^ 16 % 4
      match pcvtPair ty hi3 with
      | none => none
      | some (maxPart, usesB, rounds) =>
        if xf % 2 ^ 16 ≠ 0 ∨ c ≠ 0 ∨ maxPart < part ∨ (!usesB ∧ b ≠ 0) ∨ (!rounds ∧ rm ≠ 0) then none
        else some (.pcvt ty hi3 d a b part rm)
    | 0x0B =>
      let part := xf / 2 ^ 19
      let one := xf / 2 ^ 18 % 2 = 1
      if 5 < ty ∨ xf % 2 ^ 18 ≠ 0 ∨ c ≠ 0 ∨ 4 ≤ d ∨ (one ∧ b ≠ 0) ∨ 32 < padLanes ty * (part + 1)
          ∨ (!padFloat ty ∧ rm ≠ 0) then none
      else some (.pdot ty d a b part rm one)
    | 0x0C =>
      let g := xf / 2 ^ 19
      let sum := xf / 2 ^ 18 % 2 = 1
      if 1 < ty ∨ xf % 2 ^ 18 ≠ 0 ∨ b ≠ 0 ∨ c ≠ 0 ∨ 4 ≤ a then none
      else if sum then if g ≠ 0 ∨ (ty = 0 ∧ rm ≠ 0) then none else some (.predSum ty d a rm)
      else if rm ≠ 0 then none else some (.pred ty d a g)
    | 0x0D => plain true true (.psel d a b c)
    | 0x0E =>
      if 5 < ty ∨ rm ≠ 0 ∨ c ≠ 0 ∨ xf % 2 ^ 18 ≠ 0 ∨ 5 < hi3 then none else some (.pcmp ty hi3 d a b)
    | 0x0F => plain false false (.ppopc d a)
    | 0x10 =>
      if ty ≠ 0 ∨ rm ≠ 0 ∨ xf ≠ 0 ∨ a ≠ 0 ∨ b ≠ 0 ∨ c ≠ 0 ∨ 4 ≤ d then none else some (.zclr d)
    | 0x11 => decodePset (x % 2 ^ 42)
    | _ => none
  | _ => none

/-- The WB slot (R71). -/
def decodeWb (x : Nat) : Option WbOp :=
  match unpack [14, 1, 2, 8, 3, 4, 4] x with
  | [z, sty, zg, mask, g, src, wop] =>
    if z ≠ 0 then none
    else if wop = 0 then if sty = 0 ∧ zg = 0 ∧ mask = 0 ∧ g = 0 ∧ src = 0 then some .wnop else none
    else if wop = 1 then if sty = 0 ∧ zg = 0 ∧ mask ≠ 0 then some (.wst src g mask) else none
    else if wop = 2 then if zg = 0 ∧ mask = 0 then some (.wsnd (sty = 1) src g) else none
    else if wop = 3 then if sty = 0 ∧ mask = 0 ∧ src < 4 then some (.wz src zg g) else none
    else none
  | _ => none

/-- The branch operand of PBR (R73). -/
def decodePbr (x : Nat) : Option CtlOp :=
  match unpack [30, 4, 2, 3, 9] x with
  | [z, wm, cn, cnd, tgt] =>
    if z ≠ 0 then none
    else if cnd = 0 then if wm = 0 ∧ cn = 0 then some (.pbr .always tgt) else none
    else if cnd = 1 then if wm = 0 then some (.pbr (.ctrZ cn) tgt) else none
    else if cnd = 2 then if wm = 0 then some (.pbr (.ctrNz cn) tgt) else none
    else if cnd = 3 then if cn = 0 then some (.pbr (.wordZ wm) tgt) else none
    else if cnd = 4 then if cn = 0 then some (.pbr (.wordNz wm) tgt) else none
    else none
  | _ => none

/-- The W register that FETCH writes. -/
def FetchOp.writes : FetchOp → Option Nat
  | .fnop => none | .fld wd _ => some wd | .flds wd _ => some wd | .fgth wd _ => some wd
/-- The generator that FETCH uses. -/
def FetchOp.gen : FetchOp → Option Nat
  | .fnop => none | .fld _ g => some g | .flds _ g => some g | .fgth _ _ => none
/-- The W register that OP writes. -/
def PadOp.writes : PadOp → Option Nat
  | .lane _ _ wd _ _ _ _ _ => some wd | .pand wd _ _ => some wd | .por wd _ _ => some wd | .pxor wd _ _ => some wd
  | .psel wd _ _ _ => some wd | .pshf wd _ _ _ => some wd | .ppopc wd _ => some wd | .pcmp _ _ wd _ _ => some wd
  | .pcvt _ _ wd _ _ _ _ => some wd | .pred _ wd _ _ => some wd | .predSum _ wd _ _ => some wd
  | .pnop => none | .pdot _ _ _ _ _ _ _ => none | .zclr _ => none | .pset _ => none
/-- The generator that OP writes. -/
def PadOp.gen : PadOp → Option Nat
  | .pset (.addr g _) => some g | .pset (.stride g _) => some g | .pset (.count g _) => some g
  | .pset (.addrW g _ _) => some g | _ => none
/-- The counter that OP writes. -/
def PadOp.ctr : PadOp → Option Nat
  | .pset (.ctr c _) => some c | .pset (.ctrW c _ _) => some c | _ => none
/-- The generator that WB uses. -/
def WbOp.gen : WbOp → Option Nat
  | .wnop => none | .wst _ g _ => some g | .wsnd _ _ g => some g | .wz _ _ g => some g
/-- The counter that the control byte names. -/
def CtlOp.ctr : CtlOp → Option Nat
  | .loop c _ => some c | .pbr (.ctrZ c) _ => some c | .pbr (.ctrNz c) _ => some c | _ => none

/-- Two slots name the same thing. -/
def clash (a b : Option Nat) : Bool := a.isSome && decide (a = b)

/-- The conflicts of R53. -/
def Bundle.conflict (b : Bundle) : Bool :=
  clash b.fetch.writes b.op.writes
    || clash b.fetch.gen b.op.gen || clash b.fetch.gen b.wb.gen || clash b.op.gen b.wb.gen
    || clash b.op.ctr b.ctl.ctr

/-- The bundle that a 128-bit slot holds, or none where it is illegal (R51, R53). -/
def decodeBundle (x : BitVec 128) : Option Bundle :=
  match unpack [36, 48, 36, 4, 3, 1] x.toNat with
  | [wb, op, fetch, low, kind, loop] =>
    match decodeWb wb, decodeFetch fetch with
    | some w, some f =>
      let mk (c : CtlOp) (o : PadOp) : Option Bundle :=
        let b : Bundle := { ctl := c, fetch := f, op := o, wb := w }
        if b.conflict then none else some b
      if loop = 1 then (decodePadOp op).bind (mk (.loop (kind / 2) (kind % 2 * 16 + low)))
      else if low ≠ 0 then none
      else if kind = 0 then (decodePadOp op).bind (mk .cnone)
      else if kind = 1 then (decodePbr op).bind (fun c => mk c .pnop)
      else if kind = 2 then (decodePadOp op).bind (mk .pret)
      else if kind = 3 then (decodePadOp op).bind (mk .phalt)
      else none
    | _, _ => none
  | _ => none

end Sys2Proof
end

