-- ==== Sys2Proof/Config.lean ====
section
/-! DEFINITION. What one device fixes (counts, capacities, fuses) and the free values: constants without a body for what
the manual leaves open. Nothing can be proved of a free value. -/

namespace Sys2Proof.Config

/-- Compute cores of the device (R2, R100). -/
def cores : Nat := 192
/-- Paddock cores of the device (R2). -/
def paddockCores : Nat := 512
/-- Bytes of local HBM (R12). -/
def hbmBytes : Nat := 0x8000000000
/-- First address of the CXL tier's window (R12). -/
def tierBase : Nat := 0x80000000000
/-- First address past the CXL tier's window (R12). -/
def tierEnd : Nat := 0x100000000000
/-- First address of the remote region (R12). -/
def remoteBase : Nat := 0x8000000000000
/-- First address past the remote region (R12). -/
def remoteEnd : Nat := 0xC000000000000
/-- First address of the device register space (R12, R298). -/
def devBase : Nat := 0xFFF0000000000
/-- First address past the physical address space (R12). -/
def paEnd : Nat := 0x10000000000000

/-- Installed bytes of the CXL tier, chosen at bring-up, of which at most the window's 8 TiB count (R17): an implementation constant
(log 13). -/
opaque cxlBytes : Nat
/-- The interleave sets of CXL ports: one, two or four ports (R17). -/
def cxlSets : List (BitVec 4) := [1, 2, 4, 8, 3, 5, 6, 9, 10, 12, 15]
/-- Which of the sets firmware chooses at bring-up (R17): an implementation constant (log 13). -/
opaque cxlChoice : Nat
/-- Interleave set of CXL ports that firmware chooses at bring-up (R17, R311). -/
def cxlSet : BitVec 4 := cxlSets.getD (cxlChoice % 11) 1
/-- The DEVNUM strap (R298). -/
opaque devnum : BitVec 10
/-- Whether the firmware image's signature verifies under the vendor's key (R303). -/
opaque imageAccepted : Bool
/-- Whether Dalgaop port p trains at bring-up (R300, R311). -/
opaque portTrains : Nat → Bool
/-- The vendor's key digest, in fuses (R303). -/
opaque vendorKeyDigest : BitVec 512
/-- SHA digests extended into MR0 and MR1 at boot (R304): the firmware image and the microcode. -/
opaque imageDigest : BitVec 512
/-- Digest of the die and paddock microcode that firmware extends into MR1 (R304). -/
opaque microcodeDigest : BitVec 512
/-- The identity public key (R305). -/
opaque identityKey : BitVec 512
/-- The device's certificate that ATTEST writes after the report, byte by byte, and its length (R305). -/
opaque certificateByte : Nat → Byte
opaque certificateLen : Nat
/-- Where firmware maps dump i in the PF's BAR2 (R299). -/
opaque dumpOffset : Nat → Nat
/-- The form of a barrier tag in a dump (R310): its address, GEN and state (0 free, 1 live, 2 orphaned), of an unstated
layout. -/
opaque tagForm : Nat → Nat → Nat → List Byte
/-- A directory entry of a dump (R310): offset, size, INC and POIS, of an unstated layout. -/
opaque dirForm : Nat → Nat → Bool → Bool → BitVec 128
/-- The 8 bytes of a report that give DLID and the security-version counter, of an unstated layout (R305). -/
opaque reportIds : Nat → Nat → W64
/-- The digest that firmware extends into MR2 for a KEYLOAD (true) or KEYCLEAR of a slot (R304). -/
opaque keyDigest : Bool → Nat → BitVec 512
/-- The security version of the firmware image, and whether its header asks to advance the counter (R303). -/
opaque imageVersion : Nat
opaque imageAdvances : Bool
/-- Byte i of the signature that the identity key gives over a report (R305). -/
opaque signatureByte : List Byte → Nat → Byte
/-- The ASID under which the supervisor's rings are written: the manual says only the supervisor's ASID (R279, R428). -/
opaque supervisorAsid : BitVec 16

/-- A byte of memory that nothing has written since reset, read under a key (R27): a free value. -/
opaque unwrittenByte : KeyPair → Nat → Byte
/-- A byte read under another key than it was written under (R27): stored key, reading key, address, stored word. -/
opaque garbledByte : KeyPair → KeyPair → Nat → W256 → Byte
/-- The home slice that the device chooses for a mangle's windows at installation (R82). -/
opaque mangleHome : Nat → Nat
/-- The result of a conversion between integer types of one width whose value the destination cannot hold: R197 states none.
Destination and source format, SATN, the element's bits (log 18). -/
opaque sameWidth : Nat → Nat → Bool → Nat → Nat
/-- A fresh free value, by a counter of the state. -/
opaque fresh : Nat → W64

end Sys2Proof.Config
end

