-- ==== Sys2Proof/Machine/Table.lean ====
section
/-! DEFINITION. Sparse tables: finite lists of (key, value) pairs with rising keys, and the bit helpers the machine uses.
Every map of the machine (memory, register files, per-core and per-sector data) is one of these lists, so the whole state
is plain data. -/

namespace Sys2Proof.Machine

/-- A sparse table, keys rising. -/
abbrev Tab (α : Type) := List (Nat × α)

namespace Tab

/-- The value listed at a key. -/
def find? {α : Type} : Tab α → Nat → Option α
  | [], _ => none
  | (a, v) :: t, k => if a = k then some v else find? t k

/-- The value listed at a key, or the given one. -/
def getD {α : Type} (m : Tab α) (k : Nat) (d : α) : α := (find? m k).getD d

/-- List a value at a key, keeping the keys rising. -/
def set {α : Type} : Tab α → Nat → α → Tab α
  | [], k, v => [(k, v)]
  | (a, w) :: t, k, v =>
    if k < a then (k, v) :: (a, w) :: t
    else if k = a then (k, v) :: t
    else (a, w) :: set t k v

/-- Remove a key. -/
def erase {α : Type} (m : Tab α) (k : Nat) : Tab α := m.filter (fun p => p.1 ≠ k)

/-- Write a value, listing nothing where it equals what an unlisted key reads as. -/
def put {α : Type} [DecidableEq α] (d : α) (m : Tab α) (k : Nat) (v : α) : Tab α :=
  if v = d then erase m k else set m k v

/-- The keys rise strictly. -/
def rising {α : Type} : Tab α → Bool
  | [] => true
  | [_] => true
  | (a, _) :: (b, w) :: t => decide (a < b) && rising ((b, w) :: t)

end Tab

/-- Bits `hi` down to `lo` of a number (R4). -/
def bits (x hi lo : Nat) : Nat := x / 2 ^ lo % 2 ^ (hi + 1 - lo)

/-- Bit `i` of a number. -/
def bit (x i : Nat) : Bool := x / 2 ^ i % 2 = 1

/-- One for true, zero for false. -/
def b2n (b : Bool) : Nat := if b then 1 else 0

/-- `x` read as a two's-complement number of `w` bits (R200). -/
def signed (w x : Nat) : Int :=
  let y := x % 2 ^ w
  if y < 2 ^ (w - 1) then (y : Int) else (y : Int) - (2 ^ w : Nat)

/-- An integer modulo 2^w. -/
def wrap (w : Nat) (x : Int) : Nat := (x % ((2 ^ w : Nat) : Int)).toNat

/-- `clamp` of R200. -/
def clamp (x lo hi : Int) : Int := if x < lo then lo else if x > hi then hi else x

/-- Round a size up to a multiple. -/
def roundUp (x k : Nat) : Nat := (x + k - 1) / k * k

/-- Quotient rounded up. -/
def ceilDiv (x k : Nat) : Nat := (x + k - 1) / k

/-- Little-endian bytes as one number, the first byte lowest (R4). -/
def leNat : List Byte → Nat
  | [] => 0
  | b :: t => b.toNat + 256 * leNat t

/-- The `n` little-endian bytes of a number (R4). -/
def leBytes : Nat → Nat → List Byte
  | 0, _ => []
  | n + 1, x => BitVec.ofNat 8 x :: leBytes n (x / 256)

/-- The lanes of a set, ascending. -/
def laneList (m : LaneSet) : List Nat := (List.range 32).filter (fun i => m.getLsbD i)

/-- The set holding the lanes for which `p` holds. -/
def laneSetOf (p : Nat → Bool) : LaneSet :=
  BitVec.ofNat 32 ((List.range 32).foldr (fun i acc => b2n (p i) + 2 * acc) 0)

/-- Keep the first element for which `p` holds out of a list, with the rest. -/
def takeFirst {α : Type} (p : α → Bool) : List α → Option (α × List α)
  | [] => none
  | x :: t => if p x then some (x, t) else (takeFirst p t).map (fun r => (r.1, x :: r.2))

/-- Replace the elements for which `p` holds. -/
def mapIf {α : Type} (p : α → Bool) (f : α → α) (l : List α) : List α :=
  l.map (fun x => if p x then f x else x)

/-- Keep the first of equal elements. -/
def dedup {α : Type} [DecidableEq α] : List α → List α
  | [] => []
  | x :: t => x :: (dedup t).filter (fun y => y ≠ x)

/-- All-ones where `p` holds of the index (R189's string order is least significant first). -/
def bitsOf (n : Nat) (p : Nat → Bool) : Nat :=
  (List.range n).foldr (fun i acc => b2n (p i) + 2 * acc) 0

end Sys2Proof.Machine
end

