-- ==== Sys2Proof/Machine/State.lean ====
section
/-! DEFINITION. The state of the machine as plain data: everything the manual gives the Urkor, from a lane's registers up to
the device registers, with the state right after reset. Keys of tables that stand for identities (operations, tasks, grids)
are the model's own names. -/

namespace Sys2Proof.Machine

/-- Where a path is: core, team slot, group of the team, path of the group. -/
structure Site where
  core : Nat
  slot : Nat
  group : Nat
  path : Nat
  deriving DecidableEq, Repr

/-- The value of one V register: lane i at bits [32i + 31 : 32i] (R164). -/
abbrev VReg := BitVec 1024

/-- A rejoin register (R165). -/
structure KReg where
  fmt : W32
  pc : PcVal
  mask : LaneSet
  deriving DecidableEq, Repr

/-- A translation (R284): the page, its physical base, the key slot it selects (R25) and its attributes. -/
structure TlbEntry where
  asid : Nat
  lg : Nat
  vpn : Nat
  pa : Nat
  key : Nat
  nomove : Bool
  mng : Bool
  uc : Bool
  x : Bool
  w : Bool
  rd : Bool
  u : Bool
  deriving DecidableEq, Repr

/-- A non-leaf entry of a walk cache (R284): the table that serves the bits of `va` above a level. -/
structure WalkEntry where
  asid : Nat
  level : Nat
  prefixBits : Nat
  table : Nat
  deriving DecidableEq, Repr

/-- The translated address of one access. -/
structure Xlat where
  pa : Nat
  key : Nat
  uc : Bool
  mng : Bool
  deriving DecidableEq, Repr

/-- A fault-buffer entry (R286). -/
structure FaultEntry where
  kind : Nat
  agent : Nat
  acc : Nat
  asid : Nat
  count : Nat
  vpn : Nat
  deriving DecidableEq, Repr

/-- One lane's part of an access: its address, width in bytes, the bytes it stores or the operand of its atomic, and the
value read. -/
structure LaneAcc where
  lane : Nat
  addr : Nat
  width : Nat
  data : Nat
  data2 : Nat
  got : Nat
  deriving DecidableEq, Repr

/-- The progress of one part of an access. -/
inductive PartSt where
  /-- Waits for a page walk. -/
  | walk
  /-- Parked on a fault (R285). -/
  | parked
  /-- Rejected for want of miss-status entries (R159). -/
  | rejected
  /-- May take its perform or serve step. -/
  | ready
  /-- A load of a mangle's output slot that has arrived and waits for the switch-in of a generation (R95). -/
  | window (gen : Nat)
  /-- Sent to another device (R227). -/
  | sent
  /-- Has taken its step. A load has returned. -/
  | done
  /-- A store or atomic that has been acknowledged. -/
  | acked
  deriving DecidableEq, Repr

/-- One part of a memory access: one per sector of a load or store (R158), one per lane of an atomic (R384). -/
structure Part where
  lanes : List LaneAcc
  st : PartSt
  xl : Option Xlat
  deriving DecidableEq, Repr

/-- Where the result of an operation goes. -/
inductive Dst where
  | none
  | v (reg : Nat) (ty : Ty)
  | s (reg : Nat) (ty : Ty)
  deriving DecidableEq, Repr

/-- What an outstanding operation is. -/
inductive OpKind where
  | load
  | store
  | atomic (aop : Nat) (ty : Ty)
  | fifoPut
  | fifoGet
  | matrix
  /-- MNGI, MNGU, MNGF, a device transaction that answers with a word. -/
  | mangle
  deriving DecidableEq, Repr

/-- The address space of an access: global memory, or the scratchpad of a team on a core. -/
inductive OpSpace where
  | global
  | scratch (core slot : Nat)
  deriving DecidableEq, Repr

/-- The key of a fold entry (R172). -/
structure FoldKey where
  word : Nat
  names : List Nat
  svals : List W32
  mask : LaneSet
  fmt : W32
  part : Nat
  asid : Nat
  prior : List Nat
  deriving DecidableEq, Repr

/-- A fold entry (R172, R175), most recently used first in its table. -/
structure FoldEntry where
  key : FoldKey
  names : List Nat
  vals : List VReg
  flags : BitVec 6
  secs : List Nat
  deriving DecidableEq, Repr

/-- An outstanding operation of a group: an access in the issue order of its lanes (R216), or another operation that a count
of R314 covers. `count` is 0 VM, 1 SM, 2 MX, 3 CP, 4 ST. -/
structure Op where
  kind : OpKind
  space : OpSpace
  count : Nat
  path : Nat
  lanes : LaneSet
  pc : PcVal
  scope : Nat
  ord : Nat
  ofr : Bool
  dst : Dst
  parts : List Part
  rejects : Nat
  fold : Option FoldKey
  spoiled : Bool
  touched : List Nat
  waits : List Nat
  /-- Its instruction is the last of its clause, which it ends when it retires (R260). -/
  closes : Bool
  /-- When its first access parked (R437): the order in which FLTRPL.ALL releases it. -/
  parkedAt : Nat
  deriving DecidableEq, Repr

/-- What a fence token covers of an operation (R220): the accesses of some lanes, with remote stores and atomics or without. -/
structure Cover where
  op : Nat
  remote : Bool
  lanes : LaneSet
  deriving DecidableEq, Repr

/-- A fence token (R386): free, or filled, waiting for operations of the group and for works of the device. -/
inductive Token where
  | free
  | filled (ops : List Cover) (works : List Nat)
  /-- Filled by PLAUNCH (R421). -/
  | tasks (work : Nat)
  deriving DecidableEq, Repr

/-- A user trap (R276): cause code, detail, address, and the resume PC. -/
structure TrapReq where
  cause : Nat
  detail : Nat
  addr : Nat
  pc : PcVal
  /-- The trapping instruction, which a forced halt names (R280), where it is not the one at the resume PC. -/
  inst : Option PcVal
  /-- 0 other, 1 BRK, 2 breakpoint register (R426). -/
  debug : Nat
  deriving DecidableEq, Repr

/-- What a path waits for beyond its next instruction's own conditions. -/
inductive Wait where
  | none
  /-- JOIN Kn (R254). -/
  | join (k : Nat)
  /-- BARWAIT (R142) and YIELDW on an object (R144): the continuation, if any. -/
  | barrier (core slot off g : Nat) (reg : Nat) (cont : Option PcVal)
  /-- YIELDW on a token (R144). -/
  | token (f : Nat) (cont : PcVal)
  /-- A broadcast or operation of the device that the next issue waits for (R430, R431, R399). -/
  | work (w : Nat)
  /-- QPUT or QGET at the FIFO unit (R156). -/
  | fifo (op : Nat)
  /-- Schedule issues of the team's admission that still find no room (R128, R146). -/
  | step
  deriving DecidableEq, Repr

/-- A snapshot of the spin detector (R259). -/
structure SpinSnap where
  branch : PcVal
  names : Tab Nat
  svals : Tab W32
  lanes : LaneSet
  fmt : W32
  nest : BitVec 128
  ks : Tab KReg
  deriving DecidableEq, Repr

/-- The spin detector's state for one path (R259, R260). -/
structure Spin where
  last : Option SpinSnap
  equal : Nat
  changed : Bool
  lines : List Nat
  /-- Marked spinning: the core clock at the mark and the recorded lines. -/
  mark : Option (Nat × List Nat)
  deriving DecidableEq, Repr

/-- A path (R243): lanes that have not exited, the address of its next instruction, its FMT, the clause it is in. -/
structure Path where
  lanes : LaneSet
  pc : PcVal
  fmt : W32
  /-- The words of the fetched clause that have not issued, the next first (R316). Empty before a clause is fetched. -/
  words : List W64
  hdrPc : PcVal
  hdr : Header
  /-- No instruction of the clause has issued. -/
  fresh : Bool
  /-- The fetch of the next clause, or a read that the next instruction makes, waits parked on a fault (R285). -/
  fetchParked : Bool
  wait : Wait
  /-- Thresholds of a WAITC (R343). -/
  waitc : Option WcntF
  /-- Outstanding operations with the lookahead they still allow (R323). -/
  la : List (Nat × Nat)
  /-- The same of copy operations (R128, R323). -/
  laCopies : List (Nat × Nat)
  pend : Option TrapReq
  /-- The next clause issues without matching breakpoints (R426). -/
  skipBp : Bool
  spin : Spin
  /-- The stall reason charged (R274), if it waits. -/
  stall : Option Nat
  lastIssue : Nat
  /-- Ordinal of the last STOP clause issued and clauses since (R307). -/
  lastOrd : Option Nat
  clausesSince : Nat
  deriving DecidableEq, Repr

/-- Why a group is held for the supervisor (R278). -/
inductive Hold where
  | machineCheck
  | syscall
  /-- A machine check of another path while a SYSCALL holds the group. -/
  | both
  deriving DecidableEq, Repr

/-- A LEAVE request or grant (R424). -/
inductive Leave where
  | none
  | asked (cls : Nat)
  | granted (cls : Nat) (clock : Nat)
  deriving DecidableEq, Repr

/-- The handler a group is in (R277). -/
structure Handling where
  path : Nat
  /-- Paths numbered from here on have split off inside the handler. -/
  born : Nat
  /-- Address of the frame in the scratchpad. -/
  frame : Nat
  pc : PcVal
  debug : Nat
  /-- What was left of the clause at the trap. -/
  words : List W64
  hdr : Header
  hdrPc : PcVal
  deriving DecidableEq, Repr

/-- SAVE or RESTORE routines of a group (R292): the ordinals whose routine has not ended, the current one first. -/
structure Routine where
  restore : Bool
  left : List Nat
  /-- The table entry of the current one is still to be read. -/
  pending : Bool
  deriving DecidableEq, Repr

/-- A group (R241). -/
structure Group where
  quarter : Nat
  v : Tab VReg
  s : Tab W32
  k : Tab KReg
  t : Tab (BitVec 128)
  /-- Physical register that each V register names (R166). -/
  names : Tab Nat
  nest : BitVec 128
  exited : LaneSet
  part : Nat
  flags : BitVec 6
  gstat : W32
  tokens : Tab Token
  paths : Tab Path
  nextPath : Nat
  ops : Tab Op
  nextOp : Nat
  /-- Traps taken at a next clause header (R276). -/
  late : List TrapReq
  handling : Option Handling
  hold : Option Hold
  /-- The task that a PGO waits for (R41). -/
  pgo : Option Nat
  leave : Leave
  routine : Option Routine
  yielded : Bool
  /-- Order of admission, cycles ready without issuing, and when it began to starve (R271). -/
  age : Nat
  readyFor : Nat
  starvingSince : Option Nat
  deriving DecidableEq, Repr

/-- A phase region (R117, R118): the private bytes, those written, and the poisoned words, by virtual address / 32. -/
structure Phase where
  base : Nat
  size : Nat
  bytes : Tab Byte
  written : List Nat
  pois : List Nat
  deriving DecidableEq, Repr

/-- What a team is doing. -/
inductive TeamRun where
  | running
  /-- A pre-emption was requested (R292): cycles counted toward PRELIM, and the reason code of R280. -/
  | stopping (count : Nat) (reason : Nat)
  /-- The SAVE routines run. -/
  | saving (reason : Nat)
  /-- The RESTORE routines run. -/
  | restoring (reason : Nat)
  /-- A forced halt (R293): what issued has still to perform. The cause, trap code, group and PC of its record. -/
  | halting (cause trap group pc : Nat)
  deriving DecidableEq, Repr

/-- A range that PUBLISH has ended (R119), until its last line has been acknowledged, which ends `work`. -/
structure Pub where
  core : Nat
  slot : Nat
  group : Nat
  asid : Nat
  sup : Bool
  /-- The written bytes of each line still to perform, by virtual address. -/
  lines : Tab (Tab Byte)
  pois : List Nat
  work : Nat
  parked : Bool
  deriving DecidableEq, Repr

/-- A team in a slot of a core. -/
structure Team where
  grid : Nat
  cluster : Nat
  rank : Nat
  asid : Nat
  sup : Bool
  groups : Tab Group
  scratchBase : Nat
  scratchSize : Nat
  scratch : Tab Byte
  /-- Poisoned 32-byte words of the allocation (R160). -/
  scratchPois : List Nat
  acc : Tab W32
  prog : Tab (BitVec 16)
  phases : List Phase
  stage : Nat
  /-- Issues of each schedule entry made so far (R146). -/
  issued : Tab Nat
  run : TeamRun
  forced : Bool
  deriving DecidableEq, Repr

/-- One sector in an L1 (R102, R110). -/
structure L1Sec where
  data : BitVec 512
  pois : Nat
  key : Nat
  /-- Pushed and not yet loaded: the producer and the team slot of the route (R123). -/
  pushed : Option (Nat × Nat)
  pinned : Bool
  /-- Whose stores a pinned sector holds: team slot, group, lanes (R115). -/
  writers : List (Nat × Nat × LaneSet)
  deriving DecidableEq, Repr

/-- One line in an L1: the block that holds it, its last use by the core's count of uses, its sectors (R150). A team's private
line (R118) stands here without a sector, under a number of its own. -/
structure L1Line where
  way : Nat
  used : Nat
  secs : Tab L1Sec
  deriving DecidableEq, Repr

/-- What a message from a slice to a core carries (R106): an update gives the bytes written, and the words that the store has
poisoned, as two bits. -/
inductive MsgBody where
  | fill (data : BitVec 512) (pois key : Nat)
  | update (bytes : Tab Byte) (pois : Nat)
  | push (data : BitVec 512) (pois key prod slot epoch : Nat)
  | inval
  | pin (data : BitVec 512) (pois key : Nat)
  deriving DecidableEq, Repr

/-- A message for a sector. `ack` names the counter that counts it; `readers` are the lanes (team slot, group, lanes) that the
slice has served what the core has only once this message is applied (R219). -/
structure Msg where
  sec : Nat
  body : MsgBody
  ack : Option Nat
  readers : List (Nat × Nat × LaneSet) := []
  deriving DecidableEq, Repr

/-- A 64-byte unit of a copy operation (R129): its bytes by their offset in the range, and the poisoned 16-byte pieces, by
offset / 16, each of which comes from one column word. -/
inductive UnitSt where
  | held (data : Tab Byte) (pois : List Nat)
  /-- A CPYR unit whose earlier elements have performed (R135). -/
  | adding (data : Tab Byte) (pois : List Nat)
  | written
  | counted
  deriving DecidableEq, Repr

/-- What a copy operation does (R129, R135, R136). -/
inductive CopyKind where
  | gs | sg | gg | sr | rs
  | reduce (op ty : Nat)
  | pref
  | cfence (mask : Nat)
  deriving DecidableEq, Repr

/-- A copy operation in flight (R128 to R138). -/
structure CopyOp where
  kind : CopyKind
  q : Nat
  slot : Nat
  group : Nat
  asid : Nat
  sup : Bool
  src : Nat
  dst : Nat
  /-- Core and slot of the remote scratchpad of SR and RS. -/
  peer : Nat × Nat
  size : Nat
  /-- The tag: core, and its key there. -/
  tag : Option (Nat × Nat)
  work : Nat
  units : Tab UnitSt
  /-- Units performed and not yet counted at the object. -/
  arrived : Nat
  counted : Nat
  parked : Bool
  err : Bool
  /-- 0 no leave needed or granted, 1 waits for leave. -/
  leave : Nat
  staleSent : Bool
  /-- Scratchpad stores of the issuing path, by operation, that its scratchpad reads follow (R133). -/
  stores : List Nat
  deriving DecidableEq, Repr

/-- A tag of the barrier unit (R143). -/
structure Tag where
  slot : Nat
  off : Nat
  gen : Nat
  inb : Bool
  orphan : Bool
  deriving DecidableEq, Repr

/-- A path that waits on an object of this core (R142, R144). -/
structure BarWaiter where
  site : Site
  slot : Nat
  off : Nat
  gen : Nat
  reg : Nat
  yield : Bool
  deriving DecidableEq, Repr

/-- An operation that waits at a FIFO unit (R156). -/
structure FifoWait where
  site : Site
  op : Nat
  get : Bool
  wide : Bool
  vals : List VReg
  reg : Nat
  deriving DecidableEq, Repr

/-- The queue of a FIFO block (R155): entries with their poison, oldest first. -/
structure Fifo where
  owner : Nat
  entries : List (VReg × Bool)
  waiting : List FifoWait
  deriving DecidableEq, Repr

/-- A write to a 16-byte chunk of the scratchpad while a matrix operation runs (R210): the store of another group (core, slot, group,
operation), which each later step sees or not, or none for a write that every later step sees. -/
structure LateWrite where
  chunk : Nat
  store : Option (Nat × Nat × Nat × Nat)
  bytes : Tab Byte
  deriving DecidableEq, Repr

/-- The matrix operation in progress (R207 to R212). -/
structure MatOp where
  slot : Nat
  group : Nat
  op : Nat
  binary : Bool
  andMode : Bool
  ad : Nat
  ta : BitVec 128
  tb : BitVec 128
  fmt : W32
  step : Nat
  /-- The step at which it began. -/
  first : Nat
  steps : Nat
  /-- The instruction word, which a stop puts back (R212). -/
  word : W64
  /-- The header of its clause. -/
  hdr : Header
  hdrPc : PcVal
  /-- Chunks that stores of other groups have met since it began, as they were before, and what has been written to them, oldest
  first (R210). -/
  base : Tab (Tab Byte)
  late : List LateWrite
  deriving DecidableEq, Repr

/-- One physical register of a quarter (R166 to R168). -/
structure PhysReg where
  value : VReg
  count : Nat
  /-- ASID, hash and way of its entry in the name map, if listed. -/
  entry : Option (Nat × Nat × Nat)
  asid : Nat
  pinned : Bool
  deriving DecidableEq, Repr

/-- A quarter: physical registers, fold table, counters (R166 to R176, R271, R274). -/
structure Quarter where
  phys : Tab PhysReg
  folds : List FoldEntry
  /-- NAMESHARE, NAMECOLL, NAMEFULL, REFSAT, FOLDHIT, FOLDMISS. -/
  events : Tab Nat
  eligible : Tab Nat
  stalls : Tab Nat
  /-- Turns at the reserved miss-status pool, oldest first (R159): slot, group, operation. -/
  reserved : List (Nat × Nat × Nat)
  /-- Issues since the last sample (R307). -/
  sinceSample : Nat
  /-- Physical registers taken so far: a name is the register's number plus 1,536 times this count at its taking, so that no
  name comes twice. -/
  taken : Nat
  deriving DecidableEq, Repr

/-- The mode of an SRAM block (R148). -/
inductive BlockMode where
  | cache | scratch | fifo | switching
  deriving DecidableEq, Repr

/-- A block on its way out of CACHE mode (R151): its new mode, what it waits for, and who asked. -/
structure Switching where
  toFifo : Bool
  /-- The lines have been released. -/
  released : Bool
  waits : List Nat
  /-- The path that asked for a FIFO, the register it names, and the work that it waits for (R155). -/
  asker : Option (Site × Nat)
  deriving DecidableEq, Repr

/-- A compute core. -/
structure Core where
  clock : Nat
  slots : Tab Team
  epochs : Tab (BitVec 16)
  blocks : Tab BlockMode
  cacheMin : Nat
  /-- The check of R152 for SCRATCH blocks without an allocation waits for a block on its way to SCRATCH. -/
  shrinkDue : Bool
  switching : Tab Switching
  fifos : Tab Fifo
  l1 : Tab L1Line
  /-- Private lines that stand in the core's phase spill area (R118). -/
  spilled : List Nat
  tlb : List TlbEntry
  faults : List FaultEntry
  dropped : Bool
  copies : Tab CopyOp
  nextCopy : Nat
  /-- Issuers that wait for the 256 operations in flight to fall, in the order they reached the engine, with the instruction
  that waits (R128). -/
  copyWait : List (Site × PcVal)
  tags : Tab Tag
  nextTag : Nat
  waiters : List BarWaiter
  matrix : Option MatOp
  quarters : Tab Quarter
  halted : Bool
  /-- Corrected and dropped errors of the core SRAM (R160). -/
  sramErrors : Nat
  /-- Uses of L1 lines so far (R150). -/
  uses : Nat
  deriving DecidableEq, Repr

/-- State of a sector at its home slice (R102). -/
inductive SecSt where
  | inv | clean | dirty
  deriving DecidableEq, Repr

/-- A sector at its home slice (R102, R103, R109 to R113, R121). -/
structure Sector where
  st : SecSt
  /-- Exact sharers, or none where the list is coarse. -/
  sharers : List Nat
  coarse : BitVec 24
  isCoarse : Bool
  /-- Core, slot, clock of the core at the pin, and the team slot and group that last synchronised, while they are there. -/
  pin : Option (Nat × Nat × Nat × Option (Nat × Nat))
  scope : Nat
  scopeCore : Nat
  /-- The cores of the recorded scope's domain, for CLU. -/
  scopeDom : List Nat
  /-- WRITER (R121). -/
  writer : Option Nat
  /-- Invalidations of an eviction still unacknowledged. -/
  evicting : Bool
  deriving DecidableEq, Repr

/-- An entry of the synchronisation-variable table (R114). -/
structure SyncEntry where
  sec : Nat
  cores : List Nat
  overflow : Bool
  agents : Nat
  deriving DecidableEq, Repr

/-- A route (R122). -/
structure Route where
  sec : Nat
  asid : Nat
  range : Nat
  prod : Nat
  cons : Nat
  slot : Nat
  epoch : BitVec 16
  unread : Nat
  dep : Bool
  deriving DecidableEq, Repr

/-- A slice's tables. -/
structure Slice where
  sync : List SyncEntry
  /-- Sectors whose entry was replaced: treated as spread (R116). -/
  spread : List Nat
  routes : List Route
  /-- Counters of each (ASID, range): RECORDED, OVERFLOW, PUSHED, HITS, DEPARTED, FALLBACK (R126). -/
  counters : Tab (List Nat)
  deriving DecidableEq, Repr

/-- A route range (R120), with its state in each slice that has applied a different one. -/
structure Range where
  base : Nat
  size : Nat
  state : Nat
  /-- What each slice believes while a broadcast is in flight. -/
  bySlice : Tab (Nat × Nat × Nat)
  deriving DecidableEq, Repr

/-- What a broadcast does (R399, R430, R287). -/
inductive Broadcast where
  | school (opcode range asid base size dst : Nat) (site : Site) (sum : List Nat)
  | tlbinv (mode asid va : Nat)
  | replay
  deriving DecidableEq, Repr

/-- A broadcast in progress: the units that have not acted, and the accesses it still waits for. -/
structure Bcast where
  what : Broadcast
  work : Nat
  left : List Nat
  waits : List (Nat × Nat × Nat × Nat)
  deriving DecidableEq, Repr

/-- What a counter of messages reports to (R105). -/
inductive AckTo where
  | part (core slot group op n : Nat)
  | unit (core op unit : Nat)
  | task (n : Nat)
  /-- A part of a work, and the ASID that its address was translated under, if any (R430). -/
  | work (w : Nat) (asid : Option Nat)
  | evict (sec : Nat)
  /-- A request received from another device. -/
  | remote (n : Nat)
  /-- A read of a host function, by its place in the arrival order. -/
  | host (fn seq : Nat)
  | nobody (asid : Option Nat)
  deriving DecidableEq, Repr

/-- An acknowledgement counter (R105, R216). A mangle may hold it back (R89). -/
structure Ack where
  left : Nat
  dest : AckTo
  held : Bool
  deriving DecidableEq, Repr

/-- Memory behind the slices: plaintext bytes at the serialisation point, by physical address; for each 32-byte column word
the key under which it was last written, and its poison and soft-error state. -/
structure Memory where
  bytes : Tab Byte
  keys : Tab KeyPair
  poison : List Nat
  /-- Damaged bits of a stored word: 1 correctable, 2 or more uncorrectable (R19). -/
  errors : Tab Nat
  /-- Words that a read has corrected and whose write-back is still to come (R19). -/
  fixes : List Nat
  deriving DecidableEq, Repr

/-- A pending-fault table entry of an L2 TLB (R285). -/
structure Pending where
  asid : Nat
  vpn : Nat
  /-- Core buffer, or 1000 + stack, that holds the entry. -/
  buf : Nat
  deriving DecidableEq, Repr

/-- A request to the leave governor (R273). -/
inductive LeaveAsk where
  | clause (core slot group path weight : Nat)
  | hint (core slot group cls weight : Nat)
  | copy (core op : Nat)
  | pass (mangle weight : Nat)
  | paddock (pcore : Nat)
  /-- The grant of a matrix clause whose last operation is still in the matrix unit of a core. -/
  | unit (core weight : Nat)
  deriving DecidableEq, Repr

/-- A die: walker and L2 TLB, channels, governor, debug registers. -/
structure Die where
  tlb : List TlbEntry
  walk : List WalkEntry
  pending : List Pending
  svqBase : W64
  svqCtl : W64
  svqPtr : W64
  seq : Nat
  scqCtl : W64
  scqPtr : W64
  callSeq : Nat
  budget : Nat
  inUse : Nat
  /-- Requests in arrival order, and grants held by clauses and passes. -/
  asks : List LeaveAsk
  grants : List LeaveAsk
  prelim : W64
  bp : Tab W64
  smpCtl : W64
  smpBase : W64
  smpPtr : W64
  smpSeq : Nat
  hotBudget : Option Nat
  deriving DecidableEq, Repr

/-- Registers of a running paddock task (R33). -/
structure PadRegs where
  w : Tab W256
  wPois : List Nat
  gAddr : Tab Nat
  gStride : Tab Nat
  gCount : Tab Nat
  c : Tab Nat
  z : Tab W32
  zPois : List Nat
  pc : Nat
  ord : Nat
  deriving DecidableEq, Repr

/-- How far a paddock task has come (R38 to R47). -/
inductive TaskSt where
  | waiting
  | parkedPin
  | admitted
  /-- Loaded and able to issue. -/
  | running
  | saved
  | parked
  | parkedLoad
  /-- Ended; its completion add is still to perform: 0 normal, 1 error. -/
  | ending (err : Nat)
  | endingParked (err : Nat)
  /-- A PGO task that ended with its words still to return: 0 PRET, 1 PHALT, 2 error. -/
  | returning (how : Nat)
  deriving DecidableEq, Repr

/-- A paddock task. -/
structure Task where
  st : TaskSt
  pgo : Bool
  site : Site
  /-- The team that issued it: grid and TEAMID. -/
  team : Nat × Nat
  asid : Nat
  sup : Bool
  prio : Nat
  t : Nat
  order : Nat
  /-- Its paddock core, 512 before one is chosen. -/
  pcore : Nat
  entry : Nat
  nbund : Nat
  base : Nat
  argva : Nat
  argn : Nat
  pin : Nat
  stride : Nat
  compl : Nat
  work : Nat
  /-- PGO: the first register, count, octet and lanes active. -/
  vb : Nat
  n : Nat
  q : Nat
  lanes : LaneSet
  shipped : List W256
  regs : PadRegs
  code : Tab (BitVec 128)
  /-- Slots that have been refetched after a parity error (R48). -/
  parity : List Nat
  /-- A parity error of an accumulator met by the next bundle (R48). -/
  zpar : Option Nat
  /-- Accesses of the bundle under way that have performed, or words that loading has read, with what they read and its poison;
  one may be on its way to another device (R46). -/
  got : List (Nat × Bool)
  sent : Bool
  /-- The bundle under way has passed its translation: where each of its accesses goes, and under which key (R52). -/
  flight : Option (List (Xlat × Option KeyPair))
  /-- Buffer slots that are to be fetched again before the next bundle issues (R48). -/
  refetch : List Nat
  /-- Which of its core's 16 save slots holds its state (R45). -/
  save : Option Nat
  /-- Its team has been halted: it ends at its next bundle boundary (R293). -/
  forced : Bool
  deriving DecidableEq, Repr

/-- A paddock core. -/
structure PCore where
  tlb : List TlbEntry
  current : Option Nat
  /-- Bundles owed before more firing work (R45). -/
  owed : Nat
  /-- Mangles whose pass works on this core's column port. -/
  busy : List Nat
  /-- PDCE.CE: corrected column words read directly (R439). -/
  pdce : W64
  /-- PDCE.IBREF: slots refetched after a parity error (R48, R439). -/
  refetches : Nat
  halted : Bool
  deriving DecidableEq, Repr

/-- A stack: paddock walker, fault buffer, corrected-error counter. -/
structure Stack where
  walk : List WalkEntry
  faults : List FaultEntry
  dropped : Bool
  ce : W32
  deriving DecidableEq, Repr

/-- The latch of a mangle slot (R89), and whether a pass carries it (R91). -/
structure Latch where
  gen : Nat
  bytes : Tab Byte
  pois : Bool
  miss : Bool
  filled : Nat
  forced : Bool
  carried : Bool
  deriving DecidableEq, Repr

/-- A slot of a mangle (R83, R84, R89). -/
structure MSlot where
  bytes : Tab Byte
  pois : List Nat
  gen : Nat
  fire : Bool
  latch : Option Latch
  /-- Acknowledgement counters held until this slot fires. -/
  held : List Nat
  out : Tab Byte
  outPois : List Nat
  outGen : Nat
  outMiss : Bool
  outPoisFlag : Bool
  outForced : Bool
  outFilled : Nat
  deriving DecidableEq, Repr

/-- An access of an engine that waits for a result to switch in (R95): a unit of a copy, an access of a task's bundle, a read of
a function, a request received. -/
inductive WaitKey where
  | copy (core op unit : Nat)
  | task (n acc : Nat)
  | host (fn seq : Nat)
  | remote (n : Nat)
  deriving DecidableEq, Repr

/-- An installed mangle (R77 to R98). -/
structure Mangle where
  asid : Nat
  key : Nat
  batch : Nat
  mode : Bool
  nslots : Nat
  ofmt : Nat
  ifmt : Nat
  wfmt : Nat
  n : Nat
  m : Nat
  xcount : Nat
  owin : Nat
  iwin : Nat
  xbase : Nat
  sbase : Nat
  mbase : Nat
  home : Nat
  slots : Tab MSlot
  pass : Bool
  /-- A pass carries its latches: it waits for leave, or runs (`pass`). -/
  asked : Bool
  passes : Nat
  firings : Nat
  /-- Being uninstalled for a path (R98), and the work that ends then. -/
  removing : Option (Site × Nat)
  /-- Panels whose lanes failed in the pass: paddock cores (R99). -/
  badLanes : List Nat
  /-- Physical 64 KiB pages of the matrix and then of the scale plane; pages of the side list, as virtual base, physical base
  and log2 of the size; physical and virtual pages of the windows. -/
  dataPages : List Nat
  sidePages : List (Nat × Nat × Nat)
  winPages : List (Nat × Nat)
  /-- Engine loads that have arrived and wait: output slot, and the generation that must switch in (R95). -/
  loads : List (WaitKey × Nat × Nat)
  deriving DecidableEq, Repr

/-- A grid (R262 to R268). -/
structure Grid where
  asid : Nat
  sup : Bool
  prio : Nat
  order : Nat
  g : Nat
  cw : Nat
  ch : Nat
  nclu : Nat
  a : Nat
  v : Nat
  s : Nat
  log2p : Nat
  fmt0 : W32
  entry : PcVal
  sptab : Nat
  scratch : Nat
  aff : Nat
  compl : Nat
  args : List W32
  sched : List (BitVec 256)
  /-- Clusters waiting for admission: index, cycles waited on each die, to be restored. -/
  waiting : Tab (Nat × Nat × Bool)
  teamsLeft : Nat
  forced : Bool
  lastCore : Nat
  work : Nat
  addParked : Bool
  /-- What pre-emption saved of each team, by TEAMID. -/
  saved : Tab Team
  deriving DecidableEq, Repr

/-- A host launch queue (R266). -/
structure LaunchQ where
  base : W64
  ctl : W64
  ptr : W64
  deriving DecidableEq, Repr

/-- A write or read of the host that has arrived (R226, R295, R296): BAR2, or a register of BAR0. -/
structure HostAcc where
  bar : Nat
  off : Nat
  bytes : List Byte
  len : Nat
  /-- The bytes of a write that are still to perform, or the bytes a read has got, are `bytes`; the work of a write under
  way, or that a read awaits another device. -/
  ack : Option Nat
  /-- Place in the arrival order of the function. -/
  seq : Nat
  deriving DecidableEq, Repr

/-- A PCI Express function (R296). -/
structure HostFn where
  link : Nat
  asid : Nat
  apBase : Nat
  pf : Bool
  queues : List Nat
  writes : List HostAcc
  reads : List HostAcc
  nextSeq : Nat
  /-- Completions sent: status 0 OK with bytes, 1 Completer Abort. -/
  completions : List (Nat × List Byte)
  /-- Vectors of its MSI-X table that are unmasked (R297; log 111). -/
  unmasked : List Nat
  deriving DecidableEq, Repr

/-- The agent that a channel header names (R279). -/
structure Who where
  agent : Nat
  die : Nat
  core : Nat
  slot : Nat
  group : Nat
  id : Nat
  deriving DecidableEq, Repr

/-- A remote request (R227, R301, R302). `what` is 0 load, 1 store, 2 atomic; `device` is the owner of a request sent, the
sender of one received; the bytes of a store are listed by device offset. -/
structure Remote where
  what : Nat
  device : Nat
  offset : Nat
  key : Nat
  aop : Nat
  ty : Ty
  acc : LaneAcc
  bytes : Tab Byte
  /-- The words, by device offset / 32, that carry poison (R20). -/
  pois : List Nat
  /-- Path index and sequence number at the sender, and the port that carries it. -/
  path : Nat
  seq : Nat
  port : Nat
  /-- The agent whose access it is (R279). -/
  origin : Who
  answer : AckTo
  ofr : Bool
  grp : Nat × Nat × Nat
  /-- A request received that has performed and waits to be answered. -/
  performed : Bool
  deriving DecidableEq, Repr

/-- An answer to a request received (R301, R302). -/
structure Reply where
  device : Nat
  path : Nat
  seq : Nat
  refused : Bool
  pois : Bool
  value : Nat
  deriving DecidableEq, Repr

/-- A Dalgaop port (R300). -/
structure Port where
  up : Bool
  /-- The requests, by their number among those sent, whose flit has yet to leave, in order. -/
  queue : List Nat
  fails : Nat
  deriving DecidableEq, Repr

/-- A placement move (R28, R29). -/
structure Move where
  asid : Nat
  va : Nat
  lg : Nat
  old : Nat
  new : Nat
  key : Nat
  /-- Piece under way, pieces done, frozen, copied. -/
  piece : Nat
  map : BitVec 32
  frozen : Bool
  copied : Bool
  deriving DecidableEq, Repr

/-- A memory range that a checkpoint or a replay restores. -/
structure Checkpoint where
  mem : Memory
  mangles : Tab Mangle
  grids : Tab Grid
  order : List (Nat × Nat)
  log : Tab (List Nat)
  deriving DecidableEq, Repr

/-- Registers of the whole device (R298, R299, R304, R309, R311). -/
structure Device where
  devstat : W64
  dlid : W64
  asidtb : W64
  ckctl : W64
  /-- A checkpoint has been requested and waits for every cluster to be saved (R309). -/
  ckTaking : Bool
  diverged : Bool
  mbxCtl : W64
  mbxArg : Tab Byte
  mailbox : Option Nat
  dlpeer : Tab W64
  dlrt : Tab W64
  mr : Tab (BitVec 512)
  secver : Nat
  halt : Option W64
  /-- ASIDs whose paddock tasks the supervisor has suspended (R45). -/
  suspended : List Nat
  /-- Dumps 0 and 1 of the dump area, and those mapped into BAR2; sections of the one being written: bytes, INC, POIS. -/
  dumps : Tab (List Byte)
  dumpMaps : List Nat
  dumpSect : Tab (List Byte × Bool × Bool)
  dumpFaults : Nat
  /-- Which of the two dumps is written next. -/
  dumpNext : Nat
  dumpSeq : Nat × Nat
  /-- MSI-X messages sent: function, vector (R297). -/
  msix : List (Nat × Nat)
  checkpoints : Tab Checkpoint
  newest : Nat
  replay : Option Nat
  replayLog : Tab (List Nat)
  log : Tab (List Nat)
  /-- Admissions: twice the grid plus the die, and the cluster. -/
  admitLog : List (Nat × Nat)
  admitReplay : List (Nat × Nat)
  deriving DecidableEq, Repr

/-- What comes about next: the model's own list of turns. -/
inductive Turn where
  /-- A quarter's scheduler takes its choice (R271). -/
  | issue (core quarter : Nat)
  /-- A step that no instruction word names. -/
  | event (i : Instr)
  /-- `n` bits of a stored column word flip (R19). -/
  | softError (word n : Nat)
  /-- An uncorrectable error of a core SRAM word (R160): core, slot or block, word. -/
  | sramError (core mode a b : Nat)
  /-- A parity error in a paddock buffer slot, or an accumulator (R48). -/
  | bufferParity (task slot : Nat)
  | zParity (task z : Nat)
  /-- A parity error inside a mangle lane (R99). -/
  | laneParity (mangle pcore : Nat)
  /-- A host access arrives at a function (R226). -/
  | hostWrite (fn bar off : Nat) (bytes : List Byte)
  | hostRead (fn bar off len : Nat)
  /-- The supervisor assigns a function (R296). -/
  | hostAssign (fn link asid apBase : Nat) (pf : Bool) (queues : List Nat)
  /-- The host masks or unmasks a vector of a function's MSI-X table (R297; log 111). -/
  | hostMask (fn vector : Nat) (masked : Bool)
  /-- The supervisor lets the paddock tasks of an ASID go on that it had suspended (R45; log 103). -/
  | asidResume (asid : Nat)
  /-- The supervisor has torn an ASID down (R120; log 110). -/
  | asidGone (asid : Nat)
  /-- Firmware takes its next step of bring-up (R311). -/
  | bringUp
  /-- A second fault strikes the section of a dump: a read is uncorrectable, or the write fails (R310). -/
  | dumpFault (sect : Nat)
  /-- The next flit queued at a port has been sent (R300; log 134). -/
  | flitSent (port : Nat)
  /-- A remote request arrives from another device (R301). -/
  | remoteArrive (r : Remote)
  deriving DecidableEq, Repr, Inhabited

/-- The whole machine. -/
structure State where
  cores : Tab Core
  sectors : Tab Sector
  slices : Tab Slice
  ranges : Tab Range
  bcasts : Tab Bcast
  nextBcast : Nat
  /-- Messages of each (slice, core) channel, oldest first (R106). -/
  channels : Tab (List Msg)
  acks : Tab Ack
  nextAck : Nat
  /-- Works of the device that tokens and paths wait for, with the parts still open. -/
  works : Tab Nat
  nextWork : Nat
  mem : Memory
  keys : Tab KeyPair
  dies : Tab Die
  pcores : Tab PCore
  hbmStacks : Tab Stack
  pubs : Tab Pub
  nextPub : Nat
  tasks : Tab Task
  nextTask : Nat
  mangles : Tab Mangle
  grids : Tab Grid
  nextGrid : Nat
  queues : Tab LaunchQ
  fns : Tab HostFn
  ports : Tab Port
  /-- Requests sent and not acknowledged; requests received and not answered; answers given, oldest first; next sequence
  numbers of each (device, path). -/
  sent : Tab Remote
  nextSent : Nat
  received : Tab Remote
  nextReceived : Nat
  replies : List Reply
  sendSeq : Tab Nat
  moves : Tab Move
  nextMove : Nat
  dev : Device
  /-- The model's own: the turns to come, the next draw, the issuing path, the next free value, the order of admissions and
  issues. -/
  agenda : List Turn
  tick : Nat
  cur : Option Site
  freeCtr : Nat
  ageCtr : Nat
  deriving DecidableEq, Repr

/-- No step of this machine ends in a fault: every error the manual describes is a next state (a trap, a machine check, a
parked access, an ended task). -/
inductive Fault where
  deriving DecidableEq, Repr

/-- Why the model has no meaning for a step. -/
inductive Refusal where
  /-- Raised by no meaning: an arm of `exec` for an instruction that has none yet. Safe: the model stops. -/
  | notModelled (mnemonic : String)
  deriving DecidableEq, Repr

/-- A clause header that imposes nothing: class system, no wait. -/
def Header.plain : Header :=
  { count := 1, cls := 3, stop := false, nofold := false, ordinal := 0, wvm := 15, wsm := 15, wmx := 15, wcp := 15, wst := 15 }

/-- The spin detector of a path that has taken no branch. -/
def Spin.init : Spin := { last := none, equal := 0, changed := false, lines := [], mark := none }

/-- A path that is about to fetch a clause. -/
def Path.start (lanes : LaneSet) (pc : PcVal) (fmt : W32) : Path :=
  { lanes := lanes, pc := pc, fmt := fmt, words := [], hdrPc := pc, hdr := Header.plain, fresh := true, fetchParked := false,
    wait := .none, waitc := none, la := [], laCopies := [], pend := none, skipBp := false, spin := Spin.init, stall := none, lastIssue := 0,
    lastOrd := none, clausesSince := 0 }

/-- A group at admission (R161, R264): one path of all 32 lanes. -/
def Group.start (quarter : Nat) (pc : PcVal) (fmt : W32) (log2p : Nat) (args : List W32) (age : Nat) : Group :=
  { quarter := quarter, v := [], s := args.zipIdx.map (fun p => (p.2, p.1)), k := [], t := [], names := [], nest := 0,
    exited := 0, part := log2p, flags := 0, gstat := 0, tokens := [], paths := [(0, Path.start (BitVec.allOnes 32) pc fmt)],
    nextPath := 1, ops := [], nextOp := 0, late := [], handling := none, hold := none, pgo := none, leave := .none,
    routine := none, yielded := false, age := age, readyFor := 0,
    starvingSince := none }

/-- A quarter with nothing in it: only p0. -/
def Quarter.init : Quarter :=
  { phys := [], folds := [], events := [], eligible := [], stalls := [], reserved := [], sinceSample := 0, taken := 0 }

/-- A core after reset: every block CACHE, CACHEMIN 2 (R149). -/
def Core.init : Core :=
  { clock := 0, slots := [], epochs := [], blocks := [], cacheMin := 2, shrinkDue := false, switching := [], fifos := [], l1 := [], spilled := [], tlb := [],
    faults := [], dropped := false, copies := [], nextCopy := 0, copyWait := [], tags := [], nextTag := 0, waiters := [], matrix := none,
    quarters := [], halted := false, sramErrors := 0, uses := 0 }

/-- A sector whose data no slice holds (R102). -/
def Sector.init : Sector :=
  { st := .inv, sharers := [], coarse := 0, isCoarse := false, pin := none, scope := 0, scopeCore := 0, scopeDom := [], writer := none,
    evicting := false }

/-- A slice after reset. -/
def Slice.init : Slice := { sync := [], spread := [], routes := [], counters := [] }

/-- A die after reset: PRELIM 0x0010_0000, BUDGET 0x0500, SMPCTL.PERIOD 0x10000 (R293, R272, R307). -/
def Die.init : Die :=
  { tlb := [], walk := [], pending := [], svqBase := 0, svqCtl := 0, svqPtr := 0, seq := 0, scqCtl := 0, scqPtr := 0,
    callSeq := 0, budget := 0x500, inUse := 0, asks := [], grants := [], prelim := 0x100000, bp := [],
    smpCtl := 0x0001000000000000, smpBase := 0, smpPtr := 0, smpSeq := 0, hotBudget := none }

/-- A paddock core after reset. -/
def PCore.init : PCore :=
  { tlb := [], current := none, owed := 0, busy := [], pdce := 0, refetches := 0, halted := false }

/-- A stack after reset. -/
def Stack.init : Stack := { walk := [], faults := [], dropped := false, ce := 0 }

/-- Registers of a task with everything zero (R39). -/
def PadRegs.init : PadRegs :=
  { w := [], wPois := [], gAddr := [], gStride := [], gCount := [], c := [], z := [], zPois := [], pc := 0, ord := 0 }

/-- A launch queue after reset (R266). -/
def LaunchQ.init : LaunchQ := { base := 0, ctl := 0, ptr := 0 }

/-- A host function that nothing has been assigned to. -/
def HostFn.init : HostFn :=
  { link := 0, asid := 0, apBase := 0, pf := false, queues := [], writes := [], reads := [], nextSeq := 0, completions := [], unmasked := [] }

/-- A port before training (R300, R311). -/
def Port.init : Port := { up := false, queue := [], fails := 0 }

/-- Memory that nothing has written (R27). -/
def Memory.init : Memory := { bytes := [], keys := [], poison := [], errors := [], fixes := [] }

/-- Device registers after reset (R298, R311): CKCTL.T is 0x3E8, everything else zero. -/
def Device.init : Device :=
  { devstat := 0, dlid := 0, asidtb := 0, ckctl := 0x3E8, ckTaking := false, diverged := false, mbxCtl := 0, mbxArg := [],
    mailbox := none, dlpeer := [], dlrt := [], mr := [], secver := 0, halt := none, suspended := [], dumps := [], dumpMaps := [], dumpSect := [],
    dumpFaults := 0, dumpNext := 0, dumpSeq := (0, 0), msix := [], checkpoints := [], newest := 0, replay := none, replayLog := [],
    log := [], admitLog := [], admitReplay := [] }

/-- The machine right after reset: nothing resident, nothing written, every register at its reset value. Values that the
manual does not state are those of log 10. -/
def State.reset : State :=
  { cores := [], sectors := [], slices := [], ranges := [], bcasts := [], nextBcast := 0, channels := [], acks := [],
    nextAck := 0, works := [], nextWork := 1, mem := Memory.init, keys := [], dies := [], pcores := [], hbmStacks := [],
    pubs := [], nextPub := 0, tasks := [], nextTask := 0, mangles := [], grids := [], nextGrid := 0, queues := [], fns := [], ports := [], sent := [],
    nextSent := 0, received := [], nextReceived := 0, replies := [], sendSeq := [], moves := [], nextMove := 0,
    dev := Device.init, agenda := [], tick := 0, cur := none, freeCtr := 0, ageCtr := 0 }

end Sys2Proof.Machine
end

