-- ==== Sys2Proof/Machine/Access.lean ====
section
/-! DEFINITION. Reading and updating the parts of the state: cores, teams, groups, paths, dies, works and acknowledgement
counters. -/

namespace Sys2Proof.Machine

/-- A core; one that nothing has touched is as after reset. -/
def State.core (s : State) (c : Nat) : Core := s.cores.getD c Core.init
/-- Replace a core. -/
def State.setCore (s : State) (c : Nat) (k : Core) : State := { s with cores := s.cores.set c k }
/-- Change a core. -/
def State.onCore (s : State) (c : Nat) (f : Core → Core) : State := s.setCore c (f (s.core c))
/-- A die. -/
def State.die (s : State) (d : Nat) : Die := s.dies.getD d Die.init
/-- Change a die. -/
def State.onDie (s : State) (d : Nat) (f : Die → Die) : State := { s with dies := s.dies.set d (f (s.die d)) }
/-- A sector at its home slice. -/
def State.sector (s : State) (n : Nat) : Sector := s.sectors.getD n Sector.init
/-- Change a sector. -/
def State.onSector (s : State) (n : Nat) (f : Sector → Sector) : State :=
  { s with sectors := s.sectors.set n (f (s.sector n)) }
/-- A slice. -/
def State.slice (s : State) (k : Nat) : Slice := s.slices.getD k Slice.init
/-- Change a slice. -/
def State.onSlice (s : State) (k : Nat) (f : Slice → Slice) : State := { s with slices := s.slices.set k (f (s.slice k)) }
/-- A paddock core. -/
def State.pcore (s : State) (p : Nat) : PCore := s.pcores.getD p PCore.init
/-- Change a paddock core. -/
def State.onPCore (s : State) (p : Nat) (f : PCore → PCore) : State :=
  { s with pcores := s.pcores.set p (f (s.pcore p)) }
/-- A stack. -/
def State.stack (s : State) (k : Nat) : Stack := s.hbmStacks.getD k Stack.init
/-- Change a stack. -/
def State.onStack (s : State) (k : Nat) (f : Stack → Stack) : State := { s with hbmStacks := s.hbmStacks.set k (f (s.stack k)) }
/-- Change the device registers. -/
def State.onDev (s : State) (f : Device → Device) : State := { s with dev := f s.dev }
/-- A port. -/
def State.port (s : State) (p : Nat) : Port := s.ports.getD p Port.init
/-- Change a port. -/
def State.onPort (s : State) (p : Nat) (f : Port → Port) : State := { s with ports := s.ports.set p (f (s.port p)) }
/-- A host function. -/
def State.fn (s : State) (n : Nat) : HostFn := s.fns.getD n HostFn.init
/-- Change a host function. -/
def State.onFn (s : State) (n : Nat) (f : HostFn → HostFn) : State := { s with fns := s.fns.set n (f (s.fn n)) }
/-- A launch queue. -/
def State.queue (s : State) (q : Nat) : LaunchQ := s.queues.getD q LaunchQ.init
/-- Change a launch queue. -/
def State.onQueue (s : State) (q : Nat) (f : LaunchQ → LaunchQ) : State :=
  { s with queues := s.queues.set q (f (s.queue q)) }

/-- The team in a slot. -/
def State.team? (s : State) (c slot : Nat) : Option Team := (s.core c).slots.find? slot
/-- Replace a team. -/
def State.setTeam (s : State) (c slot : Nat) (t : Team) : State := s.onCore c (fun k => { k with slots := k.slots.set slot t })
/-- Change a team, if the slot holds one. -/
def State.onTeam (s : State) (c slot : Nat) (f : Team → Team) : State :=
  match s.team? c slot with
  | some t => s.setTeam c slot (f t)
  | none => s
/-- A group. -/
def State.group? (s : State) (c slot g : Nat) : Option Group := (s.team? c slot).bind (fun t => t.groups.find? g)
/-- Replace a group. -/
def State.setGroup (s : State) (c slot g : Nat) (x : Group) : State :=
  s.onTeam c slot (fun t => { t with groups := t.groups.set g x })
/-- Change a group, if it exists. -/
def State.onGroup (s : State) (c slot g : Nat) (f : Group → Group) : State :=
  match s.group? c slot g with
  | some x => s.setGroup c slot g (f x)
  | none => s
/-- Change a path, if it exists. -/
def State.onPath (s : State) (a : Site) (f : Path → Path) : State :=
  s.onGroup a.core a.slot a.group (fun g =>
    match g.paths.find? a.path with
    | some p => { g with paths := g.paths.set a.path (f p) }
    | none => g)
/-- Change an operation of a group, if it exists. -/
def State.onOp (s : State) (c slot g op : Nat) (f : Op → Op) : State :=
  s.onGroup c slot g (fun x =>
    match x.ops.find? op with
    | some o => { x with ops := x.ops.set op (f o) }
    | none => x)
/-- A grid. -/
def State.grid? (s : State) (n : Nat) : Option Grid := s.grids.find? n
/-- Change a grid. -/
def State.onGrid (s : State) (n : Nat) (f : Grid → Grid) : State :=
  match s.grids.find? n with
  | some g => { s with grids := s.grids.set n (f g) }
  | none => s
/-- Change a paddock task. -/
def State.onTask (s : State) (n : Nat) (f : Task → Task) : State :=
  match s.tasks.find? n with
  | some t => { s with tasks := s.tasks.set n (f t) }
  | none => s
/-- Change a mangle. -/
def State.onMangle (s : State) (h : Nat) (f : Mangle → Mangle) : State :=
  match s.mangles.find? h with
  | some m => { s with mangles := s.mangles.set h (f m) }
  | none => s
/-- Change a copy operation. -/
def State.onCopy (s : State) (c op : Nat) (f : CopyOp → CopyOp) : State :=
  s.onCore c (fun k =>
    match k.copies.find? op with
    | some o => { k with copies := k.copies.set op (f o) }
    | none => k)
/-- A quarter of a core. -/
def Core.quarter (k : Core) (q : Nat) : Quarter := k.quarters.getD q Quarter.init
/-- Change a quarter. -/
def State.onQuarter (s : State) (c q : Nat) (f : Quarter → Quarter) : State :=
  s.onCore c (fun k => { k with quarters := k.quarters.set q (f (k.quarter q)) })
/-- The mode of a block. -/
def Core.block (k : Core) (b : Nat) : BlockMode := k.blocks.getD b .cache
/-- The epoch of a slot (R122). -/
def Core.epoch (k : Core) (slot : Nat) : BitVec 16 := k.epochs.getD slot 0

/-- The die of a core (R100). -/
def dieOf (core : Nat) : Nat := core / 96
/-- The die of a stack (R14). -/
def dieOfStack (k : Nat) : Nat := k / 4
/-- The die of a port (R300). -/
def dieOfPort (p : Nat) : Nat := p / 6

/-- A fresh free value. -/
def State.freeVal (s : State) : W64 × State := (Config.fresh s.freeCtr, { s with freeCtr := s.freeCtr + 1 })

/-- n free bytes. -/
def State.freeBytes (s : State) (n : Nat) : List Byte × State :=
  ((List.range n).map (fun i => (Config.fresh (s.freeCtr + i)).setWidth 8), { s with freeCtr := s.freeCtr + n })

/-- A work with `n` parts open. A work that is not listed is finished. -/
def State.newWork (s : State) (n : Nat) : Nat × State :=
  (s.nextWork, { s with works := if n = 0 then s.works else s.works.set s.nextWork n, nextWork := s.nextWork + 1 })
/-- One more part of a work. -/
def State.addWork (s : State) (w : Nat) : State := { s with works := s.works.set w (s.works.getD w 0 + 1) }
/-- One part of a work is finished. -/
def State.endWork (s : State) (w : Nat) : State :=
  match s.works.find? w with
  | none => s
  | some n => { s with works := if n ≤ 1 then s.works.erase w else s.works.set w (n - 1) }
/-- The work is finished. -/
def State.workDone (s : State) (w : Nat) : Bool := (s.works.find? w).isNone

/-- A new acknowledgement counter. -/
def State.newAck (s : State) (n : Nat) (dest : AckTo) : Nat × State :=
  (s.nextAck, { s with acks := s.acks.set s.nextAck { left := n, dest := dest, held := false }, nextAck := s.nextAck + 1 })
/-- One message counted at a counter. -/
def State.countAck (s : State) (a : Option Nat) : State :=
  match a with
  | none => s
  | some n =>
    match s.acks.find? n with
    | some k => { s with acks := s.acks.set n { k with left := k.left - 1 } }
    | none => s

/-- A message enters a channel (R106). -/
def State.send (s : State) (slice core : Nat) (m : Msg) : State :=
  let key := slice * 192 + core
  { s with channels := s.channels.set key (s.channels.getD key [] ++ [m]) }

/-- Lane i of a V register value. -/
def laneOf (x : VReg) (i : Nat) : W32 := x.extractLsb' (32 * i) 32
/-- A V register value from its lanes. -/
def packLanes (f : Nat → W32) : VReg :=
  BitVec.ofNat 1024 ((List.range 32).foldr (fun i acc => (f i).toNat + 2 ^ 32 * acc) 0)
/-- The lanes of `m` from `new`, the others from `old` (R167). -/
def mergeLanes (m : LaneSet) (new old : VReg) : VReg :=
  packLanes (fun i => if m.getLsbD i then laneOf new i else laneOf old i)
/-- NEST of a lane (R248, R277). -/
def nestOf (n : BitVec 128) (i : Nat) : BitVec 4 := n.extractLsb' (4 * i) 4
/-- NEST of every lane from a function. -/
def packNest (f : Nat → BitVec 4) : BitVec 128 :=
  BitVec.ofNat 128 ((List.range 32).foldr (fun i acc => (f i).toNat + 16 * acc) 0)
/-- The active lanes of a set: NEST is 0 (R244). -/
def activeOf (lanes : LaneSet) (nest : BitVec 128) : LaneSet :=
  laneSetOf (fun i => lanes.getLsbD i && decide (nestOf nest i = 0))

/-- The value of V register n. -/
def Group.vreg (g : Group) (n : Nat) : VReg := g.v.getD n 0
/-- The value of S register n. -/
def Group.sreg (g : Group) (n : Nat) : W32 := g.s.getD n 0
/-- The 64-bit value of an S pair, the low half in the even register (R4). -/
def Group.spair (g : Group) (n : Nat) : W64 := (g.sreg (n + 1)) ++ (g.sreg n)
/-- Write S register n. -/
def Group.setS (g : Group) (n : Nat) (x : W32) : Group := { g with s := g.s.set n x }
/-- Write an S pair. -/
def Group.setPair (g : Group) (n : Nat) (x : W64) : Group :=
  (g.setS n (x.extractLsb' 0 32)).setS (n + 1) (x.extractLsb' 32 32)
/-- Rejoin register n; one that nothing has written is zero (R161). -/
def Group.kreg (g : Group) (n : Nat) : KReg := g.k.getD n { fmt := 0, pc := 0, mask := 0 }
/-- Tile descriptor n. -/
def Group.treg (g : Group) (n : Nat) : BitVec 128 := g.t.getD n 0
/-- Token n. -/
def Group.token (g : Group) (n : Nat) : Token := g.tokens.getD n .free
/-- Fill a token (R386). -/
def Group.fill (g : Group) (n : Nat) (ops : List Cover) (works : List Nat) : Group := { g with tokens := g.tokens.set n (.filled ops works) }

/-- The detector of a path whose mark has cleared (R260): it starts again; the lines that the path's loads have touched stay (R354). -/
def Spin.cleared (d : Spin) : Spin := { Spin.init with lines := d.lines }

end Sys2Proof.Machine
end

