-- ==== Sys2Proof/Machine/Memory.lean ====
section
/-! DEFINITION. The physical address space (R12 to R15, R100), the stored bytes with their keys, poison and soft errors
(R19 to R27), page walks (R283, R284), and the records that the device reports (R23, R279). -/

namespace Sys2Proof.Machine

/-- The regions of R12. -/
inductive Region where
  | hbm | tier | remote | regs | hole
  deriving DecidableEq, Repr

/-- The region of a physical address (R12, R13). -/
def region (pa : Nat) : Region :=
  if pa < Config.hbmBytes then .hbm
  else if Config.tierBase ≤ pa ∧ pa < Config.tierEnd ∧ pa < Config.tierBase + Config.cxlBytes then .tier
  else if Config.remoteBase ≤ pa ∧ pa < Config.remoteEnd then
    if pa % 2 ^ 40 < 0x8000000000 then .remote else .hole
  else if Config.devBase ≤ pa ∧ pa < Config.paEnd then .regs
  else .hole

/-- Stack of a local HBM address (R14). -/
def stackOf (pa : Nat) : Nat := bits pa 38 36
/-- Pseudo-channel within the stack (R14). -/
def pchOf (pa : Nat) : Nat := bits pa 13 8 ^^^ bits pa 19 14
/-- The paddock core on the pseudo-channel of an address (R14). -/
def paddockOf (pa : Nat) : Nat := stackOf pa * 64 + pchOf pa

/-- Home slice of a cacheable line (R100). -/
def homeOf (pa : Nat) : Nat :=
  let x := bits pa 15 8 ^^^ bits pa 23 16 ^^^ bits pa 31 24 ^^^ bits pa 39 32
  if pa < Config.hbmBytes then
    let k := stackOf pa
    k / 4 * 96 + k % 4 * 24 + x % 24
  else (bits pa 12 12 ^^^ bits pa 20 20) * 96 + x % 96

/-- The mangle, if any, whose window holds a physical address, with the virtual address of the byte (R82). -/
def windowAt (s : State) (pa : Nat) : Option (Nat × Nat) :=
  s.mangles.foldr (fun m acc =>
    match m.2.winPages.find? (fun p => p.1 = pa / 65536) with
    | some p => some (m.1, p.2 * 65536 + pa % 65536)
    | none => acc) none

/-- The slice that serialises an address (R100, R101). -/
def State.home (s : State) (pa : Nat) : Nat :=
  match windowAt s pa with
  | some (h, _) => match s.mangles.find? h with
    | some m => m.home
    | none => homeOf pa
  | none => homeOf pa

/-- The CXL port of a tier address (R17): ports of the set ascending, interleaved at 4 KiB. -/
def cxlPort (pa : Nat) : Nat :=
  let ports := (List.range 4).filter (fun p => Config.cxlSet.getLsbD p)
  let g := (pa - Config.tierBase) / 4096
  ports.getD (g % ports.length) 0

/-- The whole stored word, unwritten bytes as zero: what a read under another key depends on. -/
def Memory.word (m : Memory) (w : Nat) : W256 :=
  BitVec.ofNat 256 ((List.range 32).foldr (fun i acc => ((m.bytes.find? (32 * w + i)).getD 0).toNat + 256 * acc) 0)

/-- A byte read under a key pair (R27): the stored byte under its own key, unrelated bytes otherwise. -/
def Memory.byteAt (m : Memory) (key : KeyPair) (pa : Nat) : Byte :=
  match m.bytes.find? pa with
  | none => Config.unwrittenByte key pa
  | some b =>
    match m.keys.find? (pa / 32) with
    | some k => if k = key then b else Config.garbledByte k key pa (m.word (pa / 32))
    | none => b

/-- Bytes from an address upward. -/
def Memory.read (m : Memory) (key : KeyPair) (pa n : Nat) : List Byte := (List.range n).map (fun i => m.byteAt key (pa + i))

/-- Write bytes under a key pair. A word that was stored under another key is first read back under this one, as a
read-modify-write of the word does (R22, R27). -/
def Memory.write (m : Memory) (key : KeyPair) (bs : Tab Byte) : Memory :=
  let words := dedup (bs.map (fun p => p.1 / 32))
  let m1 := words.foldl (fun m w =>
    match m.keys.find? w with
    | some k =>
      if k = key then m
      else
        let listed := (List.range 32).filter (fun i => (m.bytes.find? (32 * w + i)).isSome)
        let vals := listed.map (fun i => (32 * w + i, m.byteAt key (32 * w + i)))
        { m with bytes := vals.foldl (fun t p => t.set p.1 p.2) m.bytes, keys := m.keys.set w key }
    | none => { m with keys := m.keys.set w key }) m
  { m1 with bytes := bs.foldl (fun t p => t.set p.1 p.2) m1.bytes }

/-- The canonical form: addresses strictly rising (an unlisted byte has never been written, so every written byte is
listed), in each of the tables. -/
def Memory.wf (m : Memory) : Bool := m.bytes.rising && m.keys.rising && m.errors.rising

/-- Words of a range of bytes. -/
def wordsOf (pa n : Nat) : List Nat := (List.range ((pa % 32 + n + 31) / 32)).map (fun i => pa / 32 + i)

/-- A word that cannot be read: poisoned, or damaged beyond correction where no slice holds its sector (R19, R21). -/
def State.badWord (s : State) (w : Nat) : Bool :=
  s.mem.poison.contains w ||
    (decide ((s.sector (w / 2)).st = .inv) && decide (2 ≤ s.mem.errors.getD w 0) && !s.mem.fixes.contains w)

/-- The lowest of some numbers. -/
def lowest (l : List Nat) : Option Nat := l.foldl (fun acc w => match acc with | some a => some (min a w) | none => some w) none

/-- The lowest poisoned word of some, as the address that a record names (R23); the fallback where none is. -/
def poisonAt (bad : Nat → Bool) (words : List Nat) (fallback : Nat) : Nat :=
  match lowest (words.filter bad) with
  | some w => 32 * w
  | none => fallback

/-- The lines of the address lie behind the slices of this device. -/
def stored (pa : Nat) : Bool := region pa = .hbm || region pa = .tier

/-- A read of an ASID-table or page-table entry: the bytes, or, where it meets a hole, an empty key slot or poison, the KIND and
the address of the record (R284). A table in the register space is a protection fault and no record (R298), for which 1 stands. -/
def rawRead (s : State) (slot pa n : Nat) : Except (Nat × Nat) (List Byte) :=
  if region pa = .regs then .error (1, pa)
  else if !stored pa then .error (6, pa)
  else
    match s.keys.find? slot with
    | none => .error (5, pa)
    | some k =>
      if (wordsOf pa n).any s.badWord then .error (3, poisonAt s.badWord (wordsOf pa n) pa) else .ok (s.mem.read k pa n)

/-- Key slot under which walkers read (R25). -/
def State.tkey (s : State) : Nat := bits s.dev.asidtb.toNat 8 0

/-- An ASID-table entry (R283). -/
structure AsidEntry where
  dkey : Nat
  sup : Bool
  noplace : Bool
  root : Nat
  deriving DecidableEq, Repr

/-- A failed walk: the fault KIND of R286, and the record (KIND, address) that R284 has logged. -/
structure WalkFail where
  kind : Nat
  log : Option (Nat × Nat)
  deriving DecidableEq, Repr

/-- What a table read that fails makes of its walk (R284, R298). -/
def readFail (e : Nat × Nat) : WalkFail := if e.1 = 1 then { kind := 1, log := none } else { kind := 2, log := some e }

/-- The live entry of an ASID (R283). -/
def asidEntry (s : State) (asid : Nat) : Except WalkFail AsidEntry :=
  let pa := bits s.dev.asidtb.toNat 51 20 * 2 ^ 20 + 16 * asid
  match rawRead s s.tkey pa 16 with
  | .error e => .error (readFail e)
  | .ok bs =>
    let x := leNat bs
    if bit x 64 && bits x 127 80 = 0 && bits x 68 65 = 0 && bits x 63 52 = 0 && bits x 11 0 = 0 then
      .ok { dkey := bits x 79 71, sup := bit x 70, noplace := bit x 69, root := bits x 51 12 * 4096 }
    else .error { kind := 2, log := none }

/-- The index of a VA at a level (R284). -/
def vaIndex (va level : Nat) : Nat := va / 2 ^ (12 + 9 * level) % 512

/-- Page size of a leaf at a level. -/
def leafLog (level : Nat) (sz64 : Bool) : Nat := if level = 0 && sz64 then 16 else 12 + 9 * level

/-- A leaf as a translation. -/
def leafEntry (asid va dkey level x : Nat) : TlbEntry :=
  let lg := leafLog level (bit x 11)
  { asid := asid, lg := lg, vpn := va / 2 ^ lg, pa := bits x 51 12 * 4096 / 2 ^ lg * 2 ^ lg,
    key := if bit x 54 then bits x 63 55 else dkey, nomove := bit x 53, mng := bit x 52, uc := bit x 10, x := bit x 5,
    w := bit x 4, rd := bit x 3, u := bit x 2 }

/-- The first entry of the 64 KiB group of an entry, as an address. -/
def groupBase (table idx : Nat) : Nat := table + 8 * (idx / 16 * 16)

/-- The 16 entries of a 64 KiB group agree: same attributes, consecutive addresses, from an aligned base (R284). -/
def groupAgrees (s : State) (table idx : Nat) : Except (Nat × Nat) Bool :=
  match rawRead s s.tkey (groupBase table idx) 128 with
  | .error e => .error e
  | .ok bs =>
    let es := (List.range 16).map (fun i => leNat ((bs.drop (8 * i)).take 8))
    let e0 := es.headD 0
    .ok (bits e0 51 12 % 16 = 0 && (es.zipIdx).all (fun p => decide (p.1 = e0 + p.2 * 4096)))

/-- Walk from a table at a level downward, `fuel` levels at most. Answers the leaf and the non-leaf entries met. -/
def walkFrom (s : State) (asid va dkey : Nat) : Nat → Nat → Nat → List WalkEntry → Except WalkFail (TlbEntry × List WalkEntry)
  | 0, _, _, _ => .error { kind := 2, log := none }
  | fuel + 1, level, table, seen =>
    let at_ := table + 8 * vaIndex va level
    match rawRead s s.tkey at_ 8 with
    | .error e => .error (readFail e)
    | .ok bs =>
      let x := leNat bs
      if !bit x 0 then .error { kind := 0, log := none }
      else if bits x 9 8 ≠ 0 || bit x 6 || bit x 1 || (bit x 11 && decide (level ≠ 0)) then
        .error { kind := 2, log := none }
      else if bit x 7 then
        if 3 ≤ level then .error { kind := 2, log := none }
        else if bit x 11 then
          match groupAgrees s table (vaIndex va 0) with
          | .error e => .error (readFail e)
          | .ok true => .ok (leafEntry asid va dkey level x, seen)
          | .ok false => .error { kind := 2, log := none }
        else if bits x 51 12 * 4096 % 2 ^ (12 + 9 * level) ≠ 0 then .error { kind := 2, log := none }
        else .ok (leafEntry asid va dkey level x, seen)
      else if level = 0 then .error { kind := 2, log := none }
      else
        let next := bits x 51 12 * 4096
        walkFrom s asid va dkey fuel (level - 1) next
          ({ asid := asid, level := level, prefixBits := va / 2 ^ (12 + 9 * level), table := next } :: seen)

/-- The deepest cached non-leaf entry on the walk of a VA (R284). -/
def walkCached (cache : List WalkEntry) (asid va : Nat) : Option WalkEntry :=
  let hit (level : Nat) : Option WalkEntry :=
    cache.find? (fun e => e.asid = asid && e.level = level && e.prefixBits = va / 2 ^ (12 + 9 * level))
  (hit 1).or ((hit 2).or ((hit 3).or (hit 4)))

/-- A walk (R283, R284) with the help of a walk cache. -/
def walk (s : State) (cache : List WalkEntry) (asid va : Nat) : Except WalkFail (TlbEntry × List WalkEntry) :=
  match asidEntry s asid with
  | .error e => .error e
  | .ok a =>
    match walkCached cache asid va with
    | some e => walkFrom s asid va a.dkey 5 (e.level - 1) e.table []
    | none => walkFrom s asid va a.dkey 5 4 a.root []

/-- The sectors that a walk from a table reads: one for each entry, and the group's where an entry claims 64 KiB. -/
def readsFrom (s : State) (va : Nat) : Nat → Nat → Nat → List Nat
  | 0, _, _ => []
  | fuel + 1, level, table =>
    let at_ := table + 8 * vaIndex va level
    at_ / 64 :: match rawRead s s.tkey at_ 8 with
      | .error _ => []
      | .ok bs =>
        let x := leNat bs
        if !bit x 0 then []
        else if bit x 7 then
          if level = 0 && bit x 11 then [groupBase table (vaIndex va 0) / 64, groupBase table (vaIndex va 0) / 64 + 1] else []
        else if level = 0 then []
        else readsFrom s va fuel (level - 1) (bits x 51 12 * 4096)

/-- The sectors that a walk reads, those of no line apart (R283, R284). -/
def walkReads (s : State) (cache : List WalkEntry) (asid va : Nat) : List Nat :=
  let first := (bits s.dev.asidtb.toNat 51 20 * 2 ^ 20 + 16 * asid) / 64
  let rest := match asidEntry s asid with
    | .error _ => []
    | .ok a =>
      match walkCached cache asid va with
      | some e => readsFrom s va 5 (e.level - 1) e.table
      | none => readsFrom s va 5 4 a.root
  (dedup (first :: rest)).filter (fun q => stored (64 * q))

/-- What an access does, for its permission (R284). -/
inductive Acc where
  | load | store | atomic | fetch
  deriving DecidableEq, Repr

/-- The page gives the permission, at the level of the access (R284). -/
def TlbEntry.permits (e : TlbEntry) (a : Acc) (sup : Bool) : Bool :=
  (sup || e.u) &&
    match a with
    | .load => e.rd
    | .store => e.w
    | .atomic => e.rd && e.w
    | .fetch => e.x

/-- Bytes of the unit that one freeze and one copy cover (R28). -/
def Move.unit (m : Move) : Nat := if m.lg = 21 then 65536 else 2 ^ m.lg
/-- Physical address of the unit at its old place. -/
def Move.from_ (m : Move) : Nat := m.old + (if m.lg = 21 then 65536 * m.piece else 0)
/-- Physical address of the unit at its new place. -/
def Move.to_ (m : Move) : Nat := m.new + (if m.lg = 21 then 65536 * m.piece else 0)

/-- A 2 MiB page is being moved: its translations are served by the L2 TLBs alone (R29). -/
def movingPage (s : State) (asid va : Nat) : Bool :=
  s.moves.any (fun m => m.2.asid = asid && m.2.lg = 21 && decide (m.2.va / 2 ^ 21 = va / 2 ^ 21))

/-- Where the new place holds a copy of a byte of a frozen unit, that place (R29): a record that the device writes there then
stands at both. -/
def mirrorOf (s : State) (pa : Nat) : Option Nat :=
  s.moves.foldr (fun m acc =>
    if m.2.frozen && m.2.copied && decide (m.2.from_ ≤ pa) && decide (pa < m.2.from_ + m.2.unit)
    then some (m.2.to_ + (pa - m.2.from_)) else acc) none

/-- The piece map of a 2 MiB move under way applies to the page (R29). -/
def movedBase (s : State) (e : TlbEntry) (va : Nat) : Nat :=
  s.moves.foldr (fun m acc =>
    if m.2.asid = e.asid && m.2.lg = 21 && decide (e.lg = 21) && decide (m.2.va / 2 ^ 21 = e.vpn) then
      let j := va % 2 ^ 21 / 65536
      if m.2.map.getLsbD j then m.2.new else m.2.old
    else acc) e.pa

/-- The physical address of a VA under an entry. -/
def TlbEntry.at (e : TlbEntry) (s : State) (va : Nat) : Nat := movedBase s e va + va % 2 ^ e.lg

/-- The page that holds a byte is a matrix, scale or side-list page of an installed mangle (R97). -/
def matrixPage (s : State) (pa : Nat) : Bool :=
  s.mangles.any (fun m => m.2.dataPages.contains (pa / 65536) || m.2.sidePages.any (fun p => decide (p.2.1 / 2 ^ p.2.2 = pa / 2 ^ p.2.2)))

/-- Bytes of one element of the input (R82). -/
def Mangle.isz (m : Mangle) : Nat := if m.ifmt = 4 then 1 else 2
/-- Bytes of one element of the output (R82). -/
def Mangle.osz (m : Mangle) : Nat := if m.ofmt = 0 then 4 else 2
/-- Input slot stride (R82). -/
def Mangle.istride (m : Mangle) : Nat := 256 + roundUp (m.n * m.isz) 256
/-- Output slot stride (R82). -/
def Mangle.ostride (m : Mangle) : Nat := 256 + roundUp (m.m * m.osz) 256
/-- A virtual address lies in the output window, which spans whole pages (R82). -/
def Mangle.inOut (m : Mangle) (va : Nat) : Bool :=
  decide (m.owin ≤ va) && decide (va < m.owin + roundUp (m.nslots * m.ostride) 65536)

/-- The mangle checks of R85 and R97: true where the access is a MANGLE fault. -/
def mangleFault (s : State) (asid pa : Nat) (mng : Bool) (a : Acc) : Bool :=
  match windowAt s pa with
  | some (h, va) =>
    match s.mangles.find? h with
    | some m => decide (m.asid ≠ asid) || decide (a = .atomic) || decide (a = .fetch) || (decide (a = .store) && m.inOut va)
    | none => true
  | none => mng || (matrixPage s pa && (decide (a = .store) || decide (a = .atomic)))

/-- The paddock cores' save slots: the top 2 MiB of each stack, which no other agent may reach (R45). -/
def saveArea (pa : Nat) : Bool := decide (pa < Config.hbmBytes) && decide (2 ^ 36 - 2 ^ 21 ≤ pa % 2 ^ 36)

/-- The outcome of translating one address: the translation, or the fault KIND of R286. -/
inductive TransOut where
  | ok (x : Xlat)
  | fault (kind : Nat)
  deriving DecidableEq, Repr

/-- Apply an entry to an access: permission, then R97. Pages of the register space admit a group's loads and stores, and
those of the host, alone (R298): `device` says the agent is one of these. -/
def applyEntry (s : State) (e : TlbEntry) (va : Nat) (a : Acc) (sup device : Bool) : TransOut :=
  let pa := e.at s va
  if !e.permits a sup || saveArea pa then .fault 1
  else if region pa = .regs then
    if device && sup && (a = .load || a = .store) then .ok { pa := pa, key := e.key, uc := true, mng := false } else .fault 1
  else if mangleFault s e.asid pa e.mng a then .fault 3
  else .ok { pa := pa, key := e.key, uc := e.uc, mng := e.mng }

/-- Translate at once, by a walk that caches nothing. -/
def translate (s : State) (asid va : Nat) (a : Acc) (sup device : Bool) : TransOut :=
  match walk s [] asid va with
  | .error f => .fault f.kind
  | .ok (e, _) => applyEntry s e va a sup device

/-- A translation that gives an address. -/
def TransOut.good : TransOut → Bool
  | .ok _ => true
  | .fault _ => false

/-- A 64-bit record of R23. -/
def r23 (kind pa : Nat) : Nat :=
  let cwa := pa / 32
  let src := match region pa with | .hbm => stackOf pa | .tier => 8 + cxlPort pa | _ => 0
  let pch := match region pa with | .hbm => pchOf pa | _ => 0
  2 ^ 63 + kind * 2 ^ 60 + (if kind = 6 then 0 else src) * 2 ^ 56 + (if kind = 6 then 0 else pch) * 2 ^ 50 + cwa % 2 ^ 47

/-- The agent of a group's lanes. -/
def whoLane (a : Site) : Who := { agent := 0, die := dieOf a.core, core := a.core, slot := a.slot, group := a.group, id := 0 }

/-- Doubleword 0 of a record (R279). -/
def svHeader (seq type : Nat) (w : Who) : Nat :=
  seq % 65536 * 2 ^ 48 + type * 2 ^ 40 + w.agent * 2 ^ 28 + w.core % 256 * 2 ^ 20 + w.slot % 64 * 2 ^ 14 + w.group % 32 * 2 ^ 9
    + w.id % 512

/-- Ring slots of a channel: 2^(LOG2N + 4). -/
def ringSize (ctl : Nat) : Nat := 2 ^ (bits ctl 4 1 + 4)

/-- The physical address that a virtual address maps to, whatever its permissions. -/
def vaToPa (s : State) (asid va : Nat) : Option Nat :=
  match walk s [] asid va with
  | .ok (e, _) => some (e.at s va)
  | .error _ => none

/-- The sector is one of those that a range of virtual addresses maps to, by its page tables. -/
def coversSec (s : State) (asid base size sec : Nat) : Bool :=
  (List.range (ceilDiv (base % 4096 + size) 4096)).any (fun i =>
    let va := base / 4096 * 4096 + 4096 * i + 64 * sec % 4096
    decide (base < va + 64) && decide (va < base + size) && decide ((vaToPa s asid va).map (fun pa => pa / 64) = some sec))

/-- A page that holds the sector is mapped by a range of virtual addresses. -/
def coversPage (s : State) (asid base size sec : Nat) : Bool :=
  (List.range (ceilDiv (base % 4096 + size) 4096)).any (fun i =>
    decide ((vaToPa s asid (base / 4096 * 4096 + 4096 * i)).map (fun pa => pa / 4096) = some (sec / 64)))

end Sys2Proof.Machine
end

