-- ==== Sys2Proof/Machine/Slice.lean ====
section
/-! DEFINITION. What a slice keeps of a sector and what a core holds of it (R102 to R127, R150): sharers, updates and pushes,
routes, L1 lines, drops, unpins, and the synchronisation-variable table. -/

namespace Sys2Proof.Machine

/-- The cores that an update of a sector reaches (R103). -/
def Sector.reach (x : Sector) : List Nat :=
  if x.isCoarse then (List.range 192).filter (fun c => x.coarse.getLsbD (c / 8)) else x.sharers

/-- A core joins the sharers: exact up to eight cores, then a coarse vector (R103). -/
def Sector.join (x : Sector) (c : Nat) : Sector :=
  if x.isCoarse then { x with coarse := x.coarse ||| BitVec.ofNat 24 (2 ^ (c / 8)) }
  else if x.sharers.contains c then x
  else if x.sharers.length < 8 then { x with sharers := x.sharers ++ [c] }
  else
    let v := (c :: x.sharers).foldl (fun v k => v ||| BitVec.ofNat 24 (2 ^ (k / 8))) (0 : BitVec 24)
    { x with isCoarse := true, coarse := v, sharers := [] }

/-- A core leaves an exact list (R104). -/
def Sector.leave (x : Sector) (c : Nat) : Sector := { x with sharers := x.sharers.filter (fun k => k ≠ c) }

/-- The 64 bytes of a sector at its serialisation point, with its two poison bits. -/
def State.sectorData (s : State) (key : KeyPair) (sec : Nat) : BitVec 512 × Nat :=
  (BitVec.ofNat 512 (leNat (s.mem.read key (64 * sec) 64)),
   b2n (s.mem.poison.contains (2 * sec)) + 2 * b2n (s.mem.poison.contains (2 * sec + 1)))

/-- Byte i of sector data. -/
def secByte (d : BitVec 512) (i : Nat) : Byte := d.extractLsb' (8 * i) 8

/-- Sector data with some bytes replaced: keys are byte numbers of the sector. -/
def secPatch (d : BitVec 512) (bs : Tab Byte) : BitVec 512 :=
  BitVec.ofNat 512 ((List.range 64).foldr (fun i acc => (bs.getD i (secByte d i)).toNat + 256 * acc) 0)

/-- Bytes by their place in a sector. -/
def relBytes (bs : Tab Byte) : Tab Byte := bs.map (fun (b : Nat × Byte) => (b.1 % 64, b.2))

/-- Bytes written into an L1 sector, with the words that the store has poisoned: a poisoned word that is written whole loses
its poison (R22). -/
def L1Sec.patch (d : L1Sec) (bs : Tab Byte) (pois : Nat) : L1Sec :=
  let kept (i : Nat) : Bool := bit d.pois i && decide ((bs.filter (fun (b : Nat × Byte) => b.1 / 32 = i)).length < 32)
  { d with data := secPatch d.data bs, pois := b2n (kept 0 || bit pois 0) + 2 * b2n (kept 1 || bit pois 1) }

/-- State, base and size of a range as a slice has applied it (R120). -/
def Range.at (r : Range) (slice : Nat) : Nat × Nat × Nat := (r.bySlice.find? slice).getD (r.state, r.base, r.size)

/-- The keys (ASID × 64 + id) of the ranges that are in a state at a slice and cover a sector, through whatever mapping (R121). -/
def rangesOver (s : State) (slice st sec : Nat) : List Nat :=
  ((s.ranges.map (fun p => (p.1, p.2.at slice))).filter (fun p =>
    p.2.1 = st && coversSec s (p.1 / 64) p.2.2.1 p.2.2.2 sec)).map (fun p => p.1)

/-- A page that holds the sector lies in a phase region: no route is recorded or pushed for it (R118). -/
def phasePage (s : State) (sec : Nat) : Bool :=
  s.cores.any (fun k => k.2.slots.any (fun t => t.2.phases.any (fun p => coversPage s t.2.asid p.base p.size sec)))

/-- The routes that send a push for a store by `prod` (R105, R123): live, of that producer, in a REPLAYING range, to cores that are
not sharers. -/
def pushRoutes (s : State) (home sec prod : Nat) : List Route :=
  let live := (s.slice home).routes.filter (fun r =>
    r.sec = sec && r.prod = prod && !r.dep && !(s.sector sec).reach.contains r.cons
      && decide (((s.ranges.find? (r.asid * 64 + r.range)).map (fun g => (g.at home).1)).getD 0 = 3))
  if live.isEmpty || phasePage s sec then [] else live

/-- The spinning marks that a write to a line clears, on one core (R260). -/
def State.clearSpins (s : State) (core line : Nat) : State :=
  s.onCore core (fun k =>
    { k with slots := k.slots.map (fun t => (t.1, { t.2 with groups := t.2.groups.map (fun g =>
      (g.1, { g.2 with paths := g.2.paths.map (fun p =>
        (p.1, match p.2.spin.mark with
          | some (_, ls) => if ls.contains line then { p.2 with spin := p.2.spin.cleared } else p.2
          | none => p.2)) })) })) })

/-- The spin detector's name for a 256-byte range of a team's allocation (R436), apart from those of memory lines. -/
def scratchLine (core slot off : Nat) : Nat := 2 ^ 60 + (core * 64 + slot) * 2 ^ 20 + off / 256

/-- A write performs to a line: every path that recorded the line loses its mark (R260). -/
def State.wrote (s : State) (line : Nat) : State := s.cores.foldl (fun s c => s.clearSpins c.1 line) s

/-- A message brings a copy of its sector. -/
def MsgBody.brings : MsgBody → Bool
  | .fill _ _ _ => true
  | .push _ _ _ _ _ _ => true
  | .pin _ _ _ => true
  | _ => false

/-- The messages on their way from a slice to a core. -/
def State.channel (s : State) (slice core : Nat) : List Msg := s.channels.getD (slice * 192 + core) []

/-- A copy of a sector is on its way to a core. -/
def State.incoming (s : State) (core sec : Nat) : Bool :=
  (s.channel (s.home (64 * sec)) core).any (fun m => m.sec = sec && m.body.brings)

/-- The word is free of poison and of soft errors, as a whole-word store leaves it (R22). -/
def Memory.fresh (m : Memory) (word : Nat) : Memory :=
  { m with poison := m.poison.filter (fun p => p ≠ word), errors := m.errors.erase word, fixes := m.fixes.filter (fun p => p ≠ word) }
/-- The word is poisoned (R20). -/
def Memory.spoil (m : Memory) (word : Nat) : Memory := { m.fresh word with poison := word :: (m.fresh word).poison }

/-- A word is stored whole (R22), with its poison (R20). -/
def State.storeWord (s : State) (key : KeyPair) (word : Nat) (bs : Tab Byte) (pois : Bool) : State :=
  { s with mem := (if pois then s.mem.spoil word else s.mem.fresh word).write key bs }

/-- The slice has a tag for the sector's line, or one to spare: a slice of 1 MiB holds 4,096 lines (R1, R102; log 85). -/
def State.roomFor (s : State) (sec : Nat) : Bool :=
  let home := s.home (64 * sec)
  let lines := dedup ((s.sectors.filter (fun p => decide (p.2.st ≠ .inv) && decide (s.home (64 * p.1) = home))).map (fun p => p.1 / 4))
  lines.contains (sec / 4) || decide (lines.length < 4096)

/-- A store has been merged at the serialisation point (R105): the sector is newer than memory, WRITER is set where a range
records (R121), updates go to every sharer and pushes along every matching route, whose consumers join the sharers (R127; log
86), and a counter of these messages reports to `dest`. `prod` is the core of a lane's store, none for an engine. -/
def State.announce (s : State) (keySlot sec : Nat) (bs : Tab Byte) (prod : Option Nat) (dest : AckTo) : State :=
  let home := s.home (64 * sec)
  let x := s.sector sec
  let writer := match prod with
    | none => none
    | some p => if (rangesOver s home 1 sec).isEmpty then x.writer else some p
  let s := (s.onSector sec (fun x => { x with st := if x.st = .inv then .inv else .dirty, writer := writer })).wrote (sec / 4)
  let pushes := match prod with | some p => pushRoutes s home sec p | none => []
  let targets := x.reach
  let (n, s) := s.newAck (targets.length + pushes.length) dest
  let hit (i : Nat) : Bool := s.mem.poison.contains (2 * sec + i) && bs.any (fun (b : Nat × Byte) => b.1 / 32 = 2 * sec + i)
  let body : MsgBody := .update (relBytes (bs.filter (fun b => !s.mem.poison.contains (b.1 / 32)))) (b2n (hit 0) + 2 * b2n (hit 1))
  let s := targets.foldl (fun s c => s.send home c { sec := sec, body := body, ack := some n }) s
  match (s.keys.find? keySlot) with
  | none => s
  | some key =>
    let (data, pp) := s.sectorData key sec
    pushes.foldl (fun s r =>
      (s.send home r.cons { sec := sec, body := .push data pp keySlot r.prod r.slot r.epoch.toNat, ack := some n }).onSector sec
        (fun x => x.join r.cons)) s

/-- Lines of a set of an L1 with their ways (R150). -/
def l1Set (k : Core) (line : Nat) : Tab L1Line := k.l1.filter (fun p => p.1 % 192 = line % 192)
/-- Blocks in CACHE mode. -/
def Core.cacheBlocks (k : Core) : List Nat := (List.range 16).filter (fun b => k.block b = .cache)
/-- A line with no pinned sector may be replaced. -/
def L1Line.free (l : L1Line) : Bool := l.secs.all (fun p => !p.2.pinned)

/-- What the numbers of the private lines of one team slot begin at, for slot 0. -/
def privBase : Nat := 192 * 2 ^ 50
/-- The number under which a team's private copy of a line stands in the L1 of its core, in the set of the line (R118, R150). -/
def privKey (slot line : Nat) : Nat := line + privBase * (slot + 1)
/-- The number is that of a private line. -/
def isPrivate (line : Nat) : Bool := decide (privBase ≤ line)

/-- A way for a line that is not in a CACHE block: a free one of the set, else that of the least recently used line without a
pinned sector. The second part is the line to drop (R150). -/
def freshWay (k : Core) (line : Nat) : Option (Nat × Option Nat) :=
  let set := l1Set k line
  match k.cacheBlocks.find? (fun b => !(set.any (fun p => p.2.way = b))) with
  | some b => some (b, none)
  | none =>
    match set.filter (fun p => p.2.free && k.block p.2.way = .cache) with
    | [] => none
    | c :: t =>
      let v := t.foldl (fun v p => if p.2.used < v.2.used then p else v) c
      some (v.2.way, some v.1)

/-- A way for a line (R150, R151): its own while that is in CACHE mode, else another. -/
def wayFor (k : Core) (line : Nat) : Option (Nat × Option Nat) :=
  match k.l1.find? line with
  | some l => if k.block l.way = .cache then some (l.way, none) else freshWay k line
  | none => freshWay k line

/-- The sector in a core's L1. -/
def Core.l1Sec (k : Core) (sec : Nat) : Option L1Sec := (k.l1.find? (sec / 4)).bind (fun l => l.secs.find? (sec % 4))

/-- Change a sector in a core's L1, which is a use of its line (R150). -/
def State.onL1 (s : State) (core sec : Nat) (f : L1Sec → L1Sec) : State :=
  s.onCore core (fun k =>
    match k.l1.find? (sec / 4) with
    | none => k
    | some l =>
      match l.secs.find? (sec % 4) with
      | none => k
      | some x => { k with uses := k.uses + 1,
                           l1 := k.l1.set (sec / 4) { l with used := k.uses + 1, secs := l.secs.set (sec % 4) (f x) } })

/-- A sector leaves a core's L1, and its line with the last one. -/
def Core.without (k : Core) (sec : Nat) : Core :=
  match k.l1.find? (sec / 4) with
  | none => k
  | some l =>
    let secs := l.secs.erase (sec % 4)
    { k with l1 := if secs.isEmpty then k.l1.erase (sec / 4) else k.l1.set (sec / 4) { l with secs := secs } }

/-- Count an event of a range at a slice, saturating (R126): 0 RECORDED, 1 OVERFLOW, 2 PUSHED, 3 HITS, 4 DEPARTED,
5 FALLBACK. -/
def Slice.bump (k : Slice) (rk i : Nat) : Slice :=
  let c := k.counters.getD rk [0, 0, 0, 0, 0, 0]
  { k with counters := k.counters.set rk (c.set i (if c.getD i 0 = 0xFFFFFFFF then 0xFFFFFFFF else c.getD i 0 + 1)) }

/-- The live route of a producer to a team slot of a consumer for a sector. -/
def Route.is (r : Route) (sec prod cons slot : Nat) : Bool := r.sec = sec && r.prod = prod && r.cons = cons && r.slot = slot && !r.dep

/-- Change the live route of a producer to a team slot of a consumer for a sector, and count an event of its range. One that
departs is counted (R124). -/
def State.onRoute (s : State) (slice sec prod cons slot : Nat) (f : Route → Route) (event : Option Nat) : State :=
  s.onSlice slice (fun k =>
    match k.routes.find? (fun r => r.is sec prod cons slot) with
    | none => k
    | some r =>
      let rk := r.asid * 64 + r.range
      let k1 : Slice := { k with routes := mapIf (fun r => r.is sec prod cons slot) f k.routes }
      let k2 := match event with
        | some i => k1.bump rk i
        | none => k1
      if (f r).dep then k2.bump rk 4 else k2)

/-- A pushed sector leaves an L1 unread, or finds no way (R123, R124): UNREAD grows, and at 2 the route departs. -/
def State.unreadPush (s : State) (sec core prod slot : Nat) : State :=
  s.onRoute (s.home (64 * sec)) sec prod core slot (fun r => { r with unread := r.unread + 1, dep := decide (2 ≤ r.unread + 1) }) none

/-- A load of a sector by a core (R124, R126): the mark of a pushed copy goes, and UNREAD of its route is 0. -/
def State.readPush (s : State) (sec core : Nat) : State :=
  match ((s.core core).l1Sec sec).bind (fun d => d.pushed) with
  | some (prod, slot) =>
    (s.onRoute (s.home (64 * sec)) sec prod core slot (fun r => { r with unread := 0 }) (some 3)).onL1 core sec
      (fun d => { d with pushed := none })
  | none => s

/-- Remove the fold entries whose LDR read a sector (R107, R175), and spoil the LDRs in flight that have read it. -/
def State.killFolds (s : State) (core sec : Nat) : State :=
  s.onCore core (fun k =>
    { k with
      quarters := k.quarters.map (fun q => (q.1, { q.2 with folds := q.2.folds.filter (fun e => !e.secs.contains sec) })),
      slots := k.slots.map (fun t => (t.1, { t.2 with groups := t.2.groups.map (fun g =>
        (g.1, { g.2 with ops := g.2.ops.map (fun o =>
          (o.1, if o.2.fold.isSome && o.2.touched.contains sec then { o.2 with spoiled := true } else o.2)) })) })) })

/-- A core no longer holds a sector: it leaves an exact list of sharers, unless a copy for it is still on its way (R104, R106). -/
def State.gone (s : State) (core sec : Nat) : State :=
  if ((s.core core).l1Sec sec).isSome || s.incoming core sec then s else s.onSector sec (fun x => x.leave core)

/-- A core drops a sector with a drop notice (R104). What a fold entry has read of it goes with it (R229). -/
def State.dropSector (s : State) (core sec : Nat) : State :=
  match (s.core core).l1Sec sec with
  | none => s
  | some x =>
    let s := ((s.killFolds core sec).onCore core (fun k => k.without sec)).gone core sec
    match x.pushed with
    | some (prod, slot) => s.unreadPush sec core prod slot
    | none => s

/-- A line leaves an L1: its sectors are dropped, and a team's private line goes to the core's spill area (R118, R150). -/
def State.dropLine (s : State) (core line : Nat) : State :=
  let s := (List.range 4).foldl (fun s i => s.dropSector core (4 * line + i)) s
  s.onCore core (fun k =>
    { k with l1 := k.l1.erase line,
             spilled := if isPrivate line && !k.spilled.contains line then line :: k.spilled else k.spilled })

/-- A message that pins a sector becomes a fill of it: the pin has ended before it came (R106, R111). -/
def unpinMsg (sec : Nat) (m : Msg) : Msg :=
  match m.body with
  | .pin data pois key => if m.sec = sec then { m with body := .fill data pois key } else m
  | _ => m

/-- Unpin a sector (R111): the pinning core's bytes are written back as one store in one step, PIN is none, and the core is
an ordinary sharer. Where the pinned copy has not come to the core yet, the slice holds these bytes. The acknowledgement of the
write-back ends a part of `work`. -/
def State.unpin (s : State) (sec work : Nat) : State :=
  match (s.sector sec).pin with
  | none => s.endWork work
  | some (core, _, _, _) =>
    let home := s.home (64 * sec)
    let joined (s : State) : State := s.onSector sec (fun x => x.join core)
    let s := s.onSector sec (fun x => { x with pin := none })
    let early : State :=
      (joined { s with channels := s.channels.map (fun p =>
        if p.1 = home * 192 + core then (p.1, p.2.map (unpinMsg sec)) else p) }).endWork work
    match (s.core core).l1Sec sec with
    | none => early
    | some x =>
      if !x.pinned then early
      else
        let s := s.onL1 core sec (fun x => { x with pinned := false, writers := [] })
        match s.keys.find? x.key with
        | none => (joined s).endWork work
        | some key =>
          let word (i : Nat) : Tab Byte := (List.range 32).map (fun j => (64 * sec + 32 * i + j, secByte x.data (32 * i + j)))
          let s := (s.storeWord key (2 * sec) (word 0) (bit x.pois 0)).storeWord key (2 * sec + 1) (word 1) (bit x.pois 1)
          joined (s.announce x.key sec (word 0 ++ word 1) (some core) (.work work none))

/-- A line of a block that leaves CACHE mode is released before the block's turn (R151): its pinned sectors are unpinned, and the
block waits for their write-backs too. -/
def State.releaseLine (s : State) (core line : Nat) : State :=
  match (s.core core).l1.find? line with
  | none => s
  | some l =>
    let (k, s) := s.newWork 1
    let pinned := (l.secs.filter (fun p => p.2.pinned)).map (fun p => 4 * line + p.1)
    let s := (pinned.foldl (fun s sec => (s.addWork k).unpin sec k) s).endWork k
    (s.onCore core (fun c => match c.switching.find? l.way with
      | some w => { c with switching := c.switching.set l.way { w with waits := k :: w.waits } }
      | none => c)).dropLine core line

/-- Make room in a core's L1 for a line, replacing one where none is free. None where there is no way for it (R150). A private
line that was spilled is read back (R118). -/
def State.takeWay (s : State) (core line : Nat) : Option State :=
  match wayFor (s.core core) line with
  | none => none
  | some (way, victim) =>
    let s := match victim with
      | none => s
      | some v => s.dropLine core v
    let s := match (s.core core).l1.find? line with
      | some l => if l.way = way then s else s.releaseLine core line
      | none => s
    some (s.onCore core (fun k =>
      let l := (k.l1.find? line).getD { way := way, used := 0, secs := [] }
      { k with uses := k.uses + 1, l1 := k.l1.set line { l with used := k.uses + 1 },
               spilled := k.spilled.filter (fun n => n ≠ line) }))

/-- A team's private lines go with the range or the team they belong to (R119): those for which a test of their line holds. -/
def State.dropPrivate (s : State) (core slot : Nat) (which : Nat → Bool) : State :=
  let mine (n : Nat) : Bool := isPrivate n && decide (n / privBase = slot + 1) && which (n % privBase)
  s.onCore core (fun k => { k with l1 := k.l1.filter (fun p => !mine p.1), spilled := k.spilled.filter (fun n => !mine n) })

/-- Install a sector in a core's L1. False where there is no way for it. -/
def State.install (s : State) (core sec : Nat) (x : L1Sec) : Bool × State :=
  match s.takeWay core (sec / 4) with
  | none => (false, s)
  | some s => (true, s.onCore core (fun k =>
      match k.l1.find? (sec / 4) with
      | none => k
      | some l => { k with l1 := k.l1.set (sec / 4) { l with secs := l.secs.set (sec % 4) x } }))

/-- Sectors that a team holds pinned. -/
def pinsOf (s : State) (core slot : Nat) : List Nat :=
  (s.sectors.filter (fun p => match p.2.pin with
    | some (c, t, _, _) => c = core && t = slot
    | none => false)).map (fun p => p.1)

/-- Unpin every sector of a team under one work (R111, R115, R224). -/
def State.unpinTeam (s : State) (core slot work : Nat) : State :=
  (pinsOf s core slot).foldl (fun s sec => (s.addWork work).unpin sec work) s

/-- An entry of the synchronisation-variable table is spread (R115, R116). -/
def isSpread (s : State) (home sec : Nat) : Bool :=
  let k := s.slice home
  k.spread.contains sec ||
    match k.sync.find? (fun e => e.sec = sec) with
    | some e => decide (1 < e.cores.length) || e.overflow || decide (e.agents ≠ 0)
    | none => false

/-- Enter a touch of a sector in the table of its slice (R114, R116): a participant core, or the bit of an agent class. The
entry moves to the front; the least recently touched one gives way. An engine's touch makes no new entry. -/
def State.syncTouch (s : State) (home sec : Nat) (core : Option Nat) (agent : Nat) : State :=
  s.onSlice home (fun k =>
    match k.sync.find? (fun e => e.sec = sec) with
    | some e =>
      let e1 := match core with
        | some c => if e.cores.contains c then e
          else if e.cores.length < 4 then { e with cores := e.cores ++ [c] } else { e with overflow := true }
        | none => { e with agents := e.agents ||| agent }
      { k with sync := e1 :: k.sync.filter (fun e => e.sec ≠ sec) }
    | none =>
      match core with
      | none => k
      | some c =>
        let e : SyncEntry := { sec := sec, cores := [c], overflow := false, agents := 0 }
        if k.sync.length < 512 then { k with sync := e :: k.sync }
        else
          let old := (k.sync.getLastD e).sec
          { k with sync := e :: k.sync.dropLast, spread := old :: k.spread.filter (fun q => q ≠ old) })

/-- The cores of the cluster of a team on a core: the rectangle of a die's mesh that its rank and its grid's shape give (R241). -/
def clusterCores (s : State) (core : Nat) (t : Team) : List Nat :=
  match s.grid? t.grid with
  | none => [core]
  | some g =>
    let place (r : Nat) : Nat := r / g.cw * 8 + r % g.cw
    (List.range (g.cw * g.ch)).map (fun r => core + place r - place t.rank)

/-- The scope check of R113 for a synchronising access of a core. -/
def scopeClash (x : Sector) (core scope : Nat) (clu : List Nat) : Bool :=
  let inDomain (sc own : Nat) (dom : List Nat) (c : Nat) : Bool :=
    if sc ≤ 2 then decide (c = own) else if sc = 3 then dom.contains c else true
  x.scope ≠ 0 && (!inDomain scope core clu x.scopeCore || !inDomain x.scope x.scopeCore x.scopeDom core)

end Sys2Proof.Machine
end

