-- ==== Sys2Proof/Machine/Records.lean ====
section
/-! DEFINITION. The records of the device's rings (R23, R279), reads of stored words with their check bits (R18, R19, R21), and
merging a store into memory (R20, R22). -/

namespace Sys2Proof.Machine

/-- Where bytes that the device writes to one of its own rings go: the translation under the supervisor's ASID and the key, or
none where the write meets a fault, a hole, an empty key slot or poison (R279). A word that is only damaged is no poison: the
write deals with it as a store does (R22). -/
def ringPlace (s : State) (va n : Nat) : Option (Xlat × KeyPair) :=
  match translate s Config.supervisorAsid.toNat va .store true false with
  | .fault _ => none
  | .ok x =>
    if !stored x.pa || (windowAt s x.pa).isSome || (wordsOf x.pa n).any s.mem.poison.contains then none
    else (s.keys.find? x.key).map (fun k => (x, k))

/-- A record of one column word is stored (R279): a store that covers the word, at the serialisation point (R22, R105). A pin
there ends first (R115). A unit that a placement move has frozen takes it at both places, which is as if the write had waited
(R29; log 87). -/
def State.recordAt (s : State) (x : Xlat) (key : KeyPair) (bs : List Byte) : State :=
  let s := s.unpin (x.pa / 64) 0
  let word (pa : Nat) : Tab Byte := bs.zipIdx.map (fun p => (pa / 32 * 32 + p.2, p.1))
  let s := (x.pa :: (mirrorOf s x.pa).toList).foldl (fun s pa => s.storeWord key (pa / 32) (word pa) false) s
  s.announce x.key (x.pa / 64) (word x.pa) none (.nobody none)

/-- Every PF whose entry for the vector is unmasked gets an MSI-X message (R297). -/
def State.interrupt (s : State) (vector : Nat) : State :=
  let pfs := (s.fns.filter (fun f => f.2.pf && f.2.unmasked.contains vector)).map (fun f => (f.1, vector))
  s.onDev (fun d => { d with msix := d.msix ++ pfs })

/-- A counter that saturates at 0xFFFF_FFFF (R439). -/
def satInc (x : W32) : W32 := if x = BitVec.allOnes 32 then x else x + 1

/-- The words that a store has spoilt or a read has found bad are marked in memory. -/
def State.setMem (s : State) (m : Memory) : State := { s with mem := m }

/-- How a memory error comes to its channel: the agent, KIND and address of its record (R23). -/
abbrev LogWith := State → Who → Nat → Nat → State

/-- Read the stored word once (R19): a correctable error is corrected, counted and recorded, and its write-back awaited; an
uncorrectable one poisons the word and is recorded as KIND UE. A CXL device corrects its own single-bit errors, and what it
cannot correct is recorded as CXLPOIS (R18). -/
def State.checkWordBy (log : LogWith) (s : State) (w : Who) (word : Nat) : State :=
  match s.mem.errors.find? word with
  | none => s
  | some n =>
    let tier := decide (region (32 * word) = Region.tier)
    if s.mem.fixes.contains word then s
    else if n ≤ 1 then
      if tier then s.setMem { s.mem with errors := s.mem.errors.erase word }
      else
        log ((s.setMem { s.mem with fixes := word :: s.mem.fixes }).onStack (stackOf (32 * word))
          (fun k => { k with ce := satInc k.ce })) w 0 (32 * word)
    else
      log (s.setMem { s.mem with errors := s.mem.errors.erase word, poison := word :: s.mem.poison.filter (fun p => p ≠ word) }) w
        (if tier then 4 else 1) (32 * word)

/-- Read a stored word (R18, R19): a tier word that comes in poisoned is recorded for the response. -/
def State.tierWordBy (log : LogWith) (s : State) (w : Who) (word : Nat) : State :=
  if region (32 * word) = Region.tier ∧ s.mem.poison.contains word then log s w 4 (32 * word) else s.checkWordBy log w word

/-- Fill a sector into its slice (R102): its two words are read and checked, but those that a store has just dealt with, and
it becomes CLEAN. Where the slice has no room for the line the access goes on without it (log 85). -/
def State.fillBy (log : LogWith) (s : State) (w : Who) (sec : Nat) (done : List Nat) : State :=
  if (s.sector sec).st ≠ .inv then s
  else
    let s := ([2 * sec, 2 * sec + 1].filter (fun q => !done.contains q)).foldl (fun s q => s.tierWordBy log w q) s
    if s.roomFor sec then s.onSector sec (fun x => { x with st := .clean }) else s

/-- The reads of a walk, through the home slices (R47, R284). -/
def State.walkReadsBy (log : LogWith) (s : State) (w : Who) (cache : List WalkEntry) (asid va : Nat) : State :=
  (walkReads s cache asid va).foldl (fun s q => s.fillBy log w q []) s

/-- A record of the supervisor channel of a die is counted in LOST (R279). -/
def State.svLost (s : State) (die : Nat) : State :=
  s.onDie die (fun d =>
    let l := bits d.svqCtl.toNat 63 32
    { d with svqCtl := BitVec.ofNat 64 (d.svqCtl.toNat % 2 ^ 32 + (if l = 2 ^ 32 - 1 then l else l + 1) * 2 ^ 32) })

/-- The address of the next record of a die's supervisor channel, where it has room for one (R279). -/
def Die.svNext (d : Die) : Option Nat :=
  let ctl := d.svqCtl.toNat
  let tail := bits d.svqPtr.toNat 15 0
  if !bit ctl 0 || decide (ringSize ctl ≤ (tail + 65536 - bits d.svqPtr.toNat 47 32) % 65536) then none
  else some (bits d.svqBase.toNat 56 5 * 32 + tail % ringSize ctl * 32)

/-- A record of the supervisor channel is generated (R279): written with TAIL advanced and the interrupt sent, or counted in
LOST. While READY is 0 the channel does not act (R311). -/
def State.svWrite (s : State) (die type : Nat) (w : Who) (d1 d2 : Nat) : State :=
  if !s.dev.devstat.getLsbD 0 then s
  else
    let d := s.die die
    let s := s.onDie die (fun d => { d with seq := (d.seq + 1) % 65536 })
    match d.svNext.bind (fun va => ringPlace s va 32) with
    | none => s.svLost die
    | some (x, key) =>
      let ptr := d.svqPtr.toNat
      ((s.recordAt x key (leBytes 8 (svHeader d.seq type w) ++ leBytes 8 d1 ++ leBytes 8 d2 ++ leBytes 8 0)).onDie die (fun d =>
        { d with svqPtr := BitVec.ofNat 64 (bits ptr 47 32 * 2 ^ 32 + (bits ptr 15 0 + 1) % 65536) })).interrupt die

/-- A record of the supervisor channel. The tables that place a record it can write are read through the slices first (R19,
R284), and an error met there has a record of its own, which comes first; `n` bounds how deep that goes (log 116). -/
def State.svRecordIn : Nat → State → Nat → Nat → Who → Nat → Nat → State
  | 0, s, die, type, w, d1, d2 => s.svWrite die type w d1 d2
  | n + 1, s, die, type, w, d1, d2 =>
    let log : LogWith := fun s w kind pa => State.svRecordIn n s w.die 0 w (r23 kind pa) 0
    match if s.dev.devstat.getLsbD 0 then (s.die die).svNext.bind (fun va => (ringPlace s va 32).map (fun _ => va)) else none with
    | some va => (s.walkReadsBy log w [] Config.supervisorAsid.toNat va).svWrite die type w d1 d2
    | none => s.svWrite die type w d1 d2

/-- Generate a record of the supervisor channel of a die (R279). -/
def State.svRecord (s : State) (die type : Nat) (w : Who) (d1 d2 : Nat) : State := State.svRecordIn 16 s die type w d1 d2

/-- Log a memory error (R23). -/
def State.log23 (s : State) (w : Who) (kind pa : Nat) : State := s.svRecord w.die 0 w (r23 kind pa) 0

/-- Slice record of its own (R279): for a corrected word that it writes back. -/
def whoSlice (k : Nat) : Who := { agent := 0, die := dieOf k, core := k, slot := 0, group := 0, id := 0 }

/-- Read the stored word once (R19). -/
def State.checkWord (s : State) (w : Who) (word : Nat) : State := s.checkWordBy State.log23 w word

/-- Read a stored word (R18, R19). -/
def State.tierWord (s : State) (w : Who) (word : Nat) : State := s.tierWordBy State.log23 w word

/-- Fill a sector into its slice but for the words that a store has just dealt with (R102). -/
def State.fillBut (s : State) (w : Who) (sec : Nat) (done : List Nat) : State := s.fillBy State.log23 w sec done

/-- Fill a sector into its slice (R102). -/
def State.fillSector (s : State) (w : Who) (sec : Nat) : State := s.fillBut w sec []

/-- The reads of a walk, through the home slices (R47, R284). -/
def State.walkFills (s : State) (w : Who) (cache : List WalkEntry) (asid va : Nat) : State := s.walkReadsBy State.log23 w cache asid va

/-- Translate at once by a walk that caches nothing, whose reads are those of the walker (R19, R284). -/
def State.translateBy (s : State) (w : Who) (asid va : Nat) (a : Acc) (sup device : Bool) : TransOut × State :=
  let s := s.walkFills w [] asid va
  (translate s asid va a sup device, s)

/-- The reads that place a record or sample of a ring (R19, R284). -/
def State.ringReads (s : State) (w : Who) (va : Nat) : State := s.walkFills w [] Config.supervisorAsid.toNat va

/-- A record is written: false where it cannot be (R279). -/
def recordWrite (s : State) (w : Who) (va : Nat) (bs : List Byte) : Bool × State :=
  match ringPlace s va 32 with
  | none => (false, s)
  | some (x, key) => (true, (s.ringReads w va).recordAt x key bs)

/-- Merge a store into memory at the serialisation point, word by word (R22). `pois` says that the store carries poison
(R20). `bs` lies in one sector. -/
def State.mergeStore (s : State) (w : Who) (key : KeyPair) (bs : Tab Byte) (pois : Bool) : State :=
  let words := dedup (bs.map (fun p => p.1 / 32))
  words.foldl (fun s word =>
    let mine := bs.filter (fun p => p.1 / 32 = word)
    -- The slice reads the word only where it does not hold its sector.
    let reads := decide ((s.sector (word / 2)).st = .inv)
    let tier := decide (region (32 * word) = Region.tier)
    if mine.length = 32 then s.storeWord key word mine pois
    else if s.mem.poison.contains word then
      if tier && reads then s.log23 w 4 (32 * word) else s
    else if s.badWord word then (s.setMem (s.mem.spoil word)).log23 w (if tier then 4 else 2) (32 * word)
    else
      let s := if reads then s.checkWord w word else s
      s.setMem (if pois then { s.mem with poison := word :: s.mem.poison } else s.mem.write key mine)) s

/-- A store performs at the serialisation point in one step (R105): its bytes merge, those of the words of `bad` carrying poison
(R20), and the sharers hear of it. -/
def State.performAt (s : State) (w : Who) (key : KeyPair) (keySlot : Nat) (bs : Tab Byte) (bad : List Nat)
    (prod : Option Nat) (dest : AckTo) : State :=
  match bs with
  | [] => (s.newAck 0 dest).2
  | (a, _) :: _ =>
    let s := s.mergeStore w key (bs.filter (fun b => !bad.contains (b.1 / 32))) false
    let s := s.mergeStore w key (bs.filter (fun b => bad.contains (b.1 / 32))) true
    let s := s.fillBut w (a / 64) (dedup (bs.map (fun p => p.1 / 32)))
    s.announce keySlot (a / 64) bs prod dest

/-- Bytes of a ring are stored, as a store does; at both places where a placement move has frozen the unit (log 87). -/
def State.ringAt (s : State) (w : Who) (x : Xlat) (key : KeyPair) (bs : List Byte) : State :=
  let s := s.unpin (x.pa / 64) 0
  let put (pa : Nat) : Tab Byte := bs.zipIdx.map (fun p => (pa + p.2, p.1))
  let s := (mirrorOf s x.pa).toList.foldl (fun s pa => s.mergeStore w key (put pa) false) s
  s.performAt w key x.key (put x.pa) [] none (.nobody none)

/-- Bytes that the device writes to one of its own rings at an address of the supervisor (R307): false where they cannot be
written. -/
def ringWrite (s : State) (w : Who) (va : Nat) (bs : List Byte) : Bool × State :=
  match ringPlace s va bs.length with
  | none => (false, s)
  | some (x, key) => (true, (s.ringReads w va).ringAt w x key bs)

end Sys2Proof.Machine
end

