-- ==== Sys2Proof/Machine/Coherence.lean ====
section
/-! DEFINITION. Parking on a fault (R285), the scope record with the grant of pins (R110, R113, R114), and fills with the routes
they record (R106, R121, R125). -/

namespace Sys2Proof.Machine

/-- The 128 bits of a fault-buffer entry (R286). -/
def FaultEntry.bits (e : FaultEntry) : Nat :=
  2 ^ 127 + e.kind * 2 ^ 124 + e.agent * 2 ^ 120 + e.acc * 2 ^ 117 + e.asid % 65536 * 2 ^ 96
    + (if e.count ≤ 255 then e.count else 255) * 2 ^ 64 + e.vpn % 2 ^ 45 * 2 ^ 12

/-- Record a parked access (R285). `buf` is a core, or 1000 + stack; the pending table is that of `w.die`. -/
def State.parkFault (s : State) (w : Who) (buf kind acc asid va : Nat) : State :=
  let d := s.die w.die
  let vpn := va % 2 ^ 57 / 4096
  let bump (l : List FaultEntry) : List FaultEntry :=
    mapIf (fun e => e.asid = asid && e.vpn = vpn) (fun e => { e with count := e.count + 1 }) l
  match d.pending.find? (fun p => p.asid = asid && p.vpn = vpn) with
  | some p =>
    if p.buf < 1000 then s.onCore p.buf (fun k => { k with faults := bump k.faults })
    else s.onStack (p.buf - 1000) (fun k => { k with faults := bump k.faults })
  | none =>
    let full := if buf < 1000 then decide (8 ≤ (s.core buf).faults.length)
      else decide (8 ≤ (s.stack (buf - 1000)).faults.length)
    if full || decide (64 ≤ d.pending.length) then
      if buf < 1000 then s.onCore buf (fun k => { k with dropped := true })
      else s.onStack (buf - 1000) (fun k => { k with dropped := true })
    else
      let e : FaultEntry := { kind := kind, agent := w.agent, acc := acc, asid := asid, count := 1, vpn := vpn }
      let s := s.onDie w.die (fun d => { d with pending := d.pending ++ [{ asid := asid, vpn := vpn, buf := buf }] })
      let s := if buf < 1000 then s.onCore buf (fun k => { k with faults := k.faults ++ [e] })
        else s.onStack (buf - 1000) (fun k => { k with faults := k.faults ++ [e] })
      s.svRecord w.die 2 w (e.bits % 2 ^ 64) (e.bits / 2 ^ 64)

/-- Pin a sector to a core and team (R110): the sector goes down the channel, and every other sharer is invalidated. -/
def State.pinTo (s : State) (w : Who) (sec keySlot : Nat) (key : KeyPair) (core slot group : Nat) : State :=
  let s := s.fillSector w sec
  let home := s.home (64 * sec)
  let others := (s.sector sec).reach.filter (fun c => c ≠ core)
  let s := others.foldl (fun s c => s.send home c { sec := sec, body := .inval, ack := none }) s
  let (data, pp) := s.sectorData key sec
  let s := s.send home core { sec := sec, body := .pin data pp keySlot, ack := none }
  -- The others stay sharers until their invalidation is applied.
  s.onSector sec (fun x => { x.leave core with pin := some (core, slot, (s.core core).clock, some (slot, group)) })

/-- Record a synchronising access (R113, R114), and pin its sector where R110 and R115 allow. Answers whether the access is
inconsistent with the record, as one of a user lane can be. A sector on its way out of the slice is not pinned. -/
def State.synchronise (s : State) (w : Who) (sec keySlot : Nat) (key : KeyPair) (core slot group scope : Nat)
    (clu : List Nat) (user mayPin : Bool) : Bool × State :=
  let home := s.home (64 * sec)
  let x := s.sector sec
  let clash := user && scopeClash x core scope clu
  let sc := if clash then 4 else scope
  let s := s.onSector sec (fun x => { x with scope := sc, scopeCore := core, scopeDom := if sc = 3 then clu else [] })
  let s := s.syncTouch home sec (some core) 0
  let s := match x.pin with
    | some (c, t, a, _) => if c = core then s.onSector sec (fun x => { x with pin := some (c, t, a, some (slot, group)) }) else s
    | none =>
      if mayPin && decide (sc ≤ 2) && !clash && !x.evicting && !isSpread s home sec && (wayFor (s.core core) (sec / 4)).isSome
      then s.pinTo w sec keySlot key core slot group else s
  (clash, s)

/-- The range under which a fill of a sector by an ASID is recorded (R121): one of its own that covers the sector, else another
that does (log 88). -/
def recordingRange (s : State) (home asid sec : Nat) : Option Nat :=
  let l := rangesOver s home 1 sec
  (l.find? (fun rk => rk / 64 = asid)).or l.head?

/-- What the slice keeps of a fill request of a core (R121, R125): a fallback is counted for each range with a departed route, and
a route is recorded where the last writer is another core. -/
def State.recordFill (s : State) (sec core slot asid : Nat) : State :=
  let home := s.home (64 * sec)
  let count (s : State) (rk i : Nat) : State := s.onSlice home (fun k => k.bump rk i)
  let gone := dedup (((s.slice home).routes.filter (fun r => r.sec = sec && r.cons = core && r.dep)).map (fun r => r.asid * 64 + r.range))
  let s := gone.foldl (fun s rk => count s rk 5) s
  match (s.sector sec).writer with
  | none => s
  | some p =>
    if p = core then s
    else
      match recordingRange s home asid sec with
      | none => s
      | some rk =>
        let k := s.slice home
        if phasePage s sec || k.routes.any (fun r => r.sec = sec && r.prod = p && r.cons = core && r.slot = slot) then s
        else if k.routes.length < 4096 then
          count (s.onSlice home (fun k =>
            { k with routes := k.routes ++ [{ sec := sec, asid := rk / 64, range := rk % 64, prod := p, cons := core, slot := slot,
                                              epoch := (s.core core).epoch slot, unread := 0, dep := false }] })) rk 0
        else count s rk 1

/-- A fill request from a core (R106): the fill goes down the channel, the core joins the sharers, and the request is recorded.
`readers` are the lanes that it serves. -/
def State.sendFill (s : State) (w : Who) (sec keySlot : Nat) (key : KeyPair) (core slot asid : Nat)
    (readers : List (Nat × Nat × LaneSet)) : State :=
  let s := s.fillSector w sec
  let home := s.home (64 * sec)
  let (data, pp) := s.sectorData key sec
  let s := s.send home core { sec := sec, body := .fill data pp keySlot, ack := none, readers := readers }
  (s.onSector sec (fun x => x.join core)).recordFill sec core slot asid

/-- An invalidation of a sector is on its way to a core: until it is applied that core's copy may hold older bytes (R219). -/
def State.invalsOut (s : State) (sec : Nat) : Bool :=
  s.channels.any (fun c => c.1 / 192 = s.home (64 * sec) && c.2.any (fun m => m.sec = sec && decide (m.body = .inval)))

end Sys2Proof.Machine
end

