-- ==== Sys2Proof/Machine/Window.lean ====
section
/-! DEFINITION. The windows of installed mangles at their home slice (R82 to R90, R94, R95, R98): which byte an address is,
stores and loads of window bytes, fire requests, and firings. -/

namespace Sys2Proof.Machine

/-- What a window byte is (R82). -/
inductive WinByte where
  | ctl (slot off : Nat)
  | vec (slot off : Nat)
  | status (slot off : Nat)
  | result (slot off : Nat)
  | inPad
  | outPad
  deriving DecidableEq, Repr

/-- A slot that nothing has stored to (R83, R84). -/
def MSlot.init : MSlot :=
  { bytes := [], pois := [], gen := 1, fire := false, latch := none, held := [], out := [], outPois := [], outGen := 0,
    outMiss := false, outPoisFlag := false, outForced := false, outFilled := 0 }

/-- A slot of a mangle. -/
def Mangle.slot (m : Mangle) (i : Nat) : MSlot := m.slots.getD i MSlot.init
/-- Change a slot. -/
def Mangle.onSlot (m : Mangle) (i : Nat) (f : MSlot → MSlot) : Mangle := { m with slots := m.slots.set i (f (m.slot i)) }

/-- Bytes of an input vector. -/
def Mangle.vecBytes (m : Mangle) : Nat := m.n * m.isz
/-- Every byte of the vector is valid. -/
def Mangle.full (m : Mangle) (i : Nat) : Bool := decide ((m.slot i).bytes.length = m.vecBytes)

/-- The window byte at a virtual address of one of the windows. -/
def Mangle.winByte (m : Mangle) (va : Nat) : WinByte :=
  if m.inOut va then
    let o := va - m.owin
    let k := o / m.ostride
    let r := o % m.ostride
    if m.nslots ≤ k then .outPad
    else if r < 256 then .status k r
    else if r - 256 < m.m * m.osz then .result k (r - 256) else .outPad
  else
    let o := va - m.iwin
    let k := o / m.istride
    let r := o % m.istride
    if m.nslots ≤ k then .inPad
    else if r < 256 then .ctl k r
    else if r - 256 < m.vecBytes then .vec k (r - 256) else .inPad

/-- The control line of a slot as a number (R83). -/
def Mangle.control (m : Mangle) (i : Nat) : Nat :=
  let x := m.slot i
  x.gen + x.bytes.length * 2 ^ 32 + b2n (m.full i) * 2 ^ 64 + b2n x.latch.isSome * 2 ^ 65

/-- The status line of a slot as a number (R84). -/
def Mangle.status (m : Mangle) (i : Nat) : Nat :=
  let x := m.slot i
  x.outGen + b2n x.outMiss * 2 ^ 32 + b2n x.outPoisFlag * 2 ^ 33 + b2n x.outForced * 2 ^ 34 + x.outFilled * 2 ^ 96

/-- A load of one window byte (R85), with its poison. -/
def Mangle.loadByte (m : Mangle) (va : Nat) : Byte × Bool :=
  match m.winByte va with
  | .ctl k o => (BitVec.ofNat 8 (m.control k / 2 ^ (8 * o)), false)
  | .vec k o => ((m.slot k).bytes.getD o 0, (m.slot k).pois.contains o)
  | .status k o => (BitVec.ofNat 8 (m.status k / 2 ^ (8 * o)), false)
  | .result k o => ((m.slot k).out.getD o 0, (m.slot k).outPois.contains (o / 32))
  | .inPad => (0, false)
  | .outPad => (0, false)

/-- The output slot that a window byte belongs to. -/
def Mangle.outSlot (m : Mangle) (va : Nat) : Option Nat :=
  match m.winByte va with
  | .status k _ => some k
  | .result k _ => some k
  | _ => none

/-- The generation that a load of an address must wait for: that of the firing latched on its output slot (R95). -/
def Mangle.waitsFor (m : Mangle) (va : Nat) : Option Nat :=
  (m.outSlot va).bind (fun k => ((m.slot k).latch).map (fun l => l.gen))

/-- The wait of an engine load (R95): whether it goes on waiting, and what the mangle keeps of it. It waits for the firing that
was latched when it arrived, and for no later one. -/
def Mangle.engineWait (m : Mangle) (key : WaitKey) (va : Nat) : Bool × Mangle :=
  let latched := m.waitsFor va
  match m.loads.find? (fun e => e.1 = key) with
  | some e => if latched = some e.2.2 then (true, m) else (false, { m with loads := m.loads.filter (fun e => e.1 ≠ key) })
  | none =>
    match latched, m.outSlot va with
    | some gen, some k => (true, { m with loads := m.loads ++ [(key, k, gen)] })
    | _, _ => (false, m)

/-- The firing of a slot (R89): the latch takes the vector; the acknowledgement counters held are answered. -/
def Mangle.fireSlot (m : Mangle) (i : Nat) : Mangle × List Nat :=
  let x := m.slot i
  let l : Latch :=
    { gen := x.gen, bytes := x.bytes, pois := !x.pois.isEmpty, miss := decide (x.bytes.length < m.vecBytes),
      filled := x.bytes.length, forced := x.fire, carried := false }
  let m := { m with firings := (m.firings + 1) % 2 ^ 32 }
  (m.onSlot i (fun x => { x with latch := some l, bytes := [], pois := [], fire := false, gen := (x.gen + 1) % 2 ^ 32, held := [] }),
   x.held)

/-- The slots that fire now (R88). -/
def Mangle.ready (m : Mangle) : List Nat :=
  let free := (List.range m.nslots).filter (fun i => (m.slot i).latch.isNone)
  let asked := free.filter (fun i => (m.slot i).fire)
  let fulls := free.filter (fun i => m.full i)
  if m.mode then
    if m.batch ≤ fulls.length then free.filter (fun i => (m.slot i).fire || m.full i) else asked
  else free.filter (fun i => (m.slot i).fire || m.full i)

/-- Bits of a weight (R80). -/
def Mangle.wbits (m : Mangle) : Nat := fmtBits m.wfmt
/-- Panels (R80). -/
def Mangle.panels (m : Mangle) : Nat := ceilDiv m.n 256
/-- Columns of panel p below N (R80). -/
def Mangle.columns (m : Mangle) (p : Nat) : Nat := if m.n - 256 * p < 256 then m.n - 256 * p else 256
/-- Bytes of the matrix region (R80). -/
def Mangle.matrixBytes (m : Mangle) : Nat := m.panels * m.m * 32 * m.wbits
/-- Physical address of byte b of chunk (p, r) (R80, R81). -/
def Mangle.chunkAt (m : Mangle) (p r b : Nat) : Nat :=
  let off := (p * m.m + r) * 32 * m.wbits + b
  m.dataPages.getD (off / 65536) 0 * 65536 + off % 65536
/-- Column words of the weights of chunk (p, r) that stand below N (R81). -/
def Mangle.chunkWords (m : Mangle) (p r : Nat) : List Nat :=
  (List.range (ceilDiv (m.columns p * m.wbits) 256)).map (fun k => m.chunkAt p r (32 * k) / 32)
/-- Every chunk. -/
def Mangle.chunks (m : Mangle) : List (Nat × Nat) := (List.range m.m).flatMap (fun r => (List.range m.panels).map (fun p => (p, r)))
/-- Paddock cores whose mangle lanes take part in a pass (R81). -/
def Mangle.lanes (m : Mangle) : List Nat :=
  dedup (m.chunks.flatMap (fun c => (m.chunkWords c.1 c.2).map (fun w => paddockOf (32 * w))))
/-- Stacks that take part. -/
def Mangle.hbmStacks (m : Mangle) : List Nat := dedup (m.lanes.map (fun p => p / 64))
/-- Dies whose governor a pass asks, with its weight there (R91, R273). -/
def Mangle.weights (m : Mangle) : List (Nat × Nat) :=
  [0, 1].filterMap (fun d =>
    let n := (m.hbmStacks.filter (fun k => dieOfStack k = d)).length
    if n = 0 then none else some (d, 64 * n))

/-- A pass begins where a latch is held and none is under way (R91): it carries the latches that none has carried, and asks
for leave. -/
def State.beginPass (s : State) (h : Nat) : State :=
  match s.mangles.find? h with
  | none => s
  | some m =>
    let carry := (List.range m.nslots).filter (fun i => match (m.slot i).latch with
      | some l => !l.carried
      | none => false)
    if m.asked || carry.isEmpty then s
    else
      let m1 := carry.foldl (fun m i => m.onSlot i (fun x => { x with latch := x.latch.map (fun l => { l with carried := true }) })) m
      let s := { s with mangles := s.mangles.set h { m1 with asked := true } }
      m.weights.foldl (fun s d => s.onDie d.1 (fun x => { x with asks := x.asks ++ [.pass h d.2] })) s

/-- Answer acknowledgement counters that a slot held (R89). -/
def State.letGo (s : State) (acks : List Nat) : State :=
  { s with acks := s.acks.map (fun (p : Nat × Ack) => if acks.contains p.1 then (p.1, { p.2 with held := false }) else p) }

/-- Fire every slot that R88 selects, and begin a pass. -/
def State.fireCheck (s : State) (h : Nat) : State :=
  match s.mangles.find? h with
  | none => s
  | some m =>
    let (m2, acks) := m.ready.foldl (fun (m, a) i => let (m, b) := m.fireSlot i; (m, a ++ b)) (m, [])
    (({ s with mangles := s.mangles.set h m2 }).letGo acks).beginPass h

/-- A fire request for a slot (R88). -/
def Mangle.request (m : Mangle) (slot : Nat) : Mangle :=
  (List.range m.nslots).foldl (fun m i =>
    if i = slot || (m.mode && !(m.slot i).bytes.isEmpty) then m.onSlot i (fun x => { x with fire := true }) else m) m

/-- A fire request at the home slice, acknowledged once its firing has latched (R88, R89, R419). -/
def State.fireRequest (s : State) (h slot : Nat) (dest : AckTo) : State :=
  match s.mangles.find? h with
  | none => s
  | some m =>
    let (n, s) := s.newAck 0 dest
    let m := (m.request slot).onSlot slot (fun x => { x with held := n :: x.held })
    ({ s with mangles := s.mangles.set h m,
              acks := s.acks.map (fun (p : Nat × Ack) => if p.1 = n then (p.1, { p.2 with held := true }) else p) }).fireCheck h

/-- A store to window bytes performs at the home slice (R85, R86, R89): bytes by virtual address. One that comes while the
mangle is being uninstalled is discarded (R98). `bad` lists the words, by virtual address, that carry poison (R20). A store to FIRE
in BATCH mode is acknowledged when its own slot has latched, whatever other slots it fires (log 90). -/
def State.windowStore (s : State) (h : Nat) (bs : Tab Byte) (bad : List Nat) (dest : AckTo) : State :=
  match s.mangles.find? h with
  | none => (s.newAck 0 dest).2
  | some m0 =>
    if m0.removing.isSome then (s.newAck 0 dest).2
    else
    let slots := dedup (bs.filterMap (fun p => match m0.winByte p.1 with
      | .vec k _ => some k
      | .ctl k _ => some k
      | _ => none))
    let m1 := bs.foldl (fun m p =>
      match m.winByte p.1 with
      | .vec k o => m.onSlot k (fun x =>
          { x with bytes := x.bytes.set o p.2,
                   pois := if bad.contains (p.1 / 32) then o :: x.pois.filter (fun q => q ≠ o) else x.pois.filter (fun q => q ≠ o) })
      | _ => m) m0
    let fires := slots.filter (fun k => bs.any (fun p => match m0.winByte p.1 with
      | .ctl j o => j = k && decide (12 ≤ o) && decide (o < 16)
      | _ => false))
    let m2 := fires.foldl (fun m k => m.request k) m1
    -- Held: a store to FIRE, and one that makes a slot FULL in EACH mode (R89). In BATCH mode the b-th fires at once.
    let holds := slots.filter (fun k => fires.contains k || (!m0.mode && m2.full k && !m0.full k))
    let (n, s) := s.newAck 0 dest
    let m3 := holds.foldl (fun m k => m.onSlot k (fun x => { x with held := n :: x.held })) m2
    let s := { s with mangles := s.mangles.set h m3,
                      acks := s.acks.map (fun (p : Nat × Ack) => if p.1 = n then (p.1, { p.2 with held := !holds.isEmpty }) else p) }
    s.fireCheck h

end Sys2Proof.Machine
end

