-- ==== Sys2Proof/Machine/DevRegs.lean ====
section
/-! DEFINITION. The device register space (R298): reads and writes of every register it holds, with the launch-queue pointers
of R267, the mailbox doorbell of R299 and the start of a replay (R309). -/

namespace Sys2Proof.Machine

/-- The reserved event identities of a slice's log (R309): an event is taken in a replay only when it is the next one. -/
def State.mayLog (s : State) (slice id : Nat) : Bool :=
  match s.dev.replay with
  | none => true
  | some _ =>
    if s.dev.diverged then true
    else match s.dev.replayLog.getD slice [] with
      | [] => true
      | x :: _ => x = id

/-- A replay is over when nothing of its logs is left. -/
def Device.settle (d : Device) : Device :=
  if d.replayLog.all (fun p => p.2.isEmpty) && d.admitReplay.isEmpty then { d with replay := none } else d

/-- Log an event of a slice, and take it off the log that a replay follows. -/
def State.logAt (s : State) (slice id : Nat) : State :=
  s.onDev (fun d =>
    let d := if d.ckctl.getLsbD 63 then { d with log := d.log.set slice (d.log.getD slice [] ++ [id]) } else d
    match d.replay with
    | none => d
    | some _ =>
      match d.replayLog.getD slice [] with
      | [] => d
      | x :: t => if x = id then ({ d with replayLog := d.replayLog.set slice t } : Device).settle else d)

/-- Checkpoints from k up to the newest, oldest first (R309): 16 are kept, in a ring. -/
def Device.since (d : Device) (k : Nat) : List Checkpoint :=
  (List.range ((d.newest + 16 - k) % 16)).filterMap (fun i => d.checkpoints.find? ((k + i) % 16))
/-- What the slices have logged since checkpoint k. -/
def Device.logFrom (d : Device) (k : Nat) : Tab (List Nat) :=
  d.log.foldl (fun m p => m.set p.1 (m.getD p.1 [] ++ p.2))
    ((d.since k).foldl (fun m c => c.log.foldl (fun m p => m.set p.1 (m.getD p.1 [] ++ p.2)) m) [])
/-- The admissions since checkpoint k. -/
def Device.orderFrom (d : Device) (k : Nat) : List (Nat × Nat) := (d.since k).flatMap (fun c => c.order) ++ d.admitLog

/-- A die whose teams, tasks and passes are gone: its translations are forgotten, and it has no leave out. -/
def Die.emptied (d : Die) : Die := { d with tlb := [], walk := [], pending := [], asks := [], grants := [], inUse := 0 }

/-- A mangle as a replay takes it up (R309): its slots and latches hold what they held at the checkpoint, and nothing is under way:
a pass that was carries its latches again, and no access waits (log 117). -/
def Mangle.rested (m : Mangle) : Mangle :=
  { m with pass := false, asked := false, removing := none, loads := [],
           slots := m.slots.map (fun (p : Nat × MSlot) =>
             (p.1, { p.2 with held := [], latch := p.2.latch.map (fun l => { l with carried := false }) })) }

/-- Start a replay from a checkpoint (R309): memory and the mangles are restored, no team, task, copy or move is left nor any translation that was
cached, and the grids wait for readmission. -/
def State.startReplay (s : State) (k : Nat) : State :=
  match s.dev.checkpoints.find? k with
  | none => s
  | some c =>
    if s.dev.replay.isSome then s
    else
      let s : State := { s with
        mem := c.mem, grids := c.grids, mangles := c.mangles.map (fun p => (p.1, p.2.rested)),
        sectors := [], channels := [], acks := [], tasks := [], pubs := [], moves := [],
        slices := s.slices.map (fun (k : Nat × Slice) => (k.1, { k.2 with sync := [], spread := [] })),
        cores := s.cores.map (fun (p : Nat × Core) =>
          (p.1, { p.2 with slots := [], l1 := [], copies := [], copyWait := [], tags := [], waiters := [], matrix := none,
                           quarters := p.2.quarters.map (fun (q : Nat × Quarter) => (q.1, { q.2 with phys := [], folds := [], reserved := [] })),
                           fifos := [], blocks := [], switching := [], spilled := [], tlb := [], faults := [] })),
        pcores := s.pcores.map (fun (p : Nat × PCore) => (p.1, { p.2 with tlb := [], current := none, owed := 0, busy := [] })),
        hbmStacks := s.hbmStacks.map (fun (p : Nat × Stack) => (p.1, { p.2 with walk := [], faults := [] })),
        dies := s.dies.map (fun (p : Nat × Die) => (p.1, p.2.emptied)),
        dev := ({ s.dev with replay := some k, replayLog := s.dev.logFrom k, log := [], diverged := false, admitLog := [],
                             admitReplay := (s.dev.orderFrom k).filter (fun h => (c.grids.find? (h.1 / 2)).isSome) } : Device).settle }
      s.mangles.foldl (fun s m => s.beginPass m.1) s

/-- A queue pauses with an error (R267). A VF that owns it signals vector 0 (R297). -/
def State.queueErr (s : State) (q code : Nat) : State :=
  let s := s.onQueue q (fun x =>
    let c := x.ctl.toNat
    { x with ctl := BitVec.ofNat 64 (bits c 63 34 * 2 ^ 34 + 2 ^ 33 + bits c 32 32 * 2 ^ 32 + bits x.ptr.toNat 15 0 * 2 ^ 16 + code * 2 ^ 8) })
  let vfs := (s.fns.filter (fun (f : Nat × HostFn) => !f.2.pf && f.2.unmasked.contains 0 && f.2.queues.contains q)).map (fun f => (f.1, 0))
  s.onDev (fun d => { d with msix := d.msix ++ vfs })

/-- A TAIL write (R267). -/
def State.writeTail (s : State) (q tail : Nat) : State :=
  let x := s.queue q
  let head := bits x.ptr.toNat 15 0
  if 2 ^ bits x.ctl.toNat 39 36 < (tail % 65536 + 65536 - head) % 65536 then s.queueErr q 3
  else s.onQueue q (fun x => { x with ptr := BitVec.ofNat 64 (tail % 65536 * 2 ^ 32 + head) })

/-- Clearing ERR (R267). -/
def State.clearErr (s : State) (q : Nat) : State :=
  s.onQueue q (fun x => { x with ctl := x.ctl &&& ~~~ BitVec.ofNat 64 (2 ^ 33) })

/-- Write the bits of `mask` of a register. -/
def maskWrite (old val : W64) (mask : Nat) : W64 := (old &&& ~~~ BitVec.ofNat 64 mask) ||| (val &&& BitVec.ofNat 64 mask)

/-- A mask of bits hi to lo. -/
def span (hi lo : Nat) : Nat := (2 ^ (hi + 1 - lo) - 1) * 2 ^ lo

/-- A write of LQCTL (R266): ERR is cleared by writing 1, ERRIDX and ERRCODE stay. -/
def State.writeLqctl (s : State) (q : Nat) (v : W64) : State :=
  let s := s.onQueue q (fun x => { x with ctl := maskWrite x.ctl v (span 63 48 + span 39 34 + span 32 32) })
  if v.getLsbD 33 then s.clearErr q else s

/-- A write of MBXCTL (R299): CMD starts a command unless one runs. Before READY only ATTEST acts (R311), and in recovery nothing
does (R303).
RESULT keeps the last command's until this one ends (DESIGN CHOICE, log 112). -/
def State.writeMailbox (s : State) (v : W64) : State :=
  let cmd := bits v.toNat 15 0
  if s.dev.mbxCtl.getLsbD 63 || s.dev.devstat.getLsbD 4 then s
  else if !s.dev.devstat.getLsbD 0 && decide (cmd ≠ 0x10) then s
  else s.onDev (fun d => { d with mbxCtl := BitVec.ofNat 64 (2 ^ 63 + bits d.mbxCtl.toNat 47 32 * 2 ^ 32 + cmd), mailbox := some cmd })

/-- Doubleword k of MBXARG. -/
def Device.arg (d : Device) (k : Nat) : Nat := leNat ((List.range 8).map (fun i => d.mbxArg.getD (8 * k + i) 0))

/-- PDCE n (R439): IBREF above CE. -/
def pdceOf (k : PCore) : W64 := BitVec.ofNat 64 (k.refetches % 2 ^ 32 * 2 ^ 32 + k.pdce.toNat % 2 ^ 32)

/-- The value of the device register at an offset (R298). An offset that holds none, as every one off the 8-byte grid, reads 0. -/
def regRead (s : State) (off : Nat) : W64 :=
  let d := s.dev
  if off % 8 ≠ 0 then 0
  else if off = 0 then d.devstat
  else if off = 8 then d.dlid
  else if off = 0x10 then d.asidtb
  else if off = 0x18 then d.ckctl
  else if off = 0x28 then
    BitVec.ofNat 64 (b2n d.diverged * 2 ^ 63 + b2n d.replay.isSome * 2 ^ 62 + d.newest % 16 * 2 ^ 8 + d.checkpoints.length)
  else if off = 0x100 then d.mbxCtl
  else if 0x200 ≤ off ∧ off < 0x300 then BitVec.ofNat 64 (d.arg ((off - 0x200) / 8))
  else if 0x10000 ≤ off ∧ off < 0x10200 then
    let x := s.die ((off - 0x10000) / 0x100)
    match off % 0x100 with
    | 0 => x.svqBase
    | 8 => x.svqCtl
    | 16 => x.svqPtr
    | _ => 0
  else if 0x20000 ≤ off ∧ off < 0x22000 then
    let x := s.queue ((off - 0x20000) / 0x20)
    match off % 0x20 with
    | 0 => x.base
    | 8 => x.ctl
    | 16 => x.ptr
    | _ => 0
  else if 0x30000 ≤ off ∧ off < 0x30080 then d.dlpeer.getD ((off - 0x30000) / 8) 0
  else if 0x40000 ≤ off ∧ off < 0x42000 then d.dlrt.getD ((off - 0x40000) / 8) 0
  else if 0x100000 ≤ off ∧ off < 0x100040 then (s.stack ((off - 0x100000) / 8)).ce.setWidth 64
  else if 0x101000 ≤ off ∧ off < 0x102000 then pdceOf (s.pcore ((off - 0x101000) / 8))
  else 0

/-- A write of the device register at an offset (R298). One to an offset that holds none does nothing, nor does one to the mailbox
while a command runs (R299). -/
def regWrite (s : State) (off : Nat) (v : W64) : State :=
  if off % 8 ≠ 0 then s
  else if off = 0x10 then s.onDev (fun d => { d with asidtb := maskWrite d.asidtb v (span 51 20 + span 8 0) })
  else if off = 0x18 then
    s.onDev (fun d =>
      let t := bits v.toNat 9 0
      let t := if t = 0 ∨ 1000 < t then 1000 else t
      { d with ckctl := BitVec.ofNat 64 (bits v.toNat 63 63 * 2 ^ 63 + t) })
  else if off = 0x20 then s.startReplay (bits v.toNat 3 0)
  else if off = 0x28 then s.onDev (fun d => { d with diverged := d.diverged && !v.getLsbD 63 })
  else if off = 0x100 then s.writeMailbox v
  else if 0x200 ≤ off ∧ off < 0x300 then
    if s.dev.mbxCtl.getLsbD 63 then s
    else s.onDev (fun d => { d with mbxArg := (leBytes 8 v.toNat).zipIdx.foldl (fun t p => t.set (off - 0x200 + p.2) p.1) d.mbxArg })
  else if 0x10000 ≤ off ∧ off < 0x10200 then
    s.onDie ((off - 0x10000) / 0x100) (fun x =>
      match off % 0x100 with
      | 0 => { x with svqBase := maskWrite x.svqBase v (span 56 5) }
      | 8 =>
        let c := maskWrite x.svqCtl v (span 5 0)
        { x with svqCtl := c &&& ~~~ (v &&& BitVec.ofNat 64 (span 63 32)) }
      | 16 => { x with svqPtr := maskWrite x.svqPtr v (span 47 32) }
      | _ => x)
  else if 0x20000 ≤ off ∧ off < 0x22000 then
    let q := (off - 0x20000) / 0x20
    match off % 0x20 with
    | 0 => s.onQueue q (fun x => { x with base := maskWrite x.base v (span 56 7) })
    | 8 => s.writeLqctl q v
    | 16 => s.writeTail q (bits v.toNat 47 32)
    | _ => s
  else if 0x30000 ≤ off ∧ off < 0x30080 then s.onDev (fun d => { d with dlpeer := d.dlpeer.set ((off - 0x30000) / 8) v })
  else if 0x40000 ≤ off ∧ off < 0x42000 then s.onDev (fun d => { d with dlrt := d.dlrt.set ((off - 0x40000) / 8) v })
  else if 0x100000 ≤ off ∧ off < 0x100040 then s.onStack ((off - 0x100000) / 8) (fun x => { x with ce := v.setWidth 32 })
  else if 0x101000 ≤ off ∧ off < 0x102000 then s.onPCore ((off - 0x101000) / 8) (fun x => { x with pdce := (v.setWidth 32).setWidth 64, refetches := bits v.toNat 63 32 })
  else s

end Sys2Proof.Machine
end

