-- ==== Sys2Proof/Machine/Names.lean ====
section
/-! DEFINITION. The physical vector registers of a quarter: the content hash, naming at retire, releasing, the context switch
(R166 to R170), and the fold table (R171 to R176). -/

namespace Sys2Proof.Machine

/-- The content hash of a value (R166). -/
def hash48 (x : VReg) : Nat :=
  (List.range 32).foldl (fun h i =>
    ((h * 2 ^ 7 + h / 2 ^ 41) % 2 ^ 48) ^^^ ((laneOf x i).toNat * 0x9E3779B9 % 2 ^ 48)) 0

/-- Count an event of a quarter (R176): 0 NAMESHARE, 1 NAMECOLL, 2 NAMEFULL, 3 REFSAT, 4 FOLDHIT, 5 FOLDMISS. -/
def Quarter.count (q : Quarter) (e : Nat) : Quarter := { q with events := q.events.set e (q.events.getD e 0 + 1) }

/-- A fold entry names a register. -/
def FoldEntry.mentions (e : FoldEntry) (r : Nat) : Bool := e.names.contains r || e.key.names.contains r || e.key.prior.contains r

/-- Release one naming of a register (R168). -/
def Quarter.release (q : Quarter) (r : Nat) : Quarter :=
  match q.phys.find? r with
  | none => q
  | some p =>
    if p.pinned then q
    else if p.count ≤ 1 then { q with phys := q.phys.erase r, folds := q.folds.filter (fun e => !e.mentions r) }
    else { q with phys := q.phys.set r { p with count := p.count - 1 } }

/-- The lowest free physical register of p1 to p1535. -/
def Quarter.freeReg (q : Quarter) : Nat :=
  ((List.range 1535).find? (fun i => !q.phys.any (fun p => p.1 % 1536 = i + 1))).getD 0 + 1

/-- Take a free register for a value, under a name that nothing has had: which free register it is stays open, so the spin
detector (R259) never takes a register that was freed and taken again for the same name (log 119). -/
def Quarter.takeReg (q : Quarter) (asid : Nat) (x : VReg) (entry : Option (Nat × Nat × Nat)) : Nat × Quarter :=
  let r := q.freeReg + 1536 * q.taken
  (r, { q with phys := q.phys.set r { value := x, count := 1, entry := entry, asid := asid, pinned := false }, taken := q.taken + 1 })

/-- Registers pinned on the quarter: 31 at most (R168). -/
def Quarter.pins (q : Quarter) : Nat := (q.phys.filter (fun p => p.2.pinned)).length

/-- One more naming of a register (R168): none where it would saturate and 31 are pinned. -/
def Quarter.share (q : Quarter) (r : Nat) : Option Quarter :=
  match q.phys.find? r with
  | none => some q
  | some p =>
    if p.count = 255 then some q
    else if p.count = 254 then
      if q.pins < 31 then some (({ q with phys := q.phys.set r { p with count := 255, pinned := true } }).count 3) else none
    else some { q with phys := q.phys.set r { p with count := p.count + 1 } }

/-- Name a value in place of a prior name, which is released at the same moment (R167, R168). A new register is taken after the
release, so that there is always room (R170). A result equal to the value that the destination names already leaves its count
as it is, and saturates nothing (log 120). -/
def Quarter.name (q : Quarter) (asid : Nat) (x : VReg) (prior : Nat) : Nat × Quarter :=
  if x = 0 then (0, q.release prior)
  else
    let h := hash48 x
    let ways := q.phys.filter (fun p => match p.2.entry with
      | some (a, k, _) => a = asid && k = h
      | none => false)
    match ways.find? (fun p => p.2.value = x) with
    | some (r, _) =>
      if r = prior then (r, q.count 0)
      else
        match q.share r with
        | some q => (r, (q.count 0).release prior)
        | none => (q.release prior).takeReg asid x none
    | none =>
      let used := ways.filterMap (fun p => p.2.entry.map (fun e => e.2.2))
      match (List.range 4).find? (fun w => !used.contains w) with
      | some w =>
        let (r, q) := (q.release prior).takeReg asid x (some (asid, h, w))
        (r, if ways.isEmpty then q else q.count 1)
      | none =>
        let (r, q) := (q.release prior).takeReg asid x none
        (r, q.count 2)

/-- The names of a fold entry in place of prior names (R168, R173): each is counted before any prior one is released, and a name
that would saturate where 31 are pinned gets a fresh register. -/
def Quarter.refold (q : Quarter) (asid : Nat) (names : List (Nat × VReg)) (priors : List Nat) : List Nat × Quarter :=
  let (got, q) := names.foldl (fun (p : List (Option Nat × VReg) × Quarter) n =>
    match p.2.share n.1 with
    | some q => (p.1 ++ [(some n.1, n.2)], q)
    | none => (p.1 ++ [(none, n.2)], p.2)) ([], q)
  let q := priors.foldl Quarter.release q
  got.foldl (fun p n =>
    match n.1 with
    | some r => (p.1 ++ [r], p.2)
    | none =>
      let (r, q) := p.2.takeReg asid n.2 none
      (p.1 ++ [r], q)) ([], q)

/-- The physical register that a V register of a group names. -/
def Group.nameOf (g : Group) (r : Nat) : Nat := g.names.getD r 0

/-- Write a V register of a group whole, naming the result (R167). -/
def State.writeV (s : State) (c slot g : Nat) (r : Nat) (x : VReg) : State :=
  match s.team? c slot, s.group? c slot g with
  | some t, some grp =>
    let (n, q) := ((s.core c).quarter grp.quarter).name t.asid x (grp.nameOf r)
    (s.onQuarter c grp.quarter (fun _ => q)).onGroup c slot g (fun grp =>
      { grp with v := grp.v.set r x, names := grp.names.set r n })
  | _, _ => s

/-- A fold hit gives V registers from r upward the entry's names and values (R173). -/
def State.foldNames (s : State) (c slot g r : Nat) (e : FoldEntry) : State :=
  match s.team? c slot, s.group? c slot g with
  | some t, some grp =>
    let (ns, q) := ((s.core c).quarter grp.quarter).refold t.asid (e.names.zip e.vals)
      ((List.range e.names.length).map (fun i => grp.nameOf (r + i)))
    (s.onQuarter c grp.quarter (fun _ => q)).onGroup c slot g (fun grp =>
      { grp with v := e.vals.zipIdx.foldl (fun v p => v.set (r + p.2) p.1) grp.v,
                 names := ns.zipIdx.foldl (fun m p => m.set (r + p.2) p.1) grp.names })
  | _, _ => s

/-- Write the lanes of a mask of a V register (R167): the others are merged from the prior value. -/
def State.writeLanes (s : State) (c slot g : Nat) (m : LaneSet) (r : Nat) (x : VReg) : State :=
  match s.group? c slot g with
  | some grp => s.writeV c slot g r (mergeLanes m x (grp.vreg r))
  | none => s

/-- The register names of a group are released when it leaves its quarter. -/
def State.dropNames (s : State) (c slot g : Nat) : State :=
  match s.group? c slot g with
  | none => s
  | some grp =>
    s.onQuarter c grp.quarter (fun q => grp.names.foldl (fun q p => q.release p.2) q)

/-- The context switch of a quarter for an ASID (R169), when no group of that ASID is left on it. -/
def State.contextSwitch (s : State) (c quarter asid : Nat) : State :=
  let left := (s.core c).slots.any (fun t => t.2.asid = asid && t.2.groups.any (fun g => g.2.quarter = quarter))
  if left then s
  else s.onQuarter c quarter (fun q =>
    { q with phys := (q.phys.filter (fun p => !(p.2.asid = asid && p.2.pinned))).map (fun p =>
               (p.1, if p.2.asid = asid then { p.2 with entry := none } else p.2)),
             folds := q.folds.filter (fun e => e.key.asid ≠ asid) })

/-- The entry of a key, moved to the front (R174). -/
def Quarter.lookup (q : Quarter) (k : FoldKey) : Option (FoldEntry × Quarter) :=
  (takeFirst (fun (e : FoldEntry) => decide (e.key = k)) q.folds).map (fun r => (r.1, { q with folds := r.1 :: r.2 }))

/-- Every register that the entry's key names still holds what it held (R168). -/
def Quarter.live (q : Quarter) (k : FoldKey) : Bool := (k.names ++ k.prior).all (fun r => r = 0 || (q.phys.find? r).isSome)

/-- Enter a key (R174): at most 256 entries are held, the least recently used giving way. A key that names a register which
has been freed makes no entry (R168). -/
def Quarter.enter (q : Quarter) (e : FoldEntry) : Quarter :=
  if q.live e.key then { q with folds := e :: (q.folds.filter (fun f => f.key ≠ e.key)).take 255 } else q

end Sys2Proof.Machine
end

