-- ==== Sys2Proof/Machine/Flow.lean ====
section
/-! DEFINITION. How a path moves on: past an instruction, to a target, out of a clause (R243, R245, R260), with the leave that
a matrix clause gives back (R273). -/

namespace Sys2Proof.Machine

/-- Give back granted leave (R273): the grant leaves the list and INUSE falls by its weight. -/
def State.giveBack (s : State) (die : Nat) (p : LeaveAsk → Option Nat) : State :=
  s.onDie die (fun d =>
    let gone := d.grants.filterMap p
    { d with grants := d.grants.filter (fun a => (p a).isNone), inUse := d.inUse - gone.foldl (· + ·) 0 })

/-- Requests that have not been granted are withdrawn. -/
def State.withdraw (s : State) (die : Nat) (p : LeaveAsk → Option Nat) : State :=
  s.onDie die (fun d => { d with asks := d.asks.filter (fun a => (p a).isNone) })

/-- The clause leave of one path. -/
def clauseLeave (a : Site) : LeaveAsk → Option Nat
  | .clause c sl g p w => if c = a.core ∧ sl = a.slot ∧ g = a.group ∧ p = a.path then some w else none
  | _ => none

/-- The LEAVE request or grant of a group (R424). -/
def hintLeave (a : Site) : LeaveAsk → Option Nat
  | .hint c sl g _ w => if c = a.core ∧ sl = a.slot ∧ g = a.group then some w else none
  | _ => none

/-- The grant that stays with the matrix unit of a core after its clause (R273). -/
def unitLeave (core : Nat) : LeaveAsk → Option Nat
  | .unit c w => if c = core then some w else none
  | _ => none

/-- A path retires a clause (R260): marks of the group's other paths clear. -/
def State.retireClause (s : State) (a : Site) : State :=
  s.onGroup a.core a.slot a.group (fun g =>
    { g with paths := g.paths.map (fun p =>
        if p.1 = a.path then p else (p.1, match p.2.spin.mark with
          | some _ => { p.2 with spin := p.2.spin.cleared }
          | none => p.2)) })

/-- The leave of a clause is given back, unless a matrix operation of it is in the unit still: then the grant stays until that
one has come to its end or to a stop (R273). -/
def State.leaveClause (s : State) (a : Site) : State :=
  let busy : Bool := match (s.core a.core).matrix with
    | some m => decide (m.slot = a.slot) && decide (m.group = a.group) &&
        decide (((s.group? a.core a.slot a.group).bind (fun g => g.ops.find? m.op)).map (fun o => o.path) = some a.path)
    | none => false
  if busy then
    s.onDie (dieOf a.core) (fun d => { d with grants := d.grants.map (fun x => match clauseLeave a x with
      | some w => .unit a.core w
      | none => x) })
  else s.giveBack (dieOf a.core) (clauseLeave a)

/-- The clause of a path has ended (R260, R273). `retired` is false where its last instruction is still under way: the clause
retires with it. -/
def State.endClause (s : State) (a : Site) (retired : Bool := true) : State :=
  (if retired then s.retireClause a else s).leaveClause a

/-- Forget what belongs to the instruction that has just issued. -/
def Path.issued (p : Path) (rest : List W64) : Path :=
  { p with words := rest, fresh := false, wait := .none, waitc := none, stall := none,
           la := if rest.isEmpty then [] else p.la.map (fun l => (l.1, l.2 - 1)),
           laCopies := if rest.isEmpty then [] else p.laCopies.map (fun l => (l.1, l.2 - 1)) }

/-- The path steps past its instruction (R243), which may still be under way. -/
def State.stepPast (s : State) (a : Site) (retired : Bool) : State :=
  match (s.group? a.core a.slot a.group).bind (fun g => g.paths.find? a.path) with
  | none => s
  | some p =>
    let rest := p.words.drop 1
    let s := s.onPath a (fun p => { p.issued rest with pc := p.pc + 8 })
    if rest.isEmpty then s.endClause a retired else s

/-- The path steps past an instruction that has retired (R243). -/
def State.advance (s : State) (a : Site) : State := s.stepPast a true

/-- The path goes on at the header of another clause (R245). -/
def State.goto (s : State) (a : Site) (target : PcVal) : State :=
  (s.onPath a (fun p => { p.issued [] with pc := target })).endClause a

/-- A trip of the spin detector counts as changed (R259). -/
def State.changed (s : State) (a : Site) : State := s.onPath a (fun p => { p with spin := { p.spin with changed := true } })

/-- The path's next issue waits, charged a reason (R274). -/
def State.stallOn (s : State) (a : Site) (reason : Nat) : State := s.onPath a (fun p => { p with stall := some reason })

/-- A trap waits for its entry (R276). -/
def State.pend (s : State) (a : Site) (t : TrapReq) : State := s.onPath a (fun p => { p with pend := some t })

/-- A trap is taken at a next clause header of the group (R276). -/
def State.trapLater (s : State) (c slot g : Nat) (t : TrapReq) : State :=
  s.onGroup c slot g (fun x => { x with late := x.late ++ [t] })

end Sys2Proof.Machine
end

