-- ==== Sys2Proof/Machine/Barrier.lean ====
section
/-! DEFINITION. Barrier objects (R139 to R144): their fields, the events of R140, the completion check, tags, and waking the
paths that wait; and scratchpad bytes, whose stores orphan tags. -/

namespace Sys2Proof.Machine

/-- Bytes of a team's allocation from an offset (R152: zero where nothing has been stored). -/
def Team.bytesAt (t : Team) (off n : Nat) : List Byte := (List.range n).map (fun i => t.scratch.getD (off + i) 0)
/-- The barrier object at an offset, as 128 bits (R139). -/
def Team.object (t : Team) (off : Nat) : Nat := leNat (t.bytesAt off 16)
/-- Write bytes of an allocation. A zero byte is not listed. -/
def Team.putBytes (t : Team) (off : Nat) (bs : List Byte) : Team :=
  { t with scratch := bs.zipIdx.foldl (fun m p => m.put 0 (off + p.2) p.1) t.scratch }

/-- Replace bits hi to lo of a number. -/
def setBits (x hi lo v : Nat) : Nat := x - bits x hi lo * 2 ^ lo + v % 2 ^ (hi + 1 - lo) * 2 ^ lo

/-- Write an object. -/
def State.setObject (s : State) (core slot off x : Nat) : State :=
  s.onTeam core slot (fun t => t.putBytes off (leBytes 16 x))
/-- Read an object. -/
def State.object (s : State) (core slot off : Nat) : Nat := ((s.team? core slot).map (fun t => t.object off)).getD 0

/-- Orphan every tag on the objects that the bytes off to off + n − 1 touch (R143). -/
def State.orphan (s : State) (core slot off n : Nat) : State :=
  s.onCore core (fun k =>
    { k with tags := k.tags.map (fun (p : Nat × Tag) =>
        if p.2.slot = slot && decide (p.2.off < off + n) && decide (off < p.2.off + 16) then (p.1, { p.2 with orphan := true })
        else p) })

/-- Wake one waiter (R140, R142, R144). `err` is the invalidation of the object. -/
def State.wakeOne (s : State) (w : BarWaiter) (err : Bool) : State :=
  let s := if err then
      s.onGroup w.site.core w.site.slot w.site.group (fun g => g.setS w.reg (g.sreg w.reg ||| 0x80000000))
    else s
  match (s.group? w.site.core w.site.slot w.site.group).bind (fun g => g.paths.find? w.site.path) with
  | none => s
  | some p =>
    match p.wait with
    | .barrier _ _ _ _ _ (some cont) => s.goto w.site cont
    | _ => s.advance w.site

/-- Wake the waiters for which `p` holds. -/
def State.wakeWhere (s : State) (core : Nat) (p : BarWaiter → Bool) (err : Bool) : State :=
  let ws := (s.core core).waiters
  let s := s.onCore core (fun k => { k with waiters := k.waiters.filter (fun w => !p w) })
  (ws.filter p).foldl (fun s w => s.wakeOne w err) s

/-- The completion check (R141): it releases the waiters on the completed generation. One whose object has been given another
generation in the meantime, by BARINIT or by an ordinary store, waits on until its own completes (R142; log 118). -/
def State.checkPhase (s : State) (core slot off : Nat) : State :=
  let x := s.object core slot off
  if bit x 4 && bits x 31 20 = 0 && bits x 63 32 = 0 && bits x 95 64 = 0 then
    let gen := bits x 3 0
    let yw := bit x 6
    let x1 := setBits (setBits (setBits x 3 0 (gen + 1)) 31 20 (bits x 19 8)) 6 6 0
    (s.setObject core slot off x1).wakeWhere core
      (fun w => w.slot = slot && w.off = off && w.gen = gen && (!w.yield || yw)) false
  else s

/-- BARINIT (R140). -/
def State.barInit (s : State) (core slot off e : Nat) : State :=
  (s.setObject core slot off (2 ^ 4 + e * 2 ^ 8 + e * 2 ^ 20)).orphan core slot off 16

/-- BARINV (R140): the object is invalid, and every waiter resumes. -/
def State.barInv (s : State) (core slot off : Nat) : State :=
  ((s.setObject core slot off (setBits (s.object core slot off) 4 4 0)).orphan core slot off 16).wakeWhere core
    (fun w => w.slot = slot && w.off = off) true

/-- BARARR of n (R140): the GEN that was in the object, or none where it fails. -/
def State.barArr (s : State) (core slot off n : Nat) : Option Nat × State :=
  let x := s.object core slot off
  if bit x 4 && decide (n ≤ bits x 31 20) && decide (n ≠ 0) then
    (some (bits x 3 0), (s.setObject core slot off (setBits x 31 20 (bits x 31 20 - n))).checkPhase core slot off)
  else (none, if bit x 4 && decide (n ≠ 0) then s.setObject core slot off (setBits x 5 5 1) else s)

/-- ERR of an object is set (R20, R138). -/
def State.barErr (s : State) (core slot off : Nat) : State :=
  s.setObject core slot off (setBits (s.object core slot off) 5 5 1)

/-- Room for a charge (R140): V is 1 and the counter does not pass its width. -/
def State.canCharge (s : State) (core slot off units : Nat) (inb : Bool) : Bool :=
  let x := s.object core slot off
  bit x 4 && decide ((if inb then bits x 63 32 else bits x 95 64) + units ≤ 0xFFFFFFFF)

/-- Charge an object and take a tag (R140, R143). -/
def State.charge (s : State) (core slot off units : Nat) (inb : Bool) : Nat × State :=
  let x := s.object core slot off
  let x1 := if inb then setBits x 63 32 (bits x 63 32 + units) else setBits x 95 64 (bits x 95 64 + units)
  let k := s.core core
  let t : Tag := { slot := slot, off := off, gen := bits x 3 0, inb := inb, orphan := false }
  (k.nextTag, (s.setObject core slot off x1).onCore core (fun k =>
    { k with tags := k.tags.set k.nextTag t, nextTag := k.nextTag + 1 }))

/-- An engine arrival of u units (R140, R143): true where it was discarded as stale. -/
def State.arrive (s : State) (core tag u : Nat) : Bool × State :=
  match (s.core core).tags.find? tag with
  | none => (true, s)
  | some t =>
    let x := s.object core t.slot t.off
    if !t.orphan && bit x 4 && bits x 3 0 = t.gen then
      let x1 := if t.inb then setBits x 63 32 (bits x 63 32 - u) else setBits x 95 64 (bits x 95 64 - u)
      (false, (s.setObject core t.slot t.off x1).checkPhase core t.slot t.off)
    else
      let n := bits x 111 96 + u
      (true, s.setObject core t.slot t.off (setBits x 111 96 (if 0xFFFF < n then 0xFFFF else n)))

/-- A write to scratchpad bytes that every later step of a matrix operation in progress sees (R210). -/
def MatOp.seen (m : MatOp) (bs : Tab Byte) : MatOp :=
  (dedup (bs.map (fun p => p.1 / 16))).foldl (fun m c =>
    if (m.base.find? c).isNone then m
    else { m with late := m.late ++ [{ chunk := c, store := none, bytes := bs.filter (fun p => p.1 / 16 = c) }] }) m

/-- The matrix operation of a core, where it is a team's. -/
def State.onMatrix (s : State) (core slot : Nat) (f : MatOp → MatOp) : State :=
  match (s.core core).matrix with
  | some m => if m.slot = slot then s.onCore core (fun k => { k with matrix := some (f m) }) else s
  | none => s

/-- Scratchpad bytes are written (R153, R22, R160); `bad` lists the words that carry poison (R20). A word stored whole loses its
poison, a poisoned word stored in part keeps it, and tags are orphaned. A store of the team's own or of an engine clears the
marks of paths that recorded a range it touches (R436). -/
def State.padWrite (s : State) (core slot : Nat) (bs : Tab Byte) (bad : List Nat) (own : Bool) : State :=
  let words := dedup (bs.map (fun p => p.1 / 32))
  let s := s.onTeam core slot (fun t =>
    let t1 := { t with scratch := bs.foldl (fun m p => m.put 0 p.1 p.2) t.scratch }
    words.foldl (fun t w =>
      let full := decide ((bs.filter (fun p => p.1 / 32 = w)).length = 32)
      if bad.contains w then { t with scratchPois := w :: t.scratchPois.filter (fun q => q ≠ w) }
      else if full then { t with scratchPois := t.scratchPois.filter (fun q => q ≠ w) }
      else t) t1)
  let s := if own then (dedup (bs.map (fun p => scratchLine core slot p.1))).foldl (fun s l => s.clearSpins core l) s else s
  (dedup (bs.map (fun p => p.1 / 16))).foldl (fun s o => s.orphan core slot (16 * o) 16) s

/-- A store to scratchpad bytes performs, which a matrix operation in progress sees from its next step on (R210). -/
def State.scratchStore (s : State) (core slot : Nat) (bs : Tab Byte) (bad : List Nat) (own : Bool) : State :=
  (s.onMatrix core slot (fun m => m.seen bs)).padWrite core slot bs bad own

end Sys2Proof.Machine
end

