-- ==== Sys2Proof/Machine/Team.lean ====
section
/-! DEFINITION. How things end: paddock tasks with their error records (R40, R49), groups (R241, R169), teams and their slots
(R152, R157, R224, R294), and machine checks (R289). -/

namespace Sys2Proof.Machine

/-- A task counts against the 16 of its paddock core (R44). -/
def Task.resident (t : Task) : Bool :=
  match t.st with
  | .admitted => true
  | .running => true
  | .saved => true
  | .parked => true
  | .parkedLoad => true
  | _ => false

/-- A task has not ended. -/
def Task.alive (t : Task) : Bool :=
  match t.st with
  | .waiting => true
  | .parkedPin => true
  | _ => t.resident

/-- The agent of a paddock task (R279, R440). -/
def Task.who (t : Task) : Who :=
  { agent := 2, die := dieOfStack (t.pcore / 64), core := t.pcore % 256, slot := if t.pgo then t.site.slot else 0,
    group := if t.pgo then t.site.group else 0, id := t.pcore / 256 }

/-- A paddock error record (R49): KIND and the task's fields. -/
def Task.record (t : Task) (kind slot zreg : Nat) : Nat :=
  2 ^ 127 + kind * 2 ^ 123 + t.pcore * 2 ^ 114 + slot * 2 ^ 105 + zreg * 2 ^ 103 + t.asid % 65536 * 2 ^ 80
    + (if t.pgo then 0 else t.t % 65536) * 2 ^ 64 + b2n t.pgo * 2 ^ 32 + t.regs.ord % 2 ^ 32

/-- A paddock core that holds no admitted task gives back its leave (R273). -/
def State.idleCore (s : State) (p : Nat) : State :=
  if s.tasks.any (fun t => t.2.resident && t.2.pcore = p) then s
  else
    let die := dieOfStack (p / 64)
    let mine : LeaveAsk → Option Nat := fun a => match a with
      | .paddock q => if q = p then some 1 else none
      | _ => none
    (s.giveBack die mine).withdraw die mine

/-- A task leaves its core. -/
def State.leaveCore (s : State) (n : Nat) (t : Task) : State :=
  (s.onPCore t.pcore (fun k => { k with current := if k.current = some n then none else k.current })).idleCore t.pcore

/-- A task ends (R40): 0 normal by PHALT, 1 by PRET. -/
def State.endNormal (s : State) (n : Nat) (pret : Bool) : State :=
  match s.tasks.find? n with
  | none => s
  | some t =>
    let st : TaskSt := if t.pgo then .returning (if pret then 0 else 1) else .ending 0
    let s := { s with tasks := s.tasks.set n { t with st := st } }
    if t.resident then s.leaveCore n t else s

/-- A task ends with an error end of a kind (R40, R49). A task that never reached a paddock core has CORE, SLOT and ORD zero in its
record, which goes to the channel of the launching group's die: so R49 says of BADPIN, and the model does so for FORCED too, with
PGO as it is (log 95). -/
def State.endError (s : State) (n kind zreg : Nat) : State :=
  match s.tasks.find? n with
  | none => s
  | some t =>
    let st : TaskSt := if t.pgo then .returning 2 else .ending 1
    let s := { s with tasks := s.tasks.set n { t with st := st, got := [], sent := false, flight := none } }
    let s := if t.resident then s.leaveCore n t else s
    if t.resident then
      let r := t.record kind (t.regs.pc % 512) zreg
      s.svRecord t.who.die 1 t.who (r % 2 ^ 64) (r / 2 ^ 64)
    else
      let z : Task := { t with pcore := 0, pgo := t.pgo && decide (kind ≠ 5), regs := PadRegs.init }
      let r := z.record kind 0 0
      let w : Who := { agent := 2, die := dieOf t.site.core, core := 0, slot := if t.pgo then t.site.slot else 0,
                       group := if t.pgo then t.site.group else 0, id := 0 }
      s.svRecord w.die 1 w (r % 2 ^ 64) (r / 2 ^ 64)

/-- No bundle of the task is under way, and no load of its words: it stands at a bundle boundary (R45, R47). -/
def Task.between (t : Task) : Bool := t.flight.isNone && t.got.isEmpty && !t.sent

/-- A task ends with an error end of kind FORCED (R293): at once where it has not been admitted or stands at a bundle boundary,
else at its next boundary. -/
def State.endForced (s : State) (n : Nat) : State :=
  match s.tasks.find? n with
  | none => s
  | some t => if t.resident && !t.between then s.onTask n (fun t => { t with forced := true }) else s.endError n 6 0

/-- Bytes of a core's SRAM that the allocations of its teams take (R152). -/
def Core.allocs (k : Core) : List (Nat × Nat) :=
  (k.slots.filter (fun t => t.2.scratchSize ≠ 0)).map (fun t => (t.2.scratchBase, t.2.scratchSize))

/-- From a block down: the highest SCRATCH blocks without an allocation return to CACHE (R152). -/
def Core.shrinkFrom (k : Core) : Nat → Core
  | 0 => k
  | b + 1 =>
    if k.block b = .scratch then
      if k.allocs.any (fun a => decide (a.1 < (b + 1) * 0xC000) && decide (b * 0xC000 < a.1 + a.2)) then k
      else Core.shrinkFrom { k with blocks := k.blocks.erase b } b
    else Core.shrinkFrom k b

/-- The check of R152 when an allocation is freed. While a block is on its way to SCRATCH the highest SCRATCH block is not next
to a CACHE block, so the check waits for that one (R148; log 94). -/
def Core.shrink (k : Core) : Core :=
  if k.switching.any (fun w => !w.2.toFifo) then { k with shrinkDue := true } else { k.shrinkFrom 16 with shrinkDue := false }

/-- FIFO blocks without a queue return to CACHE, each as soon as the block below it is a CACHE block: the FIFO blocks are always
the highest ones (R148, R157; log 94). -/
def Core.fifoShrink (k : Core) : Core :=
  (List.range 16).foldl (fun k b =>
    let below := if b = 0 then BlockMode.scratch else k.block (b - 1)
    let intoFifo := match k.switching.find? (b - 1) with | some w => w.toFifo | none => false
    if k.block b = .fifo && (k.fifos.find? b).isNone && decide (below ≠ .fifo) && !intoFifo then { k with blocks := k.blocks.erase b }
    else k) k

/-- The team of a slot is gone: nothing of a pin's age concerns it any more (R112). -/
def Sector.forget (x : Sector) (core slot : Nat) : Sector :=
  { x with pin := x.pin.map (fun p => if p.1 = core then (p.1, p.2.1, p.2.2.1, p.2.2.2.filter (fun q => q.1 ≠ slot)) else p) }

/-- A team's operation in the matrix unit is gone, and its leave with it (R273). -/
def State.leaveUnit (s : State) (c slot : Nat) : State :=
  match (s.core c).matrix with
  | some m => if m.slot = slot then (s.giveBack (dieOf c) (unitLeave c)).onCore c (fun k => { k with matrix := none }) else s
  | none => s

/-- The barrier waits of a team's paths end, on whichever core the object lies. -/
def State.unwait (s : State) (c slot : Nat) : State :=
  { s with cores := s.cores.map (fun (k : Nat × Core) =>
      (k.1, { k.2 with waiters := k.2.waiters.filter (fun (w : BarWaiter) => !(w.site.core = c && w.site.slot = slot)) })) }

/-- Nothing is left of what a team's paths wait for on their core, or on another core of the cluster. -/
def State.forget (s : State) (c slot : Nat) : State :=
  (s.unwait c slot).onCore c (fun k =>
    { k with fifos := k.fifos.map (fun f => (f.1, { f.2 with waiting := f.2.waiting.filter (fun w => w.site.slot ≠ slot) })),
             switching := k.switching.map (fun (w : Nat × Switching) =>
               (w.1, { w.2 with asker := w.2.asker.filter (fun q => q.1.slot ≠ slot) })),
             copyWait := k.copyWait.filter (fun (w : Site × PcVal) => w.1.slot ≠ slot) })

/-- A team's slot is given up (R157, R224, R294): pins end, FIFO blocks and the allocation are freed, and so is the leave of its
operation in the matrix unit (R273). -/
def State.freeSlot (s : State) (c slot : Nat) : State :=
  let s := (s.unpinTeam c slot 0).leaveUnit c slot
  let s := s.dropPrivate c slot (fun _ => true)
  let s := { s with sectors := s.sectors.map (fun (x : Nat × Sector) => (x.1, x.2.forget c slot)) }
  (s.forget c slot).onCore c (fun k =>
    let k := { k with slots := k.slots.erase slot,
                      fifos := k.fifos.filter (fun (f : Nat × Fifo) => f.2.owner ≠ slot),
                      tags := k.tags.map (fun (p : Nat × Tag) => if p.2.slot = slot then (p.1, { p.2 with orphan := true }) else p) }
    k.fifoShrink.shrink)

/-- The slot that stands for no team's. -/
def noSlot : Nat := 1000

/-- A team has ended: its grid counts it (R241, R265). -/
def State.countTeam (s : State) (grid core : Nat) (forced : Bool) : State :=
  s.onGrid grid (fun g => { g with teamsLeft := g.teamsLeft - 1, lastCore := core, forced := g.forced || forced })

/-- A group leaves its quarter: its register names are released, and so is what it holds of the governor (R169, R424). -/
def State.groupLeaves (s : State) (c slot g : Nat) : State :=
  match s.team? c slot, s.group? c slot g with
  | some t, some grp =>
    let s := s.dropNames c slot g
    let a : Site := { core := c, slot := slot, group := g, path := 0 }
    let s := (s.giveBack (dieOf c) (hintLeave a)).withdraw (dieOf c) (hintLeave a)
    let all : LeaveAsk → Option Nat := fun x => match x with
      | .clause c' sl g' _ w => if c' = c ∧ sl = slot ∧ g' = g then some w else none
      | _ => none
    let s := (s.giveBack (dieOf c) all).withdraw (dieOf c) all
    let s := s.onTeam c slot (fun t => { t with groups := t.groups.erase g })
    s.contextSwitch c grp.quarter t.asid
  | _, _ => s

/-- A team's groups may retire and the team end: while it runs, and while it comes to its safe points (R241, R292). -/
def Team.mayEnd (t : Team) : Bool := match t.run with
  | .running => true
  | .stopping _ _ => true
  | _ => false

/-- Copies of a team are in flight, or lines that it has published are not acknowledged yet (R119, R128). -/
def State.underWay (s : State) (c slot : Nat) : Bool :=
  (s.core c).copies.any (fun o => o.2.slot = slot) || s.pubs.any (fun p => p.2.core = c && p.2.slot = slot)

/-- Retire a group whose lanes have all exited, which nothing holds (R289), and whose accesses have settled, and end its team after the last one (R241). -/
def State.reap (s : State) (c slot g : Nat) : State :=
  match s.team? c slot, s.group? c slot g with
  | some t, some grp =>
    if grp.paths.isEmpty && grp.ops.isEmpty && grp.pgo.isNone && grp.hold.isNone && t.mayEnd then
      let s := s.groupLeaves c slot g
      match s.team? c slot with
      | some t =>
        if t.groups.isEmpty && !s.underWay c slot then
          (s.freeSlot c slot).countTeam t.grid c false
        else s
      | none => s
    else s
  | _, _ => s

/-- A team whose groups have all retired ends when its last copy has completed and its last published line has performed. -/
def State.reapTeam (s : State) (c slot : Nat) : State :=
  match s.team? c slot with
  | some t =>
    if t.groups.isEmpty && t.mayEnd && !s.underWay c slot then
      (s.freeSlot c slot).countTeam t.grid c false
    else s
  | none => s

/-- A part of a work ends. A published range whose lines have all been acknowledged is done, and its team may end (R119, R241). -/
def State.endPart (s : State) (w : Nat) : State :=
  let s := s.endWork w
  match List.find? (fun (p : Nat × Pub) => p.2.work = w) s.pubs with
  | some (n, p) => if s.workDone w then ({ s with pubs := s.pubs.erase n }).reapTeam p.core p.slot else s
  | none => s

/-- Every group of a team that has nothing left to do retires. -/
def State.reapAll (s : State) (c slot : Nat) : State :=
  match s.team? c slot with
  | some t => (t.groups.map (fun g => g.1)).foldl (fun s g => s.reap c slot g) s
  | none => s

/-- What the retirement of an operation means to the spin detectors (R259, R260): an atomic is a change of its path's trip, and
the last instruction of a clause retires the clause. -/
def State.opRetires (s : State) (c slot g op : Nat) : State :=
  match (s.group? c slot g).bind (fun x => x.ops.find? op) with
  | none => s
  | some o =>
    let a : Site := { core := c, slot := slot, group := g, path := o.path }
    let s := match o.kind with
      | .atomic _ _ => s.onPath a (fun p => { p with spin := { p.spin with changed := true } })
      | _ => s
    if o.closes then s.retireClause a else s

/-- An operation of a group has ended. -/
def State.dropOp (s : State) (c slot g op : Nat) : State :=
  ((s.opRetires c slot g op).onGroup c slot g (fun x =>
    { x with ops := x.ops.erase op,
             paths := x.paths.map (fun (p : Nat × Path) => (p.1, { p.2 with la := p.2.la.filter (fun l => l.1 ≠ op) })) })).reap c slot g

/-- A SYSCALL holds the group (R427). -/
def Group.called (g : Group) : Bool := g.hold = some .syscall || g.hold = some .both

/-- One reason to hold a group ends, and another may be left (R281, R427). -/
def Group.letGo (g : Group) (left : Option Hold) : Group :=
  { g with hold := left, gstat := if left.isNone then g.gstat &&& ~~~ 0x40000000#32 else g.gstat }

/-- A machine check (R289): the group is held; the operation is gone with its destination unwritten. -/
def State.holdGroup (s : State) (c slot g : Nat) : State :=
  s.onGroup c slot g (fun x =>
    { x with hold := some (if x.called then .both else .machineCheck), gstat := x.gstat ||| 0x40000000 })

/-- A machine check at an outstanding operation (R21, R289). -/
def State.checkOp (s : State) (c slot g op kind pa : Nat) : State :=
  let w : Who := { agent := 0, die := dieOf c, core := c, slot := slot, group := g, id := 0 }
  ((s.log23 w kind pa).holdGroup c slot g).onGroup c slot g (fun x =>
    { x with ops := x.ops.erase op,
             paths := x.paths.map (fun (p : Nat × Path) => (p.1, { p.2 with la := p.2.la.filter (fun l => l.1 ≠ op) })) })

end Sys2Proof.Machine
end

