-- ==== Sys2Proof/Machine/Fifo.lean ====
section
/-! DEFINITION. The FIFO unit of a core (R155, R156): its queues and the operations that wait at them. -/

namespace Sys2Proof.Machine

/-- Entries that an operation puts or takes. -/
def FifoWait.need (w : FifoWait) : Nat := if w.wide then 2 else 1
/-- The queue has room or entries for an operation. -/
def Fifo.can (q : Fifo) (w : FifoWait) : Bool :=
  if w.get then decide (w.need ≤ q.entries.length) else decide (q.entries.length + w.need ≤ 384)

/-- The unit applies one operation (R156): the path that made it goes on. A poisoned entry raises a machine check (R160). -/
def State.fifoApply (s : State) (core block : Nat) (w : FifoWait) : State :=
  match (s.core core).fifos.find? block with
  | none => s
  | some q =>
    let a := w.site
    let s := s.onGroup a.core a.slot a.group (fun g => { g with ops := g.ops.erase w.op })
    if w.get then
      let got := q.entries.take w.need
      let s := s.onCore core (fun k => { k with fifos := k.fifos.set block { q with entries := q.entries.drop w.need } })
      if got.any (fun e => e.2) then
        (((s.log23 (whoLane a) 3 0).holdGroup a.core a.slot a.group)).advance a
      else
        let act := (((s.group? a.core a.slot a.group).bind (fun g => (g.paths.find? a.path).map (fun p => activeOf p.lanes g.nest)))).getD 0
        let s := got.zipIdx.foldl (fun s e => s.writeLanes a.core a.slot a.group act (w.reg + e.2) e.1.1) s
        (s.changed a).advance a
    else
      ((s.onCore core (fun k => { k with fifos := k.fifos.set block { q with entries := q.entries ++ w.vals.map (fun v => (v, false)) } })).changed a).advance a

/-- Serve the waiting operations that can be applied, in arrival order (R156). -/
def State.fifoServe (s : State) (core block : Nat) : Nat → State
  | 0 => s
  | fuel + 1 =>
    match (s.core core).fifos.find? block with
    | none => s
    | some q =>
      let first (get : Bool) : Option (Nat × FifoWait) := (q.waiting.zipIdx.find? (fun p => p.1.get = get)).map (fun p => (p.2, p.1))
      let pick := ([first true, first false].filterMap id).filter (fun p => q.can p.2)
      match pick with
      | [] => s
      | p :: t =>
        let b := t.foldl (fun b c => if c.1 < b.1 then c else b) p
        let s := s.onCore core (fun k => { k with fifos := k.fifos.set block { q with waiting := q.waiting.eraseIdx b.1 } })
        State.fifoServe (s.fifoApply core block b.2) core block fuel

/-- An instruction that waits at a FIFO unit leaves it (R156, R291): it is issued again when the path goes on. What waits behind
it is served, as it now stands first. -/
def State.leaveFifo (s : State) (a : Site) (op : Nat) : State :=
  let blocks := ((s.core a.core).fifos.filter (fun f => f.2.waiting.any (fun w => w.site = a && w.op = op))).map (fun f => f.1)
  let s := (s.onCore a.core (fun k => { k with fifos := k.fifos.map (fun f =>
    (f.1, { f.2 with waiting := f.2.waiting.filter (fun w => !(w.site = a && w.op = op)) })) })).onGroup a.core a.slot a.group
    (fun g => { g with ops := g.ops.erase op })
  blocks.foldl (fun s b => s.fifoServe a.core b 64) s

/-- The operation that a path waits for at a FIFO unit. -/
def Path.fifoOp (p : Path) : Option Nat := match p.wait with
  | .fifo op => some op
  | _ => none

/-- A path leaves what its instruction waits at, which it will issue again: a barrier object, on whichever core it lies, or the FIFO
unit (R156, R291). -/
def State.leaveWait (s : State) (a : Site) (p : Path) : State :=
  let s := match p.fifoOp with
    | some op => s.leaveFifo a op
    | none => s
  { s with cores := s.cores.map (fun (k : Nat × Core) =>
      (k.1, { k.2 with waiters := k.2.waiters.filter (fun (w : BarWaiter) => w.site ≠ a) })) }

end Sys2Proof.Machine
end

