-- ==== Sys2Proof/Machine/Float.lean ====
section
/-! DEFINITION. Number formats (R182 to R200): decoding to exact values, rounding with flags, and the arithmetic that the
vector lanes, paddock cores, matrix unit and engines share. A finite value is sign, magnitude and a power of two. -/

namespace Sys2Proof.Machine

/-- A binary floating-point format (R183, R188): exponent bits, fraction bits, bias, the code of the largest finite
magnitude, whether it has infinities, and the canonical NaN. -/
structure FFmt where
  eb : Nat
  fb : Nat
  bias : Nat
  maxCode : Nat
  hasInf : Bool
  nan : Nat
  deriving DecidableEq, Repr

/-- F32. -/
def fF32 : FFmt := { eb := 8, fb := 23, bias := 127, maxCode := 0x7F7FFFFF, hasInf := true, nan := 0x7FC00000 }
/-- F16. -/
def fF16 : FFmt := { eb := 5, fb := 10, bias := 15, maxCode := 0x7BFF, hasInf := true, nan := 0x7E00 }
/-- BF16. -/
def fBF16 : FFmt := { eb := 8, fb := 7, bias := 127, maxCode := 0x7F7F, hasInf := true, nan := 0x7FC0 }
/-- F64. -/
def fF64 : FFmt := { eb := 11, fb := 52, bias := 1023, maxCode := 0x7FEFFFFFFFFFFFFF, hasInf := true, nan := 0x7FF8000000000000 }
/-- E4M3. -/
def fE4M3 : FFmt := { eb := 4, fb := 3, bias := 7, maxCode := 0x7E, hasInf := false, nan := 0x7F }
/-- E5M2. -/
def fE5M2 : FFmt := { eb := 5, fb := 2, bias := 15, maxCode := 0x7B, hasInf := true, nan := 0x7E }

/-- Width in bits. -/
def FFmt.width (f : FFmt) : Nat := 1 + f.eb + f.fb
/-- Code of +infinity. -/
def FFmt.inf (f : FFmt) : Nat := (2 ^ f.eb - 1) * 2 ^ f.fb
/-- The sign bit. -/
def FFmt.signBit (f : FFmt) (neg : Bool) : Nat := if neg then 2 ^ (f.eb + f.fb) else 0

/-- A decoded value: NaN (signalling or not), infinity, or ±m × 2^e. -/
inductive FVal where
  | nan (sig : Bool)
  | inf (neg : Bool)
  | fin (neg : Bool) (m : Nat) (e : Int)
  deriving DecidableEq, Repr

/-- A value of zero. -/
def FVal.isZero : FVal → Bool
  | .fin _ 0 _ => true
  | _ => false
/-- A NaN. -/
def FVal.isNan : FVal → Bool
  | .nan _ => true
  | _ => false
/-- A signalling NaN. -/
def FVal.isSig : FVal → Bool
  | .nan s => s
  | _ => false
/-- An infinity. -/
def FVal.isInf : FVal → Bool
  | .inf _ => true
  | _ => false
/-- The sign; a NaN has none. -/
def FVal.neg : FVal → Bool
  | .nan _ => false
  | .inf n => n
  | .fin n _ _ => n
/-- Negation. -/
def FVal.negate : FVal → FVal
  | .nan s => .nan s
  | .inf n => .inf !n
  | .fin n m e => .fin (!n) m e

/-- Decode a code (R183, R188). With `ftz` a subnormal reads as a zero of its sign (R187). -/
def FFmt.decode (f : FFmt) (ftz : Bool) (x : Nat) : FVal :=
  let neg := bit x (f.eb + f.fb)
  let ex := x / 2 ^ f.fb % 2 ^ f.eb
  let fr := x % 2 ^ f.fb
  let mag := x % 2 ^ (f.eb + f.fb)
  if !f.hasInf && mag = f.nan then .nan false
  else if f.hasInf && ex = 2 ^ f.eb - 1 then
    if fr = 0 then .inf neg else .nan (!bit x (f.fb - 1))
  else if ex = 0 then
    if ftz then .fin neg 0 0 else .fin neg fr (1 - (f.bias : Int) - f.fb)
  else .fin neg (2 ^ f.fb + fr) ((ex : Int) - f.bias - f.fb)

/-- Rounding modes (R184): 0 RNE, 1 RTZ, 2 RUP, 3 RDN. The magnitude grows when the dropped part says so. -/
def roundsUp (rm : Nat) (neg odd : Bool) (cmpHalf : Ordering) (inexact : Bool) : Bool :=
  match rm with
  | 0 => match cmpHalf with
    | .gt => true
    | .eq => odd
    | .lt => false
  | 1 => false
  | 2 => inexact && !neg
  | _ => inexact && neg

/-- Drop `d` low bits of m (with a sticky bit below them): quotient, comparison with half, inexact. -/
def dropBits (m d : Nat) (sticky : Bool) : Nat × Ordering × Bool :=
  let r := m % 2 ^ d
  let half := if d = 0 then 0 else 2 ^ (d - 1)
  let c : Ordering :=
    if d = 0 then .lt
    else if r < half then .lt
    else if half < r then .gt
    else if sticky then .gt else .eq
  (m / 2 ^ d, c, decide (r ≠ 0) || sticky)

/-- Round m × 2^e to a multiple of 2^q: the multiple and whether it is inexact. -/
def roundTo (rm : Nat) (neg : Bool) (m : Nat) (e q : Int) (sticky : Bool) : Nat × Bool :=
  if q ≤ e then
    let m1 := m * 2 ^ (e - q).toNat
    if sticky && roundsUp rm neg (bit m1 0) .lt true then (m1 + 1, true) else (m1, sticky)
  else
    let (t, c, ix) := dropBits m (q - e).toNat sticky
    (if roundsUp rm neg (bit t 0) c ix then t + 1 else t, ix)

/-- FLAGS bits (R325). -/
def fINV : Nat := 1
/-- Divide-by-zero. -/
def fDZ : Nat := 2
/-- Overflow. -/
def fOF : Nat := 4
/-- Underflow. -/
def fUF : Nat := 8
/-- Inexact. -/
def fIX : Nat := 16

/-- How a result is delivered: rounding mode, FTZ, SATN. -/
structure RMode where
  rm : Nat
  ftz : Bool
  satn : Bool
  deriving DecidableEq, Repr

/-- Bits of a number: the position of its highest 1, plus 1. -/
def bitLen (m : Nat) : Nat := if m = 0 then 0 else Nat.log2 m + 1

/-- The overflow value (R186): infinity or the largest finite value, as mode and sign direct; SATN and E4M3 as stated. -/
def FFmt.overflow (f : FFmt) (md : RMode) (neg : Bool) : Nat :=
  let toInf := match md.rm with
    | 0 => true
    | 1 => false
    | 2 => !neg
    | _ => neg
  if toInf && !md.satn then (if f.hasInf then f.inf + f.signBit neg else f.nan)
  else f.maxCode + f.signBit neg

/-- The largest multiple of the format's quantum (R186 steps 3 and 4, R187): code and flags of ±m × 2^e, where `sticky` says
that the exact magnitude lies strictly above m × 2^e and below (m + 1) × 2^e. -/
def FFmt.round (f : FFmt) (md : RMode) (neg : Bool) (m : Nat) (e : Int) (sticky : Bool) : Nat × Nat :=
  if m = 0 && !sticky then (f.signBit neg, 0)
  else
    let top : Int := e + bitLen m - 1
    let qmin : Int := 1 - (f.bias : Int) - f.fb
    let q0 := top - f.fb
    let q := if q0 < qmin then qmin else q0
    let (r, ix) := roundTo md.rm neg m e q sticky
    let code := (q - qmin).toNat * 2 ^ f.fb + r
    if f.maxCode < code then (f.overflow md neg, fOF + fIX)
    else
      let (r0, _) := roundTo md.rm neg m e q0 sticky
      let tiny := decide (q0 < qmin) && decide (r0 * 2 ^ f.fb < 2 ^ (f.fb + f.fb + (qmin - q0).toNat))
      if md.ftz && decide (code < 2 ^ f.fb) && decide (0 < code) then (f.signBit neg, fUF + fIX)
      else if md.ftz && tiny && code = 0 then (f.signBit neg, fUF + fIX)
      else (code + f.signBit neg, (if ix then fIX else 0) + (if ix && tiny then fUF else 0))

/-- Round an exact value (R186). The invalid flag of a NaN operand is the instruction's to raise. -/
def FFmt.roundVal (f : FFmt) (md : RMode) (v : FVal) : Nat × Nat :=
  match v with
  | .nan _ => (f.nan, 0)
  | .inf neg =>
    if f.hasInf then (f.inf + f.signBit neg, 0)
    else if md.satn then (f.maxCode + f.signBit neg, fIX) else (f.nan, fINV)
  | .fin neg m e => f.round md neg m e false

/-- A quiet NaN result with the flags of its NaN operands: a signalling one raises invalid (R187). -/
def nanFlags (vs : List FVal) : Nat := if vs.any FVal.isSig then fINV else 0

/-- The exact sum of two finite values, with IEEE's sign for a zero sum (R186). -/
def addFin (rm : Nat) (n1 : Bool) (m1 : Nat) (e1 : Int) (n2 : Bool) (m2 : Nat) (e2 : Int) : FVal :=
  let e := if e1 < e2 then e1 else e2
  let a : Int := (m1 * 2 ^ (e1 - e).toNat : Nat)
  let b : Int := (m2 * 2 ^ (e2 - e).toNat : Nat)
  let x : Int := (if n1 then -a else a) + (if n2 then -b else b)
  if x = 0 then
    if m1 = 0 && m2 = 0 && n1 = n2 then .fin n1 0 0 else .fin (decide (rm = 3)) 0 0
  else .fin (decide (x < 0)) x.natAbs e

/-- The exact sum of two values, and its flags. -/
def FVal.add (rm : Nat) (a b : FVal) : FVal × Nat :=
  match a, b with
  | .nan _, _ => (.nan false, nanFlags [a, b])
  | _, .nan _ => (.nan false, nanFlags [a, b])
  | .inf x, .inf y => if x = y then (.inf x, 0) else (.nan false, fINV)
  | .inf x, _ => (.inf x, 0)
  | _, .inf y => (.inf y, 0)
  | .fin n1 m1 e1, .fin n2 m2 e2 => (addFin rm n1 m1 e1 n2 m2 e2, 0)

/-- The exact product, and its flags. -/
def FVal.mul (a b : FVal) : FVal × Nat :=
  match a, b with
  | .nan _, _ => (.nan false, nanFlags [a, b])
  | _, .nan _ => (.nan false, nanFlags [a, b])
  | .inf x, y => if y.isZero then (.nan false, fINV) else (.inf (x != y.neg), 0)
  | x, .inf y => if x.isZero then (.nan false, fINV) else (.inf (x.neg != y), 0)
  | .fin n1 m1 e1, .fin n2 m2 e2 => (.fin (n1 != n2) (m1 * m2) (e1 + e2), 0)

/-- The exact a × b + c, and its flags (one rounding is the caller's). -/
def FVal.fma (rm : Nat) (a b c : FVal) : FVal × Nat :=
  let (p, f1) := a.mul b
  let (r, f2) := p.add rm c
  (r, if a.isNan || b.isNan || c.isNan then nanFlags [a, b, c] ||| f1 else f1 ||| f2)

/-- A value ready to round: special, or a magnitude with a sticky bit. -/
structure Approx where
  v : FVal
  sticky : Bool
  flags : Nat
  deriving DecidableEq, Repr

/-- Deliver an approximation in a format. -/
def FFmt.deliver (f : FFmt) (md : RMode) (a : Approx) : Nat × Nat :=
  match a.v with
  | .fin neg m e =>
    let (x, fl) := f.round md neg m e a.sticky
    (x, fl ||| a.flags)
  | v =>
    let (x, fl) := f.roundVal md v
    (x, fl ||| a.flags)

/-- a / b with enough bits for one rounding (R204). -/
def FVal.div (a b : FVal) : Approx :=
  match a, b with
  | .nan _, _ => ⟨.nan false, false, nanFlags [a, b]⟩
  | _, .nan _ => ⟨.nan false, false, nanFlags [a, b]⟩
  | .inf x, y => if y.isInf then ⟨.nan false, false, fINV⟩ else ⟨.inf (x != y.neg), false, 0⟩
  | x, .inf y => ⟨.fin (x.neg != y) 0 0, false, 0⟩
  | .fin n1 m1 e1, .fin n2 m2 e2 =>
    if m2 = 0 then
      if m1 = 0 then ⟨.nan false, false, fINV⟩ else ⟨.inf (n1 != n2), false, fDZ⟩
    else
      let x := m1 * 2 ^ 192
      ⟨.fin (n1 != n2) (x / m2) (e1 - e2 - 192), decide (x % m2 ≠ 0), 0⟩

/-- Integer square root by bits from position k down. -/
def isqrtFrom (n : Nat) : Nat → Nat → Nat
  | 0, r => if (r + 1) * (r + 1) ≤ n then r + 1 else r
  | k + 1, r =>
    let t := r + 2 ^ (k + 1)
    if t * t ≤ n then isqrtFrom n k t else isqrtFrom n k r

/-- Integer square root of a number below 2^(2k). -/
def isqrt (k n : Nat) : Nat := isqrtFrom n k 0

/-- √a (R204). −0 gives −0. -/
def FVal.sqrt (a : FVal) : Approx :=
  match a with
  | .nan _ => ⟨.nan false, false, nanFlags [a]⟩
  | .inf n => if n then ⟨.nan false, false, fINV⟩ else ⟨.inf false, false, 0⟩
  | .fin n m e =>
    if m = 0 then ⟨.fin n 0 0, false, 0⟩
    else if n then ⟨.nan false, false, fINV⟩
    else
      let odd := e % 2 ≠ 0
      let m1 := (if odd then 2 * m else m) * 2 ^ 192
      let e1 := if odd then e - 1 else e
      let r := isqrt 130 m1
      ⟨.fin false r (e1 / 2 - 96), decide (r * r ≠ m1), 0⟩

/-- 1 / √a (R204). -/
def FVal.rsqrt (a : FVal) : Approx :=
  match a with
  | .nan _ => ⟨.nan false, false, nanFlags [a]⟩
  | .inf n => if n then ⟨.nan false, false, fINV⟩ else ⟨.fin false 0 0, false, 0⟩
  | .fin n m e =>
    if m = 0 then ⟨.inf n, false, fDZ⟩
    else if n then ⟨.nan false, false, fINV⟩
    else
      let odd := e % 2 ≠ 0
      let m1 := if odd then 2 * m else m
      let e1 := if odd then e - 1 else e
      let x := 2 ^ 256
      let r := isqrt 130 (x / m1)
      ⟨.fin false r (-(e1 / 2) - 128), decide (r * r * m1 ≠ x), 0⟩

/-- Comparison of two numbers that are not NaN; zeros are equal. -/
def FVal.cmp (a b : FVal) : Ordering :=
  match a, b with
  | .inf x, .inf y => if x = y then .eq else if x then .lt else .gt
  | .inf x, _ => if x then .lt else .gt
  | _, .inf y => if y then .gt else .lt
  | .fin n1 m1 e1, .fin n2 m2 e2 =>
    match addFin 0 n1 m1 e1 (!n2) m2 e2 with
    | .fin _ 0 _ => .eq
    | .fin neg _ _ => if neg then .lt else .gt
    | _ => .eq
  | _, _ => .eq

/-- A condition code on an ordering (R321): 0 EQ, 1 NE, 2 LT, 3 LE, 4 GT, 5 GE. -/
def ccHolds (cc : Nat) (o : Ordering) : Bool :=
  match cc with
  | 0 => o = .eq
  | 1 => o ≠ .eq
  | 2 => o = .lt
  | 3 => o ≠ .gt
  | 4 => o = .gt
  | _ => o ≠ .lt

/-- Strictly smaller, with −0 below +0 (R63, R205). -/
def FVal.less (a b : FVal) : Bool :=
  match a.cmp b with
  | .lt => true
  | .gt => false
  | .eq => a.isZero && b.isZero && a.neg && !b.neg

/-- Minimum or maximum of codes where a quiet NaN yields the other operand and a signalling one the canonical NaN
(R63, R135, R205's VFMIN and VFMAX). Answers code and flags. -/
def FFmt.minmax (f : FFmt) (ftz : Bool) (max : Bool) (x y : Nat) : Nat × Nat :=
  let a := f.decode ftz x
  let b := f.decode ftz y
  let plain (c : Nat) (v : FVal) : Nat := if v.isZero then f.signBit v.neg else c
  if a.isSig || b.isSig then (f.nan, fINV)
  else if a.isNan then (if b.isNan then f.nan else plain y b, 0)
  else if b.isNan then (plain x a, 0)
  else if max then (if a.less b then plain y b else plain x a, 0)
  else (if b.less a then plain y b else plain x a, 0)

/-- Minimum or maximum where any NaN yields the canonical NaN (R205's VFMINN and VFMAXN). -/
def FFmt.minmaxN (f : FFmt) (ftz : Bool) (max : Bool) (x y : Nat) : Nat × Nat :=
  let a := f.decode ftz x
  let b := f.decode ftz y
  if a.isNan || b.isNan then (f.nan, nanFlags [a, b]) else f.minmax ftz max x y

/-- An integer rounded from a value by mode: the integer, and whether a fraction was dropped. -/
def FVal.toInt (rm : Nat) (v : FVal) : Int × Bool :=
  match v with
  | .fin neg m e =>
    let (r, ix) := roundTo rm neg m e 0 false
    (if neg then -(r : Int) else r, ix)
  | _ => (0, false)

/-- Conversion to an integer of w bits (R197): clamped, NaN gives 0. -/
def FVal.convInt (rm w : Nat) (sgn : Bool) (v : FVal) : Nat × Nat :=
  let lo : Int := if sgn then -(2 ^ (w - 1) : Nat) else 0
  let hi : Int := if sgn then (2 ^ (w - 1) : Nat) - 1 else (2 ^ w : Nat) - 1
  match v with
  | .nan _ => (0, fINV)
  | .inf neg => (wrap w (if neg then lo else hi), fINV)
  | .fin _ _ _ =>
    let (x, ix) := v.toInt rm
    if x < lo then (wrap w lo, fINV) else if hi < x then (wrap w hi, fINV) else (wrap w x, if ix then fIX else 0)

/-- An integer as a value. -/
def FVal.ofInt (x : Int) : FVal := .fin (decide (x < 0)) x.natAbs 0

/-- The floating format of a type code of R320, for F16, BF16, F32 and F64. -/
def ffmtOfTy (code : Nat) : FFmt := match code with | 12 => fF16 | 13 => fBF16 | 14 => fF32 | _ => fF64

/-- The floating format of a format code of R185. -/
def ffmtOfCode (c : Nat) : FFmt :=
  match c with | 0 => fF32 | 1 => fF16 | 2 => fBF16 | 3 => fF64 | 4 => fE4M3 | _ => fE5M2

/-- One element of an integer or floating atomic or reduction (R135, R384): 0 ADD, 1 MIN, 2 MAX, 3 AND, 4 OR, 5 XOR,
6 EXCH. `ty` is a code of R320. -/
def atomApply (aop ty w old x : Nat) : Nat :=
  let float := 12 ≤ ty
  let f := ffmtOfTy ty
  let sgn := ty = 2 || ty = 3
  let val (y : Nat) : Int := if sgn then signed w y else (y % 2 ^ w : Nat)
  match aop with
  | 0 =>
    if float then
      let (v, _) := FVal.add 0 (f.decode false old) (f.decode false x)
      (f.roundVal { rm := 0, ftz := false, satn := false } v).1
    else (old + x) % 2 ^ w
  | 1 => if float then (f.minmax false false old x).1 else if val x < val old then x else old
  | 2 => if float then (f.minmax false true old x).1 else if val old < val x then x else old
  | 3 => old &&& x
  | 4 => old ||| x
  | 5 => old ^^^ x
  | _ => x

end Sys2Proof.Machine
end

