-- ==== Sys2Proof/Machine/Perform.lean ====
section
/-! DEFINITION. The steps of the ordering machine (R215 to R231): when an access may take its step (R218), serving a load,
performing a store or an atomic, acknowledging, delivering a message, sending a remote request, and writing the result. -/

namespace Sys2Proof.Machine

/-- The access of no lane. -/
def LaneAcc.zero : LaneAcc := { lane := 0, addr := 0, width := 4, data := 0, data2 := 0, got := 0 }

/-- The lane accesses of all parts of an operation. -/
def Op.accs (o : Op) : List LaneAcc := o.parts.flatMap (fun (p : Part) => p.lanes)

/-- Physical address of a byte of a part; a scratchpad offset is its own. -/
def Part.pa (p : Part) (va : Nat) : Nat :=
  match p.xl with
  | some x => x.pa / 64 * 64 + va % 64
  | none => va

/-- The bytes that the lanes of a part store, by address: the highest lane that writes a byte decides it (R158). -/
def Part.stores (p : Part) (at_ : Nat → Nat) : Tab Byte :=
  p.lanes.foldl (fun m l => (leBytes l.width l.data).zipIdx.foldl (fun m b => m.set (at_ (l.addr + b.2)) b.1) m) []

/-- The byte ranges of two lane accesses meet, taken at some addresses. -/
def meetsAt (x y wx wy : Nat) : Bool := decide (x < y + wy) && decide (y < x + wx)
/-- The byte ranges of two lane accesses meet. -/
def LaneAcc.meets (a b : LaneAcc) : Bool := meetsAt a.addr b.addr a.width b.width

/-- The physical address of a byte of a part of an ASID's access, for telling whether two accesses touch one byte: that of its
translation, or, before it has one, of its page tables; a byte that is not mapped stands apart, by its virtual address. -/
def State.physAt (s : State) (asid : Nat) (p : Part) (va : Nat) : Nat :=
  match p.xl with
  | some _ => p.pa va
  | none => (vaToPa s asid va).getD (2 ^ 60 + va)

/-- A part has returned its value, or has been acknowledged. -/
def Part.returned (p : Part) (k : OpKind) : Bool :=
  match k with
  | .load => p.st = .done
  | _ => p.st = .acked

/-- A part has returned or been acknowledged as a fence and a release see it (R220, R435): a scratchpad load only once its
destination is written, which ends its operation. -/
def Op.completed (o : Op) (p : Part) : Bool := p.returned o.kind && !(decide (o.kind = .load) && decide (o.space ≠ .global))

/-- A part has taken its step. -/
def Part.performed (p : Part) : Bool := p.st = .done || p.st = .acked

/-- The kind is an access of R216. -/
def OpKind.isAccess : OpKind → Bool
  | .load => true
  | .store => true
  | .atomic _ _ => true
  | _ => false
/-- The kind writes memory. -/
def OpKind.isWrite : OpKind → Bool
  | .store => true
  | .atomic _ _ => true
  | _ => false
/-- The kind reads memory. -/
def OpKind.isRead : OpKind → Bool
  | .load => true
  | .atomic _ _ => true
  | _ => false

/-- The access goes to another device. -/
def Part.remote (p : Part) : Bool := match p.xl with
  | some x => region x.pa = .remote
  | none => false

/-- Two lane accesses of two parts touch a common byte: by their addresses, or, in global memory, by where these lie. -/
def accsMeet (at_ : Part → Nat → Nat) (global : Bool) (p q : Part) (a b : LaneAcc) : Bool :=
  a.meets b || (global && meetsAt (at_ p a.addr) (at_ q b.addr) a.width b.width)

/-- One pair of parts of R218: the later part may take its step as far as this earlier one goes. `sameSpace` says that both
lie in one address space, `at_` gives the physical address of a byte of a part. -/
def pairAllows (at_ : Part → Nat → Nat) (e : Op) (ep : Part) (o : Op) (op : Part) (sameSpace : Bool) : Bool :=
  let shared := ep.lanes.any (fun a => op.lanes.any (fun b => a.lane = b.lane))
  if !shared then true
  else
    let global := decide (o.space = .global)
    let meets := sameSpace && ep.lanes.any (fun a => op.lanes.any (fun b => a.lane = b.lane && accsMeet at_ global ep op a b))
    let first (p : Part) : Nat := (p.lanes.headD LaneAcc.zero).addr
    let oneSector := decide (first ep / 64 = first op / 64) || (global && decide (at_ ep (first ep) / 64 = at_ op (first op) / 64))
    let ret := ep.returned e.kind
    let acquire := e.kind.isRead && e.ord = 1
    let release := o.kind.isWrite && o.ord = 2
    if acquire && !ret then false
    else if release && !e.completed ep && !(ep.remote && decide (o.scope < 5)) then false
    else if o.kind.isWrite && e.kind.isRead && !ret then false
    else if o.kind.isWrite && decide (e.kind = .store) && sameSpace && oneSector && !ep.performed then false
    else if meets && (e.kind.isRead || o.kind.isWrite) && !ep.performed then false
    else true

/-- The rule of R218 for part n of operation `id`, with R282: every part has passed its translation. A scratchpad access
follows an earlier matrix operation whose bytes it touches (R404). -/
def Group.allows (g : Group) (at_ : Part → Nat → Nat) (id n : Nat) : Bool :=
  match g.ops.find? id with
  | none => false
  | some o =>
    match o.parts[n]? with
    | none => false
    | some p =>
      o.parts.all (fun q => decide (q.st ≠ .walk) && decide (q.st ≠ .parked) && decide (q.st ≠ .rejected)) &&
      g.ops.all (fun e =>
        if id ≤ e.1 then true
        else if e.2.kind = .matrix then
          decide (e.2.space ≠ o.space) || (decide (e.2.path ≠ o.path) && decide (e.2.lanes &&& o.lanes = 0)) ||
            e.2.parts.all (fun ep => ep.lanes.all (fun a => p.lanes.all (fun b => !a.meets b)))
        else if !e.2.kind.isAccess then true
        else e.2.parts.all (fun ep => pairAllows at_ e.2 ep o p (decide (e.2.space = o.space))))

/-- Flits queued on the valid paths of a device's route entry: path, port, flits (R300). A request is one flit (log 134). -/
def pathsTo (s : State) (device : Nat) : List (Nat × Nat × Nat) :=
  (List.range 4).filterMap (fun k =>
    let e := bits (s.dev.dlrt.getD device 0).toNat (16 * k + 15) (16 * k)
    let port := e % 16
    if bit e 15 && decide (port < 12) && (s.port port).up then some (k, port, (s.port port).queue.length) else none)

/-- The lowest address of the access that lies in some of its parts. -/
def Op.lowestIn (o : Op) (f : Xlat → Bool) : Option Nat :=
  lowest ((o.parts.filter (fun p => match p.xl with | some x => f x | none => false)).flatMap (fun p => p.lanes.map (fun l => p.pa l.addr)))

/-- The access meets a hole or an empty key slot (R13, R26, R282, R302): the KIND of the record and the lowest such address
(R23). A device that cannot be reached is a hole. Of a hole and an empty slot the hole is named (log 89). -/
def Op.stopper (s : State) (o : Op) : Option (Nat × Nat) :=
  let hole (x : Xlat) : Bool :=
    region x.pa = .hole || (region x.pa = .remote && (pathsTo s (bits x.pa 49 40)).isEmpty)
  let unkeyed (x : Xlat) : Bool := stored x.pa && (s.keys.find? x.key).isNone
  match o.lowestIn hole with
  | some pa => some (6, pa)
  | none => (o.lowestIn unkeyed).map (fun pa => (5, pa))

/-- Parts of one instruction on the same bytes perform in lane order (R153, R384), and a path's accesses to another core's
scratchpads arrive in the order of issue (R222). -/
def Group.inOrder (g : Group) (at_ : Part → Nat → Nat) (core id n : Nat) (o : Op) (p : Part) : Bool :=
  (o.parts.take n).all (fun q => q.performed ||
    !(q.lanes.any (fun a => p.lanes.any (fun b => accsMeet at_ (decide (o.space = .global)) q p a b)))) &&
  (match o.space with
    | .global => true
    | .scratch c _ =>
      c = core || g.ops.all (fun e =>
        let away := match e.2.space with
          | .scratch d _ => decide (d = c)
          | .global => false
        decide (id ≤ e.1) || !away || (decide (e.2.path ≠ o.path) && decide (e.2.lanes &&& o.lanes = 0))
          || e.2.parts.all (fun q => q.performed)))

/-- The byte that a lane's own store buffer holds for an address, from its latest store before operation `id` (R217). `aka`
says that a byte of an earlier part, at an address, is the byte looked for under another address. -/
def Group.buffered (g : Group) (aka : Part → Nat → Bool) (id : Nat) (space : OpSpace) (lane va : Nat) : Option Byte :=
  g.ops.foldl (fun acc e =>
    if decide (e.1 < id) && decide (e.2.kind = .store) && decide (e.2.space = space) then
      e.2.parts.foldl (fun acc p =>
        if p.st = .acked then acc
        else p.lanes.foldl (fun acc l =>
          if l.lane = lane then
            match (List.range l.width).find? (fun i => decide (l.addr + i = va) || aka p (l.addr + i)) with
            | some i => some (BitVec.ofNat 8 (l.data / 2 ^ (8 * i)))
            | none => acc
          else acc) acc) acc
    else acc) none

/-- The phase region of a team that holds an address (R117). -/
def Team.phaseAt (t : Team) (va : Nat) : Option Nat :=
  t.phases.findIdx? (fun p => decide (p.base ≤ va) && decide (va < p.base + p.size))

/-- A byte of a part is the byte at a physical address, both or neither being private to the team (R118). -/
def State.sameByte (s : State) (t : Team) (o : Op) (pa : Nat) (priv : Bool) (q : Part) (a : Nat) : Bool :=
  decide (o.space = .global) && decide (s.physAt t.asid q a = pa) && ((t.phaseAt a).isSome == priv)

/-- The byte of a lane's own store buffer for a byte of a part (R217). -/
def State.ownByte (s : State) (t : Team) (g : Group) (id : Nat) (o : Op) (p : Part) (lane va : Nat) : Option Byte :=
  g.buffered (s.sameByte t o (s.physAt t.asid p va) (t.phaseAt va).isSome) id o.space lane va

/-- Every byte of a part stands in its lane's own store buffer. -/
def State.ownAll (s : State) (t : Team) (g : Group) (id : Nat) (o : Op) (p : Part) : Bool :=
  p.lanes.all (fun l => (List.range l.width).all (fun i => (s.ownByte t g id o p l.lane (l.addr + i)).isSome))

/-- A byte of a part stands in its lane's own store buffer. -/
def State.ownAny (s : State) (t : Team) (g : Group) (id : Nat) (o : Op) (p : Part) : Bool :=
  p.lanes.any (fun l => (List.range l.width).any (fun i => (s.ownByte t g id o p l.lane (l.addr + i)).isSome))

/-- The first access to a private line fetches it (R118), with the poison of its words. -/
def Team.fetchLine (t : Team) (ph va : Nat) (line : List Byte) (bad : List Nat) : Team :=
  { t with phases := t.phases.mapIdx (fun i p =>
      if i = ph && (p.bytes.find? (va / 256 * 256)).isNone then
        { p with bytes := line.zipIdx.foldl (fun m b => m.set (va / 256 * 256 + b.2) b.1) p.bytes,
                 pois := bad.map (fun i => va / 256 * 8 + i) ++ p.pois }
      else p) }

/-- The private line of an address has been fetched. -/
def Team.hasLine (t : Team) (ph va : Nat) : Bool := ((t.phases[ph]?).bind (fun p => p.bytes.find? (va / 256 * 256))).isSome
/-- A private word among those of n bytes at an address is poisoned (R160). -/
def Team.phaseBad (t : Team) (ph va n : Nat) : Bool := match t.phases[ph]? with
  | some p => (wordsOf va n).any (fun w => p.pois.contains w)
  | none => false

/-- Write private bytes, marking them (R118). A word written whole loses its poison (R22). -/
def Team.writePhase (t : Team) (ph : Nat) (bs : Tab Byte) : Team :=
  { t with phases := t.phases.mapIdx (fun i p =>
      if i = ph then
        { p with bytes := bs.foldl (fun m b => m.set b.1 b.2) p.bytes,
                 written := p.written ++ (bs.map (fun b => b.1)).filter (fun a => !p.written.contains a),
                 pois := p.pois.filter (fun w => (bs.filter (fun b => b.1 / 32 = w)).length < 32) }
      else p) }

/-- Read a private byte. -/
def Team.phaseByte (t : Team) (ph va : Nat) : Byte := ((t.phases[ph]?).bind (fun p => p.bytes.find? va)).getD 0

/-- The private line of an address takes a way of the core's SRAM, or stands in the spill area where there is none (R118, R150). -/
def State.holdPrivate (s : State) (c slot pa : Nat) : State :=
  (s.takeWay c (privKey slot (pa / 256))).getD (s.onCore c (fun k =>
    let n := privKey slot (pa / 256)
    { k with spilled := if k.spilled.contains n then k.spilled else n :: k.spilled }))

/-- Which of n words that another device holds carry poison: free, as their bytes are (R20; log 21). -/
def State.freeBad (s : State) (n : Nat) : List Nat × State :=
  ((List.range n).filter (fun i => (Config.fresh (s.freeCtr + i)).getLsbD 0), { s with freeCtr := s.freeCtr + n })

/-- Fetch the private line of an address, if it has not been: none where a sector of it is pinned elsewhere (R110, R118). A pin of
the issuing core ends first, whichever of its teams holds it (log 121). What another device holds is free, its poison too (R20;
log 21). -/
def State.fetchPhase (s : State) (w : Who) (c slot ph va pa : Nat) (key : KeyPair) : Option State :=
  if ((s.team? c slot).map (fun t => t.hasLine ph va)).getD true then some (s.holdPrivate c slot pa)
  else if region pa = .remote then
    let (line, s) := s.freeBytes 256
    let (bad, s) := s.freeBad 8
    some ((s.onTeam c slot (fun t => t.fetchLine ph va line bad)).holdPrivate c slot pa)
  else
    let base := pa / 256 * 256
    let secs := (List.range 4).map (fun i => base / 64 + i)
    if secs.any (fun sec => match (s.sector sec).pin with | some (pc, _, _, _) => decide (pc ≠ c) | none => false) then none
    else
      let s := secs.foldl (fun s sec => (s.unpin sec 0).fillSector w sec) s
      let bad := (List.range 8).filter (fun i => s.mem.poison.contains (base / 32 + i))
      let line := s.mem.read key base 256
      some ((s.onTeam c slot (fun t => t.fetchLine ph va line bad)).holdPrivate c slot pa)

/-- Change a part of an operation. -/
def State.onPart (s : State) (c slot g op n : Nat) (f : Part → Part) : State :=
  s.onOp c slot g op (fun o => { o with parts := o.parts.mapIdx (fun i p => if i = n then f p else p) })

/-- The values read by a part: `own` gives the byte of a lane's own store buffer, which comes first (R217), `byte` the byte at
each address. -/
def Part.fillFrom (p : Part) (own : Nat → Nat → Option Byte) (byte : Nat → Byte) : Part :=
  { p with st := .done, lanes := p.lanes.map (fun l =>
      { l with got := leNat ((List.range l.width).map (fun i => (own l.lane (l.addr + i)).getD (byte (l.addr + i)))) }) }

/-- A path records the lines that its loads touch (R259). -/
def State.touchLine (s : State) (a : Site) (line : Nat) : State :=
  s.onPath a (fun p => { p with spin := { p.spin with lines := if p.spin.lines.contains line then p.spin.lines else line :: p.spin.lines } })

/-- Every written-out word that a part touches, by physical address. -/
def Part.words (p : Part) : List Nat :=
  dedup (p.lanes.flatMap (fun l => wordsOf (p.pa l.addr) l.width))

/-- Unacknowledged requests of a group to a device on a path (R302). -/
def pathCount (s : State) (grp : Nat × Nat × Nat) (device path : Nat) : Nat :=
  (s.sent.filter (fun r => r.2.grp = grp && r.2.device = device && r.2.path = path)).length

/-- What sending a remote request comes to. -/
inductive SendOut where
  | noPath
  | full
  | sent (s : State)
  deriving DecidableEq, Repr

/-- Send a remote request (R227, R300, R302): the path with the fewest flits queued, the lowest on a tie, below its limit. -/
def sendRemote (s : State) (r : Remote) : SendOut :=
  match pathsTo s r.device with
  | [] => .noPath
  | ps =>
    let open_ := ps.filter (fun p => decide (pathCount s r.grp r.device p.1 < 4095))
    match open_ with
    | [] => .full
    | p :: t =>
      let b := t.foldl (fun b q => if q.2.2 < b.2.2 then q else b) p
      let key := r.device * 4 + b.1
      let seq := s.sendSeq.getD key 0
      let s := s.onPort b.2.1 (fun x => { x with queue := x.queue ++ [s.nextSent] })
      .sent { s with sent := s.sent.set s.nextSent { r with path := b.1, seq := seq, port := b.2.1 }, nextSent := s.nextSent + 1,
                     sendSeq := s.sendSeq.set key (seq + 1) }

/-- An earlier remote store or atomic of the group to a device has not been acknowledged, or may prove to be one (R227, R302). -/
def State.storesTo (s : State) (asid : Nat) (g : Group) (op device : Nat) : Bool :=
  let goes (pa : Nat) : Bool := region pa = .remote && bits pa 49 40 = device
  g.ops.any (fun e => decide (e.1 < op) && e.2.kind.isWrite && decide (e.2.space = .global) && e.2.parts.any (fun p =>
    decide (p.st ≠ .acked) && match p.xl with
      | some x => goes x.pa
      | none => ((vaToPa s asid (p.lanes.headD LaneAcc.zero).addr).map goes).getD true))

/-- A part of a lane's access goes to another device. An .OF store first waits for the group's earlier remote stores and
atomics to that device (R227). A device that cannot be reached is a hole (R302). -/
def State.sendPart (s : State) (c slot g op n : Nat) (t : Team) (grp : Group) (o : Op) (p : Part) (x : Xlat) : State :=
  let dev := bits x.pa 49 40
  if o.ofr && s.storesTo t.asid grp op dev then s
  else
    let (what, aop, ty) : Nat × Nat × Ty := match o.kind with
      | .load => (0, 0, .b32)
      | .atomic a t => (2, a, t)
      | _ => (1, 0, .b32)
    let l := p.lanes.headD LaneAcc.zero
    -- A load asks for the sector, a store gives its bytes, an atomic its operands.
    let r : Remote := { what := what, device := dev, offset := if what = 0 then x.pa % 2 ^ 40 / 64 * 64 else x.pa % 2 ^ 40, key := x.key,
                        aop := aop, ty := ty, acc := { l with addr := x.pa, width := if what = 0 then 64 else l.width },
                        bytes := if what = 1 then p.stores (fun a => x.pa % 2 ^ 40 / 64 * 64 + a % 64) else [], pois := [],
                        path := 0, seq := 0, port := 0, origin := whoLane { core := c, slot := slot, group := g, path := o.path }, answer := .part c slot g op n, ofr := o.ofr, grp := (c, slot, g),
                        performed := false }
    match sendRemote s r with
    | .noPath => s.checkOp c slot g op 6 x.pa
    | .full => s
    | .sent s => s.onPart c slot g op n (fun p => { p with st := .sent })

/-- Lanes of a group have been served at the slice what their core has not yet applied: they are readers of the last message
for the sector on its way to the core (R219). -/
def State.attach (s : State) (core slot g sec : Nat) (lanes : LaneSet) : State :=
  let home := s.home (64 * sec)
  let (_, l) := (s.channel home core).foldr (fun m (p : Bool × List Msg) =>
    if !p.1 && m.sec = sec then (true, { m with readers := (slot, g, lanes) :: m.readers } :: p.2) else (p.1, m :: p.2)) (false, [])
  if l.isEmpty then s else { s with channels := s.channels.set (home * 192 + core) l }

/-- Some of the lanes have read a sector at the slice ahead of what their core has applied, or have an atomic there that is still
to be acknowledged: the core's copy may be older than what they have seen (R219). -/
def State.ahead (s : State) (asid core slot g sec : Nat) (grp : Group) (op : Nat) (lanes : LaneSet) : Bool :=
  (s.channel (s.home (64 * sec)) core).any (fun m => m.sec = sec && m.readers.any (fun r =>
    r.1 = slot && r.2.1 = g && decide (r.2.2 &&& lanes ≠ 0))) ||
  grp.ops.any (fun e => decide (e.1 < op) && (match e.2.kind with | .atomic _ _ => true | _ => false) && e.2.parts.any (fun p =>
    decide (p.st = .done) && p.lanes.any (fun l => lanes.getLsbD l.lane && decide (s.physAt asid p l.addr / 64 = sec))))

/-- The lanes of a part. -/
def Part.laneSet (p : Part) : LaneSet := laneSetOf (fun i => p.lanes.any (fun l => l.lane = i))

/-- An LDR whose value a later LDR may not take from the fold table (R175). -/
def State.noFold (s : State) (c slot g op : Nat) : State := 
  s.onOp c slot g op (fun o => if o.fold.isSome then { o with fold := none, spoiled := false, touched := [] } else o)

/-- An LDR has read a sector, for its fold entry (R175). -/
def State.readSec (s : State) (c slot g op sec : Nat) : State :=
  s.onOp c slot g op (fun o => if o.fold.isSome then { o with touched := sec :: o.touched } else o)

/-- A load part takes its value. -/
def State.finishLoad (s : State) (c slot g op n : Nat) (t : Team) (grp : Group) (o : Op) (p : Part) (byte : Nat → Byte) : State :=
  let s1 := if s.ownAny t grp op o p then s.noFold c slot g op else s
  s1.onPart c slot g op n (fun q => q.fillFrom (s.ownByte t grp op o p) byte)

/-- The scope trap of an inconsistent access (R113, R276): taken by the path that made it, or later where that path is gone. -/
def State.scopeTrap (s : State) (c slot g : Nat) (o : Op) : State :=
  let a : Site := { core := c, slot := slot, group := g, path := o.path }
  let addr := o.touched.headD 0
  match (s.group? c slot g).bind (fun x => x.paths.find? o.path) with
  | some p =>
    -- The next instruction of the path: its header, where none of its clause has issued (log 23).
    let t : TrapReq := { cause := 0x10, detail := 0, addr := addr, pc := if p.fresh then p.hdrPc else p.pc, inst := some o.pc, debug := 0 }
    if p.pend.isSome then s.trapLater c slot g t else s.pend a t
  | none => s.trapLater c slot g { cause := 0x10, detail := 0, addr := addr, pc := 0, inst := some o.pc, debug := 0 }

/-- The access synchronises at a scope wider than TEAM (R118). -/
def Op.wide (o : Op) : Bool :=
  ((match o.kind with | .atomic _ _ => true | _ => false) || decide (o.ord ≠ 0)) && decide (3 ≤ o.scope)

/-- Where an access that may not touch a private range meets one of the team's (R118). -/
def Op.barred (o : Op) (t : Team) : Option Nat :=
  if o.wide then (o.parts.map (fun p => (p.lanes.headD LaneAcc.zero).addr)).find? (fun va => (t.phaseAt va).isSome) else none

/-- An access wider than TEAM scope that a PHASE has overtaken performs nothing more and raises the scope trap (R118). -/
def State.barWide (s : State) (c slot g op : Nat) (o : Op) (va : Nat) : State :=
  (s.scopeTrap c slot g { o with touched := [va] }).dropOp c slot g op

/-- An access translated before a mangle took its page, or gave it to another ASID, is a MANGLE fault (R97): it parks. -/
def State.parkPart (s : State) (c slot g op n asid va acc : Nat) (w : Who) : State :=
  (s.parkFault w c 3 acc asid va).onOp c slot g op (fun o => { o with parts := o.parts.mapIdx (fun i p =>
    if i = n ∨ !o.parts.any (fun q => q.performed) ∧ p.st = .ready then { p with st := if i = n then .parked else .walk, xl := none } else p) })

/-- The load is served at the home slice (R106, R108): the value is that of the serialisation point, and a fill goes down the
channel unless the page is uncached or no way can take it (R150, R284), in which case an LDR does not fold. The load of a pushed
copy counts (R124). -/
def State.serveSlice (s : State) (c slot g op n : Nat) (t : Team) (grp : Group) (o : Op) (p : Part) (x : Xlat) (key : KeyPair)
    (w : Who) : State :=
  let sec := x.pa / 64
  let s := s.fillSector w sec
  if p.words.any s.mem.poison.contains then s.checkOp c slot g op 3 (poisonAt s.mem.poison.contains p.words x.pa)
  else
    let s := s.readPush sec c
    let s :=
      if x.uc then (s.attach c slot g sec p.laneSet).noFold c slot g op
      else if (wayFor (s.core c) (sec / 4)).isNone then
        -- Served from the fill, which no line takes (R121, R150).
        ((s.recordFill sec c slot t.asid).attach c slot g sec p.laneSet).noFold c slot g op
      else (s.sendFill w sec x.key key c slot t.asid [(slot, g, p.laneSet)]).readSec c slot g op sec
    s.finishLoad c slot g op n t grp o p (fun a => s.mem.byteAt key (x.pa / 64 * 64 + a % 64))

/-- The load is served from the core's L1 copy (R108). -/
def State.serveL1 (s : State) (c slot g op n : Nat) (t : Team) (grp : Group) (o : Op) (p : Part) (x : Xlat) (d : L1Sec) : State :=
  let bad (w : Nat) : Bool := bit d.pois (w % 2)
  let sec := x.pa / 64
  if p.words.any bad then s.checkOp c slot g op 3 (poisonAt bad p.words x.pa)
  else
    let s := ((s.readPush sec c).onL1 c sec (fun d => d)).readSec c slot g op sec
    s.finishLoad c slot g op n t grp o p (fun a => secByte d.data (a % 64))

/-- A load of a window byte (R85, R95): it waits for the firing that is latched when it arrives. -/
def State.serveWindow (s : State) (c slot g op n : Nat) (t : Team) (grp : Group) (o : Op) (p : Part) (h wva : Nat) : State :=
  match s.mangles.find? h with
  | none => s
  | some m =>
    let need := match p.st with
      | .window gen => match m.waitsFor wva with
        | some l => if l = gen then some l else none
        | none => none
      | _ => m.waitsFor wva
    match need with
    | some gen => s.onPart c slot g op n (fun p => { p with st := .window gen })
    | none =>
      let vas := fun a => wva / 64 * 64 + a % 64
      match (p.lanes.flatMap (fun l => (List.range l.width).map (fun i => l.addr + i))).find? (fun a => (m.loadByte (vas a)).2) with
      | some a => s.checkOp c slot g op 3 (p.pa a / 32 * 32)
      | none => s.finishLoad c slot g op n t grp o p (fun a => (m.loadByte (vas a)).1)

/-- A load of ordinary memory (R108, R110, R113, R115, R217). A load all of whose bytes stand in the lanes' own store buffers,
and one that the core's copy serves, go on while another core pins the sector; one that the slice serves, and a synchronising
one, wait. -/
def State.serveMem (s : State) (c slot g op n : Nat) (t : Team) (grp : Group) (o : Op) (p : Part) (x : Xlat) (key : KeyPair)
    (w : Who) : State :=
  let sec := x.pa / 64
  let va := (p.lanes.headD LaneAcc.zero).addr
  let holder (s : State) : Option Nat := (s.sector sec).pin.map (fun q => q.1)
  let away := decide (holder s ≠ none) && decide (holder s ≠ some c)
  let ahead := s.ahead t.asid c slot g sec grp op p.laneSet
  let local_ (d : L1Sec) : Bool := d.pinned || (!x.uc && !ahead)
  if o.ord ≠ 1 then
    if s.ownAll t grp op o p then s.finishLoad c slot g op n t grp o p (fun _ => 0)
    else
      match (s.core c).l1Sec sec with
      | some d =>
        if local_ d then s.serveL1 c slot g op n t grp o p x d
        else if (holder s).isSome then s else s.serveSlice c slot g op n t grp o p x key w
      | none => if (holder s).isSome then s else s.serveSlice c slot g op n t grp o p x key w
  else if away then s
  else
    let wide := decide (3 ≤ o.scope)
    let s := if wide then s.unpin sec 0 else s
    let free := (holder s).isNone && ((s.core c).l1Sec sec).isNone
    let (clash, s) := s.synchronise w sec x.key key c slot g o.scope (clusterCores s c t) (!t.sup) (!x.uc)
    -- The pin brings the sector as a fill would (R108, R121).
    let s := if free && (holder s).isSome then s.recordFill sec c slot t.asid else s
    let s := if clash then (s.unpin sec 0).onOp c slot g op (fun o => { o with spoiled := true, touched := [va] }) else s
    let atSlice := wide || clash || isSpread s (s.home x.pa) sec
    match holder s, (s.core c).l1Sec sec with
    | some _, some d => if d.pinned then s.serveL1 c slot g op n t grp o p x d else s
    | some _, none => s
    | none, some d =>
      if !atSlice && local_ d then s.serveL1 c slot g op n t grp o p x d else s.serveSlice c slot g op n t grp o p x key w
    | none, none => s.serveSlice c slot g op n t grp o p x key w

/-- A load of a private line (R118). -/
def State.servePhase (s : State) (c slot g op n : Nat) (grp : Group) (o : Op) (p : Part) (x : Xlat) (key : KeyPair) (w : Who)
    (ph va : Nat) : State :=
  match s.fetchPhase w c slot ph va x.pa key with
  | none => s
  | some s =>
    match s.team? c slot with
    | none => s
    | some t =>
      let bad (w : Nat) : Bool := t.phaseBad ph (va / 256 * 256 + 32 * w % 256) 32
      if p.words.any bad then s.checkOp c slot g op 3 (poisonAt bad p.words x.pa)
      else (s.noFold c slot g op).finishLoad c slot g op n t grp o p (fun a => t.phaseByte ph a)

/-- A load of another team's or the team's own scratchpad (R153, R160, R222). -/
def State.serveScratch (s : State) (c slot g op n : Nat) (t : Team) (grp : Group) (o : Op) (p : Part) (tc ts : Nat) : State :=
  match s.team? tc ts with
  | none => ({ s with freeCtr := s.freeCtr + 1 }).finishLoad c slot g op n t grp o p (fun _ => (Config.fresh s.freeCtr).setWidth 8)
  | some tt =>
    if p.lanes.any (fun l => (wordsOf l.addr l.width).any (fun w => tt.scratchPois.contains w)) then s.checkOp c slot g op 3 0
    else
      let s := s.finishLoad c slot g op n t grp o p (fun a => tt.scratch.getD a 0)
      if tc = c ∧ ts = slot then
        (dedup (p.lanes.flatMap (fun l => [scratchLine c slot l.addr, scratchLine c slot (l.addr + l.width - 1)]))).foldl
          (fun s l => s.touchLine { core := c, slot := slot, group := g, path := o.path } l) s
      else s

/-- A load part is served (R217, R108, R95, R118, R298). A step that may not be taken yet leaves the state as it is. -/
def State.serve (s : State) (c slot g op n : Nat) : State :=
  match s.team? c slot, s.group? c slot g with
  | some t, some grp =>
    match grp.ops.find? op with
    | none => s
    | some o =>
      match o.parts[n]? with
      | none => s
      | some p =>
        let open_ := match p.st with
          | .ready => true
          | .window _ => true
          | _ => false
        let at_ := s.physAt t.asid
        if o.kind ≠ .load ∨ !open_ ∨ !grp.allows at_ op n ∨ (o.space ≠ .global ∧ !grp.inOrder at_ c op n o p) then s
        else
          match o.space with
          | .scratch tc ts => s.serveScratch c slot g op n t grp o p tc ts
          | .global =>
            match p.xl with
            | none => s
            | some x =>
              let va := (p.lanes.headD LaneAcc.zero).addr
              let w := whoLane { core := c, slot := slot, group := g, path := 0 }
              let s := s.touchLine { core := c, slot := slot, group := g, path := o.path } (x.pa / 256)
              -- An LDR folds only over cacheable memory that is no mangle window (R175).
              let s := if x.uc || (windowAt s x.pa).isSome || !stored x.pa then s.noFold c slot g op else s
              match o.stopper s, o.barred t with
              | some (k, pa), _ => s.checkOp c slot g op k pa
              | none, some va => s.barWide c slot g op o va
              | none, none =>
                if region x.pa = .regs then
                  let wide := p.lanes.all (fun l => decide (l.width = 8))
                  s.finishLoad c slot g op n t grp o p (fun a =>
                    if wide then BitVec.ofNat 8 ((regRead s ((x.pa / 64 * 64 + a % 64) / 8 * 8 - Config.devBase)).toNat / 2 ^ (8 * (a % 8))) else 0)
                else
                  match t.phaseAt va with
                  | some ph => s.servePhase c slot g op n grp o p x ((s.keys.find? x.key).getD default) w ph va
                  | none =>
                    if region x.pa = .remote then s.sendPart c slot g op n t grp o p x
                    else
                      match s.keys.find? x.key with
                      | none => s
                      | some key =>
                        if mangleFault s t.asid x.pa x.mng .load then s.parkPart c slot g op n t.asid va 0 w
                        else
                          match windowAt s x.pa with
                          | some (h, wva) => s.serveWindow c slot g op n t grp o p h wva
                          | none => s.serveMem c slot g op n t grp o p x key w
  | _, _ => s

end Sys2Proof.Machine
end

