-- ==== Sys2Proof/Machine/Stores.lean ====
section
/-! DEFINITION. Stores and atomics take their step (R105, R109, R110, R225), acknowledgements (R105, R216), messages at a core
(R106, R107, R123), and the end of an access, where its result is written (R167, R314). -/

namespace Sys2Proof.Machine

/-- The identity of an access in a slice's log (R309). -/
def logId (t : Team) (g op n : Nat) : Nat := (((t.grid * 65536 + t.cluster) * 16 + t.rank) * 32 + g) * 2 ^ 24 + op * 32 + n

/-- A store whose parts have all been acknowledged leaves the store buffer. -/
def State.endStore (s : State) (c slot g op : Nat) : State :=
  match (s.group? c slot g).bind (fun x => x.ops.find? op) with
  | none => s
  | some o =>
    if o.kind = .store && o.parts.all (fun p => p.st = .acked) then
      let s := if o.spoiled then s.scopeTrap c slot g o else s
      s.dropOp c slot g op
    else s

/-- A part of a store or atomic is acknowledged. -/
def State.ackPart (s : State) (c slot g op n : Nat) : State :=
  (s.onPart c slot g op n (fun p => { p with st := .acked })).endStore c slot g op

/-- The old value that lane bytes held. -/
def readBytes (byte : Nat → Byte) (at_ w : Nat) : Nat := leNat ((List.range w).map (fun i => byte (at_ + i)))

/-- What an atomic of a lane writes over `old` (R384): nothing where a CAS does not match. -/
def atomWrite (aop : Nat) (ty : Ty) (l : LaneAcc) (old : Nat) : Option Nat :=
  if aop = 7 then (if old = l.data then some l.data2 else none) else some (atomApply aop ty.code (8 * l.width) old l.data)

/-- The acts that come before a synchronising or wide access performs (R110, R111, R115): what it has become, and whether it
may go on in this step. -/
structure Prep where
  st : State
  go : Bool
  /-- It performs in the core's own L1. -/
  local_ : Bool
  deriving DecidableEq, Repr

/-- Lanes of the path that an operation was issued by: those of the path while it is there, and the operation's own. -/
def Group.pathLanes (g : Group) (o : Op) : LaneSet :=
  o.lanes ||| ((g.paths.find? o.path).map (fun p => p.lanes)).getD 0

/-- The sectors pinned in a core's L1 that hold stores of some lanes of a group (R115). -/
def pinsWrittenBy (s : State) (core slot g : Nat) (lanes : LaneSet) : List Nat :=
  ((s.sectors.filter (fun q => decide (q.2.pin.map (fun p => p.1) = some core))).map (fun q => q.1)).filter (fun sec =>
    match (s.core core).l1Sec sec with
    | some d => d.writers.any (fun w => w.1 = slot && w.2.1 = g && decide (w.2.2 &&& lanes ≠ 0))
    | none => false)

/-- An operation waits until some sectors have been unpinned and their write-backs acknowledged (R111, R115). -/
def State.unpinFor (s : State) (c slot g op : Nat) (secs : List Nat) : State :=
  let (k, s) := s.newWork secs.length
  (secs.foldl (fun s sec => s.unpin sec k) s).onOp c slot g op (fun o => { o with waits := k :: o.waits })

/-- Prepare a store or atomic on a sector of ordinary memory (R110 to R115, R217, R225). -/
def State.prepare (s : State) (c slot g op : Nat) (t : Team) (grp : Group) (o : Op) (x : Xlat) (key : KeyPair) (sec va : Nat)
    (w : Who) : Prep :=
  let holder (s : State) : Option Nat := (s.sector sec).pin.map (fun q => q.1)
  -- In the core's own L1, once the pinned copy has come to it and no other core holds older bytes (R219).
  let own (s : State) : Prep := ⟨s, decide (((s.core c).l1Sec sec).map (fun d => d.pinned) = some true) && !s.invalsOut sec, true⟩
  let atomic := match o.kind with | .atomic _ _ => true | _ => false
  let release := decide (o.ord = 2)
  if decide (holder s ≠ none) && decide (holder s ≠ some c) then ⟨s, false, false⟩
  else if !atomic && decide (o.ord = 0) then (if holder s = some c then own s else ⟨s, true, false⟩)
  else if 3 ≤ o.scope ∧ release ∧ holder s = some c then
    -- A wide release first unpins, and waits for the write-back (R111, R218).
    ⟨s.unpinFor c slot g op [sec], false, false⟩
  else
    let mine := if decide (o.scope ≤ 2) && release && isSpread s (s.home x.pa) sec
      then pinsWrittenBy s c slot g (grp.pathLanes o) else []
    -- A narrow release on a spread sector is widened (R115).
    if !mine.isEmpty then ⟨s.unpinFor c slot g op mine, false, false⟩
    else
      let s := if 3 ≤ o.scope then s.unpin sec 0 else s
      let (clash, s) := s.synchronise w sec x.key key c slot g o.scope (clusterCores s c t) (!t.sup) (!x.uc)
      let s := if clash then (s.unpin sec 0).onOp c slot g op (fun o => { o with spoiled := true, touched := [va] }) else s
      if holder s = some c then own s else ⟨s, true, false⟩

/-- A line that the team has published is still to perform: its later stores there follow it (R119). -/
def State.pubWaits (s : State) (c slot va : Nat) : Bool :=
  s.pubs.any (fun p => p.2.core = c && p.2.slot = slot && (p.2.lines.find? (va / 256)).isSome)

/-- Bytes are written into a pinned sector (R110): the lanes that wrote them are kept (R115). -/
def State.writePinned (s : State) (c slot g sec : Nat) (lanes : LaneSet) (bs : Tab Byte) : State :=
  ((s.onL1 c sec (fun d => { d.patch (relBytes bs) 0 with writers := (slot, g, lanes) :: d.writers })).killFolds c sec).wrote (sec / 4)

/-- The words of a scratchpad that the parts of a store which have performed, with part n, cover whole: they lose their poison
(R22, R160). -/
def Op.wholeWords (o : Op) (n : Nat) : List Nat :=
  let done := ((o.parts.zipIdx).filter (fun (p : Part × Nat) => p.1.performed || p.2 = n)).map (fun p => p.1)
  let bytes := dedup (done.flatMap (fun p => (p.stores (fun a => a)).map (fun b => b.1)))
  (dedup (bytes.map (fun b => b / 32))).filter (fun w => decide ((bytes.filter (fun b => b / 32 = w)).length = 32))

/-- The bytes that the parts of a scratchpad store write to a 16-byte chunk. -/
def Op.chunkBytes (o : Op) (c : Nat) : Tab Byte :=
  (o.parts.flatMap (fun p => p.stores (fun a => a))).filter (fun b => b.1 / 16 = c)

/-- A lane store of another group to chunks of a team's scratchpad meets a matrix operation in progress (R210): each of its
steps to come sees all that the store writes to a chunk, or nothing of it. `old` is the scratchpad before the part performs. -/
def MatOp.meets (m : MatOp) (old : Tab Byte) (who : Nat × Nat × Nat × Nat) (o : Op) (bs : Tab Byte) : MatOp :=
  (dedup (bs.map (fun p => p.1 / 16))).foldl (fun m c =>
    let base := (m.base.find? c).getD ((List.range 16).map (fun i => (16 * c + i, old.getD (16 * c + i) 0)))
    let m := { m with base := m.base.set c base }
    if m.late.any (fun w => w.chunk = c && w.store = some who) then m
    else { m with late := m.late ++ [{ chunk := c, store := some who, bytes := o.chunkBytes c }] }) m

/-- A store part performs in a scratchpad (R153, R222). -/
def State.storeScratch (s : State) (c slot g op n : Nat) (o : Op) (p : Part) (tc ts : Nat) : State :=
  let bs := p.stores (fun a => a)
  let old : Tab Byte := ((s.team? tc ts).map (fun t => t.scratch)).getD []
  let s := s.onMatrix tc ts (fun m =>
    if c = tc ∧ slot = ts ∧ g = m.group then m.seen bs else m.meets old (c, slot, g, op) o bs)
  let s := s.padWrite tc ts bs [] (decide (tc = c) && decide (ts = slot))
  (s.onTeam tc ts (fun t => { t with scratchPois := t.scratchPois.filter (fun w => !(o.wholeWords n).contains w) })).ackPart c slot g op n

/-- A store part performs in the register space (R298), which clears the marks of paths that recorded its line (R260). -/
def State.storeRegs (s : State) (c slot g op n : Nat) (p : Part) : State :=
  let bs := p.stores p.pa
  let s := if p.lanes.all (fun l => decide (l.width = 8)) then
      (dedup (bs.map (fun b => b.1 / 8 * 8))).foldl (fun s r =>
        regWrite s (r - Config.devBase) (BitVec.ofNat 64 (leNat ((List.range 8).map (fun i => bs.getD (r + i) 0))))) s
    else s
  (s.wrote (p.pa (p.lanes.headD LaneAcc.zero).addr / 256)).ackPart c slot g op n

/-- A store part performs (R105, R110, R118, R153, R298). -/
def State.store (s : State) (c slot g op n : Nat) : State :=
  match s.team? c slot, s.group? c slot g with
  | some t, some grp =>
    match grp.ops.find? op with
    | none => s
    | some o =>
      match o.parts[n]? with
      | none => s
      | some p =>
        let at_ := s.physAt t.asid
        if o.kind ≠ .store ∨ p.st ≠ .ready ∨ !grp.allows at_ op n ∨ !(o.waits.all s.workDone) ∨
            (o.space ≠ .global ∧ !grp.inOrder at_ c op n o p) then s
        else
          match o.space with
          | .scratch tc ts => s.storeScratch c slot g op n o p tc ts
          | .global =>
            match p.xl with
            | none => s
            | some x =>
              let va := (p.lanes.headD LaneAcc.zero).addr
              let w := whoLane { core := c, slot := slot, group := g, path := 0 }
              match o.stopper s, o.barred t with
              | some (k, pa), _ => s.checkOp c slot g op k pa
              | none, some va => s.barWide c slot g op o va
              | none, none =>
                if region x.pa = .regs then s.storeRegs c slot g op n p
                else
                  if s.pubWaits c slot va then s
                  else
                    let key := (s.keys.find? x.key).getD default
                    match t.phaseAt va with
                    | some ph =>
                      match s.fetchPhase w c slot ph va x.pa key with
                      | none => s
                      | some s => ((s.onTeam c slot (fun t => t.writePhase ph (p.stores (fun a => a)))).wrote (x.pa / 256)).ackPart c slot g op n
                    | none =>
                      if region x.pa = .remote then s.sendPart c slot g op n t grp o p x
                      else
                        let bs := p.stores p.pa
                        if mangleFault s t.asid x.pa x.mng .store then s.parkPart c slot g op n t.asid va 1 w
                        else match windowAt s x.pa with
                        | some (h, wva) =>
                          let home := s.home x.pa
                          let id := logId t g op n
                          if !s.mayLog home id then s
                          else
                            let s := (s.logAt home id).onPart c slot g op n (fun p => { p with st := .done })
                            (s.wrote (x.pa / 256)).windowStore h (bs.map (fun b => (wva / 64 * 64 + b.1 % 64, b.2))) [] (.part c slot g op n)
                        | none =>
                            let sec := x.pa / 64
                            let r := s.prepare c slot g op t grp o x key sec va w
                            if !r.go then r.st
                            else if r.local_ then (r.st.writePinned c slot g sec p.laneSet bs).ackPart c slot g op n
                            else
                              (r.st.onPart c slot g op n (fun p => { p with st := .done })).performAt w key x.key bs [] (some c) (.part c slot g op n)
  | _, _ => s

/-- The poisoned words that the parts of an atomic still to perform touch (R21, R282): private ones, those of a copy that the
core holds pinned, and those at the serialisation point. -/
def State.atomBad (s : State) (c : Nat) (t : Team) (o : Op) : List Nat :=
  (o.parts.filter (fun p => p.st = .ready)).flatMap (fun p =>
    let va := (p.lanes.headD LaneAcc.zero).addr
    match t.phaseAt va with
    | some ph => if t.phaseBad ph va 1 then p.words else []
    | none => p.words.filter (fun w =>
        match (s.core c).l1Sec (w / 2) with
        | some d => if d.pinned then bit d.pois (w % 2) else s.mem.poison.contains w
        | none => s.mem.poison.contains w))

/-- The private lines and the sectors that the parts of an atomic touch are there to be read: none where one must still wait. -/
def State.atomFill (s : State) (w : Who) (c slot : Nat) (t : Team) (o : Op) : Option State :=
  (o.parts.filter (fun p => p.st = .ready)).foldl (fun (acc : Option State) p =>
    match acc, p.xl with
    | some s, some x =>
      let va := (p.lanes.headD LaneAcc.zero).addr
      match t.phaseAt va with
      | some ph => s.fetchPhase w c slot ph va x.pa ((s.keys.find? x.key).getD default)
      | none => some (p.words.foldl (fun s q => if s.badWord q then s.fillSector w (q / 2) else s) s)
    | acc, _ => acc) (some s)

/-- An atomic of a private line (R118). -/
def State.atomicPhase (s : State) (c slot g op n aop : Nat) (ty : Ty) (l : LaneAcc) (ph line : Nat) : State :=
  match s.team? c slot with
  | none => s
  | some t =>
    let old := readBytes (t.phaseByte ph) l.addr l.width
    let s := match atomWrite aop ty l old with
      | some v => (s.onTeam c slot (fun t => t.writePhase ph ((leBytes l.width v).zipIdx.map (fun (b : Byte × Nat) => (l.addr + b.2, b.1))))).wrote line
      | none => s
    (s.onPart c slot g op n (fun p => { p with lanes := p.lanes.map (fun l => { l with got := old }) })).ackPart c slot g op n

/-- An atomic on ordinary memory, prepared (R109, R225): in the core's own L1, or at the serialisation point. -/
def State.atomicMem (s : State) (c slot g op n aop : Nat) (ty : Ty) (l : LaneAcc) (x : Xlat) (key : KeyPair) (pa : Nat) (lanes : LaneSet)
    (w : Who) (local_ : Bool) : State :=
  let sec := pa / 64
  let newBytes (v : Nat) : Tab Byte := (leBytes l.width v).zipIdx.map (fun (b : Byte × Nat) => (pa + b.2, b.1))
  let got (s : State) (old : Nat) (st : PartSt) : State :=
    s.onPart c slot g op n (fun p => { p with st := st, lanes := p.lanes.map (fun l => { l with got := old }) })
  if local_ then
    match (s.core c).l1Sec sec with
    | none => s
    | some d =>
      let old := readBytes (fun a => secByte d.data (a % 64)) pa l.width
      let s := match atomWrite aop ty l old with
        | some v => s.writePinned c slot g sec lanes (newBytes v)
        | none => s
      (got s old .ready).ackPart c slot g op n
  else
    let s := s.fillSector w sec
    let old := readBytes (s.mem.byteAt key) pa l.width
    let s := got s old .done
    match atomWrite aop ty l old with
    | some v => (s.performAt w key x.key (newBytes v) [] (some c) (.part c slot g op n)).attach c slot g sec lanes
    | none => (s.newAck 0 (.part c slot g op n)).2.attach c slot g sec lanes

/-- An atomic part performs (R109, R118, R225, R384). Every word that the instruction still touches is checked for poison
first (R21). -/
def State.atomic (s : State) (c slot g op n : Nat) : State :=
  match s.team? c slot, s.group? c slot g with
  | some t, some grp =>
    match grp.ops.find? op with
    | none => s
    | some o =>
      match o.parts[n]?, o.kind with
      | some p, .atomic aop ty =>
        let at_ := s.physAt t.asid
        if p.st ≠ .ready ∨ !grp.allows at_ op n ∨ !(o.waits.all s.workDone) ∨ !grp.inOrder at_ c op n o p then s
        else
          match p.xl, p.lanes with
          | some x, l :: _ =>
            let w := whoLane { core := c, slot := slot, group := g, path := 0 }
            let pa := p.pa l.addr
            match o.stopper s, o.barred t with
            | some (k, pa), _ => s.checkOp c slot g op k pa
            | none, some va => s.barWide c slot g op o va
            | none, none =>
              if s.pubWaits c slot l.addr then s
              else
                match s.atomFill w c slot t o with
                | none => s
                | some s =>
                  let bad := s.atomBad c ((s.team? c slot).getD t) o
                  if !bad.isEmpty then s.checkOp c slot g op 3 (poisonAt (fun _ => true) bad pa)
                  else
                    match t.phaseAt l.addr with
                    | some ph => s.atomicPhase c slot g op n aop ty l ph (x.pa / 256)
                    | none =>
                      if region x.pa = .remote then s.sendPart c slot g op n t grp o p x
                      else if mangleFault s t.asid x.pa x.mng .atomic then s.parkPart c slot g op n t.asid l.addr 2 w
                      else
                        let home := s.home pa
                        let id := logId t g op n
                        if !s.mayLog home id then s
                        else
                          let key := (s.keys.find? x.key).getD default
                          let r := s.prepare c slot g op t grp o x key (pa / 64) l.addr w
                          if !r.go then r.st
                          else (r.st.logAt home id).atomicMem c slot g op n aop ty l x key pa p.laneSet w r.local_
          | _, _ => s
      | _, _ => s
  | _, _ => s

/-- A counter is zero: its store, atomic, unit or eviction is acknowledged (R105, R216). -/
def State.acknowledge (s : State) (a : Nat) : State :=
  match s.acks.find? a with
  | none => s
  | some k =>
    if k.left ≠ 0 ∨ k.held then s
    else
      let s := { s with acks := s.acks.erase a }
      match k.dest with
      | .part c slot g op n => s.ackPart c slot g op n
      | .unit c op u =>
        s.onCopy c op (fun o => { o with units := o.units.set u .counted, arrived := o.arrived + 1 })
      | .work w _ => s.endPart w
      | .task _ => s
      | .host _ _ => s
      | .remote n =>
        -- A request of several sectors is answered with the last of them (R119).
        match if s.acks.any (fun a => decide (a.2.dest = .remote n)) then none else s.received.find? n with
        | some r => { s with received := s.received.erase n,
                             replies := s.replies ++ [{ device := r.device, path := r.path, seq := r.seq, refused := false, pois := false, value := r.acc.got }] }
        | none => s
      | .evict sec =>
        -- What a core holds by now, or is on its way to it, stays tracked (R104).
        let held := (List.range 192).filter (fun c => ((s.core c).l1Sec sec).isSome || s.incoming c sec)
        s.onSector sec (fun x =>
          { x with evicting := false, coarse := held.foldl (fun v c => v ||| BitVec.ofNat 24 (2 ^ (c / 8))) 0 })
      | .nobody _ => s

/-- A copy comes to a core, or finds no way there (R106, R150): what a fold entry has read of it then goes with it (R229). -/
def State.receive (s : State) (core sec : Nat) (x : L1Sec) : Bool × State :=
  match s.install core sec x with
  | (true, s) => (true, s)
  | (false, s) => (false, (s.killFolds core sec).gone core sec)

/-- The oldest message of a channel is applied at its core (R106, R107, R123). -/
def State.deliverMsg (s : State) (slice core : Nat) : State :=
  let key := slice * 192 + core
  match s.channel slice core with
  | [] => s
  | m :: rest =>
    let s := { s with channels := if rest.isEmpty then s.channels.erase key else s.channels.set key rest }
    let copy (data : BitVec 512) (pois k : Nat) (pushed : Option (Nat × Nat)) (pinned : Bool) : L1Sec :=
      { data := data, pois := pois, key := k, pushed := pushed, pinned := pinned, writers := [] }
    -- What a fold entry has of a sector is gone before the core's copy changes (R107, R229): with a fill too, where it replaces
    -- a copy or later messages for the sector are on their way.
    let heard (s : State) : State := (s.killFolds core m.sec).clearSpins core (m.sec / 4)
    let s := match m.body with
      | .fill data pois k =>
        let s := if ((s.core core).l1Sec m.sec).isSome || rest.any (fun q => q.sec = m.sec) then s.killFolds core m.sec else s
        (s.receive core m.sec (copy data pois k none false)).2
      | .update bytes pois => (heard s).onL1 core m.sec (fun d => d.patch bytes pois)
      | .inval => ((heard s).onCore core (fun k => k.without m.sec)).gone core m.sec
      | .push data pois k prod slot epoch =>
        let s := heard s
        let t := s.core core
        if (t.epoch slot).toNat ≠ epoch ∨ (t.slots.find? slot).isNone then
          -- A stale or leaving slot refuses, and the route departs (R124).
          (s.onRoute slice m.sec prod core slot (fun r => { r with dep := true }) none).gone core m.sec
        else
          match s.receive core m.sec (copy data pois k (some (prod, slot)) false) with
          | (true, s) => s.onRoute slice m.sec prod core slot (fun r => r) (some 2)
          | (false, s) => s.unreadPush m.sec core prod slot
      | .pin data pois k =>
        -- A pushed copy that no load has read stays marked (R124).
        match s.receive core m.sec (copy data pois k (((s.core core).l1Sec m.sec).bind (fun d => d.pushed)) true) with
        | (true, s) => s
        | (false, s) =>
          -- A copy that it already has is what the slice has.
          let held := ((s.core core).l1Sec m.sec).isSome
          s.onSector m.sec (fun x => let y := { x with pin := none }; if held then y.join core else y)
    s.countAck m.ack

/-- A lane's value as it enters a register (R376): sign- or zero-extended to 32 bits, or the raw low bits. -/
def extend (ty : Ty) (x : Nat) : Nat :=
  match ty with
  | .i8 => wrap 32 (signed 8 x)
  | .i16 => wrap 32 (signed 16 x)
  | _ => x

/-- Write the result of a load or atomic to V registers (R163, R376), in lanes that have not exited (R357): register k of the value takes its bits 32k upward. -/
def State.writeGot (s : State) (c slot g reg : Nat) (ty : Ty) (o : Op) (count : Nat) : State :=
  let lanes := o.accs
  let gone := ((s.group? c slot g).map (fun x => x.exited)).getD 0
  let mask := laneSetOf (fun i => lanes.any (fun l => l.lane = i)) &&& ~~~gone
  let val (i : Nat) : Nat := match lanes.find? (fun l => l.lane = i) with
    | some l => extend ty l.got
    | none => 0
  (List.range count).foldl (fun s k =>
    s.writeLanes c slot g mask (reg + k) (packLanes (fun i => BitVec.ofNat 32 (val i / 2 ^ (32 * k))))) s

/-- Registers that one lane's value takes. -/
def regsOf (width : Nat) : Nat := if width ≤ 4 then 1 else width / 4

/-- The result of an access is written (R167, R314): all lanes at once, and the instruction is complete. -/
def State.retireOp (s : State) (c slot g op : Nat) : State :=
  match s.team? c slot, s.group? c slot g with
  | some t, some grp =>
    match grp.ops.find? op with
    | none => s
    | some o =>
      if !o.kind.isRead ∨ !o.parts.all (fun p => p.returned o.kind) then s
      else
        let width := (o.accs.headD LaneAcc.zero).width
        let n := regsOf width
        let prior : List Nat := match o.dst with
          | .v r _ => (List.range n).map (fun i => grp.nameOf (r + i))
          | _ => []
        let s := match o.dst with
          | .none => s
          | .v r ty => s.writeGot c slot g r ty o n
          | .s r ty =>
            let x := extend ty (o.accs.headD LaneAcc.zero).got
            s.onGroup c slot g (fun grp => if n = 2 then grp.setPair r (BitVec.ofNat 64 x) else grp.setS r (BitVec.ofNat 32 x))
        let s := match o.fold, o.dst with
          | some k, .v r _ =>
            -- Lanes that have exited were not written (R357): there is no entry.
            if o.spoiled || decide (o.lanes &&& grp.exited ≠ 0) then s
            else
              match s.group? c slot g with
              | some grp =>
                s.onQuarter c grp.quarter (fun q =>
                  -- The prior names are those that the result has just been merged with (R173).
                q.enter { key := { k with prior := if k.prior.isEmpty then [] else prior }, names := (List.range n).map (fun i => grp.nameOf (r + i)),
                            vals := (List.range n).map (fun i => grp.vreg (r + i)), flags := 0, secs := dedup o.touched })
              | none => s
          | _, _ => s
        let s := if o.fold.isNone && o.spoiled then s.scopeTrap c slot g o else s
        let _ := t
        s.dropOp c slot g op
  | _, _ => s

end Sys2Proof.Machine
end

