-- ==== Sys2Proof/Machine/Engine.lean ====
section
/-! DEFINITION. Translation through the TLBs (R284, R285), reads of descriptors, tables and code by the device (R263, R277,
R316), and the accesses of engines at the serialisation point (R115, R133, R226). -/

namespace Sys2Proof.Machine

/-- The entry of a TLB that maps an address. -/
def tlbHit (l : List TlbEntry) (asid va : Nat) : Option TlbEntry :=
  l.find? (fun e => e.asid = asid && decide (e.vpn = va / 2 ^ e.lg))

/-- Enter a translation in a TLB of n entries: the oldest gives way. -/
def tlbPut (l : List TlbEntry) (n : Nat) (e : TlbEntry) : List TlbEntry := (e :: l.filter (fun x => x ≠ e)).take n

/-- The unit of a placement move that holds an address is frozen (R29): its accesses wait. -/
def frozenAt (s : State) (asid va : Nat) : Bool :=
  s.moves.any (fun m => m.2.asid = asid && m.2.frozen && decide (m.2.va / 2 ^ m.2.lg = va / 2 ^ m.2.lg) &&
    (decide (m.2.lg ≠ 21) || decide (va % 2 ^ 21 / 65536 = m.2.piece)))

/-- A placement move has frozen a unit that a stretch of n bytes meets (R29). -/
def frozenSpan (s : State) (asid va n : Nat) : Bool :=
  s.moves.any (fun m =>
    let base := m.2.va + (m.2.from_ - m.2.old)
    m.2.asid = asid && m.2.frozen && decide (base < va + n) && decide (va < base + m.2.unit))

/-- A placement move is under way of a page that a stretch of n bytes meets (R31). -/
def onMove (s : State) (asid va n : Nat) : Bool :=
  s.moves.any (fun m =>
    let page := m.2.va / 2 ^ m.2.lg * 2 ^ m.2.lg
    m.2.asid = asid && decide (page < va + n) && decide (va < page + 2 ^ m.2.lg))

/-- The record of a failed walk read is logged (R284). -/
def State.logWalk (s : State) (w : Who) (f : WalkFail) : State :=
  match f.log with
  | some (k, pa) => s.log23 w k pa
  | none => s

/-- Translate an access of a core (R284): its L1 TLB, then the die's L2 TLB, then a walk, which fills both. The record of a
failed walk read is logged. While a 2 MiB page is being moved the L1 TLB takes no entry for it (R29). -/
def State.xlate (s : State) (w : Who) (core asid va : Nat) (a : Acc) (sup device : Bool) : TransOut × State :=
  let enter (s : State) (e : TlbEntry) : State :=
    if movingPage s asid va then s else s.onCore core (fun k => { k with tlb := tlbPut k.tlb 64 e })
  match tlbHit (s.core core).tlb asid va with
  | some e => (applyEntry s e va a sup device, s)
  | none =>
    let die := dieOf core
    match tlbHit (s.die die).tlb asid va with
    | some e => (applyEntry s e va a sup device, enter s e)
    | none =>
      let s := s.walkFills w (s.die die).walk asid va
      match walk s (s.die die).walk asid va with
      | .error f => (.fault f.kind, s.logWalk w f)
      | .ok (e, seen) =>
        let out := applyEntry s e va a sup device
        let s := s.onDie die (fun d => { d with tlb := tlbPut d.tlb 32768 e, walk := seen ++ d.walk.filter (fun x => !seen.contains x) })
        (out, enter s e)

/-- What a read by the device of memory under a team's ASID comes to. -/
inductive ReadOut where
  | ok (bs : List Byte)
  /-- A translation or protection fault, and the address. -/
  | fault (kind va : Nat)
  /-- A hole, an empty key slot or poison: the KIND of R23 and the address. -/
  | bad (kind pa : Nat)
  /-- The read waits: a placement move has frozen the page (R29), or another core has the sector pinned (R110). -/
  | wait
  deriving DecidableEq, Repr

/-- Bytes that were read, or the poison that was met: `bad` lists the poisoned words (R21). -/
def readGot (pa : Nat) (bs : List Byte) (bad : List Nat) : ReadOut :=
  if (wordsOf pa bs.length).any bad.contains then .bad 3 (poisonAt bad.contains (wordsOf pa bs.length) pa) else .ok bs

/-- Read one stretch inside a sector, for a core or for a unit that is none. Where a core has the sector pinned, its own reads
perform in its L1, another core's are retried, and a unit's read ends the pin (R110, R115). A window answers as for a load (R85). -/
def State.readSector (s : State) (w : Who) (core : Option Nat) (x : Xlat) (n : Nat) : ReadOut × State :=
  if region x.pa = .remote ∧ pathsTo s (bits x.pa 49 40) ≠ [] then
    -- What another device holds is free, its poison too (R20; log 21).
    let (bs, s) := s.freeBytes n
    let (bad, s) := s.freeBad (wordsOf x.pa n).length
    (readGot x.pa bs (bad.map (fun i => x.pa / 32 + i)), s)
  else if region x.pa ≠ .hbm ∧ region x.pa ≠ .tier then (.bad 6 x.pa, s)
  else
    match s.keys.find? x.key with
    | none => (.bad 5 x.pa, s)
    | some key =>
      match windowAt s x.pa with
      | some (h, va) =>
        match s.mangles.find? h with
        | some m =>
          let bs := (List.range n).map (fun i => m.loadByte (va + i))
          (readGot x.pa (bs.map (fun b => b.1)) ((bs.zipIdx.filter (fun b => b.1.2)).map (fun b => (x.pa + b.2) / 32)), s)
        | none => (.bad 6 x.pa, s)
      | none =>
        let sec := x.pa / 64
        match core, (s.sector sec).pin with
        | some c, some (holder, _, _, _) =>
          match (s.core c).l1Sec sec with
          | some d =>
            if holder = c && d.pinned then
              (readGot x.pa ((List.range n).map (fun i => secByte d.data (x.pa % 64 + i)))
                (((List.range 2).filter (bit d.pois)).map (fun i => 2 * sec + i)), s)
            else (.wait, s)
          | none => (.wait, s)
        | _, _ =>
          let s := (s.unpin sec 0).fillSector w sec
          (readGot x.pa (s.mem.read key x.pa n) s.mem.poison, s)

/-- Read n bytes at a virtual address, sector by sector. -/
def State.readVirt (s : State) (w : Who) (core asid : Nat) (a : Acc) (sup : Bool) : Nat → Nat → Nat → ReadOut × State
  | 0, _, _ => (.ok [], s)
  | fuel + 1, va, n =>
    if n = 0 then (.ok [], s)
    else if frozenAt s asid va then (.wait, s)
    else
      let k := if 64 - va % 64 < n then 64 - va % 64 else n
      match s.xlate w core asid va a sup false with
      | (.fault kind, s) => (.fault kind va, s)
      | (.ok x, s) =>
        match s.readSector w (some core) x k with
        | (.ok bs, s) =>
          match State.readVirt s w core asid a sup fuel ((va + k) % 2 ^ 57) (n - k) with
          | (.ok rest, s) => (.ok (bs ++ rest), s)
          | r => r
        | r => r

/-- Read n bytes, n up to 4 KiB. -/
def State.readDesc (s : State) (w : Who) (core asid : Nat) (a : Acc) (sup : Bool) (va n : Nat) : ReadOut × State :=
  s.readVirt w core asid a sup 80 va n

/-- The ASID's table entry names supervisor level (R275). -/
def supOf (s : State) (asid : Nat) : Bool := match asidEntry s asid with
  | .ok e => e.sup
  | .error _ => false

/-- Before an engine access of a class (1 COPY, 2 PADDOCK, 4 MANGLE, 8 HOST, 16 REMOTE) touches a sector: its pin ends, and
the class is entered in the table (R114, R115). -/
def State.engineTouch (s : State) (sec cls : Nat) : State := (s.unpin sec 0).syncTouch (s.home (64 * sec)) sec none cls

/-- The words that an engine store covers. -/
def wordsIn (bs : Tab Byte) : List Nat := dedup (bs.map (fun (b : Nat × Byte) => b.1 / 32))

/-- An engine store of bytes in one sector performs (R134, R226). `bad` lists the words that carry poison (R20). -/
def State.engineStore (s : State) (w : Who) (cls : Nat) (x : Xlat) (key : KeyPair) (bs : Tab Byte) (bad : List Nat) (dest : AckTo) : State :=
  match windowAt s x.pa with
  | some (h, va) =>
    (s.windowStore h (bs.map (fun (b : Nat × Byte) => (va / 64 * 64 + b.1 % 64, b.2))) (bad.map (fun q => va / 64 * 2 + q % 2)) dest).wrote (x.pa / 256)
  | none => (s.engineTouch (x.pa / 64) cls).performAt w key x.key bs bad none dest

/-- An engine read of n bytes in one sector (R133): bytes, and the words of them that are poisoned. None while a window's
result that was to come when the read arrived has yet to switch in (R95). -/
def State.engineLoad (s : State) (w : Who) (cls : Nat) (x : Xlat) (key : KeyPair) (n : Nat) (me : WaitKey) :
    Option (List Byte × List Nat) × State :=
  match windowAt s x.pa with
  | some (h, va) =>
    match s.mangles.find? h with
    | none => (none, s)
    | some m =>
      match m.engineWait me va with
      | (true, m) => (none, { s with mangles := s.mangles.set h m })
      | (false, m) =>
        let bs := (List.range n).map (fun i => m.loadByte (va + i))
        let bad := (bs.zipIdx.filter (fun b => b.1.2)).map (fun b => (x.pa + b.2) / 32)
        (some (bs.map (fun b => b.1), dedup bad), { s with mangles := s.mangles.set h m })
  | none =>
    let sec := x.pa / 64
    let s := (s.engineTouch sec cls).fillSector w sec
    (some (s.mem.read key x.pa n, (wordsOf x.pa n).filter s.mem.poison.contains), s)

/-- An engine atomic on a word (R20, R135): true where the word is poisoned, and nothing but the record is done. `poisOp` says
that the operand is poisoned: the column word is then written as poison. Where the operand and the column word both are, the
operand's row of R20 is followed: no record is logged (log 91). -/
def State.engineAtomic (s : State) (w : Who) (cls : Nat) (x : Xlat) (key : KeyPair) (pa width aop ty opnd : Nat) (poisOp : Bool)
    (dest : AckTo) : Bool × State :=
  let sec := pa / 64
  let s := (s.engineTouch sec cls).fillSector w sec
  if poisOp then (true, s.performAt w key x.key [(pa, 0)] [pa / 32] none dest)
  else if s.mem.poison.contains (pa / 32) then (true, ((s.log23 w 3 pa).newAck 0 dest).2)
  else
    let old := leNat (s.mem.read key pa width)
    let v := atomApply aop ty (8 * width) old opnd
    (false, s.performAt w key x.key ((leBytes width v).zipIdx.map (fun (b : Byte × Nat) => (pa + b.2, b.1))) [] none dest)

end Sys2Proof.Machine
end

