-- ==== Sys2Proof/Machine/Copy.lean ====
section
/-! DEFINITION. The copy engine (R128 to R138, R145, R146): issuing an operation, its reads and writes unit by unit, counting
at its barrier object, completion and abort. -/

namespace Sys2Proof.Machine

/-- The team of a cluster with a rank: its core and slot (R129). -/
def clusterPeer (s : State) (grid clu rank : Nat) : Option (Nat × Nat) :=
  s.cores.foldr (fun c acc =>
    match List.find? (fun (t : Nat × Team) => t.2.grid = grid && t.2.cluster = clu && t.2.rank = rank) c.2.slots with
    | some t => some (c.1, t.1)
    | none => acc) none

/-- The destination lies in a scratchpad. -/
def CopyKind.toScratch : CopyKind → Bool
  | .gs => true
  | .sr => true
  | .rs => true
  | _ => false
/-- The source lies in a scratchpad. -/
def CopyKind.fromScratch : CopyKind → Bool
  | .sg => true
  | .sr => true
  | .rs => true
  | .reduce _ _ => true
  | _ => false
/-- The kind is a CFENCE entry. -/
def CopyKind.fenceMask : CopyKind → Option Nat
  | .cfence m => some m
  | _ => none

/-- Where the units of an operation begin: its destination, or the source of a PREF (R129). -/
def CopyOp.unitBase (o : CopyOp) : Nat := match o.kind with | .pref => o.src | _ => o.dst
/-- How many units an operation has (R129). -/
def CopyOp.total (o : CopyOp) : Nat :=
  if o.size = 0 then 0 else (o.unitBase + o.size - 1) / 64 - o.unitBase / 64 + 1
/-- Bytes of the range that unit u holds, as offsets of the range: first and count. -/
def CopyOp.unitSpan (o : CopyOp) (u : Nat) : Nat × Nat :=
  let lo := (o.unitBase / 64 + u) * 64
  let first := if lo < o.unitBase then 0 else lo - o.unitBase
  let last := if o.unitBase + o.size < lo + 64 then o.size else lo + 64 - o.unitBase
  (first, last - first)
/-- Where source block n lies: offset in the range and count of bytes (one 64-byte block of the source). -/
def CopyOp.srcSpan (o : CopyOp) (n : Nat) : Nat × Nat :=
  let lo := (o.src / 64 + n) * 64
  let first := if lo < o.src then 0 else lo - o.src
  let last := if o.src + o.size < lo + 64 then o.size else lo + 64 - o.src
  (first, last - first)

/-- Every unit has performed its write. -/
def CopyOp.written (o : CopyOp) : Bool :=
  (List.range o.total).all (fun u => match o.units.find? u with
    | some .written => true
    | some .counted => true
    | _ => false)

/-- The queues let an operation start (R131, R132, R137). -/
def canStart (k : Core) (id : Nat) (o : CopyOp) : Bool :=
  o.leave = 0 && !o.parked &&
  k.copies.all (fun e =>
    if id ≤ e.1 then true
    else match e.2.kind.fenceMask with
      | some m => !bit m o.q
      | none => e.2.q ≠ o.q || e.2.written)

/-- The agent of a copy (R279). -/
def CopyOp.who (o : CopyOp) (core : Nat) : Who :=
  { agent := 1, die := dieOf core, core := core, slot := o.slot, group := o.group, id := o.q }

/-- CFENCE entries whose earlier operations have all completed are gone, and their tokens satisfied (R132). -/
def State.settleFences (s : State) (core : Nat) : State :=
  let k := s.core core
  let done := k.copies.filter (fun e => match e.2.kind.fenceMask with
    | some m => k.copies.all (fun d =>
        if e.1 ≤ d.1 then true
        else match d.2.kind.fenceMask with
          | some m2 => decide (m &&& m2 = 0)
          | none => !bit m d.2.q)
    | none => false)
  let s := done.foldl (fun s e => s.endWork e.2.work) s
  let s := s.onCore core (fun k => { k with copies := k.copies.filter (fun e => !done.any (fun d => d.1 = e.1)) })
  done.foldl (fun s e => s.reapTeam core e.2.slot) s

/-- Every CFENCE entry that can go is gone: each pass over the entries may free the next (R132). -/
def State.settleAll (s : State) (core : Nat) : State :=
  (List.range ((s.core core).copies.length + 1)).foldl (fun s _ => s.settleFences core) s

/-- A granted copy gives back its leave (R273). -/
def copyLeave (core op : Nat) : LeaveAsk → Option Nat
  | .copy c o => if c = core ∧ o = op then some 4 else none
  | _ => none

/-- An operation completes: its tag is free, and the queues go on (R128, R143). -/
def State.endCopy (s : State) (core op : Nat) : State :=
  match (s.core core).copies.find? op with
  | none => s
  | some o =>
    let s := match o.tag with
      | some (c, t) => s.onCore c (fun k => { k with tags := k.tags.erase t })
      | none => s
    let s := ((s.giveBack (dieOf core) (copyLeave core op)).withdraw (dieOf core) (copyLeave core op)).endWork o.work
    let s := s.onCore core (fun k => { k with copies := k.copies.erase op })
    let s := s.settleAll core
    s.reapTeam core o.slot

/-- Units arrive at the object of an operation (R140, R143), and the operation completes with its last unit. The first
discarded arrival raises the stale trap where it is enabled: by the GSTAT of the issuing group, or, where that one has exited, of
the group that then receives the trap (log 125). -/
def State.countUnits (s : State) (core op u : Nat) : State :=
  match (s.core core).copies.find? op with
  | none => s
  | some o =>
    let (stale, s) := match o.tag with
      | some (c, t) => s.arrive c t u
      | none => (false, s)
    let addr := match o.tag with
      | some (c, t) => (((s.core c).tags.find? t).map (fun t => t.off)).getD 0
      | none => 0
    let s := if stale && !o.staleSent then
        let g := if (s.group? core o.slot o.group).isSome then some o.group
          else ((s.team? core o.slot).bind (fun t => t.groups.head?)).map (fun g => g.1)
        match g with
        | some g =>
          match s.group? core o.slot g with
          | some x => if bit x.gstat.toNat 5 then
              s.trapLater core o.slot g { cause := 0x0E, detail := 0, addr := addr, pc := 0, inst := none, debug := 0 } else s
          | none => s
        | none => s
      else s
    let s := s.onCopy core op (fun o => { o with arrived := o.arrived - u, counted := o.counted + u, staleSent := o.staleSent || stale })
    if o.total ≤ o.counted + u then s.endCopy core op else s

/-- An operation aborts (R138): its uncounted units are counted at once, ERR is set, and it completes. -/
def State.abortCopy (s : State) (core op : Nat) : State :=
  match (s.core core).copies.find? op with
  | none => s
  | some o =>
    let s := match o.tag with
      | some (c, t) => match (s.core c).tags.find? t with
        | some tag => s.barErr c tag.slot tag.off
        | none => s
      | none => s
    s.countUnits core op (o.total - o.counted)

/-- A fault of a copy (R138): a translation fault parks the operation at its unit, any other ends it. -/
def State.copyFault (s : State) (core op : Nat) (o : CopyOp) (kind va : Nat) : State :=
  let s := s.parkFault (o.who core) core kind 4 o.asid va
  if kind = 0 ∨ kind = 2 then s.onCopy core op (fun o => { o with parked := true }) else s.abortCopy core op

/-- A hole or empty key slot met by a copy (R138). -/
def State.copyHole (s : State) (core op : Nat) (o : CopyOp) (kind pa : Nat) : State :=
  (s.log23 (o.who core) kind pa).abortCopy core op

/-- Put bytes read for the range offsets from `first` upward into the units that hold them. `pois` says which of them lie in a
poisoned word. -/
def CopyOp.take (o : CopyOp) (first : Nat) (bs : List Byte) (pois : Nat → Bool) : CopyOp :=
  bs.zipIdx.foldl (fun o b =>
    let off := first + b.2
    let mark (l : List Nat) : List Nat := if pois b.2 && !l.contains (off / 16) then off / 16 :: l else l
    let u := (o.unitBase + off) / 64 - o.unitBase / 64
    match o.units.find? u with
    | some (.held d p) =>
      if (d.find? off).isSome then o else { o with units := o.units.set u (.held (d.set off b.1) (mark p)) }
    | some _ => o
    | none => { o with units := o.units.set u (.held [(off, b.1)] (mark [])) }) o

/-- The bytes read for a range of offsets are all in their units. -/
def CopyOp.holds (o : CopyOp) (first len : Nat) : Bool :=
  (List.range len).all (fun i => match o.units.find? ((o.unitBase + first + i) / 64 - o.unitBase / 64) with
    | some (.held d _) => (d.find? (first + i)).isSome
    | some _ => true
    | none => false)

/-- The scratchpad that an operation reads: core and slot. -/
def CopyOp.srcPad (o : CopyOp) (core : Nat) : Nat × Nat := match o.kind with | .rs => o.peer | _ => (core, o.slot)
/-- The scratchpad that an operation writes. -/
def CopyOp.dstPad (o : CopyOp) (core : Nat) : Nat × Nat := match o.kind with | .sr => o.peer | _ => (core, o.slot)

/-- A remote request of a copy that has not been answered: of its unit or source block n, of a kind (0 load, 1 store,
2 atomic). -/
def State.copySent (s : State) (core op n what : Nat) : Bool :=
  s.sent.any (fun r => decide (r.2.answer = .unit core op n) && r.2.what = what)

/-- A copy's access to another device is sent as a remote request (R227, R302): it waits while every path is at its limit. -/
def State.copySend (s : State) (core op n : Nat) (o : CopyOp) (x : Xlat) (what aop : Nat) (ty : Ty) (width data : Nat)
    (bs : Tab Byte) (pois : List Nat) : State :=
  if s.copySent core op n what then s
  else
    let r : Remote := { what := what, device := bits x.pa 49 40, offset := x.pa % 2 ^ 40, key := x.key, aop := aop, ty := ty,
                        acc := { LaneAcc.zero with addr := x.pa, width := width, data := data }, bytes := bs, pois := pois, path := 0, seq := 0,
                        port := 0, origin := o.who core, answer := .unit core op n, ofr := false, grp := (core, o.slot, o.group),
                        performed := false }
    match sendRemote s r with
    | .noPath => s.copyHole core op o 6 x.pa
    | .full => s
    | .sent s => s

/-- An operation reads block n of its source (R133), or a PREF fills it (R136). -/
def State.copyRead (s : State) (core op n : Nat) : State :=
  match (s.core core).copies.find? op with
  | none => s
  | some o =>
    let (first, len) := o.srcSpan n
    if !canStart (s.core core) op o ∨ o.kind.fenceMask.isSome ∨ o.size ≤ first ∨ len = 0 then s
    else if o.kind.fromScratch then
      let (c, sl) := o.srcPad core
      match s.team? c sl with
      | none =>
        -- No team holds the peer's slot any longer: what is read is free (log 124).
        let (bs, s) := s.freeBytes len
        s.onCopy core op (fun o => o.take first bs (fun _ => false))
      | some t =>
        let g := s.group? core o.slot o.group
        let pending := o.stores.any (fun e => match g.bind (fun g => g.ops.find? e) with
          | some e => e.parts.any (fun p => !p.performed)
          | none => false)
        -- It sees every earlier scratchpad store of the issuing path (R133).
        if pending then s
        else s.onCopy core op (fun o => o.take first (t.bytesAt (o.src + first) len) (fun i => t.scratchPois.contains ((o.src + first + i) / 32)))
    else
      let va := (o.src + first) % 2 ^ 57
      if frozenAt s o.asid va then s
      else
        match s.xlate (o.who core) core o.asid va .load o.sup false with
        | (.fault kind, s) => s.copyFault core op o kind va
        | (.ok x, s) =>
          if region x.pa = .remote then
            match o.kind, o.units.find? n with
            | .pref, some _ => s
            | .pref, none =>
              -- Local slices do not cache remote lines (R101): there is nothing to fill.
              if x.pa % 2 ^ 40 < 0x8000000000 ∧ pathsTo s (bits x.pa 49 40) ≠ [] then
                s.onCopy core op (fun o => { o with units := o.units.set n .counted, arrived := o.arrived + 1 })
              else s.copyHole core op o 6 x.pa
            | _, _ => if o.holds first len then s else s.copySend core op n o x 0 0 .b32 len 0 [] []
          else if region x.pa ≠ .hbm ∧ region x.pa ≠ .tier then s.copyHole core op o 6 x.pa
          else
            match s.keys.find? x.key with
            | none => s.copyHole core op o 5 x.pa
            | some key =>
              match o.kind with
              | .pref =>
                match o.units.find? n with
                | some _ => s
                | none =>
                  let s := if (windowAt s x.pa).isSome then s else (s.engineTouch (x.pa / 64) 1).fillSector (o.who core) (x.pa / 64)
                  s.onCopy core op (fun o => { o with units := o.units.set n .counted, arrived := o.arrived + 1 })
              | _ =>
                match s.engineLoad (o.who core) 1 x key len (.copy core op n) with
                | (none, s) => s
                | (some (bs, bad), s) => s.onCopy core op (fun o => o.take first bs (fun i => bad.contains ((x.pa + i) / 32)))

/-- The identity of a copy's step in a slice's log (R309): its team and the address. -/
def State.copyId (s : State) (core : Nat) (o : CopyOp) (pa : Nat) : Nat :=
  match s.team? core o.slot with
  | some t => ((t.grid * 65536 + t.cluster) * 16 + t.rank) * 2 ^ 60 + 2 ^ 59 + pa
  | none => pa

/-- A unit moves poison (R20): ERR is set in the object of the operation. -/
def State.copyErr (s : State) (o : CopyOp) : State :=
  match o.tag with
  | some (c, t) => match (s.core c).tags.find? t with
    | some tag => s.barErr c tag.slot tag.off
    | none => s
  | none => s

/-- An address lies in a phase region of some team, by its own mapping or another (R118, R135). -/
def inPhase (s : State) (asid va pa : Nat) : Bool :=
  s.cores.any (fun k => k.2.slots.any (fun t => t.2.phases.any (fun p =>
    (t.2.asid = asid && decide (p.base ≤ va) && decide (va < p.base + p.size)) || coversSec s t.2.asid p.base p.size (pa / 64))))

/-- The words of a unit's bytes, laid out from an address, that carry poison: those of its poisoned pieces. -/
def poisWords (d : Tab Byte) (pois : List Nat) (at_ : Nat → Nat) : List Nat :=
  dedup ((d.filter (fun b => pois.contains (b.1 / 16))).map (fun b => at_ b.1 / 32))

/-- A destination unit is written (R134): one of SR or RS in the scratchpad of whichever team then holds the slot (log 124). A CPYR
takes the unit's next element (R135): the model takes the elements of a unit in ascending order of address (log 126). -/
def State.copyWrite (s : State) (core op u : Nat) : State :=
  match (s.core core).copies.find? op with
  | none => s
  | some o =>
    if !canStart (s.core core) op o then s
    else
      let (first, len) := o.unitSpan u
      let reduce := match o.kind with | .reduce _ _ => true | _ => false
      let ready : Option (Tab Byte × List Nat) := match o.units.find? u with
        | some (.held d pois) => if d.length < len then none else some (d, pois)
        | some (.adding d pois) => some (d, pois)
        | _ => none
      match ready with
      | some (d, pois) =>
        if o.kind.toScratch then
          let (c, sl) := o.dstPad core
          let s := s.scratchStore c sl (d.map (fun (b : Nat × Byte) => (o.dst + b.1, b.2))) (poisWords d pois (fun a => o.dst + a)) true
          let s := if pois.isEmpty then s else s.copyErr o
          s.onCopy core op (fun o => { o with units := o.units.set u .counted, arrived := o.arrived + 1 })
        else
          let low := (d.headD (first, 0)).1
          let va := (o.dst + low) % 2 ^ 57
          if frozenAt s o.asid va then s
          else
            match s.xlate (o.who core) core o.asid va (if reduce then .atomic else .store) o.sup false with
            | (.fault kind, s) => s.copyFault core op o kind va
            | (.ok x, s) =>
              if reduce && inPhase s o.asid va x.pa then s.copyFault core op o 3 va
              else if region x.pa = .remote then
                match o.kind with
                | .reduce rop ty =>
                  let w := if ty = 3 ∨ ty = 7 ∨ ty = 11 ∨ ty = 15 then 8 else 4
                  let bad := pois.contains (low / 16)
                  (if bad then s.copyErr o else s).copySend core op u o x 2 rop (Ty.ofCode ty) w
                    (leNat ((d.take w).map (fun (b : Nat × Byte) => b.2))) [] (if bad then [x.pa % 2 ^ 40 / 32] else [])
                | _ =>
                  let at_ (a : Nat) : Nat := x.pa % 2 ^ 40 + (a - low)
                  (if pois.isEmpty then s else s.copyErr o).copySend core op u o x 1 0 .b32 d.length 0
                    (d.map (fun (b : Nat × Byte) => (at_ b.1, b.2))) (poisWords d pois at_)
              else if region x.pa ≠ .hbm ∧ region x.pa ≠ .tier then s.copyHole core op o 6 x.pa
              else
                match s.keys.find? x.key with
                | none => s.copyHole core op o 5 x.pa
                | some key =>
                  match o.kind with
                  | .reduce rop ty =>
                    let w := if ty = 3 ∨ ty = 7 ∨ ty = 11 ∨ ty = 15 then 8 else 4
                    let e := (d.take w).map (fun (b : Nat × Byte) => b.2)
                    let rest := d.drop w
                    let home := s.home x.pa
                    let id := s.copyId core o x.pa
                    if !s.mayLog home id then s
                    else
                        let (bad, s) := (s.logAt home id).engineAtomic (o.who core) 1 x key x.pa w rop ty (leNat e) (pois.contains (low / 16)) (.nobody (some o.asid))
                        let s := if bad then s.copyErr o else s
                        if rest.isEmpty then
                          s.onCopy core op (fun o => { o with units := o.units.set u .counted, arrived := o.arrived + 1 })
                        else s.onCopy core op (fun o => { o with units := o.units.set u (.adding rest pois) })
                  | _ =>
                    let window := (windowAt s x.pa).isSome
                    let home := s.home x.pa
                    let id := s.copyId core o x.pa
                    if window && !s.mayLog home id then s
                    else
                    let s := if window then s.logAt home id else s
                    let at_ (a : Nat) : Nat := x.pa + (a - low)
                    let s := if pois.isEmpty then s else s.copyErr o
                    let s := s.onCopy core op (fun o => { o with units := o.units.set u .written })
                    s.engineStore (o.who core) 1 x key (d.map (fun (b : Nat × Byte) => (at_ b.1, b.2))) (poisWords d pois at_) (.unit core op u)
      | _ => s

/-- What issuing a copy comes to. -/
inductive IssueOut where
  | illegal
  | wait
  | ok (op work : Nat) (s : State)
  deriving DecidableEq, Repr

/-- A range lies in the allocation of a team. -/
def inAlloc (s : State) (core slot off n : Nat) : Bool :=
  match s.team? core slot with
  | some t => decide (off + n ≤ t.scratchSize)
  | none => false

/-- The issuers that still wait for room in a core's engine (R128): their path stands at the waiting instruction. -/
def copyWaiters (s : State) (core : Nat) : List (Site × PcVal) :=
  (s.core core).copyWait.filter (fun e =>
    match s.team? e.1.core e.1.slot, (s.group? e.1.core e.1.slot e.1.group).bind (fun g => g.paths.find? e.1.path) with
    | some t, some p => p.pc = e.2 && (match t.run with | .stopping _ _ => false | _ => true)
    | _, _ => false)

/-- An issuer finds room among the 256 operations in flight, and no other one waits before it (R128). -/
def State.mayCopy (s : State) (a : Site) : Bool :=
  decide ((s.core a.core).copies.length < 256) && (match copyWaiters s a.core with
    | [] => true
    | e :: _ => e.1 = a)

/-- An issuer waits in the engine's order (R128), charged WAITCP. -/
def State.waitCopy (s : State) (a : Site) (pc : PcVal) : State :=
  let l := copyWaiters s a.core
  s.onCore a.core (fun k => { k with copyWait := if l.any (fun e => e.1 = a) then l else l ++ [(a, pc)] })

/-- The scratchpad stores of a path's lanes into a scratchpad that have not all performed (R133). -/
def State.padStores (s : State) (a : Site) (pad : Nat × Nat) : List Nat :=
  match s.group? a.core a.slot a.group with
  | none => []
  | some g =>
    let lanes := ((g.paths.find? a.path).map (fun p => p.lanes)).getD 0
    (g.ops.filter (fun e => decide (e.2.kind = .store) && decide (e.2.space = .scratch pad.1 pad.2) &&
      (decide (e.2.path = a.path) || decide (e.2.lanes &&& lanes ≠ 0)) && e.2.parts.any (fun p => !p.performed))).map (fun e => e.1)

/-- Issue an operation (R128, R130, R137, R140, R143). `rank` names the other core of SR and RS, `obj` the object's offset. -/
def issueCopy (s : State) (a : Site) (kind : CopyKind) (q src dst : Nat) (rank : Option Nat) (size : Nat)
    (obj : Option Nat) : IssueOut :=
  let (core, slot, group) := (a.core, a.slot, a.group)
  match s.team? core slot with
  | none => .illegal
  | some t =>
    let peer := match rank with
      | none => some (core, slot)
      | some r => if r = t.rank then none else clusterPeer s t.grid t.cluster r
    match peer with
    | none => .illegal
    | some pr =>
      let o : CopyOp :=
        { kind := kind, q := q, slot := slot, group := group, asid := t.asid, sup := t.sup, src := src, dst := dst, peer := pr,
          size := size, tag := none, work := 0, units := [], arrived := 0, counted := 0, parked := false, err := false,
          leave := 0, staleSent := false, stores := [] }
      let padOk := (!kind.fromScratch || inAlloc s (o.srcPad core).1 (o.srcPad core).2 src size) &&
        (!kind.toScratch || inAlloc s (o.dstPad core).1 (o.dstPad core).2 dst size)
      let aligned := src % 16 = 0 && (dst % 16 = 0 || decide (kind = .pref))
      let sizeOk := size % 16 = 0 && decide (16 ≤ size) && decide (size ≤ 2 ^ 24)
      let where_ := match kind with | .sr => pr | _ => (core, slot)
      let inb := match kind with | .gs => true | .sr => true | .rs => true | .pref => true | _ => false
      let objOk := match obj with
        | none => true
        | some off => off % 16 = 0 && inAlloc s where_.1 where_.2 off 16 && s.canCharge where_.1 where_.2 off o.total inb
      if !padOk || !aligned || !sizeOk || !objOk then .illegal
      else if !s.mayCopy a then .wait
      else if obj.isSome && decide (512 ≤ (s.core where_.1).tags.length) then .wait
      else
        let (work, s) := s.newWork 1
        let (tag, s) := match obj with
          | none => (none, s)
          | some off =>
            let (k, s) := s.charge where_.1 where_.2 off o.total inb
            (some (where_.1, k), s)
        let id := (s.core core).nextCopy
        -- A large copy takes over the group's LEAVE of its class, or its place among the requests (R424).
        let hint (a : LeaveAsk) : Bool := match a with
          | .hint c sl g 4 _ => c = core && sl = slot && g = group
          | _ => false
        let d := s.die (dieOf core)
        let big := decide (65536 < size)
        let granted := d.grants.any hint
        let take (l : List LeaveAsk) : List LeaveAsk := mapIf hint (fun _ => .copy core id) l
        let s := if !big then s
          else if granted || d.asks.any hint then
            (s.onDie (dieOf core) (fun d => { d with asks := take d.asks, grants := take d.grants })).onGroup core slot group
              (fun g => { g with leave := .none })
          else s.onDie (dieOf core) (fun d => { d with asks := d.asks ++ [.copy core id] })
        let stores := if kind.fromScratch then s.padStores a (o.srcPad core) else []
        let o := { o with tag := tag, work := work, leave := if big && !granted then 1 else 0, stores := stores }
        let waiters := (copyWaiters s core).filter (fun e => e.1 ≠ a)
        .ok id work (s.onCore core (fun k => { k with copies := k.copies.set id o, nextCopy := id + 1, copyWait := waiters }))

/-- A copy-schedule entry (R145). -/
structure SchedEntry where
  kind : Nat
  q : Nat
  stage : Nat
  period : Nat
  reps : Nat
  baroff : Nat
  soff : Nat
  size : Nat
  tstride : Nat
  kstride : Int
  gaddr : Nat
  deriving DecidableEq, Repr

/-- Read an entry, if it is well formed (R145). -/
def schedEntry (x : Nat) : Option SchedEntry :=
  let e : SchedEntry :=
    { kind := bits x 255 254, q := bits x 253 251, stage := bits x 247 232, period := bits x 231 216, reps := bits x 215 200,
      baroff := bits x 199 184, soff := bits x 183 168, size := bits x 159 128, tstride := bits x 127 96,
      kstride := signed 32 (bits x 95 64), gaddr := bits x 56 0 }
  if bits x 250 248 ≠ 0 || bits x 167 160 ≠ 0 || bits x 63 57 ≠ 0 || e.kind = 3 || e.reps = 0 || (e.period = 0 && decide (1 < e.reps)) then none
  else some e

/-- TEAMID of a team (R242). -/
def Team.teamId (t : Team) (g : Grid) : Nat := t.cluster * (g.cw * g.ch) + t.rank

/-- What releasing the schedule comes to: done, and whether an issue has failed; or a wait for room. -/
inductive SchedOut where
  | done (failed : Bool) (s : State)
  | wait (s : State)
  deriving DecidableEq, Repr

/-- Issue every entry that a stage has reached (R146), in entry order. An entry whose issue fails (R130) is not issued,
and its later issues stay due (log 92). -/
def runSchedule (s : State) (a : Site) (stage : Nat) (failed : List Nat) : Nat → SchedOut
  | 0 => .done (!failed.isEmpty) s
  | fuel + 1 =>
    match s.team? a.core a.slot with
    | none => .done false s
    | some t =>
      match s.grid? t.grid with
      | none => .done false s
      | some g =>
        let due := (g.sched.zipIdx).find? (fun p => !failed.contains p.2 && match schedEntry p.1.toNat with
          | some e => decide (t.issued.getD p.2 0 < e.reps) && decide (e.stage + t.issued.getD p.2 0 * e.period ≤ stage)
          | none => false)
        match due.bind (fun p => (schedEntry p.1.toNat).map (fun e => (e, p.2))) with
        | none => .done (!failed.isEmpty) s
        | some (e, i) =>
          let k := t.issued.getD i 0
          let gl := wrap 57 ((e.gaddr + t.teamId g * e.tstride : Nat) + (k : Int) * e.kstride)
          let pad := e.soff * 16
          let (kind, src, dst) : CopyKind × Nat × Nat :=
            if e.kind = 0 then (.gs, gl, pad) else if e.kind = 1 then (.sg, pad, gl) else (.pref, gl, 0)
          match issueCopy s a kind e.q src dst none e.size (if e.baroff = 0xFFFF then none else some (e.baroff * 16)) with
          | .illegal => runSchedule s a stage (i :: failed) fuel
          | .wait => .wait s
          | .ok _ _ s => runSchedule (s.onTeam a.core a.slot (fun t => { t with issued := t.issued.set i (k + 1) })) a stage failed fuel

end Sys2Proof.Machine
end

