-- ==== Sys2Proof/Machine/Traps.lean ====
section
/-! DEFINITION. Forced halts (R293), user traps and their entry (R276, R277), and the safe-point table (R290). -/

namespace Sys2Proof.Machine

/-- The header of a safe-point table (R290). -/
structure SpHeader where
  handler : Nat
  saveva : Nat
  stride : Nat
  nsp : Nat
  tfoff : Nat
  deriving DecidableEq, Repr

/-- Read a header. -/
def spHeader (bs : List Byte) : SpHeader :=
  let x := leNat bs
  { handler := bits x 56 0, saveva := bits x 120 64, stride := bits x 191 160, nsp := bits x 204 192, tfoff := bits x 239 224 }

/-- The safe-point table of a team. -/
def sptabOf (s : State) (t : Team) : Nat := ((s.grid? t.grid).map (fun g => g.sptab)).getD 0

/-- Read the header of a team's safe-point table under the team's ASID. -/
def State.readHeader (s : State) (c slot g : Nat) (t : Team) : ReadOut × State :=
  s.readDesc (whoLane { core := c, slot := slot, group := g, path := 0 }) c t.asid .load t.sup (sptabOf s t) 64

/-- Read entry n of the table: SAVE and RESTORE are its doublewords 0 and 1. -/
def State.readEntry (s : State) (c slot g : Nat) (t : Team) (n : Nat) : ReadOut × State :=
  s.readDesc (whoLane { core := c, slot := slot, group := g, path := 0 }) c t.asid .load t.sup ((sptabOf s t + 64 + 32 * n) % 2 ^ 57) 32

/-- The address of a part. -/
def Part.addr (p : Part) : Nat := (p.lanes.headD LaneAcc.zero).addr

/-- The name of a team: its grid and TEAMID. -/
def State.teamName (s : State) (t : Team) : Nat × Nat := (t.grid, ((s.grid? t.grid).map (fun g => t.teamId g)).getD 0)

/-- The last steps of a forced halt (R293), with the TYPE 3 record of R280: cause, trap code, the group named and the PC. An entry
of CFENCE stays in its queues as no team's, for what other teams have in them (R132). -/
def State.finishHalt (s : State) (c slot : Nat) (t : Team) (cause trap g pc : Nat) : State :=
  let s := s.unpinTeam c slot 0
  let mine := ((s.core c).copies.filter (fun (o : Nat × CopyOp) => o.2.slot = slot)).map (fun o => o.1)
  let s := mine.foldl (fun s o =>
    match ((s.core c).copies.find? o) with
    | some x => if x.kind.fenceMask.isSome then s.onCopy c o (fun x => { x with slot := noSlot }) else s.abortCopy c o
    | none => s) s
  let tasks := (s.tasks.filter (fun (x : Nat × Task) => x.2.alive && decide (x.2.team = s.teamName t))).map (fun x => x.1)
  let s := tasks.foldl (fun s n => s.endForced n) s
  let gid := ((s.grid? t.grid).map (fun x => t.teamId x)).getD 0
  let w : Who := { agent := 0, die := dieOf c, core := c, slot := slot, group := g, id := 0 }
  let s := s.svRecord (dieOf c) 3 w (cause * 2 ^ 56 + trap * 2 ^ 48 + t.asid % 65536 * 2 ^ 32 + gid % 2 ^ 32) (pc % 2 ^ 57)
  let s := t.groups.foldl (fun s x => s.groupLeaves c slot x.1) s
  let s := s.onGrid t.grid (fun g => { g with saved := g.saved.erase (t.teamId g) })
  (s.freeSlot c slot).countTeam t.grid c true

/-- What a forced halt leaves of an issued operation: a store or an atomic, unless a part of it is parked, when the whole of it is
discarded (R282, R293). -/
def Op.remains (o : Op) : Bool := o.kind.isWrite && o.parts.all (fun p => decide (p.st ≠ .parked))

/-- A forced halt goes on (R293): parked accesses and lines are discarded, and once the last store or atomic has been acknowledged
the other steps follow. -/
def State.endHalt (s : State) (c slot : Nat) : State :=
  match (s.team? c slot).map Team.run with
  | some (.halting cause trap g pc) =>
    let s := { s with pubs := s.pubs.filter (fun p => !(p.2.core = c && p.2.slot = slot && p.2.parked)) }
    let s := s.onTeam c slot (fun t => { t with groups := t.groups.map (fun (x : Nat × Group) =>
      (x.1, { x.2 with ops := x.2.ops.filter (fun o => o.2.remains && !o.2.parts.all (fun p => p.st = .acked)) })) })
    match s.team? c slot with
    | some t =>
      if t.groups.all (fun x => x.2.ops.isEmpty) && !s.pubs.any (fun p => p.2.core = c && p.2.slot = slot) then
        s.finishHalt c slot t cause trap g pc
      else s
    | none => s
  | _ => s

/-- Every forced halt goes on that can. -/
def State.endHalts (s : State) : State :=
  s.cores.foldl (fun s c => c.2.slots.foldl (fun s t => s.endHalt c.1 t.1) s) s

/-- A group whose paths have stopped for good (R293). -/
def Group.stopped (g : Group) : Group :=
  { g with paths := [], late := [], handling := none, hold := none, pgo := none, routine := none, yielded := false }

/-- A forced halt of a team (R293): its paths stop at once, and what they wait for with them. -/
def State.forcedHalt (s : State) (c slot cause trap g pc : Nat) : State :=
  match s.team? c slot with
  | none => s
  | some t =>
    match t.run with
    | .halting _ _ _ _ => s
    | _ =>
      let s := (s.onTeam c slot (fun t =>
        { t with run := .halting cause trap g pc, groups := t.groups.map (fun (x : Nat × Group) => (x.1, x.2.stopped)) })).leaveUnit c slot
      (s.forget c slot).endHalt c slot

/-- The path runs the handler: it entered it, or split off inside it. -/
def Handling.covers (h : Handling) (p : Nat) : Bool := h.path = p || decide (h.born ≤ p)

/-- The lowest lane of a path. -/
def Path.low (p : Path) : Nat := (laneList p.lanes).headD 32

/-- The PC of the lowest-numbered path of a group that has not exited (R280). -/
def Group.firstPc (g : Group) : Nat := ((g.paths.head?).map (fun p => p.2.pc.toNat)).getD 0

/-- The PC that a record gives for a group (R280). While the group is to run a routine, its paths are those that were saved. -/
def State.recordPc (s : State) (t : Team) (gi : Nat) (g : Group) : Nat :=
  match g.routine with
  | some r =>
    if !r.pending then g.firstPc
    else (((s.grid? t.grid).bind (fun x => (x.saved.find? (t.teamId x)).bind (fun i => i.groups.find? gi))).map Group.firstPc).getD g.firstPc
  | none => g.firstPc

/-- The group is in its trap handler. -/
def Group.inTrap (g : Group) : Bool := g.gstat.getLsbD 31

/-- The NEST counters with those of some lanes replaced. -/
def nestSet (n : BitVec 128) (m : LaneSet) (f : Nat → BitVec 4) : BitVec 128 :=
  packNest (fun i => if m.getLsbD i then f i else nestOf n i)

/-- The ordinal that a frame holds for a clause (R277). -/
def hdrOrd (h : Header) : Nat := if h.stop then h.ordinal else 0xFFFF

/-- The ordinal of the clause that encloses a trap (R277): that of the path's clause, or, where the path stands at a header that
it has not fetched, of the clause there; the clause of a TRAP instruction is the one it stands in (log 93). None where the header
there cannot be read yet (R29, R110). -/
def State.trapOrd (s : State) (a : Site) (t : Team) (p : Path) (tr : TrapReq) : Option Nat :=
  if !p.words.isEmpty || tr.cause = 0x12 then some (hdrOrd p.hdr)
  else match (s.readDesc (whoLane a) a.core t.asid .fetch t.sup tr.pc.toNat 8).1 with
    | .ok bs => match decodeHeader (BitVec.ofNat 64 (leNat bs)) with
      | .ok h => some (hdrOrd h)
      | .error _ => some 0xFFFF
    | .wait => none
    | _ => some 0xFFFF

/-- The trap frame (R277). -/
def trapFrame (g : Group) (p : Path) (t : TrapReq) (ord : Nat) : List Byte :=
  leBytes 8 t.pc.toNat ++ leBytes 1 t.cause ++ leBytes 1 t.detail
    ++ leBytes 2 ord ++ leBytes 4 (activeOf p.lanes g.nest).toNat ++ leBytes 8 t.addr
    ++ leBytes 4 p.fmt.toNat ++ leBytes 4 0 ++ leBytes 16 g.nest.toNat ++ leBytes 16 0

/-- The trapping instruction (R280). -/
def TrapReq.at_ (t : TrapReq) : PcVal := t.inst.getD t.pc

/-- Instructions of a path that have issued and not retired (R276), but one that waits at a FIFO unit. Stores are done once they
have issued. -/
def Group.unretired (g : Group) (id : Nat) (p : Path) : Bool :=
  g.ops.any (fun e => (decide (e.2.path = id) || decide (e.2.lanes &&& p.lanes ≠ 0)) && decide (e.2.kind ≠ .store) && decide (p.fifoOp ≠ some e.1))

/-- Entry to the user trap handler by a path with a pending trap (R277), once its earlier instructions have retired (R276). -/
def State.enterTrap (s : State) (a : Site) : State :=
  match s.team? a.core a.slot, s.group? a.core a.slot a.group with
  | some t, some g =>
    match g.paths.find? a.path with
    | none => s
    | some p =>
      match p.pend with
      | none => s
      | some tr =>
        if g.inTrap then
          match g.handling with
          | some h => if h.covers a.path then s.forcedHalt a.core a.slot 3 tr.cause a.group tr.at_.toNat else s
          | none => s.forcedHalt a.core a.slot 3 tr.cause a.group tr.at_.toNat
        else if g.routine.isSome then s.forcedHalt a.core a.slot 5 tr.cause a.group tr.at_.toNat
        else if p.fetchParked || g.unretired a.path p then s
        else if g.paths.any (fun q => q.2.pend.isSome && decide (q.2.low < p.low)) then s
        else
          match s.readHeader a.core a.slot a.group t with
          | (.fault kind va, s) =>
            (s.parkFault (whoLane a) a.core kind 0 t.asid va).onPath a (fun p => { p with fetchParked := true, stall := some 14 })
          | (.bad kind pa, s) => (s.log23 (whoLane a) kind pa).forcedHalt a.core a.slot 8 0 a.group tr.at_.toNat
          | (.wait, _) => s
          | (.ok bs, s) =>
            let h := spHeader bs
            let frame := h.tfoff * 16 + 64 * a.group
            if h.handler = 0 ∨ h.tfoff = 0xFFFF ∨ t.scratchSize < frame + 64 then
              s.forcedHalt a.core a.slot 2 tr.cause a.group tr.at_.toNat
            else
              match s.trapOrd a t p tr with
              | none => s
              | some ord =>
                let s := s.scratchStore a.core a.slot ((trapFrame g p tr ord).zipIdx.map (fun (b : Byte × Nat) => (frame + b.2, b.1))) [] true
                let resume : Handling :=
                  { path := a.path, born := g.nextPath, frame := frame, pc := tr.pc, debug := tr.debug,
                    words := if tr.pc = p.hdrPc then [] else p.words, hdr := p.hdr, hdrPc := p.hdrPc }
                let s := (s.leaveWait a p).onGroup a.core a.slot a.group (fun g =>
                  { g with gstat := g.gstat ||| 0x80000000, handling := some resume, nest := nestSet g.nest p.lanes (fun _ => 0) })
                -- A WAITC before the trap holds the handler's first instruction (R343).
                s.onPath a (fun p =>
                  { p with pc := BitVec.ofNat 57 h.handler, fmt := 0, words := [], fresh := true, wait := .none,
                           pend := none, stall := none, la := [], laCopies := [] })
  | _, _ => s

/-- Take a user trap (R276, R277): it is pending, and its entry follows at once where nothing stands before it. -/
def State.takeTrap (s : State) (a : Site) (t : TrapReq) : State := (s.pend a t).enterTrap a

/-- A trap of the instruction at the path's PC, which has no effect (R276). -/
def State.trapAt (s : State) (a : Site) (cause detail addr : Nat) : State :=
  match (s.group? a.core a.slot a.group).bind (fun g => g.paths.find? a.path) with
  | none => s
  | some p => s.takeTrap a { cause := cause, detail := detail, addr := addr, pc := p.pc, inst := none, debug := 0 }

end Sys2Proof.Machine
end

