-- ==== Sys2Proof/Machine/Ops.lean ====
section
/-! DEFINITION. The issue of one instruction by the issuing path (R244, R314, R323, R326, R336): its registers are checked
and waited for, then it acts, and the path moves on. -/

namespace Sys2Proof.Machine

/-- The outcome of a step. -/
abbrev Out := Host.Outcome State Fault Refusal

/-- What an instruction sees of its issuing path. -/
structure Ctx where
  a : Site
  t : Team
  grid : Grid
  g : Group
  p : Path
  /-- Active lanes (R244). -/
  act : LaneSet
  deriving DecidableEq, Repr

/-- The context of a path. -/
def State.ctxAt (s : State) (a : Site) : Option Ctx :=
  match s.team? a.core a.slot with
  | none => none
  | some t =>
    match t.groups.find? a.group with
    | none => none
    | some g =>
      match g.paths.find? a.path, s.grid? t.grid with
      | some p, some grid => some { a := a, t := t, grid := grid, g := g, p := p, act := activeOf p.lanes g.nest }
      | _, _ => none

/-- The issuing path, if there is one. -/
def State.ctx? (s : State) : Option Ctx := s.cur.bind s.ctxAt

/-- A use of registers: n V or S registers from r, or an accumulator block. -/
inductive Reg where
  | v (r n : Nat)
  /-- V registers read in lanes of other paths too (R357). -/
  | across (r n : Nat)
  | s (r n : Nat)
  | acc (k : Nat)
  deriving DecidableEq, Repr

/-- A register use names registers that exist, aligned to its size (R163, R376). -/
def Ctx.regOk (x : Ctx) : Reg → Bool
  | .v r n => r % n = 0 && decide (r + n ≤ x.grid.v)
  | .across r n => r % n = 0 && decide (r + n ≤ x.grid.v)
  | .s r n => r % n = 0 && decide (r + n ≤ x.grid.s)
  | .acc k => decide (k < x.grid.a)

/-- Two register ranges meet. -/
def rangesMeet (r n q m : Nat) : Bool := decide (r < q + m) && decide (q < r + n)

/-- Registers that an outstanding operation will write. -/
def Op.dstCount (o : Op) : Nat := regsOf ((o.accs.headD LaneAcc.zero).width)

/-- The lanes of the path share the operation's program order, or the path issued it. -/
def Op.ofPath (o : Op) (a : Site) (p : Path) : Bool := o.path = a.path || decide (o.lanes &&& p.lanes ≠ 0)

/-- An outstanding operation will write a register that the instruction reads or writes (R314, R336), of any path of the group
where the instruction reads across lanes (R357). -/
def Op.blocks (o : Op) (a : Site) (p : Path) (r : Reg) : Bool :=
  match o.dst, r with
  | .v d _, .v q n => o.ofPath a p && rangesMeet d o.dstCount q n
  | .v d _, .across q n => rangesMeet d o.dstCount q n
  | .s d _, .s q n => rangesMeet d o.dstCount q n
  | _, _ => false

/-- The stall reason of an instruction that waits for an outstanding operation: that of the count which holds it (R438). One that
no count holds is SRAMCFG.FIFO, or an instruction of REC (R274; log 123). -/
def Op.reason (o : Op) : Nat := if o.count ≤ 4 then o.count else 1

/-- An access that the path has issued was rejected for want of miss-status entries, and is to be retried (R159, R271). -/
def Ctx.rejected (x : Ctx) : Bool :=
  x.g.ops.any (fun o => o.2.path = x.a.path && o.2.parts.any (fun p => p.st = .rejected))

/-- The reasons of its group why an instruction must wait before it issues: registers that outstanding operations will write,
lookahead that is spent (R323), and a rejected access of its path (R271). -/
def Ctx.waits (x : Ctx) (regs : List Reg) : List Nat :=
  (x.g.ops.filter (fun o => regs.any (fun r => o.2.blocks x.a x.p r))).map (fun o => o.2.reason)
    ++ (x.p.la.filter (fun l => l.2 = 0)).filterMap (fun l => (x.g.ops.find? l.1).map (fun o => o.reason))
    ++ (if x.rejected then [13] else [])

/-- The lookahead of a copy operation in flight is spent (R323). -/
def Ctx.copyAhead (x : Ctx) (s : State) : Bool :=
  x.p.laCopies.any (fun l => l.2 = 0 && ((s.core x.a.core).copies.find? l.1).isSome)

/-- Why an instruction must wait before it issues, if it must: the lowest reason that applies (R274). -/
def Ctx.stall (x : Ctx) (s : State) (regs : List Reg) : Option Nat := lowest (x.waits regs ++ if x.copyAhead s then [3] else [])

/-- Issue an instruction of the issuing path: BADREG where a register does not exist (R326), a wait where one is awaited, else
what it does. With no issuing path nothing happens. -/
def State.issue (s : State) (regs : List Reg) (act : Ctx → State) : State :=
  match s.ctx? with
  | none => s
  | some x =>
    if !regs.all x.regOk then s.trapAt x.a 5 0 0
    else
      match x.stall s regs with
      | some r => s.stallOn x.a r
      | none => act x

/-- Change the issuing group. -/
def State.onG (s : State) (x : Ctx) (f : Group → Group) : State := s.onGroup x.a.core x.a.slot x.a.group f

/-- Every lane of the group that has not exited is in the path. -/
def Ctx.whole (x : Ctx) : Bool := decide (x.g.paths.length = 1)

end Sys2Proof.Machine
end

