-- ==== Sys2Proof/Machine/Operands.lean ====
section
/-! DEFINITION. Operand forms (R319, R320): widths of types, the value of an operand in a lane or for the whole group, the
registers that an operand names, and writing results. -/

namespace Sys2Proof.Machine

/-- Bits of a register operand of a type: 64 for the 64-bit types, else 32 (R163, R320). F16 and BF16 are packed in pairs. -/
def tyBits (ty : Ty) : Nat := match ty.code % 16 with
  | 3 => 64 | 7 => 64 | 11 => 64 | 15 => 64
  | _ => 32

/-- Registers of an operand of a type. -/
def tyRegs (ty : Ty) : Nat := tyBits ty / 32

/-- The type is signed (R320). -/
def tySigned (ty : Ty) : Bool := ty.code / 4 = 0

/-- The type is a floating format. -/
def tyFloat (ty : Ty) : Bool := decide (12 ≤ ty.code)

/-- Elements packed in one register of a type: two for F16 and BF16 (R182). -/
def tyPack (ty : Ty) : Nat := if ty.code = 12 ∨ ty.code = 13 then 2 else 1

/-- Value of a 9-bit immediate for a type (R319): sign-extended, or converted exactly, in both halves of a packed type. -/
def immVal (ty : Ty) (i : Nat) : Nat :=
  let x := signed 9 i
  if tyFloat ty then
    let f := ffmtOfTy ty.code
    let c := (f.roundVal { rm := 0, ftz := false, satn := false } (FVal.ofInt x)).1
    if tyPack ty = 2 then c + c * 2 ^ 16 else c
  else wrap (tyBits ty) x

/-- A uniform operand (R319, R337). -/
def Ctx.sval (x : Ctx) (ty : Ty) (o : Opnd) : Nat :=
  match o with
  | .s r => if tyRegs ty = 2 then (x.g.spair r).toNat else (x.g.sreg r).toNat
  | .imm i => immVal ty i
  | .v _ => 0

/-- An operand in a lane (R319). -/
def Ctx.val (x : Ctx) (ty : Ty) (lane : Nat) (o : Opnd) : Nat :=
  match o with
  | .v r =>
    if tyRegs ty = 2 then (laneOf (x.g.vreg r) lane).toNat + 2 ^ 32 * (laneOf (x.g.vreg (r + 1)) lane).toNat
    else (laneOf (x.g.vreg r) lane).toNat
  | _ => x.sval ty o

/-- A 32-bit reading of an operand, whatever the instruction's type (R337): a shift count or a condition. -/
def Ctx.val32 (x : Ctx) (lane : Nat) (o : Opnd) : Nat := x.val .b32 lane o

/-- The registers that an operand of a type names. -/
def opRegs (ty : Ty) (o : Opnd) : List Reg :=
  match o with
  | .v r => [.v r (tyRegs ty)]
  | .s r => [.s r (tyRegs ty)]
  | .imm _ => []

/-- The S registers that an operand of a scalar instruction names. -/
def uniRegs (ty : Ty) (o : Opnd) : List Reg :=
  match o with
  | .s r => [.s r (tyRegs ty)]
  | _ => []

/-- The V register that an instruction reads in lanes of other paths (R357). -/
def acrossRegs (ty : Ty) (o : Opnd) : List Reg :=
  match o with
  | .v r => [.across r (tyRegs ty)]
  | _ => []

/-- The V registers among the sources of an instruction that reads all of them in lanes of other paths too (R357). -/
def srcsAcross (l : List (Opnd × Ty)) : List Reg := l.flatMap (fun p => acrossRegs p.2 p.1)

/-- Write an S result of w bits: one register, or the pair. -/
def Group.setSval (g : Group) (w r x : Nat) : Group :=
  if w = 64 then g.setPair r (BitVec.ofNat 64 x) else g.setS r (BitVec.ofNat 32 x)

/-- An integer as a type reads it (R200). -/
def tyInt (ty : Ty) (w x : Nat) : Int := if tySigned ty then signed w x else (x % 2 ^ w : Nat)

/-- Read an S register for a whole instruction. -/
def Ctx.s (x : Ctx) (r : Nat) : W32 := x.g.sreg r
/-- A pair read as an address, a 57-bit one where it names memory. -/
def Ctx.pairVA (x : Ctx) (r : Nat) : Nat := (x.g.spair r).toNat % 2 ^ 57

end Sys2Proof.Machine
end

