-- ==== Sys2Proof/Machine/Flags.lean ====
section
/-! DEFINITION. FLAGS and the arithmetic traps (R187, R203, R325): which flag traps, and how flags are recorded at retire. -/

namespace Sys2Proof.Machine

/-- The number of the lowest raised flag whose enable is set in GSTAT (R203, R276, R278), if there is one. -/
def trappingFlag (gstat : W32) (flags : Nat) : Option Nat :=
  (List.range 5).find? (fun i => bit flags i && gstat.getLsbD i)

/-- FLAGS takes the bits that an instruction raised (R203). -/
def Group.raise (g : Group) (flags : Nat) : Group := { g with flags := g.flags ||| BitVec.ofNat 6 flags }

/-- The rounding that an instruction uses (R184, R202): its modifier's mode where it names one, else FMT.RM; FTZ and SATN from
FMT. -/
def modeOf (fmt : W32) (rmo : Bool) (rm : Nat) : RMode :=
  { rm := if rmo then rm else bits fmt.toNat 1 0, ftz := fmt.getLsbD 2, satn := fmt.getLsbD 3 }

end Sys2Proof.Machine
end

