-- ==== Sys2Proof/Machine/Scalar.lean ====
section
/-! DEFINITION. The scalar instructions (R336 to R339), with the integer operations they share with the vector lanes (R200,
R201). -/

namespace Sys2Proof.Machine

/-- Quotient rounded toward zero (R201): all ones for a zero divisor; the most negative number over −1 is itself. -/
def intDiv (sgn : Bool) (w a b : Nat) : Nat :=
  if b % 2 ^ w = 0 then 2 ^ w - 1
  else if sgn then wrap w (Int.tdiv (signed w a) (signed w b)) else a % 2 ^ w / (b % 2 ^ w)

/-- Remainder with the dividend's sign (R201): the dividend for a zero divisor. -/
def intRem (sgn : Bool) (w a b : Nat) : Nat :=
  if b % 2 ^ w = 0 then a % 2 ^ w
  else if sgn then wrap w (Int.tmod (signed w a) (signed w b)) else a % 2 ^ w % (b % 2 ^ w)

/-- The high half of a product. -/
def mulHigh (sgn : Bool) (w a b : Nat) : Nat :=
  if sgn then wrap w (signed w a * signed w b / (2 ^ w : Nat)) else a % 2 ^ w * (b % 2 ^ w) / 2 ^ w

/-- Shift left. -/
def shl (w a n : Nat) : Nat := if w ≤ n then 0 else a * 2 ^ n % 2 ^ w
/-- Logical shift right. -/
def shr (w a n : Nat) : Nat := if w ≤ n then 0 else a % 2 ^ w / 2 ^ n
/-- Arithmetic shift right. -/
def sar (w a n : Nat) : Nat := wrap w (signed w a / (2 ^ (if w ≤ n then w else n) : Nat))
/-- The smaller or the larger value. -/
def intMin (sgn : Bool) (w a b : Nat) : Nat :=
  if sgn then (if signed w b < signed w a then b else a) else if b < a then b else a
/-- The larger value. -/
def intMax (sgn : Bool) (w a b : Nat) : Nat :=
  if sgn then (if signed w a < signed w b then b else a) else if a < b then b else a
/-- Ordering of two integers read as a type. -/
def intCmp (sgn : Bool) (w a b : Nat) : Ordering :=
  if sgn then (if signed w a < signed w b then .lt else if signed w a = signed w b then .eq else .gt)
  else if a < b then .lt else if a = b then .eq else .gt

/-- A scalar ALU instruction (R336 to R338): `f` gives the result from the width and the values of A, B and C, and `dregs`
is how many registers it takes. B and C are read as 32 bits where `b32` and `c32` say so (R337). -/
def State.scalarOp (s : State) (f : SopF) (one b32 c32 : Bool) (r : Nat → Nat → Nat → Nat → Nat) : State :=
  let n := if one then 1 else tyRegs f.ty
  let bt : Ty := if b32 then .b32 else f.ty
  let ct : Ty := if c32 then .b32 else f.ty
  s.issue ([Reg.s f.sd n] ++ uniRegs f.ty f.a ++ uniRegs bt f.b ++ uniRegs ct f.c) (fun x =>
    let w := tyBits f.ty
    let v := r w (x.sval f.ty f.a) (x.sval bt f.b) (x.sval ct f.c)
    (s.onG x (fun g => g.setSval (32 * n) f.sd v)).advance x.a)

/-- SMOV (R338). -/
def execSmov (f : SopF) (s : State) : Out := .next (s.scalarOp f false false true (fun _ a _ _ => a))
/-- SMOVI (R339). -/
def execSmovi (f : SimmF) (s : State) : Out :=
  .next (s.issue [.s f.sd 1] (fun x => (s.onG x (fun g => g.setS f.sd (BitVec.ofNat 32 f.imm))).advance x.a))
/-- SADD (R338). -/
def execSadd (f : SopF) (s : State) : Out := .next (s.scalarOp f false false true (fun w a b _ => (a + b) % 2 ^ w))
/-- SSUB (R338). -/
def execSsub (f : SopF) (s : State) : Out := .next (s.scalarOp f false false true (fun w a b _ => (a + (2 ^ w - b % 2 ^ w)) % 2 ^ w))
/-- SMUL (R338). -/
def execSmul (f : SopF) (s : State) : Out := .next (s.scalarOp f false false true (fun w a b _ => a * b % 2 ^ w))
/-- SMULH (R338). -/
def execSmulh (f : SopF) (s : State) : Out := .next (s.scalarOp f false false true (fun w a b _ => mulHigh (tySigned f.ty) w a b))
/-- SDIV (R338, R201). -/
def execSdiv (f : SopF) (s : State) : Out := .next (s.scalarOp f false false true (fun w a b _ => intDiv (tySigned f.ty) w a b))
/-- SREM (R338, R201). -/
def execSrem (f : SopF) (s : State) : Out := .next (s.scalarOp f false false true (fun w a b _ => intRem (tySigned f.ty) w a b))
/-- SAND (R338). -/
def execSand (f : SopF) (s : State) : Out := .next (s.scalarOp f false false true (fun _ a b _ => a &&& b))
/-- SOR (R338). -/
def execSor (f : SopF) (s : State) : Out := .next (s.scalarOp f false false true (fun _ a b _ => a ||| b))
/-- SXOR (R338). -/
def execSxor (f : SopF) (s : State) : Out := .next (s.scalarOp f false false true (fun _ a b _ => a ^^^ b))
/-- SNOT (R338). -/
def execSnot (f : SopF) (s : State) : Out := .next (s.scalarOp f false false true (fun w a _ _ => 2 ^ w - 1 - a % 2 ^ w))
/-- SSHL (R337, R338). -/
def execSshl (f : SopF) (s : State) : Out := .next (s.scalarOp f false true true (fun w a n _ => shl w a n))
/-- SSHR (R337, R338). -/
def execSshr (f : SopF) (s : State) : Out := .next (s.scalarOp f false true true (fun w a n _ => shr w a n))
/-- SSAR (R337, R338). -/
def execSsar (f : SopF) (s : State) : Out := .next (s.scalarOp f false true true (fun w a n _ => sar w a n))
/-- SMIN (R338). -/
def execSmin (f : SopF) (s : State) : Out := .next (s.scalarOp f false false true (fun w a b _ => intMin (tySigned f.ty) w a b))
/-- SMAX (R338). -/
def execSmax (f : SopF) (s : State) : Out := .next (s.scalarOp f false false true (fun w a b _ => intMax (tySigned f.ty) w a b))
/-- SCMP (R337, R338): one register under every type. -/
def execScmp (f : SopF) (s : State) : Out :=
  .next (s.scalarOp f true false true (fun w a b _ => b2n (ccHolds f.mod (intCmp (tySigned f.ty) w a b))))
/-- SSEL (R337, R338). -/
def execSsel (f : SopF) (s : State) : Out := .next (s.scalarOp f false false true (fun _ a b c => if c = 0 then b else a))

end Sys2Proof.Machine
end

