-- ==== Sys2Proof/Machine/Vector.lean ====
section
/-! DEFINITION. Retiring a vector instruction, by a fold or by execution (R167, R171 to R176, R203), and the integer, bit and
move instructions (R356 to R360). -/

namespace Sys2Proof.Machine

/-- A source of a foldable instruction, with the type it is read under. -/
abbrev Src := Opnd × Ty

/-- The registers that sources name. -/
def srcRegs (l : List Src) : List Reg := l.flatMap (fun p => opRegs p.2 p.1)

/-- The fold key of an instruction (R172): its word without destination and lookahead, names and values of its sources, the
mask, FMT, PART, ASID, and the prior names of its destination where not every lane is written. -/
def Ctx.foldKey (x : Ctx) (word : Nat) (srcs : List Src) (vd n : Nat) : FoldKey :=
  { word := word,
    names := srcs.flatMap (fun p => match p.1 with
      | .v r => (List.range (tyRegs p.2)).map (fun i => x.g.nameOf (r + i))
      | _ => []),
    svals := srcs.flatMap (fun p => match p.1 with
      | .s r => (List.range (tyRegs p.2)).map (fun i => x.g.sreg (r + i))
      | _ => []),
    mask := x.act, fmt := x.p.fmt, part := x.g.part, asid := x.t.asid,
    prior := if x.act = BitVec.allOnes 32 then [] else (List.range n).map (fun i => x.g.nameOf (vd + i)) }

/-- Write the active lanes of n registers from vd, a pair's low half first. -/
def State.putV (s : State) (x : Ctx) (vd : Nat) (vals : List VReg) : State :=
  vals.zipIdx.foldl (fun s p => s.writeLanes x.a.core x.a.slot x.a.group x.act (vd + p.2) p.1) s

/-- Retire a foldable instruction (R173, R174, R203): a live entry gives its names and flags; else the instruction executes,
and traps where it raises an enabled flag, or writes its lanes, its flags and an entry. -/
def State.retireV (s : State) (x : Ctx) (word : Nat) (srcs : List Src) (vd : Nat) (vals : List VReg) (flags : Nat) : State :=
  let n := vals.length
  let key := x.foldKey word srcs vd n
  let q := (s.core x.a.core).quarter x.g.quarter
  let hit := if x.p.hdr.nofold then none
    else match q.lookup key with
      | some (e, q) =>
        -- EMPTY belongs to the path's lanes, which the key does not hold: a hit sets it exactly as execution would (R371).
        if (trappingFlag x.g.gstat e.flags.toNat).isSome || bit e.flags.toNat 5 != bit flags 5 then none else some (e, q)
      | none => none
  match hit with
  | some (e, q) =>
    let s := s.onQuarter x.a.core x.g.quarter (fun _ => q.count 4)
    let s := s.foldNames x.a.core x.a.slot x.a.group vd e
    (s.onG x (fun g => { g with flags := g.flags ||| e.flags })).advance x.a
  | none =>
    let s := if x.p.hdr.nofold then s else s.onQuarter x.a.core x.g.quarter (fun q => q.count 5)
    match trappingFlag x.g.gstat flags with
    | some i => s.trapAt x.a 1 i 0
    | none =>
      let s := s.putV x vd vals
      let s := s.onG x (fun g => g.raise flags)
      let s := if x.p.hdr.nofold then s
        else match s.group? x.a.core x.a.slot x.a.group with
          | none => s
          | some g => s.onQuarter x.a.core x.g.quarter (fun q =>
              q.enter { key := key, names := (List.range n).map (fun i => g.nameOf (vd + i)),
                        vals := (List.range n).map (fun i => g.vreg (vd + i)), flags := BitVec.ofNat 6 flags, secs := [] })
      s.advance x.a

/-- The instruction word without the fields at bits hi to lo. -/
def Ctx.wordSans (x : Ctx) (hi lo : Nat) : Nat :=
  let w := (x.p.words.headD 0).toNat
  w - bits w hi lo * 2 ^ lo

/-- The word of a VOP instruction without VD and LA. -/
def Ctx.vopWord (x : Ctx) : Nat :=
  let w := x.wordSans 44 37
  w - w % 16

/-- Values of one or two registers from a lane function: the low half first. -/
def packRegs (n : Nat) (f : Nat → Nat) : List VReg :=
  (List.range n).map (fun k => packLanes (fun i => BitVec.ofNat 32 (f i / 2 ^ (32 * k))))

/-- The result of an instruction in the VOP format: the value and flags of each active lane. -/
def State.laneResult (s : State) (f : VopF) (srcs : List Src) (n : Nat) (r : Ctx → Nat → Nat × Nat) (x : Ctx) : State :=
  let lane := fun i => if x.act.getLsbD i then r x i else (0, 0)
  let flags := (List.range 32).foldl (fun a i => a ||| (lane i).2) 0
  s.retireV x x.vopWord srcs f.vd (packRegs n (fun i => (lane i).1)) flags

/-- A lane-wise instruction in the VOP format: sources, registers of the result, and the value and flags of a lane. -/
def State.laneOp (s : State) (f : VopF) (srcs : List Src) (n : Nat) (r : Ctx → Nat → Nat × Nat) : State :=
  s.issue ([Reg.v f.vd n] ++ srcRegs srcs) (s.laneResult f srcs n r)

/-- One that reads its operand A in lanes of other paths too (R357). -/
def State.crossOp (s : State) (f : VopF) (srcs : List Src) (n : Nat) (r : Ctx → Nat → Nat × Nat) : State :=
  s.issue ([Reg.v f.vd n] ++ srcRegs srcs ++ acrossRegs f.ty f.a) (s.laneResult f srcs n r)

/-- An integer lane-wise instruction of two operands (R358): `r` from the width and the values. -/
def State.int2 (s : State) (f : VopF) (r : Nat → Nat → Nat → Nat) : State :=
  s.laneOp f [(f.a, f.ty), (f.b, f.ty)] (tyRegs f.ty) (fun x i =>
    (r (tyBits f.ty) (x.val f.ty i f.a) (x.val f.ty i f.b) % 2 ^ tyBits f.ty, 0))

/-- An integer lane-wise instruction of one operand. -/
def State.int1 (s : State) (f : VopF) (r : Nat → Nat → Nat) : State :=
  s.laneOp f [(f.a, f.ty)] (tyRegs f.ty) (fun x i => (r (tyBits f.ty) (x.val f.ty i f.a) % 2 ^ tyBits f.ty, 0))

/-- A shift (R359): the count is read as 32 bits. -/
def State.shift (s : State) (f : VopF) (r : Nat → Nat → Nat → Nat) : State :=
  s.laneOp f [(f.a, f.ty), (f.b, .b32)] (tyRegs f.ty) (fun x i =>
    (r (tyBits f.ty) (x.val f.ty i f.a) (x.val32 i f.b) % 2 ^ tyBits f.ty, 0))

/-- A sum or difference, clamped to the type's range where SAT says so (R358). -/
def addSat (ty : Ty) (sat : Bool) (w : Nat) (x : Int) : Nat :=
  if sat then
    if tySigned ty then wrap w (clamp x (-(2 ^ (w - 1) : Nat)) ((2 ^ (w - 1) : Nat) - 1)) else wrap w (clamp x 0 ((2 ^ w : Nat) - 1))
  else wrap w x

/-- Leading zero bits (R358). -/
def clz (w x : Nat) : Nat := w - bitLen (x % 2 ^ w)
/-- Number of 1 bits. -/
def popc (w x : Nat) : Nat := (List.range w).foldl (fun a i => a + b2n (bit x i)) 0
/-- Bits in reverse. -/
def brev (w x : Nat) : Nat := bitsOf w (fun i => bit x (w - 1 - i))

/-- VADD (R358). -/
def execVadd (f : VopF) (s : State) : Out :=
  .next (s.int2 f (fun w a b => addSat f.ty (bit f.mod 4) w (tyInt f.ty w a + tyInt f.ty w b)))
/-- VSUB (R358). -/
def execVsub (f : VopF) (s : State) : Out :=
  .next (s.int2 f (fun w a b => addSat f.ty (bit f.mod 4) w (tyInt f.ty w a - tyInt f.ty w b)))
/-- VMUL (R358). -/
def execVmul (f : VopF) (s : State) : Out := .next (s.int2 f (fun _ a b => a * b))
/-- VMULH (R358). -/
def execVmulh (f : VopF) (s : State) : Out := .next (s.int2 f (fun w a b => mulHigh (tySigned f.ty) w a b))
/-- VMAD (R358). -/
def execVmad (f : VopF) (s : State) : Out :=
  .next (s.laneOp f [(f.a, f.ty), (f.b, f.ty), (f.c, f.ty)] (tyRegs f.ty) (fun x i =>
    ((x.val f.ty i f.a * x.val f.ty i f.b + x.val f.ty i f.c) % 2 ^ tyBits f.ty, 0)))
/-- VAND (R358). -/
def execVand (f : VopF) (s : State) : Out := .next (s.int2 f (fun _ a b => a &&& b))
/-- VOR (R358). -/
def execVor (f : VopF) (s : State) : Out := .next (s.int2 f (fun _ a b => a ||| b))
/-- VXOR (R358). -/
def execVxor (f : VopF) (s : State) : Out := .next (s.int2 f (fun _ a b => a ^^^ b))
/-- VNOT (R358). -/
def execVnot (f : VopF) (s : State) : Out := .next (s.int1 f (fun w a => 2 ^ w - 1 - a % 2 ^ w))
/-- VSHL (R358, R359). -/
def execVshl (f : VopF) (s : State) : Out := .next (s.shift f shl)
/-- VSHR (R358, R359). -/
def execVshr (f : VopF) (s : State) : Out := .next (s.shift f shr)
/-- VSAR (R358, R359). -/
def execVsar (f : VopF) (s : State) : Out := .next (s.shift f sar)
/-- VMIN (R358). -/
def execVmin (f : VopF) (s : State) : Out := .next (s.int2 f (fun w a b => intMin (tySigned f.ty) w a b))
/-- VMAX (R358). -/
def execVmax (f : VopF) (s : State) : Out := .next (s.int2 f (fun w a b => intMax (tySigned f.ty) w a b))
/-- VABS (R358). -/
def execVabs (f : VopF) (s : State) : Out := .next (s.int1 f (fun w a => (signed w a).natAbs))
/-- VCLZ (R358, R359). -/
def execVclz (f : VopF) (s : State) : Out := .next (s.int1 f clz)
/-- VPOPC (R358, R359). -/
def execVpopc (f : VopF) (s : State) : Out := .next (s.int1 f popc)
/-- VBREV (R358). -/
def execVbrev (f : VopF) (s : State) : Out := .next (s.int1 f brev)
/-- VCMP (R358, R359). -/
def execVcmp (f : VopF) (s : State) : Out :=
  .next (s.laneOp f [(f.a, f.ty), (f.b, f.ty)] 1 (fun x i =>
    (b2n (ccHolds (f.mod / 4) (intCmp (tySigned f.ty) (tyBits f.ty) (x.val f.ty i f.a) (x.val f.ty i f.b))), 0)))
/-- VSEL (R358, R359). -/
def execVsel (f : VopF) (s : State) : Out :=
  .next (s.laneOp f [(f.a, f.ty), (f.b, f.ty), (f.c, .b32)] (tyRegs f.ty) (fun x i =>
    (if x.val32 i f.c ≠ 0 then x.val f.ty i f.a else x.val f.ty i f.b, 0)))
/-- VMOV (R358). -/
def execVmov (f : VopF) (s : State) : Out := .next (s.int1 f (fun _ a => a))
/-- VIOTA (R358, R359). -/
def execViota (f : VopF) (s : State) : Out :=
  .next (s.laneOp f [(f.a, f.ty), (f.b, f.ty)] (tyRegs f.ty) (fun x i =>
    ((x.val f.ty i f.a + x.val f.ty i f.b * i) % 2 ^ tyBits f.ty, 0)))

/-- VMOVS (R360): the lane is read whatever it belongs to. -/
def execVmovs (f : SopF) (s : State) : Out :=
  .next (s.issue ([Reg.s f.sd (tyRegs f.ty)] ++ acrossRegs f.ty f.a ++ uniRegs f.ty f.b) (fun x =>
    let lane := x.sval f.ty f.b % 32
    (s.onG x (fun g => g.setSval (tyBits f.ty) f.sd (x.val f.ty lane f.a))).advance x.a))

end Sys2Proof.Machine
end

