-- ==== Sys2Proof/Machine/Control.lean ====
section
/-! DEFINITION. Branches, calls, exits, waits, special registers, nesting, splitting and rejoining, and the spin detector (R247
to R260, R340 to R355). -/

namespace Sys2Proof.Machine

/-- The target of a label (R340). -/
def Ctx.target (x : Ctx) (off : Nat) : PcVal := BitVec.ofInt 57 ((x.p.pc.toNat : Int) + 8 * signed 29 off)

/-- Headers from `at_` to the branch's own clause, at most `fuel` (R259): true where the branch is short. -/
def spanShort (s : State) (x : Ctx) : Nat → Nat → Bool
  | 0, _ => false
  | fuel + 1, at_ =>
    if at_ = x.p.hdrPc.toNat then true
    else if x.p.hdrPc.toNat < at_ then false
    else
      match (s.readDesc (whoLane x.a) x.a.core x.t.asid .fetch x.t.sup at_ 8).1 with
      | .ok bs =>
        let h := leNat bs
        if bits h 63 56 = 0xC5 then spanShort s x fuel (at_ + 8 * (bits h 55 52 + 2)) else false
      | _ => false

/-- What the detector compares (R259). -/
def Ctx.snap (x : Ctx) : SpinSnap :=
  { branch := x.p.pc, names := x.g.names, svals := x.g.s, lanes := x.p.lanes, fmt := x.p.fmt,
    nest := nestSet 0 x.p.lanes (fun i => nestOf x.g.nest i), ks := x.g.k }

/-- The detector at a taken short backward branch (R259, R260). The first one after SPIN is the reference (DEDUCED, log 113). -/
def Spin.trip (d : Spin) (snap : SpinSnap) (clock : Nat) : Spin :=
  match d.mark with
  | some m =>
    match d.last with
    | some l => if l = snap && !d.changed then { d with lines := [], mark := some m } else Spin.init
    | none => { d with last := some snap, equal := 1, changed := false, lines := [] }
  | none =>
    let same := match d.last with
      | some l => decide (l = snap) && !d.changed
      | none => false
    let n := if same then d.equal + 1 else 1
    { last := some snap, equal := n, changed := false, lines := [], mark := if 3 ≤ n then some (clock, d.lines) else none }

/-- A taken branch (R259, R260): a short backward one is a trip; a marked path that takes another branch loses its mark. -/
def Ctx.spinAfter (x : Ctx) (s : State) (target : PcVal) : Spin :=
  let back := decide (target.toNat < x.p.pc.toNat)
  if back && spanShort s x 16 target.toNat then x.p.spin.trip x.snap (s.core x.a.core).clock
  else match x.p.spin.mark with
    | some _ => x.p.spin.cleared
    | none => x.p.spin

/-- The whole path takes a branch. -/
def State.takeBranch (s : State) (x : Ctx) (target : PcVal) : State :=
  let d := x.spinAfter s target
  (s.onPath x.a (fun p => { p with spin := d })).goto x.a target

/-- The paths of a group that wait on a rejoin register (R254). -/
def Group.waiting (g : Group) (k : Nat) : List (Nat × Path) := g.paths.filter (fun p => decide (p.2.wait = .join k))

/-- Merge the paths that wait on K where every lane of its MASK has arrived (R254); a trap that one of them has still to take comes
first, and its JOIN is issued again (R276). -/
def State.joinCheck (s : State) (c slot gi k : Nat) : State :=
  match s.group? c slot gi with
  | none => s
  | some g =>
    let ws := g.waiting k
    let lanes := ws.foldl (fun m p => m ||| p.2.lanes) (0 : LaneSet)
    let kr := g.kreg k
    match ws with
    | [] => s
    | w :: _ =>
      if kr.mask &&& ~~~ lanes ≠ 0 || ws.any (fun p => p.2.pend.isSome) then s
      else
        let s := ws.foldl (fun s p => s.endClause { core := c, slot := slot, group := gi, path := p.1 }) s
        let ids := ws.map (fun p => p.1)
        let merged : Path := { Path.start lanes kr.pc kr.fmt with lastIssue := w.2.lastIssue, lastOrd := w.2.lastOrd, clausesSince := w.2.clausesSince }
        s.onGroup c slot gi (fun g =>
          { g with paths := Tab.set (g.paths.filter (fun (p : Nat × Path) => !ids.contains p.1)) w.1 merged,
                   ops := g.ops.map (fun (o : Nat × Op) => if ids.contains o.2.path then (o.1, { o.2 with path := w.1 }) else o) })

/-- Every rejoin register is re-evaluated. -/
def State.joinAll (s : State) (c slot gi : Nat) : State := (List.range 16).foldl (fun s k => s.joinCheck c slot gi k) s

/-- Write a rejoin register (R251, R253, R353): lanes that have exited leave its MASK, and its waiters are re-evaluated. -/
def State.setK (s : State) (x : Ctx) (k : Nat) (v : KReg) : State :=
  (s.onG x (fun g => { g with k := g.k.set k { v with mask := v.mask &&& ~~~ g.exited } }))

/-- A 57-bit PC from a pair (R342): bits [56:3] times 8. -/
def pcOf (v : W64) : PcVal := BitVec.ofNat 57 (bits v.toNat 56 3 * 8)

/-- NOP (R343). -/
def execNop (_f : BrF) (s : State) : Out := .next (s.issue [] (fun x => s.advance x.a))
/-- BRA (R341). -/
def execBra (f : BrF) (s : State) : Out := .next (s.issue [] (fun x => s.takeBranch x (x.target f.off)))
/-- The condition of BRC (R341). -/
def brcHolds (cc : Nat) (v : W32) : Bool :=
  match cc with
  | 0 => v = 0
  | 1 => v ≠ 0
  | 2 => v.getLsbD 31
  | _ => !v.getLsbD 31
/-- BRC (R341). -/
def execBrc (f : BrF) (s : State) : Out :=
  .next (s.issue [.s f.sc 1] (fun x => if brcHolds f.cc (x.s f.sc) then s.takeBranch x (x.target f.off) else s.advance x.a))
/-- CALL (R342). -/
def execCall (f : BrF) (s : State) : Out :=
  .next (s.issue [.s f.sc 2] (fun x =>
    (s.onG x (fun g => g.setPair f.sc ((x.p.pc + 8).setWidth 64))).takeBranch x (x.target f.off)))
/-- RET (R342). -/
def execRet (f : BrF) (s : State) : Out := .next (s.issue [.s f.sc 2] (fun x => s.takeBranch x (pcOf (x.g.spair f.sc))))
/-- JMPI (R342). -/
def execJmpi (f : BrF) (s : State) : Out := .next (s.issue [.s f.sc 2] (fun x => s.takeBranch x (pcOf (x.g.spair f.sc))))

/-- EXIT (R247): the active lanes exit, leave every MASK, and the JOINs are re-evaluated. A path without lanes ceases. -/
def execExit (_f : BrF) (s : State) : Out :=
  .next (s.issue [] (fun x =>
    if x.act = 0 then s.advance x.a
    else
      let left := x.p.lanes &&& ~~~ x.act
      let s := s.onG x (fun g =>
        { g with exited := g.exited ||| x.act, k := g.k.map (fun (p : Nat × KReg) => (p.1, { p.2 with mask := p.2.mask &&& ~~~ x.act })) })
      let s := if left = 0 then
          (s.endClause x.a).onG x (fun g => { g with paths := g.paths.erase x.a.path })
        else (s.onPath x.a (fun p => { p with lanes := left })).advance x.a
      (s.joinAll x.a.core x.a.slot x.a.group).reap x.a.core x.a.slot x.a.group))

/-- WAITC (R343): the thresholds hold the next instruction of the path. -/
def execWaitc (f : WcntF) (s : State) : Out :=
  .next (s.issue [] (fun x => (s.advance x.a).onPath x.a (fun p => { p with waitc := some f })))
/-- YIELD (R343): the group gives way for one choice of its quarter. -/
def execYield (_f : BrF) (s : State) : Out :=
  .next (s.issue [] (fun x => (s.onG x (fun g => { g with yielded := true })).advance x.a))

/-- TEAMID and the other identity registers (R242). -/
def Ctx.identity (x : Ctx) (sreg : Nat) : Nat :=
  match sreg with
  | 1 => x.a.group
  | 2 => x.t.teamId x.grid
  | 3 => x.t.cluster
  | 4 => x.a.core
  | _ => dieOf x.a.core

/-- SRDSR (R344, R325). -/
def execSrdsr (f : SpcF) (s : State) : Out :=
  .next (s.issue [if f.dv then .v f.reg 1 else .s f.reg (if f.sreg = 6 then 2 else 1)] (fun x =>
    let setS (v : Nat) : State := (s.onG x (fun g => g.setS f.reg (BitVec.ofNat 32 v))).advance x.a
    match f.sreg with
    | 0 => (s.putV x f.reg [packLanes (fun i => BitVec.ofNat 32 i)]).advance x.a
    | 6 => (s.onG x (fun g => g.setPair f.reg (BitVec.ofNat 64 (s.core x.a.core).clock))).advance x.a
    | 7 => (s.writeLanes x.a.core x.a.slot x.a.group x.p.lanes f.reg
        (packLanes (fun i => (nestOf x.g.nest i).setWidth 32))).advance x.a
    | 8 => setS x.g.part
    | 9 => setS x.p.fmt.toNat
    | 10 => setS x.g.flags.toNat
    | 11 => setS x.g.gstat.toNat
    | n => setS (x.identity n)))

/-- FMT is written (R184, R345): ILLFMT where a reserved bit is set. -/
def State.setFmt (s : State) (x : Ctx) (v : Nat) : State :=
  if bits v 31 17 ≠ 0 then s.trapAt x.a 7 0 0
  else (s.onPath x.a (fun p => { p with fmt := BitVec.ofNat 32 v })).advance x.a

/-- PART is written (R256, R346): ILLPART for a reserved width, or from a path that is not the whole group. -/
def State.setPart (s : State) (x : Ctx) (v : Nat) : State :=
  if v < 1 ∨ 5 < v ∨ !x.whole then s.trapAt x.a 8 0 0
  else (s.onG x (fun g => { g with part := v })).advance x.a

/-- SWRSR (R344, R250, R278). -/
def execSwrsr (f : SpcF) (s : State) : Out :=
  .next (s.issue [if f.dv then .v f.reg 1 else .s f.reg 1] (fun x =>
    match f.sreg with
    | 7 =>
      let v := x.g.vreg f.reg
      (s.onG x (fun g => { g with nest := nestSet g.nest x.p.lanes (fun i => (laneOf v i).setWidth 4) })).advance x.a
    | 8 => s.setPart x (x.s f.reg).toNat
    | 9 => s.setFmt x (x.s f.reg).toNat
    | 10 => (s.onG x (fun g => { g with flags := (x.s f.reg).setWidth 6 })).advance x.a
    | 11 => (s.onG x (fun g => { g with gstat := (g.gstat &&& ~~~ 0x3F#32) ||| (x.s f.reg &&& 0x3F#32) })).advance x.a
    | _ => s.advance x.a))

/-- SETFMT (R345). -/
def execSetfmt (f : SimmF) (s : State) : Out := .next (s.issue [] (fun x => s.setFmt x f.imm))
/-- SETPART (R346). -/
def execSetpart (f : SimmF) (s : State) : Out := .next (s.issue [] (fun x => s.setPart x f.imm))

/-- IF (R248, R348). -/
def execIfLanes (f : BrF) (s : State) : Out :=
  .next (s.issue [.v f.vc 1] (fun x =>
    if (laneList x.p.lanes).any (fun i => decide (nestOf x.g.nest i = 15)) then s.trapAt x.a 2 0 0
    else
      let c := x.g.vreg f.vc
      let up (i : Nat) : BitVec 4 :=
        if nestOf x.g.nest i ≠ 0 then nestOf x.g.nest i + 1 else if laneOf c i = 0 then 1 else 0
      (s.onG x (fun g => { g with nest := nestSet g.nest x.p.lanes up })).advance x.a))
/-- ELSE (R248, R348). -/
def execElseLanes (_f : BrF) (s : State) : Out :=
  .next (s.issue [] (fun x =>
    let flip (i : Nat) : BitVec 4 := if nestOf x.g.nest i = 0 then 1 else if nestOf x.g.nest i = 1 then 0 else nestOf x.g.nest i
    (s.onG x (fun g => { g with nest := nestSet g.nest x.p.lanes flip })).advance x.a))
/-- ENDIF (R248, R348). -/
def execEndif (_f : BrF) (s : State) : Out :=
  .next (s.issue [] (fun x =>
    let down (i : Nat) : BitVec 4 := if nestOf x.g.nest i = 0 then 0 else nestOf x.g.nest i - 1
    (s.onG x (fun g => { g with nest := nestSet g.nest x.p.lanes down })).advance x.a))

/-- BRV (R252, R349). -/
def execBrv (f : BrF) (s : State) : Out :=
  .next (s.issue [.v f.vc 1] (fun x =>
    let c := x.g.vreg f.vc
    let taken := laneSetOf (fun i => x.act.getLsbD i && decide (laneOf c i ≠ 0))
    let rest := x.p.lanes &&& ~~~ taken
    let target := x.target f.off
    if taken = 0 then s.advance x.a
    else if rest = 0 then s.takeBranch x target
    else
      let d := ({ x with p := { x.p with spin := Spin.init, lanes := taken } } : Ctx).spinAfter s target
      let side : Path := { Path.start taken target x.p.fmt with spin := d, lastOrd := x.p.lastOrd, clausesSince := x.p.clausesSince }
      let s := (s.onPath x.a (fun p => { p with lanes := rest })).advance x.a
      s.onG x (fun g => { g with paths := g.paths.set g.nextPath side, nextPath := g.nextPath + 1 })))

/-- MARK (R251, R350). -/
def execMark (f : BrF) (s : State) : Out :=
  .next (s.issue [] (fun x =>
    ((s.setK x f.kn { fmt := x.p.fmt, pc := x.target f.off, mask := x.p.lanes }).advance x.a).joinCheck x.a.core x.a.slot x.a.group f.kn))
/-- JOIN (R254, R351). -/
def execJoin (f : BrF) (s : State) : Out :=
  .next (s.issue [] (fun x =>
    (s.onPath x.a (fun p => { p with wait := .join f.kn, stall := some 6 })).joinCheck x.a.core x.a.slot x.a.group f.kn))

/-- KMOV (R352, R253). -/
def execKmov (f : KopF) (s : State) : Out :=
  .next (s.issue (if f.fld = 0 then [] else [.s f.sr (if f.fld = 2 then 2 else 1)]) (fun x =>
    let g := x.g
    let put (v : KReg) : State := ((s.setK x f.kd v).advance x.a).joinCheck x.a.core x.a.slot x.a.group f.kd
    if f.dir then
      let k := g.kreg f.ks
      let s := s.onG x (fun g => match f.fld with
        | 1 => g.setS f.sr k.mask
        | 2 => g.setPair f.sr (k.pc.setWidth 64)
        | _ => g.setS f.sr k.fmt)
      s.advance x.a
    else
      match f.fld with
      | 0 => put (g.kreg f.ks)
      | 1 => put { g.kreg f.kd with mask := x.s f.sr }
      | 2 => put { g.kreg f.kd with pc := pcOf (g.spair f.sr) }
      | _ =>
        if bits (x.s f.sr).toNat 31 17 ≠ 0 then s.trapAt x.a 7 0 0
        else put { g.kreg f.kd with fmt := x.s f.sr }))
/-- KAND (R352, R253). -/
def execKand (f : KopF) (s : State) : Out :=
  .next (s.issue [.s f.sr 1] (fun x =>
    let k := x.g.kreg f.kd
    ((s.setK x f.kd { k with mask := k.mask &&& x.s f.sr }).advance x.a).joinCheck x.a.core x.a.slot x.a.group f.kd))
/-- KOR (R352, R253). -/
def execKor (f : KopF) (s : State) : Out :=
  .next (s.issue [.s f.sr 1] (fun x =>
    let k := x.g.kreg f.kd
    ((s.setK x f.kd { k with mask := k.mask ||| x.s f.sr }).advance x.a).joinCheck x.a.core x.a.slot x.a.group f.kd))

/-- SPIN (R354). -/
def execSpin (_f : BrF) (s : State) : Out :=
  .next (s.issue [] (fun x =>
    let clock := (s.core x.a.core).clock
    (s.advance x.a).onPath x.a (fun p =>
      { p with spin := match p.spin.mark with
        | some _ => p.spin
        | none => { p.spin with mark := some (clock, p.spin.lines) } })))

end Sys2Proof.Machine
end

