-- ==== Sys2Proof/Machine/Transcend.lean ====
section
/-! DEFINITION. 2^a, log2 a, sin a and cos a, correctly rounded (R204). The exact value is enclosed between two multiples of a
small power of two, from a convergent series with a bound on its error; where both ends round alike, that is the result. Where
they do not, the precision is raised (log 16). -/

namespace Sys2Proof.Machine

/-- 1/q ± 1/(3 q³) + 1/(5 q⁵) … for n terms, in the fixed point of its first term: the series of the inverse tangent where the signs
alternate, of the inverse hyperbolic tangent where they do not. `q2` is q². -/
def invSeries (alt : Bool) (q2 : Nat) : Nat → Nat → Nat → Bool → Int → Int
  | 0, _, _, _, acc => acc
  | n + 1, k, t, neg, acc =>
    invSeries alt q2 n (k + 2) (t / q2) (alt && !neg) (if neg then acc - (t / k : Nat) else acc + (t / k : Nat))

/-- ln 2 with b fraction bits: twice the inverse hyperbolic tangent of 1/3. -/
def ln2Fix (b : Nat) : Nat := 2 * (invSeries false 9 (b / 3 + 16) 1 (2 ^ b / 3) false 0).toNat

/-- π / 2 with b fraction bits, by Machin's formula. -/
def halfPiFix (b : Nat) : Nat :=
  (8 * invSeries true 25 (b / 4 + 16) 1 (2 ^ b / 5) false 0 - 2 * invSeries true 57121 (b / 8 + 16) 1 (2 ^ b / 239) false 0).toNat

/-- Half the width of an enclosure at b fraction bits, in units of the last one. A term of a series loses at most 10 units, a
series has at most b / 3 + 16 terms, and no step after it more than triples what it lost. -/
def serErr (b : Nat) : Nat := 64 * b

/-- Terms of a series whose terms shrink 16-fold. -/
def serTerms (b : Nat) : Nat := b / 4 + 16

/-- Sum t, t x / (k + 1), t x² / ((k + 1)(k + 2)) … for n terms, in fixed point: the series of exp. -/
def expSeries (b x : Nat) : Nat → Nat → Nat → Nat → Nat
  | 0, _, _, acc => acc
  | n + 1, k, t, acc => expSeries b x n (k + 1) (t * x / 2 ^ b / (k + 1)) (acc + t)

/-- The alternating series of sine (from t = x, k = 1) and cosine (from t = 1, k = 0). -/
def trigSeries (b x2 : Nat) : Nat → Nat → Nat → Int → Int → Int
  | 0, _, _, _, acc => acc
  | n + 1, k, t, sg, acc => trigSeries b x2 n (k + 2) (t * x2 / 2 ^ b / ((k + 1) * (k + 2))) (-sg) (acc + sg * t)

/-- z + z³ / 3 + z⁵ / 5 … for n terms: the series of the inverse hyperbolic tangent. -/
def atanhSeries (b z2 : Nat) : Nat → Nat → Int → Int → Int
  | 0, _, _, acc => acc
  | n + 1, k, t, acc => atanhSeries b z2 n (k + 2) (Int.tdiv (t * z2) (2 ^ b : Nat)) (acc + Int.tdiv t (k : Nat))

/-- The rounded result of a value enclosed strictly between (x − d) × 2^e and (x + d) × 2^e, if both ends agree. -/
def FFmt.enclosed (f : FFmt) (md : RMode) (neg : Bool) (x d : Nat) (e : Int) : Option (Nat × Nat) :=
  let lo := f.round md neg (x - d) e true
  let hi := f.round md neg (x + d - 1) e true
  if d < x ∧ lo = hi then some lo else none

/-- An approximation at a number of fraction bits: sign, magnitude and exponent. -/
abbrev FixedAt := Nat → Bool × Nat × Int

/-- The rounded result at the first precision that decides it. None of the formats has an input that 4,096 bits leave open (log
16). -/
def FFmt.decided (f : FFmt) (md : RMode) (v : FixedAt) : List Nat → Nat × Nat
  | [] => let (neg, x, e) := v 4096; f.round md neg x e true
  | b :: rest =>
    let (neg, x, e) := v b
    match f.enclosed md neg x (serErr b) e with
    | some r => r
    | none => f.decided md v rest

/-- The precisions that are tried. -/
def precisions : List Nat := [320, 1024, 4096]

/-- 2^a for a finite a that is no integer, below 2^12 in magnitude and above 2^−100. -/
def exp2Fix (neg : Bool) (m : Nat) (e : Int) (b : Nat) : Bool × Nat × Int :=
  -- a in fixed point; its floor n and fraction.
  let a : Int := if neg then -(m * 2 ^ (e + b).toNat : Nat) else (m * 2 ^ (e + b).toNat : Nat)
  let n := a / (2 ^ b : Nat)
  let fr := (a % (2 ^ b : Nat)).toNat
  (false, expSeries b (fr * ln2Fix b / 2 ^ b) (serTerms b) 0 (2 ^ b) 0, n - b)

/-- log2 of m × 2^e with m not a power of two. -/
def log2Fix (m : Nat) (e : Int) (b : Nat) : Bool × Nat × Int :=
  let k := bitLen m
  -- y in [3/4, 3/2) and its exponent.
  let up := decide (3 * 2 ^ k ≤ 4 * m)
  let n : Int := e + k - (if up then 0 else 1)
  let one := 2 ^ b
  let y := if up then m * one / 2 ^ k else m * one * 2 / 2 ^ k
  let z := Int.tdiv (((y : Int) - one) * one) ((y : Int) + one)
  let z2 := (z * z / (one : Int)).toNat
  let ln := 2 * atanhSeries b z2 (serTerms b) 1 z 0
  let x := n * one + Int.tdiv (ln * (one : Int)) (ln2Fix b : Int)
  (decide (x < 0), x.natAbs, -(b : Int))

/-- Quadrant and remainder of m × 2^e divided by π / 2, in fixed point: 1,088 bits more hold the quotient of the largest input. -/
def reduce (m : Nat) (e : Int) (b : Nat) : Nat × Nat :=
  let p := b + 1088
  let half := halfPiFix p
  let x := if 0 ≤ e then m * 2 ^ e.toNat * 2 ^ p else m * 2 ^ (p + e).toNat
  (x / half % 4, x % half / 2 ^ 1088)

/-- Sine of a remainder below π / 2. -/
def sinFix (b r : Nat) : Nat := (trigSeries b (r * r / 2 ^ b) (serTerms b) 1 r 1 0).toNat
/-- Cosine of a remainder below π / 2. -/
def cosFix (b r : Nat) : Nat := (trigSeries b (r * r / 2 ^ b) (serTerms b) 0 (2 ^ b) 1 0).toNat

/-- Sine or cosine of an input. -/
def trigFix (sine neg : Bool) (m : Nat) (e : Int) (b : Nat) : Bool × Nat × Int :=
  let (q, r) := reduce m e b
  let k := if sine then q else (q + 1) % 4
  (decide (2 ≤ k) != (sine && neg), if k % 2 = 0 then sinFix b r else cosFix b r, -(b : Int))

/-- The function codes 0 VFEXP2, 1 VFLOG2, 2 VFSIN, 3 VFCOS on one code, with the special cases of R204. -/
def transcend (fn : Nat) (f : FFmt) (md : RMode) (a : Nat) : Nat × Nat :=
  let one := f.round md false 1 0 false
  match f.decode md.ftz a with
  | .nan sig => (f.nan, if sig then fINV else 0)
  | .inf neg =>
    match fn with
    | 0 => if neg then (0, 0) else (f.inf, 0)
    | 1 => if neg then (f.nan, fINV) else (f.inf, 0)
    | _ => (f.nan, fINV)
  | .fin neg m e =>
    if m = 0 then
      match fn with
      | 0 => one
      | 1 => (f.inf + f.signBit true, fDZ)
      | 2 => (f.signBit neg, 0)
      | _ => one
    else
      let top : Int := e + bitLen m - 1
      match fn with
      | 0 =>
        if 12 ≤ top then (if neg then f.round md false 1 (-5000) true else f.round md false 1 5000 true)
        else if top < -100 then (if neg then f.round md false (2 ^ 200 - 1) (-200) true else f.round md false (2 ^ 200) (-200) true)
        else
          let whole := decide (0 ≤ e) || decide (m % 2 ^ (-e).toNat = 0)
          if whole then
            let n : Int := if 0 ≤ e then (m * 2 ^ e.toNat : Nat) else (m / 2 ^ (-e).toNat : Nat)
            f.round md false 1 (if neg then -n else n) false
          else
            f.decided md (exp2Fix neg m e) precisions
      | 1 =>
        if neg then (f.nan, fINV)
        else if m = 2 ^ (bitLen m - 1) then
          let n := e + bitLen m - 1
          f.round md (decide (n < 0)) n.natAbs 0 false
        else f.decided md (log2Fix m e) precisions
      | n =>
        if top < -100 then
          if n = 2 then f.round md neg (m * 2 ^ 64 - 1) (e - 64) true else f.round md false (2 ^ 200 - 1) (-200) true
        else f.decided md (trigFix (decide (n = 2)) neg m e) precisions

end Sys2Proof.Machine
end

