-- ==== Sys2Proof/Machine/VectorFp.lean ====
section
/-! DEFINITION. The floating-point vector instructions (R202 to R206, R361 to R365). A packed type computes its two elements
separately. -/

namespace Sys2Proof.Machine

/-- The element format of a floating type. -/
def FpTy (ty : Ty) : FFmt := ffmtOfTy ty.code

/-- Rounding of a VOP instruction (R321, R361): RMO in MOD[4], the mode in MOD[3:2]. Arithmetic never saturates (R186), and
F64 never flushes (R187). -/
def Ctx.vopMode (x : Ctx) (f : VopF) : RMode :=
  let m := modeOf x.p.fmt (bit f.mod 4) (bits f.mod 3 2)
  { m with satn := false, ftz := m.ftz && decide (f.ty ≠ .f64) }

/-- Apply an element function to a register value of a type: both halves of a packed one (R202). -/
def perElem (ty : Ty) (g : Nat → Nat → Nat → Nat × Nat) (a b c : Nat) : Nat × Nat :=
  if tyPack ty = 2 then
    let lo := g (a % 2 ^ 16) (b % 2 ^ 16) (c % 2 ^ 16)
    let hi := g (a / 2 ^ 16) (b / 2 ^ 16) (c / 2 ^ 16)
    (lo.1 + hi.1 * 2 ^ 16, lo.2 ||| hi.2)
  else g a b c

/-- A floating-point lane-wise instruction: `e` computes one element, from the rounding and the codes of A, B and C. -/
def State.fpOp (s : State) (f : VopF) (n : Nat) (regs : Nat) (e : RMode → Nat → Nat → Nat → Nat × Nat) : State :=
  let srcs : List Src := ([(f.a, f.ty), (f.b, f.ty), (f.c, f.ty)] : List Src).take n
  s.laneOp f srcs regs (fun x i =>
    let v (k : Nat) : Nat := match srcs[k]? with
      | some p => x.val f.ty i p.1
      | none => 0
    perElem f.ty (e (x.vopMode f)) (v 0) (v 1) (v 2))

/-- Round an exact value, with the flags of the operation. -/
def FFmt.finish (f : FFmt) (md : RMode) (r : FVal × Nat) : Nat × Nat :=
  let (x, fl) := f.roundVal md r.1
  (x, fl ||| r.2)

/-- VFADD (R361). -/
def execVfadd (f : VopF) (s : State) : Out :=
  let t := FpTy f.ty
  .next (s.fpOp f 2 (tyRegs f.ty) (fun md a b _ => t.finish md ((t.decode md.ftz a).add md.rm (t.decode md.ftz b))))
/-- VFSUB (R361). -/
def execVfsub (f : VopF) (s : State) : Out :=
  let t := FpTy f.ty
  .next (s.fpOp f 2 (tyRegs f.ty) (fun md a b _ => t.finish md ((t.decode md.ftz a).add md.rm (t.decode md.ftz b).negate)))
/-- VFMUL (R361). -/
def execVfmul (f : VopF) (s : State) : Out :=
  let t := FpTy f.ty
  .next (s.fpOp f 2 (tyRegs f.ty) (fun md a b _ => t.finish md ((t.decode md.ftz a).mul (t.decode md.ftz b))))
/-- VFMA (R361, R202). -/
def execVfma (f : VopF) (s : State) : Out :=
  let t := FpTy f.ty
  .next (s.fpOp f 3 (tyRegs f.ty) (fun md a b c =>
    t.finish md (FVal.fma md.rm (t.decode md.ftz a) (t.decode md.ftz b) (t.decode md.ftz c))))
/-- VFMIN (R205). -/
def execVfmin (f : VopF) (s : State) : Out :=
  .next (s.fpOp f 2 (tyRegs f.ty) (fun md a b _ => (FpTy f.ty).minmax md.ftz false a b))
/-- VFMAX (R205). -/
def execVfmax (f : VopF) (s : State) : Out :=
  .next (s.fpOp f 2 (tyRegs f.ty) (fun md a b _ => (FpTy f.ty).minmax md.ftz true a b))
/-- VFMINN (R205). -/
def execVfminn (f : VopF) (s : State) : Out :=
  .next (s.fpOp f 2 (tyRegs f.ty) (fun md a b _ => (FpTy f.ty).minmaxN md.ftz false a b))
/-- VFMAXN (R205). -/
def execVfmaxn (f : VopF) (s : State) : Out :=
  .next (s.fpOp f 2 (tyRegs f.ty) (fun md a b _ => (FpTy f.ty).minmaxN md.ftz true a b))

/-- A numeric code with its sign replaced (R362); a NaN gives the canonical one. -/
def FFmt.withSign (f : FFmt) (ftz : Bool) (a : Nat) (neg : Bool → Bool) : Nat × Nat :=
  let v := f.decode ftz a
  match v with
  | .nan sig => (f.nan, if sig then fINV else 0)
  | _ =>
    let mag := if v.isZero then 0 else a % 2 ^ (f.eb + f.fb)
    (mag + f.signBit (neg v.neg), 0)

/-- VFABS (R362). -/
def execVfabs (f : VopF) (s : State) : Out :=
  .next (s.fpOp f 1 (tyRegs f.ty) (fun md a _ _ => (FpTy f.ty).withSign md.ftz a (fun _ => false)))
/-- VFNEG (R362). -/
def execVfneg (f : VopF) (s : State) : Out :=
  .next (s.fpOp f 1 (tyRegs f.ty) (fun md a _ _ => (FpTy f.ty).withSign md.ftz a (fun n => !n)))
/-- VFRCP (R204). -/
def execVfrcp (f : VopF) (s : State) : Out :=
  let t := FpTy f.ty
  .next (s.fpOp f 1 (tyRegs f.ty) (fun md a _ _ => t.deliver md ((FVal.fin false 1 0).div (t.decode md.ftz a))))
/-- VFRSQ (R204). -/
def execVfrsq (f : VopF) (s : State) : Out :=
  let t := FpTy f.ty
  .next (s.fpOp f 1 (tyRegs f.ty) (fun md a _ _ => t.deliver md (t.decode md.ftz a).rsqrt))
/-- VFSQRT (R204). -/
def execVfsqrt (f : VopF) (s : State) : Out :=
  let t := FpTy f.ty
  .next (s.fpOp f 1 (tyRegs f.ty) (fun md a _ _ => t.deliver md (t.decode md.ftz a).sqrt))
/-- VFDIV (R204). -/
def execVfdiv (f : VopF) (s : State) : Out :=
  let t := FpTy f.ty
  .next (s.fpOp f 2 (tyRegs f.ty) (fun md a b _ => t.deliver md ((t.decode md.ftz a).div (t.decode md.ftz b))))

/-- VFEXP2 (R204). -/
def execVfexp2 (f : VopF) (s : State) : Out :=
  .next (s.fpOp f 1 (tyRegs f.ty) (fun md a _ _ => transcend 0 (FpTy f.ty) md a))
/-- VFLOG2 (R204). -/
def execVflog2 (f : VopF) (s : State) : Out :=
  .next (s.fpOp f 1 (tyRegs f.ty) (fun md a _ _ => transcend 1 (FpTy f.ty) md a))
/-- VFSIN (R204). -/
def execVfsin (f : VopF) (s : State) : Out :=
  .next (s.fpOp f 1 (tyRegs f.ty) (fun md a _ _ => transcend 2 (FpTy f.ty) md a))
/-- VFCOS (R204). -/
def execVfcos (f : VopF) (s : State) : Out :=
  .next (s.fpOp f 1 (tyRegs f.ty) (fun md a _ _ => transcend 3 (FpTy f.ty) md a))

/-- The class bit of a code (R363). -/
def FFmt.classBit (f : FFmt) (a : Nat) : Nat :=
  match f.decode false a with
  | .nan sig => if sig then 8 else 9
  | .inf n => if n then 0 else 7
  | .fin n m _ =>
    if m = 0 then (if n then 3 else 4)
    else if m < 2 ^ f.fb then (if n then 2 else 5)
    else if n then 1 else 6

/-- VFCLASS (R363). -/
def execVfclass (f : VopF) (s : State) : Out :=
  .next (s.fpOp f 1 1 (fun _ a _ _ => (2 ^ (FpTy f.ty).classBit a, 0)))

/-- Rounding to an integral value (R364). -/
def FFmt.integral (f : FFmt) (md : RMode) (a : Nat) : Nat × Nat :=
  match f.decode md.ftz a with
  | .nan sig => (f.nan, if sig then fINV else 0)
  | .inf n => (f.inf + f.signBit n, 0)
  | .fin n m e =>
    if m = 0 then (f.signBit n, 0)
    else
      let r := (roundTo md.rm n m e 0 false).1
      if r = 0 then (f.signBit n, 0) else ((f.roundVal { rm := 0, ftz := false, satn := false } (.fin n r 0)).1, 0)

/-- VFRND (R364). -/
def execVfrnd (f : VopF) (s : State) : Out :=
  .next (s.fpOp f 1 (tyRegs f.ty) (fun md a _ _ => (FpTy f.ty).integral md a))

/-- A floating comparison (R365). -/
def FFmt.compare (f : FFmt) (ftz : Bool) (cc a b : Nat) : Nat × Nat :=
  let x := f.decode ftz a
  let y := f.decode ftz b
  if x.isNan || y.isNan then (b2n (decide (cc = 1)), if x.isSig || y.isSig || decide (2 ≤ cc) then fINV else 0)
  else (b2n (ccHolds cc (x.cmp y)), 0)

/-- VFCMP (R365). -/
def execVfcmp (f : VopF) (s : State) : Out :=
  .next (s.fpOp f 2 1 (fun md a b _ => (FpTy f.ty).compare md.ftz (f.mod / 4) a b))

/-- One element of VADDMIN or VADDMAX on floats (R206). A sum that is NaN only because an operand was quiet, or because the
sum was invalid, yields c. -/
def FFmt.addMinMax (f : FFmt) (md : RMode) (max : Bool) (a b c : Nat) : Nat × Nat :=
  let x := f.decode md.ftz a
  let y := f.decode md.ftz b
  let z := f.decode md.ftz c
  if x.isSig || y.isSig || z.isSig then
    (f.nan, fINV ||| (f.finish md (x.add md.rm y)).2)
  else
    let (sum, fl) := f.finish md (x.add md.rm y)
    let (r, fl2) := f.minmax md.ftz max sum c
    (r, fl ||| fl2)

/-- VADDMIN and VADDMAX (R206). -/
def State.addMinMax (s : State) (f : VopF) (max : Bool) : State :=
  if tyFloat f.ty then s.fpOp f 3 (tyRegs f.ty) (fun md a b c => (FpTy f.ty).addMinMax md max a b c)
  else
    s.laneOp f [(f.a, f.ty), (f.b, f.ty), (f.c, f.ty)] (tyRegs f.ty) (fun x i =>
      let w := tyBits f.ty
      let sum := tyInt f.ty w (x.val f.ty i f.a) + tyInt f.ty w (x.val f.ty i f.b)
      let c := tyInt f.ty w (x.val f.ty i f.c)
      (wrap w (if max then (if sum < c then c else sum) else if c < sum then c else sum), 0))

/-- VADDMIN (R206). -/
def execVaddmin (f : VopF) (s : State) : Out := .next (s.addMinMax f false)
/-- VADDMAX (R206). -/
def execVaddmax (f : VopF) (s : State) : Out := .next (s.addMinMax f true)

end Sys2Proof.Machine
end

