-- ==== Sys2Proof/Machine/CrossLane.lean ====
section
/-! DEFINITION. The cross-lane instructions (R257, R366 to R374): lanes act within the tiles of PART. -/

namespace Sys2Proof.Machine

/-- Tile width (R256). -/
def Ctx.tile (x : Ctx) : Nat := 2 ^ x.g.part
/-- First lane of the tile of a lane (R366). -/
def Ctx.tb (x : Ctx) (i : Nat) : Nat := i / x.tile * x.tile
/-- Position of a lane in its tile. -/
def Ctx.pos (x : Ctx) (i : Nat) : Nat := i % x.tile
/-- Positions of the active lanes of the tile of a lane, ascending. -/
def Ctx.tileAct (x : Ctx) (i : Nat) : List Nat :=
  (List.range x.tile).filter (fun p => x.act.getLsbD (x.tb i + p))

/-- Some tile holds lanes of the path, and none of them is active (R371). -/
def Ctx.emptyTile (x : Ctx) : Bool :=
  (List.range 32).any (fun i => x.p.lanes.getLsbD i && (x.tileAct i).isEmpty)

/-- The lane that gives a lane its value, by a source position in its tile; its own Vc where that lies outside (R367). -/
def Ctx.shuffle (x : Ctx) (f : VopF) (i : Nat) (src : Int) : Nat :=
  if 0 ≤ src ∧ src < x.tile then x.val f.ty (x.tb i + src.toNat) f.a else x.val f.ty i f.c

/-- VSHFL (R367). -/
def execVshfl (f : VopF) (s : State) : Out :=
  .next (s.crossOp f [(f.a, f.ty), (f.b, .b32), (f.c, f.ty)] (tyRegs f.ty) (fun x i =>
    (x.shuffle f i (x.val32 i f.b : Nat), 0)))
/-- VSHUP (R367). -/
def execVshup (f : VopF) (s : State) : Out :=
  .next (s.crossOp f [(f.a, f.ty), (f.b, .b32), (f.c, f.ty)] (tyRegs f.ty) (fun x i =>
    (x.shuffle f i ((x.pos i : Int) - (x.val32 i f.b : Nat)), 0)))
/-- VSHDN (R367). -/
def execVshdn (f : VopF) (s : State) : Out :=
  .next (s.crossOp f [(f.a, f.ty), (f.b, .b32), (f.c, f.ty)] (tyRegs f.ty) (fun x i =>
    (x.shuffle f i ((x.pos i : Int) + (x.val32 i f.b : Nat)), 0)))

/-- VBCAST (R368). -/
def execVbcast (f : VopF) (s : State) : Out :=
  .next (s.crossOp f [(f.a, f.ty), (f.b, .b32)] (tyRegs f.ty) (fun x i =>
    let n := x.val32 i f.b
    (x.val f.ty (if n < x.tile then x.tb i + n else i) f.a, 0)))

/-- VVOTE (R369): MOD[4:2] is 0 ALL, 1 ANY, 2 BALLOT. -/
def execVvote (f : VopF) (s : State) : Out :=
  .next (s.laneOp f [(f.a, .b32)] 1 (fun x i =>
    let act := x.tileAct i
    let yes (p : Nat) : Bool := decide (x.val32 (x.tb i + p) f.a ≠ 0)
    (match f.mod / 4 with
      | 0 => b2n (act.all yes)
      | 1 => b2n (act.any yes)
      | _ => bitsOf 32 (fun p => act.contains p && yes p), 0)))

/-- VMATCH (R369). -/
def execVmatch (f : VopF) (s : State) : Out :=
  .next (s.laneOp f [(f.a, f.ty)] 1 (fun x i =>
    (bitsOf 32 (fun p => (x.tileAct i).contains p && decide (x.val f.ty (x.tb i + p) f.a = x.val f.ty i f.a)), 0)))

/-- The identity of a reduction (R370): 0 ADD, 1 MIN, 2 MAX, 3 AND, 4 OR, 5 XOR. -/
def redIdentity (op : Nat) (ty : Ty) : Nat :=
  let w := tyBits ty
  let twice (c : Nat) : Nat := if tyPack ty = 2 then c + c * 2 ^ 16 else c
  match op with
  | 1 => if tyFloat ty then twice (FpTy ty).inf else if tySigned ty then 2 ^ (w - 1) - 1 else 2 ^ w - 1
  | 2 => if tyFloat ty then twice ((FpTy ty).inf + (FpTy ty).signBit true) else if tySigned ty then 2 ^ (w - 1) else 0
  | 3 => 2 ^ w - 1
  | _ => 0

/-- One step of a reduction (R370), with its flags. -/
def comb (md : RMode) (op : Nat) (ty : Ty) (a b : Nat) : Nat × Nat :=
  let w := tyBits ty
  let sgn := tySigned ty
  match op with
  | 0 =>
    if tyFloat ty then
      let t := FpTy ty
      perElem ty (fun a b _ => t.finish md ((t.decode md.ftz a).add md.rm (t.decode md.ftz b))) a b 0
    else ((a + b) % 2 ^ w, 0)
  | 1 => if tyFloat ty then perElem ty (fun a b _ => (FpTy ty).minmax md.ftz false a b) a b 0 else (intMin sgn w a b, 0)
  | 2 => if tyFloat ty then perElem ty (fun a b _ => (FpTy ty).minmax md.ftz true a b) a b 0 else (intMax sgn w a b, 0)
  | 3 => (a &&& b, 0)
  | 4 => (a ||| b, 0)
  | _ => (a ^^^ b, 0)

/-- Combine values in order (R370): the first stands as it is, and flags come from the steps. -/
def combAll (md : RMode) (op : Nat) (ty : Ty) : List Nat → Nat × Nat
  | [] => (redIdentity op ty, 0)
  | a :: t => t.foldl (fun r b => let c := comb md op ty r.1 b; (c.1, r.2 ||| c.2)) (a, 0)

/-- Rounding of a reduction (R370): FMT's mode, no saturation; F64 does not flush. -/
def Ctx.redMode (x : Ctx) (ty : Ty) : RMode :=
  let m := modeOf x.p.fmt false 0
  { m with satn := false, ftz := m.ftz && decide (ty ≠ .f64) }

/-- VRED and VSCAN (R370, R371): the positions that a lane combines are those of `pick`. -/
def State.reduce (s : State) (f : VopF) (pick : Nat → Nat → Bool) : State :=
  s.issue ([Reg.v f.vd (tyRegs f.ty)] ++ opRegs f.ty f.a) (fun x =>
    let lane := fun i =>
      if x.act.getLsbD i then
        combAll (x.redMode f.ty) (f.mod / 4) f.ty
          (((x.tileAct i).filter (fun u => pick u (x.pos i))).map (fun u => x.val f.ty (x.tb i + u) f.a))
      else (0, 0)
    let flags := (List.range 32).foldl (fun a i => a ||| (lane i).2) (if x.emptyTile then 32 else 0)
    s.retireV x x.vopWord [(f.a, f.ty)] f.vd (packRegs (tyRegs f.ty) (fun i => (lane i).1)) flags)

/-- VRED (R370). -/
def execVred (f : VopF) (s : State) : Out := .next (s.reduce f (fun _ _ => true))
/-- VSCAN (R370): MOD[1] is EXCL. -/
def execVscan (f : VopF) (s : State) : Out :=
  .next (s.reduce f (fun u q => if bit f.mod 1 then decide (u < q) else decide (u ≤ q)))

/-- The order of keys of VCMPX (R372): a number that rises with the key. -/
def cmpxKey (ty : Ty) (k : Nat) : Int :=
  match ty with
  | .i32 => signed 32 k
  | .n32 => k
  | _ =>
    if 0x7F800000 < k % 2 ^ 31 then 2 ^ 32
    else if bit k 31 then -((k % 2 ^ 31 : Nat) : Int) - 1 else ((k % 2 ^ 31 : Nat) : Int)

/-- The number is a power of two. -/
def isPow2 (n : Nat) : Bool := (List.range 32).any (fun i => n = 2 ^ i)

/-- VCMPX (R372): MOD[4] is DESC. Pairs hold the key below the payload. -/
def execVcmpx (f : VopF) (s : State) : Out :=
  .next (s.laneOp f [(f.a, .b64), (f.b, .b32), (f.c, .b32)] 2 (fun x i =>
    let own := x.val .b64 i f.a
    let j := x.val32 i f.b
    let k := x.val32 i f.c
    if !isPow2 j || decide (x.tile ≤ j) || !isPow2 k || decide (k < 2 * j) || decide (x.tile < k) then (own, 0)
    else
      let p := x.pos i
      let q := p ^^^ j
      let m := x.tb i + q
      if !x.act.getLsbD m then (own, 0)
      else
        let up := (decide (p &&& k = 0)) != bit f.mod 4
        let other := x.val .b64 m f.a
        let a := cmpxKey f.ty (own % 2 ^ 32)
        let b := cmpxKey f.ty (other % 2 ^ 32)
        let take := if decide (p < q) = up then decide (b < a) else decide (a < b)
        (if take then other else own, 0)))

/-- VCOMPACT (R373). -/
def execVcompact (f : VopF) (s : State) : Out :=
  .next (s.laneOp f [(f.a, f.ty), (f.b, .b32), (f.c, f.ty)] (tyRegs f.ty) (fun x i =>
    let l := (x.tileAct i).filter (fun p => decide (x.val32 (x.tb i + p) f.b ≠ 0))
    (match l[x.pos i]? with
      | some p => x.val f.ty (x.tb i + p) f.a
      | none => x.val f.ty i f.c, 0)))

end Sys2Proof.Machine
end

