-- ==== Sys2Proof/Machine/Convert.lean ====
section
/-! DEFINITION. Conversions (R189 to R199, R412 to R416): between plain formats, stochastic rounding, I4, and the block formats.
The matrix unit and the mangles read their elements by the same decoding. -/

namespace Sys2Proof.Machine

/-- Formats that flush (R187). -/
def flushes (c : Nat) : Bool := c ≤ 2
/-- A floating format code of R185. -/
def isFloatCode (c : Nat) : Bool := c ≤ 5
/-- A signed integer format of VCV: I8, I4, I16, I32, I64. -/
def intSigned (c : Nat) : Bool := [10, 12, 14, 16, 18].contains c

/-- Decode a code of a floating format, flushed as FTZ says (R187). -/
def decodeFloat (c : Nat) (ftz : Bool) (x : Nat) : FVal := (ffmtOfCode c).decode (ftz && flushes c) x

/-- The power of two of the last place of a value in a format (R199); `unb` is the unbounded exponent range. -/
def lastPlace (f : FFmt) (unb : Bool) (m : Nat) (e : Int) : Int :=
  let q0 := e + bitLen m - 1 - f.fb
  let qmin : Int := 1 - (f.bias : Int) - f.fb
  if q0 < qmin && !unb then qmin else q0

/-- m × 2^e in units of 2^q, dropping what lies below. -/
def inUnits (m : Nat) (e q : Int) : Nat := if q ≤ e then m * 2 ^ (e - q).toNat else m / 2 ^ (q - e).toNat

/-- d of R199. -/
def srTail (f : FFmt) (unb : Bool) (v : FVal) : Nat :=
  match v with
  | .fin _ m e => if m = 0 then 0 else inUnits m e (lastPlace f unb m e - 16) % 2 ^ 16
  | _ => 0

/-- h of R199, from the tails of the two neighbours. -/
def srHash (before after : Nat) : Nat :=
  let r := (after * 2 ^ 7 + after / 2 ^ 9) % 2 ^ 16
  let h := (before ^^^ r) * 0xA5B3 % 2 ^ 16
  h ^^^ (h / 2 ^ 8)

/-- The rounded magnitude of R199 in units of its last place, and that place. -/
def srRound (f : FFmt) (unb : Bool) (m : Nat) (e : Int) (d h : Nat) : Nat × Int :=
  let q := lastPlace f unb m e
  let k := if e + 16 < q then 16 else (q - e).toNat
  let t := inUnits m e q
  (if 2 ^ k ≤ d / 2 ^ (16 - k) + h / 2 ^ (16 - k) then t + 1 else t, q)

/-- RoundSR (R199): code and flags, from the value and its neighbours' values. -/
def FFmt.roundSR (f : FFmt) (md : RMode) (v before after : FVal) : Nat × Nat :=
  match v with
  | .fin neg m e =>
    if m = 0 then (f.signBit neg, 0)
    else
      let go (unb : Bool) : Nat × Int :=
        srRound f unb m e (srTail f unb v) (srHash (srTail f unb before) (srTail f unb after))
      let (r, q) := go false
      let qmin : Int := 1 - (f.bias : Int) - f.fb
      let code := (q - qmin).toNat * 2 ^ f.fb + r
      let exact := decide (inUnits m e q = r) && (decide (q ≤ e) || decide (m % 2 ^ (q - e).toNat = 0))
      if f.maxCode < code then (f.overflow { md with rm := 0 } neg, fOF + fIX)
      else
        let (r0, q0) := go true
        let tiny := decide (q0 < qmin) && decide (r0 * 2 ^ f.fb < 2 ^ (f.fb + f.fb + (qmin - q0).toNat))
        if md.ftz && decide (code < 2 ^ f.fb) && decide (0 < code) then (f.signBit neg, fUF + fIX)
        else if md.ftz && tiny && code = 0 then (f.signBit neg, fUF + fIX)
        else (code + f.signBit neg, (if exact then 0 else fIX) + (if !exact && tiny then fUF else 0))
  | w => f.roundVal { md with rm := 0 } w

/-- How one element converts. -/
structure Conv where
  d : Nat
  s : Nat
  rm : Nat
  ftz : Bool
  satn : Bool
  sr : Bool
  deriving DecidableEq, Repr

/-- Between integers (R197). -/
def Conv.ints (c : Conv) (x : Nat) : Nat :=
  let ws := fmtBits c.s
  let wd := fmtBits c.d
  let v : Int := if intSigned c.s then signed ws x else (x % 2 ^ ws : Nat)
  let lo : Int := if intSigned c.d then -(2 ^ (wd - 1) : Nat) else 0
  let hi : Int := if intSigned c.d then (2 ^ (wd - 1) : Nat) - 1 else (2 ^ wd : Nat) - 1
  if wd < ws then wrap wd (if c.satn then clamp v lo hi else v)
  else if ws < wd then wrap wd v
  else if lo ≤ v ∧ v ≤ hi then wrap wd v
  else Config.sameWidth c.d c.s c.satn (x % 2 ^ ws) % 2 ^ wd

/-- Convert one element (R196, R197, R199): code and flags. `before` and `after` are the neighbours' elements. -/
def Conv.run (c : Conv) (x before after : Nat) : Nat × Nat :=
  if isFloatCode c.s then
    let v := decodeFloat c.s c.ftz x
    if isFloatCode c.d then
      let f := ffmtOfCode c.d
      let md : RMode := { rm := c.rm, ftz := c.ftz && flushes c.d, satn := c.satn }
      let (r, fl) := if c.sr && decide (f.fb < (ffmtOfCode c.s).fb) then
          f.roundSR md v (decodeFloat c.s c.ftz before) (decodeFloat c.s c.ftz after)
        else f.roundVal md v
      (r, fl ||| nanFlags [v])
    else v.convInt c.rm (fmtBits c.d) (intSigned c.d)
  else if isFloatCode c.d then
    let ws := fmtBits c.s
    let v : Int := if intSigned c.s then signed ws x else (x % 2 ^ ws : Nat)
    (ffmtOfCode c.d).roundVal { rm := c.rm, ftz := c.ftz && flushes c.d, satn := c.satn } (FVal.ofInt v)
  else (c.ints x, 0)

/-- The type under which a source operand of a format is read. -/
def fmtTy (c : Nat) : Ty :=
  match c with
  | 0 => .f32 | 3 => .f64 | 16 => .i32 | 17 => .n32 | 18 => .i64 | 19 => .n64
  | _ => .b32

/-- The magnitude format of a block format (R191, R192): 6 SXF4, 7 DXF4, 8 DXF6, 9 DXF8. -/
def blockMag (c : Nat) : FFmt :=
  match c with
  | 6 => { eb := 2, fb := 1, bias := 1, maxCode := 7, hasInf := false, nan := 0 }
  | 7 => { eb := 1, fb := 1, bias := 1, maxCode := 3, hasInf := false, nan := 0 }
  | 8 => { eb := 2, fb := 2, bias := 1, maxCode := 15, hasInf := false, nan := 0 }
  | _ => { eb := 3, fb := 3, bias := 3, maxCode := 63, hasInf := false, nan := 0 }

/-- emax of R198. -/
def blockEmax (c : Nat) : Int := match c with | 6 => 2 | 9 => 4 | 8 => 2 | _ => 0
/-- D of R198. -/
def blockD (c : Nat) : Int := match c with | 9 => 7 | 8 => 3 | _ => 1

/-- A magnitude code as a value, with sign, times 2^(X − 127). -/
def magVal (c : Nat) (neg : Bool) (mag x : Nat) : FVal :=
  let f := blockMag c
  let ex := mag / 2 ^ f.fb
  let fr := mag % 2 ^ f.fb
  let e0 : Int := (x : Int) - 127 - f.bias - f.fb
  if ex = 0 then .fin neg fr (e0 + 1) else .fin neg (2 ^ f.fb + fr) (e0 + ex)

/-- What an element of a block decodes to (R193 to R195); an ESC takes its entry of a side list. -/
inductive BlockElem where
  | val (v : FVal)
  | esc
  deriving DecidableEq, Repr

/-- The code is ESC (R191, R192). -/
def isEsc (c code : Nat) : Bool := code % 2 ^ fmtBits c = (match c with | 6 => 8 | 7 => 4 | 8 => 0x10 | _ => 0x40)

/-- Decode an element of a block format (R191 to R195). -/
def blockDecode (c code x0 x1 : Nat) : BlockElem :=
  let f := blockMag c
  let w := f.eb + f.fb
  let nan := decide (x0 = 255) || (decide (c ≠ 6) && decide (x1 = 255))
  if nan then .val (.nan false)
  else if isEsc c code then .esc
  else
    let mag := code % 2 ^ w
    let neg := bit code w
    let sel := decide (c ≠ 6) && bit code (w + 1)
    if sel && neg && mag = 0 then .val (.fin false 0 0)
    else .val (magVal c neg mag (if sel then x1 else x0))

/-- A value divided by 2^(X − 127). -/
def scaled (v : FVal) (x : Nat) : FVal :=
  match v with
  | .fin n m e => .fin n m (e + 127 - x)
  | w => w

/-- The magnitude of a value. -/
def FVal.abs (v : FVal) : FVal :=
  match v with
  | .fin _ m e => .fin false m e
  | .inf _ => .inf false
  | w => w

/-- Element encoding of R198 by an ordinary rounding: the code with its sign, and flags. -/
def blockRound (c rm : Nat) (v : FVal) (x : Nat) : Nat × Nat :=
  (blockMag c).roundVal { rm := rm, ftz := false, satn := true } (scaled v x)

/-- How far the encoding of a value under a scale lies from it. -/
def blockMiss (c : Nat) (v : FVal) (x : Nat) : FVal :=
  let f := blockMag c
  let code := (blockRound c 0 v x).1
  ((magVal c (bit code (f.eb + f.fb)) (code % 2 ^ (f.eb + f.fb)) x).add 0 v.negate).1.abs

/-- Scales of a block (R198): X0 and X1 for the values of its elements. -/
def blockScales (c : Nat) (vs : List FVal) : Nat × Nat :=
  let tops := vs.filterMap (fun v => match v with
    | .fin _ m e => if m = 0 then none else some (e + bitLen m - 1)
    | _ => none)
  let x0 : Nat := match tops with
    | [] => 127
    | t :: ts => (clamp (ts.foldl (fun a b => if a < b then b else a) t - blockEmax c + 127) 0 254).toNat
  (x0, if c = 6 then 0 else (clamp ((x0 : Int) - blockD c) 0 254).toNat)

/-- The selector of an element (R198). -/
def blockSel (c : Nat) (v : FVal) (x0 x1 : Nat) : Bool :=
  decide (c ≠ 6) && decide ((blockMiss c v x1).cmp (blockMiss c v x0) = .lt)

/-- Encode element i of a block of 32 values (R198): its code and flags, and the two scale bytes. `near` gives an element's
neighbours where rounding is stochastic (R199). -/
def blockEncode (c rm : Nat) (sr : Bool) (vs : List FVal) (near : Nat → Nat × Nat) (i : Nat) : Nat × Nat × Nat × Nat :=
  let v := vs.getD i (.fin false 0 0)
  if vs.any (fun v => v.isNan || v.isInf) then (0, nanFlags [v], 255, if c = 6 then 0 else 255)
  else
    let (x0, x1) := blockScales c vs
    let at_ (j : Nat) : Bool × FVal :=
      let u := vs.getD j (.fin false 0 0)
      let sel := blockSel c u x0 x1
      (sel, scaled u (if sel then x1 else x0))
    let (sel, w) := at_ i
    let f := blockMag c
    let (code, fl) :=
      if sr then f.roundSR { rm := 0, ftz := false, satn := true } w (at_ (near i).1).2 (at_ (near i).2).2
      else f.roundVal { rm := rm, ftz := false, satn := true } w
    let full := code + (if sel then 2 ^ (f.eb + f.fb + 1) else 0)
    (if code % 2 ^ (f.eb + f.fb) = 0 then 0 else full, fl, x0, x1)

/-- Rounding mode of a VCV instruction (R412). -/
def Ctx.vcvConv (x : Ctx) (f : VcvF) (sr : Bool) : Conv :=
  let m := modeOf x.p.fmt f.rmo f.rm
  { d := f.dfmt, s := f.sfmt, rm := m.rm, ftz := m.ftz, satn := f.sat || m.satn, sr := sr }

/-- The lanes whose values are the neighbours of a lane's (R199). -/
def Ctx.near (x : Ctx) (i : Nat) : Nat × Nat :=
  (x.tb i + (x.pos i + x.tile - 1) % x.tile, x.tb i + (x.pos i + 1) % x.tile)

/-- Element e of the sources of a lane (R413): Va's elements, then Vb's. -/
def Ctx.elem (x : Ctx) (f : VcvF) (lane e : Nat) : Nat :=
  let ns := fmtCount f.sfmt
  let w := fmtBits f.sfmt
  let o := if e < ns then f.a else f.b
  x.val (fmtTy f.sfmt) lane o / 2 ^ (w * (e % ns)) % 2 ^ w

/-- The word of a VCV instruction without VD. -/
def Ctx.vcvWord (x : Ctx) : Nat := x.wordSans 43 36

/-- The registers of a VCV instruction. One that rounds by the neighbours of an element, or that encodes a block, reads its sources in
lanes of other paths too (R199, R357, R416). -/
def vcvRegs (f : VcvF) (srcs : List Src) (n : Nat) (wide : Bool) : List Reg :=
  [Reg.v f.vd n] ++ srcRegs srcs ++ (if wide then srcsAcross srcs else [])

/-- Issue a VCV instruction: BADREG, then ILLFMT where the pair of formats is not accepted (R412), then its lanes. -/
def State.vcvOp (s : State) (f : VcvF) (p : VcvSpec) (srcs : List Src) (n : Nat) (wide : Bool) (lane : Ctx → Nat → Nat × Nat) : State :=
  s.issue (vcvRegs f srcs n wide) (fun x =>
    if !p.pairOk f.dfmt f.sfmt then s.trapAt x.a 7 0 0
    else
      let r := (List.range 32).map (fun i => if x.act.getLsbD i then lane x i else (0, 0))
      let flags := r.foldl (fun a v => a ||| v.2) 0
      s.retireV x x.vcvWord srcs f.vd (packRegs n (fun i => (r.getD i (0, 0)).1)) flags)

/-- The plain form (R413). -/
def State.convert (s : State) (f : VcvF) (p : VcvSpec) (sr : Ctx → Bool) : State :=
  let t := fmtTy f.sfmt
  let nd := fmtCount f.dfmt
  let ns := fmtCount f.sfmt
  let wd := fmtBits f.dfmt
  let srcs : List Src := if f.ps * nd + nd ≤ ns then [(f.a, t)] else [(f.a, t), (f.b, t)]
  s.vcvOp f p srcs (if wd = 64 then 2 else 1) ((s.ctx?.map sr).getD false) (fun x i =>
    let c := x.vcvConv f (sr x)
    (List.range nd).foldl (fun acc j =>
      let e := f.ps * nd + j
      if e < 2 * ns then
        let (code, fl) := c.run (x.elem f i e) (x.elem f (x.near i).1 e) (x.elem f (x.near i).2 e)
        (acc.1 + code * 2 ^ (wd * j), acc.2 ||| fl)
      else acc) (0, 0))

/-- VCVT (R414). -/
def execVcvt (f : VcvF) (s : State) : Out := .next (s.convert f .vcvt (fun x => x.p.fmt.getLsbD 4))
/-- VCVTS (R415). -/
def execVcvts (f : VcvF) (s : State) : Out := .next (s.convert f .vcvts (fun _ => true))

/-- VPACK (R416). -/
def execVpack (f : VcvF) (s : State) : Out :=
  .next (
    if f.dfmt = 12 then s.convert f .vpack (fun _ => false)
    else s.vcvOp f .vpack [(f.a, .f32)] (if isBlock f.dfmt then 2 else 1) true (fun x i =>
      let m := x.vcvConv f (x.p.fmt.getLsbD 4)
      let vs := (List.range 32).map (fun j => decodeFloat 0 m.ftz (x.val .f32 j f.a))
      let (code, fl, x0, x1) := blockEncode f.dfmt m.rm m.sr vs x.near i
      (code + (x0 + x1 * 2 ^ 8) * 2 ^ 32, fl)))

/-- VUNPACK (R416). -/
def execVunpack (f : VcvF) (s : State) : Out :=
  .next (
    if f.sfmt = 12 then s.convert f .vunpack (fun _ => false)
    else s.vcvOp f .vunpack [(f.a, if isBlock f.sfmt then .b64 else .b32)] 1 false (fun x i =>
      let m := x.vcvConv f false
      let v := x.val .b64 i f.a
      let val := match blockDecode f.sfmt v (bits v 39 32) (bits v 47 40) with
        | .val v => v
        | .esc => .nan false
      fF32.roundVal { rm := m.rm, ftz := m.ftz, satn := m.satn } val))

end Sys2Proof.Machine
end

