-- ==== Sys2Proof/Machine/MemOps.lean ====
section
/-! DEFINITION. Issuing memory accesses (R216, R217, R375 to R385): their lane accesses and checks, translation of their parts
(R282, R284, R285), miss-status entries (R159), and the access instructions. -/

namespace Sys2Proof.Machine

/-- Bytes of one lane's access (R376): TY 15 is B128. -/
def memWidth (ty : Ty) : Nat :=
  match ty with
  | .i8 => 1 | .n8 => 1 | .b8 => 1
  | .i16 => 2 | .n16 => 2 | .b16 => 2
  | .b64 => 8
  | .f64 => 16
  | _ => 4

/-- The address that an access of a lane names (R322). -/
def Ctx.laneAddr (x : Ctx) (sb vx : Nat) (xv : Bool) (off : Int) (lane : Nat) : Nat :=
  wrap 57 (((x.g.spair sb).toNat : Int) + (if xv then signed 32 (laneOf (x.g.vreg vx) lane).toNat else 0) + off)
/-- The scratchpad offset of a lane (R322, R382). -/
def Ctx.laneOff (x : Ctx) (sb vx : Nat) (xv : Bool) (off : Int) (lane : Nat) : Nat :=
  wrap 32 (((x.g.sreg sb).toNat : Int) + (if xv then ((laneOf (x.g.vreg vx) lane).toNat : Int) else 0) + off)

/-- n V registers from r in a lane, the lowest register low. -/
def Ctx.vData (x : Ctx) (r n lane : Nat) : Nat :=
  (List.range n).foldr (fun k acc => (laneOf (x.g.vreg (r + k)) lane).toNat + 2 ^ 32 * acc) 0
/-- One S register or a pair. -/
def Ctx.sData (x : Ctx) (r n : Nat) : Nat := if n = 2 then (x.g.spair r).toNat else (x.g.sreg r).toNat

/-- The parts of a load or store (R158): one for each sector. -/
def sectorParts (accs : List LaneAcc) : List Part :=
  (dedup (accs.map (fun a => a.addr / 64))).map (fun sec =>
    { lanes := accs.filter (fun a => a.addr / 64 = sec), st := .walk, xl := none })
/-- One part for each lane: atomics (R384), and scratchpad accesses (R222). -/
def laneParts (st : PartSt) (accs : List LaneAcc) : List Part := accs.map (fun a => { lanes := [a], st := st, xl := none })

/-- A fault on a read that the path's next instruction makes: it waits parked (R285). -/
def State.parkIssue (s : State) (a : Site) (kind acc asid va : Nat) : State :=
  (s.parkFault (whoLane a) a.core kind acc asid va).onPath a (fun p => { p with fetchParked := true, stall := some 14 })

/-- What an access is to its translation. -/
def OpKind.acc (k : OpKind) : Acc := match k with
  | .load => .load
  | .store => .store
  | _ => .atomic
/-- The ACC code of a fault record (R286). -/
def OpKind.accCode (k : OpKind) : Nat := match k with
  | .load => 0
  | .store => 1
  | _ => 2

/-- The part needs a miss-status entry (R158): its sector, or the private line it lies in (R118), is not in the core's SRAM. -/
def Part.misses (p : Part) (k : Core) (slot : Nat) (t : Team) : Bool :=
  match p.xl with
  | some x => (p.st = .ready || p.st = .rejected) &&
      (if (t.phaseAt p.addr).isSome then (k.l1.find? (privKey slot (x.pa / 256))).isNone else (k.l1Sec (x.pa / 64)).isNone)
  | none => false

/-- The operation takes miss-status entries. -/
def Op.coalesced (o : Op) : Bool := o.space = .global && (o.kind = .load || o.kind = .store)

/-- An operation has obtained its entries (R159): its parts have all been translated, and it is not to try again. -/
def Op.entered (o : Op) : Bool := o.parts.all (fun p => decide (p.st ≠ .walk) && decide (p.st ≠ .parked) && decide (p.st ≠ .rejected))

/-- Entries of the shared pool that the core's other operations hold (R159). An entry is given back when its part has been served
or has gone to another device or a window (log 127). -/
def heldEntries (k : Core) (slot g op : Nat) : Nat :=
  k.slots.foldl (fun n t => t.2.groups.foldl (fun n x => x.2.ops.foldl (fun n o =>
    if (t.1 = slot && x.1 = g && o.1 = op) || !o.2.coalesced || !o.2.entered || (k.quarter x.2.quarter).reserved.contains (t.1, x.1, o.1) then n
    else n + (o.2.parts.filter (fun p => p.st = .ready && p.misses k t.1 t.2)).length) n) n) 0

/-- Reserved turns whose operation still waits or is served. -/
def State.turns (s : State) (c q : Nat) : List (Nat × Nat × Nat) :=
  ((s.core c).quarter q).reserved.filter (fun e =>
    match (s.group? c e.1 e.2.1).bind (fun x => x.ops.find? e.2.2) with
    | some o => o.parts.any (fun p => p.st = .ready || p.st = .rejected)
    | none => false)

/-- An operation whose parts have all been translated takes its entries whole, or is rejected whole (R159). -/
def State.missStatus (s : State) (c slot g op : Nat) : State :=
  match s.team? c slot, s.group? c slot g with
  | some t, some grp =>
    match grp.ops.find? op with
    | none => s
    | some o =>
      if !o.coalesced || o.parts.any (fun p => p.st = .walk || p.st = .parked) then s
      else
        let k := s.core c
        let need := (o.parts.filter (fun p => p.misses k slot t)).length
        let go (s : State) : State := s.onOp c slot g op (fun o =>
          { o with parts := mapIf (fun p => p.st = .rejected) (fun p => { p with st := .ready }) o.parts })
        let reject (s : State) : State := s.onOp c slot g op (fun o =>
          { o with rejects := o.rejects + 1, parts := mapIf (fun p => p.st = .ready) (fun p => { p with st := .rejected }) o.parts })
        if need = 0 then go s
        else if o.rejects < 16 then
          if heldEntries k slot g op + need ≤ 256 then go s
          else
            let s := reject s
            if o.rejects + 1 = 16 then
              let ts := s.turns c grp.quarter
              s.onQuarter c grp.quarter (fun q => { q with reserved := ts ++ [(slot, g, op)] })
            else s
        else
          let ts := s.turns c grp.quarter
          let s := s.onQuarter c grp.quarter (fun q => { q with reserved := ts })
          if ts.head? = some (slot, g, op) then go s else reject s
  | _, _ => s

/-- Translate a part that is still to be translated (R282, R284, R285). A fault is presented, but once for the lanes of an atomic
that lie in one sector: they are one access (R437). -/
def State.walkPart (s : State) (c slot g op : Nat) (t : Team) (n : Nat) : State :=
  match (s.group? c slot g).bind (fun x => x.ops.find? op) with
  | none => s
  | some o =>
    match o.parts[n]? with
    | none => s
    | some p =>
      if p.st ≠ .walk then s
      else
        let va := p.addr
        let w := whoLane { core := c, slot := slot, group := g, path := o.path }
        match s.xlate w c t.asid va o.kind.acc t.sup true with
        | (.fault kind, s) =>
          let first := !o.parts.any (fun q => q.st = .parked && decide (q.addr / 64 = va / 64))
          let s := if first then s.parkFault w c kind o.kind.accCode t.asid va else s
          let s := if o.parts.any (fun q => q.st = .parked) then s
            else { s.onOp c slot g op (fun o => { o with parkedAt := s.ageCtr }) with ageCtr := s.ageCtr + 1 }
          s.onPart c slot g op n (fun p => { p with st := .parked })
        | (.ok x, s) =>
          let s := s.onPart c slot g op n (fun p => { p with st := .ready, xl := some x })
          if o.kind.isWrite then s.killFolds c (x.pa / 64) else s

/-- Translate a part. Where it faults, the faults of the instruction are presented together, in ascending order of their lowest
lanes (R437), so every part of it is translated then. Without `walk` a part is translated only where a TLB of the core or die
holds the page. -/
def State.translatePart (s : State) (c slot g op n : Nat) (walk : Bool) : State :=
  match s.team? c slot, (s.group? c slot g).bind (fun x => x.ops.find? op) with
  | some t, some o =>
    match o.parts[n]? with
    | none => s
    | some p =>
      let va := p.addr
      let hit := (tlbHit (s.core c).tlb t.asid va).isSome || (tlbHit (s.die (dieOf c)).tlb t.asid va).isSome
      if p.st ≠ .walk || o.space ≠ .global || frozenAt s t.asid va || (!walk && !hit) then s
      else
        let w := whoLane { core := c, slot := slot, group := g, path := o.path }
        match (s.xlate w c t.asid va o.kind.acc t.sup true).1 with
        | .ok _ => (s.walkPart c slot g op t n).missStatus c slot g op
        | .fault _ =>
          if o.parts.any (fun q => q.st = .walk && frozenAt s t.asid q.addr) then s
          else (List.range o.parts.length).foldl (fun s i => s.walkPart c slot g op t i) s
  | _, _ => s

/-- A store or atomic of a core removes the fold entries that have read its sectors as it issues (R175). -/
def State.killStored (s : State) (x : Ctx) (parts : List Part) : State :=
  parts.foldl (fun s p => match vaToPa s x.t.asid p.addr with
    | some pa => s.killFolds x.a.core (pa / 64)
    | none => s) s

/-- An operation enters the tables of its lanes (R216, R217), and the path goes on with the lookahead it allows (R323). -/
def State.enterOp (s : State) (x : Ctx) (o : Op) (la : Nat) : State :=
  let id := x.g.nextOp
  let now := decide (o.kind = .store)
  let o : Op := { o with closes := !now && decide (x.p.words.length ≤ 1) }
  let s := s.onG x (fun g => { g with ops := g.ops.set id o, nextOp := id + 1 })
  let s := if o.kind.isWrite && decide (o.space = .global) then s.killStored x o.parts else s
  let s := s.stepPast x.a now
  let s := s.onPath x.a (fun p => if p.words.isEmpty then p else { p with la := p.la ++ [(id, la)] })
  let s := if now then s.changed x.a else s
  (List.range o.parts.length).foldl (fun s n => s.translatePart x.a.core x.a.slot x.a.group id n false) s

/-- An operation with its fields at rest. -/
def Op.start (x : Ctx) (kind : OpKind) (space : OpSpace) (count : Nat) (dst : Dst) (parts : List Part) : Op :=
  { kind := kind, space := space, count := count, path := x.a.path, lanes := x.act, pc := x.p.pc, scope := 0, ord := 0,
    ofr := false, dst := dst, parts := parts, rejects := 0, fold := none, spoiled := false, touched := [], waits := [], closes := false, parkedAt := 0 }

/-- An instruction that a unit completes later enters the tables (R314, R336): its group holds it until its n registers from Sd are
written, when the work ends. -/
def Op.pending (x : Ctx) (count sd n w : Nat) : Op :=
  { Op.start x .mangle .global count (.s sd .b32) [{ lanes := [{ LaneAcc.zero with width := 4 * n }], st := .acked, xl := none }] with waits := [w] }

/-- It enters its group's table. -/
def State.enterPending (s : State) (x : Ctx) (count sd n w : Nat) : State :=
  s.onG x (fun g => { g with ops := g.ops.set g.nextOp (Op.pending x count sd n w), nextOp := g.nextOp + 1 })

/-- The instruction of a path whose result a work stands for, in the tables of its group. -/
def State.pendingOf (s : State) (a : Site) (w : Nat) : Option (Nat × Op) :=
  (s.group? a.core a.slot a.group).bind (fun g => List.find? (fun (o : Nat × Op) => o.2.kind = .mangle && o.2.waits = [w]) g.ops)

/-- It leaves the tables. -/
def State.dropPending (s : State) (a : Site) (w : Nat) : State :=
  match s.pendingOf a w with
  | some (id, _) => s.dropOp a.core a.slot a.group id
  | none => s

/-- The result of an instruction that a unit has completed is written to its register (R336, R417). -/
def State.resultTo (s : State) (a : Site) (w v : Nat) : State :=
  match s.pendingOf a w with
  | some (id, o) =>
    match o.dst with
    | .s sd _ => ((s.onGroup a.core a.slot a.group (fun g => g.setS sd (BitVec.ofNat 32 v))).changed a).dropOp a.core a.slot a.group id
    | _ => s
  | none => s

/-- The lowest lane whose address is not a multiple of its width (R377). -/
def misaligned (accs : List LaneAcc) : Option LaneAcc := accs.find? (fun a => a.addr % a.width ≠ 0)

/-- A synchronising access of a lane at CLU scope or wider lies in a phase region of the team (R118). -/
def Ctx.phaseClash (x : Ctx) (sync : Bool) (scope : Nat) (accs : List LaneAcc) : Option LaneAcc :=
  if sync && decide (3 ≤ scope) then accs.find? (fun a => (x.t.phaseAt a.addr).isSome) else none

/-- Issue a global access (R377 to R385) of the active lanes. An access wider than TEAM scope in a phase region performs
nothing and raises the scope trap (R118). -/
def State.globalOp (s : State) (x : Ctx) (o : Op) (accs : List LaneAcc) (la : Nat) : State :=
  let atomic := match o.kind with | .atomic _ _ => true | _ => false
  if x.act = 0 then s.advance x.a
  else
    match misaligned accs with
    | some l => s.trapAt x.a 0x0B 0 l.addr
    | none =>
      match x.phaseClash (atomic || decide (o.ord ≠ 0)) o.scope accs with
      | some l =>
        (s.advance x.a).takeTrap x.a { cause := 0x10, detail := 0, addr := l.addr, pc := x.p.pc + 8, inst := some x.p.pc, debug := 0 }
      | none => s.enterOp x o la

/-- The lane accesses of the active lanes. -/
def Ctx.accs (x : Ctx) (width : Nat) (addr : Nat → Nat) (data data2 : Nat → Nat) : List LaneAcc :=
  (laneList x.act).map (fun i =>
    { lane := i, addr := addr i, width := width, data := data i % 2 ^ (8 * width), data2 := data2 i % 2 ^ (8 * width), got := 0 })

/-- Registers of a MEM instruction: the data registers, the base and the index. -/
def memRegs (f : MemF) (pair : Bool) : List Reg :=
  [Reg.v f.vr (regsOf (memWidth f.ty)), Reg.s f.sb (if pair then 2 else 1)] ++ (if f.xv then [Reg.v f.vx 1] else [])

/-- The lane accesses of LD, LDR and ST. -/
def Ctx.memAccs (x : Ctx) (f : MemF) (store : Bool) : List LaneAcc :=
  let w := memWidth f.ty
  x.accs w (x.laneAddr f.sb f.vx f.xv (signed 13 f.off)) (fun i => if store then x.vData f.vr (regsOf w) i else 0) (fun _ => 0)

/-- The operation of LD and LDR. -/
def Ctx.loadOp (x : Ctx) (f : MemF) : Op :=
  { Op.start x .load .global 0 (.v f.vr f.ty) (sectorParts (x.memAccs f false)) with scope := f.scope, ord := f.ord }

/-- LD (R379). -/
def execLd (f : MemF) (s : State) : Out :=
  .next (s.issue (memRegs f true) (fun x => s.globalOp x (x.loadOp f) (x.memAccs f false) f.la))

/-- The fold key of an LDR (R172): its word without VR and LA. -/
def Ctx.ldrKey (x : Ctx) (f : MemF) : FoldKey :=
  let w := x.wordSans 43 36
  x.foldKey (w - w % 16) ([(.s f.sb, .b64)] ++ (if f.xv then [(.v f.vx, .b32)] else [])) f.vr (regsOf (memWidth f.ty))

/-- An LDR may look up and enter a fold entry (R175, R380): its destination is one V register or a pair (R171). -/
def Ctx.ldrFolds (x : Ctx) (f : MemF) : Bool :=
  f.ord = 0 && !x.p.hdr.nofold && decide (regsOf (memWidth f.ty) ≤ 2) && (x.memAccs f false).all (fun a => (x.t.phaseAt a.addr).isNone)

/-- The place that an LD would take in R218 is free for a fold hit (R229): no earlier access holds it, and no byte stands in
the lanes' store buffers. -/
def Ctx.hitAllowed (x : Ctx) (s : State) (o : Op) : Bool :=
  let id := x.g.nextOp
  let ready : Op := { o with parts := o.parts.map (fun (p : Part) => { p with st := .ready }) }
  let g : Group := { x.g with ops := x.g.ops.set id ready }
  (List.range o.parts.length).all (fun n => g.allows (s.physAt x.t.asid) id n) && o.parts.all (fun p => !s.ownAny x.t x.g id o p)

/-- The entry that an LDR hits (R173, R229): no lane has read one of its sectors ahead of the core (R219). -/
def Ctx.ldrHit (x : Ctx) (s : State) (o : Op) (key : FoldKey) : Option (FoldEntry × Quarter) :=
  if !x.hitAllowed s o then none
  else match ((s.core x.a.core).quarter x.g.quarter).lookup key with
    | none => none
    | some (e, q) =>
      if e.secs.any (fun sec => s.ahead x.t.asid x.a.core x.a.slot x.a.group sec x.g x.g.nextOp x.act) then none else some (e, q)

/-- LDR (R380, R173 to R175). -/
def execLdr (f : MemF) (s : State) : Out :=
  .next (s.issue (memRegs f true) (fun x =>
    let accs := x.memAccs f false
    let o := x.loadOp f
    if x.act ≠ 0 ∧ x.ldrFolds f ∧ (misaligned accs).isNone then
      let key := x.ldrKey f
      match x.ldrHit s o key with
      | some (e, q) =>
        let s := e.secs.foldl (fun s sec => s.attach x.a.core x.a.slot x.a.group sec x.act) s
        let s := s.onQuarter x.a.core x.g.quarter (fun _ => q.count 4)
        let s := s.foldNames x.a.core x.a.slot x.a.group f.vr e
        s.advance x.a
      | none =>
        let s := s.onQuarter x.a.core x.g.quarter (fun q => q.count 5)
        s.globalOp x { o with fold := some key } accs f.la
    else s.globalOp x o accs f.la))

/-- ST (R381). -/
def execSt (f : MemF) (s : State) : Out :=
  .next (s.issue (memRegs f true) (fun x =>
    let accs := x.memAccs f true
    s.globalOp x { Op.start x .store .global 4 .none (sectorParts accs) with scope := f.scope, ord := f.ord, ofr := f.ofr } accs f.la))

/-- The scratchpad that LDS and STS reach (R382): core and slot, or none where the rank names no team. -/
def Ctx.pad (x : Ctx) (s : State) (f : MemF) : Option (Nat × Nat) :=
  if !f.ofr then some (x.a.core, x.a.slot)
  else
    let r := (x.g.sreg (f.sb + 1)).toNat
    if r = x.t.rank then some (x.a.core, x.a.slot)
    else if x.grid.cw * x.grid.ch ≤ r then none else clusterPeer s x.t.grid x.t.cluster r

/-- A scratchpad access (R153, R377, R382). -/
def State.scratchOp (s : State) (x : Ctx) (f : MemF) (store : Bool) : State :=
  if x.act = 0 then s.advance x.a
  else
    let w := memWidth f.ty
    let accs := x.accs w (x.laneOff f.sb f.vx f.xv (signed 13 f.off)) (fun i => if store then x.vData f.vr (regsOf w) i else 0) (fun _ => 0)
    let out (l : LaneAcc) : Bool := match x.pad s f with
      | some (c, sl) => match s.team? c sl with
        | some t => decide (t.scratchSize < l.addr + l.width)
        | none => true
      | none => true
    match misaligned accs, accs.find? out with
    | some l, _ => s.trapAt x.a 0x0B 0 l.addr
    | none, some l => s.trapAt x.a 0x0C 0 l.addr
    | none, none =>
      let (c, sl) := (x.pad s f).getD (x.a.core, x.a.slot)
      s.enterOp x (Op.start x (if store then .store else .load) (.scratch c sl) 0 (if store then .none else .v f.vr f.ty)
        (laneParts .ready accs)) f.la

/-- LDS (R382). -/
def execLds (f : MemF) (s : State) : Out := .next (s.issue (memRegs f f.ofr) (fun x => s.scratchOp x f false))
/-- STS (R382). -/
def execSts (f : MemF) (s : State) : Out := .next (s.issue (memRegs f f.ofr) (fun x => s.scratchOp x f true))

/-- Lane accesses of a uniform instruction: the same one for each active lane (R383, R385). -/
def Ctx.uniAccs (x : Ctx) (width addr data data2 : Nat) : List LaneAcc :=
  x.accs width (fun _ => addr) (fun _ => data) (fun _ => data2)

/-- The address of SLD and SST. -/
def Ctx.smemAddr (x : Ctx) (f : SmemF) : Nat := wrap 57 (((x.g.spair f.sb).toNat : Int) + signed 20 f.off)

/-- SLD (R383). -/
def execSld (f : SmemF) (s : State) : Out :=
  .next (s.issue [.s f.sd (regsOf (memWidth f.ty)), .s f.sb 2] (fun x =>
    let accs := x.uniAccs (memWidth f.ty) (x.smemAddr f) 0 0
    s.globalOp x { Op.start x .load .global 1 (.s f.sd f.ty) (sectorParts accs) with scope := f.scope, ord := f.ord } accs f.la))
/-- SST (R383). -/
def execSst (f : SmemF) (s : State) : Out :=
  .next (s.issue [.s f.sd (regsOf (memWidth f.ty)), .s f.sb 2] (fun x =>
    let accs := x.uniAccs (memWidth f.ty) (x.smemAddr f) (x.sData f.sd (regsOf (memWidth f.ty))) 0
    s.globalOp x { Op.start x .store .global 4 .none (sectorParts accs) with scope := f.scope, ord := f.ord, ofr := f.ofr } accs f.la))

/-- Registers of an atomic's operand (R384): for a CAS, compare and new value. -/
def casRegs (aop n r : Nat) (mk : Nat → Nat → Reg) : List Reg :=
  if aop = 7 then (if n = 2 then [mk r 4] else [mk r 1, mk (r + 1) 1]) else [mk r n]

/-- ATOM (R384). -/
def execAtom (f : MemaF) (s : State) : Out :=
  let n := tyRegs f.ty
  .next (s.issue ([Reg.v f.vd n, Reg.s f.sb 2] ++ (if f.xv then [Reg.v f.vx 1] else []) ++ casRegs f.aop n f.va Reg.v) (fun x =>
    let accs := x.accs (4 * n) (x.laneAddr f.sb f.vx f.xv 0) (x.vData f.va n) (x.vData (f.va + n) n)
    s.globalOp x { Op.start x (.atomic f.aop f.ty) .global 0 (.v f.vd f.ty) (laneParts .walk accs) with scope := f.scope, ord := f.ord } accs f.la))

/-- ATOMS (R385): one atomic for the group. -/
def execAtoms (f : SatmF) (s : State) : Out :=
  let n := tyRegs f.ty
  .next (s.issue ([Reg.s f.sd n, Reg.s f.sb 2] ++ casRegs f.aop n f.sa Reg.s) (fun x =>
    let accs := x.uniAccs (4 * n) (x.pairVA f.sb) (x.sData f.sa n) (x.sData (f.sa + n) n)
    s.globalOp x { Op.start x (.atomic f.aop f.ty) .global 1 (.s f.sd f.ty) [{ lanes := accs, st := .walk, xl := none }] with
      scope := f.scope, ord := f.ord } accs f.la))

/-- What a token covers of an operation no longer holds it (R220): the parts of the covered lanes have returned or been
acknowledged; remote stores and atomics count only where the token says so. -/
def Group.covered (g : Group) (e : Cover) : Bool :=
  match g.ops.find? e.op with
  | none => true
  | some o => o.parts.all (fun p =>
      decide (p.laneSet &&& e.lanes = 0) || o.completed p || (!e.remote && o.kind.isWrite && p.remote))

/-- A token is free or satisfied (R386). -/
def State.tokenDone (s : State) (g : Group) (n : Nat) : Bool :=
  match g.token n with
  | .free => true
  | .filled ops works => ops.all g.covered && works.all s.workDone
  | .tasks w => s.workDone w

/-- FENCE (R220, R386): M3 is the scope, N2 the kind. -/
def execFence (f : EngF) (s : State) : Out :=
  .next (s.issue [] (fun x =>
    if x.act = 0 then (s.onG x (fun g => g.fill f.fn [] [])).advance x.a
    else
      let covers (k : OpKind) : Bool := k.isAccess && ((f.n2 ≠ 1 && k.isRead) || (f.n2 ≠ 0 && k.isWrite))
      let ops := (x.g.ops.filter (fun o => covers o.2.kind && decide (o.2.lanes &&& x.act ≠ 0))).map
        (fun o => ({ op := o.1, remote := decide (5 ≤ f.m3), lanes := x.act } : Cover))
      let unpins := decide (3 ≤ f.m3) && decide (f.n2 ≠ 0)
      let (k, s) := s.newWork (if unpins then 1 else 0)
      let s := if unpins then (s.unpinTeam x.a.core x.a.slot k).endWork k else s
      (s.onG x (fun g => g.fill f.fn ops [k])).advance x.a))

/-- WAITF (R220, R386). -/
def execWaitf (f : EngF) (s : State) : Out :=
  .next (s.issue [] (fun x => if s.tokenDone x.g f.fn then s.advance x.a else s.stallOn x.a 8))

/-- Every page of a range translates (R387): the first address that faults, with its kind. -/
def State.rangeFault (s : State) (a : Site) (asid : Nat) (sup : Bool) : Nat → Nat → Option (Nat × Nat) × State
  | 0, _ => (none, s)
  | n + 1, va =>
    match s.xlate (whoLane a) a.core asid va .store sup false with
    | (.fault kind, s) => (some (kind, va), s)
    | (.ok x, s) =>
      if (windowAt s x.pa).isSome then (some (3, va), s) else State.rangeFault s a asid sup n (va + 4096)

/-- PHASE (R117, R387). It waits for a placement move of one of its pages to end: a page of a phase region does not move (R29,
R31). -/
def execPhase (f : EngF) (s : State) : Out :=
  .next (s.issue [.s f.sd 1, .s f.sa 2, .s f.sb 1] (fun x =>
    if x.act = 0 then s.advance x.a
    else
      let base := x.pairVA f.sa
      let size := (x.s f.sb).toNat
      let answer (s : State) (v : Nat) : State := ((s.onG x (fun g => g.setS f.sd (BitVec.ofNat 32 v))).changed x.a).advance x.a
      let used := (s.core x.a.core).slots.foldl (fun n t => t.2.phases.foldl (fun n p => n + p.size) n) 0
      if base % 256 ≠ 0 ∨ size % 256 ≠ 0 ∨ size < 256 then answer s 4
      else if 8 ≤ x.t.phases.length then answer s 1
      else if x.t.phases.any (fun p => decide (base < p.base + p.size) && decide (p.base < base + size)) then answer s 2
      else if 0x1000000 < used + size then answer s 3
      else if onMove s x.t.asid base size then s.stallOn x.a 1
      else
        match s.rangeFault x.a x.t.asid x.t.sup (ceilDiv (base % 4096 + size) 4096) (base / 4096 * 4096) with
        | (some (kind, va), s) => s.parkIssue x.a kind 1 x.t.asid va
        | (none, s) =>
          answer (s.onTeam x.a.core x.a.slot (fun t =>
            { t with phases := t.phases ++ [{ base := base, size := size, bytes := [], written := [], pois := [] }] })) 0))

/-- PUBLISH (R119, R388). -/
def execPublish (f : EngF) (s : State) : Out :=
  .next (s.issue [.s f.sa 2] (fun x =>
    let base := x.pairVA f.sa
    let idle (s : State) : State := (s.onG x (fun g => g.fill f.fn [] [])).advance x.a
    if x.act = 0 then idle s
    else
      match x.t.phases.find? (fun p => p.base = base) with
      | none => idle s
      | some p =>
        let s := (s.onTeam x.a.core x.a.slot (fun t => { t with phases := t.phases.filter (fun q => q.base ≠ base) })).changed x.a
        -- Its private lines leave the core's SRAM.
        let held := (p.bytes.filter (fun b => b.1 % 256 = 0)).filterMap (fun b => (vaToPa s x.t.asid b.1).map (fun pa => pa / 256))
        let s := s.dropPrivate x.a.core x.a.slot held.contains
        let lines : Tab (Tab Byte) := p.written.foldl (fun m va =>
          let l := va / 256
          m.set l ((m.getD l []).set va (p.bytes.getD va 0))) []
        if lines.isEmpty then idle s
        else
          let (k, s) := s.newWork lines.length
          let pub : Pub := { core := x.a.core, slot := x.a.slot, group := x.a.group, asid := x.t.asid, sup := x.t.sup, lines := lines, pois := p.pois, work := k, parked := false }
          let s := { s with pubs := s.pubs.set s.nextPub pub, nextPub := s.nextPub + 1 }
          (s.onG x (fun g => g.fill f.fn [] [k])).advance x.a))

end Sys2Proof.Machine
end

