-- ==== Sys2Proof/Machine/MemEvents.lean ====
section
/-! DEFINITION. The steps of the ordering machine and of the slices that no instruction word names (R18, R19, R104 to R119,
R159, R217, R284). A step whose precondition does not hold leaves the state as it is (log 2). -/

namespace Sys2Proof.Machine

/-- The slice of a lane's access has room for its line (R1, R102; log 85): an access to memory that is neither in a phase region
nor in a window waits for a line to leave. -/
def State.hasRoom (s : State) (c slot g op n : Nat) : Bool :=
  match s.team? c slot, ((s.group? c slot g).bind (fun x => x.ops.find? op)).bind (fun o => o.parts[n]?) with
  | some t, some p =>
    match p.xl with
    | some x => !stored x.pa || (t.phaseAt p.addr).isSome || (windowAt s x.pa).isSome || s.roomFor (x.pa / 64)
    | none => true
  | _, _ => true

/-- PERFORM_STORE (R105, R217). -/
def execPerformStore (core slot group op sec : Nat) (s : State) : Out :=
  .next ((if s.hasRoom core slot group op sec then s.store core slot group op sec else s).endHalts)
/-- SERVE_LOAD (R108, R217). -/
def execServeLoad (core slot group op sec : Nat) (s : State) : Out :=
  .next (if s.hasRoom core slot group op sec then s.serve core slot group op sec else s)
/-- PERFORM_ATOMIC (R109, R225). -/
def execPerformAtomic (core slot group op sec : Nat) (s : State) : Out :=
  .next ((if s.hasRoom core slot group op sec then s.atomic core slot group op sec else s).endHalts)
/-- DELIVER (R106). -/
def execDeliver (slice core : Nat) (s : State) : Out := .next (s.deliverMsg slice core)
/-- ACKNOWLEDGE (R105). -/
def execAcknowledge (ack : Nat) (s : State) : Out := .next (s.acknowledge ack).endHalts
/-- RESULT_RETIRE (R167, R282). -/
def execResultRetire (core slot group op : Nat) (s : State) : Out := .next (s.retireOp core slot group op).endHalts
/-- PAGE_WALK (R284, R285). -/
def execPageWalk (core slot group op sec : Nat) (s : State) : Out := .next (s.translatePart core slot group op sec true).endHalts

/-- MSHR_RETRY (R159). -/
def execMshrRetry (core slot group op : Nat) (s : State) : Out :=
  match (s.group? core slot group).bind (fun g => g.ops.find? op) with
  | some o => .next (if o.parts.any (fun p => p.st = .rejected) then s.missStatus core slot group op else s)
  | none => .next s

/-- The sector lies in memory that slices hold. -/
def cacheable (sec : Nat) : Bool := region (64 * sec) = .hbm || region (64 * sec) = .tier

/-- SLICE_FILL (R19, R102). -/
def execSliceFill (sector : Nat) (s : State) : Out :=
  .next (if cacheable sector then s.fillSector (whoSlice (s.home (64 * sector))) sector else s)

/-- CE_WRITEBACK (R19): the corrected word is written back. -/
def execCeWriteback (word : Nat) (s : State) : Out :=
  .next (if s.mem.fixes.contains word then
      { s with mem := { s.mem with fixes := s.mem.fixes.filter (fun p => p ≠ word), errors := s.mem.errors.erase word } }
    else s)

/-- CXL_RESPONSE (R18): the response of a fill of a tier sector; a poisoned word is recorded. -/
def execCxlResponse (word : Nat) (poisoned : Bool) (s : State) : Out :=
  let sec := word / 2
  .next (if region (32 * word) ≠ .tier ∨ (s.sector sec).st ≠ .inv then s
    else
      let s := if poisoned && !s.mem.poison.contains word then { s with mem := { s.mem with errors := s.mem.errors.set word 2 } } else s
      s.fillSector (whoSlice (s.home (64 * sec))) sec)

/-- SLICE_EVICT (R104, R114, R116): the sharers are invalidated; once all have answered the sector is written back and freed. A
replaced entry of the table leaves its sector spread until the whole line is gone. -/
def execSliceEvict (sector : Nat) (s : State) : Out :=
  let x := s.sector sector
  let home := s.home (64 * sector)
  .next (
    if x.st = .inv ∨ x.pin.isSome ∨ x.evicting then s
    else if !x.reach.isEmpty then
      let (n, s) := s.newAck x.reach.length (.evict sector)
      let s := x.reach.foldl (fun s c => s.send home c { sec := sector, body := .inval, ack := some n }) s
      s.onSector sector (fun x => { x with evicting := true })
    else
      -- A write-back gives its words fresh check bits (R22).
      let s := if x.st = .dirty then
        { s with mem := { s.mem with errors := (s.mem.errors.erase (2 * sector)).erase (2 * sector + 1),
                                     fixes := s.mem.fixes.filter (fun w => w / 2 ≠ sector) } } else s
      let s := { s with sectors := s.sectors.erase sector }
      let gone := (List.range 4).all (fun i => decide ((s.sector (sector / 4 * 4 + i)).st = .inv))
      s.onSlice home (fun k => { k with sync := k.sync.filter (fun e => e.sec ≠ sector),
                                        spread := if gone then k.spread.filter (fun q => q / 4 ≠ sector / 4) else k.spread }))

/-- DROP_NOTICE (R104): a core drops a sector that it does not hold pinned. -/
def execDropNotice (core sector : Nat) (s : State) : Out :=
  .next (match (s.core core).l1Sec sector with
    | some x => if x.pinned then s else s.dropSector core sector
    | none => s)

/-- PIN_AGE_RECALL (R112): the recall writes the sector back, and the group that last synchronised takes SCOPEAGE. -/
def execPinAgeRecall (sector : Nat) (s : State) : Out :=
  .next (match (s.sector sector).pin with
    | some (core, _, at_, last) =>
      if 8192 < (s.core core).clock - at_ then
        let s := s.unpin sector 0
        match last with
        | some (slot, g) => s.trapLater core slot g { cause := 0x0F, detail := 0, addr := 64 * sector, pc := 0, inst := none, debug := 0 }
        | none => s
      else s
    | none => s)

/-- A published line has performed, or comes to nothing (R119). -/
def State.pubDone (s : State) (pub line : Nat) : State :=
  match s.pubs.find? pub with
  | none => s
  | some p =>
    { s with pubs := s.pubs.set pub { p with lines := p.lines.erase line } }

/-- A published line performs (R119): the written bytes as one store, and the sharers are invalidated. It is no store of a lane: WRITER
stays as it is, and no push is sent (log 128). A sector that the team's own core has pinned is unpinned first (log 129). -/
def State.publishLine (s : State) (pub line : Nat) : State :=
  match s.pubs.find? pub with
    | none => s
    | some p =>
      match p.lines.find? line with
      | none => s
      | some bs =>
        let w := whoLane { core := p.core, slot := p.slot, group := p.group, path := 0 }
        let va := 256 * line
        if p.parked || frozenAt s p.asid va then s
        else
          match s.xlate w p.core p.asid va .store p.sup false with
          | (.fault kind, s) =>
            let s := s.parkFault w p.core kind 1 p.asid va
            { s with pubs := s.pubs.set pub { p with parked := true } }
          | (.ok x, s) =>
            if region x.pa = .remote ∧ pathsTo s (bits x.pa 49 40) ≠ [] then
              -- The line's home is the owner's slice (R101): the written bytes go there.
              let r : Remote := { what := 1, device := bits x.pa 49 40, offset := x.pa % 2 ^ 40, key := x.key, aop := 0, ty := .b32, acc := LaneAcc.zero,
                                  bytes := bs.map (fun b => (x.pa % 2 ^ 40 / 256 * 256 + b.1 % 256, b.2)),
                                  pois := (p.pois.filter (fun q => q / 8 = line)).map (fun q => x.pa % 2 ^ 40 / 256 * 8 + q % 8),
                                  path := 0, seq := 0, port := 0, origin := w, answer := .work p.work (some p.asid), ofr := false, grp := (p.core, p.slot, p.group),
                                  performed := false }
              match sendRemote s r with
              | .sent s => s.pubDone pub line
              | _ => s
            else if !stored x.pa then ((s.log23 w 6 x.pa).pubDone pub line).endPart p.work
            else
              match s.keys.find? x.key with
              | none => ((s.log23 w 5 x.pa).pubDone pub line).endPart p.work
              | some key =>
                let secs := dedup (bs.map (fun (b : Nat × Byte) => (x.pa / 256 * 256 + b.1 % 256) / 64))
                let away := secs.any (fun sec => match (s.sector sec).pin with
                  | some (c, _, _, _) => decide (c ≠ p.core)
                  | none => false)
                if away then s
                else
                  let s := secs.foldl (fun s sec =>
                    let s := s.unpin sec 0
                    let mine := bs.filter (fun (b : Nat × Byte) => (x.pa / 256 * 256 + b.1 % 256) / 64 = sec)
                    let at_ := fun (b : Nat × Byte) => (x.pa / 256 * 256 + b.1 % 256, b.2)
                    let s := s.mergeStore w key ((mine.filter (fun b => !p.pois.contains (b.1 / 32))).map at_) false
                    let s := (s.mergeStore w key ((mine.filter (fun b => p.pois.contains (b.1 / 32))).map at_) true).fillBut w sec
                      (dedup (mine.map (fun b => (at_ b).1 / 32)))
                    s.onSector sec (fun x => { x with st := if x.st = .inv then .inv else .dirty })) s
                  let s := s.wrote (x.pa / 256)
                  let targets := secs.flatMap (fun sec => (s.sector sec).reach.map (fun c => (sec, c)))
                  let (n, s) := s.newAck targets.length (.work p.work (some p.asid))
                  let s := targets.foldl (fun s t => s.send (s.home (64 * t.1)) t.2 { sec := t.1, body := .inval, ack := some n }) s
                  s.pubDone pub line

/-- PUBLISH_LINE (R119). -/
def execPublishLine (pub line : Nat) (s : State) : Out := .next (s.publishLine pub line).endHalts

end Sys2Proof.Machine
end

