-- ==== Sys2Proof/Machine/Sync.lean ====
section
/-! DEFINITION. Barrier instructions and YIELDW (R139 to R144, R392 to R396), SRAM blocks and FIFOs (R148 to R157, R397,
R398). -/

namespace Sys2Proof.Machine

/-- What checking the object of a barrier instruction comes to (R377, R392). -/
inductive ObjOut where
  | trap (cause addr : Nat)
  | ok (core slot off : Nat)
  deriving DecidableEq, Repr

/-- Check an object: 16-byte alignment, the rank of a .C form, then bounds. -/
def Ctx.objAt (x : Ctx) (s : State) (off : Nat) (rank : Option Nat) : ObjOut :=
  if off % 16 ≠ 0 then .trap 0x0B off
  else
    let place := match rank with
      | none => some (x.a.core, x.a.slot)
      | some r => if r = x.t.rank then some (x.a.core, x.a.slot) else clusterPeer s x.t.grid x.t.cluster r
    if (match rank with | some r => decide (x.grid.cw * x.grid.ch ≤ r) | none => false) then .trap 0x0D off
    else
      match place with
      | none => .trap 0x0C off
      | some (c, sl) => if inAlloc s c sl off 16 then .ok c sl off else .trap 0x0C off

/-- The rank of a BAR word's .C form. -/
def barRank (f : BarF) : Option Nat := if f.rmt then some f.rank else none

/-- A barrier instruction on an object that passes its checks. -/
def State.onObject (s : State) (x : Ctx) (off : Nat) (rank : Option Nat) (act : Nat → Nat → Nat → State) : State :=
  match x.objAt s off rank with
  | .trap c a => s.trapAt x.a c 0 a
  | .ok c sl off => act c sl off

/-- BARINIT (R140, R393). -/
def execBarinit (f : BarF) (s : State) : Out :=
  .next (s.issue [.s f.sa 1] (fun x =>
    if x.act = 0 then s.advance x.a
    else s.onObject x (x.s f.sa).toNat none (fun c sl off => ((s.barInit c sl off f.n).changed x.a).advance x.a)))
/-- BARINV (R140, R393). -/
def execBarinv (f : BarF) (s : State) : Out :=
  .next (s.issue [.s f.sa 1] (fun x =>
    if x.act = 0 then s.advance x.a
    else s.onObject x (x.s f.sa).toNat none (fun c sl off => ((s.barInv c sl off).changed x.a).advance x.a)))

/-- The path's next issue waits for a work. Its clause is no longer one of which nothing has issued (R291). -/
def State.awaitWork (s : State) (a : Site) (w : Nat) (reason : Option Nat) : State :=
  s.onPath a (fun p => { p with wait := .work w, stall := reason, fresh := false })

/-- Every earlier access of the active lanes has returned or been acknowledged, remote stores and atomics apart (R218, R220,
R221). -/
def Ctx.settled (x : Ctx) : Bool :=
  x.g.ops.all (fun o => !o.2.kind.isAccess || decide (o.2.lanes &&& x.act = 0) || x.g.covered { op := o.1, remote := false, lanes := x.act })

/-- BARARR (R140, R221, R394): a release at TEAM scope, or at CLU scope for .C. While it waits for what it releases it is charged
reason 5 (log 130). -/
def execBararr (f : BarF) (s : State) : Out :=
  .next (s.issue [.s f.sd 1, .s f.sa 1] (fun x =>
    if x.act = 0 then s.advance x.a
    else s.onObject x (x.s f.sa).toNat (barRank f) (fun c sl off =>
      if f.n = 0 then s.trapAt x.a 0x0D 0 off
      else if !x.settled then s.stallOn x.a 5
      else if f.rmt && !(pinsOf s x.a.core x.a.slot).isEmpty then
        let (k, s) := s.newWork 1
        ((s.unpinTeam x.a.core x.a.slot k).endWork k).awaitWork x.a k (some 5)
      else
        match s.barArr c sl off f.n with
        | (some gen, s) => ((s.onG x (fun g => g.setS f.sd (BitVec.ofNat 32 gen))).changed x.a).advance x.a
        | (none, s) => s.trapAt x.a 0x0D 0 off)))

/-- A path comes to wait on a phase of an object (R142, R144). -/
def State.waitPhase (s : State) (x : Ctx) (c sl off g reg : Nat) (cont : Option PcVal) (yield : Bool) : State :=
  let s := if yield then s.setObject c sl off (setBits (s.object c sl off) 6 6 1) else s
  let s := s.onCore c (fun k =>
    { k with waiters := k.waiters ++ [{ site := x.a, slot := sl, off := off, gen := g, reg := reg, yield := yield }] })
  s.onPath x.a (fun p => { p with wait := .barrier c sl off g reg cont, stall := some (if yield then 11 else 5) })

/-- BARWAIT (R142, R395). -/
def execBarwait (f : BarF) (s : State) : Out :=
  .next (s.issue [.s f.sa 1, .s f.sg 1] (fun x =>
    s.onObject x (x.s f.sa).toNat (barRank f) (fun c sl off =>
      let g := bits (x.s f.sg).toNat 3 0
      if bits (s.object c sl off) 3 0 ≠ g then s.advance x.a
      else s.waitPhase x c sl off g f.sg none false)))

/-- YIELDW (R144, R396): CC 0 names an object, CC 1 a token. A path that is not the whole group waits as a BARWAIT or WAITF
does. -/
def execYieldw (f : BrF) (s : State) : Out :=
  .next (s.issue (if f.cc = 0 then [.s f.sc 2] else []) (fun x =>
    let cont := x.target f.off
    if f.cc = 0 then
      s.onObject x (x.s f.sc).toNat none (fun c sl off =>
        let g := bits (x.s (f.sc + 1)).toNat 3 0
        if bits (s.object c sl off) 3 0 ≠ g ∨ (x.whole ∧ bits (s.object c sl off) 4 4 = 0) then s.goto x.a cont
        else s.waitPhase x c sl off g (f.sc + 1) (some cont) x.whole)
    else if s.tokenDone x.g (f.kn % 8) then s.goto x.a cont
    else s.onPath x.a (fun p => { p with wait := .token (f.kn % 8) cont, stall := some (if x.whole then 11 else 8) })))

/-- Start to take a block out of CACHE mode (R151). -/
def Core.startSwitch (k : Core) (b : Nat) (toFifo : Bool) (asker : Option (Site × Nat)) : Core :=
  { k with blocks := k.blocks.set b .switching,
           switching := k.switching.set b { toFifo := toFifo, released := false, waits := [], asker := asker } }

/-- SRAMCFG.FIFO (R155, R397). Until Sd is written, no path of the group reads or writes it (R336). -/
def execSramcfgFifo (f : EngF) (s : State) : Out :=
  .next (s.issue [.s f.sd 1] (fun x =>
    if x.act = 0 then s.advance x.a
    else
      let k := s.core x.a.core
      match k.cacheBlocks.reverse with
      | [] => (s.onG x (fun g => g.setS f.sd 0x80000000)).advance x.a
      | b :: _ =>
        if k.cacheBlocks.length ≤ k.cacheMin then (s.onG x (fun g => g.setS f.sd 0x80000000)).advance x.a
        else
          let (w, s) := s.newWork 1
          ((s.enterPending x 5 f.sd 1 w).onCore x.a.core (fun k => k.startSwitch b true (some (x.a, w)))).awaitWork x.a w (some 1)))

/-- The work that a path waits for. -/
def State.waitedWork (s : State) (a : Site) : Option Nat :=
  match (s.group? a.core a.slot a.group).bind (fun g => g.paths.find? a.path) with
  | some p => match p.wait with
    | .work w => some w
    | _ => none
  | none => none

/-- The lines of a block (R151). -/
def Core.blockLines (k : Core) (b : Nat) : List (Nat × L1Line) := k.l1.filter (fun l => l.2.way = b)

/-- Step 2 of R151: every line of the block is released, unpinned, dropped or spilled. -/
def State.releaseBlock (s : State) (core b : Nat) : State :=
  let (k, s) := s.newWork 1
  let lines := (s.core core).blockLines b
  let pinned := lines.flatMap (fun l => (l.2.secs.filter (fun (p : Nat × L1Sec) => p.2.pinned)).map (fun p => 4 * l.1 + p.1))
  let s := pinned.foldl (fun s sec => (s.addWork k).unpin sec k) s
  let s := lines.foldl (fun s l => s.dropLine core l.1) s
  (s.endWork k).onCore core (fun c =>
    match c.switching.find? b with
    | some w => { c with switching := c.switching.set b { w with released := true, waits := k :: w.waits } }
    | none => c)

/-- BLOCK_SWITCH_DONE (R151): the lines of the block are released; once their write-backs have been acknowledged the block
takes its new mode. A FIFO block waits for the blocks above it, which are FIFO blocks first, and has no queue where the path
that asked for it is gone (R148, R155; log 94). -/
def execBlockSwitchDone (core block : Nat) (s : State) : Out :=
  .next (match (s.core core).switching.find? block with
    | none => s
    | some w =>
      if !w.released then s.releaseBlock core block
      else if !w.waits.all s.workDone then s
      else if w.toFifo && (s.core core).switching.any (fun v => decide (block < v.1)) then s
      else
        let s := s.onCore core (fun k =>
          { k with switching := k.switching.erase block, blocks := k.blocks.set block (if w.toFifo then .fifo else .scratch) })
        if !w.toFifo then s.onCore core (fun k => if k.shrinkDue then k.shrink else k)
        else
          let s := match w.asker with
            | some (a, v) =>
              if s.waitedWork a = some v then
                let s := s.onCore core (fun k => { k with fifos := k.fifos.set block { owner := a.slot, entries := [], waiting := [] } })
                ((s.resultTo a v block).endWork v).advance a
              else s.dropPending a v
            | none => s
          s.onCore core Core.fifoShrink)

/-- The FIFO block that a register names for a team (R398). -/
def Ctx.fifo (x : Ctx) (s : State) (sa : Nat) : Option (Nat × Fifo) :=
  let b := (x.s sa).toNat
  let k := s.core x.a.core
  match k.fifos.find? b with
  | some q => if b < 16 ∧ k.block b = .fifo ∧ q.owner = x.a.slot then some (b, q) else none
  | none => none

/-- SRAMCFG.FREE (R157, R397). -/
def execSramcfgFree (f : EngF) (s : State) : Out :=
  .next (s.issue [.s f.sa 1] (fun x =>
    if x.act = 0 then s.advance x.a
    else
      match x.fifo s f.sa with
      | none => s.trapAt x.a 0x0A 0 0
      | some (b, q) =>
        let s := s.onCore x.a.core (fun k => { k with fifos := k.fifos.erase b }.fifoShrink)
        let s := (s.changed x.a).advance x.a
        q.waiting.foldl (fun s w =>
          let a := w.site
          let s := s.onGroup a.core a.slot a.group (fun g => { g with ops := g.ops.erase w.op })
          (s.onPath a (fun p => { p with wait := .none, stall := none })).trapAt a 0x0A 0 0) s))

/-- A QPUT or QGET reaches the FIFO unit (R156, R398): it waits behind earlier ones of its kind, and where it cannot be
applied. -/
def State.fifoOp (s : State) (x : Ctx) (f : EngF) (get : Bool) : State :=
  match x.fifo s f.sa with
  | none => s.trapAt x.a 0x0A 0 0
  | some (b, q) =>
    let n := if f.m3 = 1 then 2 else 1
    let vals := if get then []
      else (List.range n).map (fun k => mergeLanes x.act (x.g.vreg (f.x8 + k)) 0)
    let id := x.g.nextOp
    let w : FifoWait := { site := x.a, op := id, get := get, wide := decide (f.m3 = 1), vals := vals, reg := f.x8 }
    if q.can w && !q.waiting.any (fun v => v.get = get) then (s.fifoApply x.a.core b w).fifoServe x.a.core b 64
    else
      let o : Op := Op.start x (if get then .fifoGet else .fifoPut) .global 1 .none []
      let s := s.onG x (fun g => { g with ops := g.ops.set id o, nextOp := id + 1 })
      let s := s.onCore x.a.core (fun k => { k with fifos := k.fifos.set b { q with waiting := q.waiting ++ [w] } })
      s.onPath x.a (fun p => { p with wait := .fifo id, stall := some 1 })

/-- QPUT (R156, R398). -/
def execQput (f : EngF) (s : State) : Out :=
  .next (s.issue [.v f.x8 (if f.m3 = 1 then 2 else 1), .s f.sa 1] (fun x => s.fifoOp x f false))
/-- QGET (R156, R398). -/
def execQget (f : EngF) (s : State) : Out :=
  .next (s.issue [.v f.x8 (if f.m3 = 1 then 2 else 1), .s f.sa 1] (fun x => s.fifoOp x f true))

end Sys2Proof.Machine
end

