-- ==== Sys2Proof/Machine/Record.lean ====
section
/-! DEFINITION. Record mode: the REC instructions and their broadcast to the slices (R120, R121, R126, R399, R400). -/

namespace Sys2Proof.Machine

/-- State of a range (R120): 0 IDLE, 1 RECORDING, 2 RECORDED, 3 REPLAYING. -/
def State.rangeState (s : State) (key : Nat) : Nat := ((s.ranges.find? key).map (fun r => r.state)).getD 0

/-- The state that a REC instruction leads to (R120): 0 BEGIN, 1 END, 2 REPLAY, 3 FORGET; none where it has no effect. -/
def recNext (op st : Nat) : Option Nat :=
  match op with
  | 0 => some 1
  | 1 => if st = 1 ∨ st = 3 then some 2 else none
  | 2 => if st = 1 ∨ st = 2 then some 3 else none
  | _ => if st = 0 then none else some 0

/-- A broadcast of this ASID and id is under way (R399). -/
def State.recBusy (s : State) (asid id : Nat) : Option Nat :=
  s.bcasts.foldr (fun b acc => match b.2.what with
    | .school _ r a _ _ _ _ _ => if a = asid ∧ r = id then some b.2.work else acc
    | _ => acc) none

/-- Base and size of every range of an ASID that is live, or that a REC.BEGIN under way makes live, but for one id. -/
def State.liveRanges (s : State) (asid but : Nat) : List (Nat × Nat) :=
  let held := (s.ranges.filter (fun r => r.1 / 64 = asid && decide (r.2.state ≠ 0) && decide (r.1 % 64 ≠ but))).map (fun r => (r.2.base, r.2.size))
  let coming := s.bcasts.filterMap (fun b => match b.2.what with
    | .school 0 r a base size _ _ _ => if a = asid ∧ r ≠ but then some (base, size) else none
    | _ => none)
  held ++ coming

/-- Live ranges of the device, with those that a REC.BEGIN under way makes live. -/
def State.liveCount (s : State) : Nat :=
  (s.ranges.filter (fun r => r.2.state ≠ 0)).length +
    (s.bcasts.filter (fun b => match b.2.what with
      | .school 0 r a _ _ _ _ _ => decide (s.rangeState (a * 64 + r) = 0)
      | _ => false)).length

/-- Sd of a REC instruction (R399). -/
def recStatus (code st : Nat) : W32 := BitVec.ofNat 32 (code * 256 + st)

/-- Broadcast a REC instruction to every slice (R120). Until its n registers from Sd are written, no path of the group reads or
writes them (R336; log 123). -/
def State.recCast (s : State) (x : Ctx) (op id base size sd n : Nat) : State :=
  let (w, s) := s.newWork 1
  let s := s.enterPending x 5 sd n w
  let b : Bcast := { what := .school op id x.t.asid base size sd x.a (List.replicate 7 0), work := w, left := List.range 192, waits := [] }
  ({ s with bcasts := s.bcasts.set s.nextBcast b, nextBcast := s.nextBcast + 1 }).awaitWork x.a w none

/-- A REC instruction (R399): waits for its turn, is tested, and is broadcast. -/
def State.recOp (s : State) (op : Nat) (f : EngF) : State :=
  s.issue ([.s f.sd 1] ++ (if op = 0 then [Reg.s f.sa 2, .s f.sb 1] else [])) (fun x =>
    if x.act = 0 then s.advance x.a
    else
      match s.recBusy x.t.asid f.x8 with
      | some w => s.awaitWork x.a w none
      | none =>
        let key := x.t.asid * 64 + f.x8
        let st := s.rangeState key
        let answer (code : Nat) : State := (s.onG x (fun g => g.setS f.sd (recStatus code st))).advance x.a
        let base := x.pairVA f.sa
        let size := (x.s f.sb).toNat
        if op = 0 then
          if base % 256 ≠ 0 ∨ size % 256 ≠ 0 ∨ size = 0 then answer 4
          else if (s.liveRanges x.t.asid f.x8).any (fun r => decide (base < r.1 + r.2) && decide (r.1 < base + size)) then answer 2
          else if 1024 ≤ s.liveCount ∧ st = 0 then answer 3
          else s.recCast x 0 f.x8 base size f.sd 1
        else
          match recNext op st with
          | none => answer 1
          | some _ => s.recCast x op f.x8 0 0 f.sd 1)

/-- REC.BEGIN (R399). -/
def execRecBegin (f : EngF) (s : State) : Out := .next (s.recOp 0 f)
/-- REC.END (R399). -/
def execRecEnd (f : EngF) (s : State) : Out := .next (s.recOp 1 f)
/-- REC.REPLAY (R399). -/
def execRecReplay (f : EngF) (s : State) : Out := .next (s.recOp 2 f)
/-- REC.FORGET (R399). -/
def execRecForget (f : EngF) (s : State) : Out := .next (s.recOp 3 f)

/-- REC.STAT (R400): a broadcast that gathers the counters. -/
def execRecStat (f : EngF) (s : State) : Out :=
  .next (s.issue [.s f.sd 8] (fun x =>
    if x.act = 0 then s.advance x.a
    else
      match s.recBusy x.t.asid f.x8 with
      | some w => s.awaitWork x.a w none
      | none => s.recCast x 4 f.x8 0 0 f.sd 8))

/-- A count saturates (R126). -/
def satCount (n : Nat) : Nat := if 0xFFFFFFFF < n then 0xFFFFFFFF else n

/-- What a slice contributes to REC.STAT (R126): LIVE, RECORDED, OVERFLOW, PUSHED, HITS, DEPARTED, FALLBACK. -/
def Slice.stats (k : Slice) (key : Nat) : List Nat :=
  ((k.routes.filter (fun r => r.asid * 64 + r.range = key && !r.dep)).length) :: k.counters.getD key [0, 0, 0, 0, 0, 0]

/-- WRITER of the sectors of a range at a slice becomes none, through whatever mapping they were written (R121). -/
def State.clearWriters (s : State) (slice asid base size : Nat) : State :=
  { s with sectors := s.sectors.map (fun (p : Nat × Sector) =>
      if p.2.writer.isSome && decide (s.home (64 * p.1) = slice) && coversSec s asid base size p.1
      then (p.1, { p.2 with writer := none }) else p) }

/-- A slice applies a REC instruction (R120, R121). -/
def State.recApply (s : State) (slice op id asid base size : Nat) : State :=
  let key := asid * 64 + id
  let old := (s.ranges.find? key).getD { base := 0, size := 0, state := 0, bySlice := [] }
  let st := (recNext op old.state).getD old.state
  let here : Nat × Nat × Nat := if op = 0 then (st, base, size) else if op = 3 then (0, 0, 0) else (st, old.base, old.size)
  let s := { s with ranges := s.ranges.set key { old with bySlice := old.bySlice.set slice here } }
  if op = 0 then
    (s.clearWriters slice asid base size).onSlice slice (fun k =>
      { k with routes := k.routes.filter (fun r => r.asid * 64 + r.range ≠ key), counters := k.counters.erase key })
  else if op = 3 then s.onSlice slice (fun k => { k with routes := k.routes.filter (fun r => r.asid * 64 + r.range ≠ key) })
  else s

/-- Every slice has acted: the range takes its state, and Sd is written (R399, R400). -/
def State.recDone (s : State) (b : Bcast) (op id asid base size sd : Nat) (a : Site) (sum : List Nat) : State :=
  let key := asid * 64 + id
  let waits := decide (s.waitedWork a = some b.work)
  let s := s.endWork b.work
  if op = 4 then
    let words := s.rangeState key :: sum
    let s := if waits then s.onGroup a.core a.slot a.group (fun g =>
        words.zipIdx.foldl (fun g w => g.setS (sd + w.2) (BitVec.ofNat 32 w.1)) g) else s
    (if waits then s.advance a else s).dropPending a b.work
  else
    let old := (s.ranges.find? key).getD { base := 0, size := 0, state := 0, bySlice := [] }
    let st := (recNext op old.state).getD old.state
    let r : Range := if op = 0 then { base := base, size := size, state := st, bySlice := [] }
      else if op = 3 then { base := 0, size := 0, state := 0, bySlice := [] } else { old with state := st, bySlice := [] }
    let s := { s with ranges := s.ranges.set key r }
    (if waits then (s.onGroup a.core a.slot a.group (fun g => g.setS sd (recStatus 0 st))).advance a else s).dropPending a b.work

/-- REC_SLICE_APPLY (R120, R399): a slice applies a broadcast. -/
def execRecSliceApply (bc slice : Nat) (s : State) : Out :=
  .next (match s.bcasts.find? bc with
    | none => s
    | some b =>
      match b.what with
      | .school op id asid base size sd a sum =>
        if !b.left.contains slice then s
        else
          let left := b.left.filter (fun k => k ≠ slice)
          let sum := if op = 4 then List.zipWith (fun x y => satCount (x + y)) sum ((s.slice slice).stats (asid * 64 + id)) else sum
          let s := if op = 4 then s else s.recApply slice op id asid base size
          if left.isEmpty then ({ s with bcasts := s.bcasts.erase bc }).recDone b op id asid base size sd a sum
          else { s with bcasts := s.bcasts.set bc { b with what := .school op id asid base size sd a sum, left := left } }
      | _ => s)

/-- An ASID is torn down (R120): its entry of the ASID table is no live one, and no team or task of it is left. Its ranges are IDLE
again and their routes are freed (log 110). -/
def State.asidGone (s : State) (asid : Nat) : State :=
  let live := match asidEntry s asid with | .ok _ => true | .error _ => false
  let used := s.cores.any (fun k => k.2.slots.any (fun t => t.2.asid = asid)) || s.tasks.any (fun t => t.2.asid = asid) ||
    s.bcasts.any (fun b => match b.2.what with | .school _ _ a _ _ _ _ _ => a = asid | _ => false)
  if live || used then s
  else
    { s with ranges := s.ranges.filter (fun r => r.1 / 64 ≠ asid),
             slices := s.slices.map (fun (k : Nat × Slice) => (k.1, { k.2 with
               routes := k.2.routes.filter (fun r => r.asid ≠ asid), counters := k.2.counters.filter (fun c => c.1 / 64 ≠ asid) })) }

end Sys2Proof.Machine
end

