-- ==== Sys2Proof/Machine/CopyOps.lean ====
section
/-! DEFINITION. The copy instructions (R128 to R138, R145, R146, R389 to R392) and the steps of the copy engine. -/

namespace Sys2Proof.Machine

/-- Registers of a copy instruction: SA and SB of the given sizes, the size register and the object. -/
def cpyRegs (f : CpyF) (na nb : Nat) : List Reg :=
  (if na = 0 then [] else [Reg.s f.sa na]) ++ [Reg.s f.sb nb] ++ uniRegs .b32 f.sz ++ (if f.bv then [Reg.s f.so 1] else [])

/-- The size that SZ gives (R389). -/
def Ctx.cpySize (x : Ctx) (f : CpyF) : Nat :=
  match f.sz with
  | .imm i => 16 * (i % 512)
  | o => x.sval .b32 o

/-- The object that BV names. -/
def Ctx.cpyObj (x : Ctx) (f : CpyF) : Option Nat := if f.bv then some (x.s f.so).toNat else none

/-- The path goes on with the lookahead that a copy operation allows while it is in flight (R323). -/
def State.allowAhead (s : State) (a : Site) (id la : Nat) : State :=
  s.onPath a (fun p => if p.words.isEmpty then p else { p with laCopies := p.laCopies ++ [(id, la)] })

/-- Issue a copy for the issuing path (R128, R130). `done` follows an issue with the number of its work. -/
def State.copyOp (s : State) (x : Ctx) (f : CpyF) (kind : CopyKind) (src dst : Nat) (rank : Option Nat)
    (done : Nat → State → State) : State :=
  match issueCopy s x.a kind f.qn src dst rank (x.cpySize f) (x.cpyObj f) with
  | .illegal => s.trapAt x.a 0x09 0 0
  | .wait => (s.waitCopy x.a x.p.pc).stallOn x.a 3
  | .ok id w s => (((done w s).changed x.a).advance x.a).allowAhead x.a id f.la

/-- A copy instruction whose operands are as given. -/
def State.copyInstr (s : State) (f : CpyF) (na nb : Nat) (kind : CopyKind) (ends : Ctx → Nat × Nat × Option Nat) : State :=
  s.issue (cpyRegs f na nb) (fun x =>
    if x.act = 0 then s.advance x.a
    else
      let (src, dst, rank) := ends x
      s.copyOp x f kind src dst rank (fun _ s => s))

/-- CPY.GS (R389). -/
def execCpyGs (f : CpyF) (s : State) : Out :=
  .next (s.copyInstr f 1 2 .gs (fun x => (x.pairVA f.sb, (x.s f.sa).toNat, none)))
/-- CPY.SG (R389). -/
def execCpySg (f : CpyF) (s : State) : Out :=
  .next (s.copyInstr f 1 2 .sg (fun x => ((x.s f.sa).toNat, x.pairVA f.sb, none)))
/-- CPY.GG (R389). -/
def execCpyGg (f : CpyF) (s : State) : Out :=
  .next (s.copyInstr f 2 2 .gg (fun x => (x.pairVA f.sb, x.pairVA f.sa, none)))
/-- CPY.SR (R389). -/
def execCpySr (f : CpyF) (s : State) : Out :=
  .next (s.copyInstr f 1 2 .sr (fun x => ((x.s f.sa).toNat, (x.s f.sb).toNat, some (x.s (f.sb + 1)).toNat)))
/-- CPY.RS (R389). -/
def execCpyRs (f : CpyF) (s : State) : Out :=
  .next (s.copyInstr f 1 2 .rs (fun x => ((x.s f.sb).toNat, (x.s f.sa).toNat, some (x.s (f.sb + 1)).toNat)))

/-- The type code of R320 that a KIND of CPYR names (R390). -/
def cpyrTy (kind : Nat) : Nat := match kind with
  | 0 => 2 | 1 => 6 | 2 => 3 | 3 => 7 | 4 => 14 | 5 => 15 | 6 => 10 | _ => 11

/-- A CPYR (R135, R390): 0 ADD, 1 MIN, 2 MAX, 3 AND, 4 OR. -/
def State.cpyr (s : State) (op : Nat) (f : CpyF) : State :=
  s.copyInstr f 1 2 (.reduce op (cpyrTy f.kind)) (fun x => ((x.s f.sa).toNat, x.pairVA f.sb, none))
/-- CPYR.ADD (R390). -/
def execCpyrAdd (f : CpyF) (s : State) : Out := .next (s.cpyr 0 f)
/-- CPYR.MIN (R390). -/
def execCpyrMin (f : CpyF) (s : State) : Out := .next (s.cpyr 1 f)
/-- CPYR.MAX (R390). -/
def execCpyrMax (f : CpyF) (s : State) : Out := .next (s.cpyr 2 f)
/-- CPYR.AND (R390). -/
def execCpyrAnd (f : CpyF) (s : State) : Out := .next (s.cpyr 3 f)
/-- CPYR.OR (R390). -/
def execCpyrOr (f : CpyF) (s : State) : Out := .next (s.cpyr 4 f)

/-- PREF (R136, R391). -/
def execPref (f : CpyF) (s : State) : Out :=
  .next (s.issue (cpyRegs f 0 2) (fun x =>
    if x.act = 0 then (if f.bv then s else s.onG x (fun g => g.fill (f.sa % 8) [] [])).advance x.a
    else s.copyOp x f .pref (x.pairVA f.sb) 0 none (fun w s => if f.bv then s else s.onG x (fun g => g.fill (f.sa % 8) [] [w]))))

/-- CFENCE (R132, R392). -/
def execCfence (f : EngF) (s : State) : Out :=
  .next (s.issue [] (fun x =>
    if x.act = 0 then (s.onG x (fun g => g.fill f.fn [] [])).advance x.a
    else if f.x8 = 0 then s.trapAt x.a 0x09 0 0
    else
      if !s.mayCopy x.a then (s.waitCopy x.a x.p.pc).stallOn x.a 3
      else
        let (w, s) := s.newWork 1
        let o : CopyOp :=
          { kind := .cfence f.x8, q := 0, slot := x.a.slot, group := x.a.group, asid := x.t.asid, sup := x.t.sup, src := 0, dst := 0,
            peer := (x.a.core, x.a.slot), size := 0, tag := none, work := w, units := [], arrived := 0, counted := 0,
            parked := false, err := false, leave := 0, staleSent := false, stores := [] }
        let waiters := (copyWaiters s x.a.core).filter (fun e => e.1 ≠ x.a)
        let s := s.onCore x.a.core (fun k => { k with copyWait := waiters, copies := k.copies.set k.nextCopy o, nextCopy := k.nextCopy + 1 })
        let s := ((s.onG x (fun g => g.fill f.fn [] [w])).advance x.a).allowAhead x.a ((s.core x.a.core).nextCopy - 1) f.la
        s.settleAll x.a.core))

/-- Issue what a stage of the team's counter has reached, as the path's own issues (R128, R146), and then step the counter there:
`full` says what the path does where there is no room, and `after` follows once all are issued. A failing issue traps at the
path's instruction: at a CSTEP, which then steps nothing and issues nothing more than it did before, and at the admission of the
team, whose other issues stand (log 92). -/
def State.schedule (s : State) (a : Site) (stage : Nat) (cstep : Bool) (full after : State → State) : State :=
  match runSchedule s a stage [] 65536 with
  | .done false s' => after (s'.onTeam a.core a.slot (fun t => { t with stage := stage }))
  | .done true s' => (if cstep then s else s').trapAt a 0x09 0 0
  | .wait s =>
    let pc := (((s.group? a.core a.slot a.group).bind (fun g => g.paths.find? a.path)).map (fun p => p.pc)).getD 0
    full (s.waitCopy a pc)

/-- CSTEP (R146, R392): where there is no room it waits as an issuer does (R128), and steps the counter when all are issued. -/
def execCstep (_f : EngF) (s : State) : Out :=
  .next (s.issue [] (fun x =>
    if x.act = 0 then s.advance x.a
    else
      s.schedule x.a (if x.t.stage = 0xFFFF then 0xFFFF else x.t.stage + 1) true (fun s => s.stallOn x.a 3)
        (fun s => (s.changed x.a).advance x.a)))

/-- The schedule issues at a team's admission (R146): its first group waits while there is no room. -/
def State.scheduleAtStart (s : State) (a : Site) : State :=
  s.schedule a 0 false (fun s => s.onPath a (fun p => { p with wait := .step, stall := some 3 }))
    (fun s => s.onPath a (fun p => { p with wait := .none, stall := none }))

/-- ENGINE_ACCESS (R133, R226). -/
def execEngineAccess (core op n : Nat) (s : State) : Out := .next (s.copyRead core op n)
/-- COPY_UNIT_WRITE (R134, R135). -/
def execCopyUnitWrite (core op unit : Nat) (s : State) : Out := .next (s.copyWrite core op unit)
/-- ENGINE_ARRIVAL (R140, R143). -/
def execEngineArrival (core op : Nat) (s : State) : Out :=
  .next (match (s.core core).copies.find? op with
    | some o => if o.arrived = 0 then s else s.countUnits core op o.arrived
    | none => s)

end Sys2Proof.Machine
end

