-- ==== Sys2Proof/Machine/Matrix.lean ====
section
/-! DEFINITION. The matrix unit (R177 to R181, R207 to R214, R402 to R411): tile descriptors, accumulator blocks with their
progress words, MMA and MMAB step by step, and the instructions that clear, load, store and convert blocks. -/

namespace Sys2Proof.Machine

/-- A tile descriptor, as its fields (R177). -/
structure Tile where
  xcnt : Nat
  xoff : Nat
  soff : Nat
  sstr : Nat
  estr : Nat
  eoff : Nat
  blocks : Nat
  rows : Nat
  fmtc : Nat
  swz : Bool
  rsvd : Nat
  valid : Bool
  deriving DecidableEq, Repr

/-- Read a descriptor. Offsets and strides are in bytes. -/
def tileOf (d : BitVec 128) : Tile :=
  let x := d.toNat
  { xcnt := bits x 127 112, xoff := 16 * bits x 111 96, soff := 16 * bits x 95 80, sstr := 16 * bits x 79 68,
    estr := 16 * bits x 67 56, eoff := 16 * bits x 55 40, blocks := bits x 39 32 + 1, rows := bits x 31 26 + 1,
    fmtc := bits x 25 21, swz := bit x 20, rsvd := bits x 19 1, valid := bit x 0 }

/-- A block format (R189). -/
def isBlockFmt (c : Nat) : Bool := decide (6 ≤ c) && decide (c ≤ 9)
/-- L of R178. -/
def Tile.rowBytes (t : Tile) : Nat := t.blocks * 4 * fmtBits t.fmtc
/-- Scale bytes of a row (R178). -/
def Tile.scaleBytes (t : Tile) : Nat := if !isBlockFmt t.fmtc then 0 else if t.fmtc = 6 then t.blocks else 2 * t.blocks
/-- Where byte b of row r lies (R177, R178). -/
def Tile.byteAt (t : Tile) (r b : Nat) : Nat :=
  t.eoff + r * t.estr + (if t.swz then ((b / 16) ^^^ (r % 8)) * 16 + b % 16 else b)
/-- First byte past row r. -/
def Tile.rowEnd (t : Tile) (r : Nat) : Nat :=
  (List.range (ceilDiv t.rowBytes 16)).foldl (fun m c =>
    let last := if 16 * c + 16 < t.rowBytes then 16 * c + 15 else t.rowBytes - 1
    max m (t.byteAt r last + 1)) 0

/-- The checks of R178 against an allocation. -/
def Tile.legal (t : Tile) (size : Nat) : Bool :=
  t.valid && t.rsvd = 0 && decide (t.fmtc ≤ 13) && decide (t.rowBytes ≤ t.estr) &&
  (if isBlockFmt t.fmtc then decide (t.scaleBytes ≤ t.sstr) else t.soff = 0 && t.sstr = 0 && t.xoff = 0 && t.xcnt = 0) &&
  (List.range t.rows).all (fun r => decide (t.rowEnd r ≤ size) && decide (t.soff + r * t.sstr + t.scaleBytes ≤ size)) &&
  (t.xcnt = 0 || decide (t.xoff + 2 * t.xcnt ≤ size)) && (!t.swz || t.estr % 128 = 0)

/-- Element k of row r: its code (R189). -/
def Tile.code (t : Tile) (byte : Nat → Byte) (r k : Nat) : Nat :=
  let w := fmtBits t.fmtc
  let lo := w * k
  let first := lo / 8
  let n := (lo + w - 1) / 8 + 1 - first
  leNat ((List.range n).map (fun i => byte (t.byteAt r (first + i)))) / 2 ^ (lo % 8) % 2 ^ w

/-- ESC elements before block s of each row (R179): their count at the row's step. -/
def Tile.escBefore (t : Tile) (byte : Nat → Byte) (s : Nat) : List Nat :=
  if !isBlockFmt t.fmtc then List.replicate t.rows 0
  else
    let count (r n : Nat) : Nat := ((List.range n).filter (fun k => isEsc t.fmtc (t.code byte r k))).length
    ((List.range t.rows).foldl (fun (acc : Nat × List Nat) r => (acc.1 + count r (32 * t.blocks), (acc.1 + count r (32 * s)) :: acc.2)) (0, [])).2.reverse

/-- Entry k of the side list (R179, R193). -/
def Tile.side (t : Tile) (byte : Nat → Byte) (k : Nat) : FVal :=
  if t.xcnt ≤ k then .nan false
  else match fF16.decode false (leNat [byte (t.xoff + 2 * k), byte (t.xoff + 2 * k + 1)]) with
    | .nan _ => .nan false
    | v => v

/-- Decode a code that has no scale (R195). -/
def plainDecode (c code : Nat) : FVal :=
  if c ≤ 5 then match (ffmtOfCode c).decode false code with
    | .nan _ => .nan false
    | v => v
  else if c = 10 then FVal.ofInt (signed 8 code)
  else if c = 12 then FVal.ofInt (signed 4 code)
  else FVal.ofInt code

/-- The 32 values of row r in K step s (R195, R210). `esc` is the ordinal of its first ESC element. -/
def Tile.values (t : Tile) (byte : Nat → Byte) (s r esc : Nat) : List FVal :=
  if !isBlockFmt t.fmtc then (List.range 32).map (fun j => plainDecode t.fmtc (t.code byte r (32 * s + j)))
  else
    let w := if t.fmtc = 6 then 1 else 2
    let x0 := (byte (t.soff + r * t.sstr + w * s)).toNat
    let x1 := if w = 2 then (byte (t.soff + r * t.sstr + w * s + 1)).toNat else 0
    ((List.range 32).foldl (fun (acc : Nat × List FVal) j =>
      let code := t.code byte r (32 * s + j)
      let next := if isEsc t.fmtc code then acc.1 + 1 else acc.1
      let v := match blockDecode t.fmtc code x0 x1 with
        | .val v => v
        | .esc => t.side byte acc.1
      (next, v :: acc.2)) (esc, [])).2.reverse

/-- Column words of the scratchpad that a tile's step reads: its elements, scales and side-list entries (R405). `n` blocks
make a step. -/
def Tile.words (t : Tile) (byte : Nat → Byte) (s n : Nat) : List Nat :=
  let w := fmtBits t.fmtc
  let elems := (List.range t.rows).flatMap (fun r => (List.range (4 * w * n)).map (fun b => t.byteAt r (4 * w * n * s + b) / 32))
  if !isBlockFmt t.fmtc then dedup elems
  else
    let sb := if t.fmtc = 6 then 1 else 2
    let scales := (List.range t.rows).flatMap (fun r => (List.range sb).map (fun b => (t.soff + r * t.sstr + sb * s + b) / 32))
    let sides := (t.escBefore byte s).zipIdx.flatMap (fun p =>
      let k := ((List.range 32).filter (fun j => isEsc t.fmtc (t.code byte p.2 (32 * s + j)))).length
      ((List.range k).filter (fun i => decide (p.1 + i < t.xcnt))).map (fun i => (t.xoff + 2 * (p.1 + i)) / 32))
    dedup (elems ++ scales ++ sides)

/-- ACC of FMT (R184): 0 F32, 1 F64, 2 I32, 3 reserved. -/
def accOf (fmt : W32) : Nat := bits fmt.toNat 16 15
/-- AFMT. -/
def afmtOf (fmt : W32) : Nat := bits fmt.toNat 9 5
/-- BFMT. -/
def bfmtOf (fmt : W32) : Nat := bits fmt.toNat 14 10

/-- Operand classes of R209: 1 F64, 2 the 16-bit floats, 3 the 8-bit class, 4 the 4-bit floats, 5 I8 and N8, 6 I4, 7 B1. -/
def opClass (c : Nat) : Nat :=
  match c with
  | 3 => 1 | 1 => 2 | 2 => 2 | 4 => 3 | 5 => 3 | 9 => 3 | 8 => 3 | 6 => 4 | 7 => 4 | 10 => 5 | 11 => 5 | 12 => 6 | 13 => 7
  | _ => 0

/-- The pair of operand formats and ACC that R209 allows. -/
def pairAllowed (binary : Bool) (a b acc : Nat) : Bool :=
  let x := opClass a
  let y := opClass b
  if binary then x = 7 && y = 7 && acc = 2
  else if x = 1 ∨ y = 1 then x = 1 && y = 1 && acc = 1
  else if x = 2 ∨ y = 2 then x = 2 && y = 2 && acc = 0
  else if (x = 3 ∨ x = 4) ∧ (y = 3 ∨ y = 4) then acc = 0
  else (x = 5 || x = 6) && (y = 5 || y = 6) && acc = 2

/-- The element of a block. -/
def Team.accWord (t : Team) (k row col : Nat) : W32 := t.acc.getD (4096 * k + 64 * row + col) 0
/-- Replace a block whole. A zero element is not listed. -/
def Team.setBlock (t : Team) (k : Nat) (f : Nat → Nat → W32) : Team :=
  let new : Tab W32 := ((List.range 4096).map (fun i => (4096 * k + i, f (i / 64) (i % 64)))).filter (fun p => p.2 ≠ 0)
  { t with acc := t.acc.filter (fun p => p.1 < 4096 * k) ++ new ++ t.acc.filter (fun p => 4096 * k + 4096 ≤ p.1) }
/-- PROG of a block (R181). -/
def Team.progOf (t : Team) (k : Nat) : BitVec 16 := t.prog.getD k 0
/-- Set PROG. -/
def Team.setProg (t : Team) (k : Nat) (v : BitVec 16) : Team := { t with prog := t.prog.put 0 k v }

/-- PROG of a destination, or of both blocks of a pair (R212). -/
def Team.setProgs (t : Team) (fmt : W32) (k : Nat) (v : BitVec 16) : Team :=
  if accOf fmt = 1 then (t.setProg k v).setProg (k + 1) v else t.setProg k v

/-- An exact sum (R210). -/
def exactSum (l : List FVal) : FVal :=
  match l with
  | [] => .fin false 0 0
  | v :: vs => vs.foldl (fun a b => (a.add 0 b).1) v

/-- One step of MMA for one element: the old value, as F32, F64 or I32 bits (R210). -/
def mmaElem (acc old : Nat) (a b : List FVal) : Nat :=
  let p := exactSum (List.zipWith (fun x y => (x.mul y).1) a b)
  if acc = 2 then wrap 32 ((old : Int) + (p.toInt 1).1)
  else
    let f := if acc = 1 then fF64 else fF32
    let md : RMode := { rm := 0, ftz := false, satn := false }
    let t := (f.roundVal md p).1
    (f.roundVal md ((f.decode false old).add 0 (f.decode false t)).1).1

/-- The 256 bits of row r in step s of a B1 tile (R211). -/
def Tile.row256 (t : Tile) (byte : Nat → Byte) (s r : Nat) : Nat :=
  leNat ((List.range 32).map (fun i => byte (t.byteAt r (32 * s + i))))

/-- Ones of a number below 2^256. -/
def popcount256 (x : Nat) : Nat := (List.range 256).foldl (fun n i => n + b2n (bit x i)) 0

/-- The step of a matrix operation on its team: every updated element (R208, R210, R211). -/
def MatOp.apply (m : MatOp) (t : Team) : Team :=
  let byte (a : Nat) : Byte := t.scratch.getD a 0
  let ta := tileOf m.ta
  let tb := tileOf m.tb
  if m.binary then
    let as := (List.range ta.rows).map (fun r => ta.row256 byte m.step r)
    let bs := (List.range tb.rows).map (fun r => tb.row256 byte m.step r)
    t.setBlock m.ad (fun row col =>
      let old := t.accWord m.ad row col
      match as[row]?, bs[col]? with
      | some x, some y => old + BitVec.ofNat 32 (popcount256 (if m.andMode then x &&& y else x ^^^ y))
      | _, _ => old)
  else
    let as := (ta.escBefore byte m.step).zipIdx.map (fun p => ta.values byte m.step p.2 p.1)
    let bs := (tb.escBefore byte m.step).zipIdx.map (fun p => tb.values byte m.step p.2 p.1)
    let acc := accOf m.fmt
    if acc = 1 then
      let new (row col : Nat) : W64 :=
        let old : W64 := t.accWord (m.ad + 1) row col ++ t.accWord m.ad row col
        match as[row]?, bs[col]? with
        | some x, some y => BitVec.ofNat 64 (mmaElem 1 old.toNat x y)
        | _, _ => old
      (t.setBlock m.ad (fun r c => (new r c).extractLsb' 0 32)).setBlock (m.ad + 1) (fun r c => (new r c).extractLsb' 32 32)
    else
      t.setBlock m.ad (fun row col =>
        let old := t.accWord m.ad row col
        match as[row]?, bs[col]? with
        | some x, some y => BitVec.ofNat 32 (mmaElem acc old.toNat x y)
        | _, _ => old)

/-- The scratchpad bytes that a tile maps, as accesses of no lane (R404). -/
def Tile.spans (t : Tile) : List LaneAcc :=
  let at_ (a n : Nat) : List LaneAcc := if n = 0 then [] else [{ LaneAcc.zero with addr := a, width := n }]
  (List.range t.rows).flatMap (fun r =>
    (if t.swz then (List.range (ceilDiv t.rowBytes 16)).flatMap (fun c => at_ (t.byteAt r (16 * c)) 16) else at_ (t.byteAt r 0) t.rowBytes)
      ++ at_ (t.soff + r * t.sstr) t.scaleBytes) ++ at_ t.xoff (2 * t.xcnt)

/-- A scratchpad access of the path that stands before a matrix instruction and has not come to its end (R404). -/
def Ctx.scratchOpen (x : Ctx) : Option Nat :=
  (List.find? (fun (o : Nat × Op) => o.2.space = .scratch x.a.core x.a.slot && o.2.kind.isAccess && o.2.ofPath x.a x.p &&
    !(o.2.parts.all (fun q => q.returned o.2.kind))) x.g.ops).map (fun o => o.2.count)

/-- Blocks k, and k + 1 where it names a pair, are the team's (R163, R402). -/
def Ctx.accOk (x : Ctx) (k : Nat) (pair : Bool) : Bool :=
  if pair then k % 2 = 0 && decide (k + 1 < x.grid.a) else decide (k < x.grid.a)

/-- Issue an instruction of the matrix unit (R207, R402): its checks, then a wait while the unit is taken or earlier
scratchpad accesses of the path are open, then its effect. While the unit is taken it is charged reason 2 (log 131). -/
def State.matrixIssue (s : State) (regs : List Reg) (check : Ctx → Option Nat) (uniform : Bool) (act : Ctx → State) : State :=
  s.issue regs (fun x =>
    match check x with
    | some cause => s.trapAt x.a cause 0 0
    | none =>
      if !uniform && x.act = 0 then s.advance x.a
      else if (s.core x.a.core).matrix.isSome then s.stallOn x.a 2
      else match (if uniform then none else x.scratchOpen) with
        | some r => s.stallOn x.a r
        | none => act x)

/-- ILLDESC of MMA and MMAB (R178, R208, R209, R211, R405). -/
def mmaDescOk (binary : Bool) (fmt : W32) (size : Nat) (ta tb : Tile) : Bool :=
  let agrees (f c : Nat) : Bool := decide (13 < f) || f = c
  ta.legal size && tb.legal size && ta.blocks = tb.blocks &&
  (!binary || (ta.fmtc = 13 && tb.fmtc = 13 && ta.blocks % 8 = 0)) && agrees (afmtOf fmt) ta.fmtc && agrees (bfmtOf fmt) tb.fmtc

/-- The checks of MMA and MMAB, in their order (R405): the cause of the trap. -/
def Ctx.mmaCheck (x : Ctx) (f : MtxF) (binary : Bool) : Option Nat :=
  let fmt := x.p.fmt
  let ta := tileOf (x.g.treg f.ta)
  let tb := tileOf (x.g.treg f.tb)
  if !x.accOk f.ad (accOf fmt = 1) then some 5
  else if !mmaDescOk binary fmt x.t.scratchSize ta tb then some 6
  else if !pairAllowed binary (afmtOf fmt) (bfmtOf fmt) (accOf fmt) then some 7
  else none

/-- The chunks of a team's scratchpad that a lane store of another group has written in part, as they are once it has written
the rest: a step sees nothing of what a store writes to a chunk or all of it (R210). -/
def State.openChunks (s : State) (a : Site) : Tab (Tab Byte) :=
  let old : Tab Byte := ((s.team? a.core a.slot).map (fun t => t.scratch)).getD []
  s.cores.foldl (fun m c => c.2.slots.foldl (fun m t => t.2.groups.foldl (fun m g => g.2.ops.foldl (fun (m : Tab (Tab Byte)) o =>
    if o.2.kind ≠ .store ∨ o.2.space ≠ .scratch a.core a.slot ∨ (c.1 = a.core ∧ t.1 = a.slot ∧ g.1 = a.group) then m
    else
      let done := (o.2.parts.filter (fun p => p.performed)).flatMap (fun p => (p.stores (fun a => a)).map (fun b => b.1 / 16))
      let part := (o.2.parts.filter (fun p => !p.performed)).flatMap (fun p => (p.stores (fun a => a)).map (fun b => b.1 / 16))
      (dedup (done.filter part.contains)).foldl (fun (m : Tab (Tab Byte)) c =>
        let was : Tab Byte := (m.find? c).getD ((List.range 16).map (fun i => (16 * c + i, Tab.getD old (16 * c + i) 0)))
        m.set c ((o.2.chunkBytes c).foldl (fun (b : Tab Byte) p => b.set p.1 p.2) was)) m) m) m) m) []

/-- The scratchpad as one step of a matrix operation sees it (R210): draw i says whether it sees write i. -/
def MatOp.view (m : MatOp) (pad : Tab Byte) (draw : Nat → Bool) : Tab Byte :=
  let put (l : Tab Byte) (bs : Tab Byte) : Tab Byte := bs.foldl (fun l b => l.put 0 b.1 b.2) l
  let start := m.base.foldl (fun l c => put l c.2) pad
  m.late.zipIdx.foldl (fun l w => if w.1.store.isNone || draw w.2 then put l w.1.bytes else l) start

/-- The matrix operation of a core gives up the unit, with the grant that its clause left there (R273). -/
def State.freeUnit (s : State) (core : Nat) : State :=
  (s.onCore core (fun k => { k with matrix := none })).giveBack (dieOf core) (unitLeave core)

/-- What a path waits at takes no effect until it goes on, so its instruction can be issued again (R291). -/
def Wait.again : Wait → Bool
  | .none => true
  | .join _ => true
  | .barrier _ _ _ _ _ _ => true
  | .token _ _ => true
  | .fifo _ => true
  | _ => false

/-- The matrix operation of a core stops at the end of its K step (R212), where its team is to be saved or the device halts:
the path stands at the instruction again. Where that cannot be, as a later instruction of the path has taken effect or the clause
has no STOP, the operation of a team to be saved runs on, and that of a device that halts stops for good (R431; log 96). -/
def State.stopMatrix (s : State) (core : Nat) : State :=
  match (s.core core).matrix with
  | none => s
  | some m =>
    match s.team? core m.slot, (s.group? core m.slot m.group).bind (fun g => g.ops.find? m.op) with
    | some t, some o =>
      let a : Site := { core := core, slot := m.slot, group := m.group, path := o.path }
      let stopping := (match t.run with | .stopping _ _ => true | _ => false) || s.dev.halt.isSome
      let halts (s : State) : State := if s.dev.halt.isSome && decide (m.step ≠ m.first) then s.freeUnit core else s
      match (s.group? core m.slot m.group).bind (fun g => g.paths.find? o.path) with
      | none => halts s
      | some p =>
        -- The next clause may have been fetched, but nothing of it has issued.
        let next := if o.closes then p.words.isEmpty && decide (p.pc = o.pc + 8) || p.fresh && decide (p.hdrPc = o.pc + 8)
          else decide (p.pc = o.pc + 8)
        if !stopping || decide (m.step = m.first) || decide (m.steps ≤ m.step) then s
        else if !m.hdr.stop || !next || !p.wait.again || p.pend.isSome then halts s
        else
          let s := (((s.leaveWait a p).freeUnit core).giveBack (dieOf core) (clauseLeave a)).withdraw (dieOf core) (clauseLeave a)
          let s := s.onGroup core m.slot m.group (fun g => { g with ops := g.ops.erase m.op })
          s.onPath a (fun p =>
            { p with pc := o.pc, words := m.word :: (if o.closes then [] else p.words), hdr := m.hdr, hdrPc := m.hdrPc, fresh := false,
                     wait := .none, stall := none, waitc := none, fetchParked := false, la := p.la.filter (fun l => l.1 ≠ m.op) })
    | _, _ => s

/-- MMA and MMAB issue (R208 to R213, R405): the operation begins at step PROG with the descriptors as they stand. -/
def State.mma (s : State) (f : MtxF) (binary : Bool) : State :=
  s.matrixIssue [] (fun x => x.mmaCheck f binary) false (fun x =>
    let ta := x.g.treg f.ta
    let tb := x.g.treg f.tb
    let blocks := (tileOf ta).blocks
    let m : MatOp :=
      { slot := x.a.slot, group := x.a.group, op := x.g.nextOp, binary := binary, andMode := decide (f.mod = 1), ad := f.ad,
        ta := ta, tb := tb, fmt := x.p.fmt, step := (x.t.progOf f.ad).toNat, first := (x.t.progOf f.ad).toNat, steps := if binary then blocks / 8 else blocks,
        word := x.p.words.headD 0, hdr := x.p.hdr, hdrPc := x.p.hdrPc, base := s.openChunks x.a, late := [] }
    let o : Op := Op.start x .matrix (.scratch x.a.core x.a.slot) 2 .none
      [{ lanes := (tileOf ta).spans ++ (tileOf tb).spans, st := .sent, xl := none }]
    ((s.onCore x.a.core (fun k => { k with matrix := some m })).changed x.a).enterOp x o f.la)

/-- MMA (R208, R405). -/
def execMma (f : MtxF) (s : State) : Out := .next (s.mma f false)
/-- MMAB (R211, R405). -/
def execMmab (f : MtxF) (s : State) : Out := .next (s.mma f true)

/-- MATRIX_K_STEP (R210, R213, R405): the operation in the unit takes its next step, or ends. -/
def execMatrixKStep (core : Nat) (s : State) : Out :=
  .next (match (s.core core).matrix with
    | none => s
    | some m =>
      let free (s : State) : State := s.freeUnit core
      match s.team? core m.slot with
      | none => free s
      | some t =>
        let finish (s : State) : State :=
          ((free s).onTeam core m.slot (fun t => t.setProgs m.fmt m.ad 0)).dropOp core m.slot m.group m.op
        if m.steps ≤ m.step then finish s
        else
          let n := if m.binary then 8 else 1
          let byte (a : Nat) : Byte := t.scratch.getD a 0
          let read := (tileOf m.ta).words byte m.step n ++ (tileOf m.tb).words byte m.step n
          if read.any (fun w => t.scratchPois.contains w) then (free s).checkOp core m.slot m.group m.op 3 0
          else
            let pad := m.view t.scratch (fun i => (Config.fresh (s.freeCtr + i)).getLsbD 0)
            let s := { s with freeCtr := s.freeCtr + m.late.length }
            let s := s.onTeam core m.slot (fun t =>
              { ((m.apply { t with scratch := pad }).setProgs m.fmt m.ad (BitVec.ofNat 16 (m.step + 1))) with scratch := t.scratch })
            if m.steps ≤ m.step + 1 then finish s
            else (s.onCore core (fun k => { k with matrix := some { m with step := m.step + 1 } })).stopMatrix core)

/-- MZERO (R406). -/
def execMzero (f : MtxF) (s : State) : Out :=
  .next (s.matrixIssue [.acc f.ad] (fun _ => none) false (fun x =>
    ((s.onTeam x.a.core x.a.slot (fun t => (t.setBlock f.ad (fun _ _ => 0)).setProg f.ad 0)).changed x.a).advance x.a))

/-- A stretch of the team's scratchpad: MISALIGN unless its offset is a multiple of 16, SCRBOUND unless it lies inside. -/
def Ctx.padCheck (x : Ctx) (off n : Nat) : Option Nat :=
  if off % 16 ≠ 0 then some 0x0B else if x.t.scratchSize < off + n then some 0x0C else none

/-- MLDA (R406). Of what another group stores to a chunk it sees all or nothing (R404). -/
def execMlda (f : MtxF) (s : State) : Out :=
  .next (s.matrixIssue [.acc f.ad, .s f.sa 1] (fun _ => none) false (fun x =>
    let off := (x.s f.sa).toNat
    match x.padCheck off 16384 with
    | some cause => s.trapAt x.a cause 0 off
    | none =>
      let bad := (wordsOf off 16384).any (fun w => x.t.scratchPois.contains w)
      if bad then
        (((s.advance x.a).log23 (whoLane x.a) 3 0)).holdGroup x.a.core x.a.slot x.a.group
      else
        let t := { x.t with scratch := (s.openChunks x.a).foldl (fun (l : Tab Byte) (c : Nat × Tab Byte) => c.2.foldl (fun (l : Tab Byte) (b : Nat × Byte) => l.put 0 b.1 b.2) l) x.t.scratch }
        let word (r c : Nat) : W32 := BitVec.ofNat 32 (leNat (t.bytesAt (off + 4 * (64 * r + c)) 4))
        ((s.onTeam x.a.core x.a.slot (fun t => (t.setBlock f.ad word).setProg f.ad 0)).changed x.a).advance x.a))

/-- An accumulator element as ACC reads it (R407): its raw bits. -/
def Team.accElem (t : Team) (acc k row col : Nat) : Nat :=
  if acc = 1 then (t.accWord (k + 1) row col ++ t.accWord k row col).toNat else (t.accWord k row col).toNat

/-- The format that ACC reads an element in. -/
def accFmt (acc : Nat) : Nat := match acc with | 0 => 0 | 1 => 3 | _ => 16

/-- MSTA accepts a format under an ACC (R407). -/
def mstaOk (acc fmt : Nat) : Bool :=
  match acc with
  | 0 => [0, 1, 2, 4, 5].contains fmt
  | 1 => [3, 0, 1, 2].contains fmt
  | 2 => [0, 10, 11, 12].contains fmt
  | _ => false

/-- Convert an accumulator element (R407, R408): code in `fmt`. SR takes the neighbours of the row. -/
def accConvert (t : Team) (f : W32) (k fmt rm : Nat) (satn : Bool) (row col : Nat) : Nat :=
  let acc := accOf f
  let c : Conv := { d := fmt, s := accFmt acc, rm := rm, ftz := false, satn := satn, sr := f.getLsbD 4 }
  (c.run (t.accElem acc k row col) (t.accElem acc k row ((col + 63) % 64)) (t.accElem acc k row ((col + 1) % 64))).1

/-- MSTA stores bits as they stand (R407). -/
def mstaCopies (acc fmt : Nat) : Bool := (acc = 0 && fmt = 0) || (acc = 1 && fmt = 3) || (acc = 2 && fmt = 0)

/-- MSTA (R407). -/
def execMsta (f : MtxF) (s : State) : Out :=
  .next (s.matrixIssue [.s f.sa 1] (fun x =>
    let acc := accOf x.p.fmt
    if !x.accOk f.ad (acc = 1) then some 5 else if !mstaOk acc f.fmtc then some 7 else none) false (fun x =>
    let acc := accOf x.p.fmt
    let off := (x.s f.sa).toNat
    let w := fmtBits f.fmtc
    match x.padCheck off (512 * w) with
    | some cause => s.trapAt x.a cause 0 off
    | none =>
      let code (row col : Nat) : Nat :=
        if mstaCopies acc f.fmtc then x.t.accElem acc f.ad row col
        else accConvert x.t x.p.fmt f.ad f.fmtc f.rm (f.sat || x.p.fmt.getLsbD 3) row col
      let bytes := (List.range 64).flatMap (fun row =>
        leBytes (8 * w) ((List.range 64).foldr (fun col a => code row col % 2 ^ w + 2 ^ w * a) 0))
      ((s.scratchStore x.a.core x.a.slot (bytes.zipIdx.map (fun (b : Byte × Nat) => (off + b.2, b.1))) [] true).changed x.a).advance x.a))

/-- MCVT accepts a format under an ACC (R408). -/
def mcvtOk (acc fmt : Nat) : Bool :=
  decide (acc < 3) &&
    ([0, 3].contains fmt || ([1, 2, 4, 5].contains fmt && decide (acc < 2)) || [10, 11, 12].contains fmt)

/-- The element that MCVT writes (R408): 64 bits where fmt is F64. -/
def mcvtElem (t : Team) (f : W32) (k fmt rm : Nat) (row col : Nat) : Nat :=
  let code := accConvert t f k fmt rm (f.getLsbD 3) row col
  if fmt = 0 ∨ fmt = 3 then code
  else if fmt ≤ 5 then (fF32.roundVal { rm := 0, ftz := false, satn := false } ((ffmtOfCode fmt).decode false code)).1
  else
    let w := fmtBits fmt
    if intSigned fmt then wrap 32 (signed w code) else code

/-- MCVT (R408). -/
def execMcvt (f : MtxF) (s : State) : Out :=
  .next (s.matrixIssue [] (fun x =>
    let acc := accOf x.p.fmt
    if !x.accOk f.ta (acc = 1) ∨ !x.accOk f.ad (f.fmtc = 3) then some 5
    else if !mcvtOk acc f.fmtc then some 7 else none) false (fun x =>
    let old := x.t
    let el := mcvtElem old x.p.fmt f.ta f.fmtc f.rm
    ((s.onTeam x.a.core x.a.slot (fun t =>
      let t1 := t.setBlock f.ad (fun r c => BitVec.ofNat 32 (el r c))
      if f.fmtc = 3 then t1.setBlock (f.ad + 1) (fun r c => BitVec.ofNat 32 (el r c / 2 ^ 32)) else t1)).changed x.a).advance x.a))

/-- MPROG (R409). -/
def execMprog (f : MtxF) (s : State) : Out :=
  .next (s.matrixIssue [.acc f.ad, .s f.sa 1] (fun _ => none) true (fun x =>
    (s.onG x (fun g => g.setS f.sa ((x.t.progOf f.ad).setWidth 32))).advance x.a))
/-- MPROG.SET (R409). -/
def execMprogSet (f : MtxF) (s : State) : Out :=
  .next (s.matrixIssue [.acc f.ad, .s f.sa 1] (fun _ => none) true (fun x =>
    ((s.onTeam x.a.core x.a.slot (fun t => t.setProg f.ad ((x.s f.sa).setWidth 16))).changed x.a).advance x.a))

/-- TMAP (R410). -/
def execTmap (f : MtxF) (s : State) : Out :=
  .next (s.issue [.s f.sa 4] (fun x =>
    (s.onG x (fun g => { g with t := g.t.set f.ta (x.g.spair (f.sa + 2) ++ x.g.spair f.sa) })).advance x.a))
/-- TMAP.RD (R410). -/
def execTmapRd (f : MtxF) (s : State) : Out :=
  .next (s.issue [.s f.sa 4] (fun x =>
    let d := x.g.treg f.ta
    (s.onG x (fun g => (g.setPair f.sa (d.extractLsb' 0 64)).setPair (f.sa + 2) (d.extractLsb' 64 64))).advance x.a))
/-- TSIDE (R410): XCNT and XOFF take the register. -/
def execTside (f : MtxF) (s : State) : Out :=
  .next (s.issue [.s f.sa 1] (fun x =>
    let d := x.g.treg f.ta
    (s.onG x (fun g => { g with t := g.t.set f.ta (x.s f.sa ++ d.extractLsb' 0 96) })).advance x.a))

end Sys2Proof.Machine
end

