-- ==== Sys2Proof/Machine/Mangle.lean ====
section
/-! DEFINITION. Mangles (R77 to R99, R418 to R420, R433): installing and uninstalling, fire requests, status, and passes over
the matrix. -/

namespace Sys2Proof.Machine

/-- A descriptor that an instruction names is read under the group's ASID (R263, R418). A translation fault parks the
instruction; a hole, an empty key slot or poison is a machine check of the group (R289). -/
def State.readOperand (s : State) (x : Ctx) (va n : Nat) (act : List Byte → State → State) : State :=
  match s.readDesc (whoLane x.a) x.a.core x.t.asid .load x.t.sup va n with
  | (.ok bs, s) => act bs s
  | (.fault kind va, s) => s.parkIssue x.a kind 0 x.t.asid va
  | (.bad kind pa, s) => ((s.advance x.a).log23 (whoLane x.a) kind pa).holdGroup x.a.core x.a.slot x.a.group
  | (.wait, s) => s

/-- With no active lane a record is looked at for its fields alone: a malformed one traps, and no access of the look faults (R282;
log 132). -/
def State.lookOperand (s : State) (x : Ctx) (va n : Nat) (ok : List Byte → Bool) (go : State) : State :=
  match (s.readDesc (whoLane x.a) x.a.core x.t.asid .load x.t.sup va n).1 with
  | .ok bs => if ok bs then go else s.trapAt x.a 6 0 0
  | .wait => s
  | _ => go

/-- An install descriptor (R77) that is well formed (R78), as a mangle with nothing bound. -/
def mangleDesc (d : Nat) : Option Mangle :=
  let m : Mangle :=
    { asid := bits d 431 416, key := bits d 414 406, batch := bits d 405 403 + 1, mode := bit d 402, nslots := bits d 401 399 + 1,
      ofmt := bits d 398 394, ifmt := bits d 393 389, wfmt := bits d 388 384, n := bits d 383 368 + 1, m := bits d 367 352 + 1,
      xcount := bits d 351 320, owin := bits d 312 256, iwin := bits d 248 192, xbase := bits d 184 128, sbase := bits d 120 64,
      mbase := bits d 56 0, home := 0, slots := [], pass := false, asked := false, passes := 0, firings := 0, removing := none,
      badLanes := [], dataPages := [], sidePages := [], winPages := [], loads := [] }
  let rsvd := bits d 511 432 + bits d 415 415 + bits d 319 313 + bits d 255 249 + bits d 191 185 + bits d 127 121 + bits d 63 57
  let block := isBlockFmt m.wfmt
  let ok := rsvd = 0 && [1, 2, 4, 5, 6, 7, 9].contains m.wfmt && [1, 2, 4].contains m.ifmt && [0, 2].contains m.ofmt &&
    m.owin % 65536 = 0 && m.iwin % 65536 = 0 && m.sbase % 65536 = 0 && m.mbase % 65536 = 0 && m.xbase % 2 = 0 &&
    (m.mode || m.batch = 1) && decide (m.batch ≤ m.nslots) &&
    (if block then decide (m.sbase ≠ 0) else m.sbase = 0 && m.xbase = 0)
  if ok then some m else none

/-- Scale bytes of one chunk (R80). -/
def Mangle.scaleStep (m : Mangle) : Nat := if !isBlockFmt m.wfmt then 0 else if m.wfmt = 6 then 8 else 16
/-- The matrix region and the scale plane, in whole 64 KiB pages: address and bytes. -/
def Mangle.dataSpans (m : Mangle) : List (Nat × Nat) :=
  [(m.mbase, roundUp m.matrixBytes 65536), (m.sbase, roundUp (m.panels * m.m * m.scaleStep) 65536)]
/-- The windows (R82): address and bytes. -/
def Mangle.winSpans (m : Mangle) : List (Nat × Nat) :=
  [(m.iwin, roundUp (m.nslots * m.istride) 65536), (m.owin, roundUp (m.nslots * m.ostride) 65536)]

/-- Two ranges of addresses meet. -/
def meet (a n b k : Nat) : Bool := decide (a < b + k) && decide (b < a + n)

/-- A physical range meets a page of the mangle: of its matrix, scale plane, side list or windows. -/
def Mangle.holds (m : Mangle) (pa n : Nat) : Bool :=
  m.dataPages.any (fun q => meet (65536 * q) 65536 pa n) || m.sidePages.any (fun q => meet q.2.1 (2 ^ q.2.2) pa n) ||
  m.winPages.any (fun q => meet (65536 * q.1) 65536 pa n)

/-- The page of an address that a descriptor names (R78): its entry, or the KIND of its fault. -/
def State.pageOf (s : State) (x : Ctx) (asid va : Nat) : Except Nat TlbEntry × State :=
  let (out, s) := s.xlate (whoLane x.a) x.a.core asid va .load x.t.sup false
  -- The page of a move in pieces stands in the die's L2 TLB alone (R29).
  match (tlbHit (s.core x.a.core).tlb asid va).orElse (fun _ => tlbHit (s.die (dieOf x.a.core)).tlb asid va) with
  | some e => if e.permits .load x.t.sup then (.ok e, s) else (.error 1, s)
  | none => (.error (match out with | .fault k => k | .ok _ => 0), s)

/-- Part of a stretch of memory that lies in one page: address, bytes, the page's entry. -/
abbrev Span := Nat × Nat × TlbEntry

/-- The pages that hold n bytes from an address, each where the one before ends, or the first fault with its address. -/
def State.spanOf (s : State) (x : Ctx) (asid : Nat) : Nat → Nat → Nat → Except (Nat × Nat) (List Span) × State
  | 0, _, _ => (.ok [], s)
  | fuel + 1, va, n =>
    if n = 0 then (.ok [], s)
    else
      match s.pageOf x asid va with
      | (.error k, s) => (.error (k, va), s)
      | (.ok e, s) =>
        let k := 2 ^ e.lg - va % 2 ^ e.lg
        match State.spanOf s x asid fuel ((va + k) % 2 ^ 57) (n - k) with
        | (.ok l, s) => (.ok ((va, min k n, e) :: l), s)
        | r => r

/-- The pages of several stretches, in order. -/
def State.spansOf (s : State) (x : Ctx) (asid : Nat) : List (Nat × Nat) → Except (Nat × Nat) (List Span) × State
  | [] => (.ok [], s)
  | (va, n) :: t =>
    match s.spanOf x asid (n / 4096 + 2) va n with
    | (.error e, s) => (.error e, s)
    | (.ok l, s) =>
      match State.spansOf s x asid t with
      | (.ok r, s) => (.ok (l ++ r), s)
      | r => r

/-- The physical bytes of a span, and those of its whole page. -/
def Span.bytes (s : State) (p : Span) : Nat × Nat := (p.2.2.at s p.1, p.2.1)
def Span.page (s : State) (p : Span) : Nat × Nat := (p.2.2.at s (p.1 / 2 ^ p.2.2.lg * 2 ^ p.2.2.lg), 2 ^ p.2.2.lg)

/-- Byte of the scale plane for block k of chunk (p, r) (R80): its physical address. -/
def Mangle.scaleAt (m : Mangle) (p r b : Nat) : Nat :=
  let off := (p * m.m + r) * m.scaleStep + b
  m.dataPages.getD (ceilDiv m.matrixBytes 65536 + off / 65536) 0 * 65536 + off % 65536
/-- Physical address of side-list entry k. -/
def Mangle.sideAt (m : Mangle) (k : Nat) : Nat :=
  let va := (m.xbase + 2 * k) % 2 ^ 57
  match m.sidePages.find? (fun p => decide (p.1 / 2 ^ p.2.2 = va / 2 ^ p.2.2)) with
  | some p => p.2.1 + va % 2 ^ p.2.2
  | none => 0

/-- Code of weight c of chunk (p, r). -/
def Mangle.weight (m : Mangle) (byte : Nat → Byte) (p r c : Nat) : Nat :=
  let lo := m.wbits * c
  leNat ((List.range (ceilDiv m.wbits 8)).map (fun i => byte (m.chunkAt p r (lo / 8 + i)))) / 2 ^ (lo % 8) % 2 ^ m.wbits
/-- ESC elements of row r in the columns below 256p (R80). -/
def Mangle.escIn (m : Mangle) (byte : Nat → Byte) (r p : Nat) : Nat :=
  if !isBlockFmt m.wfmt then 0
  else (List.range p).foldl (fun n q => n + ((List.range (m.columns q)).filter (fun c => isEsc m.wfmt (m.weight byte q r c))).length) 0
/-- ESC elements of the logical matrix in the rows above r. -/
def Mangle.escAbove (m : Mangle) (byte : Nat → Byte) (r : Nat) : Nat :=
  (List.range r).foldl (fun n q => n + m.escIn byte q m.panels) 0

/-- A window page belongs to another mangle, or the windows meet each other or a page of the matrix, the scale plane or the side list
(R79, cause 2). Two pages of one window that map the same memory count as well (log 133). -/
def winBusy (s : State) (m : Mangle) (wins data sides : List Span) : Bool :=
  let il := roundUp (m.nslots * m.istride) 65536
  let ol := roundUp (m.nslots * m.ostride) 65536
  let ml := m.matrixBytes
  let sl := m.panels * m.m * m.scaleStep
  let ranges := wins.map (fun p => p.bytes s)
  wins.any (fun p => s.mangles.any (fun o => o.2.holds (p.page s).1 (p.page s).2)) ||
  ranges.zipIdx.any (fun a => ranges.zipIdx.any (fun b => decide (a.2 < b.2) && meet a.1.1 a.1.2 b.1.1 b.1.2)) ||
  ranges.any (fun a => (data ++ sides).any (fun q => meet a.1 a.2 (q.page s).1 (q.page s).2)) ||
  meet m.iwin il m.owin ol ||
  [(m.iwin, il), (m.owin, ol)].any (fun v =>
    meet v.1 v.2 m.mbase ml || (decide (0 < sl) && meet v.1 v.2 m.sbase sl) ||
    (decide (0 < m.xcount) && meet v.1 v.2 m.xbase (2 * m.xcount)))

/-- The mangle bound to its pages. -/
def Mangle.bind (m : Mangle) (s : State) (wins data sides : List Span) : Mangle :=
  { m with dataPages := data.map (fun p => (p.bytes s).1 / 65536),
           sidePages := sides.map (fun p => (p.1 / 2 ^ p.2.2.lg * 2 ^ p.2.2.lg, (p.page s).1, p.2.2.lg)),
           winPages := wins.map (fun p => ((p.bytes s).1 / 65536, p.1 / 65536)) }

/-- The cause of R79, in ascending order, or none. ESC elements are counted in the words as they stand, poisoned and damaged ones
too; with an empty key slot there are none (log 97). -/
def mngiCause (s : State) (m : Mangle) (sup : Bool) (own : Nat) (wins data sides : List Span) : Option Nat :=
  let b := m.bind s wins data sides
  let byte (key : KeyPair) (a : Nat) : Byte := s.mem.byteAt key a
  if 4096 ≤ s.mangles.length then some 1
  else if winBusy s m wins data sides then some 2
  else if wins.any (fun p => p.2.2.lg ≠ 16 || !p.2.2.mng) then some 3
  else if data.any (fun p => p.2.2.lg ≠ 16 || decide (region p.2.2.pa ≠ .hbm)) then some 4
  else if (wins ++ data ++ sides).any (fun p => p.2.2.key ≠ m.key) then some 5
  else if (match s.keys.find? m.key with
      | some key => decide (b.escAbove (byte key) b.m ≠ m.xcount)
      | none => decide (m.xcount ≠ 0)) then some 6
  else if !sup && m.asid ≠ own then some 7
  else none

/-- A page that placement never moves (R31). -/
def immovable (s : State) (asid va : Nat) (e : TlbEntry) : Bool :=
  let n := 2 ^ e.lg
  let base := va / n * n
  e.nomove || decide (e.lg = 30) || (match asidEntry s asid with | .ok a => a.noplace | .error _ => true) ||
    (region e.pa ≠ .hbm && region e.pa ≠ .tier) || s.mangles.any (fun m => m.2.holds e.pa n) ||
    s.cores.any (fun c => c.2.slots.any (fun t => t.2.asid = asid && t.2.phases.any (fun p => meet p.base p.size base n))) ||
    s.pubs.any (fun p => p.2.asid = asid && p.2.lines.any (fun l => meet (256 * l.1) 256 base n))

/-- A matrix page that installation still has to move (R81): page k belongs in stack k mod 8, but for pages that placement never
moves (R31). -/
def misplaced (s : State) (m : Mangle) (data : List Span) : Bool :=
  (data.take (ceilDiv m.matrixBytes 65536)).zipIdx.any (fun p =>
    decide (stackOf (p.1.bytes s).1 ≠ p.2 % 8) && !immovable s m.asid p.1.1 p.1.2.2)

/-- A page of the mangle is on the move (R29, R31). -/
def onTheMove (s : State) (pages : List Span) : Bool :=
  s.moves.any (fun v => pages.any (fun p =>
    meet v.2.old (2 ^ v.2.lg) (p.page s).1 (p.page s).2 || meet v.2.new (2 ^ v.2.lg) (p.page s).1 (p.page s).2))

/-- Before a mangle lane reads words, the pins of their sectors end, and its class is entered in the table (R114, R115). -/
def State.mangleTouch (s : State) (words : List Nat) : State :=
  (dedup (words.map (fun w => w / 2))).foldl (fun s sec => s.engineTouch sec 4) s

/-- The agent of a mangle lane (R279). -/
def whoMangle (pcore : Nat) : Who :=
  { agent := 3, die := dieOfStack (pcore / 64), core := pcore % 256, slot := 0, group := 0, id := 0 }

/-- A mangle lane reads a column word (R46, R48): through the slice where that holds it, else directly from the array, where a
corrected one counts at the paddock core as well (R439), or from the tier, where poison is recorded (R18). -/
def State.laneWord (s : State) (w : Who) (p word : Nat) : State :=
  if (s.sector (word / 2)).st ≠ .inv then s
  else
    let corrected := decide (region (32 * word) = .hbm) && match s.mem.errors.find? word with
      | some e => decide (e ≤ 1) && !s.mem.fixes.contains word
      | none => false
    let s := s.tierWord w word
    if corrected then s.onPCore p (fun k => { k with pdce := (satInc (k.pdce.setWidth 32)).setWidth 64 }) else s

/-- The words of the matrix that counting its ESC elements reads (R79, R80): none where the format has none. -/
def Mangle.escWords (m : Mangle) (s : State) (data : List Span) : List Nat :=
  if isBlockFmt m.wfmt then
    (data.filter (fun p => decide (m.mbase ≤ p.1 ∧ p.1 < m.mbase + m.matrixBytes))).flatMap (fun p =>
      wordsOf (p.bytes s).1 (min p.2.1 (m.mbase + m.matrixBytes - p.1)))
  else []

/-- The lowest handle that no mangle holds (R433). -/
def freeHandle (s : State) : Nat := ((List.range 4096).find? (fun h => (s.mangles.find? h).isNone)).getD 0

/-- MNGI (R418). It is one step: where matrix pages have yet to reach their stacks, the path waits (log 20). -/
def execMngi (f : EngF) (s : State) : Out :=
  .next (s.issue [.s f.sd 1, .s f.sa 2] (fun x =>
    let va := x.pairVA f.sa
    if va % 64 ≠ 0 then s.trapAt x.a 6 0 0
    else if x.act = 0 then s.lookOperand x va 64 (fun bs => (mangleDesc (leNat bs)).isSome) (s.advance x.a)
    else
      s.readOperand x va 64 (fun bs s =>
        match mangleDesc (leNat bs) with
        | none => s.trapAt x.a 6 0 0
        | some m =>
          let park (e : Nat × Nat) (s : State) : State := s.parkIssue x.a e.1 0 m.asid e.2
          match s.spansOf x m.asid m.dataSpans with
          | (.error e, s) => park e s
          | (.ok data, s) =>
            match s.spansOf x m.asid [(m.xbase, 2 * m.xcount)] with
            | (.error e, s) => park e s
            | (.ok sides, s) =>
              match s.spansOf x m.asid m.winSpans with
              | (.error e, s) => park e s
              | (.ok wins, s) =>
                let answer (v : Nat) (s : State) : State := ((s.onG x (fun g => g.setS f.sd (BitVec.ofNat 32 v))).changed x.a).advance x.a
                let words := m.escWords s data
                let s := s.mangleTouch words
                -- The words that were counted have been read (R19).
                let counted (s : State) : State := words.foldl (fun s w => s.laneWord (whoMangle (paddockOf (32 * w))) (paddockOf (32 * w)) w) s
                match mngiCause s m x.t.sup x.t.asid wins data sides with
                | some c => answer (2 ^ 31 + c) (if c ≤ 5 then s else counted s)
                | none =>
                  if misplaced s m data || onTheMove s (wins ++ data ++ sides) then s.stallOn x.a 1
                  else
                    let s := counted s
                    let h := freeHandle s
                    let m := { m.bind s wins data sides with home := Config.mangleHome h % 192 }
                    answer h { s with mangles := s.mangles.set h m })))

/-- The checks of R419: the mangle, or the code of NOHANDLE or ASIDMIS. -/
def mangleOf (s : State) (x : Ctx) (v : W32) : Except Nat (Nat × Mangle) :=
  match s.mangles.find? v.toNat with
  | some m =>
    if 4096 ≤ v.toNat then .error 0x80000001
    else if m.asid ≠ x.t.asid ∧ !x.t.sup then .error 0x80000002 else .ok (v.toNat, m)
  | none => .error 0x80000001

/-- The access that waits is still to be made. -/
def WaitKey.live (s : State) : WaitKey → Bool
  | .copy core op unit => match (s.core core).copies.find? op with
    | some o => (match o.units.find? unit with | some .written => false | some .counted => false | _ => true)
    | none => false
  | .task n _ => match s.tasks.find? n with
    | some t => t.alive
    | none => false
  | .host fn seq => match s.fns.find? fn with
    | some f => f.reads.any (fun r => r.seq = seq)
    | none => false
  | .remote n => (s.received.find? n).isSome

/-- Loads that wait at the windows of a mangle (R95): those of engines, and of lanes. -/
def windowWaits (s : State) (m : Mangle) : Bool :=
  m.loads.any (fun e => e.1.live s) ||
  s.cores.any (fun c => c.2.slots.any (fun t => t.2.groups.any (fun g => g.2.ops.any (fun o => o.2.parts.any (fun p =>
    match p.st, p.xl with
    | .window _, some x => m.winPages.any (fun q => q.1 = x.pa / 65536)
    | _, _ => false)))))

/-- Steps 2 to 5 of R98, once the passes have ended: the windows are unbound and the handle is free. -/
def State.closeMangle (s : State) (h : Nat) : State :=
  match s.mangles.find? h with
  | none => s
  | some m =>
    match m.removing with
    | none => s
    | some (a, w) =>
      if m.asked || (List.range m.nslots).any (fun i => (m.slot i).latch.isSome) || windowWaits s m then s
      else ({ s with mangles := s.mangles.erase h }.endWork w).resultTo a w 0

/-- MNGU (R98, R419): what has not fired is discarded, and Sd is written once the mangle is gone; the group counts it in SM until
then (R417). -/
def execMngu (f : EngF) (s : State) : Out :=
  .next (s.issue [.s f.sd 1, .s f.sa 1] (fun x =>
    if x.act = 0 then s.advance x.a
    else
      match mangleOf s x (x.s f.sa) with
      | .error c => (s.onG x (fun g => g.setS f.sd (BitVec.ofNat 32 c))).advance x.a
      | .ok (h, m) =>
        if m.removing.isSome then s.stallOn x.a 1
        else
          let (w, s) := s.newWork 1
          let acks := m.slots.flatMap (fun p => p.2.held)
          let m := { m with removing := some (x.a, w),
                            slots := m.slots.map (fun (p : Nat × MSlot) => (p.1, { p.2 with bytes := [], pois := [], fire := false, held := [] })) }
          (((({ s with mangles := s.mangles.set h m }).letGo acks).changed x.a).enterOp x (Op.pending x 1 f.sd 1 w) f.la).closeMangle h))

/-- MNGF (R88, R89, R419): a fire request in the place of a store to FIRE. -/
def execMngf (f : EngF) (s : State) : Out :=
  .next (s.issue [.s f.sa 1, .s f.sb 1] (fun x =>
    match mangleOf s x (x.s f.sa) with
      | .error _ => s.trapAt x.a 6 0 0
      | .ok (h, m) =>
        let slot := (x.s f.sb).toNat
        if m.nslots ≤ slot ∨ m.removing.isSome then s.trapAt x.a 6 0 0
        else if x.act = 0 then s.advance x.a
        else
          let id := x.g.nextOp
          let accs := (laneList x.act).map (fun i => { LaneAcc.zero with lane := i, addr := 2 ^ 60 + 2048 * h + 64 * slot, width := 0 })
          let o (st : PartSt) : Op := Op.start x .store .global 4 .none [{ lanes := accs, st := st, xl := none }]
          let home := m.home
          if !({ x.g with ops := x.g.ops.set id (o .ready) } : Group).allows (s.physAt x.t.asid) id 0 then s.stallOn x.a 4
          else if !s.mayLog home (logId x.t x.a.group id 0) then s.stallOn x.a 4
          else ((s.logAt home (logId x.t x.a.group id 0)).enterOp x (o .done) f.la).fireRequest h slot (.part x.a.core x.a.slot x.a.group id 0)))

/-- One bit for each slot for which `p` holds. -/
def Mangle.mask (m : Mangle) (p : Nat → Bool) : Nat := bitsOf m.nslots p

/-- MNGS (R420). -/
def execMngs (f : EngF) (s : State) : Out :=
  .next (s.issue [.s f.sd 4, .s f.sa 1] (fun x =>
    let put (l : List Nat) : State :=
      (s.onG x (fun g => l.zipIdx.foldl (fun g w => g.setS (f.sd + w.2) (BitVec.ofNat 32 w.1)) g)).advance x.a
    match mangleOf s x (x.s f.sa) with
    | .error c => put [c, 0, 0, 0]
    | .ok (_, m) =>
      put [m.home * 2 ^ 8 + (m.nslots - 1) * 2 ^ 5 + b2n m.mode * 2 ^ 4 + b2n m.asked * 2 ^ 3 + (m.batch - 1),
           m.mask (fun i => (m.slot i).fire) * 2 ^ 16 + m.mask (fun i => m.full i) * 2 ^ 8 + m.mask (fun i => (m.slot i).latch.isSome),
           m.passes, m.firings]))

/-- The leave of a pass. -/
def passLeave (h : Nat) : LeaveAsk → Option Nat
  | .pass k w => if k = h then some w else none
  | _ => none

/-- PASS_START (R91): every governor asked has granted leave, and the lanes take up firing work (R45). -/
def execPassStart (handle : Nat) (s : State) : Out :=
  .next (match s.mangles.find? handle with
    | none => s
    | some m =>
      if !m.asked || m.pass || !m.weights.all (fun d => (s.die d.1).grants.any (fun a => (passLeave handle a).isSome)) then s
      else
        s.onMangle handle (fun m => { m with pass := true, badLanes := [] }))

/-- A governor has granted a pass its leave: with the last grant it takes its place at each of its lanes (R91). -/
def State.passGranted (s : State) (handle : Nat) : State :=
  match s.mangles.find? handle with
  | none => s
  | some m =>
    if m.weights.all (fun d => (s.die d.1).grants.any (fun a => (passLeave handle a).isSome)) then
      m.lanes.foldl (fun s p => s.onPCore p (fun k => { k with busy := k.busy ++ [handle] })) s
    else s

/-- A pass works on the lane of a paddock core (R45, R91). -/
def State.firing (s : State) (p : Nat) : Bool :=
  (s.pcore p).busy.any (fun h => match s.mangles.find? h with
    | some m => m.pass
    | none => false)

/-- Weights of row r in panel p as values (R92). -/
def Mangle.rowValues (m : Mangle) (byte : Nat → Byte) (p r esc : Nat) : List FVal :=
  let cs := List.range (m.columns p)
  if !isBlockFmt m.wfmt then cs.map (fun c => plainDecode m.wfmt (m.weight byte p r c))
  else
    let scale (b : Nat) : Nat := (byte (m.scaleAt p r b)).toNat
    (cs.foldl (fun (acc : Nat × List FVal) c =>
      let code := m.weight byte p r c
      let blk := c / 32
      let x0 := if m.wfmt = 6 then scale blk else scale (2 * blk)
      let x1 := if m.wfmt = 6 then 0 else scale (2 * blk + 1)
      let next := if isEsc m.wfmt code then acc.1 + 1 else acc.1
      let v := match blockDecode m.wfmt code x0 x1 with
        | .val v => v
        | .esc => if m.xcount ≤ acc.1 then .nan false else plainDecode 1 (leNat [byte (m.sideAt acc.1), byte (m.sideAt acc.1 + 1)])
      (next, v :: acc.2)) (esc, [])).2.reverse

/-- Words that row r reads: weights, scales, side-list entries (R93). -/
def Mangle.rowWords (m : Mangle) (byte : Nat → Byte) (r : Nat) : List Nat :=
  let ws := (List.range m.panels).flatMap (fun p => m.chunkWords p r)
  if !isBlockFmt m.wfmt then ws
  else
    let scales := (List.range m.panels).flatMap (fun p =>
      (List.range (ceilDiv (m.columns p) 32 * (m.scaleStep / 8))).map (fun b => m.scaleAt p r b / 32))
    let lo := m.escAbove byte r
    ws ++ scales ++ ((List.range (m.escIn byte r m.panels)).filter (fun i => decide (lo + i < m.xcount))).map (fun i => m.sideAt (lo + i) / 32)

/-- Element j of a latched vector (R92). -/
def Mangle.input (m : Mangle) (l : Latch) (j : Nat) : FVal :=
  plainDecode m.ifmt (leNat ((List.range m.isz).map (fun i => l.bytes.getD (m.isz * j + i) 0)))

/-- Result of row r for a vector (R92): its code in OFMT. -/
def Mangle.result (m : Mangle) (byte : Nat → Byte) (l : Latch) (r : Nat) : Nat :=
  let md : RMode := { rm := 0, ftz := false, satn := false }
  let part (p : Nat) : Nat :=
    let ws := m.rowValues byte p r (m.escAbove byte r + m.escIn byte r p)
    (fF32.roundVal md (exactSum (ws.zipIdx.map (fun w => (w.1.mul (m.input l (256 * p + w.2))).1)))).1
  let acc := (List.range (m.panels - 1)).foldl (fun a p =>
    (fF32.roundVal md ((fF32.decode false a).add 0 (fF32.decode false (part (p + 1)))).1).1) (part 0)
  if m.ofmt = 0 then acc else (fBF16.roundVal md (fF32.decode false acc)).1

/-- The output of a slot after a pass (R93, R94): `bad` rows are poisoned. -/
def MSlot.switchIn (x : MSlot) (m : Mangle) (l : Latch) (res : List Nat) (bad : List Nat) : MSlot :=
  let rows := if l.pois then List.range m.m else bad
  { x with latch := none, out := (res.flatMap (fun c => leBytes m.osz c)).zipIdx.map (fun b => (b.2, b.1)),
           outPois := dedup (rows.map (fun r => r * m.osz / 32)), outGen := l.gen, outMiss := l.miss,
           outPoisFlag := !rows.isEmpty, outForced := l.forced, outFilled := l.filled }

/-- A task waits at a window for a result (R95). -/
def State.atWindow (s : State) (task : Nat) : Bool :=
  s.mangles.any (fun m => m.2.loads.any (fun e => match e.1 with | .task n _ => n = task | _ => false))

/-- A paddock core owes bundles to its tasks before it takes up more firing work (R45), but for those that are parked, suspended or
wait for that work. -/
def State.owes (s : State) (p : Nat) : Bool :=
  decide ((s.pcore p).owed ≠ 0) && s.tasks.any (fun t => t.2.resident && t.2.pcore = p && decide (t.2.st ≠ .parked) && decide (t.2.st ≠ .parkedLoad) &&
    !s.dev.suspended.contains t.2.asid && !s.atWindow t.1)

/-- SWITCH_IN (R91 to R94, R99): a pass ends, once it is the first in the queue of each of its lanes, and the results of every slot
it carried come in at once. After it the mangle may fire again, or be gone. -/
def execSwitchIn (handle : Nat) (s : State) : Out :=
  .next (match s.mangles.find? handle with
    | none => s
    | some m =>
      if !m.pass then s.closeMangle handle
      else if s.dev.halt.isSome || m.lanes.any (fun p => s.owes p || decide ((s.pcore p).busy.head? ≠ some handle)) then s
      else
        let key := s.keys.find? m.key
        let weights := m.chunks.flatMap (fun c => m.chunkWords c.1 c.2)
        let s := s.mangleTouch weights
        let byte0 (a : Nat) : Byte := match key with
        | some k => s.mem.byteAt k a
        | none => 0
        let words := dedup ((List.range m.m).flatMap (fun r => m.rowWords byte0 r))
        let s := s.mangleTouch (words.filter (fun w => !weights.contains w))
        let byte (a : Nat) : Byte := match key with
        | some k => s.mem.byteAt k a
        | none => 0
        let s := words.foldl (fun s w => s.laneWord (whoMangle (paddockOf (32 * w))) (paddockOf (32 * w)) w) s
        let bad := (List.range m.m).filter (fun r => key.isNone ||
          (m.rowWords byte r).any s.mem.poison.contains ||
          (List.range m.panels).any (fun p => (m.chunkWords p r).any (fun w => m.badLanes.contains (paddockOf (32 * w)))))
        let slots := m.slots.map (fun (p : Nat × MSlot) =>
          match p.2.latch with
          | some l => if l.carried then (p.1, p.2.switchIn m l ((List.range m.m).map (fun r => m.result byte l r)) bad) else p
          | none => p)
        let m := { m with slots := slots, pass := false, asked := false, badLanes := [], passes := (m.passes + 1) % 2 ^ 32 }
        let s := { s with mangles := s.mangles.set handle m }
        let s := m.weights.foldl (fun s d => s.giveBack d.1 (passLeave handle)) s
        let s := m.lanes.foldl (fun s p => s.onPCore p (fun k => { k with busy := k.busy.filter (fun h => h ≠ handle), owed := 0 })) s
        (s.fireCheck handle).closeMangle handle)

end Sys2Proof.Machine
end

