-- ==== Sys2Proof/Machine/Bundle.lean ====
section
/-! DEFINITION. Paddock bundles (R50 to R74): which are legal, the memory accesses that they make, and what they do to the
task's registers. -/

namespace Sys2Proof.Machine

/-- Fields of the FETCH slot (R58). -/
def bFop (b : Nat) : Nat := bits b 119 116
/-- WD. -/
def bWd (b : Nat) : Nat := bits b 115 112
/-- GN of the FETCH slot. -/
def bGn (b : Nat) : Nat := bits b 111 109
/-- WA of FGTH. -/
def bWa (b : Nat) : Nat := bits b 108 105
/-- Opcode of the OP slot (R60). -/
def bOpc (b : Nat) : Nat := bits b 83 78
/-- TY, which is SEL of PSET. -/
def bTy (b : Nat) : Nat := bits b 77 75
/-- D. -/
def bD (b : Nat) : Nat := bits b 74 71
/-- A. -/
def bA (b : Nat) : Nat := bits b 70 67
/-- B. -/
def bB (b : Nat) : Nat := bits b 66 63
/-- C. -/
def bC (b : Nat) : Nat := bits b 62 59
/-- RM. -/
def bRm (b : Nat) : Nat := bits b 58 57
/-- IDX of PSET (R70). -/
def bIdx (b : Nat) : Nat := bits b 74 72
/-- WA of PSET. -/
def bPw (b : Nat) : Nat := bits b 71 68
/-- Opcode of the WB slot (R71). -/
def bWop (b : Nat) : Nat := bits b 35 32
/-- S of the WB slot. -/
def bS (b : Nat) : Nat := bits b 31 28
/-- GN of the WB slot. -/
def bWg (b : Nat) : Nat := bits b 27 25
/-- The control byte (R73). -/
def bCtl (b : Nat) : Nat := bits b 127 120
/-- The bundle loops. -/
def bLoop (b : Nat) : Bool := bit b 127
/-- The bundle branches. -/
def bPbr (b : Nat) : Bool := !bit b 127 && bits b 126 124 = 1

/-- The type is an integer type (R55). -/
def padInt (ty : Nat) : Bool := ty = 0 || ty = 4 || ty = 5
/-- Bits of a lane (R55). -/
def padWidth (ty : Nat) : Nat := if ty ≤ 1 then 32 else if ty = 5 then 8 else 16
/-- The format of a floating type (R55). -/
def padFmt (ty : Nat) : FFmt := match ty with | 2 => fBF16 | 3 => fF16 | _ => fF32

/-- The pairs of PCVT with operand Wa and a part (R66). -/
def cvtWiden (d s : Nat) : Bool := (d = 1 && (s = 2 || s = 3)) || (d = 0 && (s = 4 || s = 5))
/-- The pairs of PCVT with operands Wa and Wb (R66). -/
def cvtPair (d s : Nat) : Bool := (s = 1 && (d = 2 || d = 3)) || (d = 4 && s = 0)
/-- The pairs of PCVT between 32-bit types (R66). -/
def cvtSame (d s : Nat) : Bool := (d = 1 && s = 0) || (d = 0 && s = 1)

/-- The OP slot is legal (R51, R60 to R70, R73). PNOP with a non-zero TY is not (DESIGN CHOICE, log 101). -/
def opLegal (b : Nat) : Bool :=
  let ty := bTy b
  let rm0 := bRm b = 0
  let c0 := bC b = 0
  let b0 := bB b = 0
  let x0 := bits b 56 36 = 0
  let rounds := !padInt ty || rm0
  let arith := decide (ty ≤ 5) && rounds && bits b 55 36 = 0 && (padInt ty || !bit b 56)
  let bitwise := ty = 0 && rm0 && x0
  if bPbr b then
    let cnd := bits b 74 72
    decide (cnd ≤ 4) && (bits b 71 70 = 0 || cnd = 1 || cnd = 2) && (bits b 69 66 = 0 || cnd = 3 || cnd = 4) && bits b 65 36 = 0
  else
    match bOpc b with
    | 0x00 => bits b 83 36 = 0
    | 0x01 => arith && c0
    | 0x02 => arith && c0
    | 0x03 => arith
    | 0x04 => decide (ty ≤ 5) && rm0 && c0 && x0
    | 0x05 => decide (ty ≤ 5) && rm0 && c0 && x0
    | 0x06 => bitwise && c0
    | 0x07 => bitwise && c0
    | 0x08 => bitwise && c0
    | 0x09 => ty = 0 && rm0 && c0 && bits b 51 36 = 0 && (bits b 56 52 ≠ 0 || b0)
    | 0x0A =>
      let s := bits b 56 54
      let p := bits b 53 52
      c0 && bits b 51 36 = 0 &&
        ((cvtWiden ty s && b0 && rm0 && (s = 5 || decide (p ≤ 1))) || (cvtPair ty s && p = 0 && (ty ≠ 4 || rm0)) ||
          (cvtSame ty s && b0 && p = 0))
    | 0x0B =>
      let p := bits b 56 55
      decide (ty ≤ 5) && rounds && bits b 74 73 = 0 && c0 && bits b 53 36 = 0 && decide (256 / padWidth ty * (p + 1) ≤ 32) &&
        (!bit b 54 || b0)
    | 0x0C =>
      decide (ty ≤ 1) && bits b 70 69 = 0 && b0 && c0 && bits b 53 36 = 0 && (!bit b 54 || bits b 56 55 = 0) &&
        (rm0 || (bit b 54 && ty = 1))
    | 0x0D => bitwise
    | 0x0E => decide (ty ≤ 5) && rm0 && c0 && decide (bits b 56 54 ≤ 5) && bits b 53 36 = 0
    | 0x0F => bitwise && b0 && c0
    | 0x10 => bitwise && bits b 74 73 = 0 && bA b = 0 && b0 && c0
    | 0x11 =>
      decide (ty ≤ 5) && ((ty ≠ 3 && ty ≠ 5) || decide (bIdx b ≤ 3)) && (4 ≤ ty || bPw b = 0) &&
        (if 4 ≤ ty then bits b 65 36 = 0 else ty = 0 || bits b 67 52 = 0)
    | _ => false

/-- The OP slot writes a W register. -/
def opWritesW (b : Nat) : Bool := !bPbr b && ((1 ≤ bOpc b && bOpc b ≤ 0xA) || (0xC ≤ bOpc b && bOpc b ≤ 0xF))

/-- Generators used by the slots, one for each use (R53). -/
def gensUsed (b : Nat) : List Nat :=
  (if bFop b = 1 ∨ bFop b = 2 then [bGn b] else []) ++ (if bWop b ≠ 0 then [bWg b] else []) ++
  (if !bPbr b && bOpc b = 0x11 && [0, 1, 2, 4].contains (bTy b) then [bIdx b] else [])

/-- A bundle is legal (R51, R53). -/
def bundleLegal (b : Nat) : Bool :=
  let fetch := bits b 104 84 = 0 && (match bFop b with
    | 0 => bits b 115 105 = 0
    | 1 => bWa b = 0
    | 2 => bWa b = 0
    | 3 => bGn b = 0
    | _ => false)
  let wb := bits b 13 0 = 0 && (match bWop b with
    | 0 => bits b 31 14 = 0
    | 1 => bits b 24 17 ≠ 0 && bits b 16 14 = 0
    | 2 => bits b 24 15 = 0
    | 3 => bits b 31 30 = 0 && bits b 24 17 = 0 && !bit b 14
    | _ => false)
  let ctl := bLoop b || (decide (bits b 126 124 ≤ 3) && bits b 123 120 = 0)
  let gs := gensUsed b
  fetch && wb && ctl && opLegal b && !(opWritesW b && bFop b ≠ 0 && bD b = bWd b) && decide ((dedup gs).length = gs.length) &&
  !(bLoop b && bOpc b = 0x11 && (bTy b = 3 || bTy b = 5) && bIdx b = bits b 126 125)

/-- W register n. -/
def PadRegs.wreg (r : PadRegs) (n : Nat) : W256 := r.w.getD n 0
/-- Row j of accumulator n. -/
def PadRegs.row (r : PadRegs) (n j : Nat) : W32 := r.z.getD (32 * n + j) 0
/-- Address of generator n. -/
def PadRegs.addrOf (r : PadRegs) (n : Nat) : Nat := r.gAddr.getD n 0
/-- Count of generator n. -/
def PadRegs.countOf (r : PadRegs) (n : Nat) : Nat := r.gCount.getD n 0
/-- Stride of generator n. -/
def PadRegs.strideOf (r : PadRegs) (n : Nat) : Nat := r.gStride.getD n 0
/-- Counter n. -/
def PadRegs.ctr (r : PadRegs) (n : Nat) : Nat := r.c.getD n 0
/-- 32-bit lane i of W register n. -/
def PadRegs.lane (r : PadRegs) (n i : Nat) : Nat := (r.wreg n).toNat / 2 ^ (32 * i) % 2 ^ 32
/-- Poison bit of W register n. -/
def PadRegs.wp (r : PadRegs) (n : Nat) : Bool := r.wPois.contains n
/-- Poison bit q of accumulator n. -/
def PadRegs.zp (r : PadRegs) (n q : Nat) : Bool := r.zPois.contains (4 * n + q)

/-- Write W register n with its poison. -/
def PadRegs.setW (r : PadRegs) (n : Nat) (x : W256) (pois : Bool) : PadRegs :=
  { r with w := r.w.set n x, wPois := if pois then n :: r.wPois.filter (fun q => q ≠ n) else r.wPois.filter (fun q => q ≠ n) }

/-- One access of a bundle. -/
inductive PadAcc where
  | read (va n : Nat)
  | write (bs : Tab Byte) (pois : Bool)
  | add (va : Nat) (f32 : Bool) (val : Nat) (pois : Bool)
  deriving DecidableEq, Repr

/-- The address of an access. -/
def PadAcc.va : PadAcc → Nat
  | .read va _ => va
  | .write bs _ => (bs.headD (0, 0)).1
  | .add va _ _ _ => va
/-- What it is to translation. -/
def PadAcc.acc : PadAcc → Acc
  | .read _ _ => .load
  | .write _ _ => .store
  | .add _ _ _ _ => .atomic

/-- Effective address (R34). -/
def padVa (base off : Nat) : Nat := (base + off) % 2 ^ 57

/-- Accesses of the FETCH slot (R54, R59). -/
def fetchAccs (b : Nat) (r : PadRegs) (base : Nat) : List PadAcc :=
  match bFop b with
  | 1 => if r.countOf (bGn b) = 0 then [] else [.read (padVa base (r.addrOf (bGn b)) / 32 * 32) 32]
  | 2 => if r.countOf (bGn b) = 0 then [] else [.read (padVa base (r.addrOf (bGn b)) / 4 * 4) 4]
  | 3 => (List.range 8).map (fun i => .read (padVa base (r.lane (bWa b) i) / 4 * 4) 4)
  | _ => []

/-- Accesses of the WB slot (R54, R71). -/
def wbAccs (b : Nat) (r : PadRegs) (base : Nat) : List PadAcc :=
  if bWop b = 0 ∨ r.countOf (bWg b) = 0 then []
  else
    let va := padVa base (r.addrOf (bWg b)) / 32 * 32
    match bWop b with
    | 1 =>
      let lanes := (List.range 8).filter (fun i => bit b (17 + i))
      [.write (lanes.flatMap (fun i => (leBytes 4 (r.lane (bS b) i)).zipIdx.map (fun p => (va + 4 * i + p.2, p.1)))) (r.wp (bS b))]
    | 2 => (List.range 8).map (fun i => .add (va + 4 * i) (bit b 14) (r.lane (bS b) i) (r.wp (bS b)))
    | _ =>
      let g := bits b 16 15
      [.write ((List.range 8).flatMap (fun i => (leBytes 4 (r.row (bits b 29 28) (8 * g + i)).toNat).zipIdx.map (fun p => (va + 4 * i + p.2, p.1))))
        (r.zp (bits b 29 28) g)]

/-- The bundle uses a poisoned value as an address, a count or a condition (R57). -/
def poisonUse (b : Nat) (r : PadRegs) : Bool :=
  (bFop b = 3 && r.wp (bWa b)) || (!bPbr b && bOpc b = 0x11 && decide (4 ≤ bTy b) && r.wp (bPw b)) ||
  (bPbr b && (bits b 74 72 = 3 || bits b 74 72 = 4) && r.wp (bits b 69 66))

/-- Lane i of a word for a type. -/
def padLane (ty : Nat) (x : W256) (i : Nat) : Nat := x.toNat / 2 ^ (padWidth ty * i) % 2 ^ padWidth ty
/-- A word from lanes of w bits. -/
def padPack (w : Nat) (f : Nat → Nat) : W256 :=
  BitVec.ofNat 256 ((List.range (256 / w)).foldr (fun i acc => f i % 2 ^ w + 2 ^ w * acc) 0)

/-- The rounding of an OP (R56). -/
def padMode (b : Nat) : RMode := { rm := bRm b, ftz := false, satn := false }

/-- One lane of PADD, PMUL, PFMA (R63). -/
def padArith (b x y z : Nat) : Nat :=
  let ty := bTy b
  let w := padWidth ty
  if padInt ty then
    let v : Int := match bOpc b with
      | 1 => signed w x + signed w y
      | 2 => signed w x * signed w y
      | _ => signed w x * signed w y + signed w z
    wrap w (if bit b 56 then clamp v (-(2 ^ (w - 1) : Nat)) ((2 ^ (w - 1) : Nat) - 1) else v)
  else
    let f := padFmt ty
    let d (c : Nat) : FVal := f.decode false c
    let v := match bOpc b with
      | 1 => ((d x).add (bRm b) (d y)).1
      | 2 => ((d x).mul (d y)).1
      | _ => (FVal.fma (bRm b) (d x) (d y) (d z)).1
    (f.roundVal (padMode b) v).1

/-- One lane of PMAX and PMIN (R63). -/
def padMinMax (ty : Nat) (max : Bool) (x y : Nat) : Nat :=
  let w := padWidth ty
  if padInt ty then (if decide (signed w x < signed w y) = max then y else x) else ((padFmt ty).minmax false max x y).1

/-- One lane of PCMP (R65). -/
def padCmp (ty cc x y : Nat) : Bool :=
  let w := padWidth ty
  if padInt ty then ccHolds cc (compare (signed w x) (signed w y))
  else
    let a := (padFmt ty).decode false x
    let b := (padFmt ty).decode false y
    if a.isNan || b.isNan then cc = 1 else ccHolds cc (a.cmp b)

/-- PCVT (R66). -/
def padCvt (b : Nat) (x y : W256) : W256 :=
  let d := bTy b
  let s := bits b 56 54
  let md := padMode b
  if cvtWiden d s then
    padPack 32 (fun i =>
      let v := padLane s x (8 * bits b 53 52 + i)
      if d = 1 then (fF32.roundVal md ((padFmt s).decode false v)).1 else wrap 32 (signed (padWidth s) v))
  else if cvtPair d s then
    padPack 16 (fun i =>
      let v := if i < 8 then padLane s x i else padLane s y (i - 8)
      if d = 4 then wrap 16 (clamp (signed 32 v) (-32768) 32767) else ((padFmt d).roundVal md (fF32.decode false v)).1)
  else
    padPack 32 (fun i =>
      let v := padLane s x i
      if d = 1 then (fF32.roundVal md (FVal.ofInt (signed 32 v))).1 else ((fF32.decode false v).convInt (bRm b) 32 true).1)

/-- A row of PDOT (R67). -/
def padDot (b : Nat) (z : W32) (x y : Nat) : W32 :=
  let ty := bTy b
  let w := padWidth ty
  let one := bit b 54
  if padInt ty then
    BitVec.ofNat 32 (wrap 32 ((z.toNat : Int) + signed w x * (if one then 1 else signed w y)))
  else
    let f := padFmt ty
    let v := (FVal.fma (bRm b) (f.decode false x) (if one then .fin false 1 0 else f.decode false y) (fF32.decode false z.toNat)).1
    BitVec.ofNat 32 (fF32.roundVal (padMode b) v).1

/-- The sum of PRED (R68). -/
def padSum (b : Nat) (r : PadRegs) (n : Nat) : Nat :=
  (List.range 31).foldl (fun acc j =>
    let x := (r.row n (j + 1)).toNat
    if bTy b = 0 then (acc + x) % 2 ^ 32
    else (fF32.roundVal (padMode b) ((fF32.decode false acc).add (bRm b) (fF32.decode false x)).1).1) (r.row n 0).toNat

/-- The W result of an OP that writes a W register (R63 to R68). -/
def opW (b : Nat) (r : PadRegs) : W256 :=
  let x := r.wreg (bA b)
  let y := r.wreg (bB b)
  let z := r.wreg (bC b)
  let ty := bTy b
  let w := padWidth ty
  match bOpc b with
  | 0x01 => padPack w (fun i => padArith b (padLane ty x i) (padLane ty y i) 0)
  | 0x02 => padPack w (fun i => padArith b (padLane ty x i) (padLane ty y i) 0)
  | 0x03 => padPack w (fun i => padArith b (padLane ty x i) (padLane ty y i) (padLane ty z i))
  | 0x04 => padPack w (fun i => padMinMax ty true (padLane ty x i) (padLane ty y i))
  | 0x05 => padPack w (fun i => padMinMax ty false (padLane ty x i) (padLane ty y i))
  | 0x06 => x &&& y
  | 0x07 => x ||| y
  | 0x08 => x ^^^ y
  | 0x09 => BitVec.ofNat 256 ((x.toNat + 2 ^ 256 * (if bits b 56 52 = 0 then 0 else y.toNat)) / 2 ^ (8 * bits b 56 52))
  | 0x0A => padCvt b x y
  | 0x0C =>
    let n := bits b 68 67
    if bit b 54 then BitVec.ofNat 256 (padSum b r n) else padPack 32 (fun i => (r.row n (8 * bits b 56 55 + i)).toNat)
  | 0x0D => (x &&& z) ||| (y &&& ~~~ z)
  | 0x0E => padPack w (fun i => if padCmp ty (bits b 56 54) (padLane ty x i) (padLane ty y i) then 2 ^ w - 1 else 0)
  | _ => padPack 32 (fun i => ((List.range 32).filter (fun j => bit (padLane 0 x i) j)).length)

/-- The OP that writes a W register reads poison (R57). -/
def opWPois (b : Nat) (r : PadRegs) : Bool :=
  let n := bits b 68 67
  match bOpc b with
  | 0x0C => if bit b 54 then (List.range 4).any (fun q => r.zp n q) else r.zp n (bits b 56 55)
  | 0x03 => r.wp (bA b) || r.wp (bB b) || r.wp (bC b)
  | 0x0D => r.wp (bA b) || r.wp (bB b) || r.wp (bC b)
  | 0x09 => r.wp (bA b) || (bits b 56 52 ≠ 0 && r.wp (bB b))
  | 0x0A => r.wp (bA b) || (cvtPair (bTy b) (bits b 56 54) && r.wp (bB b))
  | 0x0F => r.wp (bA b)
  | _ => r.wp (bA b) || r.wp (bB b)

/-- What the OP slot writes, read from the registers before the bundle `r` (R60 to R70). -/
def opApply (b : Nat) (r new : PadRegs) : PadRegs :=
  if bPbr b then new
  else if opWritesW b then new.setW (bD b) (opW b r) (opWPois b r)
  else
    let zd := bits b 72 71
    let imm := bits b 67 36
    let k := bits b 67 66
    let i := bIdx b
    match bOpc b with
    | 0x0B =>
      let l := 256 / padWidth (bTy b)
      let p := bits b 56 55
      let rows := (List.range l).map (fun j => (32 * zd + l * p + j,
        padDot b (r.row zd (l * p + j)) (padLane (bTy b) (r.wreg (bA b)) j) (padLane (bTy b) (r.wreg (bB b)) j)))
      let groups := (List.range (l / 8)).map (fun q => l * p / 8 + q)
      let bad := r.wp (bA b) || (!bit b 54 && r.wp (bB b)) || groups.any (fun q => r.zp zd q)
      { new with z := rows.foldl (fun m p => m.set p.1 p.2) new.z,
                 zPois := if bad then dedup (groups.map (fun q => 4 * zd + q) ++ new.zPois) else new.zPois }
    | 0x10 =>
      { new with z := (List.range 32).foldl (fun m j => m.set (32 * zd + j) 0) new.z,
                 zPois := new.zPois.filter (fun q => q / 4 ≠ zd) }
    | 0x11 =>
      match bTy b with
      | 0 => { new with gAddr := new.gAddr.set i imm }
      | 1 => { new with gStride := new.gStride.set i (imm % 2 ^ 16) }
      | 2 => { new with gCount := new.gCount.set i (imm % 2 ^ 16) }
      | 3 => { new with c := new.c.set i (imm % 2 ^ 16) }
      | 4 => { new with gAddr := new.gAddr.set i ((r.lane (bPw b) (2 * k) + 2 ^ 32 * r.lane (bPw b) (2 * k + 1)) % 2 ^ 48) }
      | _ => { new with c := new.c.set i (r.lane (bPw b) k % 2 ^ 16) }
    | _ => new

/-- Step a generator after its use (R54). -/
def genStep (r new : PadRegs) (n : Nat) : PadRegs :=
  if r.countOf n = 0 then new
  else
    { new with gAddr := new.gAddr.set n (wrap 48 ((r.addrOf n : Int) + signed 16 (r.strideOf n))),
               gCount := new.gCount.set n (r.countOf n - 1) }

/-- What the FETCH slot writes, from what its accesses read (R57, R59). -/
def fetchApply (b : Nat) (r new : PadRegs) (got : List (Nat × Bool)) : PadRegs :=
  let pois := got.any (fun g => g.2)
  let v := (got.headD (0, false)).1
  match bFop b with
  | 1 => genStep r (new.setW (bWd b) (BitVec.ofNat 256 v) pois) (bGn b)
  | 2 => genStep r (new.setW (bWd b) (padPack 32 (fun _ => v)) pois) (bGn b)
  | 3 => new.setW (bWd b) (padPack 32 (fun i => (got.getD i (0, false)).1)) pois
  | _ => new

/-- What comes after a bundle: the task goes on, or ends (R74): by PRET, by PHALT. -/
inductive PadNext where
  | go
  | pret
  | phalt
  deriving DecidableEq, Repr

/-- The control step (R74): the next PC and counters. PC - D and PC + 1 are taken modulo 512 (DESIGN CHOICE, log 100). -/
def ctlApply (b : Nat) (r new : PadRegs) : PadNext × PadRegs :=
  let step (pc : Nat) (x : PadRegs) : PadRegs := { x with pc := pc % 512, ord := (r.ord + 1) % 2 ^ 32 }
  if bLoop b then
    let n := bits b 126 125
    if r.ctr n = 0 then (.go, step (r.pc + 1) new)
    else (.go, step (r.pc + 512 - bits b 124 120) { new with c := new.c.set n (r.ctr n - 1) })
  else if bPbr b then
    let holds := match bits b 74 72 with
      | 0 => true
      | 1 => r.ctr (bits b 71 70) = 0
      | 2 => r.ctr (bits b 71 70) ≠ 0
      | 3 => r.lane (bits b 69 66) 0 = 0
      | _ => r.lane (bits b 69 66) 0 ≠ 0
    (.go, step (if holds then bits b 83 75 else r.pc + 1) new)
  else match bits b 126 124 with
    | 2 => (.pret, step (r.pc + 1) new)
    | 3 => (.phalt, step (r.pc + 1) new)
    | _ => (.go, step (r.pc + 1) new)

/-- A bundle whose accesses have all performed (R52): `got` is what they read, the FETCH slot's first. -/
def bundleDone (b : Nat) (r : PadRegs) (base : Nat) (got : List (Nat × Bool)) : PadNext × PadRegs :=
  let new := fetchApply b r r (got.take (fetchAccs b r base).length)
  let new := opApply b r new
  let new := if bWop b = 0 then new else genStep r new (bWg b)
  ctlApply b r new

end Sys2Proof.Machine
end

