-- ==== Sys2Proof/Machine/Paddock.lean ====
section
/-! DEFINITION. Paddock tasks (R33 to R49): admission to a core, loading, bundle issue with its accesses, saving and resuming,
how they end, and their completion. -/

namespace Sys2Proof.Machine

/-- A task that its core may run at the next bundle boundary (R44). -/
def Task.ready (t : Task) : Bool :=
  match t.st with
  | .admitted => true
  | .running => true
  | .saved => true
  | _ => false

/-- Rank of R44: PGO tasks, then PRIO, then the earlier admission. -/
def Task.outranks (a b : Task) : Bool :=
  if a.pgo != b.pgo then a.pgo
  else if !a.pgo && a.prio ≠ b.prio then decide (b.prio < a.prio)
  else decide (a.order < b.order)

/-- No ready task of the core outranks it. The tasks of a suspended ASID have given up the core (R45). -/
def State.best (s : State) (n : Nat) (t : Task) : Bool :=
  s.tasks.all (fun o => o.1 = n || !o.2.ready || s.dev.suspended.contains o.2.asid || o.2.pcore ≠ t.pcore || !o.2.outranks t)

/-- The core holds its leave (R273). -/
def State.padLeave (s : State) (p : Nat) : Bool :=
  (s.die (dieOfStack (p / 64))).grants.any (fun a => a = .paddock p)

/-- The core's column port and clock let a bundle issue (R45). -/
def State.padFree (s : State) (p : Nat) : Bool :=
  s.dev.halt.isNone && (!s.firing p || decide ((s.pcore p).owed ≠ 0))

/-- The translation that a paddock core finds for a page: in its TLB, or, while the page is being moved piece by piece, in the L2
TLB of its die (R29, R47). -/
def State.padEntry (s : State) (t : Task) (va : Nat) : Option TlbEntry :=
  if movingPage s t.asid va then tlbHit (s.die (dieOfStack (t.pcore / 64))).tlb t.asid va else tlbHit (s.pcore t.pcore).tlb t.asid va

/-- A walk by the stack's walker (R47): it fills the core's TLB, or gives the KIND of a fault. -/
def State.padWalk (s : State) (t : Task) (va : Nat) : Option Nat × State :=
  let k := t.pcore / 64
  let s := s.walkFills t.who (s.stack k).walk t.asid va
  match walk s (s.stack k).walk t.asid va with
  | .error f => (some f.kind, s.logWalk t.who f)
  | .ok (e, seen) =>
    let s := if movingPage s t.asid va then s.onDie (dieOfStack k) (fun d => { d with tlb := tlbPut d.tlb 32768 e })
      else s.onPCore t.pcore (fun c => { c with tlb := tlbPut c.tlb 32 e })
    (none, s.onStack k (fun c => { c with walk := seen ++ c.walk.filter (fun x => !seen.contains x) }))

/-- The lowest of a core's 16 save slots that holds no task (R45). -/
def State.saveSlot (s : State) (p : Nat) : Nat :=
  ((List.range 16).find? (fun i => !s.tasks.any (fun t => t.2.resident && t.2.pcore = p && t.2.save = some i))).getD 0

/-- A task leaves the core at a bundle boundary (R45): its state is in a save slot, whose bytes nothing else can reach (log 104). -/
def State.saveTask (s : State) (n : Nat) (t : Task) (st : TaskSt) : State :=
  let slot := s.saveSlot t.pcore
  (s.onTask n (fun t => { t with st := st, got := [], sent := false, flight := none, refetch := [], save := some slot })).onPCore t.pcore
    (fun k => { k with current := if k.current = some n then none else k.current })

/-- Park a task on a fault (R47): it is saved. -/
def State.parkTask (s : State) (n : Nat) (t : Task) (st : TaskSt) (kind acc va : Nat) : State :=
  (s.parkFault t.who (1000 + t.pcore / 64) kind acc t.asid va).saveTask n t st

/-- The line lies in the core's own pseudo-channel, and no slice holds it (R46). -/
def State.direct (s : State) (t : Task) (pa : Nat) : Bool :=
  region pa = .hbm && decide (paddockOf pa = t.pcore) && (windowAt s pa).isNone &&
    (List.range 4).all (fun i => decide ((s.sector (pa / 256 * 4 + i)).st = .inv))

/-- A read that goes directly to the array (R46, R48). `slot` says that it is one of a FETCH slot, whose corrected words the core
counts (R439). -/
def State.directRead (s : State) (t : Task) (key : KeyPair) (pa n : Nat) (slot : Bool) : (List Byte × List Nat) × State :=
  let s := (wordsOf pa n).foldl (fun s w => if slot then s.laneWord t.who t.pcore w else s.tierWord t.who w) s
  ((s.mem.read key pa n, (wordsOf pa n).filter s.mem.poison.contains), s)

/-- A paddock read of n bytes of one column word (R46): its value and its poison. None while it must wait at a mangle's window. -/
def State.padRead (s : State) (id : Nat) (t : Task) (x : Xlat) (key : KeyPair) (n : Nat) (slot : Bool) : Option (Nat × Bool) × State :=
  let value (r : List Byte × List Nat) : Nat × Bool := (leNat r.1, !r.2.isEmpty)
  if s.direct t x.pa then
    let (r, s) := s.directRead t key x.pa n slot
    (some (value r), s)
  else
    match s.engineLoad t.who 2 x key n (.task id t.got.length) with
    | (some r, s) => (some (value r), s)
    | (none, s) => (none, s)

/-- A remote access of a task is sent (R46, R227): read, write or add. -/
def State.padSend (s : State) (n : Nat) (t : Task) (a : PadAcc) (x : Xlat) : SendOut :=
  let (what, w, data, ty) : Nat × Nat × Nat × Ty := match a with
    | .read _ k => (0, k, 0, .b32)
    | .write bs _ => (1, bs.length, 0, .b32)
    | .add _ f v _ => (2, 4, v, if f then .f32 else .i32)
  let (bs, pois) : Tab Byte × Bool := match a with
    | .read _ _ => ([], false)
    | .write bs pois => (bs.map (fun (b : Nat × Byte) => (x.pa % 2 ^ 40 + (b.1 - a.va), b.2)), pois)
    | .add _ _ _ pois => ([], pois)
  sendRemote s
    { what := what, device := bits x.pa 49 40, offset := x.pa % 2 ^ 40, key := x.key, aop := 0, ty := ty,
      acc := { LaneAcc.zero with addr := x.pa, width := w, data := data }, bytes := bs, pois := if pois then [x.pa % 2 ^ 40 / 32] else [],
      path := 0, seq := 0, port := 0, origin := t.who, answer := .task n, ofr := false, grp := (1000 + t.pcore, 0, 0), performed := false }

/-- What loading comes to. -/
inductive LoadOut where
  | ok (words : List (Nat × Bool)) (s : State)
  | fault (kind acc va : Nat) (s : State)
  | bad (kind pa : Nat) (s : State)
  /-- The bundle of a slot is poisoned (R48). -/
  | poison (slot : Nat) (s : State)
  | wait (s : State)
  deriving DecidableEq, Repr

/-- Read the words that a task is loaded with (R39), bundles (true) as instruction fetches and argument words, after those that have
been read. What lies on another device is requested there (R46). -/
def State.padLoad (s : State) (n : Nat) (t : Task) : List (Bool × Nat) → List (Nat × Bool) → LoadOut
  | [], acc => .ok acc s
  | (code, va) :: rest, acc =>
    let len := if code then 16 else 32
    let hold (s : State) : LoadOut := .wait (s.onTask n (fun t => { t with got := acc }))
    if t.sent || frozenAt s t.asid va then hold s
    else
      let (miss, s) := match s.padEntry t va with
        | some _ => (none, s)
        | none => s.padWalk t va
      match miss, s.padEntry t va with
      | some kind, _ => .fault kind (if code then 3 else 5) va s
      | none, none => hold s
      | none, some e =>
        match applyEntry s e va (if code then .fetch else .load) t.sup false with
        | .fault kind => .fault kind (if code then 3 else 5) va s
        | .ok x =>
          if region x.pa = .remote then
            match s.padSend n t (.read va len) x with
            | .noPath => .bad 6 x.pa s
            | .full => hold s
            | .sent s => .wait (s.onTask n (fun t => { t with got := acc, sent := true }))
          else if region x.pa ≠ .hbm ∧ region x.pa ≠ .tier then .bad 6 x.pa s
          else
            match s.keys.find? x.key with
            | none => .bad 5 x.pa s
            | some key =>
              match s.padRead n { t with got := acc } x key len false with
              | (none, s) => hold s
              | (some r, s) =>
                if code && r.2 then .poison acc.length s else State.padLoad s n t rest (acc ++ [r])

/-- A task meets a hole or an empty key slot (R52): one record, and an error end. -/
def State.padHole (s : State) (n : Nat) (t : Task) (kind pa : Nat) : State := (s.log23 t.who kind pa).endError n 8 0

/-- The bundles of a task (R39), from slot `first` on. -/
def Task.codeWords (t : Task) (first n : Nat) : List (Bool × Nat) :=
  (List.range n).map (fun i => (true, (t.entry + 16 * (first + i)) % 2 ^ 57))
/-- Its argument words (R39). -/
def Task.argWords (t : Task) : List (Bool × Nat) :=
  (List.range (if t.pgo then 0 else t.argn)).map (fun i => (false, (t.argva + 32 * i) % 2 ^ 57))

/-- The first bundle that another device has answered with poison. -/
def poisonedCode (items : List (Bool × Nat)) (got : List (Nat × Bool)) : Option Nat :=
  (items.zip got).findIdx? (fun w => w.1.1 && w.2.2)

/-- Load words for a task (R39, R48), from slot `first` on: then `act`. A fault parks it. -/
def State.loadWords (s : State) (n : Nat) (t : Task) (items : List (Bool × Nat)) (first : Nat) (parked : TaskSt)
    (act : List (Nat × Bool) → State → State) : State :=
  match (match poisonedCode items t.got with
    | some i => LoadOut.poison i s
    | none => s.padLoad n t (items.drop t.got.length) t.got) with
  | .wait s => s
  | .fault kind acc va s => s.parkTask n t parked kind acc va
  | .bad kind pa s => s.padHole n t kind pa
  | .poison i s => (s.onTask n (fun t => { t with regs := { t.regs with pc := first + i } })).endError n 2 0
  | .ok ws s => act ws (s.onTask n (fun t => { t with got := [], sent := false }))

/-- The buffer that words read as bundles fill, from slot `first` on. -/
def bundlesOf (first : Nat) (ws : List (Nat × Bool)) : Tab (BitVec 128) := ws.zipIdx.map (fun w => (first + w.2, BitVec.ofNat 128 w.1.1))

/-- The pin of a task that waits (R38): its core, or none where it lies nowhere. -/
def pinCore (core pa : Nat) : Option Nat :=
  match region pa with
  | .hbm => some (paddockOf pa)
  | .tier => some ((dieOf core * 4 + bits pa 21 20) * 64 + pchOf pa)
  | _ => none

/-- Tasks of a kind that a core holds (R44). -/
def State.padCount (s : State) (p : Nat) (pgo : Bool) : Nat :=
  (s.tasks.filter (fun t => t.2.resident && t.2.pcore = p && t.2.pgo = pgo)).length

/-- An earlier task stands before it in the distributor of its die (R38, R44). -/
def State.queuedBehind (s : State) (t : Task) : Bool :=
  s.tasks.any (fun o => decide (o.2.order < t.order) && o.2.pgo = t.pgo && decide (dieOf o.2.site.core = dieOf t.site.core) &&
    (decide (o.2.st = .waiting) || (decide (o.2.st = .parkedPin) && decide (o.2.work = t.work))))

/-- A task takes a slot of its core (R44), which asks for leave where it was idle (R273). -/
def State.admitTask (s : State) (n : Nat) (p : Nat) : State :=
  let die := dieOfStack (p / 64)
  let d := s.die die
  let held := d.asks.any (fun a => a = .paddock p) || d.grants.any (fun a => a = .paddock p)
  let s := if held then s else s.onDie die (fun d => { d with asks := d.asks ++ [.paddock p] })
  { s.onTask n (fun t => { t with st := .admitted, pcore := p, order := s.ageCtr }) with ageCtr := s.ageCtr + 1 }

/-- TASK_ADMIT (R38, R44). The pin is translated with load permission (DESIGN CHOICE, log 99). -/
def execTaskAdmit (task : Nat) (s : State) : Out :=
  .next (match s.tasks.find? task with
    | none => s
    | some t =>
      if t.st ≠ .waiting || s.queuedBehind t || s.dev.halt.isSome then s
      else if t.pgo then (if 4 ≤ s.padCount t.pcore true then s else s.admitTask task t.pcore)
      else
        let va := (t.pin + t.t * t.stride) % 2 ^ 57
        if frozenAt s t.asid va then s
        else
          let w : Who := { agent := 2, die := dieOf t.site.core, core := 0, slot := 0, group := 0, id := 0 }
          match s.xlate w t.site.core t.asid va .load t.sup false with
          | (.fault kind, s) =>
            (s.parkFault w t.site.core kind 5 t.asid va).onTask task (fun t => { t with st := .parkedPin })
          | (.ok x, s) =>
            match pinCore t.site.core x.pa with
            | none => s.endError task 5 0
            | some p => if 12 ≤ s.padCount p false then s else s.admitTask task p)

/-- Registers of a task at its start (R39, R41). -/
def Task.startRegs (t : Task) (args : List (Nat × Bool)) : PadRegs :=
  if t.pgo then { PadRegs.init with w := t.shipped.zipIdx.map (fun x => (x.2, x.1)) }
  else
    { PadRegs.init with
      w := args.zipIdx.map (fun x => (x.2, BitVec.ofNat 256 x.1.1)),
      wPois := (args.zipIdx.filter (fun x => x.1.2)).map (fun x => x.2),
      gAddr := [(0, t.t * t.stride % 2 ^ 48)], c := [(3, t.t)] }

/-- The core takes up a task that it has admitted or saved, once the words that it loads are there. -/
def State.mayLoad (s : State) (n : Nat) (t : Task) : Bool :=
  s.best n t && (s.pcore t.pcore).current.isNone && s.padFree t.pcore && !s.dev.suspended.contains t.asid

/-- TASK_START (R39). -/
def execTaskStart (task : Nat) (s : State) : Out :=
  .next (match s.tasks.find? task with
    | none => s
    | some t =>
      if t.st ≠ .admitted then s
      else if t.forced && !t.sent then s.endError task 6 0
      else if !s.mayLoad task t || !s.padLeave t.pcore then s
      else s.loadWords task t (t.codeWords 0 (t.nbund + 1) ++ t.argWords) 0 .parkedLoad (fun ws s =>
        (s.onTask task (fun t =>
          { t with st := .running, code := bundlesOf 0 (ws.take (t.nbund + 1)), regs := t.startRegs (ws.drop (t.nbund + 1)), parity := [],
                   zpar := none, flight := none, refetch := [], save := none })).onPCore t.pcore (fun k => { k with current := some task })))

/-- TASK_RESUME (R45): the bundles are loaded again. -/
def execTaskResume (task : Nat) (s : State) : Out :=
  .next (match s.tasks.find? task with
    | none => s
    | some t =>
      if t.st ≠ .saved then s
      else if t.forced && !t.sent then s.endError task 6 0
      else if !s.mayLoad task t then s
      else s.loadWords task t (t.codeWords 0 (t.nbund + 1)) 0 .parked (fun ws s =>
        (s.onTask task (fun t => { t with st := .running, code := bundlesOf 0 ws, save := none })).onPCore t.pcore
          (fun k => { k with current := some task })))

/-- A task stands between two bundles. A slot that it is fetching again may have to be fetched anew. -/
def Task.atBoundary (t : Task) : Bool := decide (t.st = .running) && t.flight.isNone && !t.sent

/-- TASK_SAVE (R45): a higher-ranked task is there, or the task's ASID is suspended. -/
def execTaskSave (task : Nat) (s : State) : Out :=
  .next (match s.tasks.find? task with
    | none => s
    | some t => if t.atBoundary && (!s.best task t || s.dev.suspended.contains t.asid) then s.saveTask task t .saved else s)

/-- ASID_SUSPEND (R45): the tasks of an ASID give up their cores, each at its next bundle boundary, until the supervisor lets them
go on. -/
def execAsidSuspend (asid : Nat) (s : State) : Out :=
  .next ((s.tasks.filter (fun t => t.2.asid = asid && t.2.atBoundary)).foldl (fun s t => s.saveTask t.1 t.2 .saved)
    (s.onDev (fun d => { d with suspended := if d.suspended.contains asid then d.suspended else asid :: d.suspended })))

/-- The supervisor ends the suspension of an ASID (log 103). -/
def State.asidResume (s : State) (asid : Nat) : State :=
  s.onDev (fun d => { d with suspended := d.suspended.filter (fun a => a ≠ asid) })

/-- What the accesses of a bundle come to before any performs (R52). -/
inductive PadCheck where
  | go (xs : List (Xlat × Option KeyPair))
  | wait
  | fault (kind va : Nat)
  | hole (kind pa : Nat)
  deriving DecidableEq, Repr

/-- Translate the accesses of a bundle (R47, R52). A fault of any access parks the task before a hole or an empty key slot of
another ends it; of several faults, and of several holes and empty key slots, the first in the bundle's order counts (log 98). -/
def State.padCheck (s : State) (t : Task) (accs : List PadAcc) : PadCheck :=
  accs.foldr (fun a acc =>
    let hole (kind pa : Nat) : PadCheck := match acc with
      | .go _ => .hole kind pa
      | .hole _ _ => .hole kind pa
      | o => o
    match s.padEntry t a.va with
    | none => .wait
    | some e =>
      if frozenAt s t.asid a.va then .wait
      else
        match applyEntry s e a.va a.acc t.sup false with
        | .fault kind => match acc with
          | .wait => .wait
          | _ => .fault kind a.va
        | .ok x =>
          if region x.pa = .remote then
            if pathsTo s (bits x.pa 49 40) = [] then hole 6 x.pa
            else match acc with
              | .go xs => .go ((x, none) :: xs)
              | o => o
          else if region x.pa ≠ .hbm ∧ region x.pa ≠ .tier then hole 6 x.pa
          else
            match s.keys.find? x.key, acc with
            | none, _ => hole 5 x.pa
            | some key, .go xs => .go ((x, some key) :: xs)
            | some _, o => o) (.go [])

/-- The identity of a task's step in a slice's log (R309). -/
def Task.logId (t : Task) (pa : Nat) : Nat := ((t.asid * 65536 + t.t) * 2 + b2n t.pgo) * 2 ^ 60 + pa

/-- One access of a bundle (R46): what it read and its poison, or none while it waits. A write is acknowledged to the task's
work. -/
def State.padAccess (s : State) (n : Nat) (t : Task) (a : PadAcc) (x : Xlat) (key : Option KeyPair) : Option (Nat × Bool) × State :=
  match key with
  | none =>
    if t.sent then (none, s)
    else
      match s.padSend n t a x with
      | .noPath => (none, s.padHole n t 6 x.pa)
      | .full => (none, s)
      | .sent s => (none, s.onTask n (fun t => { t with sent := true }))
  | some key =>
    match a with
    | .read _ k => s.padRead n t x key k true
    | .write bs pois =>
      let pbs := bs.map (fun (b : Nat × Byte) => (x.pa + (b.1 - a.va), b.2))
      let bad := if pois then wordsIn pbs else []
      let window := (windowAt s x.pa).isSome
      let home := s.home x.pa
      if s.direct t x.pa then (some (0, false), (s.mergeStore t.who key pbs pois).wrote (x.pa / 256))
      else if window && !s.mayLog home (t.logId x.pa) then (none, s)
      else
        let s := if window then s.logAt home (t.logId x.pa) else s
        (some (0, false), (s.addWork t.work).engineStore t.who 2 x key pbs bad (.work t.work (some t.asid)))
    | .add _ f v pois =>
      let home := s.home x.pa
      if !s.mayLog home (t.logId x.pa) then (none, s)
      else
      let (_, s) := ((s.logAt home (t.logId x.pa)).addWork t.work).engineAtomic t.who 2 x key x.pa 4 0 (if f then 14 else 2) v pois (.work t.work (some t.asid))
      (some (0, false), s)

/-- The accesses of a bundle that are still to perform, in order (R52). -/
def State.padPerform (s : State) (n : Nat) : List (PadAcc × Xlat × Option KeyPair) → State
  | [] => s
  | (a, x, key) :: rest =>
    match s.tasks.find? n with
    | none => s
    | some t =>
      match s.padAccess n t a x key with
      | (none, s) => s
      | (some r, s) => State.padPerform (s.onTask n (fun t => { t with got := t.got ++ [r] })) n rest

/-- The bundle is complete: its registers are written, and the task goes on or ends (R52, R74). At this boundary a task whose team has
been halted ends (R293), and one whose ASID is suspended is saved (R45). -/
def State.padFinish (s : State) (n b : Nat) : State :=
  match s.tasks.find? n with
  | none => s
  | some t =>
    let (next, regs) := bundleDone b t.regs t.base t.got
    let s := s.onTask n (fun t => { t with regs := regs, got := [], sent := false, flight := none })
    let s := s.onPCore t.pcore (fun k => { k with owed := k.owed - 1 })
    match next with
    | .go => if t.forced then s.endError n 6 0 else if s.dev.suspended.contains t.asid then s.saveTask n t .saved else s
    | .pret => s.endNormal n true
    | .phalt => s.endNormal n false

/-- The first access that a mangle has barred since the bundle passed its translation (R97, R98). -/
def padBarred (s : State) (asid : Nat) (accs : List (PadAcc × Xlat × Option KeyPair)) : Option PadAcc :=
  (accs.find? (fun a => a.2.2.isSome && mangleFault s asid a.2.1.pa a.2.1.mng a.1.acc)).map (fun a => a.1)

/-- A bundle that has passed its translation performs what is left of it, and is complete once all has performed (R52). Until the
first of its writes performs, an access that a mangle has barred in the meantime parks the task (R35, R97). -/
def State.padRun (s : State) (n b : Nat) (accs : List PadAcc) : State :=
  match s.tasks.find? n with
  | none => s
  | some t =>
    match t.flight with
    | none => s
    | some xs =>
      let left := (accs.zip xs).drop t.got.length
      match if t.sent || decide ((fetchAccs b t.regs t.base).length < t.got.length) then none else padBarred s t.asid left with
      | some a => s.parkTask n t .parked 3 5 a.va
      | none =>
        let s := s.padPerform n left
        match s.tasks.find? n with
        | none => s
        | some u => if u.st = .running && u.got.length = accs.length then s.padFinish n b else s

/-- A bundle that goes to another device may be refused there, and then has no effect (R46, R52): a free value says so for the bundle,
which no later answer does (log 21). -/
def State.padStart (s : State) (n b : Nat) (t : Task) (accs : List PadAcc) (xs : List (Xlat × Option KeyPair)) : State :=
  let go (s : State) : State := (s.onTask n (fun t => { t with flight := some xs })).padRun n b accs
  match xs.find? (fun x => x.2.isNone) with
  | none => go s
  | some x =>
    let r := (Config.fresh s.freeCtr).getLsbD 0
    let s := { s with freeCtr := s.freeCtr + 1 }
    if r then s.padHole n t 6 x.1.pa else go s

/-- BUNDLE_ISSUE (R48, R51, R52). Its checks come in this order: the slot lies within the task's bundles, a slot with a parity error is
fetched again, an accumulator's parity error, the encoding, poison used as an address, a count or a condition, then translation
(log 102). -/
def execBundleIssue (pcore : Nat) (s : State) : Out :=
  .next (match (s.pcore pcore).current with
    | none => s
    | some n =>
      match s.tasks.find? n with
      | none => s
      | some t =>
        let b := (t.code.getD t.regs.pc 0).toNat
        let accs := fetchAccs b t.regs t.base ++ wbAccs b t.regs t.base
        if t.st ≠ .running then s
        else if t.flight.isSome then s.padRun n b accs
        else if t.sent then s
        else if t.forced then s.endError n 6 0
        else if !s.best n t || !s.padFree pcore || s.dev.suspended.contains t.asid then s
        else match t.refetch with
          | slot :: rest => s.loadWords n t (t.codeWords slot 1) slot .parked (fun ws s =>
              s.onTask n (fun t => { t with refetch := rest, code := (bundlesOf slot ws).foldl (fun m w => m.set w.1 w.2) t.code }))
          | [] =>
            if t.nbund < t.regs.pc then s.endError n 4 0
            else if t.zpar.isSome then s.endError n 1 (t.zpar.getD 0)
            else if !bundleLegal b then s.endError n 4 0
            else if poisonUse b t.regs then s.endError n 3 0
            else
              match s.padCheck t accs with
              | .wait => s
              | .fault kind va => s.parkTask n t .parked kind 5 va
              | .hole kind pa => s.padHole n t kind pa
              | .go xs => s.padStart n b t accs xs)

/-- PADDOCK_WALK (R47): the walk of the first access of the next bundle that misses the core's TLB. -/
def execPaddockWalk (task : Nat) (s : State) : Out :=
  .next (match s.tasks.find? task with
    | none => s
    | some t =>
      let b := (t.code.getD t.regs.pc 0).toNat
      if !t.atBoundary || !t.refetch.isEmpty || !bundleLegal b || poisonUse b t.regs then s
      else
        match (fetchAccs b t.regs t.base ++ wbAccs b t.regs t.base).find? (fun a => (s.padEntry t a.va).isNone) with
        | none => s
        | some a =>
          if frozenAt s t.asid a.va then s
          else
            match s.padWalk t a.va with
            | (some kind, s) => s.parkTask task t .parked kind 5 a.va
            | (none, s) => s)

/-- FIRING_WORK_LIMIT (R45): the core owes 16 bundles to its tasks. -/
def execFiringWorkLimit (pcore : Nat) (s : State) : Out :=
  .next (let k := s.pcore pcore
    if !s.firing pcore || k.owed ≠ 0 then s else s.onPCore pcore (fun k => { k with owed := 16 }))

/-- PADDOCK_TASK_KILL (R47): the supervisor kills a parked task. -/
def execPaddockTaskKill (task : Nat) (s : State) : Out :=
  .next (match s.tasks.find? task with
    | some t => if t.st = .parked ∨ t.st = .parkedLoad then s.endError task 7 0 else s
    | none => s)

/-- A task is gone, and its part of the launch's work with it. -/
def State.dropTask (s : State) (n : Nat) (t : Task) : State := ({ s with tasks := s.tasks.erase n }).endWork t.work

/-- What a completion add comes to (R40, R265). -/
inductive AddOut where
  | parked (s : State)
  | wait
  /-- It is on its way to another device, which answers to the work. -/
  | sent (s : State)
  | done (s : State)
  deriving DecidableEq, Repr

/-- Add to a completion word (R40, R265): a fault parks the add, a hole or an empty key slot leaves the word as it is, with one
record. `buf` is the fault buffer, `work` the work that waits for the add. -/
def State.completionAdd (s : State) (w : Who) (buf asid va : Nat) (sup : Bool) (inc work : Nat) : AddOut :=
  if frozenAt s asid va then .wait
  else
    let s := s.walkFills w [] asid va
    match walk s [] asid va with
    | .error f => .parked ((s.logWalk w f).parkFault w buf f.kind 6 asid va)
    | .ok (e, _) =>
      match applyEntry s e va .atomic sup false with
      | .fault kind => .parked (s.parkFault w buf kind 6 asid va)
      | .ok x =>
        if region x.pa = .remote ∧ pathsTo s (bits x.pa 49 40) ≠ [] then
          let r : Remote := { what := 2, device := bits x.pa 49 40, offset := x.pa % 2 ^ 40, key := x.key, aop := 0, ty := .b32,
                              acc := { LaneAcc.zero with addr := x.pa, data := inc }, bytes := [], pois := [], path := 0, seq := 0,
                              port := 0, origin := w, answer := .work work (some asid), ofr := false, grp := (2000 + buf, 0, 0),
                              performed := false }
          match sendRemote s r with
          | .sent s => .sent s
          | _ => .wait
        else if region x.pa ≠ .hbm ∧ region x.pa ≠ .tier then .done (s.log23 w 6 x.pa)
        else
          match s.keys.find? x.key with
          | none => .done (s.log23 w 5 x.pa)
          | some key =>
            let home := s.home x.pa
            let id := asid * 2 ^ 62 + 2 ^ 61 + x.pa
            if !s.mayLog home id then .wait
            else .done ((s.logAt home id).engineAtomic w (if w.agent = 2 then 2 else 0) x key x.pa 4 0 6 inc false (.nobody (some asid))).2

/-- COMPLETION_ADD (R40). -/
def execCompletionAdd (task : Nat) (s : State) : Out :=
  .next (match s.tasks.find? task with
    | none => s
    | some t =>
      match t.st with
      | .ending err =>
        if s.dev.halt.isSome then s
        else if t.compl = 0 then s.dropTask task t
        else
          let reached := decide (t.pcore < 512)
          let w : Who := if reached then t.who else { agent := 2, die := dieOf t.site.core, core := 0, slot := 0, group := 0, id := 0 }
          let buf := if reached then 1000 + t.pcore / 64 else t.site.core
          match s.completionAdd w buf t.asid t.compl t.sup (if err = 0 then 1 else 0x10000) t.work with
          | .wait => s
          | .parked s => s.onTask task (fun t => { t with st := .endingParked err })
          | .sent s => { s with tasks := s.tasks.erase task }
          | .done s => s.dropTask task t
      | _ => s)

/-- Lanes that a PGO task writes back (R42). -/
def Task.backLanes (t : Task) : LaneSet := laneSetOf (fun i => decide (i / 8 = t.q) && t.lanes.getLsbD i)

/-- PGO_RETURN (R42): every write of the task has been acknowledged; its words return, or the group is held. -/
def execPgoReturn (task : Nat) (s : State) : Out :=
  .next (match s.tasks.find? task with
    | none => s
    | some t =>
      match t.st with
      | .returning how =>
        if 1 < s.works.getD t.work 0 then s
        else
          let c := t.site.core
          let sl := t.site.slot
          let g := t.site.group
          let s := s.dropTask task t
          match s.group? c sl g with
          | none => s
          | some grp =>
            if grp.pgo ≠ some task then s
            else
              let s := s.onGroup c sl g (fun x => { x with pgo := none })
              if how = 2 then s.holdGroup c sl g
              else if how = 1 then s.reap c sl g
              else if (List.range t.n).any (fun j => t.regs.wp j) then (s.log23 (whoLane t.site) 3 0).holdGroup c sl g
              else
                (List.range t.n).foldl (fun s j =>
                  s.writeLanes c sl g t.backLanes (t.vb + j) (packLanes (fun i => BitVec.ofNat 32 (t.regs.lane j (i % 8))))) s
      | _ => s)

/-- A parity error in a buffer slot (R48): the slot is to be fetched again before the next bundle issues, which PDCE.IBREF counts, and
a second one ends the task. -/
def State.bufferParity (s : State) (n slot : Nat) : State :=
  match s.tasks.find? n with
  | none => s
  | some t =>
    if !t.atBoundary || t.nbund < slot then s
    else if t.parity.contains slot then (s.onTask n (fun t => { t with regs := { t.regs with pc := slot } })).endError n 0 0
    else
      (s.onTask n (fun t => { t with parity := slot :: t.parity, refetch := t.refetch ++ [slot] })).onPCore t.pcore
        (fun k => { k with refetches := if k.refetches < 0xFFFFFFFF then k.refetches + 1 else k.refetches })

/-- A parity error of an accumulator, met by the next bundle (R48). -/
def State.zParity (s : State) (n z : Nat) : State :=
  s.onTask n (fun t => if t.atBoundary && decide (z < 4) then { t with zpar := some z } else t)

/-- A parity error inside a mangle lane (R99): its rows come out poisoned, and one record is written. -/
def State.laneParity (s : State) (h p : Nat) : State :=
  match s.mangles.find? h with
  | none => s
  | some m =>
    if !m.pass || !m.lanes.contains p || m.badLanes.contains p then s
    else
      let r := 2 ^ 127 + 9 * 2 ^ 123 + p * 2 ^ 114 + m.asid % 65536 * 2 ^ 80 + h % 4096 * 2 ^ 64
      (s.onMangle h (fun m => { m with badLanes := p :: m.badLanes })).svRecord (dieOfStack (p / 64)) 1 (whoMangle p) (r % 2 ^ 64) (r / 2 ^ 64)

end Sys2Proof.Machine
end

