-- ==== Sys2Proof/Machine/Sched.lean ====
section
/-! DEFINITION. The schedulers (R271): which paths a quarter may issue from, how a path comes to its next instruction (R314,
R316, R306, R273, R403), safe points (R290, R291), and a quarter's turn. -/

namespace Sys2Proof.Machine

/-- A path and its place in a quarter's choice. -/
structure Cand where
  site : Site
  rank : List Nat
  deriving DecidableEq, Repr

/-- Order of ranks, the first difference deciding. -/
def rankLe : List Nat → List Nat → Bool
  | [], _ => true
  | _, [] => false
  | a :: x, b :: y => if a < b then true else if b < a then false else rankLe x y

/-- Put a candidate in its place. -/
def insertCand (c : Cand) : List Cand → List Cand
  | [] => [c]
  | d :: t => if rankLe c.rank d.rank then c :: d :: t else d :: insertCand c t

/-- The group's paths may issue: it is not held, waits for no task, and has no trap to enter (R41, R277, R289). While the
handler runs, the trap of a path outside it waits. -/
def Group.free (g : Group) : Bool :=
  g.hold.isNone && g.pgo.isNone &&
    g.paths.all (fun p => p.2.pend.isNone || (match g.handling with | some h => !h.covers p.1 | none => false))

/-- The path is not held by another's handler, and waits for no page (R277, R285). -/
def Group.pathFree (g : Group) (id : Nat) (p : Path) : Bool :=
  !p.fetchParked && (match g.handling with | some h => h.covers id | none => true)

/-- The choice of R271 as an order: paths that do not spin, groups that have not given way, starving groups, age, and the path
that issued longest ago. -/
def candRank (g : Group) (p : Path) : List Nat :=
  [b2n p.spin.mark.isSome, b2n g.yielded, b2n g.starvingSince.isNone, g.starvingSince.getD 0, g.age, p.lastIssue]

/-- The paths that a quarter may issue from, in the order of its choice (R271). -/
def State.candidates (s : State) (core q : Nat) : List Cand :=
  if s.dev.halt.isSome || (s.core core).halted then []
  else
    (s.core core).slots.foldl (fun l t => t.2.groups.foldl (fun l g =>
      if g.2.quarter ≠ q || !g.2.free then l
      else g.2.paths.foldl (fun l p =>
        if g.2.pathFree p.1 p.2 then
          insertCand { site := { core := core, slot := t.1, group := g.1, path := p.1 }, rank := candRank g.2 p.2 } l
        else l) l) l) []

/-- Groups that gave way have done so for this choice (R343). -/
def State.clearYield (s : State) (core q : Nat) : State :=
  s.onCore core (fun k => { k with slots := k.slots.map (fun (t : Nat × Team) =>
    (t.1, { t.2 with groups := t.2.groups.map (fun (g : Nat × Group) =>
      if g.2.quarter = q ∧ g.2.yielded then (g.1, { g.2 with yielded := false }) else g) })) })

/-- Outstanding instructions of a group in a count of R314. -/
def State.count (s : State) (a : Site) (g : Group) (n : Nat) : Nat :=
  if n = 3 then ((s.core a.core).copies.filter (fun o => o.2.slot = a.slot && o.2.group = a.group)).length
  else (g.ops.filter (fun o => o.2.count = n)).length

/-- The first count above its limit; 15 is no limit (R314). -/
def State.surplus (s : State) (a : Site) (g : Group) (limits : List Nat) : Option Nat :=
  (limits.zipIdx.find? (fun l => l.1 ≠ 15 && decide (l.1 < s.count a g l.2))).map (fun l => l.2)

/-- The wait fields of a header, and of a WAITC, in the order VM, SM, MX, CP, ST. -/
def headerLimits (h : Header) : List Nat := [h.wvm, h.wsm, h.wmx, h.wcp, h.wst]
def wcntLimits (f : WcntF) : List Nat := [f.vm, f.sm, f.mx, f.cp, f.st]

/-- Whether an ordinal has a usable entry in the team's table (R290); none where the table cannot be read. -/
def State.usable (s : State) (c slot g : Nat) (t : Team) (ord : Nat) : Option Bool :=
  match (s.readHeader c slot g t).1 with
  | .ok bs =>
    if (spHeader bs).nsp ≤ ord then some false
    else match (s.readEntry c slot g t ord).1 with
      | .ok es => some (decide (bits (leNat es) 56 0 ≠ 0))
      | _ => none
  | _ => none

/-- The path's next instruction. -/
def Path.next (p : Path) : Option Instr :=
  match p.words with
  | [] => none
  | w :: _ => (decode w).toOption

/-- A part of the access is parked, and so the rest of it waits (R282). -/
def Op.parked (o : Op) : Bool := o.parts.any (fun q => q.st = .parked)

/-- Nothing of an operation is under way but what is parked (R288): every part of an access has returned or is parked, or waits for a
part that is. What a unit completes later is under way. -/
def Op.settled (o : Op) : Bool :=
  decide (o.kind ≠ .mangle) && (o.parts.all (fun q => q.returned o.kind) ||
    (o.parked && o.parts.all (fun q => q.returned o.kind || (!q.performed && q.st ≠ .sent))))

/-- An access has not begun to perform and is held up by an earlier one that is parked (R218, R288). `at_` gives the physical address
of a byte of a part. -/
def Group.behind (g : Group) (at_ : Part → Nat → Nat) (id : Nat) (o : Op) : Bool :=
  let ready : Op := { o with parts := mapIf (fun q => q.st = .rejected) (fun q => { q with st := .ready }) o.parts }
  let alone : Group := { g with ops := Tab.set (g.ops.filter (fun e => e.2.parked)) id ready }
  o.kind.isAccess && o.parts.all (fun q => q.st = .ready || q.st = .rejected) &&
    (List.range o.parts.length).all (fun n => !alone.allows at_ id n)

/-- Nothing of a group's operation goes on before FLTRPL.ALL (R288). -/
def Group.still (g : Group) (at_ : Part → Nat → Nat) (id : Nat) (o : Op) : Bool := o.settled || g.behind at_ id o

/-- The path's only pending work is parked (R288): it waits, and what it waits for is parked. -/
def Group.parked (g : Group) (at_ : Part → Nat → Nat) (id : Nat) (p : Path) : Bool :=
  let mine := g.ops.filter (fun o => o.2.path = id)
  p.fetchParked || (p.stall.isSome && mine.any (fun o => o.2.parked) && mine.all (fun o => g.still at_ o.1 o.2))

/-- PWAIT on the token behaves as WAITF does (R421). -/
def Group.plainToken (g : Group) (n : Nat) : Bool := match g.token n with
  | .tasks _ => false
  | _ => true

/-- The path stands in a clause at a point that R291 names, so far as its place goes: the clause has STOP set, and nothing of
it has issued, or the path is stopped at a K step, waits there or has only parked work. -/
def Group.atStop (g : Group) (at_ : Part → Nat → Nat) (t : Team) (id : Nat) (p : Path) : Bool :=
  !p.words.isEmpty && p.hdr.stop &&
    (p.fresh || g.parked at_ id p ||
      (match p.wait with
        | .join _ => true
        | .barrier _ _ _ _ _ _ => true
        | .token _ _ => true
        | .fifo _ => true
        | _ => false) ||
      (match p.next with
        | some (.waitf _) => p.stall.isSome
        | some (.pwait f) => p.stall.isSome && g.plainToken f.fn
        | some (.mma f) => t.progOf f.ad ≠ 0
        | some (.mmab f) => t.progOf f.ad ≠ 0
        | _ => false))

/-- The path is at a safe point (R291). -/
def State.pathSafe (s : State) (c slot gi : Nat) (t : Team) (g : Group) (id : Nat) (p : Path) : Bool :=
  g.atStop (s.physAt t.asid) t id p && s.usable c slot gi t p.hdr.ordinal = some true

/-- The group is at a safe point (R291, R427). -/
def State.groupSafe (s : State) (c slot gi : Nat) (t : Team) (g : Group) : Bool :=
  g.pgo.isNone && !g.called && g.paths.all (fun p => s.pathSafe c slot gi t g p.1 p.2)

/-- A team whose pre-emption has been requested holds its paths where they may be saved; one whose table cannot be read waits
there too (R290, R292). -/
def State.heldAt (s : State) (a : Site) (t : Team) (g : Group) (p : Path) : Bool :=
  match t.run with
  | .stopping _ _ => g.atStop (s.physAt t.asid) t a.path p && s.usable a.core a.slot a.group t p.hdr.ordinal ≠ some false
  | _ => false

/-- The weight of one matrix instruction (R273, R403): a pair of two classes runs at the lower rate. -/
def matWeight (fmt : W32) : Nat :=
  let w (c : Nat) : Nat := match opClass c with
    | 1 => 5 | 2 => 6 | 3 => 7 | 5 => 7 | 4 => 8 | 6 => 8 | 7 => 8
    | _ => 5
  let a := w (afmtOf fmt)
  let b := w (bfmtOf fmt)
  if a < b then a else b

/-- The weight that a matrix clause asks for (R403): the class of an MMA or MMAB is that of the pair which FMT selects when the clause
issues. -/
def clauseWeight (fmt : W32) (words : List W64) : Nat :=
  words.foldl (fun m w => match decode w with
    | .ok (.mma _) => max m (matWeight fmt)
    | .ok (.mmab _) => max m (matWeight fmt)
    | _ => m) 5

/-- Leave of a matrix clause (R273, R403, R424): held, or taken over from the group's LEAVE of that class, whose place in the
governor's order it keeps, or asked for. Whether the clause may issue. -/
def State.clauseAsk (s : State) (a : Site) (g : Group) (p : Path) : Bool × State :=
  let die := dieOf a.core
  let d := s.die die
  let mine (l : List LeaveAsk) : Bool := l.any (fun x => (clauseLeave a x).isSome)
  if mine d.grants then (true, s)
  else if mine d.asks then (false, s)
  else
    let w := clauseWeight p.fmt p.words
    let hint (x : LeaveAsk) : Bool := match x with
      | .hint c sl gi cls w' => c = a.core && sl = a.slot && gi = a.group && w' = w && decide (cls < 4)
      | _ => false
    let me : LeaveAsk := .clause a.core a.slot a.group a.path w
    let take (l : List LeaveAsk) : List LeaveAsk := mapIf hint (fun _ => me) l
    if g.leave ≠ .none && (d.grants.any hint || d.asks.any hint) then
      (d.grants.any hint, (s.onDie die (fun d => { d with asks := take d.asks, grants := take d.grants })).onGroup a.core a.slot a.group
        (fun g => { g with leave := .none }))
    else (false, s.onDie die (fun d => { d with asks := d.asks ++ [me] }))

/-- The lowest breakpoint register that a STOP clause of the path matches (R306). -/
def State.breakpoint (s : State) (a : Site) (t : Team) (g : Group) (p : Path) : Option Nat :=
  if !p.fresh || !p.hdr.stop || g.inTrap || g.routine.isSome || p.skipBp then none
  else (List.range 16).find? (fun n =>
    let r := ((s.die (dieOf a.core)).bp.getD n 0).toNat
    bit r 63 && bits r 47 32 = t.asid && bits r 11 0 = p.hdr.ordinal)

/-- What comes of preparing a path. -/
inductive Approach where
  /-- It waits. -/
  | wait (s : State)
  /-- Something other than an instruction came about. -/
  | took (s : State)
  /-- It may issue a word. -/
  | run (w : W64) (s : State)
  deriving DecidableEq, Repr

/-- A hole, an empty key slot or poison met by a fetch: a machine check, or BADTABLE for a routine (R280, R289, R316). -/
def State.fetchBad (s : State) (a : Site) (g : Group) (p : Path) (kind pa : Nat) : State :=
  let s := s.log23 (whoLane a) kind pa
  if g.routine.isSome then s.forcedHalt a.core a.slot 8 0 a.group p.pc.toNat else s.holdGroup a.core a.slot a.group

/-- A page fault of a fetch (R285). -/
def State.fetchFault (s : State) (a : Site) (asid kind va : Nat) : State :=
  (s.parkFault (whoLane a) a.core kind 3 asid va).onPath a (fun p => { p with fetchParked := true, stall := some 12 })

/-- Fetch the clause at the path's PC and check it (R316). -/
def State.fetchClause (s : State) (a : Site) (t : Team) (g : Group) (p : Path) : Approach :=
  let bad (d : Nat) (s : State) : Approach := .took (s.takeTrap a { cause := 3, detail := d, addr := 0, pc := p.pc, inst := none, debug := 0 })
  match s.readDesc (whoLane a) a.core t.asid .fetch t.sup p.pc.toNat 8 with
  | (.fault kind va, s) => .took (s.fetchFault a t.asid kind va)
  | (.bad kind pa, s) => .took (s.fetchBad a g p kind pa)
  | (.wait, s) => .wait s
  | (.ok hb, s) =>
    match decodeHeader (BitVec.ofNat 64 (leNat hb)) with
    | .error d => bad d s
    | .ok h =>
      match s.readDesc (whoLane a) a.core t.asid .fetch t.sup ((p.pc.toNat + 8) % 2 ^ 57) (8 * h.count) with
      | (.fault kind va, s) => .took (s.fetchFault a t.asid kind va)
      | (.bad kind pa, s) => .took (s.fetchBad a g p kind pa)
      | (.wait, s) => .wait s
      | (.ok bs, s) =>
        let words := (List.range h.count).map (fun i => BitVec.ofNat 64 (leNat ((bs.drop (8 * i)).take 8)))
        if clauseError h words ≠ 0 then bad (clauseError h words) s
        else .took (s.onPath a (fun p => { p with words := words, hdr := h, hdrPc := p.pc, fresh := true, stall := none, pc := p.pc + 8 }))

/-- The trap that waits for the group's next clause header is taken by the path that holds the lowest lane (R276). -/
def Group.lateFor (g : Group) (id : Nat) (p : Path) : Option TrapReq :=
  if g.paths.any (fun q => q.1 ≠ id && decide (q.2.low < p.low)) then none else g.late.head?

/-- The routine that a group is to run next (R292): its entry is read, and one path of every lane that has not exited starts. -/
def State.beginRoutine (s : State) (a : Site) (t : Team) (r : Routine) : Approach :=
  let park (kind va : Nat) (s : State) : Approach :=
    .took ((s.parkFault (whoLane a) a.core kind 0 t.asid va).onPath a (fun p => { p with fetchParked := true, stall := some 14 }))
  let halt (kind pa : Nat) (s : State) : Approach := .took ((s.log23 (whoLane a) kind pa).forcedHalt a.core a.slot 8 0 a.group
    (((s.group? a.core a.slot a.group).map (fun g => s.recordPc t a.group g)).getD 0))
  let ord := r.left.headD 0
  match s.readHeader a.core a.slot a.group t with
  | (.fault kind va, s) => park kind va s
  | (.bad kind pa, s) => halt kind pa s
  | (.wait, s) => .wait s
  | (.ok hb, s) =>
    match s.readEntry a.core a.slot a.group t ord with
    | (.fault kind va, s) => park kind va s
    | (.bad kind pa, s) => halt kind pa s
    | (.wait, s) => .wait s
    | (.ok es, s) =>
      let h := spHeader hb
      let e := leNat es
      let id := ((s.grid? t.grid).map (fun x => t.teamId x)).getD 0
      let save := (h.saveva + id * h.stride + 0x4400 + 0x1000 * a.group) % 2 ^ 57
      .took (s.onGroup a.core a.slot a.group (fun g =>
        { ((g.setPair 0 (BitVec.ofNat 64 save)).setS 2 (BitVec.ofNat 32 ord)).setS 3 0 with
          nest := 0, part := 5, routine := some { r with pending := false },
          paths := [(a.path, Path.start (~~~ g.exited) (BitVec.ofNat 57 (if r.restore then bits e 120 64 else bits e 56 0)) 0)] }))

/-- The counts that hold a path, by the header of a clause of which nothing has issued and by a WAITC (R314, R343). -/
def State.countWaits (s : State) (a : Site) (g : Group) (p : Path) : List Nat :=
  (if p.fresh then s.surplus a g (headerLimits p.hdr) else none).toList ++ (p.waitc.bind (fun f => s.surplus a g (wcntLimits f))).toList

/-- A path whose clause has been fetched: breakpoints, the waits of its header, leave, WAITC (R271, R306, R314, R403). -/
def State.ready (s : State) (a : Site) (t : Team) (g : Group) (p : Path) : Approach :=
  match s.breakpoint a t g p with
  | some n => .took (s.takeTrap a { cause := 0x13, detail := 0x80 + n, addr := 0, pc := p.hdrPc, inst := none, debug := 2 })
  | none =>
    if s.heldAt a t g p then .wait s
    else
      match lowest (s.countWaits a g p) with
      | some r => .wait (s.stallOn a r)
      | none =>
        let (go, s) := if p.hdr.cls = 2 then s.clauseAsk a g p else (true, s)
        if go then .run (p.words.headD 0) (s.onPath a (fun p => { p with stall := none, wait := .none }))
        else .wait (s.stallOn a 7)

/-- Bring a path to its next instruction. -/
def State.approach (s : State) (a : Site) : Approach :=
  match s.team? a.core a.slot, s.group? a.core a.slot a.group with
  | some t, some g =>
    match g.paths.find? a.path with
    | none => .wait s
    | some p =>
      let onward : Approach :=
        match g.routine with
        | some r =>
          if r.pending then s.beginRoutine a t r
          else if p.words.isEmpty then s.fetchClause a t g p else s.ready a t g p
        | none =>
          if !p.words.isEmpty then s.ready a t g p
          else
            match g.lateFor a.path p with
            | some tr =>
              .took ((s.onGroup a.core a.slot a.group (fun g => { g with late := g.late.drop 1 })).takeTrap a { tr with pc := p.pc })
            | none => s.fetchClause a t g p
      match p.wait with
      | .none => onward
      | .step => .took (s.scheduleAtStart a)
      | .work w => if s.workDone w then onward else .wait s
      | .token f cont =>
        if !s.tokenDone g f || s.heldAt a t g p then .wait s
        else .took (s.goto a cont)
      | .join _ => .wait s
      | .barrier _ _ _ _ _ _ => .wait s
      | .fifo _ => .wait s
  | _, _ => .wait s

/-- What the issue of an instruction counts for: the scheduler's order, and the sampler (R271, R306, R307). A fold counts as an issue
like any other (R214). -/
def State.book (s : State) (a : Site) : State :=
  let s := s.onGroup a.core a.slot a.group (fun g => { g with readyFor := 0, starvingSince := none })
  let s := s.onPath a (fun p =>
    let p := { p with lastIssue := s.ageCtr + 1, skipBp := false }
    if !p.fresh then p
    else if p.hdr.stop then { p with lastOrd := some p.hdr.ordinal, clausesSince := 0 }
    else { p with clausesSince := if p.clausesSince = 65535 then 65535 else p.clausesSince + 1 })
  let q := ((s.group? a.core a.slot a.group).map (fun g => g.quarter)).getD 0
  { s.onQuarter a.core q (fun x => { x with sinceSample := x.sinceSample + 1 }) with ageCtr := s.ageCtr + 1 }

/-- The path still waits at a PC to issue its instruction. -/
def State.polls (s : State) (a : Site) (pc : PcVal) : Bool :=
  match (s.group? a.core a.slot a.group).bind (fun g => g.paths.find? a.path) with
  | some p => p.stall.isSome && p.pc = pc && (match p.wait with
    | .none => true
    | .work _ => true
    | _ => false)
  | none => false

/-- The PC of a path. -/
def State.pcAt (s : State) (a : Site) : PcVal :=
  (((s.group? a.core a.slot a.group).bind (fun g => g.paths.find? a.path)).map (fun p => p.pc)).getD 0

/-- Issue from the first path that is ready (R271). `run` is the meaning of an instruction. -/
def State.tryPaths (run : Instr → State → Out) : List Cand → State → Out
  | [], s => .next s
  | c :: rest, s =>
    match s.approach c.site with
    | .wait s => State.tryPaths run rest s
    | .took s => .next s
    | .run w s =>
      match decode w with
      | .error d => .next ((s.book c.site).trapAt c.site 4 d 0)
      | .ok i =>
        let s := { s with cur := some c.site }
        match run i (s.book c.site) with
        | .next t =>
          if t.polls c.site (s.pcAt c.site) then
            match run i s with
            | .next u => State.tryPaths run rest u
            | o => o
          else .next t
        | o => o

/-- A quarter's turn (R271). -/
def State.turn (s : State) (run : Instr → State → Out) (core q : Nat) : Out :=
  State.tryPaths run (s.candidates core q) (s.clearYield core q)

end Sys2Proof.Machine
end

