-- ==== Sys2Proof/Machine/Preempt.lean ====
section
/-! DEFINITION. Pre-emption at safe points (R270, R280, R288, R290 to R293): what a request holds, what is saved, the SAVE and
RESTORE routines, and the pre-emption limit. -/

namespace Sys2Proof.Machine

/-- A forced halt of the team is under way (R293). -/
def Team.halts (t : Team) : Bool := match t.run with
  | .halting _ _ _ _ => true
  | _ => false

/-- Core and slot of every resident team of a cluster, but for those that a forced halt is ending. -/
def clusterSites (s : State) (grid clu : Nat) : List (Nat × Nat) :=
  s.cores.flatMap (fun c => (c.2.slots.filter (fun t => t.2.grid = grid && t.2.cluster = clu && !t.2.halts)).map (fun t => (c.1, t.1)))

/-- Request the pre-emption of a cluster (R292), with the reason of R280. -/
def State.requestPreempt (s : State) (grid clu reason : Nat) : State :=
  (clusterSites s grid clu).foldl (fun s c => s.onTeam c.1 c.2 (fun t =>
    if t.run = .running then { t with run := .stopping 0 reason } else t)) s

/-- What reading the table for the paths that have come to a stop gives. -/
inductive TableRead where
  | ok
  | parked
  | bad (kind pa : Nat)
  deriving DecidableEq, Repr

/-- Read the table for one path that has come to a stop (R290). A fault is parked, and the path waits for it. -/
def State.readFor (s : State) (a : Site) (t : Team) (p : Path) : TableRead × State :=
  let park (kind va : Nat) (s : State) : TableRead × State :=
    (.parked, (s.parkFault (whoLane a) a.core kind 0 t.asid va).onPath a (fun p => { p with fetchParked := true }))
  match s.readHeader a.core a.slot a.group t with
  | (.fault kind va, s) => park kind va s
  | (.bad kind pa, s) => (.bad kind pa, s)
  | (.wait, s) => (.parked, s)
  | (.ok hb, s) =>
    if (spHeader hb).nsp ≤ p.hdr.ordinal then (.ok, s)
    else
      match s.readEntry a.core a.slot a.group t p.hdr.ordinal with
      | (.fault kind va, s) => park kind va s
      | (.bad kind pa, s) => (.bad kind pa, s)
      | (.wait, s) => (.parked, s)
      | (.ok _, s) => (.ok, s)

/-- Read the table for every path of a team that has come to a stop; a team whose table cannot be read is halted (R290). -/
def State.readTables (s : State) (c slot : Nat) : State :=
  match s.team? c slot with
  | none => s
  | some t =>
    let stops := t.groups.flatMap (fun g => (g.2.paths.filter (fun p => g.2.atStop (s.physAt t.asid) t p.1 p.2 && !p.2.fetchParked)).map (fun p => (g, p)))
    stops.foldl (fun s x =>
      let (g, p) := x
      let a : Site := { core := c, slot := slot, group := g.1, path := p.1 }
      if ((s.team? c slot).map Team.halts).getD true then s
      else
        match s.readFor a t p.2 with
        | (.bad kind pa, s) => (s.log23 (whoLane a) kind pa).forcedHalt c slot 8 0 g.1 (s.recordPc t g.1 g.2)
        | (_, s) => s) s

/-- A path as it is taken up again (R291): a waiting instruction is issued again, a clause of which nothing had issued is
fetched again. -/
def Path.resumed (p : Path) : Path :=
  let p := { p with wait := .none, stall := none, fetchParked := false, waitc := p.waitc, la := [], laCopies := [], spin := p.spin.cleared }
  if p.fresh && !p.words.isEmpty then { p with words := [], pc := p.hdrPc } else p

/-- Parked accesses of a saved group are taken up again (R288). -/
def Op.resumed (o : Op) : Op :=
  { o with parts := mapIf (fun p => !p.returned o.kind) (fun p => { p with st := .walk, xl := none }) o.parts }

/-- What pre-emption keeps of a group (R292): its control state, its parked accesses, its tokens as satisfied (R224). -/
def Group.image (g : Group) : Group :=
  { g with paths := g.paths.map (fun (p : Nat × Path) => (p.1, p.2.resumed)), ops := (g.ops.filter (fun (o : Nat × Op) => o.2.kind.isAccess)).map (fun (o : Nat × Op) => (o.1, o.2.resumed)),
           tokens := g.tokens.map (fun (t : Nat × Token) => (t.1, match t.2 with
             | .free => .free
             | _ => .filled [] [])),
           leave := .none, yielded := false }

/-- The group starts on its routines (R292): those of the distinct ordinals at which its paths hold, in ascending order. A group
that has no path left has none. -/
def Group.startRoutines (g : Group) (restore : Bool) (ords : List Nat) : Group :=
  { g with routine := some { restore := restore, left := ords, pending := !ords.isEmpty }, handling := none, ops := [], late := [],
           paths := if ords.isEmpty then [] else [(g.nextPath, Path.start (~~~ g.exited) 0 0)], nextPath := g.nextPath + 1 }

/-- The distinct ordinals at which the paths of a group hold. -/
def Group.ordinals (g : Group) : List Nat :=
  (List.range 4096).filter (fun n => g.paths.any (fun p => p.2.hdr.ordinal = n))

/-- Record of TYPE 4 (R280), which SVQCTL.PREEN enables. -/
def State.preemptRecord (s : State) (c slot event reason : Nat) (t : Team) : State :=
  if !bit (s.die (dieOf c)).svqCtl.toNat 5 then s
  else
    let gid := ((s.grid? t.grid).map (fun x => t.teamId x)).getD 0
    let w : Who := { agent := 0, die := dieOf c, core := c, slot := slot, group := 0, id := 0 }
    s.svRecord (dieOf c) 4 w (event * 2 ^ 56 + reason * 2 ^ 48 + t.asid % 65536 * 2 ^ 32 + gid % 2 ^ 32) (t.cluster % 2 ^ 32)

/-- The save area of a team that is to be written, its first 17 KiB: none where the table cannot be read (R292). -/
def State.controlArea (s : State) (c slot : Nat) (t : Team) : Option Nat :=
  match (s.readHeader c slot 0 t).1 with
  | .ok hb =>
    let h := spHeader hb
    some ((h.saveva + ((s.grid? t.grid).map (fun x => t.teamId x)).getD 0 * h.stride) % 2 ^ 57)
  | _ => none

/-- The control area of a team is overwritten in a layout of the device's own (R292): the bytes that memory then holds are free
values. What is kept is the image in the grid. -/
def State.scribble (s : State) (c slot : Nat) (t : Team) : State :=
  match s.controlArea c slot t with
  | some base =>
    let w : Who := { agent := 0, die := dieOf c, core := c, slot := slot, group := 0, id := 0 }
    (List.range (0x4400 / 64)).foldl (fun s i =>
      match s.xlate w c t.asid ((base + 64 * i) % 2 ^ 57) .store t.sup false with
      | (.ok x, s) =>
        match s.keys.find? x.key with
        | some key =>
          if region x.pa = .hbm ∨ region x.pa = .tier then
            let (bs, s) := s.freeBytes 64
            s.engineStore w 0 x key (bs.zipIdx.map (fun b => (x.pa + b.2, b.1))) [] (.nobody (some t.asid))
          else s
        | none => s
      | (_, s) => s) s
  | none => s

/-- A team all of whose groups hold is saved, and its SAVE routines begin (R292, R224, R424). -/
def State.saveTeam (s : State) (c slot reason : Nat) : State :=
  match s.team? c slot with
  | none => s
  | some t =>
    let s := s.unpinTeam c slot 0
    let s := s.scribble c slot t
    let kept : Team := { t with groups := t.groups.map (fun (g : Nat × Group) => (g.1, g.2.image)), run := .saving reason,
                                scratch := [], scratchPois := [], acc := [], prog := [], phases := [] }
    let s := s.onGrid t.grid (fun g => { g with saved := g.saved.set (t.teamId g) kept })
    let s := t.groups.foldl (fun s g =>
      let a : Site := { core := c, slot := slot, group := g.1, path := 0 }
      (s.giveBack (dieOf c) (hintLeave a)).withdraw (dieOf c) (hintLeave a)) s
    (s.forget c slot).onTeam c slot (fun t =>
      { t with run := .saving reason,
               groups := t.groups.map (fun (g : Nat × Group) => (g.1, { g.2.startRoutines false g.2.ordinals with leave := .none })) })

/-- Nothing of a team is under way but what is parked (R292): its copies have completed and its accesses have settled, so far as no
parked one holds them up (R288). -/
def State.quiet (s : State) (c slot : Nat) (t : Team) : Bool :=
  !s.underWay c slot &&
  t.groups.all (fun g => g.2.ops.all (fun o => (match o.2.kind with | .fifoGet => true | .fifoPut => true | _ => false) ||
    g.2.still (s.physAt t.asid) o.1 o.2))

/-- A team whose routines have all ended has its slot freed (R292). -/
def State.releaseTeam (s : State) (c slot reason : Nat) (t : Team) : State :=
  let s := t.groups.foldl (fun s g => s.groupLeaves c slot g.1) s
  (s.freeSlot c slot).preemptRecord c slot 1 reason t

/-- The routines of a group have ended. -/
def Group.routinesDone (g : Group) : Bool := match g.routine with
  | some r => r.left.isEmpty && g.ops.isEmpty
  | none => false

/-- PREEMPT_SAVE (R292): the next of the steps of a pre-emption. -/
def execPreemptSave (grid clu : Nat) (s : State) : Out :=
  .next (
    let sites := clusterSites s grid clu
    let team (s : State) (c : Nat × Nat) : Option Team := s.team? c.1 c.2
    if sites.isEmpty || s.dev.halt.isSome then s
    else if sites.all (fun c => match team s c with
        | some t => (match t.run with | .stopping _ _ => true | _ => false)
        | none => false) then
      let s := sites.foldl (fun s c => s.stopMatrix c.1) s
      let s := sites.foldl (fun s c => s.readTables c.1 c.2) s
      let sites := clusterSites s grid clu
      let holds := sites.all (fun c => match team s c with
        | some t => t.groups.all (fun g => s.groupSafe c.1 c.2 g.1 t g.2) && s.quiet c.1 c.2 t &&
          !(match s.controlArea c.1 c.2 t with | some base => frozenSpan s t.asid base 0x4400 | none => false)
        | none => false)
      if holds then sites.foldl (fun s c => match team s c with
          | some t => (match t.run with | .stopping _ r => s.saveTeam c.1 c.2 r | _ => s)
          | none => s) s
      else s
    else
      let s := sites.foldl (fun s c => match team s c with
        | some t => (match t.run with
          | .saving r => if t.groups.all (fun g => g.2.routinesDone) && s.quiet c.1 c.2 t then s.releaseTeam c.1 c.2 r t else s
          | _ => s)
        | none => s) s
      let mine := match s.grid? grid with
        | some g => g.saved.any (fun t => t.2.cluster = clu)
        | none => false
      if (clusterSites s grid clu).isEmpty && mine then s.onGrid grid (fun g => { g with waiting := g.waiting.set clu (0, 0, true) })
      else s)

/-- The groups of a restored team resume with their control state (R292). -/
def Team.reload (t : Team) (image : Team) : Team :=
  { t with run := .running,
           groups := t.groups.map (fun (g : Nat × Group) =>
             match image.groups.find? g.1 with
             | none => g
             | some i =>
               (g.1, { g.2 with paths := i.paths, nextPath := i.nextPath, ops := i.ops, nextOp := i.nextOp, nest := i.nest,
                                part := i.part, flags := i.flags, gstat := i.gstat, tokens := i.tokens, late := i.late,
                                handling := i.handling, hold := i.hold, routine := none,
                                s := [0, 1, 2, 3].foldl (fun m n => m.set n (i.sreg n)) g.2.s })) }

/-- What lanes of a team have read on another core may be newer than what is still on its way to the core that they come to: they
are readers of every message there (R219). -/
def State.attachAll (s : State) (core slot : Nat) (t : Team) : State :=
  let all := t.groups.map (fun g => (slot, g.1, (BitVec.allOnes 32 : LaneSet)))
  { s with channels := s.channels.map (fun p =>
      if p.1 % 192 = core then (p.1, p.2.map (fun m => { m with readers := all ++ m.readers })) else p) }

/-- After the last RESTORE routine of a team the device reloads the control state, and the groups resume (R292, R280). -/
def State.reloadTeam (s : State) (c slot : Nat) : State :=
  match s.team? c slot with
  | none => s
  | some t =>
    match t.run, (s.grid? t.grid).bind (fun g => g.saved.find? (t.teamId g)) with
    | .restoring reason, some image =>
      if !t.groups.all (fun g => g.2.routinesDone) then s
      else
        let s := (s.onTeam c slot (fun t => t.reload image)).attachAll c slot image
        let s := s.onGrid t.grid (fun g => { g with saved := g.saved.erase (t.teamId g) })
        let s := image.groups.foldl (fun s g =>
          (s.writeV c slot g.1 0 (g.2.vreg 0)).writeV c slot g.1 1 (g.2.vreg 1)) s
        (s.preemptRecord c slot 2 reason t).reapAll c slot
    | _, _ => s

/-- What a group that has not come to a safe point does keeps the cycle from being counted (R288, R293, R427): those of its paths that
are at none wait parked. -/
def State.excused (s : State) (c slot gi : Nat) (t : Team) (g : Group) : Bool :=
  g.pgo.isSome || g.called || g.paths.all (fun p => g.parked (s.physAt t.asid) p.1 p.2 || s.pathSafe c slot gi t g p.1 p.2)

/-- A cycle counts toward the pre-emption limit of a cluster (R293). -/
def State.counts (s : State) (grid clu : Nat) : Bool :=
  (clusterSites s grid clu).any (fun c => match s.team? c.1 c.2 with
    | some t => t.groups.any (fun g => !s.groupSafe c.1 c.2 g.1 t g.2 && !s.excused c.1 c.2 g.1 t g.2)
    | none => false)

/-- PREEMPT_LIMIT_EXPIRY (R293): the count has reached PRELIM before every group has come to a safe point. -/
def execPreemptLimitExpiry (grid clu : Nat) (s : State) : Out :=
  .next (
    let sites := clusterSites s grid clu
    let expired := sites.any (fun c => match s.team? c.1 c.2 with
      | some t => (match t.run with
        | .stopping n _ => decide ((s.die (dieOf c.1)).prelim.toNat ≤ n)
        | _ => false)
      | none => false)
    if !expired then s
    else sites.foldl (fun s c => match s.team? c.1 c.2 with
      | some t =>
        let late := (t.groups.filter (fun g => !s.groupSafe c.1 c.2 g.1 t g.2)).head?
        match late.or t.groups.head? with
        | some g => s.forcedHalt c.1 c.2 1 0 g.1 (s.recordPc t g.1 g.2)
        | none => s.forcedHalt c.1 c.2 1 0 0 0
      | none => s) s)

/-- CLUSTER_MOVE (R270): the device may move a resident cluster. -/
def execClusterMove (grid clu : Nat) (s : State) : Out := .next (if s.dev.halt.isSome then s else s.requestPreempt grid clu 2)

end Sys2Proof.Machine
end

