-- ==== Sys2Proof/Machine/Launch.lean ====
section
/-! DEFINITION. Launching paddock tasks and grids (R36 to R38, R41, R262 to R267, R421 to R423), admission and placement (R268 to
R270), leave (R272, R273, R424), hints (R425), completion words (R265) and the measures of R274. -/

namespace Sys2Proof.Machine

/-- Act as a release at DEV scope for the earlier accesses of the active lanes (R218): they settle, and the team's pins end. -/
def State.release (s : State) (x : Ctx) (act : State) : State :=
  if !x.settled then s.stallOn x.a 4
  else if !(pinsOf s x.a.core x.a.slot).isEmpty then
    let (k, s) := s.newWork 1
    ((s.unpinTeam x.a.core x.a.slot k).endWork k).awaitWork x.a k (some 4)
  else act

/-- A paddock launch record (R36) that passes R37, for a group: the tasks' common part. -/
def padRecord (r : Nat) (site : Site) (team : Nat × Nat) (asid : Nat) (sup : Bool) : Option (Nat × Task) :=
  let argn := bits r 317 313
  let rsvd := bits r 511 320 + bits r 255 249 + bits r 191 185 + bits r 127 121 + bits r 63 57
  let t : Task :=
    { st := .waiting, pgo := false, site := site, team := team, asid := asid, sup := sup, prio := bits r 319 318, t := 0, order := 0, pcore := 512,
      entry := bits r 56 0, nbund := bits r 312 304, base := bits r 120 64, argva := bits r 184 128, argn := argn,
      pin := bits r 120 64, stride := bits r 287 256, compl := bits r 248 192, work := 0, vb := 0, n := 0, q := 0, lanes := 0,
      shipped := [], regs := PadRegs.init, code := [], parity := [], zpar := none, got := [], sent := false,
      flight := none, refetch := [], save := none, forced := false }
  let n := bits r 303 288
  if n = 0 ∨ 16 < argn ∨ t.entry % 16 ≠ 0 ∨ (argn ≠ 0 ∧ t.argva % 32 ≠ 0) ∨ t.compl % 4 ≠ 0 ∨ rsvd ≠ 0 then none
  else some (n, t)

/-- PLAUNCH (R421, R36 to R38). -/
def execPlaunch (f : EngF) (s : State) : Out :=
  .next (s.issue [.s f.sa 2] (fun x =>
    let va := x.pairVA f.sa
    if va % 64 ≠ 0 then s.trapAt x.a 6 0 0
    else if x.act = 0 then
      s.lookOperand x va 64 (fun bs => (padRecord (leNat bs) x.a (s.teamName x.t) x.t.asid x.t.sup).isSome)
        ((s.onG x (fun g => g.fill f.fn [] [])).advance x.a)
    else s.release x (
      s.readOperand x va 64 (fun bs s =>
        match padRecord (leNat bs) x.a (s.teamName x.t) x.t.asid x.t.sup with
        | none => s.trapAt x.a 6 0 0
        | some (n, t) =>
          let (w, s) := s.newWork n
          let tasks := (List.range n).map (fun i => (s.nextTask + i, { t with t := i, order := s.ageCtr + i, work := w }))
          let s := { s with tasks := s.tasks ++ tasks, nextTask := s.nextTask + n, ageCtr := s.ageCtr + n }
          ((s.onG x (fun g => { g with tokens := g.tokens.set f.fn (.tasks w) })).changed x.a).advance x.a))))

/-- Every page of n bytes of code can be fetched (R41): the first fault, with its address. -/
def State.codeFault (s : State) (x : Ctx) (va n : Nat) : Option (Nat × Nat) × State :=
  (List.range (ceilDiv (va % 4096 + n) 4096)).foldl (fun r i =>
    match r with
    | (some e, s) => (some e, s)
    | (none, s) =>
      let at_ := (va / 4096 * 4096 + 4096 * i) % 2 ^ 57
      match s.xlate (whoLane x.a) x.a.core x.t.asid at_ .fetch x.t.sup false with
      | (.fault kind, s) => (some (kind, at_), s)
      | (.ok _, s) => (none, s)) (none, s)

/-- Every access of the active lanes has returned or been acknowledged, remote ones too (R230). -/
def Ctx.landed (x : Ctx) : Bool :=
  x.g.ops.all (fun o => !o.2.kind.isAccess || decide (o.2.lanes &&& x.act = 0) || x.g.covered { op := o.1, remote := true, lanes := x.act })

/-- PGO (R41, R230, R422). The pin is translated with load permission (DESIGN CHOICE, log 99). -/
def execPgo (f : EngF) (s : State) : Out :=
  let n := f.n4 + 1
  .next (s.issue ((List.range n).map (fun j => Reg.v (f.x8 + j) 1) ++ [.s f.sa 2, .s f.sb 4]) (fun x =>
    let entry := x.pairVA f.sb
    let nb := (x.s (f.sb + 2)).toNat
    if entry % 16 ≠ 0 ∨ bits nb 31 9 ≠ 0 then s.trapAt x.a 6 0 0
    else if x.act = 0 then s.advance x.a
    else
      let pin := x.pairVA f.sa
      match s.xlate (whoLane x.a) x.a.core x.t.asid pin .load x.t.sup false with
      | (.fault kind, s) => s.parkIssue x.a kind 5 x.t.asid pin
      | (.ok xl, s) =>
        match pinCore x.a.core xl.pa with
        | none => s.trapAt x.a 0x11 0 0
        | some p =>
          match s.codeFault x entry (16 * (nb + 1)) with
          | (some (kind, va), s) => s.parkIssue x.a kind 3 x.t.asid va
          | (none, s) =>
            if !x.landed then s.stallOn x.a 10
            else
              let (w, s) := s.newWork 1
              let word (j : Nat) : W256 := (x.g.vreg (f.x8 + j)).extractLsb' (256 * f.n2) 256
              let t : Task :=
                { st := .waiting, pgo := true, site := x.a, team := s.teamName x.t, asid := x.t.asid, sup := x.t.sup, prio := 0, t := 0, order := s.ageCtr,
                  pcore := p, entry := entry, nbund := nb, base := pin, argva := 0, argn := 0, pin := pin, stride := 0, compl := 0,
                  work := w, vb := f.x8, n := n, q := f.n2, lanes := x.act, shipped := (List.range n).map word, regs := PadRegs.init,
                  code := [], parity := [], zpar := none, got := [], sent := false, flight := none, refetch := [], save := none,
                  forced := false }
              let id := s.nextTask
              let s := { s with tasks := s.tasks.set id t, nextTask := id + 1, ageCtr := s.ageCtr + 1 }
              ((s.onG x (fun g => { g with pgo := some id })).changed x.a).advance x.a))

/-- PWAIT (R421). -/
def execPwait (f : EngF) (s : State) : Out :=
  .next (s.issue [] (fun x => if s.tokenDone x.g f.fn then s.advance x.a else s.stallOn x.a 10))

/-- The smallest CACHEMIN of the device (R263). -/
def State.leastCacheMin (s : State) : Nat :=
  (List.range Config.cores).foldl (fun m c => if (s.core c).cacheMin < m then (s.core c).cacheMin else m) 15

/-- A launch record (R262) that passes the checks of R263 on the record itself: the grid, with no arguments and no schedule, the
addresses and counts of which follow. -/
def launchRecord (r cmin asid : Nat) (sup : Bool) : Option (Grid × Nat × Nat × Nat × Nat) :=
  let g := bits r 480 476 + 1
  let cw := bits r 483 481 + 1
  let ch := bits r 487 484 + 1
  let v := (bits r 470 466 + 1) * 8
  let sr := (bits r 465 461 + 1) * 32
  let a := bits r 475 471
  let csn := bits r 460 454
  let argn := bits r 453 448
  let nclu := bits r 511 488 + 1
  let rsvd := bits r 1023 512 + bits r 447 443 + bits r 437 436 + bits r 383 377 + bits r 319 313 + bits r 255 249
    + bits r 191 185 + bits r 127 121 + bits r 63 57
  let argva := bits r 248 192
  let csched := bits r 184 128
  let sptab := bits r 120 64
  let log2p := bits r 442 440
  let ok := rsvd = 0 && bits r 56 0 % 8 = 0 && decide (sptab ≠ 0) && sptab % 64 = 0 && bits r 312 256 % 4 = 0 && argva % 4 = 0 &&
    csched % 32 = 0 && decide (cw * ch ≤ 12) && decide (ch ≤ 12) && decide (a ≤ 16) && decide (csn ≤ 64) && decide (argn ≤ sr) &&
    decide (1 ≤ log2p) && decide (log2p ≤ 5) && bits r 415 401 = 0 && decide (ceilDiv g 4 * v ≤ 1504) && decide (ceilDiv g 4 ≤ 16) &&
    decide (roundUp (bits r 435 416) 1024 ≤ (16 - cmin) * 0xC000)
  if ok then
    some ({ asid := asid, sup := sup, prio := bits r 439 438, order := 0, g := g, cw := cw, ch := ch, nclu := nclu, a := a, v := v,
            s := sr, log2p := log2p, fmt0 := BitVec.ofNat 32 (bits r 415 384), entry := BitVec.ofNat 57 (bits r 56 0), sptab := sptab,
            scratch := roundUp (bits r 435 416) 1024, aff := bits r 376 320, compl := bits r 312 256, args := [], sched := [],
            waiting := [], teamsLeft := nclu * (cw * ch), forced := false, lastCore := 0, work := 0, addParked := false, saved := [] },
          argva, argn, csched, csn)
  else none

/-- The grid with its arguments and schedule, where every entry passes R145. -/
def Grid.withData (g : Grid) (args sched : List Byte) (argn csn : Nat) : Option Grid :=
  let es := (List.range csn).map (fun i => leNat ((sched.drop (32 * i)).take 32))
  if es.all (fun e => (schedEntry e).isSome) then
    some { g with args := (List.range argn).map (fun i => BitVec.ofNat 32 (leNat ((args.drop (4 * i)).take 4))),
                  sched := es.map (fun e => BitVec.ofNat 256 e) }
  else none

/-- A grid waits for admission (R267, R423): the work stands for its end. -/
def State.submit (s : State) (g : Grid) : Nat × State :=
  let (w, s) := s.newWork 1
  let g := { g with order := s.ageCtr, work := w, waiting := (List.range g.nclu).map (fun c => (c, (0, 0, false))) }
  (w, { s with grids := s.grids.set s.nextGrid g, nextGrid := s.nextGrid + 1, ageCtr := s.ageCtr + 1 })

/-- LAUNCH (R423). -/
def execLaunch (f : EngF) (s : State) : Out :=
  .next (s.issue [.s f.sa 2] (fun x =>
    let va := x.pairVA f.sa
    if va % 128 ≠ 0 then s.trapAt x.a 6 0 0
    else if x.act = 0 then
      s.lookOperand x va 128 (fun bs => (launchRecord (leNat bs) s.leastCacheMin x.t.asid x.t.sup).isSome)
        ((s.onG x (fun g => g.fill f.fn [] [])).advance x.a)
    else s.release x (
      s.readOperand x va 128 (fun bs s =>
        match launchRecord (leNat bs) s.leastCacheMin x.t.asid x.t.sup with
        | none => s.trapAt x.a 6 0 0
        | some (g, argva, argn, csched, csn) =>
          s.readOperand x argva (4 * argn) (fun args s =>
            s.readOperand x csched (32 * csn) (fun sched s =>
              match g.withData args sched argn csn with
              | none => s.trapAt x.a 6 0 0
              | some g =>
                let g := { g with prio := if x.grid.prio < g.prio then x.grid.prio else g.prio }
                let (w, s) := s.submit g
                ((s.onG x (fun g => g.fill f.fn [] [w])).changed x.a).advance x.a))))))

/-- A read by the distributor under an ASID (R267): what a record, its arguments or its schedule hold. A page that a placement move
has frozen makes it wait (R29). -/
def State.queueRead (s : State) (w : Who) (asid : Nat) (sup : Bool) : Nat → Nat → Nat → ReadOut × State
  | 0, _, _ => (.ok [], s)
  | fuel + 1, va, n =>
    if n = 0 then (.ok [], s)
    else if frozenAt s asid va then (.wait, s)
    else
      let k := if 64 - va % 64 < n then 64 - va % 64 else n
      let s := s.walkFills w [] asid va
      match walk s [] asid va with
      | .error f => (.fault f.kind va, s.logWalk w f)
      | .ok (e, _) =>
        match applyEntry s e va .load sup false with
        | .fault kind => (.fault kind va, s)
        | .ok x =>
          match s.readSector w none x k with
          | (.ok bs, s) =>
            match State.queueRead s w asid sup fuel ((va + k) % 2 ^ 57) (n - k) with
            | (.ok rest, s) => (.ok (bs ++ rest), s)
            | r => r
          | r => r

/-- A queue's read that came to nothing (R267): it waits on a frozen page; a fault pauses the queue and is reported to the
supervisor, on die 0, as a fault record that stands in no buffer, for nothing parks (log 105); what lies in a hole, under an empty
key or poisoned pauses it likewise, with its record of R23 (log 70). -/
def State.queueStop (s : State) (w : Who) (q asid : Nat) : ReadOut → State
  | .fault kind va =>
    let e : FaultEntry := { kind := kind, agent := w.agent, acc := 0, asid := asid, count := 1, vpn := va % 2 ^ 57 / 4096 }
    (s.svRecord w.die 2 w (e.bits % 2 ^ 64) (e.bits / 2 ^ 64)).queueErr q 2
  | .bad kind pa => (s.log23 w kind pa).queueErr q 2
  | _ => s

/-- HEAD of a queue advances (R267). -/
def State.advanceHead (s : State) (q : Nat) : State :=
  s.onQueue q (fun x =>
    { x with ptr := BitVec.ofNat 64 (bits x.ptr.toNat 47 32 * 2 ^ 32 + (bits x.ptr.toNat 15 0 + 1) % 65536) })

/-- LAUNCH_QUEUE_READ (R267). -/
def execLaunchQueueRead (q : Nat) (s : State) : Out :=
  .next (
    let x := s.queue q
    let ctl := x.ctl.toNat
    let head := bits x.ptr.toNat 15 0
    if !s.dev.devstat.getLsbD 0 || s.dev.halt.isSome || !bit ctl 32 || bit ctl 33 || decide (256 ≤ q) || decide (bits x.ptr.toNat 47 32 = head) then s
    else
      let asid := bits ctl 63 48
      let sup := supOf s asid
      let w : Who := { agent := 7, die := 0, core := 0, slot := 0, group := 0, id := 0 }
      let va := (bits x.base.toNat 56 7 * 128 + head % 2 ^ bits ctl 39 36 * 128) % 2 ^ 57
      match s.queueRead w asid sup 80 va 128 with
      | (.ok bs, s) =>
        match launchRecord (leNat bs) s.leastCacheMin asid sup with
        | none => (s.queueErr q 1).advanceHead q
        | some (g, argva, argn, csched, csn) =>
          match s.queueRead w asid sup 80 argva (4 * argn) with
          | (.ok args, s) =>
            match s.queueRead w asid sup 80 csched (32 * csn) with
            | (.ok sched, s) =>
              match g.withData args sched argn csn with
              | none => (s.queueErr q 1).advanceHead q
              | some g =>
                let pmax := bits ctl 35 34
                ((s.submit { g with prio := if pmax < g.prio then pmax else g.prio }).2).advanceHead q
            | (r, s) => s.queueStop w q asid r
          | (r, s) => s.queueStop w q asid r
      | (r, s) => s.queueStop w q asid r)

/-- LQPTR_TAIL_WRITE (R267). -/
def execLqptrTailWrite (q tail : Nat) (s : State) : Out := .next (s.writeTail q tail)
/-- LQCTL_ERR_CLEAR (R267). -/
def execLqctlErrClear (q : Nat) (s : State) : Out := .next (s.clearErr q)

/-- The core of rank r of a rectangle (R268). -/
def rectCore (g : Grid) (die row col r : Nat) : Nat := die * 96 + (row + r / g.cw) * 8 + col + r % g.cw

/-- Groups of a team on a quarter. -/
def groupsOn (g : Grid) (q : Nat) : Nat := ((List.range g.g).filter (fun k => k % 4 = q)).length

/-- What the residents of a core take: V registers and groups on a quarter, S registers, accumulator blocks (R162, R268). -/
def State.taken (s : State) (core : Nat) (q : Nat) : Nat × Nat × Nat × Nat :=
  (s.core core).slots.foldl (fun n t =>
    match s.grid? t.2.grid with
    | none => n
    | some g =>
      let here := (t.2.groups.filter (fun x => x.2.quarter = q)).length
      (n.1 + here * g.v, n.2.1 + here, n.2.2.1 + t.2.groups.length * g.s, n.2.2.2 + g.a)) (0, 0, 0, 0)

/-- The bounds of R162 and R268 on a core, its scratchpad apart. -/
def State.coreRoom (s : State) (g : Grid) (core : Nat) : Bool :=
  let k := s.core core
  !k.halted && decide (k.slots.length < 64) &&
  (List.range 4).all (fun q =>
    let t := s.taken core q
    let n := groupsOn g q
    decide (t.1 + n * g.v ≤ 1504) && decide (t.2.1 + n ≤ 16)) &&
  (let t := s.taken core 0
   decide (t.2.2.1 + g.g * g.s ≤ 65536) && decide (t.2.2.2 + g.a ≤ 16))

/-- SCRATCH blocks of a core: the lowest ones (R148). -/
def Core.scratchBytes (k : Core) : Nat := (((List.range 16).takeWhile (fun b => k.block b = .scratch)).length) * 0xC000

/-- The lowest base of a free range of size bytes below an address (R152). -/
def Core.freeRange (k : Core) (top size : Nat) : Option Nat :=
  if size = 0 then some 0
  else
    (List.range (top / 1024)).map (fun i => 1024 * i) |>.find? (fun b =>
      decide (b + size ≤ top) && k.allocs.all (fun a => decide (b + size ≤ a.1) || decide (a.1 + a.2 ≤ b)))

/-- The lowest base of a free range of the scratchpad (R152). -/
def Core.padBase (k : Core) (size : Nat) : Option Nat := k.freeRange k.scratchBytes size

/-- Converting blocks can make the range free (R152): the lowest CACHE block, while CACHEMIN are left. -/
def Core.canConvert (k : Core) : Option Nat :=
  match k.cacheBlocks with
  | [] => none
  | b :: _ => if k.cacheBlocks.length ≤ k.cacheMin || k.blocks.any (fun m => m.2 = .switching && decide (m.1 < b)) then none else some b

/-- The scratchpad once every block that may be converted is SCRATCH: those in that mode or on their way to it, and the CACHE
blocks above CACHEMIN (R152). -/
def Core.padReach (k : Core) : Nat :=
  let coming := (k.switching.filter (fun w => !w.2.toFifo)).length
  k.scratchBytes + (coming + (k.cacheBlocks.length - k.cacheMin)) * 0xC000

/-- The range can be found, now or by converting blocks (R152, R263). -/
def Core.padFits (k : Core) (size : Nat) : Bool := (k.freeRange k.padReach size).isSome

/-- The rectangle is one of a die's mesh, and every core of it has room, the scratchpad apart (R268). -/
def State.rectRoom (s : State) (g : Grid) (die row col : Nat) : Bool :=
  decide (die < 2) && decide (row + g.ch ≤ 12) && decide (col + g.cw ≤ 8) &&
  (List.range (g.cw * g.ch)).all (fun r => s.coreRoom g (rectCore g die row col r))

/-- Every core of it has room, for the scratchpad too, now or after conversions (R268, R152). -/
def State.rectFits (s : State) (g : Grid) (die row col : Nat) : Bool :=
  s.rectRoom g die row col &&
  (List.range (g.cw * g.ch)).all (fun r => (s.core (rectCore g die row col r)).padFits g.scratch)

/-- Some rectangle whose place meets a test fits. -/
def State.someRect (s : State) (g : Grid) (place : Nat → Nat → Bool) : Bool :=
  (List.range 2).any (fun d => (List.range 12).any (fun r => place d r && (List.range 8).any (fun k => s.rectFits g d r k)))

/-- The stack of local HBM that AFF names (R270). -/
def State.affStack (s : State) (g : Grid) : Option Nat :=
  if g.aff = 0 then none
  else match translate s g.asid g.aff .load g.sup false with
    | .ok x => if region x.pa = .hbm then some (stackOf x.pa) else none
    | .fault _ => none

/-- How far a rectangle is from what AFF prefers (R270): 0 on the rows that serve the stack, 1 on its die, 2 elsewhere. -/
def affRank (t : Nat) (g : Grid) (die row : Nat) : Nat :=
  if die ≠ dieOfStack t then 2
  else if decide (row < 3 * (t % 4) + 3) && decide (3 * (t % 4) < row + g.ch) then 0
  else 1

/-- No rectangle that AFF prefers to this one fits (R270; log 106). -/
def State.affAgrees (s : State) (g : Grid) (die row : Nat) : Bool :=
  match s.affStack g with
  | none => true
  | some t => !s.someRect g (fun d r => decide (affRank t g d r < affRank t g die row))

/-- The order of R269: PRIO, arrival, CLUID. -/
def Grid.before (a : Grid) (ca : Nat) (b : Grid) (cb : Nat) : Bool :=
  if a.prio ≠ b.prio then decide (b.prio < a.prio)
  else if a.order ≠ b.order then decide (a.order < b.order)
  else decide (ca < cb)

/-- A cluster's wait on a die. -/
def waitOn (w : Nat × Nat × Bool) (die : Nat) : Nat := if die = 0 then w.1 else w.2.1

/-- A cluster that stands before another has waited its 2^20 cycles on a die, which bars the other from it (R269). -/
def State.barredOn (s : State) (grid clu die : Nat) (g : Grid) : Bool :=
  s.grids.any (fun h => h.2.waiting.any (fun c =>
    !(h.1 = grid && c.1 = clu) && h.2.before c.1 g clu && decide (2 ^ 20 ≤ waitOn c.2 die)))

/-- No cluster of a higher rank could be placed now, and none bars this one from the die (R269). -/
def State.mayAdmit (s : State) (grid clu die : Nat) (g : Grid) : Bool :=
  !s.barredOn grid clu die g && s.grids.all (fun h => h.2.waiting.all (fun c =>
    (h.1 = grid && c.1 = clu) || !h.2.before c.1 g clu || !s.someRect h.2 (fun d _ => !s.barredOn h.1 c.1 d h.2)))

/-- Start the conversion of a block for an allocation that finds no range (R152). -/
def State.convertBlock (s : State) (core size : Nat) : State :=
  let k := s.core core
  if (k.padBase size).isSome then s
  else match k.canConvert with
    | some b => if k.switching.any (fun w => !w.2.toFifo) then s else s.onCore core (fun k => k.startSwitch b false none)
    | none => s

/-- The groups of a team of a grid (R161, R264). -/
def Grid.groups (g : Grid) (age : Nat) : Tab Group :=
  (List.range g.g).map (fun k => (k, Group.start (k % 4) g.entry g.fmt0 g.log2p g.args (age + k)))

/-- The groups of a restored team: its registers are as at admission, and its RESTORE routines are to run (R292). -/
def Team.restoreGroups (image : Team) (g : Grid) (age : Nat) : Tab Group :=
  image.groups.map (fun (x : Nat × Group) =>
    (x.1, { Group.startRoutines { Group.start (x.1 % 4) g.entry 0 5 [] (age + x.1) with exited := x.2.exited } true x.2.ordinals with
            nextOp := x.2.nextOp }))

/-- Put a team in the lowest free slot of a core (R268, R264, R152, R122, R292). -/
def State.placeTeam (s : State) (grid clu core r : Nat) (g : Grid) (restore : Bool) : Option (Nat × State) :=
  let k := s.core core
  match (List.range 64).find? (fun n => (k.slots.find? n).isNone), k.padBase g.scratch with
  | some slot, some base =>
    let age := s.ageCtr
    let fresh : Team :=
      { grid := grid, cluster := clu, rank := r, asid := g.asid, sup := g.sup, groups := g.groups age, scratchBase := base,
        scratchSize := g.scratch, scratch := [], scratchPois := [], acc := [], prog := [], phases := [], stage := 0, issued := [],
        run := .running, forced := false }
    let team : Option Team := if !restore then some fresh
      else (g.saved.find? (clu * (g.cw * g.ch) + r)).map (fun image =>
        let reason := match image.run with | .saving n => n | _ => 0
        { fresh with groups := image.restoreGroups g age, stage := image.stage, issued := image.issued, run := .restoring reason })
    match team with
    | none => some (64, s)
    | some t =>
      let s := s.onCore core (fun k => { k with slots := k.slots.set slot t, epochs := k.epochs.set slot (k.epoch slot + 1) })
      some (slot, { s with ageCtr := s.ageCtr + 32 })
  | _, _ => none

/-- CLUSTER_ADMIT (R268 to R270, R152, R264, R146, R292): every team of the cluster in one step. Where a core has no free range of
its scratchpad, its lowest CACHE block begins to leave that mode, until CACHEMIN are left. -/
def execClusterAdmit (grid clu die row col : Nat) (s : State) : Out :=
  .next (match s.grid? grid with
    | none => s
    | some g =>
      match g.waiting.find? clu with
      | none => s
      | some (_, _, restore) =>
        -- In a replay each distributor keeps the order of its log (R309).
        let entry := (2 * grid + die % 2, clu)
        let order := match s.dev.replay, s.dev.admitReplay.find? (fun h => h.1 % 2 = die % 2) with
          | some _, some h => decide (h = entry)
          | _, _ => true
        if s.dev.halt.isSome || s.dev.ckTaking || !order || !s.rectRoom g die row col || !s.mayAdmit grid clu die g || !s.affAgrees g die row then s
        else
          let cores := (List.range (g.cw * g.ch)).map (fun r => (rectCore g die row col r, r))
          if cores.any (fun c => ((s.core c.1).padBase g.scratch).isNone) then cores.foldl (fun s c => s.convertBlock c.1 g.scratch) s
          else
            let (s, sites) := cores.foldl (fun (acc : State × List (Nat × Nat)) c =>
              match acc.1.placeTeam grid clu c.1 c.2 g restore with
              | some (slot, s) => (s, if slot < 64 then acc.2 ++ [(c.1, slot)] else acc.2)
              | none => acc) (s, [])
            let s := s.onGrid grid (fun g => { g with waiting := g.waiting.erase clu })
            let s := s.onDev (fun d => ({ d with
              admitLog := if d.ckctl.getLsbD 63 then d.admitLog ++ [entry] else d.admitLog,
              admitReplay := if d.replay.isSome then d.admitReplay.erase entry else d.admitReplay } : Device).settle)
            if restore then s
            else sites.foldl (fun s c =>
              s.scheduleAtStart { core := c.1, slot := c.2, group := 0, path := 0 }) s)

/-- ADMISSION_WAIT_LIMIT (R269): a die's count of a cluster's wait reaches 2^20. -/
def execAdmissionWaitLimit (die grid clu : Nat) (s : State) : Out :=
  .next (s.onGrid grid (fun g =>
    match g.waiting.find? clu with
    | some (a, b, r) =>
      let up (n : Nat) : Nat := if n < 2 ^ 20 then 2 ^ 20 else n
      { g with waiting := g.waiting.set clu (if die = 0 then (up a, b, r) else (a, up b, r)) }
    | none => g))

/-- A core without some of its teams: their FIFO blocks are CACHE blocks again (R157). -/
def Core.without_ (k : Core) (gone : Team → Bool) : Core :=
  let left := k.slots.filter (fun t => !gone t.2)
  let queues := k.fifos.filter (fun f => left.any (fun t => t.1 = f.2.owner))
  { k with slots := left, fifos := queues,
           blocks := k.blocks.filter (fun b => decide (b.2 ≠ .fifo) || queues.any (fun f => f.1 = b.1)) }

/-- A team at a core of a die holds resources that a cluster of a PRIO needs there (R269): the core has no room for it now, and a
rectangle with that core would fit if the die's teams of lower PRIO were gone. -/
def State.holdsNeeded (s : State) (g : Grid) (core : Nat) : Bool :=
  let die := dieOf core
  let lower (t : Team) : Bool := match s.grid? t.grid with | some v => decide (v.prio < g.prio) | none => false
  let bare : State := { s with cores := s.cores.map (fun k => if dieOf k.1 = die then (k.1, k.2.without_ lower) else k) }
  !(s.coreRoom g core && (s.core core).padFits g.scratch) &&
  (List.range 12).any (fun r => (List.range 8).any (fun c =>
    ((List.range (g.cw * g.ch)).map (rectCore g die r c)).contains core && bare.rectFits g die r c))

/-- ADMISSION_PREEMPT_LIMIT (R269): the count of a die that has reached 2^20 reaches a further 2^16, and the distributor requests
the pre-emption of a cluster of lower PRIO that holds, on the die, resources the waiting one needs. -/
def execAdmissionPreemptLimit (die grid clu victimGrid victimClu : Nat) (s : State) : Out :=
  .next (match s.grid? grid, s.grid? victimGrid with
    | some g, some v =>
      match g.waiting.find? clu with
      | some w =>
        let sites := clusterSites s victimGrid victimClu
        if waitOn w die < 2 ^ 20 || g.prio ≤ v.prio || s.dev.halt.isSome || !sites.any (fun c => dieOf c.1 = die && s.holdsNeeded g c.1) then s
        else
          let full := 2 ^ 20 + 2 ^ 16
          let now : Nat × Nat × Bool := if die = 0 then (full, w.2.1, w.2.2) else (w.1, full, w.2.2)
          let s := s.onGrid grid (fun g => { g with waiting := g.waiting.set clu now })
          s.requestPreempt victimGrid victimClu 1
      | none => s
    | _, _ => s)

/-- GRID_COMPLETION_ADD (R265, R423): every team has ended. -/
def execGridCompletionAdd (grid : Nat) (s : State) : Out :=
  .next (match s.grid? grid with
    | none => s
    | some g =>
      if g.teamsLeft ≠ 0 || g.addParked || s.dev.halt.isSome then s
      else
        let done (s : State) : State := { s.endWork g.work with grids := s.grids.erase grid }
        if g.compl = 0 then done s
        else
          let w : Who := { agent := 7, die := dieOf g.lastCore, core := g.lastCore, slot := 0, group := 0, id := 0 }
          match s.completionAdd w g.lastCore g.asid g.compl g.sup (if g.forced then 0x10000 else 1) g.work with
          | .wait => s
          | .parked s => s.onGrid grid (fun g => { g with addParked := true })
          | .sent s => { s with grids := s.grids.erase grid }
          | .done s => done s)

/-- Weight of a class of LEAVE (R424). -/
def leaveWeight (c : Nat) : Nat := match c with | 0 => 5 | 1 => 6 | 2 => 7 | 3 => 8 | _ => 4

/-- LEAVE (R424). -/
def execLeave (f : EngF) (s : State) : Out :=
  .next (s.issue [] (fun x =>
    if x.g.leave ≠ .none then s.advance x.a
    else
      let ask : LeaveAsk := .hint x.a.core x.a.slot x.a.group f.m3 (leaveWeight f.m3)
      let s := s.onDie (dieOf x.a.core) (fun d => { d with asks := d.asks ++ [ask] })
      ((s.onG x (fun g => { g with leave := .asked f.m3 })).changed x.a).advance x.a))

/-- The weight of a request (R273, R424). -/
def LeaveAsk.weight : LeaveAsk → Nat
  | .clause _ _ _ _ w => w
  | .hint _ _ _ _ w => w
  | .copy _ _ => 4
  | .pass _ w => w
  | .paddock _ => 1
  | .unit _ w => w

/-- LEAVE_GRANT (R273): the oldest request, once its weight fits. -/
def execLeaveGrant (die : Nat) (s : State) : Out :=
  .next (
    let d := s.die die
    match d.asks with
    | [] => s
    | a :: rest =>
      if d.budget < d.inUse + a.weight then s
      else
        let s := s.onDie die (fun d => { d with asks := rest, grants := d.grants ++ [a], inUse := d.inUse + a.weight })
        match a with
        | .hint c sl g cls _ => s.onGroup c sl g (fun x => { x with leave := .granted cls (s.core c).clock })
        | .copy c op => s.onCopy c op (fun o => { o with leave := 0 })
        | .pass h _ => s.passGranted h
        | _ => s)

/-- LEAVE_GRANT_EXPIRY (R424). -/
def execLeaveGrantExpiry (core slot group : Nat) (s : State) : Out :=
  .next (match s.group? core slot group with
    | none => s
    | some g =>
      match g.leave with
      | .granted _ at_ =>
        if (s.core core).clock < at_ + 2 ^ 16 then s
        else
          (s.giveBack (dieOf core) (hintLeave { core := core, slot := slot, group := group, path := 0 })).onGroup core slot group
            (fun g => { g with leave := .none })
      | _ => s)

/-- PLACE (R425): an affinity hint is kept for the teams to come; the device declines the others. -/
def execPlace (f : EngF) (s : State) : Out :=
  .next (s.issue [.s f.sa 2, .s f.sb 1] (fun x =>
    let h := (x.s f.sb).toNat
    let va := x.pairVA f.sa
    (if bits h 31 30 = 1 ∧ bits h 29 0 = 0 ∧ (translate s x.t.asid va .load x.t.sup false).good = true then (s.onGrid x.t.grid (fun g => { g with aff := va })).changed x.a else s).advance x.a))

/-- SPIN_MARK_TIMEOUT (R260). -/
def execSpinMarkTimeout (core slot group path : Nat) (s : State) : Out :=
  .next (s.onPath { core := core, slot := slot, group := group, path := path } (fun p =>
    match p.spin.mark with
    | some (at_, _) => if (s.core core).clock < at_ + 4096 then p else { p with spin := p.spin.cleared }
    | none => p))

/-- A group that has been ready for 64 cycles without issuing starves, and has done so since the 64th of them (R271). -/
def Group.starve (g : Group) (clock : Nat) : Group :=
  if 64 ≤ g.readyFor && g.starvingSince.isNone then { g with starvingSince := some (clock - (g.readyFor - 64)) } else g
/-- GROUP_STARVING (R271): ready for 64 cycles without issuing. -/
def execGroupStarving (core slot group : Nat) (s : State) : Out :=
  .next (s.onGroup core slot group (fun g => g.starve (s.core core).clock))

/-- What a path waits for, as the code of R274: what it has come to wait for, its clause's bytes, or what its next instruction would
meet if it were tried now. None for a ready path (R271). -/
def State.waitsOn (s : State) (g : Group) (p : Path) : Option Nat :=
  if p.fetchParked then some (p.stall.getD 12)
  else
    let next : Option Nat := if p.words.isEmpty then some 12 else p.stall
    match p.wait with
    | .join _ => some 6
    | .barrier _ _ _ _ _ _ => some (p.stall.getD 5)
    | .fifo _ => some 1
    | .token f _ => if s.tokenDone g f then none else some (p.stall.getD 8)
    | .work w => if s.workDone w then next else some (p.stall.getD 8)
    | .step => some 3
    | .none => next

/-- The path is ready (R271, R274). -/
def State.isReady (s : State) (a : Site) (t : Team) (g : Group) (p : Path) : Bool :=
  g.free && g.pathFree a.path p && !s.heldAt a t g p && (s.waitsOn g p).isNone

/-- A store of the group waits, as every path to its device has reached its limit (R302). -/
def State.linksFull (s : State) (a : Site) (g : Group) : Bool :=
  g.ops.any (fun o => decide (o.2.kind = .store) && o.2.parts.any (fun p => decide (p.st = .ready) && match p.xl with
    | some x =>
      let d := bits x.pa 49 40
      decide (region x.pa = .remote) && (pathsTo s d).all (fun q => decide (4095 ≤ pathCount s (a.core, a.slot, a.group) d q.1)) && !(pathsTo s d).isEmpty
    | none => false))

/-- The lowest of the reasons of R274 that apply to a path that is not ready. -/
def State.stallReason (s : State) (a : Site) (g : Group) (p : Path) : Option Nat :=
  let held := ((s.team? a.core a.slot).map (fun t => s.heldAt a t g p)).getD false
  lowest ((s.waitsOn g p).toList ++ (if s.linksFull a g then [4] else []) ++ (if p.spin.mark.isSome then [9] else []) ++
    (if g.pgo.isSome then [10] else []) ++
    (if g.ops.any (fun o => o.2.path = a.path && o.2.parts.any (fun q => q.st = .rejected)) then [13] else []) ++
    (if held || g.hold.isSome || (!p.fetchParked && !g.pathFree a.path p) || g.paths.any (fun q => q.2.pend.isSome) then [14] else []))

/-- What a path would wait for if it were tried now (R271, R274): `run` is the meaning of an instruction. -/
def State.reasonAt (run : Instr → State → Out) (s : State) (a : Site) : Option Nat :=
  let here (u : State) : Option Nat := match u.group? a.core a.slot a.group with
    | some g => (g.paths.find? a.path).bind (fun p => u.waitsOn g p)
    | none => none
  match s.approach a with
  | .wait u => here u
  | .took _ => here s
  | .run w u =>
    match decode w with
    | .error _ => none
    | .ok i =>
      match run i { u with cur := some a } with
      | .next t => if t.pcAt a = u.pcAt a then here t else none
      | _ => none

/-- Every path of a core that its schedulers may take learns what it would meet if it were tried now, so that the counters of R274
and a sample see it. -/
def State.probe (run : Instr → State → Out) (s : State) (core : Nat) : State :=
  ((List.range 4).flatMap (s.candidates core)).foldl (fun u c =>
    let r := s.reasonAt run c.site
    u.onPath c.site (fun p => { p with stall := r })) s

/-- A counter of 48 bits that saturates (R274). -/
def sat48 (n : Nat) : Nat := if 2 ^ 48 - 1 ≤ n then 2 ^ 48 - 1 else n + 1

/-- Groups of a quarter, each with its slot and number. -/
def Core.groupsOf (k : Core) (q : Nat) : List (Nat × Team × Nat × Group) :=
  k.slots.flatMap (fun t => (t.2.groups.filter (fun g => g.2.quarter = q)).map (fun g => (t.1, t.2, g.1, g.2)))

/-- The least of a list by a measure. -/
def leastBy {α : Type} (f : α → Nat) : List α → Option α
  | [] => none
  | x :: t => match leastBy f t with
    | none => some x
    | some y => some (if f y < f x then y else x)

/-- One cycle of a quarter's counters (R274). -/
def State.countQuarter (s : State) (core q : Nat) : State :=
  let gs := (s.core core).groupsOf q
  let ready := gs.filter (fun g => g.2.2.2.paths.any (fun p =>
    s.isReady { core := core, slot := g.1, group := g.2.2.1, path := p.1 } g.2.1 g.2.2.2 p.2))
  let n := ready.length
  let s := s.onQuarter core q (fun x => { x with eligible := x.eligible.set n (sat48 (x.eligible.getD n 0)) })
  let clock := (s.core core).clock
  let s := gs.foldl (fun s g => s.onGroup core g.1 g.2.2.1 (fun x =>
    if ready.any (fun r => r.1 = g.1 && r.2.2.1 = g.2.2.1) then ({ x with readyFor := x.readyFor + 1 } : Group).starve clock
    else { x with readyFor := 0, starvingSince := none })) s
  if n ≠ 0 then s
  else
    match leastBy (fun g => g.2.2.2.age) gs with
    | none => s
    | some g =>
      match (leastBy (fun p => p.2.lastIssue) g.2.2.2.paths).bind
          (fun p => s.stallReason { core := core, slot := g.1, group := g.2.2.1, path := p.1 } g.2.2.2 p.2) with
      | none => s
      | some r => s.onQuarter core q (fun x => { x with stalls := x.stalls.set r (sat48 (x.stalls.getD r 0)) })

/-- ELIGIBILITY_COUNT (R274, R293): one cycle of a core. Its clock moves on, its quarters count, and the counts of pre-emptions
under way grow. -/
def execEligibilityCount (core : Nat) (s : State) : Out :=
  .next (
    let s := (List.range 4).foldl (fun s q => s.countQuarter core q) s
    let slots := ((s.core core).slots.filter (fun t => match t.2.run with
      | .stopping _ _ => s.counts t.2.grid t.2.cluster
      | _ => false)).map (fun t => t.1)
    s.onCore core (fun k => { k with clock := k.clock + 1, slots := k.slots.map (fun (t : Nat × Team) =>
      (t.1, match t.2.run with
        | .stopping n r => if slots.contains t.1 then { t.2 with run := .stopping (n + 1) r } else t.2
        | _ => t.2)) }))

end Sys2Proof.Machine
end

