-- ==== Sys2Proof/Machine/System.lean ====
section
/-! DEFINITION. Traps and returns (R277, R426), calls to the supervisor (R427, R428), control registers (R429), TLBINV and FLTRPL
(R287, R430, R431), the fatal-error halt (R431), and the supervisor's acts on teams (R281). -/

namespace Sys2Proof.Machine

/-- TRAP (R426). -/
def execTrap (f : EngF) (s : State) : Out :=
  .next (s.issue [] (fun x =>
    (s.advance x.a).takeTrap x.a { cause := 0x12, detail := f.x8, addr := 0, pc := x.p.pc + 8, inst := some x.p.pc, debug := 0 }))

/-- BRK (R426). -/
def execBrk (f : EngF) (s : State) : Out :=
  .next (s.issue [] (fun x => s.takeTrap x.a { cause := 0x13, detail := f.x8, addr := 0, pc := x.p.pc, inst := none, debug := 1 }))

/-- TRAP_ENTRY (R277): a pending trap is taken, once nothing stands before it. -/
def execTrapEntry (core slot group path : Nat) (s : State) : Out :=
  .next (s.enterTrap { core := core, slot := slot, group := group, path := path })

/-- The end of a routine (R292): the next one is to begin, or the group has run its last. -/
def State.endRoutine (s : State) (x : Ctx) (r : Routine) : State :=
  match (x.g.ops.head?).map (fun o => o.2.count) with
  | some n => s.stallOn x.a n
  | none =>
    let s := s.endClause x.a
    match r.left.drop 1 with
    | [] =>
      let s := s.onG x (fun g => { g with routine := some { r with left := [], pending := false }, paths := [] })
      if r.restore then s.reloadTeam x.a.core x.a.slot else s
    | left =>
      s.onG x (fun g => { g with routine := some { r with left := left, pending := true },
                                 paths := [(x.a.path, Path.start (~~~ g.exited) 0 0)] })

/-- Return from the handler (R277): the path resumes where the frame says. -/
def State.leaveTrap (s : State) (x : Ctx) (bs : List Byte) (pc : PcVal) (words : List W64) (hdr : Header) (hdrPc : PcVal) (skip : Bool) : State :=
  let nest := BitVec.ofNat 128 (leNat ((bs.drop 32).take 16))
  let fmt : W32 := BitVec.ofNat 32 (leNat ((bs.drop 24).take 4) % 2 ^ 17)
  let s := s.endClause x.a
  let s := s.onG x (fun g =>
    { g with gstat := g.gstat &&& ~~~ 0x80000000#32, handling := none, nest := nestSet g.nest x.p.lanes (nestOf nest) })
  s.onPath x.a (fun p =>
    { p with pc := pc, fmt := fmt, words := words, hdr := hdr, hdrPc := hdrPc, fresh := decide (words.length = hdr.count), wait := .none,
             waitc := none, stall := none, la := [], skipBp := skip })

/-- ERET (R277, R292, R426). -/
def execEret (_f : EngF) (s : State) : Out :=
  .next (s.issue [] (fun x =>
    match x.g.routine, x.g.handling with
    | some r, _ => s.endRoutine x r
    | none, none => s.trapAt x.a 4 5 0
    | none, some h =>
      if (wordsOf h.frame 64).any (fun w => x.t.scratchPois.contains w) then
        (((s.advance x.a).log23 (whoLane x.a) 3 0).holdGroup x.a.core x.a.slot x.a.group)
      else
        let bs := x.t.bytesAt h.frame 64
        let frame := leNat (bs.take 8)
        let pc : PcVal := BitVec.ofNat 57 frame
        if frame = h.pc.toNat then
          match h.debug with
          | 1 => s.leaveTrap x bs (pc + 8) (h.words.drop 1) h.hdr h.hdrPc false
          | 2 => s.leaveTrap x bs pc h.words h.hdr h.hdrPc true
          | _ => s.leaveTrap x bs pc h.words h.hdr h.hdrPc false
        else
          let wrong (s : State) : State := s.forcedHalt x.a.core x.a.slot 4 0 x.a.group x.p.pc.toNat
          if frame % 8 ≠ 0 ∨ 2 ^ 57 ≤ frame then wrong s
          else
            match s.readDesc (whoLane x.a) x.a.core x.t.asid .fetch x.t.sup frame 8 with
            | (.fault kind va, s) => s.parkIssue x.a kind 3 x.t.asid va
            | (.bad kind pa, s) => ((s.advance x.a).log23 (whoLane x.a) kind pa).holdGroup x.a.core x.a.slot x.a.group
            | (.wait, s) => s
            | (.ok hb, s) =>
              if bits (leNat hb) 63 56 ≠ 0xC5 then wrong s else s.leaveTrap x bs pc [] h.hdr h.hdrPc false))

/-- A record of the call ring (R427). -/
def callRecord (s : State) (x : Ctx) (i : Nat) : List Byte :=
  let seq := (s.die (dieOf x.a.core)).callSeq
  leBytes 8 (seq % 65536 * 2 ^ 48 + i * 2 ^ 40 + x.a.core * 2 ^ 24 + x.a.slot * 2 ^ 18 + x.a.group * 2 ^ 13)
    ++ leBytes 8 (x.t.asid % 65536) ++ leBytes 8 (x.g.spair 0).toNat ++ leBytes 8 (x.g.spair 2).toNat

/-- SYSCALL (R427). -/
def execSyscall (f : EngF) (s : State) : Out :=
  .next (s.issue [.s 0 2, .s 2 2] (fun x =>
    let s := s.changed x.a
    let die := dieOf x.a.core
    let d := s.die die
    let ctl := d.scqCtl.toNat
    let tail := bits d.scqPtr.toNat 15 0
    let head := bits d.scqPtr.toNat 47 32
    let fail : State := (s.onG x (fun g => g.setS 0 0xFFFFFFFF)).advance x.a
    if !bit ctl 0 || decide (ringSize ctl ≤ (tail + 65536 - head) % 65536) then fail
    else
      match recordWrite s (whoLane x.a) (bits ctl 56 5 * 32 + tail % ringSize ctl * 32) (callRecord s x f.x8) with
      | (false, _) => fail
      | (true, s) =>
        let s := s.onDie die (fun d =>
          { d with scqPtr := BitVec.ofNat 64 (head * 2 ^ 32 + (tail + 1) % 65536), callSeq := (d.callSeq + 1) % 65536 })
        (s.advance x.a).onG x (fun g => { g with hold := some .syscall, gstat := g.gstat ||| 0x40000000 })))

/-- A write of SCRESP (R427, R428). -/
def State.respond (s : State) (v : Nat) : State :=
  s.onGroup (bits v 31 24) (bits v 23 18) (bits v 17 13) (fun g =>
    if g.called then
      (g.setS 0 (BitVec.ofNat 32 (bits v 63 32))).letGo (if g.hold = some .both then some .machineCheck else none)
    else g)
/-- SCRESP_WRITE (R427): the register of a die. -/
def execScrespWrite (_die value : Nat) (s : State) : Out := .next (s.respond value)

/-- TEAMCTL RESUME (R281): every group held for a machine check goes on. -/
def State.teamResume (s : State) (core slot : Nat) : State :=
  (s.onTeam core slot (fun t => { t with groups := t.groups.map (fun (g : Nat × Group) =>
    (g.1, if g.2.hold = some .machineCheck then g.2.letGo none
          else if g.2.hold = some .both then g.2.letGo (some .syscall) else g.2)) })).reapAll core slot
/-- TEAMCTL_RESUME (R281). -/
def execTeamctlResume (core slot : Nat) (s : State) : Out := .next (s.teamResume core slot)
/-- TEAMCTL KILL (R281, R293). -/
def State.teamKill (s : State) (core slot : Nat) : State :=
  match s.team? core slot with
  | none => s
  | some t => match t.groups.head? with
    | some g => s.forcedHalt core slot 6 0 g.1 (s.recordPc t g.1 g.2)
    | none => s.forcedHalt core slot 6 0 0 0
/-- TEAMCTL_KILL (R281, R293). -/
def execTeamctlKill (core slot : Nat) (s : State) : Out := .next (s.teamKill core slot)

/-- SRAMCTL (R149). -/
def Core.sramCtl (k : Core) : Nat :=
  k.cacheMin * 2 ^ 32 + (List.range 16).foldl (fun n b => n + (match k.block b with
    | .cache => 0 | .scratch => 1 | .fifo => 2 | .switching => 3) * 4 ^ b) 0

/-- The register at a CSR index as a core reads it (R429). -/
def csrRead (s : State) (core idx : Nat) : W64 :=
  let k := s.core core
  let d := s.die (dieOf core)
  if 0x300 ≤ idx ∧ idx < 0x310 then
    match k.faults[(idx - 0x300) / 2]? with
    | some e => BitVec.ofNat 64 (e.bits / 2 ^ (64 * (idx % 2)))
    | none => 0
  else if idx = 0x310 then BitVec.ofNat 64 (b2n k.dropped * 2 ^ 8 + k.faults.length)
  else if idx = 0x311 then BitVec.ofNat 64 k.sramCtl
  else if idx = 0x319 then d.prelim
  else if 0x320 ≤ idx ∧ idx < 0x330 then d.bp.getD (idx - 0x320) 0
  else if idx = 0x330 then d.smpCtl
  else if idx = 0x331 then d.smpBase
  else if idx = 0x332 then d.smpPtr
  else if idx = 0x340 then d.scqCtl
  else if idx = 0x341 then d.scqPtr
  else if idx = 0x350 then BitVec.ofNat 64 (d.inUse % 65536 * 2 ^ 16 + d.budget % 65536)
  else if 0x400 ≤ idx ∧ idx < 0x800 then
    let q := k.quarter ((idx - 0x400) / 0x100)
    let n := idx % 0x100
    if n ≤ 16 then BitVec.ofNat 64 (q.eligible.getD n 0)
    else if 0x20 ≤ n ∧ n < 0x2F then BitVec.ofNat 64 (q.stalls.getD (n - 0x20) 0)
    else 0
  else 0

/-- A write of SMPCTL (R307). -/
def smpWrite (old v : W64) : W64 :=
  let period := bits v.toNat 55 32
  let kept := bits old.toNat 31 0
  BitVec.ofNat 64 (bits v.toNat 63 63 * 2 ^ 63 + (if period < 1024 then 1024 else period) * 2 ^ 32
    + (BitVec.ofNat 32 kept &&& ~~~ BitVec.ofNat 32 v.toNat).toNat)

/-- A write of the register at a CSR index by a core (R429). -/
def csrWrite (s : State) (core idx : Nat) (v : W64) : State :=
  let x := v.toNat
  let onD (f : Die → Die) : State := s.onDie (dieOf core) f
  if idx = 0x310 then s.onCore core (fun k => { k with dropped := k.dropped && !bit x 8 })
  else if idx = 0x311 then s.onCore core (fun k => { k with cacheMin := if bits x 35 32 = 0 then 1 else bits x 35 32 })
  else if idx = 0x318 then
    if bits x 63 56 = 1 then s.teamResume (bits x 7 0) (bits x 13 8)
    else if bits x 63 56 = 2 then s.teamKill (bits x 7 0) (bits x 13 8) else s
  else if idx = 0x319 then onD (fun d => { d with prelim := v })
  else if 0x320 ≤ idx ∧ idx < 0x330 then
    onD (fun d => { d with bp := d.bp.set (idx - 0x320) (maskWrite 0 v (span 63 63 + span 47 32 + span 11 0)) })
  else if idx = 0x330 then onD (fun d => { d with smpCtl := smpWrite d.smpCtl v })
  else if idx = 0x331 then onD (fun d => { d with smpBase := maskWrite d.smpBase v (span 56 6) })
  else if idx = 0x332 then onD (fun d => { d with smpPtr := maskWrite d.smpPtr v (span 47 32) })
  else if idx = 0x340 then onD (fun d => { d with scqCtl := maskWrite d.scqCtl v (span 56 0) })
  else if idx = 0x341 then onD (fun d => { d with scqPtr := maskWrite d.scqPtr v (span 47 32) })
  else if idx = 0x342 then s.respond x
  else if idx = 0x350 then onD (fun d => { d with budget := if bits x 15 0 < 64 then 64 else bits x 15 0 })
  else s

/-- An instruction of the supervisor level: ILLOP 0x05 at user level, before its registers are checked (R326, R417). -/
def State.privileged (s : State) (regs : List Reg) (act : Ctx → State) : State :=
  match s.ctx? with
  | none => s
  | some x => if !x.t.sup then s.trapAt x.a 4 5 0 else s.issue regs act

/-- The index of a CSR instruction: its bits [23:12] (R429). -/
def EngF.csr (f : EngF) : Nat := f.x8 * 16 + f.n4

/-- CSRR (R429). -/
def execCsrr (f : EngF) (s : State) : Out :=
  .next (s.privileged [.s f.sd 2] (fun x => (s.onG x (fun g => g.setPair f.sd (csrRead s x.a.core (EngF.csr f)))).advance x.a))
/-- CSRW (R429). The path has stepped past it when the write takes effect. -/
def execCsrw (f : EngF) (s : State) : Out :=
  .next (s.privileged [.s f.sa 2] (fun x => csrWrite ((s.advance x.a).changed x.a) x.a.core (EngF.csr f) (x.g.spair f.sa)))

/-- REGISTER_WRITE (R298): the supervisor writes a register of the device. -/
def execRegisterWrite (off value : Nat) (s : State) : Out := .next (regWrite s off (BitVec.ofNat 64 value))

/-- A TLBINV covers an ASID, and for TLBINV.PAGE a page (R430): the address is given as a page number and its size. -/
def invCovers (mode asid va : Nat) (a vpn lg : Nat) : Bool :=
  mode = 0 || (a = asid && (mode = 1 || vpn = va / 2 ^ lg))

/-- A walk-cache entry that a TLBINV removes (R284). -/
def invWalk (mode asid va : Nat) (e : WalkEntry) : Bool :=
  mode = 0 || (e.asid = asid && (mode = 1 || e.prefixBits = va / 2 ^ (12 + 9 * e.level)))

/-- An access that has been translated under an ASID that a TLBINV covers, near enough to its page (R430). -/
def invTouches (mode asid va a at_ : Nat) : Bool := mode = 0 || (a = asid && (mode = 1 || at_ / 2 ^ 30 = va / 2 ^ 30))

/-- Accesses of a core that a TLBINV waits for: operations of groups, copies (1000 + core), reads of other devices by copies
(5000). -/
def State.invWaits (s : State) (core mode asid va : Nat) : List (Nat × Nat × Nat × Nat) :=
  let k := s.core core
  let ops := k.slots.flatMap (fun t => t.2.groups.flatMap (fun g =>
    (g.2.ops.filter (fun o => o.2.space = .global && o.2.parts.any (fun p =>
      p.xl.isSome && !p.returned o.2.kind && invTouches mode asid va t.2.asid p.addr))).map (fun o => (core, t.1, g.1, o.1))))
  let copies := (k.copies.filter (fun o => invTouches mode asid va o.2.asid va &&
    o.2.units.any (fun u => match u.2 with | .written => true | .adding _ _ => true | _ => false))).map (fun o => (1000 + core, o.1, 0, 0))
  let reads := (s.sent.filter (fun r => match r.2.answer with
    | .unit c op _ => decide (c = core) && ((k.copies.find? op).map (fun o => invTouches mode asid va o.asid va)).getD false
    | _ => false)).map (fun r => (5000, r.1, 0, 0))
  ops ++ copies ++ reads

/-- Tasks of a paddock core with translated accesses under way, which a TLBINV waits for (2000 and the task). -/
def State.padWaits (s : State) (p mode asid va : Nat) : List (Nat × Nat × Nat × Nat) :=
  (s.tasks.filter (fun t => t.2.pcore = p && (t.2.flight.isSome || t.2.sent) && invTouches mode asid va t.2.asid va)).map
    (fun t => (2000, t.1, 0, 0))

/-- The ASID of an acknowledgement of an engine's write or a host's access, where a TLBINV covers it (R430). -/
def ackCovered (mode asid va : Nat) (s : State) : AckTo → Bool
  | .work _ (some a) => invTouches mode asid va a va
  | .nobody (some a) => invTouches mode asid va a va
  | .host fn _ => invTouches mode asid va (s.fn fn).asid va
  | _ => false

/-- Accesses of engines and of the host that a TLBINV waits for, once every unit has acted: writes to be acknowledged (4000) and
requests to other devices (5000), those of tasks and teams that have ended by now among them (R430). -/
def State.engineWaits (s : State) (mode asid va : Nat) : List (Nat × Nat × Nat × Nat) :=
  (s.acks.filter (fun a => ackCovered mode asid va s a.2.dest)).map (fun a => (4000, a.1, 0, 0)) ++
    (s.sent.filter (fun r => ackCovered mode asid va s r.2.answer)).map (fun r => (5000, r.1, 0, 0))

/-- What a TLBINV waits for has finished. -/
def State.finished (s : State) (w : Nat × Nat × Nat × Nat) : Bool :=
  if w.1 = 5000 then (s.sent.find? w.2.1).isNone
  else if w.1 = 4000 then (s.acks.find? w.2.1).isNone
  else if w.1 = 2000 then
    match s.tasks.find? w.2.1 with
    | none => true
    | some t => t.flight.isNone && !t.sent
  else if 1000 ≤ w.1 then
    match (s.core (w.1 - 1000)).copies.find? w.2.1 with
    | none => true
    | some o => !o.units.any (fun u => match u.2 with | .written => true | .adding _ _ => true | _ => false)
  else
    match (s.group? w.1 w.2.1 w.2.2.1).bind (fun g => g.ops.find? w.2.2.2) with
    | none => true
    | some o => o.parts.all (fun p => p.returned o.kind || p.st = .parked || p.st = .walk)

/-- Start a broadcast; the path waits for it, charged FENCE (R430, R431). -/
def State.broadcast (s : State) (x : Ctx) (what : Broadcast) (units : Nat) : State :=
  let (w, s) := s.newWork 1
  let b : Bcast := { what := what, work := w, left := List.range units, waits := [] }
  let s := { s with bcasts := s.bcasts.set s.nextBcast b, nextBcast := s.nextBcast + 1 }
  ((s.changed x.a).advance x.a).awaitWork x.a w (some 8)

/-- TLBINV.ALL (R430): 192 cores, 2 L2 TLBs, 512 paddock cores, the walk caches of 2 dies and 8 stacks. -/
def execTlbinvAll (_f : EngF) (s : State) : Out := .next (s.privileged [] (fun x => s.broadcast x (.tlbinv 0 0 0) 716))
/-- TLBINV.ASID (R430). -/
def execTlbinvAsid (f : EngF) (s : State) : Out :=
  .next (s.privileged [.s f.sa 1] (fun x => s.broadcast x (.tlbinv 1 ((x.s f.sa).toNat % 65536) 0) 716))
/-- TLBINV.PAGE (R430). -/
def execTlbinvPage (f : EngF) (s : State) : Out :=
  .next (s.privileged [.s f.sa 1, .s f.sb 2] (fun x => s.broadcast x (.tlbinv 2 ((x.s f.sa).toNat % 65536) (x.pairVA f.sb)) 716))

/-- No LDR of the team that has yet to retire enters a fold entry then (R175). -/
def Team.unfolded (t : Team) : Team :=
  { t with groups := t.groups.map (fun (g : Nat × Group) => (g.1, { g.2 with
      ops := mapIf (fun o => o.2.fold.isSome) (fun o => (o.1, { o.2 with fold := none, spoiled := false, touched := [] })) g.2.ops })) }

/-- A unit removes what a TLBINV covers (R430, R175). -/
def State.invUnit (s : State) (unit mode asid va : Nat) : State :=
  let keep (l : List TlbEntry) : List TlbEntry := l.filter (fun e => !invCovers mode asid va e.asid e.vpn e.lg)
  let walks (l : List WalkEntry) : List WalkEntry := l.filter (fun e => !invWalk mode asid va e)
  if unit < 192 then
    s.onCore unit (fun k =>
      { k with
        tlb := keep k.tlb,
        quarters := k.quarters.map (fun (q : Nat × Quarter) =>
          (q.1, { q.2 with folds := q.2.folds.filter (fun (e : FoldEntry) => decide (mode ≠ 0) && decide (e.key.asid ≠ asid)) })),
        slots := mapIf (fun t => mode = 0 || t.2.asid = asid) (fun t => (t.1, t.2.unfolded)) k.slots })
  else if unit < 194 then s.onDie (unit - 192) (fun d => { d with tlb := keep d.tlb })
  else if unit < 706 then s.onPCore (unit - 194) (fun p => { p with tlb := keep p.tlb })
  else if unit < 708 then s.onDie (unit - 706) (fun d => { d with walk := walks d.walk })
  else s.onStack (unit - 708) (fun k => { k with walk := walks k.walk })

/-- A unit acts after the units whose entries it fills its own from: a core or paddock core after its die's
L2 TLB, and that after the walkers of the die and of its stacks. What it fills its own from once it has acted is then as the tables stand at
that moment (R430, R432; log 136). -/
def invBehind (left : List Nat) (unit : Nat) : Bool :=
  if unit < 192 then left.contains (192 + dieOf unit)
  else if unit < 194 then left.contains (706 + (unit - 192)) || (List.range 4).any (fun k => left.contains (708 + 4 * (unit - 192) + k))
  else if unit < 706 then left.contains (192 + (unit - 194) / 256)
  else false

/-- TLBINV_UNIT_ACT (R430): a unit acts; once all have, the broadcast ends with the last access that it waits for. -/
def execTlbinvUnitAct (bc unit : Nat) (s : State) : Out :=
  .next (match s.bcasts.find? bc with
    | none => s
    | some b =>
      match b.what with
      | .tlbinv mode asid va =>
        let acts := b.left.contains unit && !invBehind b.left unit
        let waits := if !acts then b.waits
          else b.waits ++ (if unit < 192 then s.invWaits unit mode asid va
            else if 194 ≤ unit ∧ unit < 706 then s.padWaits (unit - 194) mode asid va else [])
        let s := if acts then s.invUnit unit mode asid va else s
        let left := if acts then b.left.filter (fun u => u ≠ unit) else b.left
        let waits := if acts && left.isEmpty then waits ++ s.engineWaits mode asid va else waits
        let waits := waits.filter (fun w => !s.finished w)
        if left.isEmpty && waits.isEmpty then ({ s with bcasts := s.bcasts.erase bc }).endWork b.work
        else { s with bcasts := s.bcasts.set bc { b with left := left, waits := waits } }
      | _ => s)

/-- FLTRPL.ALL (R287, R431): 192 cores, 8 stacks, 2 L2 TLBs. -/
def execFltrplAll (_f : EngF) (s : State) : Out := .next (s.privileged [] (fun x => s.broadcast x .replay 202))

/-- The pending-table entries of a unit's own fault buffer are cleared (R287). -/
def State.clearPending (s : State) (die buf : Nat) : State :=
  s.onDie die (fun d => { d with pending := d.pending.filter (fun p => p.buf ≠ buf) })

/-- An entry takes its place among those in order of age. -/
def insertAge (e : Nat × Nat × Nat × Nat) : List (Nat × Nat × Nat × Nat) → List (Nat × Nat × Nat × Nat)
  | [] => [e]
  | x :: t => if e.1 ≤ x.1 then e :: x :: t else x :: insertAge e t

/-- The parked accesses of a core's groups go on in the order in which they parked (R437; log 137): each translates again. -/
def State.releaseOps (s : State) (c : Nat) : State :=
  let parked := (s.core c).slots.flatMap (fun t => t.2.groups.flatMap (fun g =>
    (g.2.ops.filter (fun o => o.2.parts.any (fun p => p.st = .parked))).map (fun o => (o.2.parkedAt, t.1, g.1, o.1))))
  (parked.foldr insertAge []).foldl (fun s e =>
    let (_, slot, g, op) := e
    let s := s.onOp c slot g op (fun o => { o with parts := mapIf (fun p => p.st = .parked) (fun p => { p with st := .walk, xl := none }) o.parts })
    (List.range ((((s.group? c slot g).bind (fun x => x.ops.find? op)).map (fun o => o.parts.length)).getD 0)).foldl
      (fun s n => s.translatePart c slot g op n true) s) s

/-- What is parked at a core goes on (R287). -/
def State.releaseCore (s : State) (c : Nat) : State :=
  let s := s.clearPending (dieOf c) c
  let s := s.onCore c (fun k =>
    { k with
      faults := [], dropped := false,
      copies := k.copies.map (fun (o : Nat × CopyOp) => (o.1, { o.2 with parked := false })),
      slots := k.slots.map (fun (t : Nat × Team) => (t.1, { t.2 with groups := t.2.groups.map (fun (g : Nat × Group) =>
        (g.1, { g.2 with
          paths := g.2.paths.map (fun (p : Nat × Path) =>
            (p.1, if p.2.fetchParked then { p.2 with fetchParked := false, stall := none } else p.2)) })) })) })
  let s := s.releaseOps c
  let s := { s with pubs := s.pubs.map (fun (p : Nat × Pub) => (p.1, if p.2.core = c then { p.2 with parked := false } else p.2)) }
  let s := { s with grids := s.grids.map (fun (g : Nat × Grid) => (g.1, if g.2.lastCore = c then { g.2 with addParked := false } else g.2)) }
  { s with tasks := s.tasks.map (fun (t : Nat × Task) =>
      (t.1, if t.2.site.core ≠ c then t.2
        else match t.2.st with
          | .parkedPin => { t.2 with st := .waiting }
          | .endingParked e => if 512 ≤ t.2.pcore then { t.2 with st := .ending e } else t.2
          | _ => t.2)) }

/-- What is parked at a stack goes on (R287). -/
def State.releaseStack (s : State) (k : Nat) : State :=
  let s := s.clearPending (dieOfStack k) (1000 + k)
  let s := s.onStack k (fun x => { x with faults := [], dropped := false })
  { s with tasks := s.tasks.map (fun (t : Nat × Task) =>
      (t.1, if t.2.pcore / 64 ≠ k ∨ 512 ≤ t.2.pcore then t.2
        else match t.2.st with
          | .parked => { t.2 with st := .saved }
          | .parkedLoad => { t.2 with st := .admitted }
          | .endingParked e => { t.2 with st := .ending e }
          | _ => t.2)) }

/-- FLTRPL_UNIT_ACT (R287): a unit acts. On each die the L2 TLB clears its pending table before any core or stack acts. -/
def execFltrplUnitAct (bc unit : Nat) (s : State) : Out :=
  .next (match s.bcasts.find? bc with
    | none => s
    | some b =>
      let die := if unit < 192 then dieOf unit else if unit < 200 then dieOfStack (unit - 192) else unit - 200
      match b.what with
      | .replay =>
        if !b.left.contains unit || (decide (unit < 200) && b.left.contains (200 + die)) then s
        else
          let s := if unit < 192 then s.releaseCore unit
            else if unit < 200 then s.releaseStack (unit - 192) else s.onDie die (fun d => { d with pending := [] })
          let left := b.left.filter (fun u => u ≠ unit)
          if left.isEmpty then ({ s with bcasts := s.bcasts.erase bc }).endWork b.work
          else { s with bcasts := s.bcasts.set bc { b with left := left } }
      | _ => s)

/-- HALTBC (R310, R431): the device halts; matrix operations stop at their K step, copies drain by aborting. The issuing path
never retires. -/
def execHaltbc (_f : EngF) (s : State) : Out :=
  .next (s.privileged [] (fun x =>
    if s.dev.halt.isSome then s
    else
      let die := dieOf x.a.core
      let w : Who := { agent := 0, die := die, core := x.a.core, slot := x.a.slot, group := x.a.group, id := 0 }
      let cause := svHeader (s.die die).seq 3 w
      let gid := x.t.teamId x.grid
      let s := s.svRecord die 3 w (7 * 2 ^ 56 + x.t.asid % 65536 * 2 ^ 32 + gid % 2 ^ 32) x.p.pc.toNat
      let s := s.onDev (fun d => { d with halt := some (BitVec.ofNat 64 cause), dumpSeq := ((s.die 0).seq, (s.die 1).seq) })
      let s := s.cores.foldl (fun s c => s.stopMatrix c.1) s
      s.cores.foldl (fun s c => c.2.copies.foldl (fun s o =>
        if o.2.kind.fenceMask.isSome then s else s.abortCopy c.1 o.1) s) s))

end Sys2Proof.Machine
end

