-- ==== Sys2Proof/Machine/Host.lean ====
section
/-! DEFINITION. The host's reads and writes (R226, R295 to R298), the Dalgaop links (R227, R300 to R302), and what reaches the
machine from outside it: soft errors (R19, R48, R99, R160), host accesses and remote requests. -/

namespace Sys2Proof.Machine

/-- The agent of a host access: the die of its link (R279). -/
def HostFn.who (f : HostFn) : Who := { agent := 4, die := f.link % 2, core := 0, slot := 0, group := 0, id := 0 }

/-- Translate an access of the host by the L2 TLB of its link's die (R284, R295). -/
def State.xlateDie (s : State) (w : Who) (asid va : Nat) (a : Acc) (sup : Bool) : TransOut × State :=
  match tlbHit (s.die w.die).tlb asid va with
  | some e => (applyEntry s e va a sup false, s)
  | none =>
    let s := s.walkFills w (s.die w.die).walk asid va
    match walk s (s.die w.die).walk asid va with
    | .error f => (.fault f.kind, s.logWalk w f)
    | .ok (e, seen) =>
      (applyEntry s e va a sup false,
        s.onDie w.die (fun d => { d with tlb := tlbPut d.tlb 32768 e, walk := seen ++ d.walk.filter (fun x => !seen.contains x) }))

/-- The TYPE 2 record of an access from outside that faults, which never parks (R296, R97). -/
def State.hostFault (s : State) (w : Who) (kind acc asid va : Nat) : State :=
  let e : FaultEntry := { kind := kind, agent := w.agent, acc := acc, asid := asid, count := 1, vpn := va % 2 ^ 57 / 4096 }
  s.svRecord w.die 2 w (e.bits % 2 ^ 64) (e.bits / 2 ^ 64)

/-- The device register that a BAR0 offset of a function names (R296, R298). -/
def HostFn.register (f : HostFn) (off : Nat) : Option Nat :=
  if f.pf then some off
  else
    match f.queues[off / 0x20]? with
    | some q => if off < 0x800 ∧ off % 0x20 < 0x18 then some (0x20000 + 0x20 * q + off % 0x20) else none
    | none => none

/-- A sector that a core holds pinned: the host's access is retried (R110, R296). -/
def State.hostRetry (s : State) (pa : Nat) : Bool := (windowAt s pa).isNone && (s.sector (pa / 64)).pin.isSome

/-- A write of the function to another device has yet to be acknowledged: those that follow it wait, and so perform in their order
of arrival (R226, R227). -/
def State.hostAway (s : State) (fn : Nat) : Bool := s.sent.any (fun r => r.2.what = 1 && decide (r.2.grp = (3000 + fn, 0, 0)))

/-- A write is complete: performed and acknowledged. -/
def HostAcc.surplus (s : State) (h : HostAcc) : Bool := h.bytes.isEmpty && (match h.ack with | some w => s.workDone w | none => true)

/-- Writes of a function that are over leave its list. -/
def State.hostTidy (s : State) (fn : Nat) : State := s.onFn fn (fun f => { f with writes := f.writes.filter (fun h => !h.surplus s) })

/-- The first write that has yet to perform takes its next sector. -/
def State.hostWrite (s : State) (fn : Nat) (f : HostFn) (h : HostAcc) : State :=
  let put (s : State) (h2 : HostAcc) : State :=
    s.onFn fn (fun f => { f with writes := f.writes.map (fun x => if x.seq = h.seq then h2 else x) })
  if h.bar = 0 then
    let s := match f.register h.off with
      | some r => if h.bytes.length = 8 ∧ h.off % 8 = 0 then regWrite s r (BitVec.ofNat 64 (leNat h.bytes)) else s
      | none => s
    put s { h with bytes := [] }
  else
    let va := (f.apBase + h.off) % 2 ^ 57
    let w := f.who
    let discard (s : State) : State := put s { h with bytes := [] }
    if frozenAt s f.asid va then s
    else
      match s.xlateDie w f.asid va .store (supOf s f.asid) with
      | (.fault kind, s) => discard (s.hostFault w kind 1 f.asid va)
      | (.ok x, s) =>
        let k := if 64 - va % 64 < h.bytes.length then 64 - va % 64 else h.bytes.length
        let (wk, s) := match h.ack with
          | some n => (n, s)
          | none => let r := s.newWork 1; (r.1, r.2.endWork r.1)
        let h2 := { h with off := h.off + k, bytes := h.bytes.drop k, ack := some wk }
        let bs := (h.bytes.take k).zipIdx.map (fun (b : Byte × Nat) => (b.2, b.1))
        if region x.pa = .remote then
          let r : Remote :=
            { what := 1, device := bits x.pa 49 40, offset := x.pa % 2 ^ 40, key := x.key, aop := 0, ty := .b32,
              acc := { LaneAcc.zero with addr := x.pa, width := k }, bytes := bs.map (fun b => (x.pa % 2 ^ 40 + b.1, b.2)), pois := [],
              path := 0, seq := 0, port := 0, origin := w, answer := .work wk (some f.asid), ofr := false, grp := (3000 + fn, 0, 0), performed := false }
          match sendRemote s r with
          | .noPath => discard (s.log23 w 6 x.pa)
          | .full => s
          | .sent s => put (s.addWork wk) h2
        else if region x.pa ≠ .hbm ∧ region x.pa ≠ .tier then discard (s.log23 w 6 x.pa)
        else
          match s.keys.find? x.key with
          | none => discard (s.log23 w 5 x.pa)
          | some key =>
            let window := (windowAt s x.pa).isSome
            let home := s.home x.pa
            let id := (fn * 2 ^ 60 + h.seq) * 2 ^ 60 + x.pa % 2 ^ 60 + 2 ^ 128
            if s.hostRetry x.pa ∨ (window = true ∧ s.mayLog home id = false) then s
            else
              let s := if window then s.logAt home id else s
              put ((s.addWork wk).engineStore w 8 x key (bs.map (fun b => (x.pa + b.1, b.2))) [] (.work wk (some f.asid))) h2

/-- HOST_POSTED_WRITE (R226, R296): the function's writes perform in their order of arrival, sector by sector. -/
def execHostPostedWrite (fn : Nat) (s : State) : Out :=
  let s := s.hostTidy fn
  let f := s.fn fn
  .next (match f.writes.find? (fun h => !h.bytes.isEmpty) with
    | none => s
    | some h => if s.hostAway fn then s else (s.hostWrite fn f h).hostTidy fn)

/-- A read of the host completes: status 0, or 1 Completer Abort. -/
def State.hostDone (s : State) (fn seq status : Nat) (bs : List Byte) : State :=
  s.onFn fn (fun f => { f with reads := f.reads.filter (fun h => h.seq ≠ seq), completions := f.completions ++ [(status, bs)] })

/-- The dump that an offset of the PF's BAR2 reads (R299, R310): its bytes from there on. -/
def State.mappedDump (s : State) (off : Nat) : Option (List Byte) :=
  s.dev.dumpMaps.findSome? (fun i =>
    match s.dev.dumps.find? i with
    | some d => if Config.dumpOffset i ≤ off ∧ off < Config.dumpOffset i + d.length then some (d.drop (off - Config.dumpOffset i)) else none
    | none => none)

/-- A read changes in its function's list. -/
def State.onRead (s : State) (fn seq : Nat) (h : HostAcc) : State :=
  s.onFn fn (fun f => { f with reads := f.reads.map (fun x => if x.seq = seq then h else x) })

/-- Bytes of a read have come: it completes once it has them all. -/
def State.hostMore (s : State) (fn : Nat) (h : HostAcc) (bs : List Byte) : State :=
  if h.len ≤ h.bytes.length + bs.length then s.hostDone fn h.seq 0 (h.bytes ++ bs)
  else s.onRead fn h.seq { h with bytes := h.bytes ++ bs, ack := none }

/-- A read goes on by one sector. -/
def State.hostRead (s : State) (fn : Nat) (f : HostFn) (h : HostAcc) : State :=
  let more (s : State) (bs : List Byte) : State := s.hostMore fn h bs
  if h.bar = 0 then
    let v := match f.register h.off with
      | some r => if h.len = 8 ∧ h.off % 8 = 0 then (regRead s r).toNat else 0
      | none => 0
    s.hostDone fn h.seq 0 (leBytes h.len v)
  else
    let off := h.off + h.bytes.length
    let va := (f.apBase + off) % 2 ^ 57
    let left := h.len - h.bytes.length
    let k := if 64 - va % 64 < left then 64 - va % 64 else left
    let w := f.who
    let abort (s : State) : State := s.hostDone fn h.seq 1 []
    match if f.pf then s.mappedDump off else none with
    | some d => more s (d.take k)
    | none =>
      if frozenAt s f.asid va || h.ack.isSome then s
      else
        match s.xlateDie w f.asid va .load (supOf s f.asid) with
        | (.fault kind, s) => abort (s.hostFault w kind 0 f.asid va)
        | (.ok x, s) =>
          if region x.pa = .remote then
            let r : Remote :=
              { what := 0, device := bits x.pa 49 40, offset := x.pa % 2 ^ 40, key := x.key, aop := 0, ty := .b32,
                acc := { LaneAcc.zero with addr := x.pa, width := k }, bytes := [], pois := [],
                path := 0, seq := 0, port := 0, origin := w, answer := .host fn h.seq, ofr := false, grp := (3000 + fn, 0, 0), performed := false }
            match sendRemote s r with
            | .noPath => abort (s.log23 w 6 x.pa)
            | .full => s
            | .sent s => s.onRead fn h.seq { h with ack := some 0 }
          else if region x.pa ≠ .hbm ∧ region x.pa ≠ .tier then abort (s.log23 w 6 x.pa)
          else
            match s.keys.find? x.key with
            | none => abort (s.log23 w 5 x.pa)
            | some key =>
              if s.hostRetry x.pa then s
              else
                match s.engineLoad w 8 x key k (.host fn h.seq) with
                | (none, s) => s
                | (some (bs, bad), s) =>
                  if bad.isEmpty then more s bs else abort (s.log23 w 3 (poisonAt (fun _ => true) bad x.pa))

/-- HOST_READ (R226, R296): served once every write of the function that arrived before it has been acknowledged. -/
def execHostRead (fn index : Nat) (s : State) : Out :=
  let s := s.hostTidy fn
  let f := s.fn fn
  .next (match f.reads[index]? with
    | none => s
    | some h => if f.writes.any (fun w => decide (w.seq < h.seq)) then s else s.hostRead fn f h)

/-- A host access arrives (R226). One at a function that has not been assigned is not accepted. -/
def State.hostArrive (s : State) (write : Bool) (fn bar off len : Nat) (bs : List Byte) : State :=
  match s.fns.find? fn with
  | none => s
  | some f =>
    let h : HostAcc := { bar := bar, off := off, bytes := bs, len := len, ack := none, seq := f.nextSeq }
    s.onFn fn (fun f =>
      let f := { f with nextSeq := f.nextSeq + 1 }
      if write then { f with writes := f.writes ++ [h] } else { f with reads := f.reads ++ [h] })

/-- The supervisor assigns a function (R296). -/
def State.hostAssign (s : State) (fn link asid apBase : Nat) (pf : Bool) (queues : List Nat) : State :=
  { s with fns := s.fns.set fn { HostFn.init with link := link, asid := asid, apBase := apBase, pf := pf, queues := queues } }

/-- The host masks or unmasks a vector of a function (R297). -/
def State.hostMask (s : State) (fn vector : Nat) (masked : Bool) : State :=
  s.onFn fn (fun f => { f with unmasked := (if masked then [] else [vector]) ++ f.unmasked.filter (fun v => v ≠ vector) })

/-- A byte of the device lies at the old place of a unit that is frozen (R29). -/
def frozenPa (s : State) (pa : Nat) : Bool :=
  s.moves.any (fun m =>
    let base := if m.2.lg = 21 then m.2.old + 65536 * m.2.piece else m.2.old
    let n := if m.2.lg = 21 then 65536 else 2 ^ m.2.lg
    m.2.frozen && decide (base ≤ pa) && decide (pa < base + n))

/-- Answer a request received. -/
def State.replyTo (s : State) (n : Nat) (r : Remote) (refused pois : Bool) (value : Nat) : State :=
  { s with received := s.received.erase n,
           replies := s.replies ++ [{ device := r.device, path := r.path, seq := r.seq, refused := refused, pois := pois, value := value }] }

/-- The agent of a request received (R279): the die of the port. -/
def Remote.who (r : Remote) : Who := { agent := 5, die := dieOfPort r.port, core := 0, slot := 0, group := 0, id := 0 }

/-- The same request has been answered before, or has performed (R302). -/
def Remote.same (a : Remote) (device path seq : Nat) : Bool := a.device = device && a.path = path && a.seq = seq

/-- A request that the mangles forbid (R85, R97): the ASID and the address that the report names, those of the window, or zero and
the page's own address (log 107). -/
def State.remoteBarred (s : State) (r : Remote) : Option (Nat × Nat) :=
  match windowAt s r.offset with
  | some (h, va) => (s.mangles.find? h).bind (fun m =>
      if r.what = 2 || (r.what = 1 && m.inOut va) then some (m.asid, va) else none)
  | none => if r.what ≠ 0 && matrixPage s r.offset then some (0, r.offset) else none

/-- A request performs at the serialisation point of this device (R227, R301). -/
def State.remotePerform (s : State) (n : Nat) (r : Remote) (key : KeyPair) : State :=
  let w := r.who
  let x : Xlat := { pa := r.offset, key := r.key, uc := false, mng := false }
  let home := s.home r.offset
  let id := ((r.device * 4 + r.path) * 2 ^ 60 + r.seq) * 2 ^ 64 + 2 ^ 63
  let mark (s : State) (v : Nat) : State :=
    { s with received := s.received.set n { r with performed := true, acc := { r.acc with got := v } } }
  match s.remoteBarred r, r.what with
  | some (asid, va), what => (s.hostFault w 3 what asid va).replyTo n r true false 0
  | none, 0 =>
    match s.engineLoad w 16 x key r.acc.width (.remote n) with
    | (none, s) => s
    | (some (bs, bad), s) => s.replyTo n r false (!bad.isEmpty) (leNat bs)
  | none, 1 =>
    let window := (windowAt s r.offset).isSome
    if window && !s.mayLog home id then s
    else
      let s := if window then s.logAt home id else s
      -- A published line may span the four sectors of its line: they perform together (R119).
      (dedup (r.bytes.map (fun b => b.1 / 64))).foldl (fun s sec =>
        s.engineStore w 16 { x with pa := ((r.bytes.filter (fun b => b.1 / 64 = sec)).map (fun b => b.1)).headD r.offset } key
          (r.bytes.filter (fun b => b.1 / 64 = sec)) (r.pois.filter (fun q => q / 2 = sec)) (.remote n)) (mark s 0)
  | none, _ =>
    if !s.mayLog home id then s
    else
      let sec := r.offset / 64
      let s := ((s.logAt home id).engineTouch sec 16).fillSector w sec
      let width := r.acc.width
      if !r.pois.isEmpty then ((mark s 0).performAt w key r.key [(r.offset, 0)] [r.offset / 32] none (.remote n))
      else if s.mem.poison.contains (r.offset / 32) then (s.log23 w 3 r.offset).replyTo n r false true 0
      else
        let old := leNat (s.mem.read key r.offset width)
        match atomWrite r.aop r.ty r.acc old with
        | some v =>
          (mark s old).performAt w key r.key ((leBytes width v).zipIdx.map (fun (b : Byte × Nat) => (r.offset + b.2, b.1))) [] none (.remote n)
        | none => s.replyTo n r false false old

/-- REMOTE_REQUEST_RECEIVE (R301, R302): performed once, or refused. A duplicate gets the answer again. -/
def execRemoteRequestReceive (index : Nat) (s : State) : Out :=
  .next (match s.received.find? index with
    | none => s
    | some r =>
      if r.performed then s
      else
        match s.replies.find? (fun a => a.device = r.device && a.path = r.path && a.seq = r.seq) with
        | some a => s.replyTo index r a.refused a.pois a.value
        | none =>
          if s.received.any (fun o => o.1 ≠ index && o.2.performed && o.2.same r.device r.path r.seq) then s
          else if s.dev.halt.isSome || !(s.dev.dlpeer.getD (r.device / 64) 0).getLsbD (r.device % 64) || decide (0x8000000000 ≤ r.offset) ||
              saveArea r.offset then s.replyTo index r true false 0
          else if frozenPa s r.offset then s
          else
            match s.keys.find? r.key with
            | none => (s.log23 r.who 5 r.offset).replyTo index r true false 0
            | some key => s.remotePerform index r key)

/-- A request that this device sent is refused, or no path is left to its device (R301, R302): an access to a hole (R13). -/
def State.remoteHole (s : State) (r : Remote) : State :=
  match r.answer with
  | .part c slot g op _ =>
    if ((s.group? c slot g).bind (fun x => x.ops.find? op)).isSome then s.checkOp c slot g op 6 r.acc.addr else s
  | .unit c op _ => match (s.core c).copies.find? op with
    | some o => s.copyHole c op o 6 r.acc.addr
    | none => s
  | .task n => match s.tasks.find? n with
    | some t => if t.sent then s.padHole n t 6 r.acc.addr else s
    | none => s
  | .work k _ => (s.log23 r.origin 6 r.acc.addr).endPart k
  | .host fn seq => (s.log23 r.origin 6 r.acc.addr).hostDone fn seq 1 []
  | _ => s.log23 r.origin 6 r.acc.addr

/-- The next element of a CPYR unit, or the unit itself, is done. -/
def State.copyNext (s : State) (core op u width : Nat) : State :=
  s.onCopy core op (fun o =>
    let rest : Option (Tab Byte × List Nat) := match o.units.find? u with
      | some (.held d p) => some (d.drop width, p)
      | some (.adding d p) => some (d.drop width, p)
      | _ => none
    match rest with
    | some ([], _) => { o with units := o.units.set u .counted, arrived := o.arrived + 1 }
    | some (d, p) => { o with units := o.units.set u (.adding d p) }
    | none => o)

/-- A request is answered (R227, R302): a read or an atomic brings a value that the other device gives, which is free (log 21).
`pois` says that it brings poison. -/
def State.remoteDone (s : State) (r : Remote) (pois : Bool) : State :=
  match r.answer with
  | .part c slot g op n =>
    match s.team? c slot, s.group? c slot g with
    | some t, some grp =>
      match grp.ops.find? op with
      | none => s
      | some o =>
        if pois && decide (r.what ≠ 1) then s.checkOp c slot g op 3 r.acc.addr
        else
          match r.what with
          | 0 =>
            let (bs, s) := s.freeBytes 64
            match o.parts[n]? with
            | some p => s.finishLoad c slot g op n t grp o p (fun a => bs.getD (a % 64) 0)
            | none => s
          | 1 => s.ackPart c slot g op n
          | _ =>
            let (v, s) := s.freeVal
            (s.onPart c slot g op n (fun p =>
              { p with lanes := p.lanes.map (fun l => { l with got := v.toNat % 2 ^ (8 * l.width) }) })).ackPart c slot g op n
    | _, _ => s
  | .unit c op u =>
    match (s.core c).copies.find? op with
    | none => s
    | some o =>
      match r.what with
      | 0 =>
        let (first, len) := o.srcSpan u
        let (bs, s) := s.freeBytes len
        s.onCopy c op (fun o => o.take first bs (fun _ => pois))
      | 1 => s.onCopy c op (fun o => { o with units := o.units.set u .counted, arrived := o.arrived + 1 })
      | _ => (if pois then s.copyErr o else s).copyNext c op u r.acc.width
  | .task n =>
    match s.tasks.find? n with
    | none => s
    | some t =>
      if !t.sent then s
      else
        let (bs, s) := s.freeBytes r.acc.width
        s.onTask n (fun t => { t with sent := false, got := t.got ++ [if r.what = 0 then (leNat bs, pois) else (0, false)] })
  | .work k _ => s.endPart k
  | .host fn seq =>
    match (s.fn fn).reads.find? (fun h => h.seq = seq) with
    | none => s
    | some h =>
      if pois then (s.log23 r.origin 3 r.acc.addr).hostDone fn seq 1 []
      else
        let (bs, s) := s.freeBytes r.acc.width
        s.hostMore fn h bs
  | _ => s

/-- A refusal of the request is ignored: a bundle that has begun to perform has been asked for as a whole (R52; log 21). -/
def State.granted (s : State) (r : Remote) : Bool :=
  match r.answer with
  | .task n => ((s.tasks.find? n).bind (fun t => t.flight)).isSome
  | _ => false

/-- REMOTE_ACK (R302): the answer to a request whose flit has left arrives. What it says is the other device's: a free value. A
request to a device that no valid path reaches any more is handled as a hole. -/
def execRemoteAck (index : Nat) (s : State) : Out :=
  .next (match s.sent.find? index with
    | none => s
    | some r =>
      let lost := (pathsTo s r.device).isEmpty
      if !lost && (s.port r.port).queue.contains index then s
      else
        let s := ({ s with sent := s.sent.erase index }).onPort r.port (fun p => { p with queue := p.queue.erase index, fails := 0 })
        let (v, s) := s.freeVal
        (if lost || (v.getLsbD 0 && !s.granted r) then s.remoteHole r else s.remoteDone r (v.getLsbD 1)).endHalts)

/-- The next flit queued at a port that is up has been sent (R300). -/
def State.flitSent (s : State) (port : Nat) : State :=
  if (s.port port).up then s.onPort port (fun p => { p with queue := p.queue.drop 1 }) else s

/-- A port is down: the requests it carries go again on other valid paths under their numbers; those to a device that no path
reaches are holes (R302). -/
def State.portDown (s : State) (port : Nat) : State :=
  let s := s.onPort port (fun p => { p with up := false, queue := [] })
  (s.sent.filter (fun r => r.2.port = port)).foldl (fun s (r : Nat × Remote) =>
    match pathsTo s r.2.device with
    | [] => ({ s with sent := s.sent.erase r.1 }).remoteHole r.2
    | p :: t =>
      let b := t.foldl (fun b q => if q.2.2 < b.2.2 then q else b) p
      ({ s with sent := s.sent.set r.1 { r.2 with port := b.2.1 } }).onPort b.2.1 (fun x => { x with queue := x.queue ++ [r.1] })) s

/-- FLIT_CRC_FAIL (R300). -/
def execFlitCrcFail (port : Nat) (s : State) : Out :=
  .next (if !(s.port port).up then s
    else
      let s := s.onPort port (fun p => { p with fails := p.fails + 1 })
      if 8 ≤ (s.port port).fails then (s.portDown port).endHalts else s)

/-- PORT_RETRAIN (R300). -/
def execPortRetrain (port : Nat) (s : State) : Out :=
  .next (if 12 ≤ port || (s.port port).up || !s.dev.devstat.getLsbD 3 then s
    else s.onPort port (fun _ => { up := true, queue := [], fails := 0 }))

/-- Bits of a stored column word flip (R19). -/
def State.softError (s : State) (word n : Nat) : State :=
  if n = 0 ∨ (region (32 * word) ≠ .hbm ∧ region (32 * word) ≠ .tier) then s
  else { s with mem := { s.mem with errors := s.mem.errors.set word (s.mem.errors.getD word 0 + n) } }

/-- An uncorrectable error of a core's SRAM (R160): mode 0 a CACHE sector a and word b of it, mode 1 word b of the allocation of
slot a, mode 2 entry b of FIFO block a, mode 3 the private word at virtual address 32 b of the team in slot a, any other mode
an error of one bit, which is corrected. Each is counted. An unpinned sector of a line that also holds a pinned one is neither
dropped nor poisoned: the error is counted only (log 135). -/
def State.sramError (s : State) (core mode a b : Nat) : State :=
  let s := s.onCore core (fun k => { k with sramErrors := k.sramErrors + 1 })
  match mode with
  | 0 =>
    match (s.core core).l1Sec a with
    | none => s
    | some x =>
      if x.pinned then s.onL1 core a (fun d => { d with pois := if bit d.pois (b % 2) then d.pois else d.pois + 2 ^ (b % 2) })
      else
        match (s.core core).l1.find? (a / 4) with
        | none => s
        | some l => if l.secs.any (fun p => p.2.pinned) then s else l.secs.foldl (fun s p => s.dropSector core (a / 4 * 4 + p.1)) s
  | 1 => s.onTeam core a (fun t => { t with scratchPois := b :: t.scratchPois.filter (fun q => q ≠ b) })
  | 2 => s.onCore core (fun k =>
      { k with fifos := k.fifos.map (fun (f : Nat × Fifo) =>
          if f.1 = a then (f.1, { f.2 with entries := f.2.entries.mapIdx (fun i e => if i = b then (e.1, true) else e) }) else f) })
  | 3 => s.onTeam core a (fun t => { t with phases := t.phases.map (fun p =>
      if p.base ≤ 32 * b ∧ 32 * b < p.base + p.size ∧ (p.bytes.find? (32 * b)).isSome ∧ !p.pois.contains b then
        { p with pois := b :: p.pois } else p) })
  | _ => s

end Sys2Proof.Machine
end

