-- ==== Sys2Proof/Machine/Placement.lean ====
section
/-! DEFINITION. Placement moves (R28 to R31): the freeze, the copy and the switch of one unit. -/

namespace Sys2Proof.Machine

/-- The agent of a move (R279): the die of the source, or of the destination where the source is the tier. -/
def Move.who (m : Move) : Who :=
  let pa := if region m.old = .tier then m.new else m.old
  { agent := 6, die := dieOfStack (stackOf pa), core := 0, slot := 0, group := 0, id := 0 }

/-- Where a page lies: a stack, or 8 for the tier. -/
def placeOf (pa : Nat) : Nat := if region pa = .tier then 8 else stackOf pa

/-- The device may put a page here: whole in one stack or in the tier, in no save slot, with nothing written there and nothing
known to lie there (log 22). -/
def spare (s : State) (pa n : Nat) : Bool :=
  let mapped (l : List TlbEntry) : Bool := l.any (fun e => meet e.pa (2 ^ e.lg) pa n)
  pa % n = 0 && (region pa = .hbm || region pa = .tier) && decide (placeOf pa = placeOf (pa + n - 1)) && decide (region pa = region (pa + n - 1)) &&
    !saveArea pa && !saveArea (pa + n - 1) &&
    !s.mem.bytes.any (fun b => decide (pa ≤ b.1) && decide (b.1 < pa + n)) &&
    !s.sectors.any (fun x => meet (64 * x.1) 64 pa n) && !s.channels.any (fun c => c.2.any (fun m => meet (64 * m.sec) 64 pa n)) &&
    !s.cores.any (fun c => mapped c.2.tlb) && !s.dies.any (fun d => mapped d.2.tlb) && !s.pcores.any (fun p => mapped p.2.tlb) &&
    !s.moves.any (fun m => meet m.2.new (2 ^ m.2.lg) pa n || meet m.2.old (2 ^ m.2.lg) pa n) &&
    !s.mangles.any (fun m => m.2.dataPages.any (fun q => meet (65536 * q) 65536 pa n) ||
      m.2.sidePages.any (fun q => meet q.2.1 (2 ^ q.2.2) pa n) || m.2.winPages.any (fun q => meet (65536 * q.1) 65536 pa n))

/-- A page's entries leave the L1 TLBs and the paddock TLBs (R29). -/
def State.dropTlb (s : State) (asid va lg : Nat) (dies : Bool) : State :=
  let keep (l : List TlbEntry) : List TlbEntry := l.filter (fun e => !(e.asid = asid && meet (e.vpn * 2 ^ e.lg) (2 ^ e.lg) (va / 2 ^ lg * 2 ^ lg) (2 ^ lg)))
  { s with cores := s.cores.map (fun (c : Nat × Core) => (c.1, { c.2 with tlb := keep c.2.tlb })),
           pcores := s.pcores.map (fun (c : Nat × PCore) => (c.1, { c.2 with tlb := keep c.2.tlb })),
           dies := if dies then s.dies.map (fun (d : Nat × Die) => (d.1, { d.2 with tlb := keep d.2.tlb })) else s.dies }

/-- A page that a move is under way for may not go on moving (R31): it has become one that placement never moves, by its old place
or its new one. -/
def Move.barred (s : State) (m : Move) : Bool :=
  match walk s [] m.asid m.va with
  | .error _ => true
  | .ok (e, _) => immovable s m.asid m.va e || s.mangles.any (fun x => x.2.holds m.new (2 ^ m.lg)) || (s.keys.find? m.key).isNone

/-- The move of the page that an address lies in. -/
def State.moveOf (s : State) (asid va : Nat) : Option (Nat × Move) :=
  s.moves.findSome? (fun m => if m.2.asid = asid && decide (m.2.va / 2 ^ m.2.lg = va / 2 ^ m.2.lg) then some m else none)

/-- The agent of the reads that begin a move (R279): the die of the page's place, or of its target where that is not in a stack. -/
def placementAt (s : State) (asid va target : Nat) : Who :=
  let pa := match walk s [] asid va with
    | .ok (e, _) => if region e.pa = .tier then target else e.pa
    | .error _ => target
  { agent := 6, die := dieOfStack (stackOf pa), core := 0, slot := 0, group := 0, id := 0 }

/-- PLACEMENT_FREEZE (R28, R29, R31): a move begins with its first unit, or a move of a 2 MiB page goes on with its next piece.
Where the page has meanwhile become one that is never moved, or its key slot is empty, the move waits (log 109). -/
def execPlacementFreeze (asid va target : Nat) (s : State) : Out :=
  .next (match s.moveOf asid va with
    | some (n, m) =>
      let s := s.walkFills m.who [] asid m.va
      if m.barred s then s else { s with moves := s.moves.set n { m with frozen := true } }
    | none =>
      let s := s.walkFills (placementAt s asid va target) [] asid va
      match walk s [] asid va with
      | .error _ => s
      | .ok (e, _) =>
        let n := 2 ^ e.lg
        if immovable s asid va e || !spare s target n || decide (placeOf target = placeOf e.pa) || (s.keys.find? e.key).isNone then s
        else
          let m : Move := { asid := asid, va := va / n * n, lg := e.lg, old := e.pa, new := target, key := e.key, piece := 0, map := 0,
                            frozen := true, copied := false }
          let s := { s with moves := s.moves.set s.nextMove m, nextMove := s.nextMove + 1 }
          if e.lg = 21 then s.dropTlb asid va 21 false else s)

/-- An access that passed translation before the freeze has still to be acknowledged by the old place (R29): of a lane, a paddock
task or a copy engine. -/
def Move.busy (s : State) (m : Move) : Bool :=
  let here (pa : Nat) : Bool := meet pa 1 m.from_ m.unit
  s.cores.any (fun c => c.2.slots.any (fun t => t.2.groups.any (fun g => g.2.ops.any (fun o =>
    o.2.kind.isAccess && o.2.parts.any (fun p => !p.returned o.2.kind && (match p.xl with | some x => here x.pa | none => false)))))) ||
  s.tasks.any (fun t => match t.2.flight with | some f => f.any (fun x => here x.1.pa) | none => false) ||
  s.cores.any (fun c => c.2.copies.any (fun o => o.2.units.any (fun u => decide (u.2 = .written)))) && s.acks.any (fun a => decide (a.2.left ≠ 0)) ||
  -- Of an engine or the host, under the page's ASID.
  s.acks.any (fun a => match a.2.dest with
    | .work _ (some d) => decide (d = m.asid)
    | .nobody (some d) => decide (d = m.asid)
    | _ => false)

/-- The routes of a slice for the lines of a unit are forgotten (R29), and count as departed (R124, R126). -/
def Slice.forget (k : Slice) (inside : Nat → Bool) : Slice :=
  let lost := k.routes.filter (fun r => inside (64 * r.sec) && !r.dep)
  let k := lost.foldl (fun k r => k.bump (r.asid * 64 + r.range) 4) k
  { k with sync := k.sync.filter (fun e => !inside (64 * e.sec)), spread := k.spread.filter (fun q => !inside (64 * q)),
           routes := k.routes.filter (fun r => !inside (64 * r.sec)) }

/-- Memory without the words of a unit. -/
def Memory.vacated (m : Memory) (inside : Nat → Bool) : Memory :=
  { bytes := m.bytes.filter (fun b => !inside b.1), keys := m.keys.filter (fun b => !inside (32 * b.1)),
    poison := m.poison.filter (fun w => !inside (32 * w)), errors := m.errors.filter (fun b => !inside (32 * b.1)),
    fixes := m.fixes.filter (fun w => !inside (32 * w)) }

/-- The old place of a unit is given up (R29): no byte of it is defined any more, no slice holds a line of it, and no core a copy
or a fold entry. A fill still on its way to a core is followed by an invalidation. -/
def State.vacate (s : State) (pa n : Nat) : State :=
  let inside (a : Nat) : Bool := decide (pa ≤ a) && decide (a < pa + n)
  let gone := s.sectors.filter (fun x => inside (64 * x.1))
  let s := gone.foldl (fun s x =>
    x.2.reach.foldl (fun s c => ((s.killFolds c x.1).onCore c (fun k => k.without x.1)).send (s.home (64 * x.1)) c
      { sec := x.1, body := .inval, ack := none }) s) s
  { s with
    sectors := s.sectors.filter (fun x => !inside (64 * x.1)),
    slices := s.slices.map (fun (k : Nat × Slice) => (k.1, k.2.forget inside)),
    mem := s.mem.vacated inside }

/-- Read every word of a unit once (R29): where no slice holds its sector, errors of the stored word are corrected, or recorded and
made poison, and a poisoned response of the tier is recorded (R18, R19). -/
def State.scan (s : State) (w : Who) : Nat → Nat → State
  | 0, _ => s
  | n + 1, word => State.scan (if (s.sector (word / 2)).st = .inv then s.tierWord w word else s) w n (word + 1)

/-- PLACEMENT_COPY (R29): the unit is read under the page's key and written at its new place, whatever lay there. -/
def execPlacementCopy (mv : Nat) (s : State) : Out :=
  .next (match s.moves.find? mv with
    | none => s
    | some m =>
      if !m.frozen || m.copied || m.busy s then s
      else
        match s.keys.find? m.key with
        | none =>
          -- The move is given up, or, where pieces have moved, waits for its key (log 109).
          let s := s.log23 m.who 5 m.from_
          { s with moves := if m.map = 0 then s.moves.erase mv else s.moves.set mv { m with frozen := false } }
        | some key =>
          let pins := (s.sectors.filter (fun x => meet (64 * x.1) 64 m.from_ m.unit && x.2.pin.isSome)).map (fun x => x.1)
          let s := pins.foldl (fun s sec => s.unpin sec 0) s
          let s := s.scan m.who (m.unit / 32) (m.from_ / 32)
          let bytes := (List.range m.unit).map (fun i => (m.to_ + i, s.mem.byteAt key (m.from_ + i)))
          let bad := (List.range (m.unit / 32)).filter (fun i => s.mem.poison.contains (m.from_ / 32 + i))
          let mem := (s.mem.vacated (fun a => decide (m.to_ ≤ a) && decide (a < m.to_ + m.unit))).write key bytes
          let mem := { mem with poison := bad.map (fun i => m.to_ / 32 + i) ++ mem.poison }
          { s with mem := mem, moves := s.moves.set mv { m with copied := true } })

/-- Where the leaf of a page stands (R283): its physical address. -/
def leafAt (s : State) (va : Nat) : Nat → Nat → Nat → Option Nat
  | 0, _, _ => none
  | fuel + 1, level, table =>
    let at_ := table + 8 * vaIndex va level
    match rawRead s s.tkey at_ 8 with
    | .error _ => none
    | .ok bs =>
      let x := leNat bs
      if !bit x 0 then none
      else if bit x 7 then some at_
      else if level = 0 then none
      else leafAt s va fuel (level - 1) (bits x 51 12 * 4096)

/-- The page-table entry of a page is rewritten with a new base (R29): 16 entries for a 64 KiB page (R284). None where the entry
cannot be reached. -/
def State.rewrite (s : State) (m : Move) : Option State :=
  match asidEntry s m.asid, s.keys.find? s.tkey with
  | .ok a, some key =>
    (leafAt s m.va 5 4 a.root).map (fun at0 =>
      let n := if m.lg = 16 then 16 else 1
      let at0 := if m.lg = 16 then at0 / 128 * 128 else at0
      (List.range n).foldl (fun s i =>
        let at_ := at0 + 8 * i
        let x := leNat (s.mem.read key at_ 8)
        let y := x - bits x 51 12 * 4096 + (m.new + 4096 * i) % 2 ^ 52
        (s.unpin (at_ / 64) 0).performAt m.who key s.tkey ((leBytes 8 y).zipIdx.map (fun (b : Byte × Nat) => (at_ + b.2, b.1))) [] none (.nobody none)) s)
  | _, _ => none

/-- PLACEMENT_SWITCH (R29): the unit's translation names its new place, and what waited goes on there, in any
order of the steps (DEDUCED, log 108). While the page's entry cannot be reached the move waits, frozen, and the old place
stays (log 109). -/
def execPlacementSwitch (mv : Nat) (s : State) : Out :=
  .next (match s.moves.find? mv with
    | none => s
    | some m =>
      let home := s.home m.from_
      let id := (m.asid * 2 ^ 57 + m.va) * 64 + m.piece + 2 ^ 80
      if !m.frozen || !m.copied || !s.mayLog home id then s
      else
        let kept := s
        let s := s.logAt home id
        if m.lg = 21 ∧ m.piece < 31 then
          let s := { s with moves := s.moves.set mv { m with map := m.map ||| BitVec.ofNat 32 (2 ^ m.piece), piece := m.piece + 1,
                                                             frozen := false, copied := false } }
          s.vacate m.from_ m.unit
        else
          match (s.walkFills m.who [] m.asid m.va).rewrite m with
          | none => kept.walkFills m.who [] m.asid m.va
          | some s => (({ s with moves := s.moves.erase mv }).vacate m.from_ m.unit).dropTlb m.asid m.va m.lg true)

end Sys2Proof.Machine
end

