-- ==== Sys2Proof/Machine/Debug.lean ====
section
/-! DEFINITION. The sampler (R307), checkpoints and replay (R309), the save form (R164) and fatal-error dumps (R310). -/

namespace Sys2Proof.Machine

/-- The record of a sample, without its number (R307): the stall code is 0xF where the group issued this cycle, which the model
takes to be where no reason of R274 applies (log 138). -/
def sampleRecord (s : State) (a : Site) (t : Team) (g : Group) (p : Path) : Nat :=
  let stall := (s.stallReason a g p).getD 0xF
  t.asid % 65536 * 2 ^ 80 + a.core % 256 * 2 ^ 72 + g.quarter % 4 * 2 ^ 70 + a.slot % 64 * 2 ^ 64 + a.group % 32 * 2 ^ 59 +
    b2n p.lastOrd.isSome * 2 ^ 58 + p.lastOrd.getD 0 % 4096 * 2 ^ 46 + p.clausesSince % 65536 * 2 ^ 30 + stall % 16 * 2 ^ 26

/-- SAMPLE_TAKE (R307): a quarter that has issued PERIOD times since its last sample writes a record, or counts it in LOST. -/
def execSampleTake (core slot group path : Nat) (s : State) : Out :=
  let a : Site := { core := core, slot := slot, group := group, path := path }
  .next (match s.team? core slot, s.group? core slot group with
    | some t, some g =>
      match g.paths.find? path with
      | none => s
      | some p =>
        let die := dieOf core
        let d := s.die die
        let ctl := d.smpCtl.toNat
        if !bit ctl 63 || decide (((s.core core).quarter g.quarter).sinceSample < bits ctl 55 32) then s
        else
          let rec_ := d.smpSeq % 2 ^ 32 * 2 ^ 96 + sampleRecord s a t g p
          let s := s.onQuarter core g.quarter (fun q => { q with sinceSample := 0 })
          let s := s.onDie die (fun d => { d with smpSeq := (d.smpSeq + 1) % 2 ^ 32 })
          let ptr := d.smpPtr.toNat
          let tail := bits ptr 15 0
          let head := bits ptr 47 32
          let lost : State := s.onDie die (fun d =>
            let l := bits ctl 31 0
            { d with smpCtl := BitVec.ofNat 64 (ctl / 2 ^ 32 * 2 ^ 32 + (if l = 2 ^ 32 - 1 then l else l + 1)) })
          if (tail + 65536 - head) % 65536 = 65535 then lost
          else
            match ringWrite s { agent := 0, die := die, core := core, slot := slot, group := group, id := 0 } (bits d.smpBase.toNat 56 6 * 64 + 16 * tail) (leBytes 16 rec_) with
            | (false, _) => lost
            | (true, s) => s.onDie die (fun d => { d with smpPtr := BitVec.ofNat 64 (head * 2 ^ 32 + (tail + 1) % 65536) })
    | _, _ => s)

/-- CKREPLAY_WRITE (R309). -/
def execCkreplayWrite (ckslot : Nat) (s : State) : Out := .next (s.startReplay (ckslot % 16))

/-- Every resident cluster: grid and index. -/
def residentClusters (s : State) : List (Nat × Nat) :=
  dedup (s.cores.flatMap (fun c => c.2.slots.map (fun t => (t.2.grid, t.2.cluster))))

/-- The device keeps a checkpoint (R309): memory and the grids, with what is logged from here on. -/
def State.takeCheckpoint (s : State) : State :=
  s.onDev (fun d =>
    let cks : Tab Checkpoint := d.checkpoints.map (fun (p : Nat × Checkpoint) =>
      if p.1 = d.newest then (p.1, { p.2 with log := d.log, order := d.admitLog }) else p)
    let k := if cks.isEmpty then d.newest else (d.newest + 1) % 16
    { d with checkpoints := cks.set k { mem := s.mem, mangles := s.mangles, grids := s.grids, order := [], log := [] }, newest := k, log := [], admitLog := [],
             ckTaking := false })

/-- CHECKPOINT_TIMER (R309): the device pre-empts every resident cluster, and copies memory once none is resident and no placement move is under way. The clusters
are then admitted again. -/
def execCheckpointTimer (_die : Nat) (s : State) : Out :=
  .next (
    if !s.dev.ckctl.getLsbD 63 || s.dev.halt.isSome then s
    else if s.dev.ckTaking then (if (residentClusters s).isEmpty && s.moves.isEmpty then s.takeCheckpoint else s)
    else
      let s := s.onDev (fun d => { d with ckTaking := true })
      (residentClusters s).foldl (fun s c => s.requestPreempt c.1 c.2 3) s)

/-- REPLAY_DIVERGE (R309): the remaining events run unheld. -/
def execReplayDiverge (slice : Nat) (s : State) : Out :=
  .next (if s.dev.replay.isNone || (s.dev.replayLog.getD slice []).isEmpty then s
    else s.onDev (fun d => { d with diverged := true, replay := none, replayLog := [], admitReplay := [] }))

/-- The save form of a group (R164). -/
def Group.saveForm (g : Group) (v sn : Nat) : List Byte :=
  (List.range v).flatMap (fun n => leBytes 128 (g.vreg n).toNat) ++
  (List.range sn).flatMap (fun n => leBytes 4 (g.sreg n).toNat) ++
  (List.range 16).flatMap (fun n =>
    let k := g.kreg n
    leBytes 16 (k.mask.toNat + k.pc.toNat * 2 ^ 32 + k.fmt.toNat * 2 ^ 96)) ++
  (List.range 32).flatMap (fun n => leBytes 16 (g.treg n).toNat)

/-- The team record (R164). -/
def Team.saveForm (t : Team) (a : Nat) : List Byte :=
  (List.range a).flatMap (fun k =>
    (List.range 4096).flatMap (fun i => leBytes 4 (t.acc.getD (4096 * k + i) 0).toNat) ++ leBytes 4 (t.progOf k).toNat)

/-- The bytes of a team's allocation, a poisoned word as zeros (R310). -/
def Team.padForm (t : Team) : List Byte :=
  (List.range t.scratchSize).map (fun i => if t.scratchPois.contains (i / 32) then 0 else t.scratch.getD i 0)

/-- The 512 barrier tags of a core (R310). -/
def Core.tagsForm (k : Core) : List Byte :=
  (k.tags.take 512).flatMap (fun (p : Nat × Tag) =>
    Config.tagForm (((k.slots.find? p.2.slot).map (fun t => t.scratchBase)).getD 0 + p.2.off) p.2.gen (if p.2.orphan then 2 else 1)) ++
  (List.range (512 - k.tags.length)).flatMap (fun _ => Config.tagForm 0 0 0)

/-- The section of a core, and whether it held poison (R310). -/
def State.dumpSection (s : State) (core : Nat) : List Byte × Bool :=
  let k := s.core core
  let sizes (t : Team) : Nat × Nat × Nat := ((s.grid? t.grid).map (fun g => (g.v, g.s, g.a))).getD (0, 0, 0)
  (k.slots.flatMap (fun t => t.2.groups.flatMap (fun g => g.2.saveForm (sizes t.2).1 (sizes t.2).2.1)) ++
    k.slots.flatMap (fun t => t.2.saveForm (sizes t.2).2.2) ++ k.slots.flatMap (fun t => t.2.padForm) ++ k.tagsForm,
   k.slots.any (fun t => !t.2.scratchPois.isEmpty))

/-- The header of a dump (R310). -/
def Device.dumpHeader (d : Device) : Nat :=
  0x53594E5244554D50 + 2 ^ 64 + d.dumpSeq.1 % 2 ^ 32 * 2 ^ 96 + d.dumpSeq.2 % 2 ^ 32 * 2 ^ 128 + 192 * 2 ^ 160 +
    (d.halt.getD 0).toNat * 2 ^ 192 + d.dumpFaults % 2 ^ 32 * 2 ^ 288

/-- The dump from its sections (R310). -/
def Device.dump (d : Device) : List Byte :=
  let dir := d.dumpSect.foldl (fun (acc : List Byte × Nat) x =>
    (acc.1 ++ leBytes 16 (Config.dirForm acc.2 x.2.1.length x.2.2.1 x.2.2.2).toNat, acc.2 + x.2.1.length)) ([], 64 + 192 * 16)
  leBytes 64 d.dumpHeader ++ dir.1 ++ d.dumpSect.flatMap (fun x => x.2.1)

/-- A section is done; with the last one the dump is in the dump area (R310). -/
def State.putSection (s : State) (sect : Nat) (bs : List Byte) (inc pois : Bool) : State :=
  let s := s.onDev (fun d => { d with dumpSect := d.dumpSect.set sect (bs, inc, pois), dumpFaults := d.dumpFaults + b2n inc })
  if s.dev.dumpSect.length = 192 then
    s.onDev (fun d => { d with dumps := d.dumps.set d.dumpNext d.dump, dumpNext := (d.dumpNext + 1) % 2 })
  else s

/-- Firmware writes section `sect` next: the device is halted, the copies are drained, and the sections before it are done. -/
def State.dumping (s : State) (sect : Nat) : Bool :=
  s.dev.halt.isSome && decide (sect < 192) && decide (s.dev.dumpSect.length = sect) && s.cores.all (fun c => c.2.copies.isEmpty)

/-- DUMP_WRITE (R310). -/
def execDumpWrite (sect : Nat) (s : State) : Out :=
  .next (if s.dumping sect then
      let (bs, pois) := s.dumpSection sect
      s.putSection sect bs false pois
    else s)

/-- A second fault strikes the section that is being written (R310): it is counted, and the section is abandoned. -/
def State.dumpFault (s : State) (sect : Nat) : State := if s.dumping sect then s.putSection sect [] true false else s

/-- DUMP_CORE_TIMEOUT (R310): a core does not answer. -/
def execDumpCoreTimeout (core : Nat) (s : State) : Out := .next (s.dumpFault core)

end Sys2Proof.Machine
end

