-- ==== Sys2Proof/Machine/Keccak.lean ====
section
/-! DEFINITION. SHAKE256 over messages of one block, for the measurement registers of R304 and the digests of R303 (PRESUMED: log 115). The rotation
amounts and the round constants are computed from the rules that the SHA-3 standard gives for them, not tabulated. -/

namespace Sys2Proof.Machine

/-- The state of the permutation: 25 lanes, that of column x and row y at number 5y + x. -/
abbrev Sponge := List W64

/-- A lane by number. -/
def Sponge.lane (a : Sponge) (n : Nat) : W64 := a.getD n 0

/-- A sponge from its lanes. -/
def Sponge.of (f : Nat → W64) : Sponge := (List.range 25).map f

/-- The bits that a feedback register of x⁸ + x⁶ + x⁵ + x⁴ + 1 gives from a state on. -/
def feedback : Nat → Nat → List Bool
  | 0, _ => []
  | n + 1, r => decide (r % 2 = 1) :: feedback n (if r < 128 then 2 * r else (2 * r) ^^^ 0x171)

/-- The constant of a round from its seven bits: bit j stands at 2^j − 1. -/
def roundConst (seven : List Bool) : W64 :=
  seven.zipIdx.foldl (fun c b => if b.1 then c ||| BitVec.ofNat 64 (2 ^ (2 ^ b.2 - 1)) else c) 0

/-- The constants of the 24 rounds. -/
def roundConsts : List W64 :=
  let bits := feedback 168 1
  (List.range 24).map (fun i => roundConst ((bits.drop (7 * i)).take 7))

/-- How far each lane turns: lane (1, 0) first, and each next one further by one more than the one before. -/
def turns : Nat → Nat → Nat → Nat → Nat → Tab Nat
  | 0, _, _, _, _ => []
  | n + 1, t, far, x, y => (5 * y + x, (far + t) % 64) :: turns n (t + 1) (far + t) y ((2 * x + 3 * y) % 5)

/-- The parity of a column. -/
def Sponge.column (a : Sponge) (x : Nat) : W64 := (List.range 5).foldl (fun p y => p ^^^ a.lane (5 * y + x % 5)) 0

/-- Every lane takes up the parities of the columns beside it. -/
def Sponge.mix (a : Sponge) : Sponge :=
  let ps := (List.range 5).map a.column
  let p (x : Nat) : W64 := ps.getD (x % 5) 0
  Sponge.of (fun n => a.lane n ^^^ (p (n + 4) ^^^ (p (n + 1)).rotateLeft 1))

/-- Every lane turns, and goes from column x and row y to column y and row 2x + 3y. -/
def Sponge.scatter (a : Sponge) (far : Tab Nat) : Sponge :=
  Sponge.of (fun n =>
    let src := 5 * (n % 5) + (n % 5 + 3 * (n / 5)) % 5
    (a.lane src).rotateLeft (far.getD src 0))

/-- Every lane is changed by the two that follow it in its row. -/
def Sponge.bend (a : Sponge) : Sponge :=
  Sponge.of (fun n =>
    let row := n / 5 * 5
    a.lane n ^^^ (a.lane (row + (n + 2) % 5) &&& ~~~ a.lane (row + (n + 1) % 5)))

/-- The permutation of 24 rounds. -/
def Sponge.permute (a : Sponge) : Sponge :=
  let far := turns 24 1 0 1 0
  roundConsts.foldl (fun a c => match (a.mix.scatter far).bend with
    | [] => []
    | l :: rest => (l ^^^ c) :: rest) a

/-- The first 64 bytes of SHAKE256 of a message shorter than 136 bytes, as a little-endian number: the message ends in the byte 0x1F,
and the block in a bit of the padding. -/
def shake256 (msg : List Byte) : BitVec 512 :=
  let padded := leNat (msg ++ [0x1F]) ||| 2 ^ 1087
  let a := Sponge.permute (Sponge.of (fun n => if n < 17 then BitVec.ofNat 64 (padded / 2 ^ (64 * n)) else 0))
  BitVec.ofNat 512 (leNat ((a.take 8).flatMap (fun l => leBytes 8 l.toNat)))

end Sys2Proof.Machine
end

