-- ==== Sys2Proof/Machine/Firmware.lean ====
section
/-! DEFINITION. The firmware: the mailbox commands (R299, R304, R305, R308), the leave budget (R272, R312), and bring-up
(R303, R311). -/

namespace Sys2Proof.Machine

/-- Bytes of MBXARG. -/
def Device.args (d : Device) (off n : Nat) : List Byte := (List.range n).map (fun i => d.mbxArg.getD (off + i) 0)

/-- The command of a code runs: its result and its result doublewords, or nothing while another one runs. What it leaves in MBXARG
is the results alone (R299). -/
def State.command (s : State) (code : Nat) (act : Device → Nat × List Nat × State) : State :=
  if s.dev.mailbox ≠ some code then s
  else
    let (result, words, s) := act s.dev
    let bytes := words.flatMap (fun w => leBytes 8 w)
    s.onDev (fun d => { d with mailbox := some (0x10000 + result),
                               mbxArg := bytes.zipIdx.foldl (fun t p => t.put 0 p.2 p.1) [] })

/-- The bytes of MBXARG outside [0, n) are zero. -/
def Device.zeroFrom (d : Device) (n : Nat) : Bool := (d.args n (256 - n)).all (fun b => b = 0)

/-- Extend a measurement register (R304). -/
def State.extend (s : State) (i : Nat) (digest : BitVec 512) : State :=
  s.onDev (fun d => { d with mr := d.mr.set i (shake256 (leBytes 64 (d.mr.getD i 0).toNat ++ leBytes 64 digest.toNat)) })

/-- KEYLOAD (R26, R27, R299, R304). -/
def execKeyload (s : State) : Out :=
  .next (s.command 1 (fun d =>
    let slot := d.arg 0
    if 512 ≤ slot ∨ !d.zeroFrom 72 then (2, [], s)
    else
      let key : KeyPair := BitVec.ofNat 512 (leNat (d.args 8 64))
      (0, [], ({ s with keys := s.keys.set slot key }).extend 2 (Config.keyDigest true slot))))

/-- KEYCLEAR (R26, R299, R304). -/
def execKeyclear (s : State) : Out :=
  .next (s.command 2 (fun d =>
    let slot := d.arg 0
    if 512 ≤ slot ∨ !d.zeroFrom 8 then (2, [], s)
    else (0, [], ({ s with keys := s.keys.erase slot }).extend 2 (Config.keyDigest false slot))))

/-- Firmware, as a record names it. -/
def whoFirmware : Who := { agent := 0, die := 0, core := 0, slot := 0, group := 0, id := 0 }

/-- Where firmware's bytes at a virtual address go, sector by sector, and the state that the reads of the tables leave: none where
one of them faults or meets a hole or an empty key slot. -/
def fwTargets (s : State) (asid : Nat) : Nat → Nat → List Byte → Option (List (Xlat × KeyPair × List Byte)) × State
  | 0, _, bs => (if bs.isEmpty then some [] else none, s)
  | fuel + 1, va, bs =>
    if bs.isEmpty then (some [], s)
    else
      let k := if 64 - va % 64 < bs.length then 64 - va % 64 else bs.length
      match s.translateBy whoFirmware asid va .store true false with
      | (.fault _, s) => (none, s)
      | (.ok x, s) =>
        if region x.pa ≠ .hbm ∧ region x.pa ≠ .tier then (none, s)
        else
          match s.keys.find? x.key with
          | none => (none, s)
          | some key =>
            let r := fwTargets s asid fuel ((va + k) % 2 ^ 57) (bs.drop k)
            (r.1.map (fun l => (x, key, bs.take k) :: l), r.2)

/-- Firmware writes bytes to a buffer, or nothing where some of them cannot be written. -/
def State.fwWrite (s : State) (asid va : Nat) (bs : List Byte) : Bool × State :=
  match fwTargets s asid (bs.length / 64 + 2) va bs with
  | (none, s) => (false, s)
  | (some ts, s) => (true, ts.foldl (fun s (t : Xlat × KeyPair × List Byte) =>
      s.engineStore whoFirmware 0 t.1 t.2.1 (t.2.2.zipIdx.map (fun (b : Byte × Nat) => (t.1.pa + b.2, b.1))) [] (.nobody none)) s)

/-- The report of ATTEST with its signature and the certificate after it (R305). -/
def Device.report (d : Device) (nonce : List Byte) : List Byte :=
  let head := leBytes 8 1 ++ nonce ++ (List.range 8).flatMap (fun i => leBytes 64 (d.mr.getD i 0).toNat) ++
    leBytes 8 (Config.reportIds (bits d.dlid.toNat 9 0) d.secver).toNat ++ leBytes 64 Config.identityKey.toNat
  head ++ (List.range 29792).map (fun i => Config.signatureByte head i) ++ (List.range Config.certificateLen).map Config.certificateByte

/-- ATTEST (R299, R305). -/
def execAttest (s : State) : Out :=
  .next (if frozenSpan s (s.dev.arg 5) (s.dev.arg 4) (30416 + Config.certificateLen) then s else s.command 0x10 (fun d =>
    if 2 ^ 57 ≤ d.arg 4 ∨ 2 ^ 16 ≤ d.arg 5 ∨ !d.zeroFrom 48 then (2, [], s)
    else
      let bs := d.report (d.args 0 32)
      match s.fwWrite (d.arg 5) (d.arg 4) bs with
      | (false, s) => (2, [], s)
      | (true, s) => (0, [bs.length], s)))

/-- EXTEND (R299, R304). -/
def execExtendMr (s : State) : Out :=
  .next (s.command 0x11 (fun d =>
    if d.arg 0 < 3 ∨ 7 < d.arg 0 ∨ !d.zeroFrom 72 then (2, [], s)
    else (0, [], s.extend (d.arg 0) (BitVec.ofNat 512 (leNat (d.args 8 64))))))

/-- The budget that a power limit gives each die (R272). -/
def powerBudget (watts : Nat) : Nat := if 1280 * watts / 1800 < 64 then 64 else 1280 * watts / 1800

/-- PLIMIT (R272, R299, R312): a die that is too hot keeps to the lower budget. -/
def execPlimit (s : State) : Out :=
  .next (s.command 0x20 (fun d =>
    let w := d.arg 0
    if w < 300 ∨ 1800 < w ∨ !d.zeroFrom 8 then (2, [], s)
    else
      (0, [], [0, 1].foldl (fun s die => s.onDie die (fun x => match x.hotBudget with
        | none => { x with budget := powerBudget w }
        | some _ => { x with hotBudget := some (powerBudget w), budget := if x.budget < powerBudget w then x.budget else powerBudget w })) s)))

/-- DUMPMAP (R299, R310). -/
def execDumpmap (s : State) : Out :=
  .next (s.command 0x30 (fun d =>
    let i := d.arg 0
    match if i < 2 ∧ d.zeroFrom 8 = true then d.dumps.find? i else none with
    | none => (2, [], s)
    | some bs => (0, [Config.dumpOffset i, bs.length], s.onDev (fun d => { d with dumpMaps := i :: d.dumpMaps.filter (fun j => j ≠ i) }))))

/-- Bytes of the debug state of a team: its groups' save forms and its record (R164, R308). -/
def State.debugBytes (s : State) (core slot : Nat) : Nat :=
  match s.team? core slot with
  | none => 0
  | some t =>
    let (v, sn, a) := ((s.grid? t.grid).map (fun g => (g.v, g.s, g.a))).getD (0, 0, 0)
    t.groups.length * (128 * v + 4 * sn + 768) + 16388 * a

/-- DBGREAD (R299, R308). -/
def execDbgread (s : State) : Out :=
  .next (if frozenSpan s (s.dev.arg 3) (s.dev.arg 2) (s.debugBytes (s.dev.arg 0) (s.dev.arg 1)) then s else s.command 0x31 (fun d =>
    let core := d.arg 0
    let slot := d.arg 1
    if 192 ≤ core ∨ 64 ≤ slot ∨ 2 ^ 57 ≤ d.arg 2 ∨ 2 ^ 16 ≤ d.arg 3 ∨ !d.zeroFrom 32 then (2, [], s)
    else
      match s.team? core slot with
      | none => (3, [], s)
      | some t =>
        if !t.groups.all (fun g => g.2.hold.isSome || g.2.handling.isSome) then (3, [], s)
        else
          let (v, sn, a) := ((s.grid? t.grid).map (fun g => (g.v, g.s, g.a))).getD (0, 0, 0)
          match s.fwWrite (d.arg 3) (d.arg 2) (t.groups.flatMap (fun g => g.2.saveForm v sn) ++ t.saveForm a) with
          | (false, s) => (2, [], s)
          | (true, s) => (0, [], s)))

/-- The codes of R299. -/
def mailboxCodes : List Nat := [0x01, 0x02, 0x10, 0x11, 0x20, 0x30, 0x31]

/-- MAILBOX_DONE (R297, R299): RESULT is written, BUSY clears, and vector 2 is sent. An unknown code is BADCMD. -/
def execMailboxDone (s : State) : Out :=
  .next (match s.dev.mailbox with
    | none => s
    | some m =>
      if 0x10000 ≤ m then
        (s.onDev (fun d => { d with mailbox := none, mbxCtl := BitVec.ofNat 64 (bits d.mbxCtl.toNat 15 0 + (m - 0x10000) * 2 ^ 32) })).interrupt 2
      else if mailboxCodes.contains m then s
      else
        (s.onDev (fun d => { d with mailbox := none, mbxArg := [],
                                    mbxCtl := BitVec.ofNat 64 (bits d.mbxCtl.toNat 15 0 + 2 ^ 32) })).interrupt 2)

/-- TEMP_LIMIT (R312): firmware lowers a die's budget. No grant is revoked. -/
def execTempLimit (die budget : Nat) (s : State) : Out :=
  .next (s.onDie (die % 2) (fun d =>
    let b := if budget < 64 then 64 else budget
    { d with hotBudget := some (d.hotBudget.getD d.budget), budget := if b < d.budget then b else d.budget }))

/-- TEMP_BELOW_LIMIT (R312): the budget is restored. -/
def execTempBelowLimit (die : Nat) (s : State) : Out :=
  .next (s.onDie (die % 2) (fun d => { d with budget := d.hotBudget.getD d.budget, hotBudget := none }))

/-- The ports that firmware trains (R311). -/
def trainedPorts : Tab Port :=
  ((List.range 12).filter Config.portTrains).map (fun p => (p, { up := true, queue := [], fails := 0 }))

/-- DEVSTAT takes a value; the PFs hear of a change (R297). -/
def State.setDevstat (s : State) (v : W64) : State :=
  if s.dev.devstat = v then s else (s.onDev (fun d => { d with devstat := v })).interrupt 3

/-- DEVICE_RESET (R27, R303, R304, R311): everything is as after reset. The image is verified; one that is rejected leaves the device
in recovery. Otherwise bring-up begins, step by step. The dump area and the fused counter keep what they hold. -/
def execDeviceReset (s : State) : Out :=
  let d0 : Device := { Device.init with devstat := s.dev.devstat, dumps := s.dev.dumps, dumpNext := s.dev.dumpNext, secver := s.dev.secver, msix := s.dev.msix }
  let r : State := { State.reset with agenda := s.agenda, tick := s.tick, freeCtr := s.freeCtr, dev := d0,
                                       fns := s.fns.map (fun (f : Nat × HostFn) => (f.1, { f.2 with writes := [], reads := [] })) }
  .next (
    if !Config.imageAccepted || decide (Config.imageVersion < s.dev.secver) then
      r.setDevstat 0x10
    else
      (((r.extend 0 Config.imageDigest).extend 1 Config.microcodeDigest).onDev (fun d =>
        { d with secver := if Config.imageAdvances && decide (Config.imageVersion ≤ 64) then Config.imageVersion else d.secver })).setDevstat 0)

/-- The next step of bring-up once the image is verified, which its measurement shows (R303, R304, R311): HBM is trained and written
clean, the tier is programmed, the ports are trained and DLID copied, the device is ready. -/
def State.bringUp (s : State) : State :=
  let v := s.dev.devstat
  if (s.dev.mr.find? 0).isNone || v.getLsbD 4 || v.getLsbD 0 then s
  else if !v.getLsbD 1 then
    ({ s with mem := { s.mem with errors := s.mem.errors.filter (fun e => decide (region (32 * e.1) ≠ Region.hbm)),
                                  fixes := s.mem.fixes.filter (fun w => decide (region (32 * w) ≠ Region.hbm)) } }).setDevstat (v ||| 2)
  else if !v.getLsbD 2 then s.setDevstat (v ||| 4 ||| (Config.cxlSet.setWidth 64 <<< 8))
  else if !v.getLsbD 3 then
    (({ s with ports := trainedPorts }).onDev (fun d => { d with dlid := Config.devnum.setWidth 64 })).setDevstat (v ||| 8)
  else s.setDevstat (v ||| 1)

end Sys2Proof.Machine
end

