-- ==== Sys2Proof/Machine/Input.lean ====
section
/-! DEFINITION. Which turn comes next, what each turn does, and how an instruction is placed for the next step to run. -/

namespace Sys2Proof.Machine

/-- The turn that comes where the agenda names none: a free value, since the manual leaves open how the agents of the device
interleave (log 2). -/
opaque oracle : Nat → Turn

/-- The next turn, and the state that has taken it off. -/
def State.drawn (s : State) : Turn × State :=
  match s.agenda with
  | t :: rest => (t, { s with agenda := rest })
  | [] => (oracle s.tick, { s with tick := s.tick + 1 })

/-- Before the counters of R274 and a sample of R307 are taken, the paths of that core learn what they would wait for now. -/
def State.probed (run : Instr → State → Out) (s : State) : Instr → State
  | .eligibilityCount core => s.probe run core
  | .sampleTake core _ _ _ => s.probe run core
  | _ => s

/-- What a turn does: a quarter issues (R271), a step that no instruction word names comes about, or something reaches the device
from outside. `run` is the meaning of an instruction. -/
def State.take (run : Instr → State → Out) (s : State) : Turn → Out
  | .issue core q => s.turn run core q
  | .event i => run i (s.probed run i)
  | .softError word n => .next (s.softError word n)
  | .sramError core mode a b => .next (s.sramError core mode a b)
  | .bufferParity task slot => .next (s.bufferParity task slot)
  | .zParity task z => .next (s.zParity task z)
  | .laneParity h p => .next (s.laneParity h p)
  | .hostWrite fn bar off bytes => .next (s.hostArrive true fn bar off bytes.length bytes)
  | .hostRead fn bar off len => .next (s.hostArrive false fn bar off len [])
  | .hostAssign fn link asid apBase pf queues => .next (s.hostAssign fn link asid apBase pf queues)
  | .hostMask fn vector masked => .next (s.hostMask fn vector masked)
  | .asidResume asid => .next (s.asidResume asid)
  | .asidGone asid => .next (s.asidGone asid)
  | .bringUp => .next s.bringUp
  | .dumpFault sect => .next (s.dumpFault sect)
  | .flitSent port => .next (s.flitSent port)
  | .remoteArrive r => .next { s with received := s.received.set s.nextReceived { r with performed := false }, nextReceived := s.nextReceived + 1 }

/-- A supervisor's grid of one team of one group, with every register there is (R161). -/
def Grid.bare : Grid :=
  { asid := 0, sup := true, prio := 0, order := 0, g := 1, cw := 1, ch := 1, nclu := 1, a := 16, v := 256, s := 1024, log2p := 5,
    fmt0 := 0, entry := 0, sptab := 0, scratch := 0, aff := 0, compl := 0, args := [], sched := [], waiting := [], teamsLeft := 1,
    forced := false, lastCore := 0, work := 0, addParked := false, saved := [] }

/-- Its group, in the middle of a clause whose next word is `w`. -/
def Group.about (w : W64) : Group :=
  { Group.start 0 8 0 5 [] 0 with
    paths := [(0, { Path.start (BitVec.allOnes 32) 8 0 with words := [w], hdrPc := 0, fresh := false })] }

/-- Its team, in slot 0 of core 0. -/
def Team.bare (grid : Nat) (g : Group) : Team :=
  { grid := grid, cluster := 0, rank := 0, asid := 0, sup := true, groups := [(0, g)], scratchBase := 0, scratchSize := 0, scratch := [],
    scratchPois := [], acc := [], prog := [], phases := [], stage := 0, issued := [], run := .running, forced := false }

/-- The word stands where the next step takes its instruction: it is the next word of the clause that the only path of core 0's
first group has fetched, and the next turn is that group's quarter's (log 1). -/
def State.placeWord (s : State) (w : W64) : State :=
  let s := { s with grids := s.grids.set s.nextGrid Grid.bare, nextGrid := s.nextGrid + 1, agenda := .issue 0 0 :: s.agenda }
  s.onCore 0 (fun k => { k with slots := [(0, Team.bare (s.nextGrid - 1) (Group.about w))] })

end Sys2Proof.Machine
end

