-- ==== Sys2Proof/Machine/Dispatch.lean ====
section
/-! DEFINITION. The meaning of every constructor of Instr: one direct call each. -/

namespace Sys2Proof.Machine

def exec (i : Instr) (s : State) : Host.Outcome State Fault Refusal :=
  match i with
  | .smov f => Sys2Proof.Machine.execSmov f s
  | .smovi f => Sys2Proof.Machine.execSmovi f s
  | .sadd f => Sys2Proof.Machine.execSadd f s
  | .ssub f => Sys2Proof.Machine.execSsub f s
  | .smul f => Sys2Proof.Machine.execSmul f s
  | .smulh f => Sys2Proof.Machine.execSmulh f s
  | .sdiv f => Sys2Proof.Machine.execSdiv f s
  | .srem f => Sys2Proof.Machine.execSrem f s
  | .sand f => Sys2Proof.Machine.execSand f s
  | .sor f => Sys2Proof.Machine.execSor f s
  | .sxor f => Sys2Proof.Machine.execSxor f s
  | .snot f => Sys2Proof.Machine.execSnot f s
  | .sshl f => Sys2Proof.Machine.execSshl f s
  | .sshr f => Sys2Proof.Machine.execSshr f s
  | .ssar f => Sys2Proof.Machine.execSsar f s
  | .smin f => Sys2Proof.Machine.execSmin f s
  | .smax f => Sys2Proof.Machine.execSmax f s
  | .scmp f => Sys2Proof.Machine.execScmp f s
  | .ssel f => Sys2Proof.Machine.execSsel f s
  | .nop f => Sys2Proof.Machine.execNop f s
  | .bra f => Sys2Proof.Machine.execBra f s
  | .brc f => Sys2Proof.Machine.execBrc f s
  | .call f => Sys2Proof.Machine.execCall f s
  | .ret f => Sys2Proof.Machine.execRet f s
  | .jmpi f => Sys2Proof.Machine.execJmpi f s
  | .exit f => Sys2Proof.Machine.execExit f s
  | .waitc f => Sys2Proof.Machine.execWaitc f s
  | .yield f => Sys2Proof.Machine.execYield f s
  | .srdsr f => Sys2Proof.Machine.execSrdsr f s
  | .swrsr f => Sys2Proof.Machine.execSwrsr f s
  | .setfmt f => Sys2Proof.Machine.execSetfmt f s
  | .setpart f => Sys2Proof.Machine.execSetpart f s
  | .ifLanes f => Sys2Proof.Machine.execIfLanes f s
  | .elseLanes f => Sys2Proof.Machine.execElseLanes f s
  | .endif f => Sys2Proof.Machine.execEndif f s
  | .brv f => Sys2Proof.Machine.execBrv f s
  | .mark f => Sys2Proof.Machine.execMark f s
  | .join f => Sys2Proof.Machine.execJoin f s
  | .kmov f => Sys2Proof.Machine.execKmov f s
  | .kand f => Sys2Proof.Machine.execKand f s
  | .kor f => Sys2Proof.Machine.execKor f s
  | .spin f => Sys2Proof.Machine.execSpin f s
  | .vadd f => Sys2Proof.Machine.execVadd f s
  | .vsub f => Sys2Proof.Machine.execVsub f s
  | .vmul f => Sys2Proof.Machine.execVmul f s
  | .vmulh f => Sys2Proof.Machine.execVmulh f s
  | .vmad f => Sys2Proof.Machine.execVmad f s
  | .vand f => Sys2Proof.Machine.execVand f s
  | .vor f => Sys2Proof.Machine.execVor f s
  | .vxor f => Sys2Proof.Machine.execVxor f s
  | .vnot f => Sys2Proof.Machine.execVnot f s
  | .vshl f => Sys2Proof.Machine.execVshl f s
  | .vshr f => Sys2Proof.Machine.execVshr f s
  | .vsar f => Sys2Proof.Machine.execVsar f s
  | .vmin f => Sys2Proof.Machine.execVmin f s
  | .vmax f => Sys2Proof.Machine.execVmax f s
  | .vabs f => Sys2Proof.Machine.execVabs f s
  | .vclz f => Sys2Proof.Machine.execVclz f s
  | .vpopc f => Sys2Proof.Machine.execVpopc f s
  | .vbrev f => Sys2Proof.Machine.execVbrev f s
  | .vcmp f => Sys2Proof.Machine.execVcmp f s
  | .vsel f => Sys2Proof.Machine.execVsel f s
  | .vmov f => Sys2Proof.Machine.execVmov f s
  | .viota f => Sys2Proof.Machine.execViota f s
  | .vmovs f => Sys2Proof.Machine.execVmovs f s
  | .vfadd f => Sys2Proof.Machine.execVfadd f s
  | .vfsub f => Sys2Proof.Machine.execVfsub f s
  | .vfmul f => Sys2Proof.Machine.execVfmul f s
  | .vfma f => Sys2Proof.Machine.execVfma f s
  | .vfmin f => Sys2Proof.Machine.execVfmin f s
  | .vfmax f => Sys2Proof.Machine.execVfmax f s
  | .vfminn f => Sys2Proof.Machine.execVfminn f s
  | .vfmaxn f => Sys2Proof.Machine.execVfmaxn f s
  | .vfabs f => Sys2Proof.Machine.execVfabs f s
  | .vfneg f => Sys2Proof.Machine.execVfneg f s
  | .vfrcp f => Sys2Proof.Machine.execVfrcp f s
  | .vfrsq f => Sys2Proof.Machine.execVfrsq f s
  | .vfsqrt f => Sys2Proof.Machine.execVfsqrt f s
  | .vfdiv f => Sys2Proof.Machine.execVfdiv f s
  | .vfexp2 f => Sys2Proof.Machine.execVfexp2 f s
  | .vflog2 f => Sys2Proof.Machine.execVflog2 f s
  | .vfsin f => Sys2Proof.Machine.execVfsin f s
  | .vfcos f => Sys2Proof.Machine.execVfcos f s
  | .vfclass f => Sys2Proof.Machine.execVfclass f s
  | .vfrnd f => Sys2Proof.Machine.execVfrnd f s
  | .vfcmp f => Sys2Proof.Machine.execVfcmp f s
  | .vaddmin f => Sys2Proof.Machine.execVaddmin f s
  | .vaddmax f => Sys2Proof.Machine.execVaddmax f s
  | .vshfl f => Sys2Proof.Machine.execVshfl f s
  | .vshup f => Sys2Proof.Machine.execVshup f s
  | .vshdn f => Sys2Proof.Machine.execVshdn f s
  | .vbcast f => Sys2Proof.Machine.execVbcast f s
  | .vvote f => Sys2Proof.Machine.execVvote f s
  | .vred f => Sys2Proof.Machine.execVred f s
  | .vscan f => Sys2Proof.Machine.execVscan f s
  | .vcmpx f => Sys2Proof.Machine.execVcmpx f s
  | .vmatch f => Sys2Proof.Machine.execVmatch f s
  | .vcompact f => Sys2Proof.Machine.execVcompact f s
  | .vcvt f => Sys2Proof.Machine.execVcvt f s
  | .vcvts f => Sys2Proof.Machine.execVcvts f s
  | .vpack f => Sys2Proof.Machine.execVpack f s
  | .vunpack f => Sys2Proof.Machine.execVunpack f s
  | .ld f => Sys2Proof.Machine.execLd f s
  | .ldr f => Sys2Proof.Machine.execLdr f s
  | .st f => Sys2Proof.Machine.execSt f s
  | .lds f => Sys2Proof.Machine.execLds f s
  | .sts f => Sys2Proof.Machine.execSts f s
  | .atom f => Sys2Proof.Machine.execAtom f s
  | .atoms f => Sys2Proof.Machine.execAtoms f s
  | .sld f => Sys2Proof.Machine.execSld f s
  | .sst f => Sys2Proof.Machine.execSst f s
  | .fence f => Sys2Proof.Machine.execFence f s
  | .waitf f => Sys2Proof.Machine.execWaitf f s
  | .phase f => Sys2Proof.Machine.execPhase f s
  | .publish f => Sys2Proof.Machine.execPublish f s
  | .sramcfgFifo f => Sys2Proof.Machine.execSramcfgFifo f s
  | .sramcfgFree f => Sys2Proof.Machine.execSramcfgFree f s
  | .qput f => Sys2Proof.Machine.execQput f s
  | .qget f => Sys2Proof.Machine.execQget f s
  | .barinit f => Sys2Proof.Machine.execBarinit f s
  | .barinv f => Sys2Proof.Machine.execBarinv f s
  | .bararr f => Sys2Proof.Machine.execBararr f s
  | .barwait f => Sys2Proof.Machine.execBarwait f s
  | .yieldw f => Sys2Proof.Machine.execYieldw f s
  | .recBegin f => Sys2Proof.Machine.execRecBegin f s
  | .recEnd f => Sys2Proof.Machine.execRecEnd f s
  | .recReplay f => Sys2Proof.Machine.execRecReplay f s
  | .recForget f => Sys2Proof.Machine.execRecForget f s
  | .recStat f => Sys2Proof.Machine.execRecStat f s
  | .recSliceApply bc slice => Sys2Proof.Machine.execRecSliceApply bc slice s
  | .cpyGs f => Sys2Proof.Machine.execCpyGs f s
  | .cpySg f => Sys2Proof.Machine.execCpySg f s
  | .cpyGg f => Sys2Proof.Machine.execCpyGg f s
  | .cpySr f => Sys2Proof.Machine.execCpySr f s
  | .cpyRs f => Sys2Proof.Machine.execCpyRs f s
  | .pref f => Sys2Proof.Machine.execPref f s
  | .cpyrAdd f => Sys2Proof.Machine.execCpyrAdd f s
  | .cpyrMin f => Sys2Proof.Machine.execCpyrMin f s
  | .cpyrMax f => Sys2Proof.Machine.execCpyrMax f s
  | .cpyrAnd f => Sys2Proof.Machine.execCpyrAnd f s
  | .cpyrOr f => Sys2Proof.Machine.execCpyrOr f s
  | .cfence f => Sys2Proof.Machine.execCfence f s
  | .cstep f => Sys2Proof.Machine.execCstep f s
  | .mma f => Sys2Proof.Machine.execMma f s
  | .mmab f => Sys2Proof.Machine.execMmab f s
  | .matrixKStep core => Sys2Proof.Machine.execMatrixKStep core s
  | .mzero f => Sys2Proof.Machine.execMzero f s
  | .mlda f => Sys2Proof.Machine.execMlda f s
  | .msta f => Sys2Proof.Machine.execMsta f s
  | .mcvt f => Sys2Proof.Machine.execMcvt f s
  | .mprog f => Sys2Proof.Machine.execMprog f s
  | .mprogSet f => Sys2Proof.Machine.execMprogSet f s
  | .tmap f => Sys2Proof.Machine.execTmap f s
  | .tmapRd f => Sys2Proof.Machine.execTmapRd f s
  | .tside f => Sys2Proof.Machine.execTside f s
  | .mngi f => Sys2Proof.Machine.execMngi f s
  | .mngu f => Sys2Proof.Machine.execMngu f s
  | .mngf f => Sys2Proof.Machine.execMngf f s
  | .mngs f => Sys2Proof.Machine.execMngs f s
  | .plaunch f => Sys2Proof.Machine.execPlaunch f s
  | .pgo f => Sys2Proof.Machine.execPgo f s
  | .pwait f => Sys2Proof.Machine.execPwait f s
  | .launch f => Sys2Proof.Machine.execLaunch f s
  | .leave f => Sys2Proof.Machine.execLeave f s
  | .place f => Sys2Proof.Machine.execPlace f s
  | .trap f => Sys2Proof.Machine.execTrap f s
  | .eret f => Sys2Proof.Machine.execEret f s
  | .syscall f => Sys2Proof.Machine.execSyscall f s
  | .csrr f => Sys2Proof.Machine.execCsrr f s
  | .csrw f => Sys2Proof.Machine.execCsrw f s
  | .tlbinvAll f => Sys2Proof.Machine.execTlbinvAll f s
  | .tlbinvAsid f => Sys2Proof.Machine.execTlbinvAsid f s
  | .tlbinvPage f => Sys2Proof.Machine.execTlbinvPage f s
  | .tlbinvUnitAct bc unit => Sys2Proof.Machine.execTlbinvUnitAct bc unit s
  | .fltrplAll f => Sys2Proof.Machine.execFltrplAll f s
  | .fltrplUnitAct bc unit => Sys2Proof.Machine.execFltrplUnitAct bc unit s
  | .brk f => Sys2Proof.Machine.execBrk f s
  | .haltbc f => Sys2Proof.Machine.execHaltbc f s
  | .bundleIssue pcore => Sys2Proof.Machine.execBundleIssue pcore s
  | .taskAdmit task => Sys2Proof.Machine.execTaskAdmit task s
  | .taskStart task => Sys2Proof.Machine.execTaskStart task s
  | .taskSave task => Sys2Proof.Machine.execTaskSave task s
  | .taskResume task => Sys2Proof.Machine.execTaskResume task s
  | .completionAdd task => Sys2Proof.Machine.execCompletionAdd task s
  | .pgoReturn task => Sys2Proof.Machine.execPgoReturn task s
  | .paddockWalk task => Sys2Proof.Machine.execPaddockWalk task s
  | .firingWorkLimit pcore => Sys2Proof.Machine.execFiringWorkLimit pcore s
  | .passStart handle => Sys2Proof.Machine.execPassStart handle s
  | .switchIn handle => Sys2Proof.Machine.execSwitchIn handle s
  | .performStore core slot group op sec => Sys2Proof.Machine.execPerformStore core slot group op sec s
  | .serveLoad core slot group op sec => Sys2Proof.Machine.execServeLoad core slot group op sec s
  | .performAtomic core slot group op sec => Sys2Proof.Machine.execPerformAtomic core slot group op sec s
  | .deliver slice core => Sys2Proof.Machine.execDeliver slice core s
  | .acknowledge ack => Sys2Proof.Machine.execAcknowledge ack s
  | .pinAgeRecall sector => Sys2Proof.Machine.execPinAgeRecall sector s
  | .resultRetire core slot group op => Sys2Proof.Machine.execResultRetire core slot group op s
  | .sliceFill sector => Sys2Proof.Machine.execSliceFill sector s
  | .ceWriteback word => Sys2Proof.Machine.execCeWriteback word s
  | .cxlResponse word poisoned => Sys2Proof.Machine.execCxlResponse word poisoned s
  | .sliceEvict sector => Sys2Proof.Machine.execSliceEvict sector s
  | .dropNotice core sector => Sys2Proof.Machine.execDropNotice core sector s
  | .publishLine pub line => Sys2Proof.Machine.execPublishLine pub line s
  | .engineAccess core op n => Sys2Proof.Machine.execEngineAccess core op n s
  | .copyUnitWrite core op unit => Sys2Proof.Machine.execCopyUnitWrite core op unit s
  | .engineArrival core op => Sys2Proof.Machine.execEngineArrival core op s
  | .blockSwitchDone core block => Sys2Proof.Machine.execBlockSwitchDone core block s
  | .mshrRetry core slot group op => Sys2Proof.Machine.execMshrRetry core slot group op s
  | .spinMarkTimeout core slot group path => Sys2Proof.Machine.execSpinMarkTimeout core slot group path s
  | .groupStarving core slot group => Sys2Proof.Machine.execGroupStarving core slot group s
  | .launchQueueRead q => Sys2Proof.Machine.execLaunchQueueRead q s
  | .lqptrTailWrite q tail => Sys2Proof.Machine.execLqptrTailWrite q tail s
  | .lqctlErrClear q => Sys2Proof.Machine.execLqctlErrClear q s
  | .clusterAdmit grid clu die row col => Sys2Proof.Machine.execClusterAdmit grid clu die row col s
  | .admissionWaitLimit die grid clu => Sys2Proof.Machine.execAdmissionWaitLimit die grid clu s
  | .admissionPreemptLimit die grid clu victimGrid victimClu => Sys2Proof.Machine.execAdmissionPreemptLimit die grid clu victimGrid victimClu s
  | .gridCompletionAdd grid => Sys2Proof.Machine.execGridCompletionAdd grid s
  | .leaveGrant die => Sys2Proof.Machine.execLeaveGrant die s
  | .leaveGrantExpiry core slot group => Sys2Proof.Machine.execLeaveGrantExpiry core slot group s
  | .pageWalk core slot group op sec => Sys2Proof.Machine.execPageWalk core slot group op sec s
  | .trapEntry core slot group path => Sys2Proof.Machine.execTrapEntry core slot group path s
  | .preemptSave grid clu => Sys2Proof.Machine.execPreemptSave grid clu s
  | .preemptLimitExpiry grid clu => Sys2Proof.Machine.execPreemptLimitExpiry grid clu s
  | .teamctlResume core slot => Sys2Proof.Machine.execTeamctlResume core slot s
  | .teamctlKill core slot => Sys2Proof.Machine.execTeamctlKill core slot s
  | .screspWrite die value => Sys2Proof.Machine.execScrespWrite die value s
  | .ckreplayWrite ckslot => Sys2Proof.Machine.execCkreplayWrite ckslot s
  | .checkpointTimer die => Sys2Proof.Machine.execCheckpointTimer die s
  | .replayDiverge slice => Sys2Proof.Machine.execReplayDiverge slice s
  | .keyload => Sys2Proof.Machine.execKeyload s
  | .keyclear => Sys2Proof.Machine.execKeyclear s
  | .attest => Sys2Proof.Machine.execAttest s
  | .extendMr => Sys2Proof.Machine.execExtendMr s
  | .plimit => Sys2Proof.Machine.execPlimit s
  | .dumpmap => Sys2Proof.Machine.execDumpmap s
  | .dbgread => Sys2Proof.Machine.execDbgread s
  | .mailboxDone => Sys2Proof.Machine.execMailboxDone s
  | .registerWrite off value => Sys2Proof.Machine.execRegisterWrite off value s
  | .hostPostedWrite fn => Sys2Proof.Machine.execHostPostedWrite fn s
  | .hostRead fn index => Sys2Proof.Machine.execHostRead fn index s
  | .remoteRequestReceive index => Sys2Proof.Machine.execRemoteRequestReceive index s
  | .remoteAck index => Sys2Proof.Machine.execRemoteAck index s
  | .flitCrcFail port => Sys2Proof.Machine.execFlitCrcFail port s
  | .placementFreeze asid va target => Sys2Proof.Machine.execPlacementFreeze asid va target s
  | .placementCopy mv => Sys2Proof.Machine.execPlacementCopy mv s
  | .placementSwitch mv => Sys2Proof.Machine.execPlacementSwitch mv s
  | .sampleTake core slot group path => Sys2Proof.Machine.execSampleTake core slot group path s
  | .tempLimit die budget => Sys2Proof.Machine.execTempLimit die budget s
  | .dumpWrite sect => Sys2Proof.Machine.execDumpWrite sect s
  | .dumpCoreTimeout core => Sys2Proof.Machine.execDumpCoreTimeout core s
  | .deviceReset => Sys2Proof.Machine.execDeviceReset s
  | .clusterMove grid clu => Sys2Proof.Machine.execClusterMove grid clu s
  | .tempBelowLimit die => Sys2Proof.Machine.execTempBelowLimit die s
  | .portRetrain port => Sys2Proof.Machine.execPortRetrain port s
  | .eligibilityCount core => Sys2Proof.Machine.execEligibilityCount core s
  | .paddockTaskKill task => Sys2Proof.Machine.execPaddockTaskKill task s
  | .asidSuspend asid => Sys2Proof.Machine.execAsidSuspend asid s

end Sys2Proof.Machine
end

