-- ==== Sys2Proof/Machine/Step.lean ====
section
/-! DEFINITION. One step of the machine: the next turn comes about. -/

namespace Sys2Proof.Machine

/-- One step: the next turn of the agenda, or one that the oracle draws (log 2). -/
def step (s : State) : Host.Outcome State Fault Refusal := s.drawn.2.take exec s.drawn.1

/-- The state with an instruction where the next step takes it (log 1). An instruction is one 64-bit word (R317). -/
def State.withFetchWord (s : State) (_nbits w : Nat) : State := s.placeWord (BitVec.ofNat 64 w)

end Sys2Proof.Machine
end

