-- ==== Sys2Proof/Safety.lean ====
section
/-! DEFINITION. The terms in which claims are stated: a sound state, a step that goes on, what it is for an instruction to issue,
and what an instruction that retires at once leaves unchanged. -/

namespace Sys2Proof.Machine

/-- The step answers a next state: it neither faults nor is refused. -/
def goesOn (o : Out) : Prop := ∃ t, o = .next t

/-- Memory holds its canonical form (MEMORY): addresses strictly rising in each table, now and in every checkpoint that a replay
may restore (R309). -/
def State.sound (s : State) : Prop := s.mem.wf = true ∧ ∀ k ∈ s.dev.checkpoints, k.2.mem.wf = true

/-- The instruction of the issuing path issues now: `x` is what it sees, the registers that it names exist (R326), and it waits
for none of them (R323, R336). -/
def State.issuesFor (s : State) (x : Ctx) (regs : List Reg) : Prop :=
  s.ctx? = some x ∧ regs.all x.regOk = true ∧ x.stall s regs = none

/-- What a program sees of a path: its lanes, its PC and its FMT. -/
def Path.view (p : Path) : LaneSet × PcVal × W32 := (p.lanes, p.pc, p.fmt)

/-- A group without its paths, which are told apart by `view`. Where `v` says that V registers are written, without those and
the names of the physical registers that hold them. -/
def Group.rest (v : Bool) (g : Group) : Group :=
  { g with paths := [], v := if v then [] else g.v, names := if v then [] else g.names }

/-- What an instruction that acts on its own group alone leaves as it was: every part of the device but the cores and the leave
of the dies (so every byte of memory, every sector, translation and device register); every other core; of its own core all but
the teams, and where V registers are written the physical registers, names and folds of its quarters; every other team; of its
own team all but the groups (so the scratchpad, the accumulators and the phases); every other group. -/
structure Frame (v : Bool) (x : Ctx) (s t : State) : Prop where
  device : { t with cores := s.cores, dies := s.dies } = s
  dies : ∀ d, { t.die d with grants := (s.die d).grants, inUse := (s.die d).inUse } = s.die d
  cores : ∀ c, c ≠ x.a.core → t.core c = s.core c
  core : { t.core x.a.core with
      slots := (s.core x.a.core).slots,
      quarters := if v then (s.core x.a.core).quarters else (t.core x.a.core).quarters } = s.core x.a.core
  teams : ∀ n, n ≠ x.a.slot → t.team? x.a.core n = s.team? x.a.core n
  team : ∃ u, t.team? x.a.core x.a.slot = some u ∧ { u with groups := x.t.groups } = x.t
  groups : ∀ g, g ≠ x.a.group → t.group? x.a.core x.a.slot g = s.group? x.a.core x.a.slot g

/-- The instruction of `x` has retired: the machine went from `s` to `t`, in which the group of `x` is `g'`. All of `g'` is as in
`g`, but for what `rest` leaves out; the issuing path now shows `view`, and the group's other paths show what they showed. -/
structure Retires (v : Bool) (x : Ctx) (s t : State) (view : LaneSet × PcVal × W32) (g g' : Group) : Prop where
  frame : Frame v x s t
  group : t.group? x.a.core x.a.slot x.a.group = some g'
  rest : g'.rest v = g.rest v
  paths : ∀ n, (g'.paths.find? n).map Path.view = if n = x.a.path then some view else (x.g.paths.find? n).map Path.view

/-- The path has stepped past an instruction (R243). -/
def Ctx.past (x : Ctx) : LaneSet × PcVal × W32 := (x.p.lanes, x.p.pc + 8, x.p.fmt)

/-- The path goes on elsewhere. -/
def Ctx.goesTo (x : Ctx) (pc : PcVal) : LaneSet × PcVal × W32 := (x.p.lanes, pc, x.p.fmt)

/-- An instruction that changes nothing of V registers: it answers a next state, in which its group is as `g` says and its path
shows `view`. -/
def doneAs (i : Instr) (x : Ctx) (s : State) (view : LaneSet × PcVal × W32) (g : Group) : Prop :=
  ∃ t g', exec i s = .next t ∧ Retires false x s t view g g'

/-- The registers that a scalar ALU instruction names: n from Sd, and its operands as it reads them. -/
def sopRegs (f : SopF) (n : Nat) (bt : Ty) : List Reg :=
  [Reg.s f.sd n] ++ uniRegs f.ty f.a ++ uniRegs bt f.b ++ uniRegs .b32 f.c

/-- An operand of a scalar instruction as bits of the type's width. -/
def Ctx.opnd (x : Ctx) (ty : Ty) (o : Opnd) : BitVec (tyBits ty) := BitVec.ofNat (tyBits ty) (x.sval ty o)

/-- The group after Sd has taken a value of the type's width: one register, or the pair. -/
def Ctx.withS {w : Nat} (x : Ctx) (r : Nat) (v : BitVec w) : Group :=
  if w = 64 then x.g.setPair r (v.setWidth 64) else x.g.setS r (v.setWidth 32)

/-- The value of n V registers from r in a lane, the lowest register low. -/
def Group.laneVal (g : Group) (r n lane : Nat) : Nat :=
  (List.range n).foldr (fun k acc => (laneOf (g.vreg (r + k)) lane).toNat + 2 ^ 32 * acc) 0

/-- An instruction that writes n V registers from r in the lanes of a set: it answers a next state; every lane of the set holds in
them the low bits of what `val` gives, every other lane what it held, and so does every other V register; FLAGS has gained the bits `flags`; the
path steps past it. -/
def doneV (i : Instr) (x : Ctx) (s : State) (m : LaneSet) (r n : Nat) (val : Nat → Nat) (flags : Nat) : Prop :=
  ∃ t g', exec i s = .next t ∧ Retires true x s t x.past { x.g with flags := x.g.flags ||| BitVec.ofNat 6 flags } g' ∧
    (∀ lane, lane < 32 → g'.laneVal r n lane = if m.getLsbD lane then val lane % 2 ^ (32 * n) else x.g.laneVal r n lane) ∧
    ∀ q, (q < r ∨ r + n ≤ q) → g'.vreg q = x.g.vreg q

/-- The trap of the instruction at a path's PC (R276), which has had no effect. -/
def Ctx.trapReq (x : Ctx) (cause detail addr : Nat) : TrapReq :=
  { cause := cause, detail := detail, addr := addr, pc := x.p.pc, inst := none, debug := 0 }

/-- An instruction of `x` raises the user trap `tr` from the state `s0`: what it does is that the trap becomes pending there and
the handler is entered, as the step TRAP_ENTRY enters it. -/
def raises (i : Instr) (x : Ctx) (s s0 : State) (tr : TrapReq) : Prop :=
  exec i s = exec (.trapEntry x.a.core x.a.slot x.a.group x.a.path) (s0.pend x.a tr)

/-- An operand of a vector instruction in a lane, as bits of its type's width. -/
def Ctx.lane (x : Ctx) (ty : Ty) (l : Nat) (o : Opnd) : BitVec (tyBits ty) := BitVec.ofNat (tyBits ty) (x.val ty l o)

/-- No fold retires the instruction of `x` (R171 to R173): its clause says NOFOLD, or its quarter holds no live entry of its key. -/
def State.unfolded (s : State) (x : Ctx) (word : Nat) (srcs : List Src) (vd n : Nat) : Prop :=
  x.p.hdr.nofold = true ∨ ((s.core x.a.core).quarter x.g.quarter).lookup (x.foldKey word srcs vd n) = none

/-- The quarter has counted an instruction that no fold retired (R170). -/
def State.missed (s : State) (x : Ctx) : State :=
  if x.p.hdr.nofold then s else s.onQuarter x.a.core x.g.quarter (fun q => q.count 5)

/-- A vector instruction that executes: each active lane takes in its `n` registers from `vd` the value that `r` gives, and FLAGS
gains the flags of all active lanes; where one of them is enabled to trap, nothing is written and ARITH is raised with the number
of the lowest such flag (R203). -/
def doneOp (i : Instr) (x : Ctx) (s : State) (vd n : Nat) (r : Nat → Nat × Nat) (more : Nat) : Prop :=
  let flags := (List.range 32).foldl (fun a l => if x.act.getLsbD l then a ||| (r l).2 else a) more
  (trappingFlag x.g.gstat flags = none → doneV i x s x.act vd n (fun l => (r l).1) flags) ∧
  ∀ b, trappingFlag x.g.gstat flags = some b → raises i x s (s.missed x) (x.trapReq 1 b 0)

/-- What a vector instruction of the VOP format computes, wherever it issues and no fold retires it: from its sources, its `n`
registers and the value and flags of a lane. -/
def vop (i : Instr) (f : VopF) (srcs : List Src) (n : Nat) (r : Ctx → Nat → Nat × Nat) : Prop :=
  ∀ (s : State) (x : Ctx), s.issuesFor x (Reg.v f.vd n :: srcRegs srcs) → s.unfolded x x.vopWord srcs f.vd n →
    doneOp i x s f.vd n (r x) 0

/-- What one computes that raises no flag. -/
def vopInt {w : Nat} (i : Instr) (f : VopF) (srcs : List Src) (n : Nat) (r : Ctx → Nat → BitVec w) : Prop :=
  ∀ (s : State) (x : Ctx), s.issuesFor x (Reg.v f.vd n :: srcRegs srcs) → s.unfolded x x.vopWord srcs f.vd n →
    doneV i x s x.act f.vd n (fun l => (r x l).toNat) 0

/-- What one computes that raises no flag and reads its operand A in lanes of other paths too (R357). -/
def vopCross {w : Nat} (i : Instr) (f : VopF) (srcs : List Src) (n : Nat) (r : Ctx → Nat → BitVec w) : Prop :=
  ∀ (s : State) (x : Ctx), s.issuesFor x (Reg.v f.vd n :: srcRegs srcs ++ acrossRegs f.ty f.a) →
    s.unfolded x x.vopWord srcs f.vd n → doneV i x s x.act f.vd n (fun l => (r x l).toNat) 0

/-- The first k operands of a VOP instruction, all of its type. -/
def vopSrcs (f : VopF) (k : Nat) : List Src := ([(f.a, f.ty), (f.b, f.ty), (f.c, f.ty)] : List Src).take k

/-- What a floating VOP instruction computes, element by element, from the rounding and the codes of A, B and C. -/
def vopFp (i : Instr) (f : VopF) (k n : Nat) (e : RMode → Nat → Nat → Nat → Nat × Nat) : Prop :=
  vop i f (vopSrcs f k) n (fun x l =>
    perElem f.ty (e (x.vopMode f)) (x.val f.ty l f.a) (if 2 ≤ k then x.val f.ty l f.b else 0) (if 3 ≤ k then x.val f.ty l f.c else 0))

/-- An instruction that changes NEST alone: every lane of the path has what `f` gives, every other lane what it had. -/
def doneNest (i : Instr) (x : Ctx) (s : State) (f : Nat → BitVec 4) : Prop :=
  ∃ n : BitVec 128, doneAs i x s x.past { x.g with nest := n } ∧
    ∀ lane, lane < 32 → nestOf n lane = if x.p.lanes.getLsbD lane then f lane else nestOf x.g.nest lane

/-- An instruction that writes a rejoin register on which no path waits. -/
def doneK (i : Instr) (x : Ctx) (s : State) (k : Nat) (v : KReg) : Prop :=
  doneAs i x s x.past { x.g with k := x.g.k.set k { v with mask := v.mask &&& ~~~x.g.exited } }

/-- A path of the issuing group. -/
def Ctx.pathIn (x : Ctx) (t : State) (n : Nat) : Option Path := (t.group? x.a.core x.a.slot x.a.group).bind (fun g => g.paths.find? n)

/-- The path of a site is about to take a pending trap: `u`, `g` and `p` are its team, group and path, its group runs no handler
and no routine, and no path with a lower lane takes one before it; `h` is the header of the team's safe-point table (R290), which
can be read, and `s1` the machine once it has been; its earlier instructions have retired (R276); the handler and the frame are there
(R277). Where it waits at a FIFO unit nothing waits behind it, which would then be served (R156). -/
structure canEnter (a : Site) (tr : TrapReq) (s s1 : State) (u : Team) (g : Group) (p : Path) (h : SpHeader) : Prop where
  group : s.group? a.core a.slot a.group = some g
  team : s.team? a.core a.slot = some u
  path : g.paths.find? a.path = some p
  pend : p.pend = some tr
  free : g.inTrap = false ∧ g.routine = none ∧ p.fetchParked = false
  first : g.paths.any (fun q => q.2.pend.isSome && decide (q.2.low < p.low)) = false
  retired : g.unretired a.path p = false
  header : ∃ bs, s.readHeader a.core a.slot a.group u = (.ok bs, s1) ∧ h = spHeader bs
  handler : h.handler ≠ 0 ∧ h.tfoff ≠ 0xFFFF ∧ h.tfoff * 16 + 64 * a.group + 64 ≤ u.scratchSize
  kept : s1.group? a.core a.slot a.group = some g ∧ s1.team? a.core a.slot = some u
  alone : p.fifoOp = none ∨ ∀ f ∈ (s1.core a.core).fifos, ∀ w ∈ f.2.waiting, w.site = a ∧ p.fifoOp = some w.op

/-- The path has entered the handler (R277): the frame, which holds the ordinal `ord`, stands in the scratchpad and nothing else of it has changed, INTRAP is
set, the path is at the handler with FMT 0 and every lane's NEST 0, and PART and the S and V registers are as they were. -/
structure entered (a : Site) (tr : TrapReq) (u : Team) (g : Group) (p : Path) (h : SpHeader) (ord : Nat) (t : State) : Prop where
  frame : ∃ u', t.team? a.core a.slot = some u' ∧
    (∀ i, i < 64 → u'.scratch.getD (h.tfoff * 16 + 64 * a.group + i) 0 = (trapFrame g p tr ord).getD i 0) ∧
    ∀ b, (b < h.tfoff * 16 + 64 * a.group ∨ h.tfoff * 16 + 64 * a.group + 64 ≤ b) → u'.scratch.getD b 0 = u.scratch.getD b 0
  group : ∃ g', t.group? a.core a.slot a.group = some g' ∧ g'.gstat = g.gstat ||| 0x80000000 ∧ g'.part = g.part ∧ g'.s = g.s ∧
    g'.v = g.v ∧ g'.k = g.k ∧ g'.t = g.t ∧ g'.flags = g.flags ∧
    (∀ lane, lane < 32 → nestOf g'.nest lane = if p.lanes.getLsbD lane then 0 else nestOf g.nest lane) ∧
    ∀ n, (g'.paths.find? n).map Path.view =
      if n = a.path then some (p.lanes, BitVec.ofNat 57 h.handler, 0) else (g.paths.find? n).map Path.view

/-- A step answers a next state of which something holds. -/
def leads (i : Instr) (s : State) (q : State → Prop) : Prop := ∃ t, exec i s = .next t ∧ q t

/-- The issuing group in a later state. -/
def Ctx.now (x : Ctx) (t : State) : Option Group := t.group? x.a.core x.a.slot x.a.group

/-- A group without its paths, operations and tokens: its registers, flags and modes. -/
def Group.kept (g : Group) : Group := { g with paths := [], ops := [], nextOp := 0, tokens := [] }

/-- An instruction that steps on and changes more than its group: the group is `g` but for its paths, operations and tokens, of
which `q` speaks; the issuing path has stepped past, the others show what they showed. -/
def stepsOn (i : Instr) (x : Ctx) (s : State) (g : Group) (q : State → Group → Prop) : Prop :=
  ∃ t g', exec i s = .next t ∧ x.now t = some g' ∧ g'.kept = g.kept ∧
    (∀ n, (g'.paths.find? n).map Path.view = if n = x.a.path then some x.past else (x.g.paths.find? n).map Path.view) ∧ q t g'

/-- An instruction that must wait: nothing changes but the reason that its path is charged. -/
def waits (i : Instr) (x : Ctx) (s : State) (reason : Nat) : Prop :=
  ∃ t g', exec i s = .next t ∧ Retires false x s t x.p.view x.g g' ∧
    (g'.paths.find? x.a.path).map (fun p => p.stall) = some (some reason)

/-- No team is being halted, whose end a step could bring (R293). -/
def State.noHalting (s : State) : Prop :=
  ∀ c slot t, s.team? c slot = some t → ∀ cause trap g pc, t.run ≠ .halting cause trap g pc

/-- A team has been halted for good (R293): it is gone, or, while what it has issued is being completed, none of its groups runs. -/
def halted (o : Option Team) : Prop :=
  ∀ v, o = some v → (∃ cause trap g pc, v.run = .halting cause trap g pc) ∧ ∀ g ∈ v.groups, g.2.paths = []

/-- No lookaside table that the core uses holds a page of the address (R284). -/
def Ctx.untranslated (x : Ctx) (s : State) (va : Nat) : Prop :=
  tlbHit (s.core x.a.core).tlb x.t.asid va = none ∧ tlbHit (s.die (dieOf x.a.core)).tlb x.t.asid va = none

/-- An access has begun (R216): the group holds an operation, under its next number, of which `h` speaks and whose lane accesses
are those of the active lanes; the path has stepped past. Where nothing is translated at once, this is all that has changed. -/
def begins (v : Bool) (i : Instr) (x : Ctx) (s : State) (h : Op → Prop) (acc : Nat → LaneAcc) : Prop :=
  stepsOn i x s x.g (fun t g' => ∃ o, g'.ops.find? x.g.nextOp = some o ∧ h o ∧ o.lanes = x.act ∧
    (∀ a, a ∈ o.accs ↔ ∃ l, l < 32 ∧ x.act.getLsbD l = true ∧ a = acc l) ∧
    ((o.space ≠ .global ∨ ∀ l, l < 32 → x.act.getLsbD l = true → x.untranslated s (acc l).addr) →
      Frame (v || o.kind.isWrite) x s t ∧
        g'.rest v = { x.g with ops := x.g.ops.set x.g.nextOp o, nextOp := x.g.nextOp + 1 }.rest v))

/-- A global access of the active lanes: with none active it steps on; aligned ones begin; the lowest misaligned lane raises
MISALIGN (R377); a synchronising one at CLU scope or wider in a phase region performs nothing and raises SCOPEMIX (R118). -/
def access (v : Bool) (i : Instr) (x : Ctx) (s : State) (sync : Bool) (scope : Nat) (h : Op → Prop) (acc : Nat → LaneAcc) : Prop :=
  let active := fun l => l < 32 ∧ x.act.getLsbD l = true
  let aligned := fun l => (acc l).addr % (acc l).width = 0
  let clash := fun l => sync = true ∧ 3 ≤ scope ∧ (x.t.phaseAt (acc l).addr).isSome = true
  (x.act = 0 → doneAs i x s x.past x.g) ∧
  (x.act ≠ 0 → (∀ l, active l → aligned l ∧ ¬clash l) → begins v i x s h acc) ∧
  (∀ l, active l → ¬aligned l → (∀ k, k < l → active k → aligned k) → raises i x s s (x.trapReq 0x0B 0 (acc l).addr)) ∧
  ((∀ l, active l → aligned l) → ∀ l, active l → clash l → (∀ k, k < l → active k → ¬clash k) →
    raises i x s (s.advance x.a)
      { cause := 0x10, detail := 0, addr := (acc l).addr, pc := x.p.pc + 8, inst := some x.p.pc, debug := 0 })

/-- The access of a lane: its address modulo 2^57, its width in bytes, and what it carries. -/
def laneAccess (l : Nat) (addr : Int) (width data data2 : Nat) : LaneAcc :=
  { lane := l, addr := (addr % 2 ^ 57).toNat, width := width, data := data % 2 ^ (8 * width), data2 := data2 % 2 ^ (8 * width), got := 0 }

/-- An S pair, and a signed lane of a V register where the instruction names one. -/
def Ctx.base (x : Ctx) (sb vx : Nat) (xv : Bool) (l : Nat) : Int :=
  ((x.g.spair sb).toNat : Int) + (if xv then (laneOf (x.g.vreg vx) l).toInt else 0)

/-- The 64-byte units of a range (R129). -/
def unitsOf (base size : Nat) : Nat := (base + size - 1) / 64 - base / 64 + 1

/-- A copy that the queues take (R128, R130): ends and size are multiples of 16, the size is 16 to 2^24, ends in a scratchpad lie in
its allocation, an object can be charged, and there is room. `peer` is the other team of SR and RS, else the own one. -/
def Ctx.copyable (x : Ctx) (s : State) (kind : CopyKind) (src dst size : Nat) (peer : Nat × Nat) (obj : Option Nat) : Prop :=
  let own := (x.a.core, x.a.slot)
  let from_ := if kind = .rs then peer else own
  let dest := if kind = .sr then peer else own
  src % 16 = 0 ∧ (kind = .pref ∨ dst % 16 = 0) ∧ size % 16 = 0 ∧ 16 ≤ size ∧ size ≤ 2 ^ 24 ∧
  (kind.fromScratch = true → inAlloc s from_.1 from_.2 src size = true) ∧
  (kind.toScratch = true → inAlloc s dest.1 dest.2 dst size = true) ∧
  (∀ off, obj = some off → off % 16 = 0 ∧ inAlloc s dest.1 dest.2 off 16 = true ∧ bit (s.object dest.1 dest.2 off) 4 = true ∧
    (if kind = .gs ∨ kind = .sr ∨ kind = .rs ∨ kind = .pref then bits (s.object dest.1 dest.2 off) 63 32 else bits (s.object dest.1 dest.2 off) 95 64) +
      unitsOf (if kind = .pref then src else dst) size < 2 ^ 32 ∧
    (s.core dest.1).tags.length < 512) ∧
  s.mayCopy x.a = true

/-- A copy has been issued (R128, R140): it stands under the core's next number with its ends, its object's counter is charged with
its units, its work is open, and the path has stepped past; no register and no byte of memory has changed. -/
def copies (i : Instr) (x : Ctx) (s : State) (q : Nat) (kind : CopyKind) (src dst size : Nat) (peer : Nat × Nat) (obj : Option Nat)
    (more : Group → Prop) : Prop :=
  let dest := if kind = .sr then peer else (x.a.core, x.a.slot)
  let counter := fun (t : State) off =>
    if kind = .gs ∨ kind = .sr ∨ kind = .rs ∨ kind = .pref then bits (t.object dest.1 dest.2 off) 63 32 else bits (t.object dest.1 dest.2 off) 95 64
  leads i s (fun t => t.mem = s.mem ∧ t.workDone s.nextWork = false ∧
    (∃ g', x.now t = some g' ∧ { g'.kept with leave := x.g.leave } = x.g.kept ∧ more g' ∧
      ∀ n, (g'.paths.find? n).map Path.view = if n = x.a.path then some x.past else (x.g.paths.find? n).map Path.view) ∧
    (∃ o, (t.core x.a.core).copies.find? (s.core x.a.core).nextCopy = some o ∧ o.kind = kind ∧ o.q = q ∧ o.src = src ∧ o.dst = dst ∧
      o.size = size ∧ o.peer = peer ∧ o.work = s.nextWork ∧ o.units = [] ∧ o.arrived = 0 ∧ o.counted = 0 ∧ o.tag.isSome = obj.isSome) ∧
    ∀ off, obj = some off → counter t off = counter s off + unitsOf (if kind = .pref then src else dst) size)

end Sys2Proof.Machine
end

