-- ==== Sys2Proof/Certificates/Slice0/Obligations.lean ====
section
/-! DEFINITION. The statements of this model for its provers. Each says which rules of the manual it rests on; one that rests on a
choice of the model says so. -/

open Sys2Proof Sys2Proof.Machine

/-- R338: SMOV, SADD, SSUB, SMUL, SAND, SOR, SXOR and SNOT write the result of the table into Sd, modulo 2^w, and change nothing
else. -/
def Obligations.ScalarAddMultiplyLogic : Prop :=
  ∀ (f : SopF) (s : State) (x : Ctx), s.issuesFor x (sopRegs f (tyRegs f.ty) f.ty) →
    let a := x.opnd f.ty f.a
    let b := x.opnd f.ty f.b
    doneAs (.smov f) x s x.past (x.withS f.sd a) ∧
    doneAs (.sadd f) x s x.past (x.withS f.sd (a + b)) ∧
    doneAs (.ssub f) x s x.past (x.withS f.sd (a - b)) ∧
    doneAs (.smul f) x s x.past (x.withS f.sd (a * b)) ∧
    doneAs (.sand f) x s x.past (x.withS f.sd (a &&& b)) ∧
    doneAs (.sor f) x s x.past (x.withS f.sd (a ||| b)) ∧
    doneAs (.sxor f) x s x.past (x.withS f.sd (a ^^^ b)) ∧
    doneAs (.snot f) x s x.past (x.withS f.sd (~~~a))

/-- R201, R338: SDIV rounds toward zero, SREM has the dividend's sign, SMULH is the high half of the product; a zero divisor gives
all ones and the dividend, and the most negative number over −1 is itself, with remainder 0. -/
def Obligations.ScalarDivideHighProduct : Prop :=
  ∀ (f : SopF) (s : State) (x : Ctx), s.issuesFor x (sopRegs f (tyRegs f.ty) f.ty) →
    let a := x.opnd f.ty f.a
    let b := x.opnd f.ty f.b
    let w := tyBits f.ty
    doneAs (.smulh f) x s x.past (x.withS f.sd
      (if tySigned f.ty then BitVec.ofInt w (a.toInt * b.toInt / 2 ^ w) else BitVec.ofNat w (a.toNat * b.toNat / 2 ^ w))) ∧
    doneAs (.sdiv f) x s x.past (x.withS f.sd
      (if b = 0 then BitVec.allOnes w else if tySigned f.ty then a.sdiv b else a.udiv b)) ∧
    doneAs (.srem f) x s x.past (x.withS f.sd
      (if b = 0 then a else if tySigned f.ty then a.srem b else a.umod b)) ∧
    (tySigned f.ty = true → a = BitVec.intMin w → b = BitVec.allOnes w →
      doneAs (.sdiv f) x s x.past (x.withS f.sd a) ∧ doneAs (.srem f) x s x.past (x.withS f.sd (0 : BitVec w)))

/-- R337, R338: the shifts take a 32-bit unsigned count and lose every bit of a count of w or more; SMIN, SMAX and SCMP compare
as the type reads; SCMP writes one register; SSEL chooses by a 32-bit condition. -/
def Obligations.ScalarShiftCompareSelect : Prop :=
  ∀ (f : SopF) (s : State) (x : Ctx),
    let a := x.opnd f.ty f.a
    let b := x.opnd f.ty f.b
    let n := (x.opnd .b32 f.b).toNat
    let less (p q : BitVec (tyBits f.ty)) : Bool := if tySigned f.ty then p.slt q else p.ult q
    (s.issuesFor x (sopRegs f (tyRegs f.ty) .b32) →
      doneAs (.sshl f) x s x.past (x.withS f.sd (a <<< n)) ∧
      doneAs (.sshr f) x s x.past (x.withS f.sd (a >>> n)) ∧
      doneAs (.ssar f) x s x.past (x.withS f.sd (a.sshiftRight n))) ∧
    (s.issuesFor x (sopRegs f (tyRegs f.ty) f.ty) →
      doneAs (.smin f) x s x.past (x.withS f.sd (if less b a then b else a)) ∧
      doneAs (.smax f) x s x.past (x.withS f.sd (if less a b then b else a)) ∧
      doneAs (.ssel f) x s x.past (x.withS f.sd (if x.opnd .b32 f.c = 0 then b else a))) ∧
    (s.issuesFor x (sopRegs f 1 f.ty) → f.mod < 6 →
      doneAs (.scmp f) x s x.past (x.g.setS f.sd (BitVec.ofNat 32 (b2n (match f.mod with
        | 0 => decide (a = b)
        | 1 => decide (a ≠ b)
        | 2 => less a b
        | 3 => !less b a
        | 4 => less b a
        | _ => !less a b)))))

/-- R339: SMOVI carries SD in bits [53:44] and its immediate in bits [35:4] of a word of opcode 0x002, with zeros elsewhere; a non-zero
bit of [43:36] or [3:0] is ILLOP with DETAIL 0x02. It sets the one 32-bit register Sd to the immediate, and changes nothing else. -/
def Obligations.MoveImmediate : Prop :=
  (∀ sd imm, sd < 2 ^ 10 → imm < 2 ^ 32 →
    encode (.smovi { sd := sd, imm := imm }) = some (BitVec.ofNat 64 (2 * 2 ^ 54 + sd * 2 ^ 44 + imm * 2 ^ 4)) ∧
    decode (BitVec.ofNat 64 (2 * 2 ^ 54 + sd * 2 ^ 44 + imm * 2 ^ 4)) = .ok (.smovi { sd := sd, imm := imm })) ∧
  (∀ w : W64, bits w.toNat 63 54 = 2 → (bits w.toNat 43 36 ≠ 0 ∨ bits w.toNat 3 0 ≠ 0) → decode w = .error 2) ∧
  ∀ (f : SimmF) (s : State) (x : Ctx), s.issuesFor x [.s f.sd 1] →
    doneAs (.smovi f) x s x.past (x.g.setS f.sd (BitVec.ofNat 32 f.imm))

/-- R340 to R342: BRA and a BRC whose condition holds go to the instruction's address plus eight times OFF, sign-extended from 29
bits, modulo 2^57; a BRC whose condition fails steps on; CALL writes the address after it, zero-extended, into its pair and goes to
its target; RET and JMPI go to bits [56:3] of their pair, times eight. Nothing else changes. -/
def Obligations.BranchCallReturn : Prop :=
  ∀ (f : BrF) (s : State) (x : Ctx),
    let target := x.p.pc + 8 * (BitVec.ofNat 29 f.off).signExtend 57
    let c := x.g.sreg f.sc
    (s.issuesFor x [] → doneAs (.bra f) x s (x.goesTo target) x.g) ∧
    (s.issuesFor x [.s f.sc 1] → f.cc < 4 →
      doneAs (.brc f) x s (if (match f.cc with
        | 0 => decide (c = 0)
        | 1 => decide (c ≠ 0)
        | 2 => decide (c.toInt < 0)
        | _ => decide (0 ≤ c.toInt)) then x.goesTo target else x.past) x.g) ∧
    (s.issuesFor x [.s f.sc 2] →
      doneAs (.call f) x s (x.goesTo target) (x.g.setPair f.sc ((x.p.pc + 8).setWidth 64)) ∧
      doneAs (.ret f) x s (x.goesTo ((x.g.spair f.sc).setWidth 57 &&& ~~~(7 : PcVal))) x.g ∧
      doneAs (.jmpi f) x s (x.goesTo ((x.g.spair f.sc).setWidth 57 &&& ~~~(7 : PcVal))) x.g)

/-- R343, R354: NOP does nothing; WAITC leaves its thresholds to the path's next instruction; YIELD gives way for one choice; SPIN marks
the path as spinning. Each steps on and changes no register. R144, R396: YIELDW goes to its target at once where the object's generation
has passed, where the whole group names an object that has been invalidated, or where the token is satisfied; else it waits, and goes
there then. -/
def Obligations.NopWaitsAndYields : Prop :=
  (∀ (s : State) (x : Ctx), s.issuesFor x [] →
     (∀ f, doneAs (.nop f) x s x.past x.g) ∧
     (∀ f, ∃ t g', exec (.waitc f) s = .next t ∧ Retires false x s t x.past x.g g' ∧
       (g'.paths.find? x.a.path).map (fun p => p.waitc) = some (some f)) ∧
     (∀ f, doneAs (.yield f) x s x.past { x.g with yielded := true }) ∧
     (∀ f, ∃ t g', exec (.spin f) s = .next t ∧ Retires false x s t x.past x.g g' ∧
       (g'.paths.find? x.a.path).map (fun p => p.spin.mark.isSome) = some true)) ∧
  (∀ (f : BrF) (s : State) (x : Ctx),
     let target := x.p.pc + 8 * (BitVec.ofNat 29 f.off).signExtend 57
     let off := (x.g.sreg f.sc).toNat
     let gen := (x.g.sreg (f.sc + 1)).toNat % 16
     let obj := s.object x.a.core x.a.slot off
     let waitsFor := fun w => leads (.yieldw f) s (fun t =>
       (x.now t).bind (fun g => (g.paths.find? x.a.path).map (fun p => (p.wait, p.view))) = some (w, x.p.view))
     (s.issuesFor x [.s f.sc 2] → f.cc = 0 → off % 16 = 0 → off + 16 ≤ x.t.scratchSize →
       (bits obj 3 0 ≠ gen ∨ (x.whole = true ∧ bits obj 4 4 = 0) → doneAs (.yieldw f) x s (x.goesTo target) x.g) ∧
       (bits obj 3 0 = gen → x.whole = false ∨ bits obj 4 4 = 1 → waitsFor (.barrier x.a.core x.a.slot off gen (f.sc + 1) (some target)))) ∧
     (s.issuesFor x [] → f.cc ≠ 0 →
       (s.tokenDone x.g (f.kn % 8) = true → doneAs (.yieldw f) x s (x.goesTo target) x.g) ∧
       (s.tokenDone x.g (f.kn % 8) = false → waitsFor (.token (f.kn % 8) target))))

/-- R242, R325, R344: SRDSR gives each register's value: the lane numbers, the identity of group, team, cluster, core and die, the core's
clock, PART, FMT, FLAGS and GSTAT. R184, R256, R278, R344 to R346: SETFMT and SWRSR of FMT change the issuing path's FMT; SETPART and
SWRSR of PART, from a path that is the whole group, change PART; SWRSR writes the six bits of FLAGS, and bits [5:0] of GSTAT. A reserved
bit of FMT raises ILLFMT, and a reserved width or a path that is not the whole group ILLPART, with nothing written. -/
def Obligations.SpecialRegisters : Prop :=
  (∀ (f : SpcF) (s : State) (x : Ctx),
     (s.issuesFor x [.v f.reg 1] → f.dv = true → f.sreg = 0 → doneV (.srdsr f) x s x.act f.reg 1 (fun lane => lane) 0) ∧
     (s.issuesFor x [.s f.reg 2] → f.dv = false → f.sreg = 6 →
       doneAs (.srdsr f) x s x.past (x.g.setPair f.reg (BitVec.ofNat 64 (s.core x.a.core).clock))) ∧
     (s.issuesFor x [.s f.reg 1] → f.dv = false → ∀ v : Nat,
       ((f.sreg, v) = (1, x.a.group) ∨ (f.sreg, v) = (2, x.t.cluster * (x.grid.cw * x.grid.ch) + x.t.rank) ∨
         (f.sreg, v) = (3, x.t.cluster) ∨ (f.sreg, v) = (4, x.a.core) ∨ (f.sreg, v) = (5, x.a.core / 96) ∨
         (f.sreg, v) = (8, x.g.part) ∨ (f.sreg, v) = (9, x.p.fmt.toNat) ∨ (f.sreg, v) = (10, x.g.flags.toNat) ∨
         (f.sreg, v) = (11, x.g.gstat.toNat)) →
       doneAs (.srdsr f) x s x.past (x.g.setS f.reg (BitVec.ofNat 32 v)))) ∧
  (∀ (s : State) (x : Ctx),
     (∀ f : SimmF, s.issuesFor x [] →
       (f.imm < 2 ^ 17 → doneAs (.setfmt f) x s (x.p.lanes, x.p.pc + 8, BitVec.ofNat 32 f.imm) x.g) ∧
       (2 ^ 17 ≤ f.imm → f.imm < 2 ^ 32 → raises (.setfmt f) x s s (x.trapReq 7 0 0)) ∧
       (1 ≤ f.imm → f.imm ≤ 5 → x.whole = true → doneAs (.setpart f) x s x.past { x.g with part := f.imm }) ∧
       ((f.imm = 0 ∨ 5 < f.imm ∨ x.whole = false) → raises (.setpart f) x s s (x.trapReq 8 0 0))) ∧
     (∀ f : SpcF, s.issuesFor x [.s f.reg 1] → f.dv = false →
       let v := x.g.sreg f.reg
       (f.sreg = 9 → v.toNat < 2 ^ 17 → doneAs (.swrsr f) x s (x.p.lanes, x.p.pc + 8, v) x.g) ∧
       (f.sreg = 9 → 2 ^ 17 ≤ v.toNat → raises (.swrsr f) x s s (x.trapReq 7 0 0)) ∧
       (f.sreg = 8 → 1 ≤ v.toNat → v.toNat ≤ 5 → x.whole = true → doneAs (.swrsr f) x s x.past { x.g with part := v.toNat }) ∧
       (f.sreg = 8 → (v.toNat = 0 ∨ 5 < v.toNat ∨ x.whole = false) → raises (.swrsr f) x s s (x.trapReq 8 0 0)) ∧
       (f.sreg = 10 → doneAs (.swrsr f) x s x.past { x.g with flags := v.setWidth 6 }) ∧
       (f.sreg = 11 → doneAs (.swrsr f) x s x.past { x.g with gstat := x.g.gstat &&& 0xFFFFFFC0 ||| v &&& 0x3F })))

/-- R250: SRDSR of NEST writes each lane's counter, zero-extended, for every lane of the path; SWRSR of NEST sets every lane's
counter from bits [3:0] of a V register, active or not. -/
def Obligations.NestMovesToAndFromV : Prop :=
  ∀ (f : SpcF) (s : State) (x : Ctx), s.issuesFor x [.v f.reg 1] → f.dv = true → f.sreg = 7 →
    doneV (.srdsr f) x s x.p.lanes f.reg 1 (fun lane => (nestOf x.g.nest lane).toNat) 0 ∧
    doneNest (.swrsr f) x s (fun lane => (laneOf (x.g.vreg f.reg) lane).setWidth 4)

/-- R248: IF, ELSE and ENDIF change each lane's counter as the manual's table says, and IF with a lane at 15 raises NESTOVF and leaves
every counter as it was. R252, R246: BRV splits the active lanes whose condition holds off to the label with a copy of FMT, leaves the
others at the next instruction, moves the path whole where none is left, and steps on where none is taken; every lane keeps its NEST
counter, and the registers, which the paths share, stay as they are. -/
def Obligations.IfElseEndifAndBrv : Prop :=
  (∀ (f : BrF) (s : State) (x : Ctx),
     let n := fun lane => nestOf x.g.nest lane
     (s.issuesFor x [.v f.vc 1] → (∀ lane, lane < 32 → x.p.lanes.getLsbD lane = true → n lane ≠ 15) →
       doneNest (.ifLanes f) x s (fun lane =>
         if n lane ≠ 0 then n lane + 1 else if laneOf (x.g.vreg f.vc) lane = 0 then 1 else 0)) ∧
     (s.issuesFor x [.v f.vc 1] → (∃ lane, lane < 32 ∧ x.p.lanes.getLsbD lane = true ∧ n lane = 15) →
       raises (.ifLanes f) x s s (x.trapReq 2 0 0)) ∧
     (s.issuesFor x [] →
       doneNest (.elseLanes f) x s (fun lane => if n lane = 0 then 1 else if n lane = 1 then 0 else n lane) ∧
       doneNest (.endif f) x s (fun lane => if n lane = 0 then 0 else n lane - 1))) ∧
  (∀ (f : BrF) (s : State) (x : Ctx) (taken : LaneSet), s.issuesFor x [.v f.vc 1] →
     (∀ lane, lane < 32 → taken.getLsbD lane = (x.act.getLsbD lane && decide (laneOf (x.g.vreg f.vc) lane ≠ 0))) →
     let target := x.p.pc + 8 * (BitVec.ofNat 29 f.off).signExtend 57
     (taken = 0 → doneAs (.brv f) x s x.past x.g) ∧
     (taken ≠ 0 → x.p.lanes &&& ~~~taken = 0 → doneAs (.brv f) x s (x.goesTo target) x.g) ∧
     (taken ≠ 0 → x.p.lanes &&& ~~~taken ≠ 0 → x.g.paths.find? x.g.nextPath = none →
       ∃ t g', exec (.brv f) s = .next t ∧ Frame false x s t ∧ x.now t = some g' ∧
         { g'.rest false with nextPath := x.g.nextPath } = x.g.rest false ∧
         ∀ n, (g'.paths.find? n).map Path.view =
           if n = x.g.nextPath then some (taken, target, x.p.fmt)
           else if n = x.a.path then some (x.p.lanes &&& ~~~taken, x.p.pc + 8, x.p.fmt)
           else (x.g.paths.find? n).map Path.view))

/-- R251: MARK writes all three fields of Kn in one step: the lanes of the path, the label, and the path's FMT. -/
def Obligations.MarkWritesRejoinRegister : Prop :=
  ∀ (f : BrF) (s : State) (x : Ctx), s.issuesFor x [] → x.g.waiting f.kn = [] → x.p.lanes &&& x.g.exited = 0 →
    doneAs (.mark f) x s x.past { x.g with
      k := x.g.k.set f.kn { fmt := x.p.fmt, pc := x.p.pc + 8 * (BitVec.ofNat 29 f.off).signExtend 57, mask := x.p.lanes } }

/-- R253, R352, R353: KMOV copies a K register whole, or one field between it and S registers; KAND and KOR combine its MASK
with an S register; lanes that have exited leave every MASK that is written. No path waits on the edited register here. -/
def Obligations.EditRejoinRegisters : Prop :=
  ∀ (f : KopF) (s : State) (x : Ctx), x.g.waiting f.kd = [] →
    let k := x.g.kreg f.kd
    (s.issuesFor x [] → f.fld = 0 → f.dir = false → doneK (.kmov f) x s f.kd (x.g.kreg f.ks)) ∧
    (s.issuesFor x [.s f.sr 1] → f.fld = 1 → f.dir = false → doneK (.kmov f) x s f.kd { k with mask := x.g.sreg f.sr }) ∧
    (s.issuesFor x [.s f.sr 2] → f.fld = 2 → f.dir = false →
      doneK (.kmov f) x s f.kd { k with pc := (x.g.spair f.sr).setWidth 57 &&& ~~~(7 : PcVal) }) ∧
    (s.issuesFor x [.s f.sr 1] → f.fld = 3 → f.dir = false → (x.g.sreg f.sr).toNat < 2 ^ 17 →
      doneK (.kmov f) x s f.kd { k with fmt := x.g.sreg f.sr }) ∧
    (s.issuesFor x [.s f.sr 1] → f.fld = 1 → f.dir = true → doneAs (.kmov f) x s x.past (x.g.setS f.sr (x.g.kreg f.ks).mask)) ∧
    (s.issuesFor x [.s f.sr 2] → f.fld = 2 → f.dir = true →
      doneAs (.kmov f) x s x.past (x.g.setPair f.sr ((x.g.kreg f.ks).pc.setWidth 64))) ∧
    (s.issuesFor x [.s f.sr 1] → f.fld = 3 → f.dir = true → doneAs (.kmov f) x s x.past (x.g.setS f.sr (x.g.kreg f.ks).fmt)) ∧
    (s.issuesFor x [.s f.sr 1] →
      doneK (.kand f) x s f.kd { k with mask := k.mask &&& x.g.sreg f.sr } ∧
      doneK (.kor f) x s f.kd { k with mask := k.mask ||| x.g.sreg f.sr })

/-- R254: JOIN waits while a lane of MASK has not arrived; with the last one, every path that waits on the register becomes one path, at
its PC and with its FMT, and every lane keeps its NEST, unless one of them has a trap to take first (R276). R247: EXIT ends the active lanes, clears them from every MASK, and the path goes
on with the others, all inactive; with no active lane it changes nothing. No path waits at a JOIN here. -/
def Obligations.JoinAndExit : Prop :=
  (∀ (f : BrF) (s : State) (x : Ctx), s.issuesFor x [] →
     let here := x.g.paths.filter (fun p => p.1 = x.a.path || decide (p.2.wait = .join f.kn))
     let lanes := here.foldl (fun m p => m ||| p.2.lanes) (0 : LaneSet)
     let k := x.g.kreg f.kn
     (k.mask &&& ~~~lanes ≠ 0 →
       ∃ t, exec (.join f) s = .next t ∧ Frame false x s t ∧ (x.pathIn t x.a.path).map (fun p => (p.wait, p.pc)) = some (.join f.kn, x.p.pc)) ∧
     (k.mask &&& ~~~lanes = 0 → x.g.paths.rising = true → (∀ p ∈ here, p.2.pend = none) →
       ∃ t g', exec (.join f) s = .next t ∧ Frame false x s t ∧ t.group? x.a.core x.a.slot x.a.group = some g' ∧
         g'.nest = x.g.nest ∧ g'.k = x.g.k ∧
         (∃ n, (g'.paths.find? n).map Path.view = some (lanes, k.pc, k.fmt)) ∧
         ∀ p ∈ g'.paths, p.2.view = (lanes, k.pc, k.fmt) ∨ ∃ q ∈ x.g.paths, q.1 = p.1 ∧ q.1 ≠ x.a.path ∧ q.2.wait ≠ .join f.kn ∧ q.2.view = p.2.view)) ∧
  (∀ (f : BrF) (s : State) (x : Ctx), s.issuesFor x [] →
     (x.act = 0 → doneAs (.exit f) x s x.past x.g) ∧
     (x.act ≠ 0 → x.p.lanes &&& ~~~x.act ≠ 0 → (∀ k, x.g.waiting k = []) →
       doneAs (.exit f) x s (x.p.lanes &&& ~~~x.act, x.p.pc + 8, x.p.fmt)
         { x.g with exited := x.g.exited ||| x.act,
                    k := x.g.k.map (fun p => (p.1, { p.2 with mask := p.2.mask &&& ~~~x.act })) }) ∧
     (x.act ≠ 0 → x.p.lanes &&& ~~~x.act = 0 → (∀ k, x.g.waiting k = []) → x.g.paths.length ≠ 1 → x.g.paths.rising = true →
       ∃ t, exec (.exit f) s = .next t ∧ Frame false x s t ∧ ∀ n, (x.pathIn t n).map Path.view =
         if n = x.a.path then none else (x.g.paths.find? n).map Path.view))

/-- R277: a path with a pending trap writes the frame, sets INTRAP, and goes on at the handler with FMT 0 and NEST 0. This is the step
TRAP_ENTRY. R276, R426: TRAP resumes after itself with cause 0x12, BRK at itself with cause 0x13, both with the immediate as DETAIL: the
handler is entered with that frame. Which clause's ordinal the frame holds where the path stands at a header is the model's reading
(log 93); while that header cannot be read yet, there is no such ordinal and no entry. -/
def Obligations.TrapEntry : Prop :=
  (∀ (a : Site) (tr : TrapReq) (s s1 : State) (u : Team) (g : Group) (p : Path) (h : SpHeader), canEnter a tr s s1 u g p h →
     ∀ ord, s1.trapOrd a u p tr = some ord → ∃ t, exec (.trapEntry a.core a.slot a.group a.path) s = .next t ∧ entered a tr u g p h ord t) ∧
  (∀ (f : EngF) (s s1 : State) (x : Ctx) (u : Team) (g : Group) (p : Path) (h : SpHeader), s.issuesFor x [] →
     (let tr : TrapReq := { cause := 0x12, detail := f.x8, addr := 0, pc := x.p.pc + 8, inst := some x.p.pc, debug := 0 }
      canEnter x.a tr ((s.advance x.a).pend x.a tr) s1 u g p h → ∀ ord, s1.trapOrd x.a u p tr = some ord →
        ∃ t, exec (.trap f) s = .next t ∧ entered x.a tr u g p h ord t) ∧
     (let tr : TrapReq := { cause := 0x13, detail := f.x8, addr := 0, pc := x.p.pc, inst := none, debug := 1 }
      canEnter x.a tr (s.pend x.a tr) s1 u g p h → ∀ ord, s1.trapOrd x.a u p tr = some ord →
        ∃ t, exec (.brk f) s = .next t ∧ entered x.a tr u g p h ord t))

/-- R358: VADD, VSUB, VMUL, VMULH and VMAD in every active lane, modulo 2^w; VADD and VSUB with SAT clamp the exact result to the
type's range. -/
def Obligations.VectorAddMultiply : Prop :=
  ∀ f : VopF,
    let w := tyBits f.ty
    let a := fun (x : Ctx) l => x.lane f.ty l f.a
    let b := fun (x : Ctx) l => x.lane f.ty l f.b
    let c := fun (x : Ctx) l => x.lane f.ty l f.c
    let int := fun (y : BitVec w) => if tySigned f.ty then y.toInt else (y.toNat : Int)
    let lo : Int := if tySigned f.ty then -(2 ^ (w - 1)) else 0
    let hi : Int := if tySigned f.ty then 2 ^ (w - 1) - 1 else 2 ^ w - 1
    let sat := fun (y : Int) => BitVec.ofInt w (max lo (min y hi))
    vopInt (.vadd f) f (vopSrcs f 2) (tyRegs f.ty) (fun x l => if bit f.mod 4 then sat (int (a x l) + int (b x l)) else a x l + b x l) ∧
    vopInt (.vsub f) f (vopSrcs f 2) (tyRegs f.ty) (fun x l => if bit f.mod 4 then sat (int (a x l) - int (b x l)) else a x l - b x l) ∧
    vopInt (.vmul f) f (vopSrcs f 2) (tyRegs f.ty) (fun x l => a x l * b x l) ∧
    vopInt (.vmulh f) f (vopSrcs f 2) (tyRegs f.ty) (fun x l => BitVec.ofInt w (int (a x l) * int (b x l) / 2 ^ w)) ∧
    vopInt (.vmad f) f (vopSrcs f 3) (tyRegs f.ty) (fun x l => a x l * b x l + c x l)

/-- R358, R359: the bit operations in every active lane: VAND, VOR, VXOR, VNOT, the shifts by a 32-bit unsigned count, VCLZ, VPOPC,
VBREV and VMOV. -/
def Obligations.VectorBitOperations : Prop :=
  ∀ f : VopF,
    let w := tyBits f.ty
    let a := fun (x : Ctx) l => x.lane f.ty l f.a
    let b := fun (x : Ctx) l => x.lane f.ty l f.b
    let n := fun (x : Ctx) l => (x.lane .b32 l f.b).toNat
    let shift : List Src := [(f.a, f.ty), (f.b, .b32)]
    vopInt (.vand f) f (vopSrcs f 2) (tyRegs f.ty) (fun x l => a x l &&& b x l) ∧
    vopInt (.vor f) f (vopSrcs f 2) (tyRegs f.ty) (fun x l => a x l ||| b x l) ∧
    vopInt (.vxor f) f (vopSrcs f 2) (tyRegs f.ty) (fun x l => a x l ^^^ b x l) ∧
    vopInt (.vnot f) f (vopSrcs f 1) (tyRegs f.ty) (fun x l => ~~~(a x l)) ∧
    vopInt (.vshl f) f shift (tyRegs f.ty) (fun x l => a x l <<< n x l) ∧
    vopInt (.vshr f) f shift (tyRegs f.ty) (fun x l => a x l >>> n x l) ∧
    vopInt (.vsar f) f shift (tyRegs f.ty) (fun x l => (a x l).sshiftRight (n x l)) ∧
    vopInt (.vclz f) f (vopSrcs f 1) (tyRegs f.ty) (fun x l =>
      BitVec.ofNat w ((List.range w).takeWhile (fun k => !(a x l).getMsbD k)).length) ∧
    vopInt (.vpopc f) f (vopSrcs f 1) (tyRegs f.ty) (fun x l =>
      BitVec.ofNat w ((List.range w).filter (fun k => (a x l).getLsbD k)).length) ∧
    vopInt (.vbrev f) f (vopSrcs f 1) (tyRegs f.ty) (fun x l => (a x l).reverse) ∧
    vopInt (.vmov f) f (vopSrcs f 1) (tyRegs f.ty) a

/-- R358 to R360: VMIN, VMAX and VCMP compare as the type reads; VABS leaves the most negative number; VSEL chooses by a 32-bit
condition; VIOTA adds the lane number times the step; VMOVS copies one lane, active or not, into an S register. -/
def Obligations.VectorCompareSelectIota : Prop :=
  ∀ f : VopF,
    let w := tyBits f.ty
    let a := fun (x : Ctx) l => x.lane f.ty l f.a
    let b := fun (x : Ctx) l => x.lane f.ty l f.b
    let less (p q : BitVec w) : Bool := if tySigned f.ty then p.slt q else p.ult q
    vopInt (.vmin f) f (vopSrcs f 2) (tyRegs f.ty) (fun x l => if less (b x l) (a x l) then b x l else a x l) ∧
    vopInt (.vmax f) f (vopSrcs f 2) (tyRegs f.ty) (fun x l => if less (a x l) (b x l) then b x l else a x l) ∧
    vopInt (.vabs f) f (vopSrcs f 1) (tyRegs f.ty) (fun x l => if (a x l).msb then -(a x l) else a x l) ∧
    (f.mod / 4 < 6 → vopInt (.vcmp f) f (vopSrcs f 2) 1 (fun x l => BitVec.ofNat 32 (b2n (match f.mod / 4 with
        | 0 => decide (a x l = b x l)
        | 1 => decide (a x l ≠ b x l)
        | 2 => less (a x l) (b x l)
        | 3 => !less (b x l) (a x l)
        | 4 => less (b x l) (a x l)
        | _ => !less (a x l) (b x l))))) ∧
    vopInt (.vsel f) f [(f.a, f.ty), (f.b, f.ty), (f.c, .b32)] (tyRegs f.ty) (fun x l =>
      if x.lane .b32 l f.c = 0 then b x l else a x l) ∧
    vopInt (.viota f) f (vopSrcs f 2) (tyRegs f.ty) (fun x l => a x l + b x l * BitVec.ofNat w l) ∧
    ∀ (f : SopF) (s : State) (x : Ctx), s.issuesFor x (Reg.s f.sd (tyRegs f.ty) :: acrossRegs f.ty f.a ++ uniRegs f.ty f.b) →
      doneAs (.vmovs f) x s x.past (x.withS f.sd (x.lane f.ty (x.sval f.ty f.b % 32) f.a))

/-- R202, R205, R361: VFADD, VFSUB, VFMUL and VFMA round the exact result once; VFMIN and VFMAX pass over a quiet NaN, VFMINN and VFMAXN
give the canonical NaN for any. Every flag is as the element operations say. R204, R362 to R365: the operations of one element: VFABS and
VFNEG change the sign alone, VFCLASS gives the bit of the class, VFRND an integral value, VFCMP an ordered comparison; VFDIV, VFRCP, VFRSQ
and VFSQRT the correctly rounded result; VFEXP2, VFLOG2, VFSIN and VFCOS the model's rounding of theirs (log 16). -/
def Obligations.FloatOperations : Prop :=
  (∀ f : VopF,
     let t := FpTy f.ty
     let n := tyRegs f.ty
     vopFp (.vfadd f) f 2 n (fun md a b _ => t.finish md ((t.decode md.ftz a).add md.rm (t.decode md.ftz b))) ∧
     vopFp (.vfsub f) f 2 n (fun md a b _ => t.finish md ((t.decode md.ftz a).add md.rm (t.decode md.ftz b).negate)) ∧
     vopFp (.vfmul f) f 2 n (fun md a b _ => t.finish md ((t.decode md.ftz a).mul (t.decode md.ftz b))) ∧
     vopFp (.vfma f) f 3 n (fun md a b c => t.finish md (FVal.fma md.rm (t.decode md.ftz a) (t.decode md.ftz b) (t.decode md.ftz c))) ∧
     vopFp (.vfmin f) f 2 n (fun md a b _ => t.minmax md.ftz false a b) ∧
     vopFp (.vfmax f) f 2 n (fun md a b _ => t.minmax md.ftz true a b) ∧
     vopFp (.vfminn f) f 2 n (fun md a b _ =>
       if (t.decode md.ftz a).isNan || (t.decode md.ftz b).isNan then
         (t.nan, if (t.decode md.ftz a).isSig || (t.decode md.ftz b).isSig then 1 else 0)
       else t.minmax md.ftz false a b) ∧
     vopFp (.vfmaxn f) f 2 n (fun md a b _ =>
       if (t.decode md.ftz a).isNan || (t.decode md.ftz b).isNan then
         (t.nan, if (t.decode md.ftz a).isSig || (t.decode md.ftz b).isSig then 1 else 0)
       else t.minmax md.ftz true a b) ∧
     (tyFloat f.ty = true →
       vopFp (.vaddmin f) f 3 n (fun md a b c => t.addMinMax md false a b c) ∧
       vopFp (.vaddmax f) f 3 n (fun md a b c => t.addMinMax md true a b c)) ∧
     (tyFloat f.ty = false →
       let int := fun (x : Ctx) (l : Nat) (o : Opnd) =>
         if tySigned f.ty then (x.lane f.ty l o).toInt else ((x.lane f.ty l o).toNat : Int)
       vopInt (.vaddmin f) f (vopSrcs f 3) n (fun x l => BitVec.ofInt (tyBits f.ty) (min (int x l f.a + int x l f.b) (int x l f.c))) ∧
       vopInt (.vaddmax f) f (vopSrcs f 3) n (fun x l => BitVec.ofInt (tyBits f.ty) (max (int x l f.a + int x l f.b) (int x l f.c))))) ∧
  (∀ f : VopF,
     let t := FpTy f.ty
     let n := tyRegs f.ty
     vopFp (.vfabs f) f 1 n (fun md a _ _ => t.withSign md.ftz a (fun _ => false)) ∧
     vopFp (.vfneg f) f 1 n (fun md a _ _ => t.withSign md.ftz a (fun b => !b)) ∧
     vopFp (.vfclass f) f 1 1 (fun _ a _ _ => (2 ^ t.classBit a, 0)) ∧
     vopFp (.vfrnd f) f 1 n (fun md a _ _ => t.integral md a) ∧
     vopFp (.vfcmp f) f 2 1 (fun md a b _ => t.compare md.ftz (f.mod / 4) a b) ∧
     vopFp (.vfdiv f) f 2 n (fun md a b _ => t.deliver md ((t.decode md.ftz a).div (t.decode md.ftz b))) ∧
     vopFp (.vfrcp f) f 1 n (fun md a _ _ => t.deliver md ((FVal.fin false 1 0).div (t.decode md.ftz a))) ∧
     vopFp (.vfrsq f) f 1 n (fun md a _ _ => t.deliver md (t.decode md.ftz a).rsqrt) ∧
     vopFp (.vfsqrt f) f 1 n (fun md a _ _ => t.deliver md (t.decode md.ftz a).sqrt) ∧
     vopFp (.vfexp2 f) f 1 n (fun md a _ _ => transcend 0 t md a) ∧
     vopFp (.vflog2 f) f 1 n (fun md a _ _ => transcend 1 t md a) ∧
     vopFp (.vfsin f) f 1 n (fun md a _ _ => transcend 2 t md a) ∧
     vopFp (.vfcos f) f 1 n (fun md a _ _ => transcend 3 t md a))

/-- R183, R186, R188: a code of a number decodes to a value that rounds, in every mode, to that code, and raises no flag. R209: the pairs
of operand formats that MMA and MMAB accept, and with which ACC. -/
def Obligations.NumberFormats : Prop :=
  (∀ t ∈ [fF32, fF16, fBF16, fF64, fE4M3, fE5M2], ∀ (md : RMode) (code : Nat), md.ftz = false → code < 2 ^ t.width →
     (t.decode false code).isNan = false → t.roundVal md (t.decode false code) = (code, 0)) ∧
  (∀ a b acc, a < 14 → b < 14 → acc < 4 →
     (pairAllowed true a b acc = true ↔ a = 13 ∧ b = 13 ∧ acc = 2) ∧
     (pairAllowed false a b acc = true ↔
       (a = 3 ∧ b = 3 ∧ acc = 1) ∨
       (a ∈ [1, 2] ∧ b ∈ [1, 2] ∧ acc = 0) ∨
       (a ∈ [4, 5, 6, 7, 8, 9] ∧ b ∈ [4, 5, 6, 7, 8, 9] ∧ acc = 0) ∨
       (a ∈ [10, 11, 12] ∧ b ∈ [10, 11, 12] ∧ acc = 2)))

/-- R257, R366 to R369, R373: within each tile VSHFL, VSHUP and VSHDN take a lane at a position, VBCAST one lane, VVOTE and VMATCH
a vote of the active lanes, VCOMPACT the values whose condition holds, in order. A lane outside the tile, or a position past the
last, leaves Vc. -/
def Obligations.CrossLaneMoves : Prop :=
  ∀ f : VopF,
    let n := tyRegs f.ty
    let move : List Src := [(f.a, f.ty), (f.b, .b32), (f.c, f.ty)]
    let at_ := fun (x : Ctx) (l : Nat) (p : Int) =>
      if 0 ≤ p ∧ p < 2 ^ x.g.part then x.lane f.ty (l / 2 ^ x.g.part * 2 ^ x.g.part + p.toNat) f.a else x.lane f.ty l f.c
    let here := fun (x : Ctx) (l : Nat) => l % 2 ^ x.g.part
    let peers := fun (x : Ctx) (l : Nat) => (List.range (2 ^ x.g.part)).filter (fun p => x.act.getLsbD (l / 2 ^ x.g.part * 2 ^ x.g.part + p))
    let peer := fun (x : Ctx) (l p : Nat) => l / 2 ^ x.g.part * 2 ^ x.g.part + p
    vopCross (.vshfl f) f move n (fun x l => at_ x l (x.lane .b32 l f.b).toNat) ∧
    vopCross (.vshup f) f move n (fun x l => at_ x l ((here x l : Int) - (x.lane .b32 l f.b).toNat)) ∧
    vopCross (.vshdn f) f move n (fun x l => at_ x l ((here x l : Int) + (x.lane .b32 l f.b).toNat)) ∧
    vopCross (.vbcast f) f [(f.a, f.ty), (f.b, .b32)] n (fun x l =>
      let p := (x.lane .b32 l f.b).toNat
      x.lane f.ty (if p < 2 ^ x.g.part then peer x l p else l) f.a) ∧
    (f.mod / 4 < 3 → vopInt (.vvote f) f [(f.a, .b32)] 1 (fun x l =>
      let yes := fun p => decide (x.lane .b32 (peer x l p) f.a ≠ 0)
      match f.mod / 4 with
      | 0 => BitVec.ofNat 32 (b2n ((peers x l).all yes))
      | 1 => BitVec.ofNat 32 (b2n ((peers x l).any yes))
      | _ => BitVec.ofNat 32 (((peers x l).filter yes).map (fun p => 2 ^ p)).sum)) ∧
    vopInt (.vmatch f) f [(f.a, f.ty)] 1 (fun x l =>
      BitVec.ofNat 32 (((peers x l).filter (fun p => decide (x.lane f.ty (peer x l p) f.a = x.lane f.ty l f.a))).map (fun p => 2 ^ p)).sum) ∧
    vopInt (.vcompact f) f move n (fun x l =>
      match ((peers x l).filter (fun p => decide (x.lane .b32 (peer x l p) f.b ≠ 0)))[here x l]? with
      | some p => x.lane f.ty (peer x l p) f.a
      | none => x.lane f.ty l f.c)

/-- R370 to R372: VRED combines the values of the active lanes of the tile in rising order, VSCAN those up to the lane or below it;
with none it gives the identity, and a tile without an active lane sets EMPTY. VCMPX exchanges key and payload with the lane at
position XOR j, so that each pair is in order. -/
def Obligations.CrossLaneReduceScanCompareExchange : Prop :=
  ∀ f : VopF,
    let n := tyRegs f.ty
    let peers := fun (x : Ctx) (l : Nat) => (List.range (2 ^ x.g.part)).filter (fun p => x.act.getLsbD (l / 2 ^ x.g.part * 2 ^ x.g.part + p))
    let value := fun (x : Ctx) (l p : Nat) => x.val f.ty (l / 2 ^ x.g.part * 2 ^ x.g.part + p) f.a
    let here := fun (x : Ctx) (l : Nat) => l % 2 ^ x.g.part
    let empty := fun (x : Ctx) => if (List.range 32).any (fun l => x.p.lanes.getLsbD l && (peers x l).isEmpty) then 32 else 0
    (∀ (s : State) (x : Ctx), s.issuesFor x (Reg.v f.vd n :: opRegs f.ty f.a) → s.unfolded x x.vopWord (vopSrcs f 1) f.vd n →
      doneOp (.vred f) x s f.vd n (fun l => combAll (x.redMode f.ty) (f.mod / 4) f.ty ((peers x l).map (value x l))) (empty x) ∧
      doneOp (.vscan f) x s f.vd n (fun l => combAll (x.redMode f.ty) (f.mod / 4) f.ty
        (((peers x l).filter (fun p => if bit f.mod 1 then decide (p < here x l) else decide (p ≤ here x l))).map (value x l))) (empty x)) ∧
    vopInt (.vcmpx f) f [(f.a, .b64), (f.b, .b32), (f.c, .b32)] 2 (fun x l =>
      let j := (x.lane .b32 l f.b).toNat
      let k := (x.lane .b32 l f.c).toNat
      let own := x.lane .b64 l f.a
      let m := l / 2 ^ x.g.part * 2 ^ x.g.part + (here x l ^^^ j)
      let key := fun (v : BitVec 64) => cmpxKey f.ty (v.toNat % 2 ^ 32)
      if (∃ i, i < 32 ∧ j = 2 ^ i) ∧ (∃ i, i < 32 ∧ k = 2 ^ i) ∧ 2 * j ≤ k ∧ k ≤ 2 ^ x.g.part ∧ x.act.getLsbD m = true then
        let other := x.lane .b64 m f.a
        let rising := decide (here x l &&& k = 0) != bit f.mod 4
        if (decide (here x l &&& j = 0) = rising ∧ key other < key own) ∨ (decide (here x l &&& j = 0) ≠ rising ∧ key own < key other) then other
        else own
      else own)

/-- R173: a live entry of the fold table gives an instruction's destination the entry's values, ORs the entry's flags into FLAGS, and gives
the entry's names where they can be counted once more (R168), and the path steps past it. VADD stands for the instructions without flags
and VFADD for those with flags, none of which is enabled to trap (R203). -/
def Obligations.FoldRetiresFromEntry : Prop :=
  ∀ (f : VopF) (s : State) (x : Ctx) (e : FoldEntry) (q : Quarter) (v : VReg),
    s.issuesFor x (Reg.v f.vd 1 :: srcRegs (vopSrcs f 2)) → tyRegs f.ty = 1 → x.p.hdr.nofold = false →
    ((s.core x.a.core).quarter x.g.quarter).lookup (x.foldKey x.vopWord (vopSrcs f 2) f.vd 1) = some (e, q) →
    trappingFlag x.g.gstat e.flags.toNat = none → e.flags.getLsbD 5 = false → e.vals = [v] → e.names.length = 1 →
    ∀ i ∈ [Instr.vadd f, Instr.vfadd f], ∃ t g', exec i s = .next t ∧
      Retires true x s t x.past { x.g with flags := x.g.flags ||| e.flags } g' ∧ g'.vreg f.vd = v ∧
      ((∀ r ∈ e.names, (q.share r).isSome = true) → some (g'.nameOf f.vd) = e.names.head?) ∧ ∀ r, r ≠ f.vd → g'.vreg r = x.g.vreg r

/-- R189 to R199, R412 to R416: VCVT, VCVTS, VPACK and VUNPACK convert element by element; a pair of formats that the instruction does not
take raises ILLFMT with nothing written. Where RoundSR applies is the model's reading (log 77). -/
def Obligations.Conversions : Prop :=
  ∀ (f : VcvF) (s : State) (x : Ctx),
    let t := fmtTy f.sfmt
    let nd := fmtCount f.dfmt
    let plain : List Src := if f.ps * nd + nd ≤ fmtCount f.sfmt then [(f.a, t)] else [(f.a, t), (f.b, t)]
    let n := if fmtBits f.dfmt = 64 then 2 else 1
    let near := x.near
    let value := fun (sr : Bool) (l : Nat) =>
      (List.range nd).foldl (fun acc j =>
        let e := f.ps * nd + j
        if e < 2 * fmtCount f.sfmt then
          let r := (x.vcvConv f sr).run (x.elem f l e) (x.elem f (near l).1 e) (x.elem f (near l).2 e)
          (acc.1 + r.1 * 2 ^ (fmtBits f.dfmt * j), acc.2 ||| r.2)
        else acc) (0, 0)
    (s.issuesFor x (vcvRegs f plain n (x.p.fmt.getLsbD 4)) → s.unfolded x x.vcvWord plain f.vd n →
      (if VcvSpec.pairOk .vcvt f.dfmt f.sfmt then doneOp (.vcvt f) x s f.vd n (value (x.p.fmt.getLsbD 4)) 0
        else raises (.vcvt f) x s s (x.trapReq 7 0 0))) ∧
    (s.issuesFor x (vcvRegs f plain n true) → s.unfolded x x.vcvWord plain f.vd n →
      (if VcvSpec.pairOk .vcvts f.dfmt f.sfmt then doneOp (.vcvts f) x s f.vd n (value true) 0
        else raises (.vcvts f) x s s (x.trapReq 7 0 0))) ∧
    (s.issuesFor x (vcvRegs f plain n false) → s.unfolded x x.vcvWord plain f.vd n →
      (f.dfmt = 12 → if VcvSpec.pairOk .vpack f.dfmt f.sfmt then doneOp (.vpack f) x s f.vd n (value false) 0
        else raises (.vpack f) x s s (x.trapReq 7 0 0)) ∧
      (f.sfmt = 12 → if VcvSpec.pairOk .vunpack f.dfmt f.sfmt then doneOp (.vunpack f) x s f.vd n (value false) 0
        else raises (.vunpack f) x s s (x.trapReq 7 0 0))) ∧
    (let n := if isBlock f.dfmt then 2 else 1
     f.dfmt ≠ 12 → s.issuesFor x (vcvRegs f [(f.a, .f32)] n true) → s.unfolded x x.vcvWord [(f.a, .f32)] f.vd n →
      if VcvSpec.pairOk .vpack f.dfmt f.sfmt = false then raises (.vpack f) x s s (x.trapReq 7 0 0) else
      let m := modeOf x.p.fmt f.rmo f.rm
      let block := (List.range 32).map (fun l => decodeFloat 0 m.ftz (x.val .f32 l f.a))
      doneOp (.vpack f) x s f.vd n (fun l =>
        let r := blockEncode f.dfmt m.rm (x.p.fmt.getLsbD 4) block near l
        (r.1 + 2 ^ 32 * (r.2.2.1 + 2 ^ 8 * r.2.2.2), r.2.1)) 0) ∧
    (let srcs : List Src := [(f.a, if isBlock f.sfmt then .b64 else .b32)]
     f.sfmt ≠ 12 → s.issuesFor x (vcvRegs f srcs 1 false) → s.unfolded x x.vcvWord srcs f.vd 1 →
      if VcvSpec.pairOk .vunpack f.dfmt f.sfmt = false then raises (.vunpack f) x s s (x.trapReq 7 0 0) else
      let m := modeOf x.p.fmt f.rmo f.rm
      doneOp (.vunpack f) x s f.vd 1 (fun l =>
        let v := x.val .b64 l f.a
        fF32.roundVal { m with satn := f.sat || m.satn } (match blockDecode f.sfmt v (bits v 39 32) (bits v 47 40) with
          | .val y => y
          | .esc => .nan false)) 0)

/-- R376 to R379, R381, R383 to R385: LD, ST, SLD, SST, ATOM and ATOMS begin an access for each active lane at base plus index plus
offset, modulo 2^57; a uniform one at one address for all. Nothing else changes; misaligned lanes and CLU-scope synchronisation in
a phase region trap. -/
def Obligations.GlobalAccessesBegin : Prop :=
  ∀ (s : State) (x : Ctx),
    (∀ f : MemF, s.issuesFor x (memRegs f true) →
      let w := memWidth f.ty
      let off := (BitVec.ofNat 13 f.off).toInt
      access false (.ld f) x s (decide (f.ord ≠ 0)) f.scope
        (fun o => o.kind = .load ∧ o.space = .global ∧ o.count = 0 ∧ o.dst = .v f.vr f.ty ∧ o.scope = f.scope ∧ o.ord = f.ord)
        (fun l => laneAccess l (x.base f.sb f.vx f.xv l + off) w 0 0) ∧
      access false (.st f) x s (decide (f.ord ≠ 0)) f.scope
        (fun o => o.kind = .store ∧ o.space = .global ∧ o.count = 4 ∧ o.dst = .none ∧ o.scope = f.scope ∧ o.ord = f.ord)
        (fun l => laneAccess l (x.base f.sb f.vx f.xv l + off) w (x.g.laneVal f.vr (regsOf w) l) 0)) ∧
    (∀ f : SmemF, s.issuesFor x [.s f.sd (regsOf (memWidth f.ty)), .s f.sb 2] →
      let w := memWidth f.ty
      let addr := x.base f.sb 0 false 0 + (BitVec.ofNat 20 f.off).toInt
      access false (.sld f) x s (decide (f.ord ≠ 0)) f.scope
        (fun o => o.kind = .load ∧ o.space = .global ∧ o.count = 1 ∧ o.dst = .s f.sd f.ty ∧ o.scope = f.scope ∧ o.ord = f.ord)
        (fun l => laneAccess l addr w 0 0) ∧
      access false (.sst f) x s (decide (f.ord ≠ 0)) f.scope
        (fun o => o.kind = .store ∧ o.space = .global ∧ o.count = 4 ∧ o.dst = .none ∧ o.scope = f.scope ∧ o.ord = f.ord)
        (fun l => laneAccess l addr w (if w = 8 then (x.g.spair f.sd).toNat else (x.g.sreg f.sd).toNat) 0)) ∧
    (∀ f : MemaF, let n := tyRegs f.ty
      s.issuesFor x ([Reg.v f.vd n, Reg.s f.sb 2] ++ (if f.xv then [Reg.v f.vx 1] else []) ++ casRegs f.aop n f.va Reg.v) →
      access false (.atom f) x s true f.scope
        (fun o => o.kind = .atomic f.aop f.ty ∧ o.space = .global ∧ o.count = 0 ∧ o.dst = .v f.vd f.ty ∧ o.scope = f.scope ∧ o.ord = f.ord)
        (fun l => laneAccess l (x.base f.sb f.vx f.xv l) (4 * n) (x.g.laneVal f.va n l) (x.g.laneVal (f.va + n) n l))) ∧
    (∀ f : SatmF, let n := tyRegs f.ty
      s.issuesFor x ([Reg.s f.sd n, Reg.s f.sb 2] ++ casRegs f.aop n f.sa Reg.s) →
      let data := fun r => if n = 2 then (x.g.spair r).toNat else (x.g.sreg r).toNat
      access false (.atoms f) x s true f.scope
        (fun o => o.kind = .atomic f.aop f.ty ∧ o.space = .global ∧ o.count = 1 ∧ o.dst = .s f.sd f.ty ∧ o.scope = f.scope ∧ o.ord = f.ord)
        (fun l => laneAccess l (x.base f.sb 0 false 0) (4 * n) (data f.sa) (data (f.sa + n))))

/-- R171, R173, R175, R380: an LDR whose clause says NOFOLD, that orders, that touches a phase region, or that writes more than a
register or pair is an LD. Another one begins a load that will enter a fold entry, or, on a live entry whose place is free, gives its register the entry's value at once. -/
def Obligations.LdrBeginsOrFolds : Prop :=
  ∀ (f : MemF) (s : State) (x : Ctx), s.issuesFor x (memRegs f true) →
    let w := memWidth f.ty
    let acc := fun l => laneAccess l (x.base f.sb f.vx f.xv l + (BitVec.ofNat 13 f.off).toInt) w 0 0
    let h := fun (o : Op) => o.kind = .load ∧ o.space = .global ∧ o.count = 0 ∧ o.dst = .v f.vr f.ty ∧ o.scope = f.scope ∧ o.ord = f.ord
    let private_ := ∃ l, l < 32 ∧ x.act.getLsbD l = true ∧ (x.t.phaseAt (acc l).addr).isSome = true
    let found := x.ldrHit s (x.loadOp f) (x.ldrKey f)
    (x.act = 0 → doneAs (.ldr f) x s x.past x.g) ∧
    (∀ l, l < 32 → x.act.getLsbD l = true → (acc l).addr % w ≠ 0 → (∀ k, k < l → x.act.getLsbD k = true → (acc k).addr % w = 0) →
      raises (.ldr f) x s s (x.trapReq 0x0B 0 (acc l).addr)) ∧
    ((x.p.hdr.nofold = true ∨ f.ord ≠ 0 ∨ private_ ∨ 2 < regsOf w) →
      access true (.ldr f) x s (decide (f.ord ≠ 0)) f.scope (fun o => h o ∧ o.fold = none) acc) ∧
    (x.p.hdr.nofold = false → f.ord = 0 → ¬private_ → regsOf w ≤ 2 →
      (x.act ≠ 0 → (∀ l, l < 32 → x.act.getLsbD l = true → (acc l).addr % w = 0) → found = none →
        begins true (.ldr f) x s (fun o => h o ∧ o.fold = some (x.ldrKey f)) acc) ∧
      (∀ e q v, x.act ≠ 0 → (∀ l, l < 32 → x.act.getLsbD l = true → (acc l).addr % w = 0) → found = some (e, q) →
        e.vals = [v] → e.names.length = 1 →
        ∃ t g', exec (.ldr f) s = .next t ∧ t.mem = s.mem ∧ t.sectors = s.sectors ∧ x.now t = some g' ∧ g'.rest true = x.g.rest true ∧
          (∀ n, (g'.paths.find? n).map Path.view = if n = x.a.path then some x.past else (x.g.paths.find? n).map Path.view) ∧
          g'.vreg f.vr = v ∧ ∀ r, r ≠ f.vr → g'.vreg r = x.g.vreg r))

/-- R153, R377, R382: LDS and STS begin an access of a scratchpad for each active lane, at base plus index plus offset modulo 2^32,
in the team's own or that of the rank that OFR names; a misaligned lane raises MISALIGN, one past the allocation SCRBOUND. -/
def Obligations.ScratchpadAccessesBegin : Prop :=
  ∀ (f : MemF) (s : State) (x : Ctx) (c sl : Nat) (u : Team), s.issuesFor x (memRegs f f.ofr) →
    x.pad s f = some (c, sl) → s.team? c sl = some u →
    let w := memWidth f.ty
    let addr := fun l => (((x.g.sreg f.sb).toNat : Int) + (if f.xv then (laneOf (x.g.vreg f.vx) l).toNat else 0) + (BitVec.ofNat 13 f.off).toInt) % 2 ^ 32
    let acc := fun data l => laneAccess l (addr l) w data 0
    let active := fun l => l < 32 ∧ x.act.getLsbD l = true
    let aligned := fun l => (addr l).toNat % w = 0
    let inside := fun l => (addr l).toNat + w ≤ u.scratchSize
    (f.ofr = false → c = x.a.core ∧ sl = x.a.slot) ∧
    (x.act = 0 → doneAs (.lds f) x s x.past x.g ∧ doneAs (.sts f) x s x.past x.g) ∧
    (x.act ≠ 0 → (∀ l, active l → aligned l ∧ inside l) →
      begins false (.lds f) x s (fun o => o.kind = .load ∧ o.space = .scratch c sl ∧ o.dst = .v f.vr f.ty) (acc 0) ∧
      begins false (.sts f) x s (fun o => o.kind = .store ∧ o.space = .scratch c sl ∧ o.dst = .none)
        (fun l => acc (x.g.laneVal f.vr (regsOf w) l) l)) ∧
    (∀ l, active l → ¬aligned l → (∀ k, k < l → active k → aligned k) →
      raises (.lds f) x s s (x.trapReq 0x0B 0 (addr l).toNat) ∧ raises (.sts f) x s s (x.trapReq 0x0B 0 (addr l).toNat)) ∧
    ((∀ l, active l → aligned l) → ∀ l, active l → ¬inside l → (∀ k, k < l → active k → inside k) →
      raises (.lds f) x s s (x.trapReq 0x0C 0 (addr l).toNat) ∧ raises (.sts f) x s s (x.trapReq 0x0C 0 (addr l).toNat))

/-- R220, R386, R392: FENCE fills its token with the earlier loads, stores and atomics of its kind that the active lanes made, remote
stores and atomics only at SYS, and at DEV and SYS leaves no sector pinned for its team; WAITF steps on where every access that its token
covers has returned or been acknowledged, a scratchpad load only once its register is written (R435), and waits until then. CFENCE fills its token with the copies of its queues that are in the engine:
it is done at once where there is none, and not while one is left; with the engine full it waits. -/
def Obligations.FencesAndTokens : Prop :=
  ∀ (f : EngF) (s : State) (x : Ctx), s.issuesFor x [] →
    let wide := 3 ≤ f.m3 ∧ f.n2 ≠ 0
    let pending := fun (e : Cover) => ∃ o, x.g.ops.find? e.op = some o ∧ ∃ p ∈ o.parts, p.laneSet &&& e.lanes ≠ 0 ∧
      o.completed p = false ∧ (e.remote = true ∨ o.kind.isWrite = false ∨ p.remote = false)
    let others := fun (g' : Group) => ∀ n, n ≠ f.fn → g'.token n = x.g.token n
    let copies := (s.core x.a.core).copies
    (x.act = 0 → doneAs (.fence f) x s x.past (x.g.fill f.fn [] []) ∧ doneAs (.cfence f) x s x.past (x.g.fill f.fn [] [])) ∧
    (x.act ≠ 0 → x.g.ops.rising = true → stepsOn (.fence f) x s x.g (fun t g' => others g' ∧
      (∃ ops, g'.token f.fn = .filled ops [s.nextWork] ∧ ∀ e, e ∈ ops ↔ ∃ o, x.g.ops.find? e.op = some o ∧
        e = { op := e.op, remote := decide (5 ≤ f.m3), lanes := x.act } ∧ o.lanes &&& x.act ≠ 0 ∧ o.kind.isAccess = true ∧
        ((f.n2 ≠ 1 ∧ o.kind.isRead = true) ∨ (f.n2 ≠ 0 ∧ o.kind.isWrite = true))) ∧
      (¬wide → t.mem = s.mem ∧ t.sectors = s.sectors ∧ t.workDone s.nextWork = s.workDone s.nextWork) ∧
      (wide → ∀ n c sl a b, (t.sector n).pin = some (c, sl, a, b) → (s.sector n).pin = some (c, sl, a, b) ∧ ¬(c = x.a.core ∧ sl = x.a.slot)))) ∧
    (x.g.token f.fn = .free → doneAs (.waitf f) x s x.past x.g) ∧
    (∀ ops works, x.g.token f.fn = .filled ops works →
      ((∀ e ∈ ops, ¬pending e) → (∀ w ∈ works, s.workDone w = true) → doneAs (.waitf f) x s x.past x.g) ∧
      (((∃ e ∈ ops, pending e) ∨ ∃ w ∈ works, s.workDone w = false) → waits (.waitf f) x s 8)) ∧
    (∀ w, x.g.token f.fn = .tasks w → (s.workDone w = true → doneAs (.waitf f) x s x.past x.g) ∧ (s.workDone w = false → waits (.waitf f) x s 8)) ∧
    (x.act ≠ 0 → f.x8 = 0 → raises (.cfence f) x s s (x.trapReq 0x09 0 0)) ∧
    (x.act ≠ 0 → f.x8 ≠ 0 → s.mayCopy x.a = false → leads (.cfence f) s (fun t => t.mem = s.mem ∧ (t.core x.a.core).copies = copies ∧
      ∃ g', x.now t = some g' ∧ g'.rest false = x.g.rest false ∧
        (g'.paths.find? x.a.path).map (fun p => (p.stall, p.view)) = some (some 3, x.p.view))) ∧
    (x.act ≠ 0 → f.x8 ≠ 0 → s.mayCopy x.a = true → stepsOn (.cfence f) x s x.g (fun t g' =>
      t.mem = s.mem ∧ g'.token f.fn = .filled [] [s.nextWork] ∧ others g' ∧
      ((∀ e ∈ copies, e.2.kind.fenceMask = none ∧ bit f.x8 e.2.q = false) → t.workDone s.nextWork = true) ∧
      (copies.rising = true → (∀ e ∈ copies, e.2.work ≠ s.nextWork) →
        (∃ e ∈ copies, e.1 < (s.core x.a.core).nextCopy ∧ e.2.kind.fenceMask = none ∧ bit f.x8 e.2.q = true) →
        t.workDone s.nextWork = false ∧
        ((t.core x.a.core).copies.find? (s.core x.a.core).nextCopy).map (fun o => o.kind) = some (.cfence f.x8))))

/-- R117, R119, R387, R388: PHASE answers 4, 1, 2 or 3 for the first check that fails, and else 0 with the region added to the
team's, once no placement move of one of its pages is under way (R31; the reason it is charged is the model's, log 139); PUBLISH ends the region of its base and fills its token, at once where nothing has been stored to it. -/
def Obligations.PhaseAndPublish : Prop :=
  ∀ (f : EngF) (s : State) (x : Ctx),
    let base := (x.g.spair f.sa).toNat % 2 ^ 57
    let size := (x.g.sreg f.sb).toNat
    let bad := base % 256 ≠ 0 ∨ size % 256 ≠ 0 ∨ size = 0
    let overlaps := ∃ p ∈ x.t.phases, base < p.base + p.size ∧ p.base < base + size
    let used := ((s.core x.a.core).slots.map (fun t => (t.2.phases.map (fun p => p.size)).sum)).sum
    let answer := fun v => doneAs (.phase f) x s x.past (x.g.setS f.sd v)
    (s.issuesFor x [.s f.sd 1, .s f.sa 2, .s f.sb 1] →
      (x.act = 0 → doneAs (.phase f) x s x.past x.g) ∧
      (x.act ≠ 0 → bad → answer 4) ∧
      (x.act ≠ 0 → ¬bad → 8 ≤ x.t.phases.length → answer 1) ∧
      (x.act ≠ 0 → ¬bad → x.t.phases.length < 8 → overlaps → answer 2) ∧
      (x.act ≠ 0 → ¬bad → x.t.phases.length < 8 → ¬overlaps → 2 ^ 24 < used + size → answer 3) ∧
      (x.act ≠ 0 → ¬bad → x.t.phases.length < 8 → ¬overlaps → used + size ≤ 2 ^ 24 → onMove s x.t.asid base size = true →
        waits (.phase f) x s 1) ∧
      (x.act ≠ 0 → ¬bad → x.t.phases.length < 8 → ¬overlaps → used + size ≤ 2 ^ 24 → onMove s x.t.asid base size = false →
        (s.rangeFault x.a x.t.asid x.t.sup (ceilDiv (base % 4096 + size) 4096) (base / 4096 * 4096)).1 = none →
        leads (.phase f) s (fun t => (x.now t).map (fun g => g.sreg f.sd) = some 0 ∧
          (t.team? x.a.core x.a.slot).map (fun u => u.phases) =
            some (x.t.phases ++ [{ base := base, size := size, bytes := [], written := [], pois := [] }])))) ∧
    (s.issuesFor x [.s f.sa 2] →
      ((x.act = 0 ∨ ∀ p ∈ x.t.phases, p.base ≠ base) → doneAs (.publish f) x s x.past (x.g.fill f.fn [] [])) ∧
      (∀ p ∈ x.t.phases, x.act ≠ 0 → p.base = base → (∀ q ∈ x.t.phases, q.base = base → q = p) → stepsOn (.publish f) x s x.g (fun t g' =>
        t.mem = s.mem ∧ (t.team? x.a.core x.a.slot).map (fun u => u.phases) = some (x.t.phases.filter (fun q => q.base ≠ base)) ∧
        (if p.written = [] then g'.token f.fn = .filled [] [] ∧ t.pubs = s.pubs
          else g'.token f.fn = .filled [] [s.nextWork] ∧ t.workDone s.nextWork = false))))

/-- R139 to R142, R393 to R395: BARINIT makes an object with PEND and EXP of n; BARINV makes it invalid; BARARR gives Sd the
generation and lowers PEND, or, when that completes the phase, starts the next generation; BARWAIT waits while the generation is
its own. That a BARARR waits for what it releases charged with reason 5 is the model's choice (log 130). -/
def Obligations.BarrierInstructions : Prop :=
  ∀ (f : BarF) (s : State) (x : Ctx),
    let off := (x.g.sreg f.sa).toNat
    let obj := fun (t : State) => t.object x.a.core x.a.slot off
    let okAt := off % 16 = 0 ∧ off + 16 ≤ x.t.scratchSize
    let at_ := fun (t : State) => (x.now t).bind (fun g => (g.paths.find? x.a.path).map Path.view)
    (s.issuesFor x [.s f.sa 1] →
      (x.act = 0 → doneAs (.barinit f) x s x.past x.g ∧ doneAs (.barinv f) x s x.past x.g) ∧
      (x.act ≠ 0 → off % 16 ≠ 0 → raises (.barinit f) x s s (x.trapReq 0x0B 0 off) ∧ raises (.barinv f) x s s (x.trapReq 0x0B 0 off)) ∧
      (x.act ≠ 0 → off % 16 = 0 → x.t.scratchSize < off + 16 →
        raises (.barinit f) x s s (x.trapReq 0x0C 0 off) ∧ raises (.barinv f) x s s (x.trapReq 0x0C 0 off)) ∧
      (x.act ≠ 0 → okAt → f.n < 2 ^ 12 → stepsOn (.barinit f) x s x.g (fun t _ =>
        obj t = 2 ^ 4 + 2 ^ 8 * f.n + 2 ^ 20 * f.n ∧
        ∃ u, t.team? x.a.core x.a.slot = some u ∧ ∀ b, (b < off ∨ off + 16 ≤ b) → u.scratch.getD b 0 = x.t.scratch.getD b 0)) ∧
      (x.act ≠ 0 → okAt → (s.core x.a.core).waiters = [] → stepsOn (.barinv f) x s x.g (fun t _ =>
        bit (obj t) 4 = false ∧ ∀ n, n ≠ 4 → bit (obj t) n = bit (obj s) n))) ∧
    (∀ c sl, x.objAt s off (barRank f) = .ok c sl off →
      let obj := fun (t : State) => t.object c sl off
      let pend := bits (obj s) 31 20
      let gen := bits (obj s) 3 0
      (s.issuesFor x [.s f.sd 1, .s f.sa 1] →
        (x.act ≠ 0 → 0 < f.n → x.settled = true → (f.rmt = true → pinsOf s x.a.core x.a.slot = []) → bit (obj s) 4 = true →
          f.n ≤ pend → (s.core c).waiters = [] → stepsOn (.bararr f) x s (x.g.setS f.sd (BitVec.ofNat 32 gen)) (fun t _ =>
            if f.n = pend ∧ bits (obj s) 63 32 = 0 ∧ bits (obj s) 95 64 = 0 then
              bits (obj t) 3 0 = (gen + 1) % 16 ∧ bits (obj t) 31 20 = bits (obj s) 19 8
            else bits (obj t) 3 0 = gen ∧ bits (obj t) 31 20 = pend - f.n)) ∧
        (x.act ≠ 0 → 0 < f.n → x.settled = false → waits (.bararr f) x s 5) ∧
        (x.act ≠ 0 → f.n = 0 → raises (.bararr f) x s s (x.trapReq 0x0D 0 off))) ∧
      (s.issuesFor x [.s f.sa 1, .s f.sg 1] →
        (gen ≠ (x.g.sreg f.sg).toNat % 16 → doneAs (.barwait f) x s x.past x.g) ∧
        (gen = (x.g.sreg f.sg).toNat % 16 → leads (.barwait f) s (fun t => at_ t = some x.p.view ∧
          (x.now t).bind (fun g => (g.paths.find? x.a.path).map (fun p => p.wait)) = some (.barrier c sl off gen f.sg none))))) ∧
    (s.issuesFor x [.s f.sd 1, .s f.sa 1] → x.act = 0 → doneAs (.bararr f) x s x.past x.g) ∧
    (f.rmt = false → okAt → x.objAt s off (barRank f) = .ok x.a.core x.a.slot off)

/-- R151, R155 to R157, R397, R398: SRAMCFG.FIFO takes the last cache block while more than the minimum are left, and answers
0x8000_0000 otherwise; when the block's lines have been released, BLOCK_SWITCH_DONE gives Sd its number; SRAMCFG.FREE gives it
back. QPUT and QGET put and take entries, or wait. A block that is not the team's FIFO raises BADQ. -/
def Obligations.SramBlocksAndFifos : Prop :=
  ∀ (f : EngF) (s : State) (x : Ctx),
    let k := s.core x.a.core
    let n := if f.m3 = 1 then 2 else 1
    let entries := fun (t : State) b => ((t.core x.a.core).fifos.find? b).map (fun q => q.entries)
    (s.issuesFor x [.s f.sd 1] →
      (x.act = 0 → doneAs (.sramcfgFifo f) x s x.past x.g) ∧
      (x.act ≠ 0 → k.cacheBlocks.length ≤ k.cacheMin → doneAs (.sramcfgFifo f) x s x.past (x.g.setS f.sd 0x80000000)) ∧
      (∀ b, x.act ≠ 0 → k.cacheMin < k.cacheBlocks.length → k.cacheBlocks.getLast? = some b → leads (.sramcfgFifo f) s (fun t =>
        (t.core x.a.core).block b = .switching ∧ t.waitedWork x.a = some s.nextWork ∧ t.mem = s.mem))) ∧
    (s.issuesFor x [.s f.sa 1] →
      (x.act = 0 → doneAs (.sramcfgFree f) x s x.past x.g) ∧
      (x.act ≠ 0 → x.fifo s f.sa = none → raises (.sramcfgFree f) x s s (x.trapReq 0x0A 0 0)) ∧
      (∀ b q, x.act ≠ 0 → x.fifo s f.sa = some (b, q) → q.waiting = [] → stepsOn (.sramcfgFree f) x s x.g (fun t _ =>
        t.mem = s.mem ∧ (t.core x.a.core).fifos.find? b = none ∧
        (b ≠ 0 → k.block (b - 1) = .cache → k.switching.find? (b - 1) = none → (t.core x.a.core).block b = .cache)))) ∧
    (s.issuesFor x [.v f.x8 n, .s f.sa 1] →
      (x.fifo s f.sa = none → raises (.qput f) x s s (x.trapReq 0x0A 0 0) ∧ raises (.qget f) x s s (x.trapReq 0x0A 0 0)) ∧
      (∀ b q, x.fifo s f.sa = some (b, q) → q.waiting = [] →
        (q.entries.length + n ≤ 384 → stepsOn (.qput f) x s x.g (fun t _ => t.mem = s.mem ∧ entries t b =
          some (q.entries ++ (List.range n).map (fun r => (packLanes (fun l => if x.act.getLsbD l then laneOf (x.g.vreg (f.x8 + r)) l else 0), false))))) ∧
        (384 < q.entries.length + n → leads (.qput f) s (fun t => entries t b = some q.entries ∧
          (x.now t).bind (fun g => (g.paths.find? x.a.path).map (fun p => p.wait)) = some (.fifo x.g.nextOp))) ∧
        (n ≤ q.entries.length → (∀ e ∈ q.entries.take n, e.2 = false) → leads (.qget f) s (fun t => entries t b = some (q.entries.drop n) ∧
          ∃ g', x.now t = some g' ∧ (g'.paths.find? x.a.path).map Path.view = some x.past ∧
            (∀ r, r < n → ∀ l, l < 32 → laneOf (g'.vreg (f.x8 + r)) l =
              if x.act.getLsbD l then laneOf ((q.entries.getD r (0, false)).1) l else laneOf (x.g.vreg (f.x8 + r)) l) ∧
            ∀ r, (r < f.x8 ∨ f.x8 + n ≤ r) → g'.vreg r = x.g.vreg r)) ∧
        (q.entries.length < n → leads (.qget f) s (fun t => entries t b = some q.entries ∧
          (x.now t).bind (fun g => (g.paths.find? x.a.path).map (fun p => p.wait)) = some (.fifo x.g.nextOp))))) ∧
    (∀ core block w, (s.core core).switching.find? block = some w →
      (w.released = false → leads (.blockSwitchDone core block) s (fun t =>
        ((t.core core).switching.find? block).map (fun w => w.released) = some true)) ∧
      (w.released = true → w.waits.all s.workDone = true → w.toFifo = false → (s.core core).shrinkDue = false → leads (.blockSwitchDone core block) s (fun t =>
        (t.core core).block block = .scratch ∧ (t.core core).switching.find? block = none ∧ t.mem = s.mem)) ∧
      (∀ a v g id o sd ty, w.released = true → w.waits.all s.workDone = true → w.toFifo = true → w.asker = some (a, v) → s.waitedWork a = some v →
        s.group? a.core a.slot a.group = some g → s.pendingOf a v = some (id, o) →
        o.dst = .s sd ty → a.core = core → (∀ p ∈ (s.core core).switching, p.1 ≤ block) → leads (.blockSwitchDone core block) s (fun t =>
          (t.core core).block block = .fifo ∧ (t.group? a.core a.slot a.group).map (fun g => g.sreg sd) = some (BitVec.ofNat 32 block) ∧
          ((t.core core).fifos.find? block).map (fun q => (q.owner, q.entries)) = some (a.slot, []))))

/-- R128 to R131, R135, R136, R389 to R391: each copy instruction whose ends, size and object the engine takes enters the queue that
it names, charges its object and steps on; a misaligned end, or a size that is not a multiple of 16 up to 2^24, raises ILLCOPY. -/
def Obligations.CopyInstructionsEnterQueue : Prop :=
  ∀ (f : CpyF) (s : State) (x : Ctx),
    let size := match f.sz with
      | .imm i => 16 * (i % 512)
      | .s r => (x.g.sreg r).toNat
      | .v _ => 0
    let obj := if f.bv then some (x.g.sreg f.so).toNat else none
    let sa := (x.g.sreg f.sa).toNat
    let sb := (x.g.sreg f.sb).toNat
    let pa := (x.g.spair f.sa).toNat % 2 ^ 57
    let pb := (x.g.spair f.sb).toNat % 2 ^ 57
    let own := (x.a.core, x.a.slot)
    let one := fun (i : Instr) kind src dst peer more =>
      (x.act ≠ 0 → x.copyable s kind src dst size peer obj → copies i x s f.qn kind src dst size peer obj more) ∧
      (x.act ≠ 0 → (src % 16 ≠ 0 ∨ dst % 16 ≠ 0 ∨ size % 16 ≠ 0 ∨ size = 0 ∨ 2 ^ 24 < size) → raises i x s s (x.trapReq 0x09 0 0))
    let any := fun (_ : Group) => True
    (s.issuesFor x (cpyRegs f 1 2) →
      (x.act = 0 → ∀ i ∈ [Instr.cpyGs f, .cpySg f, .cpySr f, .cpyRs f, .cpyrAdd f, .cpyrMin f, .cpyrMax f, .cpyrAnd f, .cpyrOr f],
        doneAs i x s x.past x.g) ∧
      one (.cpyGs f) .gs pb sa own any ∧
      one (.cpySg f) .sg sa pb own any ∧
      one (.cpyrAdd f) (.reduce 0 (cpyrTy f.kind)) sa pb own any ∧
      one (.cpyrMin f) (.reduce 1 (cpyrTy f.kind)) sa pb own any ∧
      one (.cpyrMax f) (.reduce 2 (cpyrTy f.kind)) sa pb own any ∧
      one (.cpyrAnd f) (.reduce 3 (cpyrTy f.kind)) sa pb own any ∧
      one (.cpyrOr f) (.reduce 4 (cpyrTy f.kind)) sa pb own any ∧
      ∀ peer, (x.g.sreg (f.sb + 1)).toNat ≠ x.t.rank → clusterPeer s x.t.grid x.t.cluster (x.g.sreg (f.sb + 1)).toNat = some peer →
        one (.cpySr f) .sr sa sb peer any ∧ one (.cpyRs f) .rs sb sa peer any) ∧
    (s.issuesFor x (cpyRegs f 2 2) → (x.act = 0 → doneAs (.cpyGg f) x s x.past x.g) ∧ one (.cpyGg f) .gg pb pa own any) ∧
    (s.issuesFor x (cpyRegs f 0 2) →
      (x.act = 0 → doneAs (.pref f) x s x.past (if f.bv then x.g else x.g.fill (f.sa % 8) [] [])) ∧
      one (.pref f) .pref pb 0 own (fun g => f.bv = false → g.token (f.sa % 8) = .filled [] [s.nextWork]))

/-- R128, R133, R134, R138, R140: CSTEP raises the stage, which saturates at 0xFFFF, and steps on where no entry is due; a copy out of
a scratchpad reads its bytes; one into a scratchpad writes them; units that arrive are counted, and the last one ends the copy. -/
def Obligations.CopyEngineSteps : Prop :=
  (∀ (f : EngF) (s : State) (x : Ctx), s.issuesFor x [] →
    let stage := if x.t.stage = 0xFFFF then 0xFFFF else x.t.stage + 1
    let due := fun p : BitVec 256 × Nat => match schedEntry p.1.toNat with
      | some e => decide (x.t.issued.getD p.2 0 < e.reps) && decide (e.stage + x.t.issued.getD p.2 0 * e.period ≤ stage)
      | none => false
    (x.act = 0 → doneAs (.cstep f) x s x.past x.g) ∧
    (x.act ≠ 0 → x.grid.sched.zipIdx.any due = false → stepsOn (.cstep f) x s x.g (fun t _ =>
      t.mem = s.mem ∧ (t.team? x.a.core x.a.slot).map (fun u => u.stage) = some stage))) ∧
  (∀ (core op n : Nat) (s : State) (o : CopyOp) (u : Team), (s.core core).copies.find? op = some o → canStart (s.core core) op o = true →
    o.kind.fromScratch = true → s.team? (o.srcPad core).1 (o.srcPad core).2 = some u → (o.srcSpan n).1 < o.size → (o.srcSpan n).2 ≠ 0 →
    (∀ e ∈ o.stores, ∀ q, (s.group? core o.slot o.group).bind (fun g => g.ops.find? e) = some q → q.parts.all Part.performed = true) →
    leads (.engineAccess core op n) s (fun t => t.mem = s.mem ∧ ((t.core core).copies.find? op) =
      some (o.take (o.srcSpan n).1 ((List.range (o.srcSpan n).2).map (fun i => u.scratch.getD (o.src + (o.srcSpan n).1 + i) 0))
        (fun i => u.scratchPois.contains ((o.src + (o.srcSpan n).1 + i) / 32))))) ∧
  (∀ (core op n : Nat) (s : State) (o : CopyOp) (d : Tab Byte) (u : Team), (s.core core).copies.find? op = some o →
    canStart (s.core core) op o = true → o.kind.toScratch = true → o.units.find? n = some (.held d []) → (o.unitSpan n).2 ≤ d.length →
    d.rising = true → s.team? (o.dstPad core).1 (o.dstPad core).2 = some u →
    leads (.copyUnitWrite core op n) s (fun t => t.mem = s.mem ∧
      ((t.core core).copies.find? op).map (fun o => (o.units.find? n, o.arrived)) = some (some .counted, o.arrived + 1) ∧
      ∃ v, t.team? (o.dstPad core).1 (o.dstPad core).2 = some v ∧ (∀ b ∈ d, v.scratch.getD (o.dst + b.1) 0 = b.2) ∧
        ∀ a, (∀ b ∈ d, a ≠ o.dst + b.1) → v.scratch.getD a 0 = u.scratch.getD a 0)) ∧
  (∀ (core op : Nat) (s : State) (o : CopyOp), (s.core core).copies.find? op = some o → o.arrived ≠ 0 →
    leads (.engineArrival core op) s (fun t =>
      if o.total ≤ o.counted + o.arrived then (t.core core).copies.find? op = none
      else ((t.core core).copies.find? op).map (fun o => (o.arrived, o.counted)) = some (0, o.counted + o.arrived)))

/-- R120, R121, R126, R399, R400: a REC instruction answers code 4, 2, 3 or 1 with the range's state where a check fails; else it is
broadcast to all 192 slices while its path waits, and when the last slice has applied it the range takes its new state and Sd is
written. That one whose check fails is not broadcast is the model's reading (log 41). -/
def Obligations.RecordInstructions : Prop :=
  (∀ (f : EngF) (s : State) (x : Ctx), x.act = 0 →
    (s.issuesFor x [.s f.sd 1, .s f.sa 2, .s f.sb 1] → doneAs (.recBegin f) x s x.past x.g) ∧
    (s.issuesFor x [.s f.sd 1] → ∀ i ∈ [Instr.recEnd f, .recReplay f, .recForget f], doneAs i x s x.past x.g) ∧
    (s.issuesFor x [.s f.sd 8] → doneAs (.recStat f) x s x.past x.g)) ∧
  (∀ (f : EngF) (s : State) (x : Ctx), x.act ≠ 0 → s.recBusy x.t.asid f.x8 = none →
    let st := s.rangeState (x.t.asid * 64 + f.x8)
    let base := (x.g.spair f.sa).toNat % 2 ^ 57
    let size := (x.g.sreg f.sb).toNat
    let bad := base % 256 ≠ 0 ∨ size % 256 ≠ 0 ∨ size = 0
    let meets := ∃ r ∈ s.liveRanges x.t.asid f.x8, base < r.1 + r.2 ∧ r.1 < base + size
    let answer := fun i code => doneAs i x s x.past (x.g.setS f.sd (BitVec.ofNat 32 (code * 256 + st)))
    let cast := fun i op b z => leads i s (fun t => t.mem = s.mem ∧ t.waitedWork x.a = some s.nextWork ∧
      (t.bcasts.find? s.nextBcast).map (fun b => (b.what, b.left)) =
        some (.school op f.x8 x.t.asid b z f.sd x.a (List.replicate 7 0), List.range 192))
    (s.issuesFor x [.s f.sd 1, .s f.sa 2, .s f.sb 1] →
      (bad → answer (.recBegin f) 4) ∧
      (¬bad → meets → answer (.recBegin f) 2) ∧
      (¬bad → ¬meets → 1024 ≤ s.liveCount → st = 0 → answer (.recBegin f) 3) ∧
      (¬bad → ¬meets → (s.liveCount < 1024 ∨ st ≠ 0) → cast (.recBegin f) 0 base size)) ∧
    (s.issuesFor x [.s f.sd 1] →
      (if st = 1 ∨ st = 3 then cast (.recEnd f) 1 0 0 else answer (.recEnd f) 1) ∧
      (if st = 1 ∨ st = 2 then cast (.recReplay f) 2 0 0 else answer (.recReplay f) 1) ∧
      (if st = 0 then answer (.recForget f) 1 else cast (.recForget f) 3 0 0)) ∧
    (s.issuesFor x [.s f.sd 8] → cast (.recStat f) 4 0 0)) ∧
  (∀ (bc slice : Nat) (s : State) (b : Bcast) (op id asid base size sd : Nat) (a : Site) (sum : List Nat),
    s.bcasts.find? bc = some b → b.what = .school op id asid base size sd a sum → slice ∈ b.left →
    ((∃ k ∈ b.left, k ≠ slice) → leads (.recSliceApply bc slice) s (fun t => t.mem = s.mem ∧
      (t.bcasts.find? bc).map (fun b => b.left) = some (b.left.filter (fun k => k ≠ slice)))) ∧
    ((∀ k ∈ b.left, k = slice) → leads (.recSliceApply bc slice) s (fun t => t.mem = s.mem ∧
      (op = 0 → t.rangeState (asid * 64 + id) = 1) ∧
      (op = 1 → s.rangeState (asid * 64 + id) = 1 ∨ s.rangeState (asid * 64 + id) = 3 → t.rangeState (asid * 64 + id) = 2) ∧
      (op = 2 → s.rangeState (asid * 64 + id) = 1 ∨ s.rangeState (asid * 64 + id) = 2 → t.rangeState (asid * 64 + id) = 3) ∧
      (op = 3 → t.rangeState (asid * 64 + id) = 0) ∧
      (op ≠ 4 → s.waitedWork a = some b.work → (t.group? a.core a.slot a.group).map (fun g => g.sreg sd) =
        some (BitVec.ofNat 32 (t.rangeState (asid * 64 + id)))))))

/-- R163, R180, R181, R402, R406 to R409: MZERO clears a block, MLDA loads it from the scratchpad, MSTA stores it, MCVT converts it into
another; MZERO and MLDA clear PROG, where no store of another group to the scratchpad is half done; MPROG reads and MPROG.SET writes it. No other block, no register and no other byte changes; while the
matrix unit is taken the path waits, with reason 2 (log 131). R177, R410: TMAP writes a tile register from four S registers, TMAP.RD reads it back, TSIDE replaces
its top 32 bits. -/
def Obligations.AccumulatorsAndTileRegisters : Prop :=
  (∀ (f : MtxF) (s : State) (x : Ctx),
     let off := (x.g.sreg f.sa).toNat
     let acc := accOf x.p.fmt
     let busy := (s.core x.a.core).matrix.isSome = true
     let free := x.act ≠ 0 ∧ (s.core x.a.core).matrix = none ∧ x.scratchOpen = none
     let team := fun (t : State) (q : Team → Prop) => t.mem = s.mem ∧ ∃ u, t.team? x.a.core x.a.slot = some u ∧ q u
     let others := fun (u : Team) (bs : List Nat) => ∀ k r c, k ∉ bs → r < 64 → c < 64 → u.accWord k r c = x.t.accWord k r c
     (s.issuesFor x [.acc f.ad] →
       (x.act = 0 → doneAs (.mzero f) x s x.past x.g) ∧
       (x.act ≠ 0 → busy → waits (.mzero f) x s 2) ∧
       (free → stepsOn (.mzero f) x s x.g (fun t _ => team t (fun u =>
         (∀ r c, r < 64 → c < 64 → u.accWord f.ad r c = 0) ∧ others u [f.ad] ∧ u.progOf f.ad = 0 ∧ u.scratch = x.t.scratch)))) ∧
     (s.issuesFor x [.acc f.ad, .s f.sa 1] →
       (x.act = 0 → doneAs (.mlda f) x s x.past x.g) ∧
       (free → off % 16 ≠ 0 → raises (.mlda f) x s s (x.trapReq 0x0B 0 off)) ∧
       (free → off % 16 = 0 → x.t.scratchSize < off + 16384 → raises (.mlda f) x s s (x.trapReq 0x0C 0 off)) ∧
       (free → s.openChunks x.a = [] → off % 16 = 0 → off + 16384 ≤ x.t.scratchSize → (∀ w, off / 32 ≤ w → w ≤ (off + 16383) / 32 → w ∉ x.t.scratchPois) →
         stepsOn (.mlda f) x s x.g (fun t _ => team t (fun u =>
           (∀ r c, r < 64 → c < 64 → u.accWord f.ad r c = BitVec.ofNat 32 (leNat (x.t.bytesAt (off + 4 * (64 * r + c)) 4))) ∧
           others u [f.ad] ∧ u.progOf f.ad = 0 ∧ u.scratch = x.t.scratch))) ∧
       ((s.core x.a.core).matrix = none →
         doneAs (.mprog f) x s x.past (x.g.setS f.sa ((x.t.progOf f.ad).setWidth 32)) ∧
         stepsOn (.mprogSet f) x s x.g (fun t _ => team t (fun u =>
           u.acc = x.t.acc ∧ ∀ k, u.progOf k = if k = f.ad then (x.g.sreg f.sa).setWidth 16 else x.t.progOf k)))) ∧
     (s.issuesFor x [.s f.sa 1] →
       (x.accOk f.ad (acc = 1) = false → raises (.msta f) x s s (x.trapReq 5 0 0)) ∧
       (x.accOk f.ad (acc = 1) = true → mstaOk acc f.fmtc = false → raises (.msta f) x s s (x.trapReq 7 0 0)) ∧
       (x.accOk f.ad (acc = 1) = true → mstaOk acc f.fmtc = true → free → off % 16 = 0 → off + 512 * fmtBits f.fmtc ≤ x.t.scratchSize →
         stepsOn (.msta f) x s x.g (fun t _ => team t (fun u => u.acc = x.t.acc ∧ u.prog = x.t.prog ∧
           (∀ r c, r < 64 → c < 64 → leNat (u.bytesAt (off + 8 * fmtBits f.fmtc * r) (8 * fmtBits f.fmtc)) / 2 ^ (fmtBits f.fmtc * c) % 2 ^ fmtBits f.fmtc =
             (if mstaCopies acc f.fmtc then x.t.accElem acc f.ad r c
               else accConvert x.t x.p.fmt f.ad f.fmtc f.rm (f.sat || x.p.fmt.getLsbD 3) r c) % 2 ^ fmtBits f.fmtc) ∧
           ∀ b, (b < off ∨ off + 512 * fmtBits f.fmtc ≤ b) → u.scratch.getD b 0 = x.t.scratch.getD b 0)))) ∧
     (s.issuesFor x [] →
       ((x.accOk f.ta (acc = 1) = false ∨ x.accOk f.ad (f.fmtc = 3) = false) → raises (.mcvt f) x s s (x.trapReq 5 0 0)) ∧
       (x.accOk f.ta (acc = 1) = true → x.accOk f.ad (f.fmtc = 3) = true → mcvtOk acc f.fmtc = false → raises (.mcvt f) x s s (x.trapReq 7 0 0)) ∧
       (x.accOk f.ta (acc = 1) = true → x.accOk f.ad (f.fmtc = 3) = true → mcvtOk acc f.fmtc = true → free →
         stepsOn (.mcvt f) x s x.g (fun t _ => team t (fun u => u.prog = x.t.prog ∧ u.scratch = x.t.scratch ∧
           others u (if f.fmtc = 3 then [f.ad, f.ad + 1] else [f.ad]) ∧
           ∀ r c, r < 64 → c < 64 → u.accWord f.ad r c = BitVec.ofNat 32 (mcvtElem x.t x.p.fmt f.ta f.fmtc f.rm r c) ∧
             (f.fmtc = 3 → u.accWord (f.ad + 1) r c = BitVec.ofNat 32 (mcvtElem x.t x.p.fmt f.ta f.fmtc f.rm r c / 2 ^ 32))))))) ∧
  (∀ (f : MtxF) (s : State) (x : Ctx),
     (s.issuesFor x [.s f.sa 4] →
       doneAs (.tmap f) x s x.past { x.g with
         t := x.g.t.set f.ta (x.g.sreg (f.sa + 3) ++ x.g.sreg (f.sa + 2) ++ x.g.sreg (f.sa + 1) ++ x.g.sreg f.sa) } ∧
       doneAs (.tmapRd f) x s x.past ((x.g.setPair f.sa ((x.g.treg f.ta).extractLsb' 0 64)).setPair (f.sa + 2) ((x.g.treg f.ta).extractLsb' 64 64))) ∧
     (s.issuesFor x [.s f.sa 1] →
       doneAs (.tside f) x s x.past { x.g with t := x.g.t.set f.ta (x.g.sreg f.sa ++ (x.g.treg f.ta).extractLsb' 0 96) }))

/-- R208, R210, R213, R405: MMA and MMAB whose checks pass take the unit at step PROG with the descriptors as they stand, and the path
steps past; while the unit is taken the path waits, with reason 2 (log 131); a failed check raises BADREG, ILLDESC or ILLFMT. Each K step adds the step's exact products, rounded, to every element
that it covers, and sets PROG; the last one frees the unit. No store of another group meets the operation's scratchpad here. -/
def Obligations.MatrixMultiplySteps : Prop :=
  (∀ (f : MtxF) (s : State) (x : Ctx), s.issuesFor x [] → ∀ p ∈ [(Instr.mma f, false), (Instr.mmab f, true)],
    (∀ cause, x.mmaCheck f p.2 = some cause → raises p.1 x s s (x.trapReq cause 0 0)) ∧
    (x.mmaCheck f p.2 = none → x.act = 0 → doneAs p.1 x s x.past x.g) ∧
    (x.mmaCheck f p.2 = none → x.act ≠ 0 → (s.core x.a.core).matrix.isSome = true → waits p.1 x s 2) ∧
    (x.mmaCheck f p.2 = none → x.act ≠ 0 → (s.core x.a.core).matrix = none → x.scratchOpen = none → stepsOn p.1 x s x.g (fun t g' =>
      t.mem = s.mem ∧ (∃ o, g'.ops.find? x.g.nextOp = some o ∧ o.kind = .matrix ∧ o.count = 2) ∧
      (t.core x.a.core).matrix = some (
        { slot := x.a.slot, group := x.a.group, op := x.g.nextOp, binary := p.2, andMode := decide (f.mod = 1), ad := f.ad, ta := x.g.treg f.ta,
          tb := x.g.treg f.tb, fmt := x.p.fmt, step := (x.t.progOf f.ad).toNat, first := (x.t.progOf f.ad).toNat,
          steps := (bits (x.g.treg f.ta).toNat 39 32 + 1) / (if p.2 then 8 else 1), word := x.p.words.headD 0, hdr := x.p.hdr, hdrPc := x.p.hdrPc,
          base := s.openChunks x.a, late := [] })))) ∧
  (∀ (core : Nat) (s : State) (m : MatOp) (t : Team), (s.core core).matrix = some m → s.team? core m.slot = some t → m.step < m.steps →
    let byte := fun a => t.scratch.getD a 0
    let ta := tileOf m.ta
    let tb := tileOf m.tb
    let n := if m.binary then 8 else 1
    let last := m.steps ≤ m.step + 1
    (∀ w ∈ ta.words byte m.step n ++ tb.words byte m.step n, w ∉ t.scratchPois) → m.base = [] → m.late = [] →
    leads (.matrixKStep core) s (fun s' =>
      (last → (s'.core core).matrix = none) ∧
      (¬last → s.dev.halt = none → (∀ a b, t.run ≠ .stopping a b) → ((s'.core core).matrix).map (fun m => m.step) = some (m.step + 1)) ∧
      ∀ u, s'.team? core m.slot = some u →
        u.progOf m.ad = (if last then 0 else BitVec.ofNat 16 (m.step + 1)) ∧
        (m.binary = true → ∀ r c, r < 64 → c < 64 → u.accWord m.ad r c = t.accWord m.ad r c +
          (if r < ta.rows ∧ c < tb.rows then BitVec.ofNat 32 (popcount256 (if m.andMode then ta.row256 byte m.step r &&& tb.row256 byte m.step c
            else ta.row256 byte m.step r ^^^ tb.row256 byte m.step c)) else 0)) ∧
        (m.binary = false → accOf m.fmt ≠ 1 → ∀ r c, r < 64 → c < 64 → u.accWord m.ad r c =
          if r < ta.rows ∧ c < tb.rows then BitVec.ofNat 32 (mmaElem (accOf m.fmt) (t.accWord m.ad r c).toNat
            (ta.values byte m.step r ((ta.escBefore byte m.step).getD r 0)) (tb.values byte m.step c ((tb.escBefore byte m.step).getD c 0)))
          else t.accWord m.ad r c) ∧
        (m.binary = false → accOf m.fmt = 1 → ∀ r c, r < 64 → c < 64 →
          u.accWord (m.ad + 1) r c ++ u.accWord m.ad r c =
            if r < ta.rows ∧ c < tb.rows then BitVec.ofNat 64 (mmaElem 1 (t.accWord (m.ad + 1) r c ++ t.accWord m.ad r c).toNat
              (ta.values byte m.step r ((ta.escBefore byte m.step).getD r 0)) (tb.values byte m.step c ((tb.escBefore byte m.step).getD c 0)))
            else t.accWord (m.ad + 1) r c ++ t.accWord m.ad r c)))

/-- R79, R98, R418 to R420: MNGI gives Sd the handle of the mangle that it installs, or bit 31 with the cause; MNGU removes one that owes
nothing, or leaves Sd to be written when it owes nothing, and gives 0; MNGF fires a free slot; MNGS reads its status. A handle that names no mangle gives 0x8000_0001, one of another
address space 0x8000_0002. R91 to R94: PASS_START begins a pass once every governor that was asked has granted it; SWITCH_IN ends it, and
each slot that it carried holds the rounded results of its rows, with the generation of its firing, and is free. -/
def Obligations.MangleInstructionsAndPasses : Prop :=
  (∀ (f : EngF) (s : State) (x : Ctx),
     (s.issuesFor x [.s f.sd 1, .s f.sa 2] →
       let va := (x.g.spair f.sa).toNat % 2 ^ 57
       let look := (s.readDesc (whoLane x.a) x.a.core x.t.asid .load x.t.sup va 64).1
       (va % 64 ≠ 0 → raises (.mngi f) x s s (x.trapReq 6 0 0)) ∧
       (x.act = 0 → va % 64 = 0 → (∀ bs, look = .ok bs → mangleDesc (leNat bs) = none → raises (.mngi f) x s s (x.trapReq 6 0 0)) ∧
         (look ≠ .wait → (∀ bs, look = .ok bs → (mangleDesc (leNat bs)).isSome = true) → doneAs (.mngi f) x s x.past x.g)) ∧
       (∀ bs s1, x.act ≠ 0 → va % 64 = 0 → s.readDesc (whoLane x.a) x.a.core x.t.asid .load x.t.sup va 64 = (.ok bs, s1) →
         (mangleDesc (leNat bs) = none → raises (.mngi f) x s s1 (x.trapReq 6 0 0)) ∧
         (∀ m data s2 sides s3 wins s4, mangleDesc (leNat bs) = some m → s1.spansOf x m.asid m.dataSpans = (.ok data, s2) →
           s2.spansOf x m.asid [(m.xbase, 2 * m.xcount)] = (.ok sides, s3) → s3.spansOf x m.asid m.winSpans = (.ok wins, s4) →
           let s5 := s4.mangleTouch (m.escWords s4 data)
           (∀ c, mngiCause s5 m x.t.sup x.t.asid wins data sides = some c → leads (.mngi f) s (fun t => t.mangles = s5.mangles ∧
             (x.now t).map (fun g => g.sreg f.sd) = some (BitVec.ofNat 32 (2 ^ 31 + c)))) ∧
           (mngiCause s5 m x.t.sup x.t.asid wins data sides = none → misplaced s5 m data = false →
             onTheMove s5 (wins ++ data ++ sides) = false →
             leads (.mngi f) s (fun t => ∃ h, h < 4096 ∧ s5.mangles.find? h = none ∧ (∀ k, k < h → (s5.mangles.find? k).isSome = true) ∧
               (x.now t).map (fun g => g.sreg f.sd) = some (BitVec.ofNat 32 h) ∧
               (t.mangles.find? h).map (fun k => (k.n, k.m, k.slots, k.pass, k.passes, k.firings)) = some (m.n, m.m, [], false, 0, 0)))))) ∧
     (s.issuesFor x [.s f.sd 1, .s f.sa 1] → x.act ≠ 0 →
       (∀ c, mangleOf s x (x.g.sreg f.sa) = .error c → doneAs (.mngu f) x s x.past (x.g.setS f.sd (BitVec.ofNat 32 c))) ∧
       (∀ h m, mangleOf s x (x.g.sreg f.sa) = .ok (h, m) → m.removing = none → m.asked = false → (∀ p ∈ m.slots, p.2.latch = none ∧ p.2.held = []) →
         windowWaits s m = false → (∀ e ∈ x.g.ops, e.2.waits ≠ [s.nextWork]) → leads (.mngu f) s (fun t =>
           t.mem = s.mem ∧ t.mangles.find? h = none ∧ ∃ g', x.now t = some g' ∧
           g'.sreg f.sd = 0 ∧ (g'.paths.find? x.a.path).map Path.view = some x.past)) ∧
       (∀ h m, mangleOf s x (x.g.sreg f.sa) = .ok (h, m) → m.removing = none → m.asked = true → (∀ p ∈ m.slots, p.2.held = []) →
         leads (.mngu f) s (fun t => t.mem = s.mem ∧ (t.mangles.find? h).map (fun k => k.removing.isSome) = some true ∧ ∃ g', x.now t = some g' ∧
           (g'.ops.find? x.g.nextOp).map (fun o => (o.kind, o.count, o.dst)) = some (.mangle, 1, .s f.sd .b32) ∧
           (∀ r, g'.sreg r = x.g.sreg r) ∧ (g'.paths.find? x.a.path).map Path.view = some x.past))) ∧
     (s.issuesFor x [.s f.sa 1, .s f.sb 1] →
       let slot := (x.g.sreg f.sb).toNat
       (∀ c, mangleOf s x (x.g.sreg f.sa) = .error c → raises (.mngf f) x s s (x.trapReq 6 0 0)) ∧
       (∀ h m, mangleOf s x (x.g.sreg f.sa) = .ok (h, m) → (m.nslots ≤ slot ∨ m.removing.isSome = true) → raises (.mngf f) x s s (x.trapReq 6 0 0)) ∧
       (∀ h m, mangleOf s x (x.g.sreg f.sa) = .ok (h, m) → x.act ≠ 0 → slot < m.nslots → m.removing = none → (m.slot slot).latch = none →
         x.g.ops = [] → s.dev.replay = none → leads (.mngf f) s (fun t => ∃ m', t.mangles.find? h = some m' ∧
           ((m'.slot slot).latch.map (fun l => (l.gen, l.bytes, l.filled, l.forced)) =
             some ((m.slot slot).gen, (m.slot slot).bytes, (m.slot slot).bytes.length, true)) ∧
           (m'.slot slot).bytes = [] ∧ (m'.slot slot).gen = ((m.slot slot).gen + 1) % 2 ^ 32 ∧
           (x.now t).bind (fun g => (g.paths.find? x.a.path).map Path.view) = some x.past))) ∧
     (s.issuesFor x [.s f.sd 4, .s f.sa 1] →
       let put := fun a b c d => doneAs (.mngs f) x s x.past
         ((((x.g.setS f.sd (BitVec.ofNat 32 a)).setS (f.sd + 1) (BitVec.ofNat 32 b)).setS (f.sd + 2) (BitVec.ofNat 32 c)).setS (f.sd + 3) (BitVec.ofNat 32 d))
       (∀ c, mangleOf s x (x.g.sreg f.sa) = .error c → put c 0 0 0) ∧
       (∀ h m, mangleOf s x (x.g.sreg f.sa) = .ok (h, m) →
         put (2 ^ 8 * m.home + 2 ^ 5 * (m.nslots - 1) + 2 ^ 4 * b2n m.mode + 2 ^ 3 * b2n m.asked + (m.batch - 1))
           (2 ^ 16 * m.mask (fun i => (m.slot i).fire) + 2 ^ 8 * m.mask (fun i => m.full i) + m.mask (fun i => (m.slot i).latch.isSome))
           m.passes m.firings)) ∧
     (s.mangles.find? (x.g.sreg f.sa).toNat = none → mangleOf s x (x.g.sreg f.sa) = .error 0x80000001) ∧
     (∀ m, s.mangles.find? (x.g.sreg f.sa).toNat = some m → (x.g.sreg f.sa).toNat < 4096 → m.asid ≠ x.t.asid → x.t.sup = false →
       mangleOf s x (x.g.sreg f.sa) = .error 0x80000002)) ∧
  (∀ (h : Nat) (s : State) (m : Mangle), s.mangles.find? h = some m →
     (m.asked = true → m.pass = false → (∀ d ∈ m.weights, (s.die d.1).grants.any (fun a => (passLeave h a).isSome) = true) →
       leads (.passStart h) s (fun t => t.mem = s.mem ∧ (t.mangles.find? h).map (fun k => (k.pass, k.badLanes)) = some (true, []))) ∧
     (∀ key, m.pass = true → m.removing = none → s.dev.halt = none → s.keys.find? m.key = some key →
       (∀ p ∈ m.lanes, s.owes p = false ∧ (s.pcore p).busy.head? = some h) → (∀ n, (s.sector n).pin = none) →
       leads (.switchIn h) s (fun t => ∃ m', t.mangles.find? h = some m' ∧ m'.pass = false ∧ m'.passes = (m.passes + 1) % 2 ^ 32 ∧
         ∀ i k l, m.slots.find? i = some k → k.latch = some l → l.carried = true →
           (m'.slot i).out = ((List.range m.m).flatMap (fun r => leBytes m.osz (m.result (s.mem.byteAt key) l r))).zipIdx.map (fun b => (b.2, b.1)) ∧
           (m'.slot i).outGen = l.gen ∧ (m'.slot i).outFilled = l.filled ∧ (m'.slot i).outMiss = l.miss ∧ (m'.slot i).outForced = l.forced)))

/-- R36 to R38, R41, R421, R422: PLAUNCH with a legal record makes its tasks, one for each index, and fills its token; a record that fails
a check raises ILLDESC. PGO ships the registers' quarters to a task for the core of its pin and holds the group; PWAIT waits for its
token. With no lane active a record's fields are looked at as well (log 132). The wait reason of a launch is read by inference (log 68). -/
def Obligations.PaddockLaunchInstructions : Prop :=
  ∀ (f : EngF) (s : State) (x : Ctx),
    (s.issuesFor x [.s f.sa 2] →
      let va := (x.g.spair f.sa).toNat % 2 ^ 57
      let ready := x.act ≠ 0 ∧ x.settled = true ∧ pinsOf s x.a.core x.a.slot = []
      let legal := fun r => bits r 303 288 ≠ 0 ∧ bits r 317 313 ≤ 16 ∧ bits r 56 0 % 16 = 0 ∧ (bits r 317 313 = 0 ∨ bits r 184 128 % 32 = 0) ∧
        bits r 248 192 % 4 = 0 ∧ bits r 511 320 = 0 ∧ bits r 255 249 = 0 ∧ bits r 191 185 = 0 ∧ bits r 127 121 = 0 ∧ bits r 63 57 = 0
      let look := (s.readDesc (whoLane x.a) x.a.core x.t.asid .load x.t.sup va 64).1
      (va % 64 ≠ 0 → raises (.plaunch f) x s s (x.trapReq 6 0 0)) ∧
      (x.act = 0 → va % 64 = 0 → (∀ bs, look = .ok bs → ¬legal (leNat bs) → raises (.plaunch f) x s s (x.trapReq 6 0 0)) ∧
        (look ≠ .wait → (∀ bs, look = .ok bs → legal (leNat bs)) → doneAs (.plaunch f) x s x.past (x.g.fill f.fn [] []))) ∧
      (x.act ≠ 0 → va % 64 = 0 → x.settled = false → waits (.plaunch f) x s 4) ∧
      ∀ bs s1, ready → va % 64 = 0 → s.readDesc (whoLane x.a) x.a.core x.t.asid .load x.t.sup va 64 = (.ok bs, s1) →
        let r := leNat bs
        let n := bits r 303 288
        (¬legal r → raises (.plaunch f) x s s1 (x.trapReq 6 0 0)) ∧
        (legal r → (∀ k, s1.nextTask ≤ k → s1.tasks.find? k = none) → leads (.plaunch f) s (fun t =>
          (x.now t).map (fun g => (g.token f.fn, (g.paths.find? x.a.path).map Path.view)) = some (.tasks s1.nextWork, some x.past) ∧
          t.workDone s1.nextWork = false ∧
          ∀ i, i < n → (t.tasks.find? (s1.nextTask + i)).map (fun k =>
              (k.st, k.t, k.entry, k.nbund, k.base, k.stride, k.argva, k.argn, k.compl, k.prio, k.asid, k.work)) =
            some (.waiting, i, bits r 56 0, bits r 312 304, bits r 120 64, bits r 287 256, bits r 184 128, bits r 317 313, bits r 248 192, bits r 319 318,
              x.t.asid, s1.nextWork)))) ∧
    (s.issuesFor x ((List.range (f.n4 + 1)).map (fun j => Reg.v (f.x8 + j) 1) ++ [.s f.sa 2, .s f.sb 4]) →
      let entry := (x.g.spair f.sb).toNat % 2 ^ 57
      let nb := (x.g.sreg (f.sb + 2)).toNat
      let pin := (x.g.spair f.sa).toNat % 2 ^ 57
      ((entry % 16 ≠ 0 ∨ 2 ^ 9 ≤ nb) → raises (.pgo f) x s s (x.trapReq 6 0 0)) ∧
      (entry % 16 = 0 → nb < 2 ^ 9 → x.act = 0 → doneAs (.pgo f) x s x.past x.g) ∧
      (∀ xl s1, entry % 16 = 0 → nb < 2 ^ 9 → x.act ≠ 0 → s.xlate (whoLane x.a) x.a.core x.t.asid pin .load x.t.sup false = (.ok xl, s1) →
        (pinCore x.a.core xl.pa = none → raises (.pgo f) x s s1 (x.trapReq 0x11 0 0)) ∧
        (∀ p s2, pinCore x.a.core xl.pa = some p → s1.codeFault x entry (16 * (nb + 1)) = (none, s2) → x.landed = true →
          leads (.pgo f) s (fun t =>
            (x.now t).map (fun g => (g.pgo, (g.paths.find? x.a.path).map Path.view)) = some (some s2.nextTask, some x.past) ∧
            (t.tasks.find? s2.nextTask).map (fun k => (k.st, k.pgo, k.site, k.pcore, k.entry, k.nbund, k.lanes, k.shipped)) =
              some (.waiting, true, x.a, p, entry, nb, x.act,
                (List.range (f.n4 + 1)).map (fun j => (x.g.vreg (f.x8 + j)).extractLsb' (256 * f.n2) 256)))))) ∧
    (s.issuesFor x [] →
      (s.tokenDone x.g f.fn = true → doneAs (.pwait f) x s x.past x.g) ∧
      (s.tokenDone x.g f.fn = false → waits (.pwait f) x s 10))

/-- R262 to R264, R267, R423: LAUNCH with a legal record, arguments and schedule submits a grid at no higher PRIO than its own and fills
its token. A launch queue takes its record at HEAD in the same way, at no higher PRIO than PMAX; a record that cannot be read sets ERR, one
on a frozen page waits, a bad one sets ERR and is passed over. A TAIL write beyond the ring sets ERR; clearing ERR changes that bit alone. A launch-queue record in a
hole or poisoned, and the look at a record with no lane active, are the model's reading (logs 70 and 132). -/
def Obligations.GridLaunchAndQueues : Prop :=
  (∀ (f : EngF) (s : State) (x : Ctx), s.issuesFor x [.s f.sa 2] →
    let va := (x.g.spair f.sa).toNat % 2 ^ 57
    let ready := x.act ≠ 0 ∧ x.settled = true ∧ pinsOf s x.a.core x.a.slot = []
    let read := fun (s : State) a n => s.readDesc (whoLane x.a) x.a.core x.t.asid .load x.t.sup a n
    let legal := fun (s : State) bs => (launchRecord (leNat bs) s.leastCacheMin x.t.asid x.t.sup).isSome = true
    (va % 128 ≠ 0 → raises (.launch f) x s s (x.trapReq 6 0 0)) ∧
    (x.act = 0 → va % 128 = 0 → (∀ bs, (read s va 128).1 = .ok bs → ¬legal s bs → raises (.launch f) x s s (x.trapReq 6 0 0)) ∧
      ((read s va 128).1 ≠ .wait → (∀ bs, (read s va 128).1 = .ok bs → legal s bs) → doneAs (.launch f) x s x.past (x.g.fill f.fn [] []))) ∧
    ∀ bs s1, ready → va % 128 = 0 → read s va 128 = (.ok bs, s1) →
      (launchRecord (leNat bs) s1.leastCacheMin x.t.asid x.t.sup = none → raises (.launch f) x s s1 (x.trapReq 6 0 0)) ∧
      ∀ g argva argn csched csn args s2 sched s3 full, launchRecord (leNat bs) s1.leastCacheMin x.t.asid x.t.sup = some (g, argva, argn, csched, csn) →
        read s1 argva (4 * argn) = (.ok args, s2) → read s2 csched (32 * csn) = (.ok sched, s3) → g.withData args sched argn csn = some full →
        leads (.launch f) s (fun t =>
          (x.now t).map (fun g => (g.token f.fn, (g.paths.find? x.a.path).map Path.view)) = some (.filled [] [s3.nextWork], some x.past) ∧
          t.workDone s3.nextWork = false ∧
          (t.grids.find? s3.nextGrid).map (fun k => (k.entry, k.args, k.sched, k.prio, k.work, k.waiting.length)) =
            some (full.entry, full.args, full.sched, min full.prio x.grid.prio, s3.nextWork, full.nclu))) ∧
  (∀ (q : Nat) (s : State),
    let ctl := (s.queue q).ctl.toNat
    let head := bits (s.queue q).ptr.toNat 15 0
    let tail := bits (s.queue q).ptr.toNat 47 32
    let asid := bits ctl 63 48
    let sup := supOf s asid
    let w : Who := { agent := 7, die := 0, core := 0, slot := 0, group := 0, id := 0 }
    let va := (bits (s.queue q).base.toNat 56 7 * 128 + head % 2 ^ bits ctl 39 36 * 128) % 2 ^ 57
    let live := s.dev.devstat.getLsbD 0 = true ∧ s.dev.halt = none ∧ bit ctl 32 = true ∧ bit ctl 33 = false ∧ q < 256 ∧ tail ≠ head
    let headOf := fun (t : State) => bits (t.queue q).ptr.toNat 15 0
    let err := fun (t : State) => (t.queue q).ctl.getLsbD 33
    (¬live → leads (.launchQueueRead q) s (fun t => t = s)) ∧
    (∀ s1, live → s.queueRead w asid sup 80 va 128 = (.wait, s1) → leads (.launchQueueRead q) s (fun t => t = s1)) ∧
    (∀ r s1, live → s.queueRead w asid sup 80 va 128 = (r, s1) → (∃ kind a, r = .fault kind a ∨ r = .bad kind a) →
      leads (.launchQueueRead q) s (fun t => err t = true ∧ t.queue q = { s1.queue q with ctl := (t.queue q).ctl })) ∧
    (∀ bs s1, live → s.queueRead w asid sup 80 va 128 = (.ok bs, s1) → s1.queues = s.queues → launchRecord (leNat bs) s1.leastCacheMin asid sup = none →
      leads (.launchQueueRead q) s (fun t => err t = true ∧ headOf t = (head + 1) % 2 ^ 16 ∧ t.grids = s1.grids)) ∧
    (∀ bs s1 g argva argn csched csn args s2 sched s3 full, live → s.queueRead w asid sup 80 va 128 = (.ok bs, s1) →
      launchRecord (leNat bs) s1.leastCacheMin asid sup = some (g, argva, argn, csched, csn) → s1.queueRead w asid sup 80 argva (4 * argn) = (.ok args, s2) →
      s2.queueRead w asid sup 80 csched (32 * csn) = (.ok sched, s3) → g.withData args sched argn csn = some full → s3.queues = s.queues →
      leads (.launchQueueRead q) s (fun t => headOf t = (head + 1) % 2 ^ 16 ∧ err t = false ∧
        (t.grids.find? s3.nextGrid).map (fun k => (k.entry, k.prio)) = some (full.entry, min full.prio (bits ctl 35 34)))) ∧
    (∀ v, leads (.lqptrTailWrite q v) s (fun t => headOf t = head ∧
      if 2 ^ bits ctl 39 36 < (v % 2 ^ 16 + 2 ^ 16 - head) % 2 ^ 16 then err t = true else bits (t.queue q).ptr.toNat 47 32 = v % 2 ^ 16)) ∧
    leads (.lqctlErrClear q) s (fun t => (t.queue q).ptr = (s.queue q).ptr ∧ ∀ b, (t.queue q).ctl.getLsbD b = ((s.queue q).ctl.getLsbD b && decide (b ≠ 33))))

/-- R161, R242, R264, R268, R269: CLUSTER_ADMIT places every team of a cluster on its rectangle in one step, each group with one path of
all lanes at the entry with FMT0 and its arguments; the counts of waiting saturate on their limits, and the second one requests a
pre-emption. -/
def Obligations.ClusterAdmission : Prop :=
  (∀ (grid clu die row col a b : Nat) (s : State) (g : Grid), s.grid? grid = some g → g.waiting.find? clu = some (a, b, false) →
    s.dev.halt = none → s.dev.ckTaking = false → s.dev.replay = none → s.rectRoom g die row col = true → s.mayAdmit grid clu die g = true →
    s.affAgrees g die row = true →
    (∀ r, r < g.cw * g.ch → ((s.core (rectCore g die row col r)).padBase g.scratch).isSome = true) → g.sched = [] →
    leads (.clusterAdmit grid clu die row col) s (fun t =>
      (t.grid? grid).map (fun h => h.waiting) = some (g.waiting.erase clu) ∧
      ∀ r, r < g.cw * g.ch → ∃ slot u, s.team? (rectCore g die row col r) slot = none ∧ t.team? (rectCore g die row col r) slot = some u ∧
        (u.grid, u.cluster, u.rank, u.asid, u.sup, u.scratchSize, u.run) = (grid, clu, r, g.asid, g.sup, g.scratch, .running) ∧
        ∀ k, k < g.g → ∃ grp, u.groups.find? k = some grp ∧ grp.quarter = k % 4 ∧ grp.part = g.log2p ∧ grp.exited = 0 ∧ grp.nest = 0 ∧
          grp.paths.map (fun p => p.2.view) = [(BitVec.allOnes 32, g.entry, g.fmt0)] ∧ ∀ i, grp.sreg i = g.args.getD i 0)) ∧
  (∀ (die grid clu a b : Nat) (r : Bool) (s : State) (g : Grid), s.grid? grid = some g → g.waiting.find? clu = some (a, b, r) →
    leads (.admissionWaitLimit die grid clu) s (fun t => t.mem = s.mem ∧ t.cores = s.cores ∧
      ((t.grid? grid).bind (fun h => h.waiting.find? clu)) = some (if die = 0 then (max a (2 ^ 20), b, r) else (a, max b (2 ^ 20), r)))) ∧
  (∀ (die grid clu vg vc : Nat) (s : State) (g v : Grid) (w : Nat × Nat × Bool), s.grid? grid = some g → s.grid? vg = some v → g.waiting.find? clu = some w →
    2 ^ 20 ≤ (if die = 0 then w.1 else w.2.1) → v.prio < g.prio → s.dev.halt = none →
    (∃ c ∈ clusterSites s vg vc, dieOf c.1 = die ∧ s.holdsNeeded g c.1 = true) →
    leads (.admissionPreemptLimit die grid clu vg vc) s (fun t => t.mem = s.mem ∧ ∀ c ∈ clusterSites s vg vc, ∀ u, s.team? c.1 c.2 = some u →
      (t.team? c.1 c.2).map (fun y => y.run) = some (if u.run = .running then .stopping 0 1 else u.run)))

/-- R265, R270, R292, R293: the completion of a grid whose teams have all ended takes the grid away; moving a cluster asks its running
teams to stop; a saved team whose routines have ended leaves its slot, and its cluster waits to be restored; a cluster that does not
come to a safe point in time is halted. -/
def Obligations.GridEndAndPreemption : Prop :=
  (∀ (grid : Nat) (s : State) (g : Grid), s.grid? grid = some g → g.teamsLeft = 0 → g.addParked = false → s.dev.halt = none →
    (g.compl = 0 → leads (.gridCompletionAdd grid) s (fun t => t.mem = s.mem ∧ t.grid? grid = none ∧ (s.works.getD g.work 0 ≤ 1 → t.workDone g.work = true))) ∧
    (∀ s1, g.compl ≠ 0 → s.completionAdd { agent := 7, die := dieOf g.lastCore, core := g.lastCore, slot := 0, group := 0, id := 0 } g.lastCore g.asid g.compl g.sup
        (if g.forced then 0x10000 else 1) g.work ∈ [.done s1, .sent s1] →
      leads (.gridCompletionAdd grid) s (fun t => t.mem = s1.mem ∧ t.grid? grid = none))) ∧
  (∀ (grid clu : Nat) (s : State), s.dev.halt = none → leads (.clusterMove grid clu) s (fun t => t.mem = s.mem ∧
    ∀ c ∈ clusterSites s grid clu, ∀ u, s.team? c.1 c.2 = some u → (t.team? c.1 c.2).map (fun y => y.run) = some (if u.run = .running then .stopping 0 2 else u.run))) ∧
  (∀ (grid clu c sl r : Nat) (s : State) (u : Team), clusterSites s grid clu = [(c, sl)] → s.dev.halt = none → s.team? c sl = some u → u.run = .saving r →
    u.groups.all (fun g => g.2.routinesDone) = true → s.quiet c sl u = true → s.cores.rising = true → (s.core c).slots.rising = true →
    leads (.preemptSave grid clu) s (fun t => t.team? c sl = none ∧
      (∀ g, s.grid? grid = some g → g.saved.any (fun k => k.2.cluster = clu) = true → (t.grid? grid).bind (fun h => h.waiting.find? clu) = some (0, 0, true)))) ∧
  (∀ (grid clu : Nat) (s : State),
    (∃ c ∈ clusterSites s grid clu, ∃ u n r, s.team? c.1 c.2 = some u ∧ u.run = .stopping n r ∧ (s.die (dieOf c.1)).prelim.toNat ≤ n) →
    (∀ c ∈ clusterSites s grid clu, ∀ u, s.team? c.1 c.2 = some u → ∀ a b g pc, u.run ≠ .halting a b g pc) →
    leads (.preemptLimitExpiry grid clu) s (fun t => ∀ c ∈ clusterSites s grid clu, halted (t.team? c.1 c.2)))

/-- R272, R273, R424, R425: LEAVE joins its governor's queue, unless the group has leave or has asked; the oldest request is granted once
its weight fits the budget; a granted hint ends after 2^16 cycles. PLACE keeps an affinity hint; that it declines the hints PAGE and COLD
is the model's choice, which R425 leaves to the device (logs 4 and 22). -/
def Obligations.LeaveAndPlaceHints : Prop :=
  (∀ (f : EngF) (s : State) (x : Ctx), s.issuesFor x [] →
    (x.g.leave ≠ .none → doneAs (.leave f) x s x.past x.g) ∧
    (x.g.leave = .none → stepsOn (.leave f) x s { x.g with leave := .asked f.m3 } (fun t _ => t.mem = s.mem ∧
      (t.die (dieOf x.a.core)).asks = (s.die (dieOf x.a.core)).asks ++ [.hint x.a.core x.a.slot x.a.group f.m3 (if f.m3 < 4 then 5 + f.m3 else 4)]))) ∧
  (∀ (f : EngF) (s : State) (x : Ctx), s.issuesFor x [.s f.sa 2, .s f.sb 1] →
    let hint := (x.g.sreg f.sb).toNat
    let va := (x.g.spair f.sa).toNat % 2 ^ 57
    (hint ≠ 2 ^ 30 → doneAs (.place f) x s x.past x.g) ∧
    (∀ e, hint = 2 ^ 30 → translate s x.t.asid va .load x.t.sup false = .fault e → doneAs (.place f) x s x.past x.g) ∧
    (∀ xl, hint = 2 ^ 30 → translate s x.t.asid va .load x.t.sup false = .ok xl → stepsOn (.place f) x s x.g (fun t _ => t.mem = s.mem ∧
      t.grid? x.t.grid = some { x.grid with aff := va }))) ∧
  (∀ (die : Nat) (s : State) (a : LeaveAsk) (rest : List LeaveAsk), (s.die die).asks = a :: rest →
    ((s.die die).budget < (s.die die).inUse + a.weight → leads (.leaveGrant die) s (fun t => t = s)) ∧
    ((s.die die).inUse + a.weight ≤ (s.die die).budget → leads (.leaveGrant die) s (fun t => t.mem = s.mem ∧
      (t.die die).asks = rest ∧ (t.die die).grants = (s.die die).grants ++ [a] ∧ (t.die die).inUse = (s.die die).inUse + a.weight ∧
      (∀ c sl g cls w grp, a = .hint c sl g cls w → s.group? c sl g = some grp → (t.group? c sl g).map (fun k => k.leave) = some (.granted cls (s.core c).clock)) ∧
      (∀ h w m, a = .pass h w → s.mangles.find? h = some m →
        (∀ d ∈ m.weights, d.1 = die ∨ (s.die d.1).grants.any (fun a => (passLeave h a).isSome) = true) → ∀ p ∈ m.lanes, h ∈ (t.pcore p).busy)))) ∧
  (∀ (core slot group cls at_ : Nat) (s : State) (g : Group), s.group? core slot group = some g → g.leave = .granted cls at_ → at_ + 2 ^ 16 ≤ (s.core core).clock →
    leads (.leaveGrantExpiry core slot group) s (fun t => t.mem = s.mem ∧ (t.group? core slot group).map (fun k => k.leave) = some .none ∧
      ∀ c w, LeaveAsk.hint core slot group c w ∉ (t.die (dieOf core)).grants))

/-- R260, R271, R274: a spin mark clears after 4,096 cycles; a group that has been ready for 64 cycles counts as starving; the clock of a
core moves on by one with each count: that it counts these is the model's choice (log 67). -/
def Obligations.SchedulingMeasures : Prop :=
  (∀ (core slot group path at_ : Nat) (n : List Nat) (s : State) (g : Group) (p : Path), s.group? core slot group = some g → g.paths.find? path = some p →
    p.spin.mark = some (at_, n) → at_ + 4096 ≤ (s.core core).clock → leads (.spinMarkTimeout core slot group path) s (fun t => t.mem = s.mem ∧
      (t.group? core slot group).bind (fun g => (g.paths.find? path).map (fun p => (p.spin.mark, p.view))) = some (none, p.view))) ∧
  (∀ (core slot group : Nat) (s : State) (g : Group), s.group? core slot group = some g → 64 ≤ g.readyFor → g.starvingSince = none →
    leads (.groupStarving core slot group) s (fun t => t.group? core slot group = some { g with starvingSince := some ((s.core core).clock - (g.readyFor - 64)) })) ∧
  (∀ (core : Nat) (s : State), leads (.eligibilityCount core) s (fun t => t.mem = s.mem ∧ (t.core core).clock = (s.core core).clock + 1 ∧
    ∀ c, c ≠ core → t.core c = s.core c))

/-- R326, R417: at user level each instruction of the supervisor raises ILLOP with DETAIL 5 and has no other effect. -/
def Obligations.SupervisorInstructionsTrapAtUserLevel : Prop :=
  ∀ (s : State) (x : Ctx) (f : EngF), s.ctx? = some x → x.t.sup = false →
    ∀ i ∈ [Instr.csrr f, .csrw f, .tlbinvAll f, .tlbinvAsid f, .tlbinvPage f, .fltrplAll f, .haltbc f], raises i x s s (x.trapReq 4 5 0)

/-- R277, R426: ERET in a handler takes the path to the PC of its frame with the frame's FMT and NEST and clears INTRAP; after BRK an
unchanged PC goes past the instruction; a changed PC must name a clause header, and the team is halted with BADRESUME where it does not.
Outside a handler and a routine it raises ILLOP. That an unchanged PC is not checked for a header is the model's reading (log 43). -/
def Obligations.EretReturnsFromHandler : Prop :=
  ∀ (f : EngF) (s : State) (x : Ctx), s.issuesFor x [] → x.g.routine = none →
    (x.g.handling = none → raises (.eret f) x s s (x.trapReq 4 5 0)) ∧
    (∀ h, x.g.handling = some h → (∀ w, h.frame / 32 ≤ w → w ≤ (h.frame + 63) / 32 → w ∉ x.t.scratchPois) →
      let byte := fun a n => leNat (x.t.bytesAt (h.frame + a) n)
      let back := fun (pc : PcVal) (words : List W64) => ∃ t g', exec (.eret f) s = .next t ∧ x.now t = some g' ∧
        g'.gstat = x.g.gstat &&& 0x7FFFFFFF ∧ g'.v = x.g.v ∧ g'.s = x.g.s ∧ g'.k = x.g.k ∧ g'.part = x.g.part ∧ g'.flags = x.g.flags ∧
        (∀ lane, lane < 32 → nestOf g'.nest lane = if x.p.lanes.getLsbD lane then nestOf (BitVec.ofNat 128 (byte 32 16)) lane else nestOf x.g.nest lane) ∧
        (g'.paths.find? x.a.path).map (fun p => p.words) = some words ∧
        ∀ n, (g'.paths.find? n).map Path.view =
          if n = x.a.path then some (x.p.lanes, pc, BitVec.ofNat 32 (byte 24 4 % 2 ^ 17)) else (x.g.paths.find? n).map Path.view
      (byte 0 8 = h.pc.toNat → h.debug = 1 → back (h.pc + 8) (h.words.drop 1)) ∧
      (byte 0 8 = h.pc.toNat → h.debug ≠ 1 → back h.pc h.words) ∧
      (∀ hb s1, byte 0 8 ≠ h.pc.toNat → byte 0 8 % 8 = 0 → byte 0 8 < 2 ^ 57 →
        s.readDesc (whoLane x.a) x.a.core x.t.asid .fetch x.t.sup (byte 0 8) 8 = (.ok hb, s1) → x.now s1 = some x.g → bits (leNat hb) 63 56 = 0xC5 →
        back (BitVec.ofNat 57 (byte 0 8)) []) ∧
      ((∀ a b g pc, x.t.run ≠ .halting a b g pc) → byte 0 8 ≠ h.pc.toNat →
        let wrong := leads (.eret f) s (fun t => halted (t.team? x.a.core x.a.slot) ∧
          ∀ v, t.team? x.a.core x.a.slot = some v → v.run = .halting 4 0 x.a.group x.p.pc.toNat)
        ((byte 0 8 % 8 ≠ 0 ∨ 2 ^ 57 ≤ byte 0 8) → wrong) ∧
        (∀ hb s1, byte 0 8 % 8 = 0 → byte 0 8 < 2 ^ 57 →
          s.readDesc (whoLane x.a) x.a.core x.t.asid .fetch x.t.sup (byte 0 8) 8 = (.ok hb, s1) → s1.team? x.a.core x.a.slot = some x.t →
          bits (leNat hb) 63 56 ≠ 0xC5 → wrong)))

/-- R427, R428: SYSCALL puts its record in the call ring and holds the group with HELD set, or answers all ones in S0 where the ring is
off or full; SCRESP gives a held group its answer and lets it go. That SCRESP is not checked against the die is the model's reading (log
76). -/
def Obligations.SupervisorCalls : Prop :=
  (∀ (f : EngF) (s : State) (x : Ctx), s.issuesFor x [.s 0 2, .s 2 2] →
    let die := dieOf x.a.core
    let ctl := (s.die die).scqCtl.toNat
    let tail := bits (s.die die).scqPtr.toNat 15 0
    let head := bits (s.die die).scqPtr.toNat 47 32
    let full := ringSize ctl ≤ (tail + 2 ^ 16 - head) % 2 ^ 16
    let record := recordWrite (s.changed x.a) (whoLane x.a) (bits ctl 56 5 * 32 + tail % ringSize ctl * 32) (callRecord s x f.x8)
    ((bit ctl 0 = false ∨ full ∨ record.1 = false) → doneAs (.syscall f) x s x.past (x.g.setS 0 0xFFFFFFFF)) ∧
    (∀ s1, bit ctl 0 = true → ¬full → record = (true, s1) →
      stepsOn (.syscall f) x s { x.g with hold := some .syscall, gstat := x.g.gstat ||| 0x40000000 } (fun t _ => t.mem = s1.mem ∧
        bits (t.die die).scqPtr.toNat 15 0 = (tail + 1) % 2 ^ 16 ∧ bits (t.die die).scqPtr.toNat 47 32 = head))) ∧
  (∀ (die v : Nat) (s : State) (g : Group), s.group? (bits v 31 24) (bits v 23 18) (bits v 17 13) = some g →
    leads (.screspWrite die v) s (fun t => t.mem = s.mem ∧ t.group? (bits v 31 24) (bits v 23 18) (bits v 17 13) =
      some (if g.hold = some .syscall then { g.setS 0 (BitVec.ofNat 32 (bits v 63 32)) with hold := none, gstat := g.gstat &&& 0xBFFFFFFF }
        else if g.hold = some .both then { g.setS 0 (BitVec.ofNat 32 (bits v 63 32)) with hold := some .machineCheck } else g)))

/-- R281, R293, R298, R429: CSRR and CSRW reach the register that their index names; what CSRW writes to a register, CSRR reads back, in
the bits that the register has. TEAMCTL lets the groups of a team go on or halts it; a device register that is written reads back, and
a write off the 8-byte grid, or of the mailbox while it is busy, does nothing. -/
def Obligations.ControlRegisterAccess : Prop :=
  (∀ (f : EngF) (s : State) (x : Ctx), x.t.sup = true →
    let idx := 16 * f.x8 + f.n4
    let v := x.g.spair f.sa
    (s.issuesFor x [.s f.sd 2] → ∃ t g', exec (.csrr f) s = .next t ∧ Retires false x s t x.past (x.g.setPair f.sd (csrRead s x.a.core idx)) g') ∧
    (s.issuesFor x [.s f.sa 2] → ∃ t, exec (.csrw f) s = .next t) ∧
    (s.issuesFor x [.s f.sa 2] → idx ∉ [0x318, 0x342] → ∃ t g', exec (.csrw f) s = .next t ∧ x.now t = some g' ∧ g'.kept = x.g.kept ∧
      (∀ n, (g'.paths.find? n).map Path.view = if n = x.a.path then some x.past else (x.g.paths.find? n).map Path.view) ∧ t.mem = s.mem ∧
      (idx = 0x319 → csrRead t x.a.core idx = v) ∧
      (0x320 ≤ idx → idx < 0x330 → csrRead t x.a.core idx = v &&& 0x8000FFFF00000FFF) ∧
      (idx = 0x331 → csrRead t x.a.core idx = (csrRead s x.a.core idx &&& ~~~0x01FFFFFFFFFFFFC0) ||| (v &&& 0x01FFFFFFFFFFFFC0)) ∧
      (idx ∈ [0x332, 0x341] → csrRead t x.a.core idx = (csrRead s x.a.core idx &&& ~~~0x0000FFFF00000000) ||| (v &&& 0x0000FFFF00000000)) ∧
      (idx = 0x340 → csrRead t x.a.core idx = (csrRead s x.a.core idx &&& ~~~0x01FFFFFFFFFFFFFF) ||| (v &&& 0x01FFFFFFFFFFFFFF)) ∧
      (idx = 0x311 → (t.core x.a.core).cacheMin = max 1 (bits v.toNat 35 32)) ∧
      (idx = 0x350 → (t.die (dieOf x.a.core)).budget = max 64 (bits v.toNat 15 0)))) ∧
  (∀ (core slot : Nat) (s : State), (∃ t, exec (.teamctlResume core slot) s = .next t) ∧ (∃ t, exec (.teamctlKill core slot) s = .next t)) ∧
  (∀ (core slot : Nat) (s : State) (u : Team), s.team? core slot = some u →
    (∃ t, exec (.teamctlResume core slot) s = .next t ∧ t.mem = s.mem ∧ ∀ g grp, u.groups.find? g = some grp →
      (grp.paths ≠ [] ∨ grp.ops ≠ [] ∨ grp.pgo.isSome = true) → t.group? core slot g =
      some (if grp.hold = some .machineCheck then { grp with hold := none, gstat := grp.gstat &&& 0xBFFFFFFF }
        else if grp.hold = some .both then { grp with hold := some .syscall } else grp)) ∧
    ((∀ a b g pc, u.run ≠ .halting a b g pc) → ∃ t, exec (.teamctlKill core slot) s = .next t ∧ halted (t.team? core slot) ∧
      ((∀ g ∈ u.groups, ∀ o ∈ g.2.ops, o.2.remains = false) → (∀ p ∈ s.pubs, ¬(p.2.core = core ∧ p.2.slot = slot)) → t.team? core slot = none))) ∧
  (∀ (off v : Nat) (s : State), v < 2 ^ 64 →
    (∃ t, exec (.registerWrite off v) s = .next t) ∧
    (off % 8 ≠ 0 → exec (.registerWrite off v) s = .next s ∧ regRead s off = 0) ∧
    (off = 0x10 → ∃ t, exec (.registerWrite off v) s = .next t ∧ t.mem = s.mem ∧ regRead t off =
      (regRead s off &&& ~~~0x000FFFFFFFF001FF) ||| (BitVec.ofNat 64 v &&& 0x000FFFFFFFF001FF)) ∧
    (0x200 ≤ off → off < 0x300 → off % 8 = 0 →
      (s.dev.mbxCtl.getLsbD 63 = true → exec (.registerWrite off v) s = .next s) ∧
      (s.dev.mbxCtl.getLsbD 63 = false → ∃ t, exec (.registerWrite off v) s = .next t ∧ t.mem = s.mem ∧ regRead t off = BitVec.ofNat 64 v)) ∧
    (off % 8 = 0 → (0x30000 ≤ off ∧ off < 0x30080 ∨ 0x40000 ≤ off ∧ off < 0x42000) →
      ∃ t, exec (.registerWrite off v) s = .next t ∧ t.mem = s.mem ∧ regRead t off = BitVec.ofNat 64 v) ∧
    (0x10000 ≤ off → off < 0x10200 → off % 0x100 = 0 → ∃ t, exec (.registerWrite off v) s = .next t ∧ t.mem = s.mem ∧ regRead t off =
      (regRead s off &&& ~~~0x01FFFFFFFFFFFFE0) ||| (BitVec.ofNat 64 v &&& 0x01FFFFFFFFFFFFE0)))

/-- R287, R310, R430, R431: TLBINV and FLTRPL are broadcast to their units while the path waits with its PC past them; a unit that acts
drops what they name and is left out of the rest, and the last one ends the broadcast and the path's wait. That a unit acts after those
whose entries it fills its own from is the model's reading (log 136). A fault replay takes each core
and stack after the L2 TLB of its die. HALTBC halts the device with the cause of its record, once. -/
def Obligations.SupervisorBroadcasts : Prop :=
  (∀ (f : EngF) (s : State) (x : Ctx), x.t.sup = true →
    let cast := fun i what n => ∃ t, exec i s = .next t ∧ t.mem = s.mem ∧ t.waitedWork x.a = some s.nextWork ∧ t.workDone s.nextWork = false ∧
      (t.bcasts.find? s.nextBcast).map (fun b => (b.what, b.left, b.work)) = some (what, List.range n, s.nextWork) ∧
      (x.now t).bind (fun g => (g.paths.find? x.a.path).map Path.view) = some x.past
    let asid := (x.g.sreg f.sa).toNat % 2 ^ 16
    let w : Who := { agent := 0, die := dieOf x.a.core, core := x.a.core, slot := x.a.slot, group := x.a.group, id := 0 }
    (s.issuesFor x [] → cast (.tlbinvAll f) (.tlbinv 0 0 0) 716 ∧ cast (.fltrplAll f) .replay 202) ∧
    (s.issuesFor x [.s f.sa 1] → cast (.tlbinvAsid f) (.tlbinv 1 asid 0) 716) ∧
    (s.issuesFor x [.s f.sa 1, .s f.sb 2] → cast (.tlbinvPage f) (.tlbinv 2 asid ((x.g.spair f.sb).toNat % 2 ^ 57)) 716) ∧
    (s.issuesFor x [] → (s.dev.halt.isSome = true → exec (.haltbc f) s = .next s) ∧
      (s.dev.halt = none → ∃ t, exec (.haltbc f) s = .next t ∧ t.dev.halt = some (BitVec.ofNat 64 (svHeader (s.die (dieOf x.a.core)).seq 3 w))))) ∧
  (∀ (bc unit mode asid va : Nat) (s : State) (b : Bcast), s.bcasts.find? bc = some b → b.what = .tlbinv mode asid va → unit ∈ b.left →
    let covers := fun (e : TlbEntry) => mode = 0 ∨ (e.asid = asid ∧ (mode = 1 ∨ e.vpn = va / 2 ^ e.lg))
    let free := b.waits = [] ∧ s.engineWaits mode asid va = [] ∧ (unit < 192 → s.invWaits unit mode asid va = []) ∧ (194 ≤ unit → unit < 706 → s.padWaits (unit - 194) mode asid va = [])
    (invBehind b.left unit = true → ∃ t, exec (.tlbinvUnitAct bc unit) s = .next t ∧ t.mem = s.mem ∧ t.cores = s.cores ∧ t.dies = s.dies ∧
      t.pcores = s.pcores ∧ (t.bcasts.find? bc).map (fun k => k.left) = some b.left) ∧
    (invBehind b.left unit = false → ∃ t, exec (.tlbinvUnitAct bc unit) s = .next t ∧ t.mem = s.mem ∧
      (∀ k, t.bcasts.find? bc = some k → k.left = b.left.filter (fun u => u ≠ unit)) ∧
      ((∃ u ∈ b.left, u ≠ unit) → (t.bcasts.find? bc).isSome = true ∧ t.works = s.works) ∧
      ((∀ u ∈ b.left, u = unit) → free → t.bcasts.find? bc = none ∧ (s.works.getD b.work 0 ≤ 1 → t.workDone b.work = true)) ∧
      (unit < 192 → ∀ e, e ∈ (t.core unit).tlb ↔ e ∈ (s.core unit).tlb ∧ ¬covers e) ∧
      (192 ≤ unit → unit < 194 → ∀ e, e ∈ (t.die (unit - 192)).tlb ↔ e ∈ (s.die (unit - 192)).tlb ∧ ¬covers e) ∧
      (194 ≤ unit → unit < 706 → ∀ e, e ∈ (t.pcore (unit - 194)).tlb ↔ e ∈ (s.pcore (unit - 194)).tlb ∧ ¬covers e))) ∧
  (∀ (bc unit : Nat) (s : State) (b : Bcast), s.bcasts.find? bc = some b → b.what = .replay → unit ∈ b.left →
    let die := if unit < 192 then unit / 96 else if unit < 200 then dieOfStack (unit - 192) else unit - 200
    (unit < 200 → 200 + die ∈ b.left → exec (.fltrplUnitAct bc unit) s = .next s) ∧
    let idle := ∀ tm ∈ (s.core unit).slots, ∀ g ∈ tm.2.groups, ∀ o ∈ g.2.ops, ∀ p ∈ o.2.parts, p.st ≠ .parked
    ((unit < 200 → 200 + die ∉ b.left) → ∃ t, exec (.fltrplUnitAct bc unit) s = .next t ∧ ((unit < 192 → idle) → t.mem = s.mem) ∧
      (∀ k, t.bcasts.find? bc = some k → k.left = b.left.filter (fun u => u ≠ unit)) ∧
      ((∃ u ∈ b.left, u ≠ unit) → (t.bcasts.find? bc).isSome = true) ∧
      ((∀ u ∈ b.left, u = unit) → t.bcasts.find? bc = none) ∧
      (unit < 192 → idle → (t.core unit).faults = [] ∧ (t.core unit).dropped = false) ∧
      (192 ≤ unit → unit < 200 → (t.stack (unit - 192)).faults = [] ∧ (t.stack (unit - 192)).dropped = false) ∧
      (200 ≤ unit → (t.die die).pending = [])))

/-- R37 to R47, R51, R52, R74, R273: a waiting task takes a slot of its core, which asks for leave; the best ready one is loaded and
starts with its arguments; it is saved at a bundle boundary where a better one is there or its ASID is suspended, and resumes with its
registers. A bundle that is illegal, beyond the end, or consumes poison ends the task in error; one whose accesses have performed
writes its registers and goes on or ends; one that faults, or whose pages a mangle has taken before it performs, parks the task, which the
supervisor may kill. The order of a bundle's checks and of its faults, and a PNOP with a TY, are the model's reading (logs 98, 101 and 102). An ended task adds to its
completion word; a PGO task returns its words to its group's lanes. -/
def Obligations.PaddockTasks : Prop :=
  (∀ (s : State) (n : Nat) (t : Task), s.tasks.find? n = some t →
    let shows := fun (u : State) => u.tasks.find? n
    let bad : TaskSt := if t.pgo then .returning 2 else .ending 1
    let free := s.mayLoad n t = true ∧ t.got = [] ∧ t.sent = false ∧ t.forced = false
    let loaded := fun (ws : List (Nat × Bool)) (k : Task) => ∀ i, i ≤ t.nbund → k.code.find? i = ws[i]?.map (fun w => BitVec.ofNat 128 w.1)
    let code := t.codeWords 0 (t.nbund + 1)
    let asked := fun (u : State) p =>
      LeaveAsk.paddock p ∈ (u.die (dieOfStack (p / 64))).asks ∨ LeaveAsk.paddock p ∈ (u.die (dieOfStack (p / 64))).grants
    -- TASK_ADMIT
    (t.st = .waiting → s.queuedBehind t = false → s.dev.halt = none → t.pgo = true → s.padCount t.pcore true < 4 →
      leads (.taskAdmit n) s (fun u => (shows u).map (fun k => (k.st, k.pcore)) = some (.admitted, t.pcore) ∧ asked u t.pcore)) ∧
    (∀ x s1 p, t.st = .waiting → s.queuedBehind t = false → s.dev.halt = none → t.pgo = false →
      frozenAt s t.asid ((t.pin + t.t * t.stride) % 2 ^ 57) = false →
      s.xlate { agent := 2, die := dieOf t.site.core, core := 0, slot := 0, group := 0, id := 0 } t.site.core t.asid
        ((t.pin + t.t * t.stride) % 2 ^ 57) .load t.sup false = (.ok x, s1) →
      (pinCore t.site.core x.pa = some p → s1.padCount p false < 12 →
        leads (.taskAdmit n) s (fun u => (shows u).map (fun k => (k.st, k.pcore)) = some (.admitted, p) ∧ asked u p)) ∧
      (pinCore t.site.core x.pa = none → leads (.taskAdmit n) s (fun u => (shows u).map (fun k => k.st) = some bad))) ∧
    -- TASK_START, TASK_RESUME
    (∀ ws s1, free → t.st = .saved → s.padLoad n t code [] = .ok ws s1 → leads (.taskResume n) s (fun u => (u.pcore t.pcore).current = some n ∧
      ∃ k, shows u = some k ∧ k.st = .running ∧ k.regs = t.regs ∧ loaded ws k)) ∧
    (∀ ws s1, free → t.st = .admitted → s.padLeave t.pcore = true → s.padLoad n t (code ++ t.argWords) [] = .ok ws s1 →
      let args := ws.drop (t.nbund + 1)
      leads (.taskStart n) s (fun u => (u.pcore t.pcore).current = some n ∧ ∃ k, shows u = some k ∧ k.st = .running ∧ loaded ws k ∧ k.regs.pc = 0 ∧
        (t.pgo = true → (∀ j, k.regs.w.find? j = t.shipped[j]?) ∧ k.regs.wPois = [] ∧ k.regs.c = [] ∧ k.regs.gAddr = []) ∧
        (t.pgo = false → (∀ j, k.regs.w.find? j = args[j]?.map (fun a => BitVec.ofNat 256 a.1)) ∧
          (∀ j, j ∈ k.regs.wPois ↔ args[j]?.map (fun a => a.2) = some true) ∧
          k.regs.c = [(3, t.t)] ∧ k.regs.gAddr = [(0, t.t * t.stride % 2 ^ 48)]))) ∧
    -- TASK_SAVE, ASID_SUSPEND
    (t.atBoundary = true → s.best n t = false → leads (.taskSave n) s (fun u =>
      (shows u).map (fun k => (k.st, k.regs)) = some (.saved, t.regs) ∧ (u.pcore t.pcore).current ≠ some n)) ∧
    (t.atBoundary = true → leads (.asidSuspend t.asid) s (fun u => (shows u).map (fun k => (k.st, k.regs)) = some (.saved, t.regs) ∧
      t.asid ∈ u.dev.suspended)) ∧
    -- BUNDLE_ISSUE, PADDOCK_WALK
    (let b := (t.code.getD t.regs.pc 0).toNat
      let accs := fetchAccs b t.regs t.base ++ wbAccs b t.regs t.base
      let issues := (s.pcore t.pcore).current = some n ∧ t.st = .running ∧ t.flight = none ∧ t.sent = false ∧ t.forced = false ∧ t.refetch = [] ∧
        s.best n t = true ∧ s.padFree t.pcore = true ∧ s.dev.suspended.contains t.asid = false
      let runs := t.regs.pc ≤ t.nbund ∧ t.zpar = none ∧ bundleLegal b = true ∧ poisonUse b t.regs = false
      let left := fun xs => (accs.zip xs).drop t.got.length
      let ends := fun (s0 : State) xs => padBarred s0 t.asid (left xs) = none → ∀ k, (s0.padPerform n (left xs)).tasks.find? n = some k → k.st = .running →
        k.got.length = accs.length → k.forced = false → (s0.padPerform n (left xs)).dev.suspended.contains k.asid = false →
        leads (.bundleIssue t.pcore) s (fun u => ∃ d, d = bundleDone b k.regs k.base k.got ∧
          (shows u).map (fun q => (q.st, q.regs)) = some (match d.1 with
            | .go => .running
            | .pret => if k.pgo then .returning 0 else .ending 0
            | .phalt => if k.pgo then .returning 1 else .ending 0, d.2))
      (issues → ¬runs → leads (.bundleIssue t.pcore) s (fun u => (shows u).map (fun k => k.st) = some bad)) ∧
      (∀ kind va, issues → runs → s.padCheck t accs = .fault kind va →
        leads (.bundleIssue t.pcore) s (fun u => (shows u).map (fun k => (k.st, k.regs)) = some (.parked, t.regs))) ∧
      (∀ kind pa, issues → runs → s.padCheck t accs = .hole kind pa →
        leads (.bundleIssue t.pcore) s (fun u => (shows u).map (fun k => k.st) = some bad)) ∧
      (∀ xs, issues → runs → s.padCheck t accs = .go xs → (∀ x ∈ xs, x.2.isSome = true) → ends (s.onTask n (fun t => { t with flight := some xs })) xs) ∧
      (∀ xs, (s.pcore t.pcore).current = some n → t.st = .running → t.flight = some xs → ends s xs) ∧
      (∀ xs a, (s.pcore t.pcore).current = some n → t.st = .running → t.flight = some xs → t.sent = false → t.got = [] → padBarred s t.asid (left xs) = some a →
        leads (.bundleIssue t.pcore) s (fun u => (shows u).map (fun k => (k.st, k.regs)) = some (.parked, t.regs))) ∧
      ∀ a, t.atBoundary = true → t.refetch = [] → bundleLegal b = true → poisonUse b t.regs = false →
        accs.find? (fun a => (s.padEntry t a.va).isNone) = some a → frozenAt s t.asid a.va = false →
        (∀ s1, s.padWalk t a.va = (none, s1) → leads (.paddockWalk n) s (fun u => u = s1 ∧ shows u = some t)) ∧
        (∀ kind s1, s.padWalk t a.va = (some kind, s1) →
          leads (.paddockWalk n) s (fun u => (shows u).map (fun k => (k.st, k.regs)) = some (.parked, t.regs)))) ∧
    -- PADDOCK_TASK_KILL
    ((t.st = .parked ∨ t.st = .parkedLoad) → leads (.paddockTaskKill n) s (fun u => (shows u).map (fun k => k.st) = some bad)) ∧
    -- COMPLETION_ADD
    (∀ err, t.st = .ending err → s.dev.halt = none →
      (t.compl = 0 → leads (.completionAdd n) s (fun u => shows u = none ∧ u.works = (s.endWork t.work).works ∧ u.mem = s.mem)) ∧
      (t.compl ≠ 0 → t.pcore < 512 →
        let add := s.completionAdd t.who (1000 + t.pcore / 64) t.asid t.compl t.sup (if err = 0 then 1 else 0x10000) t.work
        (∀ s1, add = .done s1 ∨ add = .sent s1 → leads (.completionAdd n) s (fun u => shows u = none ∧ u.mem = s1.mem)) ∧
        (∀ s1, add = .parked s1 → leads (.completionAdd n) s (fun u => (shows u).map (fun k => k.st) = some (.endingParked err) ∧ u.mem = s1.mem)))) ∧
    -- PGO_RETURN
    ∀ how g, t.st = .returning how → s.works.getD t.work 0 ≤ 1 → s.group? t.site.core t.site.slot t.site.group = some g → g.pgo = some n →
      let group := fun (u : State) => u.group? t.site.core t.site.slot t.site.group
      let poisoned := ∃ j, j < t.n ∧ t.regs.wp j = true
      (how = 0 → ¬poisoned → leads (.pgoReturn n) s (fun u => shows u = none ∧ ∃ g', group u = some g' ∧ g'.pgo = none ∧ g'.hold = g.hold ∧
        ∀ r lane, lane < 32 → laneOf (g'.vreg r) lane =
          if t.vb ≤ r ∧ r < t.vb + t.n ∧ lane / 8 = t.q ∧ t.lanes.getLsbD lane = true then BitVec.ofNat 32 (t.regs.lane (r - t.vb) (lane % 8))
          else laneOf (g.vreg r) lane)) ∧
      (how = 1 → g.paths ≠ [] → leads (.pgoReturn n) s (fun u => shows u = none ∧ group u = some { g with pgo := none })) ∧
      ((how = 2 ∨ (how = 0 ∧ poisoned)) → leads (.pgoReturn n) s (fun u => shows u = none ∧
        group u = some { g with pgo := none, hold := some (if g.called then .both else .machineCheck), gstat := g.gstat ||| 0x40000000 }))) ∧
  -- FIRING_WORK_LIMIT
  ∀ (s : State) (p : Nat), exec (.firingWorkLimit p) s = .next (if s.firing p = false ∨ (s.pcore p).owed ≠ 0 then s
    else s.onPCore p (fun k => { k with owed := 16 }))

/-- R105, R108, R109, R118, R153, R217, R218, R225, R282, R284, R289, R298, R376, R384: a part of an access that R218 lets take its step
takes it. A store enters the scratchpad, its private lines, or memory; a load reads the scratchpad, a copy in its core's L1 or memory,
and each lane's own buffered stores first, or a device register at width 8; an atomic gives the old value and writes the new one, in a
private line, in the core's pinned copy, or in memory. Poison, a hole and an empty key slot stop the group. The result of a read
enters its registers with all lanes at once, but for lanes that have exited. A walk gives a part its translation or parks it. R159: a
rejected operation is served once its entries fit; that it tries again in a step of its own, and when an entry is given back, are the
model's reading (logs 28 and 127). An access wider than TEAM scope that a PHASE has overtaken performs nothing and raises SCOPEMIX. No team
is being halted here. -/
def Obligations.AccessesTakeTheirStep : Prop :=
  ∀ (s : State) (c slot g op n : Nat) (t : Team) (grp : Group) (o : Op) (p : Part), s.team? c slot = some t → s.group? c slot g = some grp →
    grp.ops.find? op = some o → o.parts[n]? = some p → grp.paths ≠ [] → s.noHalting →
    let now := fun (u : State) => (u.group? c slot g).bind (fun x => x.ops.find? op)
    let part := fun (u : State) => (now u).bind (fun o => o.parts[n]?)
    let last := o.kind = .store ∧ ∀ i q, o.parts[i]? = some q → i ≠ n → q.st = .acked
    let acked := fun (u : State) => (last → now u = none) ∧ (¬last → (part u).map (fun q => q.st) = some .acked)
    let stopped := fun (u : State) => now u = none ∧ (u.group? c slot g).map (fun x => x.hold) = some (some (if grp.called then .both else .machineCheck))
    let at_ := s.physAt t.asid
    let ready := p.st = .ready ∧ grp.allows at_ op n = true ∧ grp.inOrder at_ c op n o p = true ∧ o.waits.all s.workDone = true ∧
      s.hasRoom c slot g op n = true
    let reads := fun (byte : Nat → Byte) (u : State) => (part u).map (fun q => (q.st, q.lanes.map (fun l => l.got))) =
      some (PartSt.done, p.lanes.map (fun l => leNat ((List.range l.width).map (fun i =>
        (s.ownByte t grp op o p l.lane (l.addr + i)).getD (byte (l.addr + i))))))
    let whole := fun (q : Nat) => s.mem.errors.find? q = none ∧ q ∉ s.mem.poison
    -- a scratchpad
    (∀ tc ts tt, ready → o.space = .scratch tc ts → s.team? tc ts = some tt →
      (o.kind = .store → leads (.performStore c slot g op n) s (fun u => acked u ∧ u.mem = s.mem ∧
        ∀ b, (u.team? tc ts).map (fun k => k.scratch.getD b 0) = some (((p.stores (fun a => a)).find? b).getD (tt.scratch.getD b 0)))) ∧
      (o.kind = .load → (∀ l ∈ p.lanes, ∀ w ∈ wordsOf l.addr l.width, w ∉ tt.scratchPois) →
        leads (.serveLoad c slot g op n) s (fun u => reads (fun a => tt.scratch.getD a 0) u ∧ u.mem = s.mem)) ∧
      (o.kind = .load → (∃ l ∈ p.lanes, ∃ w ∈ wordsOf l.addr l.width, w ∈ tt.scratchPois) → leads (.serveLoad c slot g op n) s stopped)) ∧
    -- memory and the device registers
    (∀ x, ready → o.space = .global → p.xl = some x →
      let sec := x.pa / 64
      let va := (p.lanes.headD LaneAcc.zero).addr
      (o.kind = .load → region x.pa = .regs → o.stopper s = none → o.barred t = none → leads (.serveLoad c slot g op n) s (fun u => u.mem = s.mem ∧
        ((∀ l ∈ p.lanes, l.width = 8) → reads (fun a =>
          BitVec.ofNat 8 ((regRead s ((x.pa / 64 * 64 + a % 64) / 8 * 8 - Config.devBase)).toNat / 2 ^ (8 * (a % 8)))) u) ∧
        (¬(∀ l ∈ p.lanes, l.width = 8) → reads (fun _ => 0) u))) ∧
      (p.lanes ≠ [] → (region x.pa = .hole ∨ (stored x.pa = true ∧ s.keys.find? x.key = none)) →
        (o.kind = .load → leads (.serveLoad c slot g op n) s stopped) ∧ (o.kind = .store → leads (.performStore c slot g op n) s stopped)) ∧
      (∀ va, o.stopper s = none → o.barred t = some va →
        let bars := fun (u : State) => now u = none ∧ u.mem = s.mem ∧ ∀ q, grp.paths.find? o.path = some q → q.pend = none →
          (u.group? c slot g).bind (fun x => (x.paths.find? o.path).map (fun q => q.pend.map (fun r => (r.cause, r.addr)))) = some (some (0x10, va))
        (o.kind = .load → leads (.serveLoad c slot g op n) s bars) ∧ (o.kind = .store → leads (.performStore c slot g op n) s bars) ∧
        ∀ aop ty, o.kind = .atomic aop ty → p.lanes ≠ [] → leads (.performAtomic c slot g op n) s bars) ∧
      ∀ key, region x.pa = .hbm → s.keys.find? x.key = some key → windowAt s x.pa = none → x.mng = false → matrixPage s x.pa = false → s.pubWaits c slot va = false →
        o.stopper s = none → o.barred t = none →
        -- ordinary loads and stores
        (o.ord = 0 → t.phaseAt va = none → (s.sector sec).pin = none →
          (∀ d, o.kind = .load → (s.core c).l1Sec sec = some d → x.uc = false → s.ahead t.asid c slot g sec grp op p.laneSet = false → (∀ w ∈ p.words, bit d.pois (w % 2) = false) →
            leads (.serveLoad c slot g op n) s (fun u => reads (fun a => secByte d.data (a % 64)) u ∧ u.mem = s.mem)) ∧
          (o.kind = .load → (s.core c).l1Sec sec = none → (∀ w ∈ p.words, w ∉ s.mem.poison) → whole (2 * sec) → whole (2 * sec + 1) →
            leads (.serveLoad c slot g op n) s (fun u => reads (fun a => s.mem.byteAt key (x.pa / 64 * 64 + a % 64)) u ∧ u.mem = s.mem)) ∧
          (o.kind = .store → whole (2 * sec) → whole (2 * sec + 1) → leads (.performStore c slot g op n) s (fun u =>
            (part u).map (fun q => q.st) = some .done ∧
            ∀ a, u.mem.byteAt key a = ((p.stores p.pa).find? a).getD (s.mem.byteAt key a)))) ∧
        -- private lines
        (∀ ph, t.phaseAt va = some ph → t.hasLine ph va = true →
          let private_ := fun (u : State) a => (u.team? c slot).map (fun k => k.phaseByte ph a)
          (o.kind = .store → leads (.performStore c slot g op n) s (fun u => acked u ∧ u.mem = s.mem ∧
            ∀ a, private_ u a = some (((p.stores (fun a => a)).find? a).getD (t.phaseByte ph a)))) ∧
          ∀ aop ty l old, o.kind = .atomic aop ty → p.lanes = [l] →
            (∀ q ∈ o.parts, ∃ r, t.phaseAt q.addr = some r ∧ t.hasLine r q.addr = true ∧ t.phaseBad r q.addr 1 = false) → old = readBytes (t.phaseByte ph) l.addr l.width → leads (.performAtomic c slot g op n) s (fun u =>
              (part u).map (fun q => (q.st, q.lanes.map (fun l => l.got))) = some (.acked, [old]) ∧ u.mem = s.mem ∧
              ∀ a, private_ u a = some (match atomWrite aop ty l old with
                | some v => if l.addr ≤ a ∧ a < l.addr + l.width then BitVec.ofNat 8 (v / 256 ^ (a - l.addr)) else t.phaseByte ph a
                | none => t.phaseByte ph a))) ∧
        -- atomics
        ∀ aop ty l, o.kind = .atomic aop ty → p.lanes = [l] → (∀ q ∈ o.parts, t.phaseAt q.addr = none ∧ ∀ w ∈ q.words, whole w) → s.atomBad c t o = [] →
          s.mayLog (s.home (p.pa l.addr)) (logId t g op n) = true → l.addr % 64 + l.width ≤ 64 →
          let pa := p.pa l.addr
          (∀ old, 3 ≤ o.scope → (s.sector sec).pin = none → whole (2 * sec) → whole (2 * sec + 1) → old = readBytes (s.mem.byteAt key) pa l.width →
            leads (.performAtomic c slot g op n) s (fun u => (part u).map (fun q => (q.st, q.lanes.map (fun l => l.got))) = some (.done, [old]) ∧
              ∀ a, u.mem.byteAt key a = match atomWrite aop ty l old with
                | some v => if pa ≤ a ∧ a < pa + l.width then BitVec.ofNat 8 (v / 256 ^ (a - pa)) else s.mem.byteAt key a
                | none => s.mem.byteAt key a)) ∧
          ∀ d t0 a0 g0 old, o.scope ≤ 2 → o.ord ≠ 2 → (s.sector sec).pin = some (c, t0, a0, g0) → (s.core c).l1Sec sec = some d →
            d.pinned = true → s.invalsOut sec = false → scopeClash (s.sector sec) c o.scope (clusterCores s c t) = false →
            old = readBytes (fun a => secByte d.data (a % 64)) pa l.width →
            leads (.performAtomic c slot g op n) s (fun u => (part u).map (fun q => (q.st, q.lanes.map (fun l => l.got))) = some (.acked, [old]) ∧
              u.mem = s.mem ∧ ∀ i, i < 64 → ((u.core c).l1Sec sec).map (fun e => secByte e.data i) = some (match atomWrite aop ty l old with
                | some v => if pa % 64 ≤ i ∧ i < pa % 64 + l.width then BitVec.ofNat 8 (v / 256 ^ (i - pa % 64)) else secByte d.data i
                | none => secByte d.data i))) ∧
    -- RESULT_RETIRE
    (o.kind.isRead = true → (∀ q ∈ o.parts, q.returned o.kind = true) → o.fold = none → o.spoiled = false →
      let k := regsOf (o.accs.headD LaneAcc.zero).width
      leads (.resultRetire c slot g op) s (fun u => now u = none ∧ ∃ g', u.group? c slot g = some g' ∧ g'.flags = grp.flags ∧
        (o.dst = .none → g'.s = grp.s ∧ ∀ r, g'.vreg r = grp.vreg r) ∧
        (∀ r ty, o.dst = .v r ty → g'.s = grp.s ∧ (∀ q, (q < r ∨ r + k ≤ q) → g'.vreg q = grp.vreg q) ∧
          ∀ lane, lane < 32 → g'.laneVal r k lane = match o.accs.find? (fun l => l.lane = lane) with
            | some l => if grp.exited.getLsbD lane then grp.laneVal r k lane else extend ty l.got % 2 ^ (32 * k)
            | none => grp.laneVal r k lane) ∧
        ∀ r ty, o.dst = .s r ty → (∀ q, g'.vreg q = grp.vreg q) ∧ (∀ q, (q < r ∨ r + k ≤ q) → g'.sreg q = grp.sreg q) ∧
          (k = 1 → g'.sreg r = BitVec.ofNat 32 (extend ty (o.accs.headD LaneAcc.zero).got)) ∧
          (k = 2 → g'.spair r = BitVec.ofNat 64 (extend ty (o.accs.headD LaneAcc.zero).got)))) ∧
    -- PAGE_WALK, MSHR_RETRY
    (p.st = .walk → o.space = .global → frozenAt s t.asid p.addr = false →
      (∀ x s1, s.xlate (whoLane { core := c, slot := slot, group := g, path := o.path }) c t.asid p.addr o.kind.acc t.sup true = (.ok x, s1) →
        leads (.pageWalk c slot g op n) s (fun u => (part u).map (fun q => q.xl) = some (some x) ∧
          ((part u).map (fun q => q.st) = some .ready ∨ (part u).map (fun q => q.st) = some .rejected))) ∧
      ∀ k s1, s.xlate (whoLane { core := c, slot := slot, group := g, path := o.path }) c t.asid p.addr o.kind.acc t.sup true = (.fault k, s1) →
        (∀ i q, o.parts[i]? = some q → q.st = .walk → n ≤ i ∧ frozenAt s t.asid q.addr = false) → leads (.pageWalk c slot g op n) s (fun u => (part u).map (fun q => q.st) = some .parked)) ∧
    (o.coalesced = true → p.st = .rejected → (∀ q ∈ o.parts, q.st ≠ .walk ∧ q.st ≠ .parked) → o.rejects < 16 →
      let need := (o.parts.filter (fun q => q.misses (s.core c) slot t)).length
      ((need = 0 ∨ heldEntries (s.core c) slot g op + need ≤ 256) → leads (.mshrRetry c slot g op) s (fun u =>
        (now u).map (fun o => o.parts) = some (o.parts.map (fun q => if q.st = .rejected then { q with st := .ready } else q)))) ∧
      (need ≠ 0 → 256 < heldEntries (s.core c) slot g op + need → leads (.mshrRetry c slot g op) s (fun u =>
        (now u).map (fun o => (o.rejects, o.parts)) =
          some (o.rejects + 1, o.parts.map (fun q => if q.st = .ready then { q with st := .rejected } else q)))))

/-- R17 to R22, R102 to R107, R110 to R112, R119, R123, R124, R150, R216: the steps of slices and channels. A fill reads a sector's two
words and makes a damaged one poison; a corrected word is written back; an eviction invalidates the sharers, and frees the sector once
none is left. A core drops a sector it does not hold pinned. A pin that is too old is recalled: its bytes enter memory and its group takes
SCOPEAGE. A published line performs. The oldest message of a channel is applied at its core and counted; a counter at zero answers. The
address that SCOPEAGE gives and its late trap are the model's reading (log 30). -/
def Obligations.SlicesAndChannels : Prop :=
  (∀ (s : State) (sec : Nat),
    let whole := fun (q : Nat) => s.mem.errors.find? q = none ∧ q ∉ s.mem.poison
    let home := s.home (64 * sec)
    let x := s.sector sec
    let unlogged := ∀ d, bit (s.die d).svqCtl.toNat 0 = false
    -- SLICE_FILL, CXL_RESPONSE
    ((¬cacheable sec ∨ x.st ≠ .inv) → exec (.sliceFill sec) s = .next s) ∧
    (cacheable sec = true → x.st = .inv →
      (s.roomFor sec = true → unlogged → leads (.sliceFill sec) s (fun u => (u.sector sec).st = .clean)) ∧
      (whole (2 * sec) → whole (2 * sec + 1) → leads (.sliceFill sec) s (fun u => u.mem = s.mem)) ∧
      ∀ w e, w / 2 = sec → region (32 * w) = .hbm → s.mem.errors.find? w = some e → w ∉ s.mem.fixes → unlogged → leads (.sliceFill sec) s (fun u =>
        (e ≤ 1 → w ∈ u.mem.fixes) ∧ (2 ≤ e → w ∈ u.mem.poison))) ∧
    (∀ w b, w / 2 = sec →
      ((region (32 * w) ≠ .tier ∨ x.st ≠ .inv) → exec (.cxlResponse w b) s = .next s) ∧
      (region (32 * w) = .tier → x.st = .inv →
        (s.roomFor sec = true → unlogged → leads (.cxlResponse w b) s (fun u => (u.sector sec).st = .clean)) ∧
        (w ∉ s.mem.fixes → unlogged → leads (.cxlResponse w true) s (fun u => w ∈ u.mem.poison)) ∧
        (whole (2 * sec) → whole (2 * sec + 1) → leads (.cxlResponse w false) s (fun u => u.mem = s.mem)))) ∧
    -- CE_WRITEBACK
    (∀ w, exec (.ceWriteback w) s = .next (if w ∈ s.mem.fixes then
      { s with mem := { s.mem with fixes := s.mem.fixes.filter (fun p => p ≠ w), errors := s.mem.errors.erase w } } else s)) ∧
    -- SLICE_EVICT
    ((x.st = .inv ∨ x.pin ≠ none ∨ x.evicting = true) → exec (.sliceEvict sec) s = .next s) ∧
    (x.st ≠ .inv → x.pin = none → x.evicting = false →
      (x.reach = [] → leads (.sliceEvict sec) s (fun u => u.sector sec = Sector.init ∧ u.mem.bytes = s.mem.bytes ∧ u.mem.poison = s.mem.poison ∧
        (x.st = .dirty → ∀ w, w / 2 = sec → u.mem.errors.find? w = none))) ∧
      (x.reach ≠ [] → leads (.sliceEvict sec) s (fun u => u.sector sec = { x with evicting := true } ∧ u.mem = s.mem ∧
        u.acks.find? s.nextAck = some { left := x.reach.length, dest := .evict sec, held := false } ∧
        ∀ c ∈ x.reach, { sec := sec, body := .inval, ack := some s.nextAck } ∈ u.channels.getD (home * 192 + c) []))) ∧
    -- DROP_NOTICE
    (∀ c,
      ((∀ d, (s.core c).l1Sec sec = some d → d.pinned = true) → exec (.dropNotice c sec) s = .next s) ∧
      ∀ d, (s.core c).l1Sec sec = some d → d.pinned = false → leads (.dropNotice c sec) s (fun u => u.mem = s.mem ∧
        (u.core c).l1Sec sec = none ∧ (s.incoming c sec = false → c ∉ (u.sector sec).sharers) ∧ ∀ q, q ≠ sec → (u.core c).l1Sec q = (s.core c).l1Sec q)) ∧
    -- PIN_AGE_RECALL
    (x.pin = none → exec (.pinAgeRecall sec) s = .next s) ∧
    ∀ c slot at_ last, x.pin = some (c, slot, at_, last) →
      ((s.core c).clock - at_ ≤ 8192 → exec (.pinAgeRecall sec) s = .next s) ∧
      (8192 < (s.core c).clock - at_ → leads (.pinAgeRecall sec) s (fun u => (u.sector sec).pin = none ∧
        (∀ sl g grp, last = some (sl, g) → s.group? c sl g = some grp → (u.group? c sl g).map (fun k => k.late) =
          some (grp.late ++ [{ cause := 0x0F, detail := 0, addr := 64 * sec, pc := 0, inst := none, debug := 0 }])) ∧
        ∀ d key, (s.core c).l1Sec sec = some d → d.pinned = true → s.keys.find? d.key = some key → d.pois = 0 →
          ∀ a, u.mem.byteAt key a = if a / 64 = sec then secByte d.data (a % 64) else s.mem.byteAt key a))) ∧
  -- PUBLISH_LINE
  (∀ (s : State) (pub line : Nat) (p : Pub) (bs : Tab Byte), s.pubs.find? pub = some p → p.lines.find? line = some bs →
    p.parked = false → frozenAt s p.asid (256 * line) = false → s.noHalting →
    let out := s.xlate (whoLane { core := p.core, slot := p.slot, group := p.group, path := 0 }) p.core p.asid (256 * line) .store p.sup false
    (∀ k s1, out = (.fault k, s1) → leads (.publishLine pub line) s (fun u => u.pubs.find? pub = some { p with parked := true })) ∧
    ∀ x s1 key, out = (.ok x, s1) → region x.pa = .hbm → s1.keys.find? x.key = some key → bs.rising = true → (∀ b ∈ bs, b.1 / 256 = line) →
      p.pois = [] → (∀ q, q / 8 = x.pa / 256 → s1.mem.errors.find? q = none ∧ q ∉ s1.mem.poison) →
      (∀ q, q / 4 = x.pa / 256 → (s1.sector q).pin = none) → leads (.publishLine pub line) s (fun u =>
        ((u.pubs.find? pub).bind (fun p => p.lines.find? line)) = none ∧
        ∀ a, u.mem.byteAt key a = if a / 256 = x.pa / 256 then (bs.find? (256 * line + a % 256)).getD (s1.mem.byteAt key a)
          else s1.mem.byteAt key a)) ∧
  -- DELIVER
  (∀ (s : State) (slice core : Nat) (m : Msg) (rest : List Msg), s.channels.getD (slice * 192 + core) [] = m :: rest →
    let way := (wayFor (s.core core) (m.sec / 4)).isSome
    let takesNone := m.body.brings = false ∨ way = false ∨ ∀ l, (s.core core).l1.find? (m.sec / 4) = some l → (s.core core).block l.way = .cache
    let sent := fun (q : State → Prop) => leads (.deliver slice core) s (fun u =>
      (takesNone → u.channels.getD (slice * 192 + core) [] = rest ∧ (∀ n k, m.ack = some n → s.acks.find? n = some k → u.acks.find? n = some { k with left := k.left - 1 }) ∧ u.mem = s.mem) ∧ q u)
    let holds := fun (d : Option L1Sec) (u : State) => (u.core core).l1Sec m.sec = d
    let same := holds ((s.core core).l1Sec m.sec)
    let last := slice = s.home (64 * m.sec) ∧ ∀ q ∈ rest, q.sec = m.sec → q.body.brings = false
    (∀ data pois k, m.body = .fill data pois k →
      (way → sent (holds (some { data := data, pois := pois, key := k, pushed := none, pinned := false, writers := [] }))) ∧
      (¬way → sent (fun u => same u ∧ ((s.core core).l1Sec m.sec = none → last → core ∉ (u.sector m.sec).sharers)))) ∧
    (∀ data pois k, m.body = .pin data pois k →
      let unread := ((s.core core).l1Sec m.sec).bind (fun d => d.pushed)
      (way → sent (holds (some { data := data, pois := pois, key := k, pushed := unread, pinned := true, writers := [] }))) ∧
      (¬way → sent (fun u => same u ∧ (u.sector m.sec).pin = none))) ∧
    (∀ bytes pois, m.body = .update bytes pois →
      ((s.core core).l1Sec m.sec = none → sent same) ∧
      ∀ d, (s.core core).l1Sec m.sec = some d → sent (fun u => ∃ e, (u.core core).l1Sec m.sec = some e ∧ e.pinned = d.pinned ∧
        ∀ i, i < 64 → secByte e.data i = (bytes.find? i).getD (secByte d.data i))) ∧
    (m.body = .inval → sent (fun u => holds none u ∧
      (last → core ∉ (u.sector m.sec).sharers))) ∧
    ∀ data pois k prod slot epoch, m.body = .push data pois k prod slot epoch →
      let takes := ((s.core core).epoch slot).toNat = epoch ∧ ((s.core core).slots.find? slot).isSome = true
      (takes → way → sent (holds (some { data := data, pois := pois, key := k, pushed := some (prod, slot), pinned := false, writers := [] }))) ∧
      ((¬takes ∨ ¬way) → sent same)) ∧
  -- ACKNOWLEDGE
  ∀ (s : State) (a : Nat) (k : Ack), s.acks.find? a = some k →
    ((k.left ≠ 0 ∨ k.held = true) → exec (.acknowledge a) s = .next s) ∧
    (k.left = 0 → k.held = false → s.noHalting →
      let answered := fun (q : State → Prop) => leads (.acknowledge a) s (fun u => u.acks.find? a = none ∧ u.mem = s.mem ∧ q u)
      (((∃ n, k.dest = .task n) ∨ (∃ fn seq, k.dest = .host fn seq) ∨ ∃ asid, k.dest = .nobody asid) →
        exec (.acknowledge a) s = .next { s with acks := s.acks.erase a }) ∧
      (∀ w asid, k.dest = .work w asid → (∀ p ∈ s.pubs, p.2.work ≠ w) → answered (fun u => u.works = (s.endWork w).works)) ∧
      (∀ sec, k.dest = .evict sec →
        let held := fun c => (((s.core c).l1Sec sec).isSome || s.incoming c sec) = true
        answered (fun u => (u.sector sec).evicting = false ∧
          ((∀ c, c < 192 → ¬held c) → u.sector sec = { s.sector sec with evicting := false, coarse := 0 }) ∧
          ((s.sector sec).isCoarse = true → ∀ c, c < 192 → held c → c ∈ (u.sector sec).reach))) ∧
      (∀ c op i o, k.dest = .unit c op i → (s.core c).copies.find? op = some o →
        answered (fun u => (u.core c).copies.find? op = some { o with units := o.units.set i .counted, arrived := o.arrived + 1 })) ∧
      (∀ n r, k.dest = .remote n → s.received.find? n = some r → (∀ b ∈ s.acks, b.1 ≠ a → b.2.dest ≠ .remote n) → answered (fun u => u.received.find? n = none ∧
        u.replies = s.replies ++ [{ device := r.device, path := r.path, seq := r.seq, refused := false, pois := false, value := r.acc.got }])) ∧
      ∀ c slot g op n grp o p, k.dest = .part c slot g op n → s.group? c slot g = some grp → grp.paths ≠ [] → grp.ops.find? op = some o →
        o.parts[n]? = some p →
        let now := fun (u : State) => (u.group? c slot g).bind (fun x => x.ops.find? op)
        let last := o.kind = .store ∧ ∀ i q, o.parts[i]? = some q → i ≠ n → q.st = .acked
        (last → answered (fun u => now u = none)) ∧
        (¬last → answered (fun u => ((now u).bind (fun o => o.parts[n]?)).map (fun q => q.st) = some .acked)))

/-- R110, R226, R227, R295, R296, R298 to R302: the first write of a host function that has yet to perform enters its device register or
memory, and is given up where its translation faults; a read answers once the function's earlier writes are over. A request of another
device performs once and is answered, or refused; a duplicate gets the same answer. An answer to a request of this device ends it, or
refuses it as a hole. A port that fails eight times in a row goes down and its requests go over other paths; it may be trained again. What
a faulting host access, a failing port and a receiver do is read by inference (logs 59, 61, 62). -/
def Obligations.HostAndLinkAccesses : Prop :=
  (∀ (s : State) (fn : Nat),
    let s' := s.hostTidy fn
    let f := s'.fn fn
    let whole := fun (u : State) (q : Nat) => u.mem.errors.find? q = none ∧ q ∉ u.mem.poison
    let plain := fun (s1 : State) (x : Xlat) => region x.pa = .hbm ∧ s1.hostRetry x.pa = false ∧ windowAt s1 x.pa = none ∧
      whole s1 (x.pa / 64 * 2) ∧ whole s1 (x.pa / 64 * 2 + 1)
    -- HOST_POSTED_WRITE
    (∀ h, f.writes.find? (fun h => !h.bytes.isEmpty) = some h → s'.hostAway fn = true → exec (.hostPostedWrite fn) s = .next s') ∧
    (∀ h, f.writes.find? (fun h => !h.bytes.isEmpty) = some h → s'.hostAway fn = false →
      let left := fun (bs : List Byte) (u : State) => ∀ w ∈ (u.fn fn).writes, w.seq = h.seq → w.bytes = bs
      let va := (f.apBase + h.off) % 2 ^ 57
      let k := min (64 - va % 64) h.bytes.length
      (∀ r, h.bar = 0 → f.register h.off = some r → h.bytes.length = 8 → h.off % 8 = 0 → leads (.hostPostedWrite fn) s (fun u =>
        { u with fns := s.fns } = { regWrite s' r (BitVec.ofNat 64 (leNat h.bytes)) with fns := s.fns } ∧ left [] u)) ∧
      (h.bar ≠ 0 → frozenAt s' f.asid va = false →
        (∀ kind s1, s'.xlateDie f.who f.asid va .store (supOf s' f.asid) = (.fault kind, s1) → leads (.hostPostedWrite fn) s (left [])) ∧
        ∀ x s1 key, s'.xlateDie f.who f.asid va .store (supOf s' f.asid) = (.ok x, s1) → plain s1 x → s1.keys.find? x.key = some key →
          x.pa % 64 = va % 64 → leads (.hostPostedWrite fn) s (fun u => left (h.bytes.drop k) u ∧
            ∀ a, u.mem.byteAt key a = if x.pa ≤ a ∧ a < x.pa + k then h.bytes.getD (a - x.pa) 0 else s1.mem.byteAt key a))) ∧
    (f.writes.find? (fun h => !h.bytes.isEmpty) = none → exec (.hostPostedWrite fn) s = .next s') ∧
    -- HOST_READ
    ∀ i h, f.reads[i]? = some h →
      let answers := fun (status : Nat) (bs : List Byte) => leads (.hostRead fn i) s (fun u =>
        (u.fn fn).completions = f.completions ++ [(status, bs)] ∧ (u.fn fn).reads = f.reads.filter (fun r => r.seq ≠ h.seq))
      let early := ∃ w ∈ f.writes, w.seq < h.seq
      let va := (f.apBase + (h.off + h.bytes.length)) % 2 ^ 57
      let k := min (64 - va % 64) (h.len - h.bytes.length)
      (early → exec (.hostRead fn i) s = .next s') ∧
      (¬early → h.bar = 0 →
        (∀ r, f.register h.off = some r → h.len = 8 → h.off % 8 = 0 → answers 0 (leBytes 8 (regRead s' r).toNat)) ∧
        ((f.register h.off = none ∨ h.len ≠ 8 ∨ h.off % 8 ≠ 0) → answers 0 (leBytes h.len 0))) ∧
      (¬early → h.bar ≠ 0 → h.len ≤ h.bytes.length + k →
        (∀ d, f.pf = true → s'.mappedDump (h.off + h.bytes.length) = some d → k ≤ d.length → answers 0 (h.bytes ++ d.take k)) ∧
        ((f.pf = false ∨ s'.mappedDump (h.off + h.bytes.length) = none) → frozenAt s' f.asid va = false →
          (h.ack = none → ∀ kind s1, s'.xlateDie f.who f.asid va .load (supOf s' f.asid) = (.fault kind, s1) → answers 1 []) ∧
          ∀ x s1 key, s'.xlateDie f.who f.asid va .load (supOf s' f.asid) = (.ok x, s1) → plain s1 x → s1.keys.find? x.key = some key →
            x.pa % 64 = va % 64 → h.ack = none → answers 0 (h.bytes ++ s1.mem.read key x.pa k)))) ∧
  -- REMOTE_REQUEST_RECEIVE
  (∀ (s : State) (i : Nat) (r : Remote), s.received.find? i = some r →
    let replied := fun (refused pois : Bool) (value : Nat) => leads (.remoteRequestReceive i) s (fun u => u.received.find? i = none ∧
      u.replies = s.replies ++ [{ device := r.device, path := r.path, seq := r.seq, refused := refused, pois := pois, value := value }])
    let before := s.replies.find? (fun a => a.device = r.device && a.path = r.path && a.seq = r.seq)
    let once := r.performed = false ∧ before = none ∧ ∀ o ∈ s.received, o.1 ≠ i → o.2.performed = true → o.2.same r.device r.path r.seq = false
    let refuse := s.dev.halt ≠ none ∨ (s.dev.dlpeer.getD (r.device / 64) 0).getLsbD (r.device % 64) = false ∨ 0x8000000000 ≤ r.offset ∨
      saveArea r.offset = true
    (r.performed = true → exec (.remoteRequestReceive i) s = .next s) ∧
    (∀ a, r.performed = false → before = some a → replied a.refused a.pois a.value) ∧
    (once → refuse → replied true false 0) ∧
    (once → ¬refuse → frozenPa s r.offset = false → s.keys.find? r.key = none → replied true false 0) ∧
    (∀ key, once → ¬refuse → frozenPa s r.offset = false → s.keys.find? r.key = some key → s.remoteBarred r ≠ none → replied true false 0) ∧
    ∀ key, once → ¬refuse → frozenPa s r.offset = false → s.keys.find? r.key = some key → s.remoteBarred r = none → windowAt s r.offset = none →
      s.dev.replay = none → (s.sector (r.offset / 64)).pin = none → r.pois = [] →
      (∀ q, q / 2 = r.offset / 64 → s.mem.errors.find? q = none ∧ q ∉ s.mem.poison) →
      let performs := fun (got : Nat) (byte : Nat → Byte) => leads (.remoteRequestReceive i) s (fun u =>
        u.received.find? i = some { r with performed := true, acc := { r.acc with got := got } } ∧ ∀ a, u.mem.byteAt key a = byte a)
      (r.what = 0 → r.offset % 64 + r.acc.width ≤ 64 → replied false false (leNat (s.mem.read key r.offset r.acc.width))) ∧
      (r.what = 1 → (∀ b ∈ r.bytes, b.1 / 64 = r.offset / 64) → r.bytes.rising = true →
        performs 0 (fun a => (r.bytes.find? a).getD (s.mem.byteAt key a))) ∧
      (2 ≤ r.what → r.offset % 64 + r.acc.width ≤ 64 → ∀ old, old = leNat (s.mem.read key r.offset r.acc.width) →
        (∀ v, atomWrite r.aop r.ty r.acc old = some v → performs old (fun a =>
          if r.offset ≤ a ∧ a < r.offset + r.acc.width then BitVec.ofNat 8 (v / 256 ^ (a - r.offset)) else s.mem.byteAt key a)) ∧
        (atomWrite r.aop r.ty r.acc old = none → replied false false old))) ∧
  -- REMOTE_ACK: what the other device answers is free (log 21); a flit that has yet to leave its port has no answer (log 134)
  (∀ (s : State) (i : Nat) (r : Remote), s.sent.find? i = some r →
    let lost := pathsTo s r.device = []
    let refused := lost ∨ ((Config.fresh s.freeCtr).getLsbD 0 = true ∧ s.granted r = false)
    (¬lost → i ∈ (s.port r.port).queue → exec (.remoteAck i) s = .next s) ∧
    ((lost ∨ i ∉ (s.port r.port).queue) → s.noHalting → leads (.remoteAck i) s (fun u => u.sent.find? i = none ∧ (u.port r.port).fails = 0 ∧
      (∀ k asid, r.answer = .work k asid → (∀ p ∈ s.pubs, p.2.work ≠ k) → u.works = (s.endWork k).works) ∧
      ∀ c slot g op n grp o p, r.answer = .part c slot g op n → s.group? c slot g = some grp → grp.paths ≠ [] → grp.ops.find? op = some o →
        o.parts[n]? = some p →
        let now := fun (u : State) => (u.group? c slot g).bind (fun x => x.ops.find? op)
        let last := o.kind = .store ∧ ∀ i q, o.parts[i]? = some q → i ≠ n → q.st = .acked
        (refused → now u = none ∧ (u.group? c slot g).map (fun x => x.hold) = some (some (if grp.called then .both else .machineCheck))) ∧
        (¬refused → r.what = 1 → (last → now u = none) ∧
          (¬last → ((now u).bind (fun o => o.parts[n]?)).map (fun q => q.st) = some .acked))))) ∧
  -- FLIT_CRC_FAIL, PORT_RETRAIN
  ∀ (s : State) (p : Nat),
    ((s.port p).up = false → exec (.flitCrcFail p) s = .next s) ∧
    ((s.port p).up = true → (s.port p).fails + 1 < 8 →
      exec (.flitCrcFail p) s = .next (s.onPort p (fun k => { k with fails := k.fails + 1 }))) ∧
    ((s.port p).up = true → 8 ≤ (s.port p).fails + 1 → s.sent.rising = true → s.noHalting → leads (.flitCrcFail p) s (fun u => (u.port p).up = false ∧
      (∀ i r, s.sent.find? i = some r → r.port ≠ p → u.sent.find? i = some r) ∧
      ∀ i r, s.sent.find? i = some r → r.port = p → pathsTo (s.onPort p (fun k => { k with up := false })) r.device ≠ [] →
        ∃ q, u.sent.find? i = some { r with port := q } ∧ q ≠ p ∧ (s.port q).up = true)) ∧
    (p < 12 → (s.port p).up = false → s.dev.devstat.getLsbD 3 = true →
      exec (.portRetrain p) s = .next (s.onPort p (fun _ => { up := true, queue := [], fails := 0 }))) ∧
    ((12 ≤ p ∨ (s.port p).up = true ∨ s.dev.devstat.getLsbD 3 = false) → exec (.portRetrain p) s = .next s)

/-- R28, R29, R31, R284: PLACEMENT_FREEZE begins a move of a movable page to a spare place of another stack or tier, or freezes its next
piece; PLACEMENT_COPY writes the unit's bytes at the new place, with nothing else changed; PLACEMENT_SWITCH moves on to the next piece, or
rewrites the page's entry and drops its translations, and gives the old place up. Where a move may go is the model's choice (log 22), and so
is that one which may not go on, or whose entry cannot be reached, waits (log 109). -/
def Obligations.PlacementMoves : Prop :=
  (∀ (s : State) (asid va target : Nat),
    -- `s1`: once the page's entries have been read through the slices
    (∀ k m, s.moveOf asid va = some (k, m) →
      let s1 := s.walkFills m.who [] asid m.va
      (m.barred s1 = true → exec (.placementFreeze asid va target) s = .next s1) ∧
      (m.barred s1 = false →
        leads (.placementFreeze asid va target) s (fun u => u.moves.find? k = some { m with frozen := true } ∧ u.mem = s1.mem))) ∧
    let s1 := s.walkFills (placementAt s asid va target) [] asid va
    ∀ e seen, s.moveOf asid va = none → walk s1 [] asid va = .ok (e, seen) →
      let may := immovable s1 asid va e = false ∧ spare s1 target (2 ^ e.lg) = true ∧ placeOf target ≠ placeOf e.pa ∧ s1.keys.find? e.key ≠ none
      (¬may → exec (.placementFreeze asid va target) s = .next s1) ∧
      (may → leads (.placementFreeze asid va target) s (fun u => u.mem = s1.mem ∧
        u.moves.find? s1.nextMove = some
          { asid := asid, va := va / 2 ^ e.lg * 2 ^ e.lg, lg := e.lg, old := e.pa, new := target, key := e.key,
            piece := 0, map := 0, frozen := true, copied := false } ∧
        (e.lg = 21 → ∀ c, tlbHit (u.core c).tlb asid va = none)))) ∧
  ∀ (s : State) (k : Nat) (m : Move), s.moves.find? k = some m →
    ((m.frozen = false ∨ m.copied = true ∨ m.busy s = true) → exec (.placementCopy k) s = .next s) ∧
    (m.frozen = true → m.copied = false → m.busy s = false →
      (s.keys.find? m.key = none → leads (.placementCopy k) s (fun u =>
        u.moves.find? k = if m.map = 0 then none else some { m with frozen := false })) ∧
      ∀ key, s.keys.find? m.key = some key → (∀ x ∈ s.sectors, meet (64 * x.1) 64 m.from_ m.unit = true → x.2.pin = none) →
        (∀ q, m.from_ / 32 ≤ q → q < m.from_ / 32 + m.unit / 32 → s.mem.errors.find? q = none ∧ q ∉ s.mem.poison) →
        leads (.placementCopy k) s (fun u => u.moves.find? k = some { m with copied := true } ∧
          (∀ q, q ∈ u.mem.poison ↔ q ∈ s.mem.poison ∧ ¬(m.to_ ≤ 32 * q ∧ 32 * q < m.to_ + m.unit)) ∧
          (∀ i, i < m.unit → u.mem.byteAt key (m.to_ + i) = s.mem.byteAt key (m.from_ + i)) ∧
          ∀ a, (a / 32 * 32 + 32 ≤ m.to_ ∨ m.to_ + m.unit ≤ a / 32 * 32) → u.mem.byteAt key a = s.mem.byteAt key a)) ∧
    ((m.frozen = false ∨ m.copied = false) → exec (.placementSwitch k) s = .next s) ∧
    (m.frozen = true → m.copied = true → s.dev.replay = none →
      let inside := fun a => m.from_ ≤ a ∧ a < m.from_ + m.unit
      let vacated := fun (u : State) => (∀ a, inside a → u.mem.bytes.find? a = none) ∧ ∀ q, inside (64 * q) → u.sector q = Sector.init
      (m.lg = 21 → m.piece < 31 → leads (.placementSwitch k) s (fun u => vacated u ∧ (∀ a, ¬inside a → u.mem.bytes.find? a = s.mem.bytes.find? a) ∧
        u.moves.find? k = some { m with map := m.map ||| BitVec.ofNat 32 (2 ^ m.piece), piece := m.piece + 1, frozen := false, copied := false })) ∧
      -- `s1`: the switch is logged, and the page's entries have been read; a move whose entry cannot be reached waits (log 109)
      let s1 := (s.logAt (s.home m.from_) ((m.asid * 2 ^ 57 + m.va) * 64 + m.piece + 2 ^ 80)).walkFills m.who [] m.asid m.va
      (s1.rewrite m = none → (m.lg ≠ 21 ∨ 31 ≤ m.piece) → leads (.placementSwitch k) s (fun u => u = s.walkFills m.who [] m.asid m.va)) ∧
      (s1.rewrite m ≠ none → (m.lg ≠ 21 ∨ 31 ≤ m.piece) → leads (.placementSwitch k) s (fun u => vacated u ∧ u.moves.find? k = none ∧
        (∀ c, tlbHit (u.core c).tlb m.asid m.va = none) ∧ (∀ d, tlbHit (u.die d).tlb m.asid m.va = none) ∧
        ∀ a at0 key, asidEntry s1 m.asid = .ok a → s1.keys.find? s1.tkey = some key → leafAt s1 m.va 5 4 a.root = some at0 → m.lg = 12 →
          at0 % 8 = 0 → m.new % 4096 = 0 → ¬inside (at0 / 64 * 64) → ¬inside (at0 / 64 * 64 + 63) → 64 ≤ m.unit →
          (s1.sector (at0 / 64)).pin = none → (∀ q, q / 2 = at0 / 64 → s1.mem.errors.find? q = none ∧ q ∉ s1.mem.poison) →
          let x := leNat (s1.mem.read key at0 8)
          leNat (u.mem.read key at0 8) = x - bits x 51 12 * 4096 + m.new % 2 ^ 52)))

/-- R164, R307, R309, R310: a quarter that has issued PERIOD times writes a sample record in the ring, or counts it in LOST. CKREPLAY
restores the memory and the grids of a checkpoint and empties the cores; the timer pre-empts every resident team, and copies memory once
none is resident; a replay that diverges runs on unheld. A halted device writes its dump section by section, an absent core's marked INC.
The ring bound, the stall code of a path that no reason applies to, the checkpoint timer and the replay order are read by inference (logs
55, 56, 57, 138). -/
def Obligations.SamplesCheckpointsAndDumps : Prop :=
  (∀ (s : State) (c slot g k : Nat) (t : Team) (grp : Group) (p : Path), s.team? c slot = some t → s.group? c slot g = some grp →
    grp.paths.find? k = some p →
    let d := s.die (dieOf c)
    let ctl := d.smpCtl.toNat
    let due := bit ctl 63 = true ∧ bits ctl 55 32 ≤ ((s.core c).quarter grp.quarter).sinceSample
    let tail := bits d.smpPtr.toNat 15 0
    let head := bits d.smpPtr.toNat 47 32
    let full := (tail + 65536 - head) % 65536 = 65535
    let taken := (s.onQuarter c grp.quarter (fun q => { q with sinceSample := 0 })).onDie (dieOf c) (fun d => { d with smpSeq := (d.smpSeq + 1) % 2 ^ 32 })
    let ring := ringWrite taken { agent := 0, die := dieOf c, core := c, slot := slot, group := g, id := 0 } (bits d.smpBase.toNat 56 6 * 64 + 16 * tail)
      (leBytes 16 (d.smpSeq % 2 ^ 32 * 2 ^ 96 + sampleRecord s { core := c, slot := slot, group := g, path := k } t grp p))
    let counted := fun (u : State) => ((u.core c).quarter grp.quarter).sinceSample = 0 ∧ (u.die (dieOf c)).smpSeq = (d.smpSeq + 1) % 2 ^ 32
    (¬due → exec (.sampleTake c slot g k) s = .next s) ∧
    (due → ¬full → ring.1 = true → leads (.sampleTake c slot g k) s (fun u => counted u ∧ u.mem = ring.2.mem ∧
      (u.die (dieOf c)).smpPtr = BitVec.ofNat 64 (head * 2 ^ 32 + (tail + 1) % 65536) ∧ (u.die (dieOf c)).smpCtl = d.smpCtl)) ∧
    (due → (full ∨ ring.1 = false) → leads (.sampleTake c slot g k) s (fun u => counted u ∧ u.mem = s.mem ∧
      (u.die (dieOf c)).smpPtr = d.smpPtr ∧ bits (u.die (dieOf c)).smpCtl.toNat 63 32 = bits ctl 63 32 ∧
      bits (u.die (dieOf c)).smpCtl.toNat 31 0 = min (bits ctl 31 0 + 1) 0xFFFFFFFF))) ∧
  (∀ (s : State) (n : Nat),
    (∀ k, s.dev.checkpoints.find? (n % 16) = some k → s.dev.replay = none → leads (.ckreplayWrite n) s (fun u => u.mem = k.mem ∧ u.grids = k.grids ∧
      (∀ c slot, u.team? c slot = none) ∧ u.dev.diverged = false)) ∧
    ((s.dev.checkpoints.find? (n % 16) = none ∨ s.dev.replay ≠ none) → exec (.ckreplayWrite n) s = .next s) ∧
    (let on := s.dev.ckctl.getLsbD 63 = true ∧ s.dev.halt = none;
      (¬on → exec (.checkpointTimer n) s = .next s) ∧
      (on → s.dev.ckTaking = false → leads (.checkpointTimer n) s (fun u => u.dev.ckTaking = true ∧ u.mem = s.mem ∧
        ∀ c slot t, s.team? c slot = some t → t.run = .running → (u.team? c slot).map (fun t => t.run) = some (.stopping 0 3))) ∧
      (on → s.dev.ckTaking = true → (residentClusters s ≠ [] ∨ s.moves ≠ []) → exec (.checkpointTimer n) s = .next s) ∧
      (on → s.dev.ckTaking = true → residentClusters s = [] → s.moves = [] → leads (.checkpointTimer n) s (fun u => u.dev.ckTaking = false ∧ u.mem = s.mem ∧
        u.dev.checkpoints.find? u.dev.newest = some { mem := s.mem, mangles := s.mangles, grids := s.grids, order := [], log := [] } ∧ u.dev.log = []))) ∧
    (s.dev.replay ≠ none → s.dev.replayLog.getD n [] ≠ [] → leads (.replayDiverge n) s (fun u => u.dev.diverged = true ∧ u.dev.replay = none ∧ u.mem = s.mem)) ∧
    ((s.dev.replay = none ∨ s.dev.replayLog.getD n [] = []) → exec (.replayDiverge n) s = .next s) ∧
    (s.dumping n = true → leads (.dumpWrite n) s (fun u => u.mem = s.mem ∧
        u.dev.dumpSect.find? n = some ((s.dumpSection n).1, false, (s.dumpSection n).2) ∧ u.dev.dumpFaults = s.dev.dumpFaults) ∧
      leads (.dumpCoreTimeout n) s (fun u => u.mem = s.mem ∧ u.dev.dumpSect.find? n = some ([], true, false) ∧
        u.dev.dumpFaults = s.dev.dumpFaults + 1)) ∧
    (s.dumping n = false → exec (.dumpWrite n) s = .next s ∧ exec (.dumpCoreTimeout n) s = .next s))

/-- R26, R272, R297, R299, R303 to R305, R308, R310 to R312: firmware runs the mailbox command that waits and leaves its result and
nothing but its results in MBXARG: KEYLOAD and KEYCLEAR change one key slot and extend register 2, EXTEND one of 3 to 7, PLIMIT sets the
leave budget of both dies, ATTEST and DBGREAD write their buffer, DUMPMAP maps a dump; a bad argument changes nothing. The command is done
with its result and an interrupt. A die that is too hot keeps to a lower budget until it is cool. DEVICE_RESET leaves the machine as after
reset: in recovery, where nothing goes on, if the image is rejected; else DEVSTAT reports MEM, CXL, LINKS and READY one bring-up step after
the other. The clauses on failed writes, on absent teams and dumps, on dump
slots and on PLIMIT while a die is too hot are read by inference (logs 51, 52, 54, 63). -/
def Obligations.FirmwareCommands : Prop :=
  (∀ (s : State),
    let d := s.dev
    let slot := d.arg 0
    let ends := fun (i : Instr) (result : Nat) (words : List Nat) (q : State → Prop) => leads i s (fun u =>
      u.dev.mailbox = some (0x10000 + result) ∧ (∀ j, j < 256 → u.dev.mbxArg.getD j 0 = (words.flatMap (leBytes 8)).getD j 0) ∧ q u)
    let same := fun (u : State) => u.mem = s.mem ∧ u.keys = s.keys ∧ u.dev.mr = d.mr ∧ u.dies = s.dies
    let extended := fun (n : Nat) (digest : BitVec 512) (u : State) => ∀ i,
      u.dev.mr.getD i 0 = if i = n then shake256 (leBytes 64 (d.mr.getD n 0).toNat ++ leBytes 64 digest.toNat) else d.mr.getD i 0
    -- a command that does not wait
    (∀ i c, ((i = .keyload ∧ c = 1) ∨ (i = .keyclear ∧ c = 2) ∨ (i = .attest ∧ c = 0x10) ∨ (i = .extendMr ∧ c = 0x11) ∨ (i = .plimit ∧ c = 0x20) ∨
      (i = .dumpmap ∧ c = 0x30) ∨ (i = .dbgread ∧ c = 0x31)) → d.mailbox ≠ some c → exec i s = .next s) ∧
    (d.mailbox = some 1 →
      ((512 ≤ slot ∨ d.zeroFrom 72 = false) → ends .keyload 2 [] same) ∧
      (slot < 512 → d.zeroFrom 72 = true → ends .keyload 0 [] (fun u => u.mem = s.mem ∧ extended 2 (Config.keyDigest true slot) u ∧
        ∀ k, u.keys.find? k = if k = slot then some (BitVec.ofNat 512 (leNat (d.args 8 64))) else s.keys.find? k))) ∧
    (d.mailbox = some 2 →
      ((512 ≤ slot ∨ d.zeroFrom 8 = false) → ends .keyclear 2 [] same) ∧
      (slot < 512 → d.zeroFrom 8 = true → ends .keyclear 0 [] (fun u => u.mem = s.mem ∧ extended 2 (Config.keyDigest false slot) u ∧
        ∀ k, u.keys.find? k = if k = slot then none else s.keys.find? k))) ∧
    (d.mailbox = some 0x10 →
      let frozen := frozenSpan s (d.arg 5) (d.arg 4) (30416 + Config.certificateLen)
      let bad := 2 ^ 57 ≤ d.arg 4 ∨ 2 ^ 16 ≤ d.arg 5 ∨ d.zeroFrom 48 = false
      let report := d.report (d.args 0 32)
      (frozen = true → exec .attest s = .next s) ∧
      (frozen = false → bad → ends .attest 2 [] same) ∧
      let wrote := s.fwWrite (d.arg 5) (d.arg 4) report
      (frozen = false → ¬bad → ends .attest (if wrote.1 then 0 else 2) (if wrote.1 then [report.length] else [])
        (fun u => u.mem = wrote.2.mem ∧ (wrote.1 = false → u.keys = s.keys ∧ u.dev.mr = d.mr)))) ∧
    (d.mailbox = some 0x11 →
      ((slot < 3 ∨ 7 < slot ∨ d.zeroFrom 72 = false) → ends .extendMr 2 [] same) ∧
      (3 ≤ slot → slot ≤ 7 → d.zeroFrom 72 = true → ends .extendMr 0 [] (fun u => u.mem = s.mem ∧ u.keys = s.keys ∧
        extended slot (BitVec.ofNat 512 (leNat (d.args 8 64))) u))) ∧
    (d.mailbox = some 0x20 →
      let b := max (1280 * slot / 1800) 64
      ((slot < 300 ∨ 1800 < slot ∨ d.zeroFrom 8 = false) → ends .plimit 2 [] same) ∧
      (300 ≤ slot → slot ≤ 1800 → d.zeroFrom 8 = true → ends .plimit 0 [] (fun u => u.mem = s.mem ∧ u.keys = s.keys ∧
        ∀ n, n < 2 → (u.die n).grants = (s.die n).grants ∧
          ((s.die n).hotBudget = none → (u.die n).budget = b ∧ (u.die n).hotBudget = none) ∧
          ((s.die n).hotBudget ≠ none → (u.die n).budget = min (s.die n).budget b ∧ (u.die n).hotBudget = some b)))) ∧
    (d.mailbox = some 0x30 →
      ((2 ≤ slot ∨ d.zeroFrom 8 = false ∨ d.dumps.find? slot = none) → ends .dumpmap 2 [] same) ∧
      ∀ bs, slot < 2 → d.zeroFrom 8 = true → d.dumps.find? slot = some bs →
        ends .dumpmap 0 [Config.dumpOffset slot, bs.length] (fun u => slot ∈ u.dev.dumpMaps ∧ same u)) ∧
    (d.mailbox = some 0x31 →
      let frozen := frozenSpan s (d.arg 3) (d.arg 2) (s.debugBytes slot (d.arg 1))
      let n := d.arg 1
      let bad := 192 ≤ slot ∨ 64 ≤ n ∨ 2 ^ 57 ≤ d.arg 2 ∨ 2 ^ 16 ≤ d.arg 3 ∨ d.zeroFrom 32 = false
      (frozen = true → exec .dbgread s = .next s) ∧
      (frozen = false → bad → ends .dbgread 2 [] same) ∧
      (frozen = false → ¬bad → s.team? slot n = none → ends .dbgread 3 [] same) ∧
      ∀ t, frozen = false → ¬bad → s.team? slot n = some t →
        let held := ∀ g ∈ t.groups, g.2.hold ≠ none ∨ g.2.handling ≠ none
        (¬held → ends .dbgread 3 [] same) ∧
        ∀ g, held → s.grid? t.grid = some g →
          let bytes := t.groups.flatMap (fun x => x.2.saveForm g.v g.s) ++ t.saveForm g.a
          let wrote := s.fwWrite (d.arg 3) (d.arg 2) bytes
          ends .dbgread (if wrote.1 then 0 else 2) [] (fun u => u.mem = wrote.2.mem ∧ (wrote.1 = false → u.keys = s.keys ∧ u.dev.mr = d.mr))) ∧
    -- MAILBOX_DONE
    (let raised := s.dev.msix ++ (s.fns.filter (fun f => f.2.pf && f.2.unmasked.contains 2)).map (fun f => (f.1, 2));
      (∀ r, d.mailbox = some (0x10000 + r) → leads .mailboxDone s (fun u => u.dev.mailbox = none ∧ u.dev.msix = raised ∧ u.dev.mbxArg = d.mbxArg ∧
        u.dev.mbxCtl = BitVec.ofNat 64 (bits d.mbxCtl.toNat 15 0 + r * 2 ^ 32) ∧ u.mem = s.mem)) ∧
      (∀ m, d.mailbox = some m → m < 0x10000 → m ∉ [1, 2, 0x10, 0x11, 0x20, 0x30, 0x31] → leads .mailboxDone s (fun u =>
        u.dev.mailbox = none ∧ u.dev.msix = raised ∧ u.dev.mbxArg = [] ∧ u.dev.mbxCtl = BitVec.ofNat 64 (bits d.mbxCtl.toNat 15 0 + 2 ^ 32))) ∧
      ((d.mailbox = none ∨ ∃ m ∈ [1, 2, 0x10, 0x11, 0x20, 0x30, 0x31], d.mailbox = some m) → exec .mailboxDone s = .next s)) ∧
    -- DEVICE_RESET
    leads .deviceReset s (fun u => u.mem = State.reset.mem ∧ u.cores = State.reset.cores ∧ u.keys = State.reset.keys ∧ u.grids = State.reset.grids ∧
      u.sectors = [] ∧ u.dev.dumps = d.dumps ∧
      let accepted := Config.imageAccepted = true ∧ d.secver ≤ Config.imageVersion
      (¬accepted → u.dev.devstat = 0x10 ∧ u.bringUp = u) ∧
      (accepted → u.dev.devstat = 0 ∧ u.bringUp.dev.devstat = 2 ∧
        let set := Config.cxlSet.setWidth 64 <<< 8
        u.bringUp.bringUp.dev.devstat = 6 ||| set ∧ u.bringUp.bringUp.bringUp.dev.devstat = 14 ||| set ∧
        u.bringUp.bringUp.bringUp.bringUp.dev.devstat = 15 ||| set))) ∧
  -- TEMP_LIMIT, TEMP_BELOW_LIMIT
  ∀ (s : State) (n b : Nat),
    let d := s.die (n % 2)
    leads (.tempLimit n b) s (fun u => { u with dies := s.dies } = s ∧ u.die (n % 2) =
      { d with hotBudget := some (d.hotBudget.getD d.budget), budget := min (max b 64) d.budget }) ∧
    leads (.tempBelowLimit n) s (fun u => { u with dies := s.dies } = s ∧ u.die (n % 2) =
      { d with budget := d.hotBudget.getD d.budget, hotBudget := none })

/-- R317, R320, R327: the opcode stands in bits 63:54; a word of the groups 0xC to 0xF decodes to no instruction (ILLOP detail 1), so no
instruction word begins with the byte 0xC5, and none passes for a clause header (check 0x01 of R316). -/
def Obligations.OpcodesAndReservedGroups : Prop :=
  (∀ (i : Instr) (w : W64), decode w = .ok i → decodeOp (w.toNat / 2 ^ 54) w.toNat = .ok i ∧ w.toNat / 2 ^ 60 < 0xC) ∧
  (∀ w : W64, 0xC ≤ w.toNat / 2 ^ 60 → decode w = .error 1) ∧
  (∀ (i : Instr) (w : W64), decode w = .ok i → w.toNat / 2 ^ 56 ≠ 0xC5) ∧
  ∀ (i : Instr) (w : W64), decode w = .ok i → decodeHeader w = .error 1

/-- R318, R319, R327: words written out from the formats decode to the instructions that they stand for: SADD.I64 S10, S12, #-3; SMOVI;
BRC.LE back by two units; VADD.N32.SAT; LD.B32 with an index register and a negative offset; CPY.GS; MMA; TRAP. -/
def Obligations.WordsDecode : Prop :=
  decode 0x00CC015031FE8000 = .ok (.sadd { ty := .i64, mod := 0, sd := 10, a := .s 12, b := .imm 509, c := .v 0, la := 0 }) ∧
  decode 0x00A0100DEADBEEF0 = .ok (.smovi { sd := 513, imm := 3735928559 }) ∧
  decode 0x109800043FFFFFFE = .ok (.brc { cc := 3, kn := 0, vc := 0, sc := 33, off := 536870910 }) ∧
  decode 0x205A00A01A048000 = .ok (.vadd { ty := .n32, mod := 16, vd := 5, a := .v 6, b := .s 9, c := .v 0, la := 0 }) ∧
  decode 0x606800801827FFC0 = .ok (.ld { ty := .b32, scope := 0, ord := 0, ofr := false, vr := 8, sb := 6, vx := 9, xv := true, off := 8188, la := 0 }) ∧
  decode 0x90780080481004C0 = .ok (.cpyGs { qn := 7, kind := 0, sa := 2, sb := 4, sz := .s 8, so := 9, bv := true, la := 0 }) ∧
  decode 0xA07C3E0000000000 = .ok (.mma { ad := 15, ta := 1, tb := 30, mod := 0, sa := 0, fmtc := 0, rm := 0, sat := false, la := 0 }) ∧
  decode 0xB400000000C80000 = .ok (.trap { sd := 0, sa := 0, sb := 0, x8 := 200, n4 := 0, n2 := 0, fn := 0, m3 := 0, la := 0 })

/-- R318, R319, R326, R327: a word decodes to an instruction just where the instruction is well-formed and the word is its encoding: no bit of
an encoding is dropped, and every word of an instruction is the one that its fields give. -/
def Obligations.DecodeAndEncodeAgree : Prop :=
  ∀ (i : Instr) (w : W64), decode w = .ok i ↔ i.wf = true ∧ encode i = some w

/-- R271, R316, R326, R334: a step whose turn names a step of the machine is that step (a count of what is ready, or a sample, after each
path of the core has been asked what it waits for); one whose turn is a quarter's runs, from the first
path of its choice that is ready, the instruction that its next word decodes to, on the state with that path chosen and booked; a word
that decodes to none raises ILLOP with its detail; a path without a clause fetches the one at its PC, whose words are those of memory
there. Where the agenda names no turn, one of the oracle's comes (log 2). That a fetch takes the quarter's turn (log 66) and that the
addresses of a clause's words wrap at 2^57 (log 82) are the model's choices. -/
def Obligations.StepRunsDecodedInstruction : Prop :=
  ∀ (s : State),
    (s.agenda = [] → step s = State.take exec { s with tick := s.tick + 1 } (oracle s.tick)) ∧
    (∀ i rest, s.agenda = .event i :: rest →
      let s0 : State := { s with agenda := rest }
      step s = exec i (s0.probed exec i) ∧
      ((∀ c, i ≠ .eligibilityCount c) → (∀ c sl g k, i ≠ .sampleTake c sl g k) → step s = exec i s0)) ∧
    ∀ core q rest c others, s.agenda = .issue core q :: rest →
      let s0 : State := { s with agenda := rest }
      let s1 := s0.clearYield core q
      s0.candidates core q = c :: others →
      (∀ w s2, s1.approach c.site = .run w s2 →
        let chosen := { s2 with cur := some c.site }
        (∀ d, decode w = .error d → step s = .next ((s2.book c.site).trapAt c.site 4 d 0)) ∧
        ∀ i, decode w = .ok i →
          (∀ t, exec i (chosen.book c.site) = .next t → t.polls c.site (chosen.pcAt c.site) = false → step s = exec i (chosen.book c.site)) ∧
          (∀ f, exec i (chosen.book c.site) = .fault f → step s = .fault f) ∧
          ∀ r, exec i (chosen.book c.site) = .refused r → step s = .refused r) ∧
      ∀ t g p, s1.team? c.site.core c.site.slot = some t → s1.group? c.site.core c.site.slot c.site.group = some g →
        g.paths.find? c.site.path = some p → p.wait = .none → p.words = [] → g.routine = none → g.lateFor c.site.path p = none →
        ∀ hb s2 h bs s3, s1.readDesc (whoLane c.site) core t.asid .fetch t.sup p.pc.toNat 8 = (.ok hb, s2) →
          decodeHeader (BitVec.ofNat 64 (leNat hb)) = .ok h →
          s2.readDesc (whoLane c.site) core t.asid .fetch t.sup ((p.pc.toNat + 8) % 2 ^ 57) (8 * h.count) = (.ok bs, s3) →
          let words := (List.range h.count).map (fun i => BitVec.ofNat 64 (leNat ((bs.drop (8 * i)).take 8)))
          clauseError h words = 0 → c.site.core = core →
          step s = .next (s3.onPath c.site (fun p => { p with words := words, hdr := h, hdrPc := p.pc, fresh := true, stall := none, pc := p.pc + 8 }))

/-- R163, R326: an instruction that names a register that its group does not have raises BADREG, and changes nothing: the scalar,
vector, cross-lane, floating-point and conversion instructions, loads, stores and atomics, copies, barriers, FIFOs, ranges, phases, tile
and mangle instructions, the control flow and K forms and, for a supervisor team, the control registers. -/
def Obligations.MissingRegistersTrap : Prop :=
  ∀ (s : State) (x : Ctx), s.ctx? = some x →
    let missing := fun (i : Instr) (regs : List Reg) => regs.all x.regOk = false → raises i x s s (x.trapReq 5 0 0)
    -- scalar
    (∀ (f : SopF) i, i ∈ [Instr.sadd f, .ssub f, .smul f, .sand f, .sor f, .sxor f, .smov f, .snot f, .smin f, .smax f] →
      missing i (sopRegs f (tyRegs f.ty) f.ty)) ∧
    (∀ (f : SimmF), missing (.smovi f) [.s f.sd 1]) ∧
    (∀ (f : SopF), missing (.vmovs f) ([Reg.s f.sd (tyRegs f.ty)] ++ acrossRegs f.ty f.a ++ uniRegs f.ty f.b)) ∧
    -- vector, cross-lane and floating-point
    (∀ (f : VopF),
      let gives := fun (i : Instr) (n : Nat) (srcs : List Src) => missing i (Reg.v f.vd n :: srcRegs srcs)
      let a : Src := (f.a, f.ty)
      let b : Src := (f.b, f.ty)
      let b32 : Src := (f.b, .b32)
      let c : Src := (f.c, f.ty)
      let n := tyRegs f.ty
      (∀ i ∈ [Instr.vnot f, .vabs f, .vclz f, .vpopc f, .vbrev f, .vmov f, .vfabs f, .vfneg f, .vfrcp f, .vfrsq f, .vfsqrt f, .vfexp2 f, .vflog2 f,
        .vfsin f, .vfcos f, .vfrnd f], gives i n [a]) ∧
      (∀ i ∈ [Instr.vfclass f, .vmatch f], gives i 1 [a]) ∧
      (∀ i ∈ [Instr.vadd f, .vsub f, .vmul f, .vmulh f, .vand f, .vor f, .vxor f, .vmin f, .vmax f, .viota f, .vfadd f, .vfsub f, .vfmul f, .vfmin f,
        .vfmax f, .vfminn f, .vfmaxn f, .vfdiv f], gives i n [a, b]) ∧
      (∀ i ∈ [Instr.vcmp f, .vfcmp f], gives i 1 [a, b]) ∧
      (∀ i ∈ [Instr.vshl f, .vshr f, .vsar f, .vbcast f], gives i n [a, b32]) ∧
      (∀ i ∈ [Instr.vmad f, .vfma f, .vaddmin f, .vaddmax f], gives i n [a, b, c]) ∧
      (∀ i ∈ [Instr.vshfl f, .vshup f, .vshdn f, .vcompact f], gives i n [a, b32, c]) ∧
      gives (.vsel f) n [a, b, (f.c, .b32)] ∧ gives (.vvote f) 1 [(f.a, .b32)] ∧ gives (.vcmpx f) 2 [(f.a, .b64), b32, (f.c, .b32)] ∧
      ∀ i ∈ [Instr.vred f, .vscan f], missing i ([Reg.v f.vd n] ++ opRegs f.ty f.a)) ∧
    (∀ (f : VcvF) i, i ∈ [Instr.vcvt f, .vcvts f] → missing i ([Reg.v f.vd (if fmtBits f.dfmt = 64 then 2 else 1)] ++ opRegs (fmtTy f.sfmt) f.a)) ∧
    -- memory
    (∀ (f : MemF), (∀ i ∈ [Instr.ld f, .ldr f, .st f], missing i (memRegs f true)) ∧ ∀ i ∈ [Instr.lds f, .sts f], missing i (memRegs f f.ofr)) ∧
    (∀ (f : SmemF) i, i ∈ [Instr.sld f, .sst f] → missing i [.s f.sd (regsOf (memWidth f.ty)), .s f.sb 2]) ∧
    (∀ (f : MemaF), missing (.atom f) ([Reg.v f.vd (tyRegs f.ty), Reg.s f.sb 2] ++ (if f.xv then [Reg.v f.vx 1] else []) ++
      casRegs f.aop (tyRegs f.ty) f.va Reg.v)) ∧
    (∀ (f : SatmF), missing (.atoms f) ([Reg.s f.sd (tyRegs f.ty), Reg.s f.sb 2] ++ casRegs f.aop (tyRegs f.ty) f.sa Reg.s)) ∧
    (∀ (f : CpyF), missing (.cpyGg f) (cpyRegs f 2 2) ∧ missing (.pref f) (cpyRegs f 0 2) ∧
      ∀ i ∈ [Instr.cpyGs f, .cpySg f, .cpySr f, .cpyRs f, .cpyrAdd f, .cpyrMin f, .cpyrMax f, .cpyrAnd f, .cpyrOr f], missing i (cpyRegs f 1 2)) ∧
    -- barriers, FIFOs, ranges, phases, tiles and mangles
    (∀ (f : BarF), missing (.barinit f) [.s f.sa 1] ∧ missing (.barinv f) [.s f.sa 1] ∧ missing (.bararr f) [.s f.sd 1, .s f.sa 1] ∧
      missing (.barwait f) [.s f.sa 1, .s f.sg 1]) ∧
    (∀ (f : EngF),
      (∀ i ∈ [Instr.qput f, .qget f], missing i [.v f.x8 (if f.m3 = 1 then 2 else 1), .s f.sa 1]) ∧
      missing (.sramcfgFifo f) [.s f.sd 1] ∧ missing (.sramcfgFree f) [.s f.sa 1] ∧
      missing (.recBegin f) [.s f.sd 1, .s f.sa 2, .s f.sb 1] ∧ (∀ i ∈ [Instr.recEnd f, .recReplay f, .recForget f], missing i [.s f.sd 1]) ∧
      missing (.recStat f) [.s f.sd 8] ∧ missing (.phase f) [.s f.sd 1, .s f.sa 2, .s f.sb 1] ∧ missing (.publish f) [.s f.sa 2] ∧
      missing (.mngi f) [.s f.sd 1, .s f.sa 2] ∧ missing (.mngu f) [.s f.sd 1, .s f.sa 1] ∧ (∀ i ∈ [Instr.launch f, .plaunch f], missing i [.s f.sa 2]) ∧
      (x.t.sup = true → missing (.csrr f) [.s f.sd 2] ∧ missing (.csrw f) [.s f.sa 2])) ∧
    (∀ (f : MtxF), missing (.tmap f) [.s f.sa 4] ∧ missing (.tmapRd f) [.s f.sa 4] ∧ missing (.tside f) [.s f.sa 1] ∧ missing (.mzero f) [.acc f.ad] ∧
      ∀ i ∈ [Instr.mlda f, .mprog f, .mprogSet f], missing i [.acc f.ad, .s f.sa 1]) ∧
    -- control flow and K forms
    (∀ (f : BrF), missing (.brc f) [.s f.sc 1] ∧ (∀ i ∈ [Instr.call f, .ret f, .jmpi f], missing i [.s f.sc 2]) ∧
      ∀ i ∈ [Instr.ifLanes f, .brv f], missing i [.v f.vc 1]) ∧
    (∀ (f : SpcF), missing (.srdsr f) [if f.dv then .v f.reg 1 else .s f.reg (if f.sreg = 6 then 2 else 1)] ∧
      missing (.swrsr f) [if f.dv then .v f.reg 1 else .s f.reg 1]) ∧
    ∀ (f : KopF), (f.fld ≠ 0 → missing (.kmov f) [.s f.sr (if f.fld = 2 then 2 else 1)]) ∧ ∀ i ∈ [Instr.kand f, .kor f], missing i [.s f.sr 1]

/-- R17, R22, R309: the memory of the machine right after reset is in its canonical form, and so is that of every checkpoint it keeps. -/
def Obligations.ResetIsSound : Prop := State.reset.sound

/-- R17, R22, R309: whatever a step does, the memory that it leaves is in its canonical form (addresses strictly rising, each listed once),
and so is that of every checkpoint it keeps. -/
def Obligations.EveryStepKeepsSoundness : Prop :=
  ∀ (s t : State), s.sound → step s = .next t → t.sound
end

