-- ==== Sys2Proof/Laws/Encoding.lean ====
section
/-! SUPPORT. The fields of a word come back from it (R318, R319): one lemma per format. -/

namespace Sys2Proof

theorem pack_lt (l : List (Nat × Nat)) (h : ∀ p ∈ l, p.2 < 2 ^ p.1) : pack l < 2 ^ (l.map (fun p => p.1)).sum := by
  induction l with
  | nil => simp [pack]
  | cons p t ih =>
    have h1 := h p (List.mem_cons_self ..)
    have h2 := ih (fun q hq => h q (List.mem_cons_of_mem _ hq))
    simp only [pack, List.map_cons, List.sum_cons, Nat.pow_add]
    calc p.2 + 2 ^ p.1 * pack t < 2 ^ p.1 + 2 ^ p.1 * pack t := by omega
      _ = 2 ^ p.1 * (pack t + 1) := by rw [Nat.mul_add]; omega
      _ ≤ _ := Nat.mul_le_mul_left _ h2

/-- Fields that fit their widths are read back. -/
theorem unpack_pack (l r : List (Nat × Nat)) (h : ∀ p ∈ l, p.2 < 2 ^ p.1) : unpack (l.map (fun p => p.1)) (pack (l ++ r)) = l.map (fun p => p.2) := by
  induction l with
  | nil => rfl
  | cons p t ih =>
    have h1 := h p (List.mem_cons_self ..)
    have hp : 0 < 2 ^ p.1 := Nat.two_pow_pos _
    simp only [List.map_cons, List.cons_append, pack, unpack]
    rw [Nat.add_mul_mod_self_left, Nat.mod_eq_of_lt h1, Nat.add_mul_div_left _ _ hp, Nat.div_eq_of_lt h1, Nat.zero_add,
      ih (fun q hq => h q (List.mem_cons_of_mem _ hq))]

/-- What stands above the fields. -/
theorem pack_div (l r : List (Nat × Nat)) (h : ∀ p ∈ l, p.2 < 2 ^ p.1) : pack (l ++ r) / 2 ^ (l.map (fun p => p.1)).sum = pack r := by
  induction l with
  | nil => simp
  | cons p t ih =>
    have h1 := h p (List.mem_cons_self ..)
    have hp : 0 < 2 ^ p.1 := Nat.two_pow_pos _
    simp only [List.map_cons, List.cons_append, pack, List.sum_cons, Nat.pow_add]
    rw [← Nat.div_div_eq_div_mul, Nat.add_mul_div_left _ _ hp, Nat.div_eq_of_lt h1, Nat.zero_add, ih (fun q hq => h q (List.mem_cons_of_mem _ hq))]

theorem Ty.code_lt (t : Ty) : t.code < 16 := by cases t <;> decide
@[simp] theorem Ty.ofCode_code (t : Ty) : Ty.ofCode t.code = t := by cases t <;> rfl
theorem Opnd.code_lt {o : Opnd} (h : o.fits = true) : o.code < 2048 := by
  cases o <;> simp [Opnd.fits] at h <;> simp [Opnd.code] <;> omega
theorem Opnd.ofCode_code {o : Opnd} (h : o.fits = true) : Opnd.ofCode o.code = o := by
  cases o with
  | v r =>
    have hr : r < 256 := by simpa [Opnd.fits] using h
    have h1 : ¬ 1024 ≤ r := by omega
    have h2 : ¬ 512 ≤ r := by omega
    simp [Opnd.ofCode, Opnd.code, h1, h2]
  | imm i =>
    have hr : i < 512 := by simpa [Opnd.fits] using h
    have h1 : ¬ 1024 ≤ 512 + i := by omega
    simp [Opnd.ofCode, Opnd.code, h1]
  | s r => simp [Opnd.ofCode, Opnd.code]
theorem boolNat_lt (b : Bool) : boolNat b < 2 := by cases b <;> decide
@[simp] theorem decide_boolNat (b : Bool) : decide (boolNat b = 1) = b := by cases b <;> rfl

/-- A word that decodes by its opcode. -/
theorem decode_word {n opc : Nat} (h : n < 2 ^ 64) (ho : n / 2 ^ 54 = opc) : decode (BitVec.ofNat 64 n) = decodeOp opc n := by
  simp only [decode, BitVec.toNat_ofNat, Nat.mod_eq_of_lt h, ho]

theorem VopF.fields_fit {f : VopF} (h : f.fits = true) : ∀ p ∈ ([(4, f.la), (11, f.c.code), (11, f.b.code), (11, f.a.code), (8, f.vd), (5, f.mod), (4, f.ty.code)] : List (Nat × Nat)), p.2 < 2 ^ p.1 := by
  have h' := h
  simp only [VopF.fits, Bool.and_eq_true, decide_eq_true_eq] at h'
  simp only [List.mem_cons, List.not_mem_nil, or_false, forall_eq_or_imp, forall_eq]
  refine ⟨?_, ?_, ?_, ?_, ?_, ?_, ?_⟩
  · omega
  · exact Opnd.code_lt (by simp only [h'])
  · exact Opnd.code_lt (by simp only [h'])
  · exact Opnd.code_lt (by simp only [h'])
  · omega
  · omega
  · exact Ty.code_lt _
theorem VopF.toWord_div {f : VopF} (h : f.fits = true) (opc : Nat) : f.toWord opc / 2 ^ 54 = opc := by
  have := pack_div [(4, f.la), (11, f.c.code), (11, f.b.code), (11, f.a.code), (8, f.vd), (5, f.mod), (4, f.ty.code)] [(10, opc)] (VopF.fields_fit h)
  simpa [VopF.toWord, pack] using this
theorem VopF.toWord_lt {f : VopF} (h : f.fits = true) {opc : Nat} (ho : opc < 1024) : f.toWord opc < 2 ^ 64 := by
  have := VopF.toWord_div h opc
  omega
theorem VopF.unpack_toWord {f : VopF} (h : f.fits = true) (opc : Nat) : unpack vopWidths (f.toWord opc) = [f.la, f.c.code, f.b.code, f.a.code, f.vd, f.mod, f.ty.code] :=
  unpack_pack [(4, f.la), (11, f.c.code), (11, f.b.code), (11, f.a.code), (8, f.vd), (5, f.mod), (4, f.ty.code)] [(10, opc)] (VopF.fields_fit h)
theorem VopF.ofWord_toWord {f : VopF} (h : f.fits = true) (opc : Nat) : VopF.ofWord (f.toWord opc) = f := by
  have h' := h
  simp only [VopF.fits, Bool.and_eq_true, decide_eq_true_eq] at h'
  simp only [VopF.ofWord, VopF.unpack_toWord h, Ty.ofCode_code]
  rw [Opnd.ofCode_code (o := f.c) (by simp only [h']), Opnd.ofCode_code (o := f.b) (by simp only [h']), Opnd.ofCode_code (o := f.a) (by simp only [h'])]
theorem VopF.read_toWord {f : VopF} {p : VopSpec} (mk : VopF → Instr) (h : f.fits = true) (hc : f.check p = 0) (opc : Nat) :
    VopF.read p mk (f.toWord opc) = .ok (mk f) := by
  simp only [VopF.read, VopF.ofWord_toWord h, hc, if_true]
/-- An instruction of the format that its opcode reads is what its word decodes to. -/
theorem VopF.decode_toWord {f : VopF} {p : VopSpec} {mk : VopF → Instr} {opc : Nat} {w : W64} (ho : opc < 1024)
    (hd : f.fits = true → f.check p = 0 → decodeOp opc (f.toWord opc) = VopF.read p mk (f.toWord opc))
    (h : (f.fits && decide (f.check p = 0)) = true) (hw : some (BitVec.ofNat 64 (f.toWord opc)) = some w) : decode w = .ok (mk f) := by
  simp only [Bool.and_eq_true, decide_eq_true_eq] at h
  obtain rfl := Option.some.inj hw
  rw [decode_word (VopF.toWord_lt h.1 ho) (VopF.toWord_div h.1 _), hd h.1 h.2]
  exact VopF.read_toWord mk h.1 h.2 opc

theorem SopF.fields_fit {f : SopF} (h : f.fits = true) : ∀ p ∈ ([(4, f.la), (11, f.c.code), (11, f.b.code), (11, f.a.code), (10, f.sd), (3, f.mod), (4, f.ty.code)] : List (Nat × Nat)), p.2 < 2 ^ p.1 := by
  have h' := h
  simp only [SopF.fits, Bool.and_eq_true, decide_eq_true_eq] at h'
  simp only [List.mem_cons, List.not_mem_nil, or_false, forall_eq_or_imp, forall_eq]
  refine ⟨?_, ?_, ?_, ?_, ?_, ?_, ?_⟩
  · omega
  · exact Opnd.code_lt (by simp only [h'])
  · exact Opnd.code_lt (by simp only [h'])
  · exact Opnd.code_lt (by simp only [h'])
  · omega
  · omega
  · exact Ty.code_lt _
theorem SopF.toWord_div {f : SopF} (h : f.fits = true) (opc : Nat) : f.toWord opc / 2 ^ 54 = opc := by
  have := pack_div [(4, f.la), (11, f.c.code), (11, f.b.code), (11, f.a.code), (10, f.sd), (3, f.mod), (4, f.ty.code)] [(10, opc)] (SopF.fields_fit h)
  simpa [SopF.toWord, pack] using this
theorem SopF.toWord_lt {f : SopF} (h : f.fits = true) {opc : Nat} (ho : opc < 1024) : f.toWord opc < 2 ^ 64 := by
  have := SopF.toWord_div h opc
  omega
theorem SopF.unpack_toWord {f : SopF} (h : f.fits = true) (opc : Nat) : unpack sopWidths (f.toWord opc) = [f.la, f.c.code, f.b.code, f.a.code, f.sd, f.mod, f.ty.code] :=
  unpack_pack [(4, f.la), (11, f.c.code), (11, f.b.code), (11, f.a.code), (10, f.sd), (3, f.mod), (4, f.ty.code)] [(10, opc)] (SopF.fields_fit h)
theorem SopF.ofWord_toWord {f : SopF} (h : f.fits = true) (opc : Nat) : SopF.ofWord (f.toWord opc) = f := by
  have h' := h
  simp only [SopF.fits, Bool.and_eq_true, decide_eq_true_eq] at h'
  simp only [SopF.ofWord, SopF.unpack_toWord h, Ty.ofCode_code]
  rw [Opnd.ofCode_code (o := f.c) (by simp only [h']), Opnd.ofCode_code (o := f.b) (by simp only [h']), Opnd.ofCode_code (o := f.a) (by simp only [h'])]
theorem SopF.read_toWord {f : SopF} {p : SopSpec} (mk : SopF → Instr) (h : f.fits = true) (hc : f.check p = 0) (opc : Nat) :
    SopF.read p mk (f.toWord opc) = .ok (mk f) := by
  simp only [SopF.read, SopF.ofWord_toWord h, hc, if_true]
/-- An instruction of the format that its opcode reads is what its word decodes to. -/
theorem SopF.decode_toWord {f : SopF} {p : SopSpec} {mk : SopF → Instr} {opc : Nat} {w : W64} (ho : opc < 1024)
    (hd : f.fits = true → f.check p = 0 → decodeOp opc (f.toWord opc) = SopF.read p mk (f.toWord opc))
    (h : (f.fits && decide (f.check p = 0)) = true) (hw : some (BitVec.ofNat 64 (f.toWord opc)) = some w) : decode w = .ok (mk f) := by
  simp only [Bool.and_eq_true, decide_eq_true_eq] at h
  obtain rfl := Option.some.inj hw
  rw [decode_word (SopF.toWord_lt h.1 ho) (SopF.toWord_div h.1 _), hd h.1 h.2]
  exact SopF.read_toWord mk h.1 h.2 opc

theorem SimmF.fields_fit {f : SimmF} (h : f.fits = true) : ∀ p ∈ ([(4, 0), (32, f.imm), (8, 0), (10, f.sd)] : List (Nat × Nat)), p.2 < 2 ^ p.1 := by
  have h' := h
  simp only [SimmF.fits, Bool.and_eq_true, decide_eq_true_eq] at h'
  simp only [List.mem_cons, List.not_mem_nil, or_false, forall_eq_or_imp, forall_eq]
  refine ⟨?_, ?_, ?_, ?_⟩
  · decide
  · omega
  · decide
  · omega
theorem SimmF.toWord_div {f : SimmF} (h : f.fits = true) (opc : Nat) : f.toWord opc / 2 ^ 54 = opc := by
  have := pack_div [(4, 0), (32, f.imm), (8, 0), (10, f.sd)] [(10, opc)] (SimmF.fields_fit h)
  simpa [SimmF.toWord, pack] using this
theorem SimmF.toWord_lt {f : SimmF} (h : f.fits = true) {opc : Nat} (ho : opc < 1024) : f.toWord opc < 2 ^ 64 := by
  have := SimmF.toWord_div h opc
  omega
theorem SimmF.unpack_toWord {f : SimmF} (h : f.fits = true) (opc : Nat) : unpack simmWidths (f.toWord opc) = [0, f.imm, 0, f.sd] :=
  unpack_pack [(4, 0), (32, f.imm), (8, 0), (10, f.sd)] [(10, opc)] (SimmF.fields_fit h)
theorem SimmF.ofWord_toWord {f : SimmF} (h : f.fits = true) (opc : Nat) : SimmF.ofWord (f.toWord opc) = f := by
  have h' := h
  simp only [SimmF.fits, Bool.and_eq_true, decide_eq_true_eq] at h'
  simp only [SimmF.ofWord, SimmF.unpack_toWord h]
theorem SimmF.zero_toWord {f : SimmF} (h : f.fits = true) (opc : Nat) : simmZero (f.toWord opc) = true := by
  simp [simmZero, SimmF.unpack_toWord h]
theorem SimmF.read_toWord {f : SimmF} {p : SimmSpec} (mk : SimmF → Instr) (h : f.fits = true) (hc : f.check p = 0) (opc : Nat) :
    SimmF.read p mk (f.toWord opc) = .ok (mk f) := by
  simp only [SimmF.read, SimmF.ofWord_toWord h, hc, SimmF.zero_toWord h, if_true, if_true]
/-- An instruction of the format that its opcode reads is what its word decodes to. -/
theorem SimmF.decode_toWord {f : SimmF} {p : SimmSpec} {mk : SimmF → Instr} {opc : Nat} {w : W64} (ho : opc < 1024)
    (hd : f.fits = true → f.check p = 0 → decodeOp opc (f.toWord opc) = SimmF.read p mk (f.toWord opc))
    (h : (f.fits && decide (f.check p = 0)) = true) (hw : some (BitVec.ofNat 64 (f.toWord opc)) = some w) : decode w = .ok (mk f) := by
  simp only [Bool.and_eq_true, decide_eq_true_eq] at h
  obtain rfl := Option.some.inj hw
  rw [decode_word (SimmF.toWord_lt h.1 ho) (SimmF.toWord_div h.1 _), hd h.1 h.2]
  exact SimmF.read_toWord mk h.1 h.2 opc

theorem BrF.fields_fit {f : BrF} (h : f.fits = true) : ∀ p ∈ ([(29, f.off), (10, f.sc), (8, f.vc), (4, f.kn), (3, f.cc)] : List (Nat × Nat)), p.2 < 2 ^ p.1 := by
  have h' := h
  simp only [BrF.fits, Bool.and_eq_true, decide_eq_true_eq] at h'
  simp only [List.mem_cons, List.not_mem_nil, or_false, forall_eq_or_imp, forall_eq]
  refine ⟨?_, ?_, ?_, ?_, ?_⟩
  · omega
  · omega
  · omega
  · omega
  · omega
theorem BrF.toWord_div {f : BrF} (h : f.fits = true) (opc : Nat) : f.toWord opc / 2 ^ 54 = opc := by
  have := pack_div [(29, f.off), (10, f.sc), (8, f.vc), (4, f.kn), (3, f.cc)] [(10, opc)] (BrF.fields_fit h)
  simpa [BrF.toWord, pack] using this
theorem BrF.toWord_lt {f : BrF} (h : f.fits = true) {opc : Nat} (ho : opc < 1024) : f.toWord opc < 2 ^ 64 := by
  have := BrF.toWord_div h opc
  omega
theorem BrF.unpack_toWord {f : BrF} (h : f.fits = true) (opc : Nat) : unpack brWidths (f.toWord opc) = [f.off, f.sc, f.vc, f.kn, f.cc] :=
  unpack_pack [(29, f.off), (10, f.sc), (8, f.vc), (4, f.kn), (3, f.cc)] [(10, opc)] (BrF.fields_fit h)
theorem BrF.ofWord_toWord {f : BrF} (h : f.fits = true) (opc : Nat) : BrF.ofWord (f.toWord opc) = f := by
  have h' := h
  simp only [BrF.fits, Bool.and_eq_true, decide_eq_true_eq] at h'
  simp only [BrF.ofWord, BrF.unpack_toWord h]
theorem BrF.read_toWord {f : BrF} {p : BrSpec} (mk : BrF → Instr) (h : f.fits = true) (hc : f.check p = 0) (opc : Nat) :
    BrF.read p mk (f.toWord opc) = .ok (mk f) := by
  simp only [BrF.read, BrF.ofWord_toWord h, hc, if_true]
/-- An instruction of the format that its opcode reads is what its word decodes to. -/
theorem BrF.decode_toWord {f : BrF} {p : BrSpec} {mk : BrF → Instr} {opc : Nat} {w : W64} (ho : opc < 1024)
    (hd : f.fits = true → f.check p = 0 → decodeOp opc (f.toWord opc) = BrF.read p mk (f.toWord opc))
    (h : (f.fits && decide (f.check p = 0)) = true) (hw : some (BitVec.ofNat 64 (f.toWord opc)) = some w) : decode w = .ok (mk f) := by
  simp only [Bool.and_eq_true, decide_eq_true_eq] at h
  obtain rfl := Option.some.inj hw
  rw [decode_word (BrF.toWord_lt h.1 ho) (BrF.toWord_div h.1 _), hd h.1 h.2]
  exact BrF.read_toWord mk h.1 h.2 opc

theorem KopF.fields_fit {f : KopF} (h : f.fits = true) : ∀ p ∈ ([(33, 0), (10, f.sr), (1, boolNat f.dir), (2, f.fld), (4, f.ks), (4, f.kd)] : List (Nat × Nat)), p.2 < 2 ^ p.1 := by
  have h' := h
  simp only [KopF.fits, Bool.and_eq_true, decide_eq_true_eq] at h'
  simp only [List.mem_cons, List.not_mem_nil, or_false, forall_eq_or_imp, forall_eq]
  refine ⟨?_, ?_, ?_, ?_, ?_, ?_⟩
  · decide
  · omega
  · exact boolNat_lt _
  · omega
  · omega
  · omega
theorem KopF.toWord_div {f : KopF} (h : f.fits = true) (opc : Nat) : f.toWord opc / 2 ^ 54 = opc := by
  have := pack_div [(33, 0), (10, f.sr), (1, boolNat f.dir), (2, f.fld), (4, f.ks), (4, f.kd)] [(10, opc)] (KopF.fields_fit h)
  simpa [KopF.toWord, pack] using this
theorem KopF.toWord_lt {f : KopF} (h : f.fits = true) {opc : Nat} (ho : opc < 1024) : f.toWord opc < 2 ^ 64 := by
  have := KopF.toWord_div h opc
  omega
theorem KopF.unpack_toWord {f : KopF} (h : f.fits = true) (opc : Nat) : unpack kopWidths (f.toWord opc) = [0, f.sr, boolNat f.dir, f.fld, f.ks, f.kd] :=
  unpack_pack [(33, 0), (10, f.sr), (1, boolNat f.dir), (2, f.fld), (4, f.ks), (4, f.kd)] [(10, opc)] (KopF.fields_fit h)
theorem KopF.ofWord_toWord {f : KopF} (h : f.fits = true) (opc : Nat) : KopF.ofWord (f.toWord opc) = f := by
  have h' := h
  simp only [KopF.fits, Bool.and_eq_true, decide_eq_true_eq] at h'
  simp only [KopF.ofWord, KopF.unpack_toWord h, decide_boolNat]
theorem KopF.zero_toWord {f : KopF} (h : f.fits = true) (opc : Nat) : kopZero (f.toWord opc) = true := by
  simp [kopZero, KopF.unpack_toWord h]
theorem KopF.read_toWord {f : KopF} {p : KopSpec} (mk : KopF → Instr) (h : f.fits = true) (hc : f.check p = 0) (opc : Nat) :
    KopF.read p mk (f.toWord opc) = .ok (mk f) := by
  simp only [KopF.read, KopF.ofWord_toWord h, hc, KopF.zero_toWord h, if_true, if_true]
/-- An instruction of the format that its opcode reads is what its word decodes to. -/
theorem KopF.decode_toWord {f : KopF} {p : KopSpec} {mk : KopF → Instr} {opc : Nat} {w : W64} (ho : opc < 1024)
    (hd : f.fits = true → f.check p = 0 → decodeOp opc (f.toWord opc) = KopF.read p mk (f.toWord opc))
    (h : (f.fits && decide (f.check p = 0)) = true) (hw : some (BitVec.ofNat 64 (f.toWord opc)) = some w) : decode w = .ok (mk f) := by
  simp only [Bool.and_eq_true, decide_eq_true_eq] at h
  obtain rfl := Option.some.inj hw
  rw [decode_word (KopF.toWord_lt h.1 ho) (KopF.toWord_div h.1 _), hd h.1 h.2]
  exact KopF.read_toWord mk h.1 h.2 opc

theorem SpcF.fields_fit {f : SpcF} (h : f.fits = true) : ∀ p ∈ ([(38, 0), (10, f.reg), (5, f.sreg), (1, boolNat f.dv)] : List (Nat × Nat)), p.2 < 2 ^ p.1 := by
  have h' := h
  simp only [SpcF.fits, Bool.and_eq_true, decide_eq_true_eq] at h'
  simp only [List.mem_cons, List.not_mem_nil, or_false, forall_eq_or_imp, forall_eq]
  refine ⟨?_, ?_, ?_, ?_⟩
  · decide
  · omega
  · omega
  · exact boolNat_lt _
theorem SpcF.toWord_div {f : SpcF} (h : f.fits = true) (opc : Nat) : f.toWord opc / 2 ^ 54 = opc := by
  have := pack_div [(38, 0), (10, f.reg), (5, f.sreg), (1, boolNat f.dv)] [(10, opc)] (SpcF.fields_fit h)
  simpa [SpcF.toWord, pack] using this
theorem SpcF.toWord_lt {f : SpcF} (h : f.fits = true) {opc : Nat} (ho : opc < 1024) : f.toWord opc < 2 ^ 64 := by
  have := SpcF.toWord_div h opc
  omega
theorem SpcF.unpack_toWord {f : SpcF} (h : f.fits = true) (opc : Nat) : unpack spcWidths (f.toWord opc) = [0, f.reg, f.sreg, boolNat f.dv] :=
  unpack_pack [(38, 0), (10, f.reg), (5, f.sreg), (1, boolNat f.dv)] [(10, opc)] (SpcF.fields_fit h)
theorem SpcF.ofWord_toWord {f : SpcF} (h : f.fits = true) (opc : Nat) : SpcF.ofWord (f.toWord opc) = f := by
  have h' := h
  simp only [SpcF.fits, Bool.and_eq_true, decide_eq_true_eq] at h'
  simp only [SpcF.ofWord, SpcF.unpack_toWord h, decide_boolNat]
theorem SpcF.zero_toWord {f : SpcF} (h : f.fits = true) (opc : Nat) : spcZero (f.toWord opc) = true := by
  simp [spcZero, SpcF.unpack_toWord h]
theorem SpcF.read_toWord {f : SpcF} {p : SpcSpec} (mk : SpcF → Instr) (h : f.fits = true) (hc : f.check p = 0) (opc : Nat) :
    SpcF.read p mk (f.toWord opc) = .ok (mk f) := by
  simp only [SpcF.read, SpcF.ofWord_toWord h, hc, SpcF.zero_toWord h, if_true, if_true]
/-- An instruction of the format that its opcode reads is what its word decodes to. -/
theorem SpcF.decode_toWord {f : SpcF} {p : SpcSpec} {mk : SpcF → Instr} {opc : Nat} {w : W64} (ho : opc < 1024)
    (hd : f.fits = true → f.check p = 0 → decodeOp opc (f.toWord opc) = SpcF.read p mk (f.toWord opc))
    (h : (f.fits && decide (f.check p = 0)) = true) (hw : some (BitVec.ofNat 64 (f.toWord opc)) = some w) : decode w = .ok (mk f) := by
  simp only [Bool.and_eq_true, decide_eq_true_eq] at h
  obtain rfl := Option.some.inj hw
  rw [decode_word (SpcF.toWord_lt h.1 ho) (SpcF.toWord_div h.1 _), hd h.1 h.2]
  exact SpcF.read_toWord mk h.1 h.2 opc

theorem WcntF.fields_fit {f : WcntF} (h : f.fits = true) : ∀ p ∈ ([(34, 0), (4, f.st), (4, f.cp), (4, f.mx), (4, f.sm), (4, f.vm)] : List (Nat × Nat)), p.2 < 2 ^ p.1 := by
  have h' := h
  simp only [WcntF.fits, Bool.and_eq_true, decide_eq_true_eq] at h'
  simp only [List.mem_cons, List.not_mem_nil, or_false, forall_eq_or_imp, forall_eq]
  refine ⟨?_, ?_, ?_, ?_, ?_, ?_⟩
  · decide
  · omega
  · omega
  · omega
  · omega
  · omega
theorem WcntF.toWord_div {f : WcntF} (h : f.fits = true) (opc : Nat) : f.toWord opc / 2 ^ 54 = opc := by
  have := pack_div [(34, 0), (4, f.st), (4, f.cp), (4, f.mx), (4, f.sm), (4, f.vm)] [(10, opc)] (WcntF.fields_fit h)
  simpa [WcntF.toWord, pack] using this
theorem WcntF.toWord_lt {f : WcntF} (h : f.fits = true) {opc : Nat} (ho : opc < 1024) : f.toWord opc < 2 ^ 64 := by
  have := WcntF.toWord_div h opc
  omega
theorem WcntF.unpack_toWord {f : WcntF} (h : f.fits = true) (opc : Nat) : unpack wcntWidths (f.toWord opc) = [0, f.st, f.cp, f.mx, f.sm, f.vm] :=
  unpack_pack [(34, 0), (4, f.st), (4, f.cp), (4, f.mx), (4, f.sm), (4, f.vm)] [(10, opc)] (WcntF.fields_fit h)
theorem WcntF.ofWord_toWord {f : WcntF} (h : f.fits = true) (opc : Nat) : WcntF.ofWord (f.toWord opc) = f := by
  have h' := h
  simp only [WcntF.fits, Bool.and_eq_true, decide_eq_true_eq] at h'
  simp only [WcntF.ofWord, WcntF.unpack_toWord h]
theorem WcntF.zero_toWord {f : WcntF} (h : f.fits = true) (opc : Nat) : wcntZero (f.toWord opc) = true := by
  simp [wcntZero, WcntF.unpack_toWord h]
theorem WcntF.read_toWord {f : WcntF} (mk : WcntF → Instr) (h : f.fits = true) (hc : f.check = 0) (opc : Nat) :
    WcntF.read mk (f.toWord opc) = .ok (mk f) := by
  simp only [WcntF.read, WcntF.ofWord_toWord h, hc, WcntF.zero_toWord h, if_true, if_true]
/-- An instruction of the format that its opcode reads is what its word decodes to. -/
theorem WcntF.decode_toWord {f : WcntF} {mk : WcntF → Instr} {opc : Nat} {w : W64} (ho : opc < 1024)
    (hd : f.fits = true → f.check = 0 → decodeOp opc (f.toWord opc) = WcntF.read mk (f.toWord opc))
    (h : (f.fits && decide (f.check = 0)) = true) (hw : some (BitVec.ofNat 64 (f.toWord opc)) = some w) : decode w = .ok (mk f) := by
  simp only [Bool.and_eq_true, decide_eq_true_eq] at h
  obtain rfl := Option.some.inj hw
  rw [decode_word (WcntF.toWord_lt h.1 ho) (WcntF.toWord_div h.1 _), hd h.1 h.2]
  exact WcntF.read_toWord mk h.1 h.2 opc

theorem MemF.fields_fit {f : MemF} (h : f.fits = true) : ∀ p ∈ ([(4, f.la), (13, f.off), (1, boolNat f.xv), (8, f.vx), (10, f.sb), (8, f.vr), (1, boolNat f.ofr), (2, f.ord), (3, f.scope), (4, f.ty.code)] : List (Nat × Nat)), p.2 < 2 ^ p.1 := by
  have h' := h
  simp only [MemF.fits, Bool.and_eq_true, decide_eq_true_eq] at h'
  simp only [List.mem_cons, List.not_mem_nil, or_false, forall_eq_or_imp, forall_eq]
  refine ⟨?_, ?_, ?_, ?_, ?_, ?_, ?_, ?_, ?_, ?_⟩
  · omega
  · omega
  · exact boolNat_lt _
  · omega
  · omega
  · omega
  · exact boolNat_lt _
  · omega
  · omega
  · exact Ty.code_lt _
theorem MemF.toWord_div {f : MemF} (h : f.fits = true) (opc : Nat) : f.toWord opc / 2 ^ 54 = opc := by
  have := pack_div [(4, f.la), (13, f.off), (1, boolNat f.xv), (8, f.vx), (10, f.sb), (8, f.vr), (1, boolNat f.ofr), (2, f.ord), (3, f.scope), (4, f.ty.code)] [(10, opc)] (MemF.fields_fit h)
  simpa [MemF.toWord, pack] using this
theorem MemF.toWord_lt {f : MemF} (h : f.fits = true) {opc : Nat} (ho : opc < 1024) : f.toWord opc < 2 ^ 64 := by
  have := MemF.toWord_div h opc
  omega
theorem MemF.unpack_toWord {f : MemF} (h : f.fits = true) (opc : Nat) : unpack memWidths (f.toWord opc) = [f.la, f.off, boolNat f.xv, f.vx, f.sb, f.vr, boolNat f.ofr, f.ord, f.scope, f.ty.code] :=
  unpack_pack [(4, f.la), (13, f.off), (1, boolNat f.xv), (8, f.vx), (10, f.sb), (8, f.vr), (1, boolNat f.ofr), (2, f.ord), (3, f.scope), (4, f.ty.code)] [(10, opc)] (MemF.fields_fit h)
theorem MemF.ofWord_toWord {f : MemF} (h : f.fits = true) (opc : Nat) : MemF.ofWord (f.toWord opc) = f := by
  have h' := h
  simp only [MemF.fits, Bool.and_eq_true, decide_eq_true_eq] at h'
  simp only [MemF.ofWord, MemF.unpack_toWord h, Ty.ofCode_code, decide_boolNat]
theorem MemF.read_toWord {f : MemF} {p : MemSpec} (mk : MemF → Instr) (h : f.fits = true) (hc : f.check p = 0) (opc : Nat) :
    MemF.read p mk (f.toWord opc) = .ok (mk f) := by
  simp only [MemF.read, MemF.ofWord_toWord h, hc, if_true]
/-- An instruction of the format that its opcode reads is what its word decodes to. -/
theorem MemF.decode_toWord {f : MemF} {p : MemSpec} {mk : MemF → Instr} {opc : Nat} {w : W64} (ho : opc < 1024)
    (hd : f.fits = true → f.check p = 0 → decodeOp opc (f.toWord opc) = MemF.read p mk (f.toWord opc))
    (h : (f.fits && decide (f.check p = 0)) = true) (hw : some (BitVec.ofNat 64 (f.toWord opc)) = some w) : decode w = .ok (mk f) := by
  simp only [Bool.and_eq_true, decide_eq_true_eq] at h
  obtain rfl := Option.some.inj hw
  rw [decode_word (MemF.toWord_lt h.1 ho) (MemF.toWord_div h.1 _), hd h.1 h.2]
  exact MemF.read_toWord mk h.1 h.2 opc

theorem SmemF.fields_fit {f : SmemF} (h : f.fits = true) : ∀ p ∈ ([(4, f.la), (20, f.off), (10, f.sb), (10, f.sd), (1, boolNat f.ofr), (2, f.ord), (3, f.scope), (4, f.ty.code)] : List (Nat × Nat)), p.2 < 2 ^ p.1 := by
  have h' := h
  simp only [SmemF.fits, Bool.and_eq_true, decide_eq_true_eq] at h'
  simp only [List.mem_cons, List.not_mem_nil, or_false, forall_eq_or_imp, forall_eq]
  refine ⟨?_, ?_, ?_, ?_, ?_, ?_, ?_, ?_⟩
  · omega
  · omega
  · omega
  · omega
  · exact boolNat_lt _
  · omega
  · omega
  · exact Ty.code_lt _
theorem SmemF.toWord_div {f : SmemF} (h : f.fits = true) (opc : Nat) : f.toWord opc / 2 ^ 54 = opc := by
  have := pack_div [(4, f.la), (20, f.off), (10, f.sb), (10, f.sd), (1, boolNat f.ofr), (2, f.ord), (3, f.scope), (4, f.ty.code)] [(10, opc)] (SmemF.fields_fit h)
  simpa [SmemF.toWord, pack] using this
theorem SmemF.toWord_lt {f : SmemF} (h : f.fits = true) {opc : Nat} (ho : opc < 1024) : f.toWord opc < 2 ^ 64 := by
  have := SmemF.toWord_div h opc
  omega
theorem SmemF.unpack_toWord {f : SmemF} (h : f.fits = true) (opc : Nat) : unpack smemWidths (f.toWord opc) = [f.la, f.off, f.sb, f.sd, boolNat f.ofr, f.ord, f.scope, f.ty.code] :=
  unpack_pack [(4, f.la), (20, f.off), (10, f.sb), (10, f.sd), (1, boolNat f.ofr), (2, f.ord), (3, f.scope), (4, f.ty.code)] [(10, opc)] (SmemF.fields_fit h)
theorem SmemF.ofWord_toWord {f : SmemF} (h : f.fits = true) (opc : Nat) : SmemF.ofWord (f.toWord opc) = f := by
  have h' := h
  simp only [SmemF.fits, Bool.and_eq_true, decide_eq_true_eq] at h'
  simp only [SmemF.ofWord, SmemF.unpack_toWord h, Ty.ofCode_code, decide_boolNat]
theorem SmemF.read_toWord {f : SmemF} {p : SmemSpec} (mk : SmemF → Instr) (h : f.fits = true) (hc : f.check p = 0) (opc : Nat) :
    SmemF.read p mk (f.toWord opc) = .ok (mk f) := by
  simp only [SmemF.read, SmemF.ofWord_toWord h, hc, if_true]
/-- An instruction of the format that its opcode reads is what its word decodes to. -/
theorem SmemF.decode_toWord {f : SmemF} {p : SmemSpec} {mk : SmemF → Instr} {opc : Nat} {w : W64} (ho : opc < 1024)
    (hd : f.fits = true → f.check p = 0 → decodeOp opc (f.toWord opc) = SmemF.read p mk (f.toWord opc))
    (h : (f.fits && decide (f.check p = 0)) = true) (hw : some (BitVec.ofNat 64 (f.toWord opc)) = some w) : decode w = .ok (mk f) := by
  simp only [Bool.and_eq_true, decide_eq_true_eq] at h
  obtain rfl := Option.some.inj hw
  rw [decode_word (SmemF.toWord_lt h.1 ho) (SmemF.toWord_div h.1 _), hd h.1 h.2]
  exact SmemF.read_toWord mk h.1 h.2 opc

theorem MemaF.fields_fit {f : MemaF} (h : f.fits = true) : ∀ p ∈ ([(4, f.la), (3, 0), (8, f.va), (1, boolNat f.xv), (8, f.vx), (10, f.sb), (8, f.vd), (3, f.aop), (2, f.ord), (3, f.scope), (4, f.ty.code)] : List (Nat × Nat)), p.2 < 2 ^ p.1 := by
  have h' := h
  simp only [MemaF.fits, Bool.and_eq_true, decide_eq_true_eq] at h'
  simp only [List.mem_cons, List.not_mem_nil, or_false, forall_eq_or_imp, forall_eq]
  refine ⟨?_, ?_, ?_, ?_, ?_, ?_, ?_, ?_, ?_, ?_, ?_⟩
  · omega
  · decide
  · omega
  · exact boolNat_lt _
  · omega
  · omega
  · omega
  · omega
  · omega
  · omega
  · exact Ty.code_lt _
theorem MemaF.toWord_div {f : MemaF} (h : f.fits = true) (opc : Nat) : f.toWord opc / 2 ^ 54 = opc := by
  have := pack_div [(4, f.la), (3, 0), (8, f.va), (1, boolNat f.xv), (8, f.vx), (10, f.sb), (8, f.vd), (3, f.aop), (2, f.ord), (3, f.scope), (4, f.ty.code)] [(10, opc)] (MemaF.fields_fit h)
  simpa [MemaF.toWord, pack] using this
theorem MemaF.toWord_lt {f : MemaF} (h : f.fits = true) {opc : Nat} (ho : opc < 1024) : f.toWord opc < 2 ^ 64 := by
  have := MemaF.toWord_div h opc
  omega
theorem MemaF.unpack_toWord {f : MemaF} (h : f.fits = true) (opc : Nat) : unpack memaWidths (f.toWord opc) = [f.la, 0, f.va, boolNat f.xv, f.vx, f.sb, f.vd, f.aop, f.ord, f.scope, f.ty.code] :=
  unpack_pack [(4, f.la), (3, 0), (8, f.va), (1, boolNat f.xv), (8, f.vx), (10, f.sb), (8, f.vd), (3, f.aop), (2, f.ord), (3, f.scope), (4, f.ty.code)] [(10, opc)] (MemaF.fields_fit h)
theorem MemaF.ofWord_toWord {f : MemaF} (h : f.fits = true) (opc : Nat) : MemaF.ofWord (f.toWord opc) = f := by
  have h' := h
  simp only [MemaF.fits, Bool.and_eq_true, decide_eq_true_eq] at h'
  simp only [MemaF.ofWord, MemaF.unpack_toWord h, Ty.ofCode_code, decide_boolNat]
theorem MemaF.zero_toWord {f : MemaF} (h : f.fits = true) (opc : Nat) : memaZero (f.toWord opc) = true := by
  simp [memaZero, MemaF.unpack_toWord h]
theorem MemaF.read_toWord {f : MemaF} (mk : MemaF → Instr) (h : f.fits = true) (hc : f.check = 0) (opc : Nat) :
    MemaF.read mk (f.toWord opc) = .ok (mk f) := by
  simp only [MemaF.read, MemaF.ofWord_toWord h, hc, MemaF.zero_toWord h, if_true, if_true]
/-- An instruction of the format that its opcode reads is what its word decodes to. -/
theorem MemaF.decode_toWord {f : MemaF} {mk : MemaF → Instr} {opc : Nat} {w : W64} (ho : opc < 1024)
    (hd : f.fits = true → f.check = 0 → decodeOp opc (f.toWord opc) = MemaF.read mk (f.toWord opc))
    (h : (f.fits && decide (f.check = 0)) = true) (hw : some (BitVec.ofNat 64 (f.toWord opc)) = some w) : decode w = .ok (mk f) := by
  simp only [Bool.and_eq_true, decide_eq_true_eq] at h
  obtain rfl := Option.some.inj hw
  rw [decode_word (MemaF.toWord_lt h.1 ho) (MemaF.toWord_div h.1 _), hd h.1 h.2]
  exact MemaF.read_toWord mk h.1 h.2 opc

theorem SatmF.fields_fit {f : SatmF} (h : f.fits = true) : ∀ p ∈ ([(4, f.la), (8, 0), (10, f.sa), (10, f.sb), (10, f.sd), (3, f.aop), (2, f.ord), (3, f.scope), (4, f.ty.code)] : List (Nat × Nat)), p.2 < 2 ^ p.1 := by
  have h' := h
  simp only [SatmF.fits, Bool.and_eq_true, decide_eq_true_eq] at h'
  simp only [List.mem_cons, List.not_mem_nil, or_false, forall_eq_or_imp, forall_eq]
  refine ⟨?_, ?_, ?_, ?_, ?_, ?_, ?_, ?_, ?_⟩
  · omega
  · decide
  · omega
  · omega
  · omega
  · omega
  · omega
  · omega
  · exact Ty.code_lt _
theorem SatmF.toWord_div {f : SatmF} (h : f.fits = true) (opc : Nat) : f.toWord opc / 2 ^ 54 = opc := by
  have := pack_div [(4, f.la), (8, 0), (10, f.sa), (10, f.sb), (10, f.sd), (3, f.aop), (2, f.ord), (3, f.scope), (4, f.ty.code)] [(10, opc)] (SatmF.fields_fit h)
  simpa [SatmF.toWord, pack] using this
theorem SatmF.toWord_lt {f : SatmF} (h : f.fits = true) {opc : Nat} (ho : opc < 1024) : f.toWord opc < 2 ^ 64 := by
  have := SatmF.toWord_div h opc
  omega
theorem SatmF.unpack_toWord {f : SatmF} (h : f.fits = true) (opc : Nat) : unpack satmWidths (f.toWord opc) = [f.la, 0, f.sa, f.sb, f.sd, f.aop, f.ord, f.scope, f.ty.code] :=
  unpack_pack [(4, f.la), (8, 0), (10, f.sa), (10, f.sb), (10, f.sd), (3, f.aop), (2, f.ord), (3, f.scope), (4, f.ty.code)] [(10, opc)] (SatmF.fields_fit h)
theorem SatmF.ofWord_toWord {f : SatmF} (h : f.fits = true) (opc : Nat) : SatmF.ofWord (f.toWord opc) = f := by
  have h' := h
  simp only [SatmF.fits, Bool.and_eq_true, decide_eq_true_eq] at h'
  simp only [SatmF.ofWord, SatmF.unpack_toWord h, Ty.ofCode_code]
theorem SatmF.zero_toWord {f : SatmF} (h : f.fits = true) (opc : Nat) : satmZero (f.toWord opc) = true := by
  simp [satmZero, SatmF.unpack_toWord h]
theorem SatmF.read_toWord {f : SatmF} (mk : SatmF → Instr) (h : f.fits = true) (hc : f.check = 0) (opc : Nat) :
    SatmF.read mk (f.toWord opc) = .ok (mk f) := by
  simp only [SatmF.read, SatmF.ofWord_toWord h, hc, SatmF.zero_toWord h, if_true, if_true]
/-- An instruction of the format that its opcode reads is what its word decodes to. -/
theorem SatmF.decode_toWord {f : SatmF} {mk : SatmF → Instr} {opc : Nat} {w : W64} (ho : opc < 1024)
    (hd : f.fits = true → f.check = 0 → decodeOp opc (f.toWord opc) = SatmF.read mk (f.toWord opc))
    (h : (f.fits && decide (f.check = 0)) = true) (hw : some (BitVec.ofNat 64 (f.toWord opc)) = some w) : decode w = .ok (mk f) := by
  simp only [Bool.and_eq_true, decide_eq_true_eq] at h
  obtain rfl := Option.some.inj hw
  rw [decode_word (SatmF.toWord_lt h.1 ho) (SatmF.toWord_div h.1 _), hd h.1 h.2]
  exact SatmF.read_toWord mk h.1 h.2 opc

theorem VcvF.fields_fit {f : VcvF} (h : f.fits = true) : ∀ p ∈ ([(8, 0), (2, f.ps), (1, boolNat f.sat), (2, f.rm), (1, boolNat f.rmo), (11, f.b.code), (11, f.a.code), (8, f.vd), (5, f.sfmt), (5, f.dfmt)] : List (Nat × Nat)), p.2 < 2 ^ p.1 := by
  have h' := h
  simp only [VcvF.fits, Bool.and_eq_true, decide_eq_true_eq] at h'
  simp only [List.mem_cons, List.not_mem_nil, or_false, forall_eq_or_imp, forall_eq]
  refine ⟨?_, ?_, ?_, ?_, ?_, ?_, ?_, ?_, ?_, ?_⟩
  · decide
  · omega
  · exact boolNat_lt _
  · omega
  · exact boolNat_lt _
  · exact Opnd.code_lt (by simp only [h'])
  · exact Opnd.code_lt (by simp only [h'])
  · omega
  · omega
  · omega
theorem VcvF.toWord_div {f : VcvF} (h : f.fits = true) (opc : Nat) : f.toWord opc / 2 ^ 54 = opc := by
  have := pack_div [(8, 0), (2, f.ps), (1, boolNat f.sat), (2, f.rm), (1, boolNat f.rmo), (11, f.b.code), (11, f.a.code), (8, f.vd), (5, f.sfmt), (5, f.dfmt)] [(10, opc)] (VcvF.fields_fit h)
  simpa [VcvF.toWord, pack] using this
theorem VcvF.toWord_lt {f : VcvF} (h : f.fits = true) {opc : Nat} (ho : opc < 1024) : f.toWord opc < 2 ^ 64 := by
  have := VcvF.toWord_div h opc
  omega
theorem VcvF.unpack_toWord {f : VcvF} (h : f.fits = true) (opc : Nat) : unpack vcvWidths (f.toWord opc) = [0, f.ps, boolNat f.sat, f.rm, boolNat f.rmo, f.b.code, f.a.code, f.vd, f.sfmt, f.dfmt] :=
  unpack_pack [(8, 0), (2, f.ps), (1, boolNat f.sat), (2, f.rm), (1, boolNat f.rmo), (11, f.b.code), (11, f.a.code), (8, f.vd), (5, f.sfmt), (5, f.dfmt)] [(10, opc)] (VcvF.fields_fit h)
theorem VcvF.ofWord_toWord {f : VcvF} (h : f.fits = true) (opc : Nat) : VcvF.ofWord (f.toWord opc) = f := by
  have h' := h
  simp only [VcvF.fits, Bool.and_eq_true, decide_eq_true_eq] at h'
  simp only [VcvF.ofWord, VcvF.unpack_toWord h, decide_boolNat]
  rw [Opnd.ofCode_code (o := f.b) (by simp only [h']), Opnd.ofCode_code (o := f.a) (by simp only [h'])]
theorem VcvF.zero_toWord {f : VcvF} (h : f.fits = true) (opc : Nat) : vcvZero (f.toWord opc) = true := by
  simp [vcvZero, VcvF.unpack_toWord h]
theorem VcvF.read_toWord {f : VcvF} {p : VcvSpec} (mk : VcvF → Instr) (h : f.fits = true) (hc : f.check p = 0) (opc : Nat) :
    VcvF.read p mk (f.toWord opc) = .ok (mk f) := by
  simp only [VcvF.read, VcvF.ofWord_toWord h, hc, VcvF.zero_toWord h, if_true, if_true]
/-- An instruction of the format that its opcode reads is what its word decodes to. -/
theorem VcvF.decode_toWord {f : VcvF} {p : VcvSpec} {mk : VcvF → Instr} {opc : Nat} {w : W64} (ho : opc < 1024)
    (hd : f.fits = true → f.check p = 0 → decodeOp opc (f.toWord opc) = VcvF.read p mk (f.toWord opc))
    (h : (f.fits && decide (f.check p = 0)) = true) (hw : some (BitVec.ofNat 64 (f.toWord opc)) = some w) : decode w = .ok (mk f) := by
  simp only [Bool.and_eq_true, decide_eq_true_eq] at h
  obtain rfl := Option.some.inj hw
  rw [decode_word (VcvF.toWord_lt h.1 ho) (VcvF.toWord_div h.1 _), hd h.1 h.2]
  exact VcvF.read_toWord mk h.1 h.2 opc

theorem MtxF.fields_fit {f : MtxF} (h : f.fits = true) : ∀ p ∈ ([(4, f.la), (15, 0), (1, boolNat f.sat), (2, f.rm), (5, f.fmtc), (10, f.sa), (3, f.mod), (5, f.tb), (5, f.ta), (4, f.ad)] : List (Nat × Nat)), p.2 < 2 ^ p.1 := by
  have h' := h
  simp only [MtxF.fits, Bool.and_eq_true, decide_eq_true_eq] at h'
  simp only [List.mem_cons, List.not_mem_nil, or_false, forall_eq_or_imp, forall_eq]
  refine ⟨?_, ?_, ?_, ?_, ?_, ?_, ?_, ?_, ?_, ?_⟩
  · omega
  · decide
  · exact boolNat_lt _
  · omega
  · omega
  · omega
  · omega
  · omega
  · omega
  · omega
theorem MtxF.toWord_div {f : MtxF} (h : f.fits = true) (opc : Nat) : f.toWord opc / 2 ^ 54 = opc := by
  have := pack_div [(4, f.la), (15, 0), (1, boolNat f.sat), (2, f.rm), (5, f.fmtc), (10, f.sa), (3, f.mod), (5, f.tb), (5, f.ta), (4, f.ad)] [(10, opc)] (MtxF.fields_fit h)
  simpa [MtxF.toWord, pack] using this
theorem MtxF.toWord_lt {f : MtxF} (h : f.fits = true) {opc : Nat} (ho : opc < 1024) : f.toWord opc < 2 ^ 64 := by
  have := MtxF.toWord_div h opc
  omega
theorem MtxF.unpack_toWord {f : MtxF} (h : f.fits = true) (opc : Nat) : unpack mtxWidths (f.toWord opc) = [f.la, 0, boolNat f.sat, f.rm, f.fmtc, f.sa, f.mod, f.tb, f.ta, f.ad] :=
  unpack_pack [(4, f.la), (15, 0), (1, boolNat f.sat), (2, f.rm), (5, f.fmtc), (10, f.sa), (3, f.mod), (5, f.tb), (5, f.ta), (4, f.ad)] [(10, opc)] (MtxF.fields_fit h)
theorem MtxF.ofWord_toWord {f : MtxF} (h : f.fits = true) (opc : Nat) : MtxF.ofWord (f.toWord opc) = f := by
  have h' := h
  simp only [MtxF.fits, Bool.and_eq_true, decide_eq_true_eq] at h'
  simp only [MtxF.ofWord, MtxF.unpack_toWord h, decide_boolNat]
theorem MtxF.zero_toWord {f : MtxF} (h : f.fits = true) (opc : Nat) : mtxZero (f.toWord opc) = true := by
  simp [mtxZero, MtxF.unpack_toWord h]
theorem MtxF.read_toWord {f : MtxF} {p : MtxSpec} (mk : MtxF → Instr) (h : f.fits = true) (hc : f.check p = 0) (opc : Nat) :
    MtxF.read p mk (f.toWord opc) = .ok (mk f) := by
  simp only [MtxF.read, MtxF.ofWord_toWord h, hc, MtxF.zero_toWord h, if_true, if_true]
/-- An instruction of the format that its opcode reads is what its word decodes to. -/
theorem MtxF.decode_toWord {f : MtxF} {p : MtxSpec} {mk : MtxF → Instr} {opc : Nat} {w : W64} (ho : opc < 1024)
    (hd : f.fits = true → f.check p = 0 → decodeOp opc (f.toWord opc) = MtxF.read p mk (f.toWord opc))
    (h : (f.fits && decide (f.check p = 0)) = true) (hw : some (BitVec.ofNat 64 (f.toWord opc)) = some w) : decode w = .ok (mk f) := by
  simp only [Bool.and_eq_true, decide_eq_true_eq] at h
  obtain rfl := Option.some.inj hw
  rw [decode_word (MtxF.toWord_lt h.1 ho) (MtxF.toWord_div h.1 _), hd h.1 h.2]
  exact MtxF.read_toWord mk h.1 h.2 opc

theorem CpyF.fields_fit {f : CpyF} (h : f.fits = true) : ∀ p ∈ ([(4, f.la), (2, 0), (1, boolNat f.bv), (10, f.so), (11, f.sz.code), (10, f.sb), (10, f.sa), (3, f.kind), (3, f.qn)] : List (Nat × Nat)), p.2 < 2 ^ p.1 := by
  have h' := h
  simp only [CpyF.fits, Bool.and_eq_true, decide_eq_true_eq] at h'
  simp only [List.mem_cons, List.not_mem_nil, or_false, forall_eq_or_imp, forall_eq]
  refine ⟨?_, ?_, ?_, ?_, ?_, ?_, ?_, ?_, ?_⟩
  · omega
  · decide
  · exact boolNat_lt _
  · omega
  · exact Opnd.code_lt (by simp only [h'])
  · omega
  · omega
  · omega
  · omega
theorem CpyF.toWord_div {f : CpyF} (h : f.fits = true) (opc : Nat) : f.toWord opc / 2 ^ 54 = opc := by
  have := pack_div [(4, f.la), (2, 0), (1, boolNat f.bv), (10, f.so), (11, f.sz.code), (10, f.sb), (10, f.sa), (3, f.kind), (3, f.qn)] [(10, opc)] (CpyF.fields_fit h)
  simpa [CpyF.toWord, pack] using this
theorem CpyF.toWord_lt {f : CpyF} (h : f.fits = true) {opc : Nat} (ho : opc < 1024) : f.toWord opc < 2 ^ 64 := by
  have := CpyF.toWord_div h opc
  omega
theorem CpyF.unpack_toWord {f : CpyF} (h : f.fits = true) (opc : Nat) : unpack cpyWidths (f.toWord opc) = [f.la, 0, boolNat f.bv, f.so, f.sz.code, f.sb, f.sa, f.kind, f.qn] :=
  unpack_pack [(4, f.la), (2, 0), (1, boolNat f.bv), (10, f.so), (11, f.sz.code), (10, f.sb), (10, f.sa), (3, f.kind), (3, f.qn)] [(10, opc)] (CpyF.fields_fit h)
theorem CpyF.ofWord_toWord {f : CpyF} (h : f.fits = true) (opc : Nat) : CpyF.ofWord (f.toWord opc) = f := by
  have h' := h
  simp only [CpyF.fits, Bool.and_eq_true, decide_eq_true_eq] at h'
  simp only [CpyF.ofWord, CpyF.unpack_toWord h, decide_boolNat]
  rw [Opnd.ofCode_code (o := f.sz) (by simp only [h'])]
theorem CpyF.zero_toWord {f : CpyF} (h : f.fits = true) (opc : Nat) : cpyZero (f.toWord opc) = true := by
  simp [cpyZero, CpyF.unpack_toWord h]
theorem CpyF.read_toWord {f : CpyF} {p : CpySpec} (mk : CpyF → Instr) (h : f.fits = true) (hc : f.check p = 0) (opc : Nat) :
    CpyF.read p mk (f.toWord opc) = .ok (mk f) := by
  simp only [CpyF.read, CpyF.ofWord_toWord h, hc, CpyF.zero_toWord h, if_true, if_true]
/-- An instruction of the format that its opcode reads is what its word decodes to. -/
theorem CpyF.decode_toWord {f : CpyF} {p : CpySpec} {mk : CpyF → Instr} {opc : Nat} {w : W64} (ho : opc < 1024)
    (hd : f.fits = true → f.check p = 0 → decodeOp opc (f.toWord opc) = CpyF.read p mk (f.toWord opc))
    (h : (f.fits && decide (f.check p = 0)) = true) (hw : some (BitVec.ofNat 64 (f.toWord opc)) = some w) : decode w = .ok (mk f) := by
  simp only [Bool.and_eq_true, decide_eq_true_eq] at h
  obtain rfl := Option.some.inj hw
  rw [decode_word (CpyF.toWord_lt h.1 ho) (CpyF.toWord_div h.1 _), hd h.1 h.2]
  exact CpyF.read_toWord mk h.1 h.2 opc

theorem BarF.fields_fit {f : BarF} (h : f.fits = true) : ∀ p ∈ ([(4, f.la), (3, 0), (10, f.sg), (12, f.n), (1, boolNat f.rmt), (4, f.rank), (10, f.sa), (10, f.sd)] : List (Nat × Nat)), p.2 < 2 ^ p.1 := by
  have h' := h
  simp only [BarF.fits, Bool.and_eq_true, decide_eq_true_eq] at h'
  simp only [List.mem_cons, List.not_mem_nil, or_false, forall_eq_or_imp, forall_eq]
  refine ⟨?_, ?_, ?_, ?_, ?_, ?_, ?_, ?_⟩
  · omega
  · decide
  · omega
  · omega
  · exact boolNat_lt _
  · omega
  · omega
  · omega
theorem BarF.toWord_div {f : BarF} (h : f.fits = true) (opc : Nat) : f.toWord opc / 2 ^ 54 = opc := by
  have := pack_div [(4, f.la), (3, 0), (10, f.sg), (12, f.n), (1, boolNat f.rmt), (4, f.rank), (10, f.sa), (10, f.sd)] [(10, opc)] (BarF.fields_fit h)
  simpa [BarF.toWord, pack] using this
theorem BarF.toWord_lt {f : BarF} (h : f.fits = true) {opc : Nat} (ho : opc < 1024) : f.toWord opc < 2 ^ 64 := by
  have := BarF.toWord_div h opc
  omega
theorem BarF.unpack_toWord {f : BarF} (h : f.fits = true) (opc : Nat) : unpack barWidths (f.toWord opc) = [f.la, 0, f.sg, f.n, boolNat f.rmt, f.rank, f.sa, f.sd] :=
  unpack_pack [(4, f.la), (3, 0), (10, f.sg), (12, f.n), (1, boolNat f.rmt), (4, f.rank), (10, f.sa), (10, f.sd)] [(10, opc)] (BarF.fields_fit h)
theorem BarF.ofWord_toWord {f : BarF} (h : f.fits = true) (opc : Nat) : BarF.ofWord (f.toWord opc) = f := by
  have h' := h
  simp only [BarF.fits, Bool.and_eq_true, decide_eq_true_eq] at h'
  simp only [BarF.ofWord, BarF.unpack_toWord h, decide_boolNat]
theorem BarF.zero_toWord {f : BarF} (h : f.fits = true) (opc : Nat) : barZero (f.toWord opc) = true := by
  simp [barZero, BarF.unpack_toWord h]
theorem BarF.read_toWord {f : BarF} {p : BarSpec} (mk : BarF → Instr) (h : f.fits = true) (hc : f.check p = 0) (opc : Nat) :
    BarF.read p mk (f.toWord opc) = .ok (mk f) := by
  simp only [BarF.read, BarF.ofWord_toWord h, hc, BarF.zero_toWord h, if_true, if_true]
/-- An instruction of the format that its opcode reads is what its word decodes to. -/
theorem BarF.decode_toWord {f : BarF} {p : BarSpec} {mk : BarF → Instr} {opc : Nat} {w : W64} (ho : opc < 1024)
    (hd : f.fits = true → f.check p = 0 → decodeOp opc (f.toWord opc) = BarF.read p mk (f.toWord opc))
    (h : (f.fits && decide (f.check p = 0)) = true) (hw : some (BitVec.ofNat 64 (f.toWord opc)) = some w) : decode w = .ok (mk f) := by
  simp only [Bool.and_eq_true, decide_eq_true_eq] at h
  obtain rfl := Option.some.inj hw
  rw [decode_word (BarF.toWord_lt h.1 ho) (BarF.toWord_div h.1 _), hd h.1 h.2]
  exact BarF.read_toWord mk h.1 h.2 opc

theorem EngF.fields_fit {f : EngF} (h : f.fits = true) : ∀ p ∈ ([(4, f.la), (3, f.m3), (3, f.fn), (2, f.n2), (4, f.n4), (8, f.x8), (10, f.sb), (10, f.sa), (10, f.sd)] : List (Nat × Nat)), p.2 < 2 ^ p.1 := by
  have h' := h
  simp only [EngF.fits, Bool.and_eq_true, decide_eq_true_eq] at h'
  simp only [List.mem_cons, List.not_mem_nil, or_false, forall_eq_or_imp, forall_eq]
  refine ⟨?_, ?_, ?_, ?_, ?_, ?_, ?_, ?_, ?_⟩
  · omega
  · omega
  · omega
  · omega
  · omega
  · omega
  · omega
  · omega
  · omega
theorem EngF.toWord_div {f : EngF} (h : f.fits = true) (opc : Nat) : f.toWord opc / 2 ^ 54 = opc := by
  have := pack_div [(4, f.la), (3, f.m3), (3, f.fn), (2, f.n2), (4, f.n4), (8, f.x8), (10, f.sb), (10, f.sa), (10, f.sd)] [(10, opc)] (EngF.fields_fit h)
  simpa [EngF.toWord, pack] using this
theorem EngF.toWord_lt {f : EngF} (h : f.fits = true) {opc : Nat} (ho : opc < 1024) : f.toWord opc < 2 ^ 64 := by
  have := EngF.toWord_div h opc
  omega
theorem EngF.unpack_toWord {f : EngF} (h : f.fits = true) (opc : Nat) : unpack engWidths (f.toWord opc) = [f.la, f.m3, f.fn, f.n2, f.n4, f.x8, f.sb, f.sa, f.sd] :=
  unpack_pack [(4, f.la), (3, f.m3), (3, f.fn), (2, f.n2), (4, f.n4), (8, f.x8), (10, f.sb), (10, f.sa), (10, f.sd)] [(10, opc)] (EngF.fields_fit h)
theorem EngF.ofWord_toWord {f : EngF} (h : f.fits = true) (opc : Nat) : EngF.ofWord (f.toWord opc) = f := by
  have h' := h
  simp only [EngF.fits, Bool.and_eq_true, decide_eq_true_eq] at h'
  simp only [EngF.ofWord, EngF.unpack_toWord h]
theorem EngF.read_toWord {f : EngF} {p : EngSpec} (mk : EngF → Instr) (h : f.fits = true) (hc : f.check p = 0) (opc : Nat) :
    EngF.read p mk (f.toWord opc) = .ok (mk f) := by
  simp only [EngF.read, EngF.ofWord_toWord h, hc, if_true]
/-- An instruction of the format that its opcode reads is what its word decodes to. -/
theorem EngF.decode_toWord {f : EngF} {p : EngSpec} {mk : EngF → Instr} {opc : Nat} {w : W64} (ho : opc < 1024)
    (hd : f.fits = true → f.check p = 0 → decodeOp opc (f.toWord opc) = EngF.read p mk (f.toWord opc))
    (h : (f.fits && decide (f.check p = 0)) = true) (hw : some (BitVec.ofNat 64 (f.toWord opc)) = some w) : decode w = .ok (mk f) := by
  simp only [Bool.and_eq_true, decide_eq_true_eq] at h
  obtain rfl := Option.some.inj hw
  rw [decode_word (EngF.toWord_lt h.1 ho) (EngF.toWord_div h.1 _), hd h.1 h.2]
  exact EngF.read_toWord mk h.1 h.2 opc

/-- The field that tells the forms of one opcode apart. -/
theorem EngF.m3_of {f : EngF} {p : EngSpec} {n : Nat} (h : f.check p = 0) (hn : p.m3 = [n]) : f.m3 = n := by
  simp only [EngF.check, details, hn] at h
  revert h; repeat' split
  all_goals simp_all
theorem MtxF.mod_of {f : MtxF} {p : MtxSpec} {n : Nat} (h : f.check p = 0) (hn : p.mods = [n]) : f.mod = n := by
  simp only [MtxF.check, details, hn] at h
  revert h; repeat' split
  all_goals simp_all
theorem CpyF.kind_of {f : CpyF} {p : CpySpec} {n : Nat} (h : f.check p = 0) (hn : p.kinds = [n]) : f.kind = n := by
  simp only [CpyF.check, details, hn] at h
  revert h; repeat' split
  all_goals simp_all

end Sys2Proof
end

