-- ==== Sys2Proof/Laws/Table.lean ====
section
/-! SUPPORT. The laws of the sparse tables: reading after a write, writes that leave other keys alone, and the canonical form
that every table operation keeps. -/

namespace Sys2Proof.Machine.Tab

variable {α : Type}

@[simp] theorem find?_nil (k : Nat) : find? ([] : Tab α) k = none := rfl

/-- A write is read back. -/
@[simp] theorem find?_set_self (m : Tab α) (k : Nat) (v : α) : find? (set m k v) k = some v := by
  induction m with
  | nil => simp [set, find?]
  | cons p t ih =>
    obtain ⟨a, w⟩ := p
    simp only [set]
    split
    · simp [find?]
    · split
      · simp [find?]
      · rename_i h1 h2
        have : ¬ a = k := fun h => h2 h.symm
        simp [find?, this, ih]

/-- A write leaves every other key alone. -/
theorem find?_set_ne (m : Tab α) {k j : Nat} (v : α) (h : j ≠ k) : find? (set m k v) j = find? m j := by
  induction m with
  | nil => simp [set, find?, Ne.symm h]
  | cons p t ih =>
    obtain ⟨a, w⟩ := p
    simp only [set]
    split
    · simp [find?, Ne.symm h]
    · split
      · rename_i h1 h2
        subst h2
        simp [find?, Ne.symm h]
      · simp only [find?]
        split
        · rfl
        · exact ih

theorem find?_set (m : Tab α) (k j : Nat) (v : α) : find? (set m k v) j = if j = k then some v else find? m j := by
  split
  · rename_i h; subst h; exact find?_set_self m j v
  · exact find?_set_ne m v ‹_›

@[simp] theorem getD_set_self (m : Tab α) (k : Nat) (v d : α) : getD (set m k v) k d = v := by simp [getD]

theorem getD_set_ne (m : Tab α) {k j : Nat} (v d : α) (h : j ≠ k) : getD (set m k v) j d = getD m j d := by
  simp [getD, find?_set_ne m v h]

theorem getD_set (m : Tab α) (k j : Nat) (v d : α) : getD (set m k v) j d = if j = k then v else getD m j d := by
  simp only [getD, find?_set]; split <;> rfl

/-- A key that has been removed is not listed. -/
@[simp] theorem find?_erase_self (m : Tab α) (k : Nat) : find? (erase m k) k = none := by
  induction m with
  | nil => rfl
  | cons p t ih =>
    obtain ⟨a, w⟩ := p
    simp only [erase] at ih ⊢
    by_cases h : a = k
    · simpa [h] using ih
    · simpa [h, find?] using ih

/-- Removing a key leaves the others alone. -/
theorem find?_erase_ne (m : Tab α) {k j : Nat} (h : j ≠ k) : find? (erase m k) j = find? m j := by
  induction m with
  | nil => rfl
  | cons p t ih =>
    obtain ⟨a, w⟩ := p
    simp only [erase] at ih ⊢
    by_cases hk : a = k
    · subst hk; simpa [find?, Ne.symm h] using ih
    · by_cases hj : a = j
      · subst hj; simp [hk, find?]
      · simpa [hk, hj, find?] using ih

/-- A mapping of values keeps the keys. -/
theorem find?_map {β : Type} (m : Tab α) (f : Nat → α → β) (k : Nat) :
    find? (m.map (fun p => (p.1, f p.1 p.2))) k = (find? m k).map (f k) := by
  induction m with
  | nil => rfl
  | cons p t ih =>
    obtain ⟨a, w⟩ := p
    simp only [List.map, find?]
    split
    · rename_i h; subst h; rfl
    · exact ih

/-- Every key of a table is above a bound. -/
def above (k : Nat) : Tab α → Prop
  | [] => True
  | (a, _) :: _ => k < a

theorem rising_cons (a : Nat) (w : α) (t : Tab α) : rising ((a, w) :: t) = true ↔ above a t ∧ rising t = true := by
  cases t with
  | nil => simp [rising, above]
  | cons p u => obtain ⟨b, x⟩ := p; simp [rising, above]

theorem above_set {a k : Nat} {t : Tab α} (v : α) (h : above a t) (hk : a < k) : above a (set t k v) := by
  cases t with
  | nil => exact hk
  | cons p u =>
    obtain ⟨b, x⟩ := p
    simp only [set]
    split
    · exact hk
    · split
      · exact hk
      · exact h

/-- A write keeps the canonical form. -/
theorem rising_set (m : Tab α) (k : Nat) (v : α) (h : rising m = true) : rising (set m k v) = true := by
  induction m with
  | nil => rfl
  | cons p t ih =>
    obtain ⟨a, w⟩ := p
    have h' := (rising_cons a w t).1 h
    simp only [set]
    split
    · rename_i hk; exact (rising_cons k v _).2 ⟨hk, h⟩
    · split
      · rename_i hk; subst hk; exact (rising_cons k v t).2 h'
      · exact (rising_cons a w _).2 ⟨above_set v h'.1 (by omega), ih h'.2⟩

/-- Below every key of a table in canonical form. -/
theorem above_all {a : Nat} {t : Tab α} (h : above a t) (hr : rising t = true) : ∀ p ∈ t, a < p.1 := by
  induction t generalizing a with
  | nil => intro p hp; cases hp
  | cons q u ih =>
    obtain ⟨b, x⟩ := q
    intro p hp
    have hu := (rising_cons b x u).1 hr
    cases hp with
    | head => exact h
    | tail _ hm => exact Nat.lt_trans h (ih hu.1 hu.2 p hm)

theorem above_of_all {a : Nat} {t : Tab α} (h : ∀ p ∈ t, a < p.1) : above a t := by
  cases t with
  | nil => trivial
  | cons q u => obtain ⟨b, x⟩ := q; exact h (b, x) (List.mem_cons_self ..)

/-- Keeping some of the entries keeps the canonical form. -/
theorem rising_filter (m : Tab α) (f : Nat × α → Bool) (h : rising m = true) : rising (m.filter f) = true := by
  induction m with
  | nil => rfl
  | cons p t ih =>
    obtain ⟨a, w⟩ := p
    have h' := (rising_cons a w t).1 h
    simp only [List.filter]
    split
    · refine (rising_cons a w _).2 ⟨above_of_all ?_, ih h'.2⟩
      intro q hq
      exact above_all h'.1 h'.2 q (List.mem_filter.1 hq).1
    · exact ih h'.2

/-- A removal keeps the canonical form. -/
theorem rising_erase (m : Tab α) (k : Nat) (h : rising m = true) : rising (erase m k) = true := rising_filter m _ h

/-- A write that lists nothing for the default keeps the canonical form. -/
theorem rising_put [DecidableEq α] (d : α) (m : Tab α) (k : Nat) (v : α) (h : rising m = true) : rising (put d m k v) = true := by
  unfold put; split
  · exact rising_erase m k h
  · exact rising_set m k v h

/-- Several writes keep the canonical form. -/
theorem rising_foldl_set (bs : List (Nat × α)) (m : Tab α) (h : rising m = true) :
    rising (bs.foldl (fun t p => t.set p.1 p.2) m) = true := by
  induction bs generalizing m with
  | nil => exact h
  | cons p t ih => exact ih _ (rising_set m p.1 p.2 h)

end Sys2Proof.Machine.Tab
end

