-- ==== Sys2Proof/Laws/State.lean ====
section
/-! SUPPORT. What each update of the state leaves alone, field by field, and what reading a part gives after it was written. -/

namespace Sys2Proof.Machine

/-! `setCore` changes `cores` alone. -/

@[simp] theorem State.setCore_sectors (s : State) (c : Nat) (k : Core) : (s.setCore c k).sectors = s.sectors := rfl
@[simp] theorem State.setCore_slices (s : State) (c : Nat) (k : Core) : (s.setCore c k).slices = s.slices := rfl
@[simp] theorem State.setCore_ranges (s : State) (c : Nat) (k : Core) : (s.setCore c k).ranges = s.ranges := rfl
@[simp] theorem State.setCore_bcasts (s : State) (c : Nat) (k : Core) : (s.setCore c k).bcasts = s.bcasts := rfl
@[simp] theorem State.setCore_nextBcast (s : State) (c : Nat) (k : Core) : (s.setCore c k).nextBcast = s.nextBcast := rfl
@[simp] theorem State.setCore_channels (s : State) (c : Nat) (k : Core) : (s.setCore c k).channels = s.channels := rfl
@[simp] theorem State.setCore_acks (s : State) (c : Nat) (k : Core) : (s.setCore c k).acks = s.acks := rfl
@[simp] theorem State.setCore_nextAck (s : State) (c : Nat) (k : Core) : (s.setCore c k).nextAck = s.nextAck := rfl
@[simp] theorem State.setCore_works (s : State) (c : Nat) (k : Core) : (s.setCore c k).works = s.works := rfl
@[simp] theorem State.setCore_nextWork (s : State) (c : Nat) (k : Core) : (s.setCore c k).nextWork = s.nextWork := rfl
@[simp] theorem State.setCore_mem (s : State) (c : Nat) (k : Core) : (s.setCore c k).mem = s.mem := rfl
@[simp] theorem State.setCore_keys (s : State) (c : Nat) (k : Core) : (s.setCore c k).keys = s.keys := rfl
@[simp] theorem State.setCore_dies (s : State) (c : Nat) (k : Core) : (s.setCore c k).dies = s.dies := rfl
@[simp] theorem State.setCore_pcores (s : State) (c : Nat) (k : Core) : (s.setCore c k).pcores = s.pcores := rfl
@[simp] theorem State.setCore_hbmStacks (s : State) (c : Nat) (k : Core) : (s.setCore c k).hbmStacks = s.hbmStacks := rfl
@[simp] theorem State.setCore_pubs (s : State) (c : Nat) (k : Core) : (s.setCore c k).pubs = s.pubs := rfl
@[simp] theorem State.setCore_nextPub (s : State) (c : Nat) (k : Core) : (s.setCore c k).nextPub = s.nextPub := rfl
@[simp] theorem State.setCore_tasks (s : State) (c : Nat) (k : Core) : (s.setCore c k).tasks = s.tasks := rfl
@[simp] theorem State.setCore_nextTask (s : State) (c : Nat) (k : Core) : (s.setCore c k).nextTask = s.nextTask := rfl
@[simp] theorem State.setCore_mangles (s : State) (c : Nat) (k : Core) : (s.setCore c k).mangles = s.mangles := rfl
@[simp] theorem State.setCore_grids (s : State) (c : Nat) (k : Core) : (s.setCore c k).grids = s.grids := rfl
@[simp] theorem State.setCore_nextGrid (s : State) (c : Nat) (k : Core) : (s.setCore c k).nextGrid = s.nextGrid := rfl
@[simp] theorem State.setCore_queues (s : State) (c : Nat) (k : Core) : (s.setCore c k).queues = s.queues := rfl
@[simp] theorem State.setCore_fns (s : State) (c : Nat) (k : Core) : (s.setCore c k).fns = s.fns := rfl
@[simp] theorem State.setCore_ports (s : State) (c : Nat) (k : Core) : (s.setCore c k).ports = s.ports := rfl
@[simp] theorem State.setCore_sent (s : State) (c : Nat) (k : Core) : (s.setCore c k).sent = s.sent := rfl
@[simp] theorem State.setCore_nextSent (s : State) (c : Nat) (k : Core) : (s.setCore c k).nextSent = s.nextSent := rfl
@[simp] theorem State.setCore_received (s : State) (c : Nat) (k : Core) : (s.setCore c k).received = s.received := rfl
@[simp] theorem State.setCore_nextReceived (s : State) (c : Nat) (k : Core) : (s.setCore c k).nextReceived = s.nextReceived := rfl
@[simp] theorem State.setCore_replies (s : State) (c : Nat) (k : Core) : (s.setCore c k).replies = s.replies := rfl
@[simp] theorem State.setCore_sendSeq (s : State) (c : Nat) (k : Core) : (s.setCore c k).sendSeq = s.sendSeq := rfl
@[simp] theorem State.setCore_moves (s : State) (c : Nat) (k : Core) : (s.setCore c k).moves = s.moves := rfl
@[simp] theorem State.setCore_nextMove (s : State) (c : Nat) (k : Core) : (s.setCore c k).nextMove = s.nextMove := rfl
@[simp] theorem State.setCore_dev (s : State) (c : Nat) (k : Core) : (s.setCore c k).dev = s.dev := rfl
@[simp] theorem State.setCore_agenda (s : State) (c : Nat) (k : Core) : (s.setCore c k).agenda = s.agenda := rfl
@[simp] theorem State.setCore_tick (s : State) (c : Nat) (k : Core) : (s.setCore c k).tick = s.tick := rfl
@[simp] theorem State.setCore_cur (s : State) (c : Nat) (k : Core) : (s.setCore c k).cur = s.cur := rfl
@[simp] theorem State.setCore_freeCtr (s : State) (c : Nat) (k : Core) : (s.setCore c k).freeCtr = s.freeCtr := rfl
@[simp] theorem State.setCore_ageCtr (s : State) (c : Nat) (k : Core) : (s.setCore c k).ageCtr = s.ageCtr := rfl

/-! `onCore` changes `cores` alone. -/

@[simp] theorem State.onCore_sectors (s : State) (c : Nat) (f : Core → Core) : (s.onCore c f).sectors = s.sectors := rfl
@[simp] theorem State.onCore_slices (s : State) (c : Nat) (f : Core → Core) : (s.onCore c f).slices = s.slices := rfl
@[simp] theorem State.onCore_ranges (s : State) (c : Nat) (f : Core → Core) : (s.onCore c f).ranges = s.ranges := rfl
@[simp] theorem State.onCore_bcasts (s : State) (c : Nat) (f : Core → Core) : (s.onCore c f).bcasts = s.bcasts := rfl
@[simp] theorem State.onCore_nextBcast (s : State) (c : Nat) (f : Core → Core) : (s.onCore c f).nextBcast = s.nextBcast := rfl
@[simp] theorem State.onCore_channels (s : State) (c : Nat) (f : Core → Core) : (s.onCore c f).channels = s.channels := rfl
@[simp] theorem State.onCore_acks (s : State) (c : Nat) (f : Core → Core) : (s.onCore c f).acks = s.acks := rfl
@[simp] theorem State.onCore_nextAck (s : State) (c : Nat) (f : Core → Core) : (s.onCore c f).nextAck = s.nextAck := rfl
@[simp] theorem State.onCore_works (s : State) (c : Nat) (f : Core → Core) : (s.onCore c f).works = s.works := rfl
@[simp] theorem State.onCore_nextWork (s : State) (c : Nat) (f : Core → Core) : (s.onCore c f).nextWork = s.nextWork := rfl
@[simp] theorem State.onCore_mem (s : State) (c : Nat) (f : Core → Core) : (s.onCore c f).mem = s.mem := rfl
@[simp] theorem State.onCore_keys (s : State) (c : Nat) (f : Core → Core) : (s.onCore c f).keys = s.keys := rfl
@[simp] theorem State.onCore_dies (s : State) (c : Nat) (f : Core → Core) : (s.onCore c f).dies = s.dies := rfl
@[simp] theorem State.onCore_pcores (s : State) (c : Nat) (f : Core → Core) : (s.onCore c f).pcores = s.pcores := rfl
@[simp] theorem State.onCore_hbmStacks (s : State) (c : Nat) (f : Core → Core) : (s.onCore c f).hbmStacks = s.hbmStacks := rfl
@[simp] theorem State.onCore_pubs (s : State) (c : Nat) (f : Core → Core) : (s.onCore c f).pubs = s.pubs := rfl
@[simp] theorem State.onCore_nextPub (s : State) (c : Nat) (f : Core → Core) : (s.onCore c f).nextPub = s.nextPub := rfl
@[simp] theorem State.onCore_tasks (s : State) (c : Nat) (f : Core → Core) : (s.onCore c f).tasks = s.tasks := rfl
@[simp] theorem State.onCore_nextTask (s : State) (c : Nat) (f : Core → Core) : (s.onCore c f).nextTask = s.nextTask := rfl
@[simp] theorem State.onCore_mangles (s : State) (c : Nat) (f : Core → Core) : (s.onCore c f).mangles = s.mangles := rfl
@[simp] theorem State.onCore_grids (s : State) (c : Nat) (f : Core → Core) : (s.onCore c f).grids = s.grids := rfl
@[simp] theorem State.onCore_nextGrid (s : State) (c : Nat) (f : Core → Core) : (s.onCore c f).nextGrid = s.nextGrid := rfl
@[simp] theorem State.onCore_queues (s : State) (c : Nat) (f : Core → Core) : (s.onCore c f).queues = s.queues := rfl
@[simp] theorem State.onCore_fns (s : State) (c : Nat) (f : Core → Core) : (s.onCore c f).fns = s.fns := rfl
@[simp] theorem State.onCore_ports (s : State) (c : Nat) (f : Core → Core) : (s.onCore c f).ports = s.ports := rfl
@[simp] theorem State.onCore_sent (s : State) (c : Nat) (f : Core → Core) : (s.onCore c f).sent = s.sent := rfl
@[simp] theorem State.onCore_nextSent (s : State) (c : Nat) (f : Core → Core) : (s.onCore c f).nextSent = s.nextSent := rfl
@[simp] theorem State.onCore_received (s : State) (c : Nat) (f : Core → Core) : (s.onCore c f).received = s.received := rfl
@[simp] theorem State.onCore_nextReceived (s : State) (c : Nat) (f : Core → Core) : (s.onCore c f).nextReceived = s.nextReceived := rfl
@[simp] theorem State.onCore_replies (s : State) (c : Nat) (f : Core → Core) : (s.onCore c f).replies = s.replies := rfl
@[simp] theorem State.onCore_sendSeq (s : State) (c : Nat) (f : Core → Core) : (s.onCore c f).sendSeq = s.sendSeq := rfl
@[simp] theorem State.onCore_moves (s : State) (c : Nat) (f : Core → Core) : (s.onCore c f).moves = s.moves := rfl
@[simp] theorem State.onCore_nextMove (s : State) (c : Nat) (f : Core → Core) : (s.onCore c f).nextMove = s.nextMove := rfl
@[simp] theorem State.onCore_dev (s : State) (c : Nat) (f : Core → Core) : (s.onCore c f).dev = s.dev := rfl
@[simp] theorem State.onCore_agenda (s : State) (c : Nat) (f : Core → Core) : (s.onCore c f).agenda = s.agenda := rfl
@[simp] theorem State.onCore_tick (s : State) (c : Nat) (f : Core → Core) : (s.onCore c f).tick = s.tick := rfl
@[simp] theorem State.onCore_cur (s : State) (c : Nat) (f : Core → Core) : (s.onCore c f).cur = s.cur := rfl
@[simp] theorem State.onCore_freeCtr (s : State) (c : Nat) (f : Core → Core) : (s.onCore c f).freeCtr = s.freeCtr := rfl
@[simp] theorem State.onCore_ageCtr (s : State) (c : Nat) (f : Core → Core) : (s.onCore c f).ageCtr = s.ageCtr := rfl

/-! `onDie` changes `dies` alone. -/

@[simp] theorem State.onDie_cores (s : State) (d : Nat) (f : Die → Die) : (s.onDie d f).cores = s.cores := rfl
@[simp] theorem State.onDie_sectors (s : State) (d : Nat) (f : Die → Die) : (s.onDie d f).sectors = s.sectors := rfl
@[simp] theorem State.onDie_slices (s : State) (d : Nat) (f : Die → Die) : (s.onDie d f).slices = s.slices := rfl
@[simp] theorem State.onDie_ranges (s : State) (d : Nat) (f : Die → Die) : (s.onDie d f).ranges = s.ranges := rfl
@[simp] theorem State.onDie_bcasts (s : State) (d : Nat) (f : Die → Die) : (s.onDie d f).bcasts = s.bcasts := rfl
@[simp] theorem State.onDie_nextBcast (s : State) (d : Nat) (f : Die → Die) : (s.onDie d f).nextBcast = s.nextBcast := rfl
@[simp] theorem State.onDie_channels (s : State) (d : Nat) (f : Die → Die) : (s.onDie d f).channels = s.channels := rfl
@[simp] theorem State.onDie_acks (s : State) (d : Nat) (f : Die → Die) : (s.onDie d f).acks = s.acks := rfl
@[simp] theorem State.onDie_nextAck (s : State) (d : Nat) (f : Die → Die) : (s.onDie d f).nextAck = s.nextAck := rfl
@[simp] theorem State.onDie_works (s : State) (d : Nat) (f : Die → Die) : (s.onDie d f).works = s.works := rfl
@[simp] theorem State.onDie_nextWork (s : State) (d : Nat) (f : Die → Die) : (s.onDie d f).nextWork = s.nextWork := rfl
@[simp] theorem State.onDie_mem (s : State) (d : Nat) (f : Die → Die) : (s.onDie d f).mem = s.mem := rfl
@[simp] theorem State.onDie_keys (s : State) (d : Nat) (f : Die → Die) : (s.onDie d f).keys = s.keys := rfl
@[simp] theorem State.onDie_pcores (s : State) (d : Nat) (f : Die → Die) : (s.onDie d f).pcores = s.pcores := rfl
@[simp] theorem State.onDie_hbmStacks (s : State) (d : Nat) (f : Die → Die) : (s.onDie d f).hbmStacks = s.hbmStacks := rfl
@[simp] theorem State.onDie_pubs (s : State) (d : Nat) (f : Die → Die) : (s.onDie d f).pubs = s.pubs := rfl
@[simp] theorem State.onDie_nextPub (s : State) (d : Nat) (f : Die → Die) : (s.onDie d f).nextPub = s.nextPub := rfl
@[simp] theorem State.onDie_tasks (s : State) (d : Nat) (f : Die → Die) : (s.onDie d f).tasks = s.tasks := rfl
@[simp] theorem State.onDie_nextTask (s : State) (d : Nat) (f : Die → Die) : (s.onDie d f).nextTask = s.nextTask := rfl
@[simp] theorem State.onDie_mangles (s : State) (d : Nat) (f : Die → Die) : (s.onDie d f).mangles = s.mangles := rfl
@[simp] theorem State.onDie_grids (s : State) (d : Nat) (f : Die → Die) : (s.onDie d f).grids = s.grids := rfl
@[simp] theorem State.onDie_nextGrid (s : State) (d : Nat) (f : Die → Die) : (s.onDie d f).nextGrid = s.nextGrid := rfl
@[simp] theorem State.onDie_queues (s : State) (d : Nat) (f : Die → Die) : (s.onDie d f).queues = s.queues := rfl
@[simp] theorem State.onDie_fns (s : State) (d : Nat) (f : Die → Die) : (s.onDie d f).fns = s.fns := rfl
@[simp] theorem State.onDie_ports (s : State) (d : Nat) (f : Die → Die) : (s.onDie d f).ports = s.ports := rfl
@[simp] theorem State.onDie_sent (s : State) (d : Nat) (f : Die → Die) : (s.onDie d f).sent = s.sent := rfl
@[simp] theorem State.onDie_nextSent (s : State) (d : Nat) (f : Die → Die) : (s.onDie d f).nextSent = s.nextSent := rfl
@[simp] theorem State.onDie_received (s : State) (d : Nat) (f : Die → Die) : (s.onDie d f).received = s.received := rfl
@[simp] theorem State.onDie_nextReceived (s : State) (d : Nat) (f : Die → Die) : (s.onDie d f).nextReceived = s.nextReceived := rfl
@[simp] theorem State.onDie_replies (s : State) (d : Nat) (f : Die → Die) : (s.onDie d f).replies = s.replies := rfl
@[simp] theorem State.onDie_sendSeq (s : State) (d : Nat) (f : Die → Die) : (s.onDie d f).sendSeq = s.sendSeq := rfl
@[simp] theorem State.onDie_moves (s : State) (d : Nat) (f : Die → Die) : (s.onDie d f).moves = s.moves := rfl
@[simp] theorem State.onDie_nextMove (s : State) (d : Nat) (f : Die → Die) : (s.onDie d f).nextMove = s.nextMove := rfl
@[simp] theorem State.onDie_dev (s : State) (d : Nat) (f : Die → Die) : (s.onDie d f).dev = s.dev := rfl
@[simp] theorem State.onDie_agenda (s : State) (d : Nat) (f : Die → Die) : (s.onDie d f).agenda = s.agenda := rfl
@[simp] theorem State.onDie_tick (s : State) (d : Nat) (f : Die → Die) : (s.onDie d f).tick = s.tick := rfl
@[simp] theorem State.onDie_cur (s : State) (d : Nat) (f : Die → Die) : (s.onDie d f).cur = s.cur := rfl
@[simp] theorem State.onDie_freeCtr (s : State) (d : Nat) (f : Die → Die) : (s.onDie d f).freeCtr = s.freeCtr := rfl
@[simp] theorem State.onDie_ageCtr (s : State) (d : Nat) (f : Die → Die) : (s.onDie d f).ageCtr = s.ageCtr := rfl

/-! `onSector` changes `sectors` alone. -/

@[simp] theorem State.onSector_cores (s : State) (n : Nat) (f : Sector → Sector) : (s.onSector n f).cores = s.cores := rfl
@[simp] theorem State.onSector_slices (s : State) (n : Nat) (f : Sector → Sector) : (s.onSector n f).slices = s.slices := rfl
@[simp] theorem State.onSector_ranges (s : State) (n : Nat) (f : Sector → Sector) : (s.onSector n f).ranges = s.ranges := rfl
@[simp] theorem State.onSector_bcasts (s : State) (n : Nat) (f : Sector → Sector) : (s.onSector n f).bcasts = s.bcasts := rfl
@[simp] theorem State.onSector_nextBcast (s : State) (n : Nat) (f : Sector → Sector) : (s.onSector n f).nextBcast = s.nextBcast := rfl
@[simp] theorem State.onSector_channels (s : State) (n : Nat) (f : Sector → Sector) : (s.onSector n f).channels = s.channels := rfl
@[simp] theorem State.onSector_acks (s : State) (n : Nat) (f : Sector → Sector) : (s.onSector n f).acks = s.acks := rfl
@[simp] theorem State.onSector_nextAck (s : State) (n : Nat) (f : Sector → Sector) : (s.onSector n f).nextAck = s.nextAck := rfl
@[simp] theorem State.onSector_works (s : State) (n : Nat) (f : Sector → Sector) : (s.onSector n f).works = s.works := rfl
@[simp] theorem State.onSector_nextWork (s : State) (n : Nat) (f : Sector → Sector) : (s.onSector n f).nextWork = s.nextWork := rfl
@[simp] theorem State.onSector_mem (s : State) (n : Nat) (f : Sector → Sector) : (s.onSector n f).mem = s.mem := rfl
@[simp] theorem State.onSector_keys (s : State) (n : Nat) (f : Sector → Sector) : (s.onSector n f).keys = s.keys := rfl
@[simp] theorem State.onSector_dies (s : State) (n : Nat) (f : Sector → Sector) : (s.onSector n f).dies = s.dies := rfl
@[simp] theorem State.onSector_pcores (s : State) (n : Nat) (f : Sector → Sector) : (s.onSector n f).pcores = s.pcores := rfl
@[simp] theorem State.onSector_hbmStacks (s : State) (n : Nat) (f : Sector → Sector) : (s.onSector n f).hbmStacks = s.hbmStacks := rfl
@[simp] theorem State.onSector_pubs (s : State) (n : Nat) (f : Sector → Sector) : (s.onSector n f).pubs = s.pubs := rfl
@[simp] theorem State.onSector_nextPub (s : State) (n : Nat) (f : Sector → Sector) : (s.onSector n f).nextPub = s.nextPub := rfl
@[simp] theorem State.onSector_tasks (s : State) (n : Nat) (f : Sector → Sector) : (s.onSector n f).tasks = s.tasks := rfl
@[simp] theorem State.onSector_nextTask (s : State) (n : Nat) (f : Sector → Sector) : (s.onSector n f).nextTask = s.nextTask := rfl
@[simp] theorem State.onSector_mangles (s : State) (n : Nat) (f : Sector → Sector) : (s.onSector n f).mangles = s.mangles := rfl
@[simp] theorem State.onSector_grids (s : State) (n : Nat) (f : Sector → Sector) : (s.onSector n f).grids = s.grids := rfl
@[simp] theorem State.onSector_nextGrid (s : State) (n : Nat) (f : Sector → Sector) : (s.onSector n f).nextGrid = s.nextGrid := rfl
@[simp] theorem State.onSector_queues (s : State) (n : Nat) (f : Sector → Sector) : (s.onSector n f).queues = s.queues := rfl
@[simp] theorem State.onSector_fns (s : State) (n : Nat) (f : Sector → Sector) : (s.onSector n f).fns = s.fns := rfl
@[simp] theorem State.onSector_ports (s : State) (n : Nat) (f : Sector → Sector) : (s.onSector n f).ports = s.ports := rfl
@[simp] theorem State.onSector_sent (s : State) (n : Nat) (f : Sector → Sector) : (s.onSector n f).sent = s.sent := rfl
@[simp] theorem State.onSector_nextSent (s : State) (n : Nat) (f : Sector → Sector) : (s.onSector n f).nextSent = s.nextSent := rfl
@[simp] theorem State.onSector_received (s : State) (n : Nat) (f : Sector → Sector) : (s.onSector n f).received = s.received := rfl
@[simp] theorem State.onSector_nextReceived (s : State) (n : Nat) (f : Sector → Sector) : (s.onSector n f).nextReceived = s.nextReceived := rfl
@[simp] theorem State.onSector_replies (s : State) (n : Nat) (f : Sector → Sector) : (s.onSector n f).replies = s.replies := rfl
@[simp] theorem State.onSector_sendSeq (s : State) (n : Nat) (f : Sector → Sector) : (s.onSector n f).sendSeq = s.sendSeq := rfl
@[simp] theorem State.onSector_moves (s : State) (n : Nat) (f : Sector → Sector) : (s.onSector n f).moves = s.moves := rfl
@[simp] theorem State.onSector_nextMove (s : State) (n : Nat) (f : Sector → Sector) : (s.onSector n f).nextMove = s.nextMove := rfl
@[simp] theorem State.onSector_dev (s : State) (n : Nat) (f : Sector → Sector) : (s.onSector n f).dev = s.dev := rfl
@[simp] theorem State.onSector_agenda (s : State) (n : Nat) (f : Sector → Sector) : (s.onSector n f).agenda = s.agenda := rfl
@[simp] theorem State.onSector_tick (s : State) (n : Nat) (f : Sector → Sector) : (s.onSector n f).tick = s.tick := rfl
@[simp] theorem State.onSector_cur (s : State) (n : Nat) (f : Sector → Sector) : (s.onSector n f).cur = s.cur := rfl
@[simp] theorem State.onSector_freeCtr (s : State) (n : Nat) (f : Sector → Sector) : (s.onSector n f).freeCtr = s.freeCtr := rfl
@[simp] theorem State.onSector_ageCtr (s : State) (n : Nat) (f : Sector → Sector) : (s.onSector n f).ageCtr = s.ageCtr := rfl

/-! `onSlice` changes `slices` alone. -/

@[simp] theorem State.onSlice_cores (s : State) (k : Nat) (f : Slice → Slice) : (s.onSlice k f).cores = s.cores := rfl
@[simp] theorem State.onSlice_sectors (s : State) (k : Nat) (f : Slice → Slice) : (s.onSlice k f).sectors = s.sectors := rfl
@[simp] theorem State.onSlice_ranges (s : State) (k : Nat) (f : Slice → Slice) : (s.onSlice k f).ranges = s.ranges := rfl
@[simp] theorem State.onSlice_bcasts (s : State) (k : Nat) (f : Slice → Slice) : (s.onSlice k f).bcasts = s.bcasts := rfl
@[simp] theorem State.onSlice_nextBcast (s : State) (k : Nat) (f : Slice → Slice) : (s.onSlice k f).nextBcast = s.nextBcast := rfl
@[simp] theorem State.onSlice_channels (s : State) (k : Nat) (f : Slice → Slice) : (s.onSlice k f).channels = s.channels := rfl
@[simp] theorem State.onSlice_acks (s : State) (k : Nat) (f : Slice → Slice) : (s.onSlice k f).acks = s.acks := rfl
@[simp] theorem State.onSlice_nextAck (s : State) (k : Nat) (f : Slice → Slice) : (s.onSlice k f).nextAck = s.nextAck := rfl
@[simp] theorem State.onSlice_works (s : State) (k : Nat) (f : Slice → Slice) : (s.onSlice k f).works = s.works := rfl
@[simp] theorem State.onSlice_nextWork (s : State) (k : Nat) (f : Slice → Slice) : (s.onSlice k f).nextWork = s.nextWork := rfl
@[simp] theorem State.onSlice_mem (s : State) (k : Nat) (f : Slice → Slice) : (s.onSlice k f).mem = s.mem := rfl
@[simp] theorem State.onSlice_keys (s : State) (k : Nat) (f : Slice → Slice) : (s.onSlice k f).keys = s.keys := rfl
@[simp] theorem State.onSlice_dies (s : State) (k : Nat) (f : Slice → Slice) : (s.onSlice k f).dies = s.dies := rfl
@[simp] theorem State.onSlice_pcores (s : State) (k : Nat) (f : Slice → Slice) : (s.onSlice k f).pcores = s.pcores := rfl
@[simp] theorem State.onSlice_hbmStacks (s : State) (k : Nat) (f : Slice → Slice) : (s.onSlice k f).hbmStacks = s.hbmStacks := rfl
@[simp] theorem State.onSlice_pubs (s : State) (k : Nat) (f : Slice → Slice) : (s.onSlice k f).pubs = s.pubs := rfl
@[simp] theorem State.onSlice_nextPub (s : State) (k : Nat) (f : Slice → Slice) : (s.onSlice k f).nextPub = s.nextPub := rfl
@[simp] theorem State.onSlice_tasks (s : State) (k : Nat) (f : Slice → Slice) : (s.onSlice k f).tasks = s.tasks := rfl
@[simp] theorem State.onSlice_nextTask (s : State) (k : Nat) (f : Slice → Slice) : (s.onSlice k f).nextTask = s.nextTask := rfl
@[simp] theorem State.onSlice_mangles (s : State) (k : Nat) (f : Slice → Slice) : (s.onSlice k f).mangles = s.mangles := rfl
@[simp] theorem State.onSlice_grids (s : State) (k : Nat) (f : Slice → Slice) : (s.onSlice k f).grids = s.grids := rfl
@[simp] theorem State.onSlice_nextGrid (s : State) (k : Nat) (f : Slice → Slice) : (s.onSlice k f).nextGrid = s.nextGrid := rfl
@[simp] theorem State.onSlice_queues (s : State) (k : Nat) (f : Slice → Slice) : (s.onSlice k f).queues = s.queues := rfl
@[simp] theorem State.onSlice_fns (s : State) (k : Nat) (f : Slice → Slice) : (s.onSlice k f).fns = s.fns := rfl
@[simp] theorem State.onSlice_ports (s : State) (k : Nat) (f : Slice → Slice) : (s.onSlice k f).ports = s.ports := rfl
@[simp] theorem State.onSlice_sent (s : State) (k : Nat) (f : Slice → Slice) : (s.onSlice k f).sent = s.sent := rfl
@[simp] theorem State.onSlice_nextSent (s : State) (k : Nat) (f : Slice → Slice) : (s.onSlice k f).nextSent = s.nextSent := rfl
@[simp] theorem State.onSlice_received (s : State) (k : Nat) (f : Slice → Slice) : (s.onSlice k f).received = s.received := rfl
@[simp] theorem State.onSlice_nextReceived (s : State) (k : Nat) (f : Slice → Slice) : (s.onSlice k f).nextReceived = s.nextReceived := rfl
@[simp] theorem State.onSlice_replies (s : State) (k : Nat) (f : Slice → Slice) : (s.onSlice k f).replies = s.replies := rfl
@[simp] theorem State.onSlice_sendSeq (s : State) (k : Nat) (f : Slice → Slice) : (s.onSlice k f).sendSeq = s.sendSeq := rfl
@[simp] theorem State.onSlice_moves (s : State) (k : Nat) (f : Slice → Slice) : (s.onSlice k f).moves = s.moves := rfl
@[simp] theorem State.onSlice_nextMove (s : State) (k : Nat) (f : Slice → Slice) : (s.onSlice k f).nextMove = s.nextMove := rfl
@[simp] theorem State.onSlice_dev (s : State) (k : Nat) (f : Slice → Slice) : (s.onSlice k f).dev = s.dev := rfl
@[simp] theorem State.onSlice_agenda (s : State) (k : Nat) (f : Slice → Slice) : (s.onSlice k f).agenda = s.agenda := rfl
@[simp] theorem State.onSlice_tick (s : State) (k : Nat) (f : Slice → Slice) : (s.onSlice k f).tick = s.tick := rfl
@[simp] theorem State.onSlice_cur (s : State) (k : Nat) (f : Slice → Slice) : (s.onSlice k f).cur = s.cur := rfl
@[simp] theorem State.onSlice_freeCtr (s : State) (k : Nat) (f : Slice → Slice) : (s.onSlice k f).freeCtr = s.freeCtr := rfl
@[simp] theorem State.onSlice_ageCtr (s : State) (k : Nat) (f : Slice → Slice) : (s.onSlice k f).ageCtr = s.ageCtr := rfl

/-! `onPCore` changes `pcores` alone. -/

@[simp] theorem State.onPCore_cores (s : State) (p : Nat) (f : PCore → PCore) : (s.onPCore p f).cores = s.cores := rfl
@[simp] theorem State.onPCore_sectors (s : State) (p : Nat) (f : PCore → PCore) : (s.onPCore p f).sectors = s.sectors := rfl
@[simp] theorem State.onPCore_slices (s : State) (p : Nat) (f : PCore → PCore) : (s.onPCore p f).slices = s.slices := rfl
@[simp] theorem State.onPCore_ranges (s : State) (p : Nat) (f : PCore → PCore) : (s.onPCore p f).ranges = s.ranges := rfl
@[simp] theorem State.onPCore_bcasts (s : State) (p : Nat) (f : PCore → PCore) : (s.onPCore p f).bcasts = s.bcasts := rfl
@[simp] theorem State.onPCore_nextBcast (s : State) (p : Nat) (f : PCore → PCore) : (s.onPCore p f).nextBcast = s.nextBcast := rfl
@[simp] theorem State.onPCore_channels (s : State) (p : Nat) (f : PCore → PCore) : (s.onPCore p f).channels = s.channels := rfl
@[simp] theorem State.onPCore_acks (s : State) (p : Nat) (f : PCore → PCore) : (s.onPCore p f).acks = s.acks := rfl
@[simp] theorem State.onPCore_nextAck (s : State) (p : Nat) (f : PCore → PCore) : (s.onPCore p f).nextAck = s.nextAck := rfl
@[simp] theorem State.onPCore_works (s : State) (p : Nat) (f : PCore → PCore) : (s.onPCore p f).works = s.works := rfl
@[simp] theorem State.onPCore_nextWork (s : State) (p : Nat) (f : PCore → PCore) : (s.onPCore p f).nextWork = s.nextWork := rfl
@[simp] theorem State.onPCore_mem (s : State) (p : Nat) (f : PCore → PCore) : (s.onPCore p f).mem = s.mem := rfl
@[simp] theorem State.onPCore_keys (s : State) (p : Nat) (f : PCore → PCore) : (s.onPCore p f).keys = s.keys := rfl
@[simp] theorem State.onPCore_dies (s : State) (p : Nat) (f : PCore → PCore) : (s.onPCore p f).dies = s.dies := rfl
@[simp] theorem State.onPCore_hbmStacks (s : State) (p : Nat) (f : PCore → PCore) : (s.onPCore p f).hbmStacks = s.hbmStacks := rfl
@[simp] theorem State.onPCore_pubs (s : State) (p : Nat) (f : PCore → PCore) : (s.onPCore p f).pubs = s.pubs := rfl
@[simp] theorem State.onPCore_nextPub (s : State) (p : Nat) (f : PCore → PCore) : (s.onPCore p f).nextPub = s.nextPub := rfl
@[simp] theorem State.onPCore_tasks (s : State) (p : Nat) (f : PCore → PCore) : (s.onPCore p f).tasks = s.tasks := rfl
@[simp] theorem State.onPCore_nextTask (s : State) (p : Nat) (f : PCore → PCore) : (s.onPCore p f).nextTask = s.nextTask := rfl
@[simp] theorem State.onPCore_mangles (s : State) (p : Nat) (f : PCore → PCore) : (s.onPCore p f).mangles = s.mangles := rfl
@[simp] theorem State.onPCore_grids (s : State) (p : Nat) (f : PCore → PCore) : (s.onPCore p f).grids = s.grids := rfl
@[simp] theorem State.onPCore_nextGrid (s : State) (p : Nat) (f : PCore → PCore) : (s.onPCore p f).nextGrid = s.nextGrid := rfl
@[simp] theorem State.onPCore_queues (s : State) (p : Nat) (f : PCore → PCore) : (s.onPCore p f).queues = s.queues := rfl
@[simp] theorem State.onPCore_fns (s : State) (p : Nat) (f : PCore → PCore) : (s.onPCore p f).fns = s.fns := rfl
@[simp] theorem State.onPCore_ports (s : State) (p : Nat) (f : PCore → PCore) : (s.onPCore p f).ports = s.ports := rfl
@[simp] theorem State.onPCore_sent (s : State) (p : Nat) (f : PCore → PCore) : (s.onPCore p f).sent = s.sent := rfl
@[simp] theorem State.onPCore_nextSent (s : State) (p : Nat) (f : PCore → PCore) : (s.onPCore p f).nextSent = s.nextSent := rfl
@[simp] theorem State.onPCore_received (s : State) (p : Nat) (f : PCore → PCore) : (s.onPCore p f).received = s.received := rfl
@[simp] theorem State.onPCore_nextReceived (s : State) (p : Nat) (f : PCore → PCore) : (s.onPCore p f).nextReceived = s.nextReceived := rfl
@[simp] theorem State.onPCore_replies (s : State) (p : Nat) (f : PCore → PCore) : (s.onPCore p f).replies = s.replies := rfl
@[simp] theorem State.onPCore_sendSeq (s : State) (p : Nat) (f : PCore → PCore) : (s.onPCore p f).sendSeq = s.sendSeq := rfl
@[simp] theorem State.onPCore_moves (s : State) (p : Nat) (f : PCore → PCore) : (s.onPCore p f).moves = s.moves := rfl
@[simp] theorem State.onPCore_nextMove (s : State) (p : Nat) (f : PCore → PCore) : (s.onPCore p f).nextMove = s.nextMove := rfl
@[simp] theorem State.onPCore_dev (s : State) (p : Nat) (f : PCore → PCore) : (s.onPCore p f).dev = s.dev := rfl
@[simp] theorem State.onPCore_agenda (s : State) (p : Nat) (f : PCore → PCore) : (s.onPCore p f).agenda = s.agenda := rfl
@[simp] theorem State.onPCore_tick (s : State) (p : Nat) (f : PCore → PCore) : (s.onPCore p f).tick = s.tick := rfl
@[simp] theorem State.onPCore_cur (s : State) (p : Nat) (f : PCore → PCore) : (s.onPCore p f).cur = s.cur := rfl
@[simp] theorem State.onPCore_freeCtr (s : State) (p : Nat) (f : PCore → PCore) : (s.onPCore p f).freeCtr = s.freeCtr := rfl
@[simp] theorem State.onPCore_ageCtr (s : State) (p : Nat) (f : PCore → PCore) : (s.onPCore p f).ageCtr = s.ageCtr := rfl

/-! `onStack` changes `hbmStacks` alone. -/

@[simp] theorem State.onStack_cores (s : State) (k : Nat) (f : Stack → Stack) : (s.onStack k f).cores = s.cores := rfl
@[simp] theorem State.onStack_sectors (s : State) (k : Nat) (f : Stack → Stack) : (s.onStack k f).sectors = s.sectors := rfl
@[simp] theorem State.onStack_slices (s : State) (k : Nat) (f : Stack → Stack) : (s.onStack k f).slices = s.slices := rfl
@[simp] theorem State.onStack_ranges (s : State) (k : Nat) (f : Stack → Stack) : (s.onStack k f).ranges = s.ranges := rfl
@[simp] theorem State.onStack_bcasts (s : State) (k : Nat) (f : Stack → Stack) : (s.onStack k f).bcasts = s.bcasts := rfl
@[simp] theorem State.onStack_nextBcast (s : State) (k : Nat) (f : Stack → Stack) : (s.onStack k f).nextBcast = s.nextBcast := rfl
@[simp] theorem State.onStack_channels (s : State) (k : Nat) (f : Stack → Stack) : (s.onStack k f).channels = s.channels := rfl
@[simp] theorem State.onStack_acks (s : State) (k : Nat) (f : Stack → Stack) : (s.onStack k f).acks = s.acks := rfl
@[simp] theorem State.onStack_nextAck (s : State) (k : Nat) (f : Stack → Stack) : (s.onStack k f).nextAck = s.nextAck := rfl
@[simp] theorem State.onStack_works (s : State) (k : Nat) (f : Stack → Stack) : (s.onStack k f).works = s.works := rfl
@[simp] theorem State.onStack_nextWork (s : State) (k : Nat) (f : Stack → Stack) : (s.onStack k f).nextWork = s.nextWork := rfl
@[simp] theorem State.onStack_mem (s : State) (k : Nat) (f : Stack → Stack) : (s.onStack k f).mem = s.mem := rfl
@[simp] theorem State.onStack_keys (s : State) (k : Nat) (f : Stack → Stack) : (s.onStack k f).keys = s.keys := rfl
@[simp] theorem State.onStack_dies (s : State) (k : Nat) (f : Stack → Stack) : (s.onStack k f).dies = s.dies := rfl
@[simp] theorem State.onStack_pcores (s : State) (k : Nat) (f : Stack → Stack) : (s.onStack k f).pcores = s.pcores := rfl
@[simp] theorem State.onStack_pubs (s : State) (k : Nat) (f : Stack → Stack) : (s.onStack k f).pubs = s.pubs := rfl
@[simp] theorem State.onStack_nextPub (s : State) (k : Nat) (f : Stack → Stack) : (s.onStack k f).nextPub = s.nextPub := rfl
@[simp] theorem State.onStack_tasks (s : State) (k : Nat) (f : Stack → Stack) : (s.onStack k f).tasks = s.tasks := rfl
@[simp] theorem State.onStack_nextTask (s : State) (k : Nat) (f : Stack → Stack) : (s.onStack k f).nextTask = s.nextTask := rfl
@[simp] theorem State.onStack_mangles (s : State) (k : Nat) (f : Stack → Stack) : (s.onStack k f).mangles = s.mangles := rfl
@[simp] theorem State.onStack_grids (s : State) (k : Nat) (f : Stack → Stack) : (s.onStack k f).grids = s.grids := rfl
@[simp] theorem State.onStack_nextGrid (s : State) (k : Nat) (f : Stack → Stack) : (s.onStack k f).nextGrid = s.nextGrid := rfl
@[simp] theorem State.onStack_queues (s : State) (k : Nat) (f : Stack → Stack) : (s.onStack k f).queues = s.queues := rfl
@[simp] theorem State.onStack_fns (s : State) (k : Nat) (f : Stack → Stack) : (s.onStack k f).fns = s.fns := rfl
@[simp] theorem State.onStack_ports (s : State) (k : Nat) (f : Stack → Stack) : (s.onStack k f).ports = s.ports := rfl
@[simp] theorem State.onStack_sent (s : State) (k : Nat) (f : Stack → Stack) : (s.onStack k f).sent = s.sent := rfl
@[simp] theorem State.onStack_nextSent (s : State) (k : Nat) (f : Stack → Stack) : (s.onStack k f).nextSent = s.nextSent := rfl
@[simp] theorem State.onStack_received (s : State) (k : Nat) (f : Stack → Stack) : (s.onStack k f).received = s.received := rfl
@[simp] theorem State.onStack_nextReceived (s : State) (k : Nat) (f : Stack → Stack) : (s.onStack k f).nextReceived = s.nextReceived := rfl
@[simp] theorem State.onStack_replies (s : State) (k : Nat) (f : Stack → Stack) : (s.onStack k f).replies = s.replies := rfl
@[simp] theorem State.onStack_sendSeq (s : State) (k : Nat) (f : Stack → Stack) : (s.onStack k f).sendSeq = s.sendSeq := rfl
@[simp] theorem State.onStack_moves (s : State) (k : Nat) (f : Stack → Stack) : (s.onStack k f).moves = s.moves := rfl
@[simp] theorem State.onStack_nextMove (s : State) (k : Nat) (f : Stack → Stack) : (s.onStack k f).nextMove = s.nextMove := rfl
@[simp] theorem State.onStack_dev (s : State) (k : Nat) (f : Stack → Stack) : (s.onStack k f).dev = s.dev := rfl
@[simp] theorem State.onStack_agenda (s : State) (k : Nat) (f : Stack → Stack) : (s.onStack k f).agenda = s.agenda := rfl
@[simp] theorem State.onStack_tick (s : State) (k : Nat) (f : Stack → Stack) : (s.onStack k f).tick = s.tick := rfl
@[simp] theorem State.onStack_cur (s : State) (k : Nat) (f : Stack → Stack) : (s.onStack k f).cur = s.cur := rfl
@[simp] theorem State.onStack_freeCtr (s : State) (k : Nat) (f : Stack → Stack) : (s.onStack k f).freeCtr = s.freeCtr := rfl
@[simp] theorem State.onStack_ageCtr (s : State) (k : Nat) (f : Stack → Stack) : (s.onStack k f).ageCtr = s.ageCtr := rfl

/-! `onDev` changes `dev` alone. -/

@[simp] theorem State.onDev_cores (s : State) (f : Device → Device) : (s.onDev f).cores = s.cores := rfl
@[simp] theorem State.onDev_sectors (s : State) (f : Device → Device) : (s.onDev f).sectors = s.sectors := rfl
@[simp] theorem State.onDev_slices (s : State) (f : Device → Device) : (s.onDev f).slices = s.slices := rfl
@[simp] theorem State.onDev_ranges (s : State) (f : Device → Device) : (s.onDev f).ranges = s.ranges := rfl
@[simp] theorem State.onDev_bcasts (s : State) (f : Device → Device) : (s.onDev f).bcasts = s.bcasts := rfl
@[simp] theorem State.onDev_nextBcast (s : State) (f : Device → Device) : (s.onDev f).nextBcast = s.nextBcast := rfl
@[simp] theorem State.onDev_channels (s : State) (f : Device → Device) : (s.onDev f).channels = s.channels := rfl
@[simp] theorem State.onDev_acks (s : State) (f : Device → Device) : (s.onDev f).acks = s.acks := rfl
@[simp] theorem State.onDev_nextAck (s : State) (f : Device → Device) : (s.onDev f).nextAck = s.nextAck := rfl
@[simp] theorem State.onDev_works (s : State) (f : Device → Device) : (s.onDev f).works = s.works := rfl
@[simp] theorem State.onDev_nextWork (s : State) (f : Device → Device) : (s.onDev f).nextWork = s.nextWork := rfl
@[simp] theorem State.onDev_mem (s : State) (f : Device → Device) : (s.onDev f).mem = s.mem := rfl
@[simp] theorem State.onDev_keys (s : State) (f : Device → Device) : (s.onDev f).keys = s.keys := rfl
@[simp] theorem State.onDev_dies (s : State) (f : Device → Device) : (s.onDev f).dies = s.dies := rfl
@[simp] theorem State.onDev_pcores (s : State) (f : Device → Device) : (s.onDev f).pcores = s.pcores := rfl
@[simp] theorem State.onDev_hbmStacks (s : State) (f : Device → Device) : (s.onDev f).hbmStacks = s.hbmStacks := rfl
@[simp] theorem State.onDev_pubs (s : State) (f : Device → Device) : (s.onDev f).pubs = s.pubs := rfl
@[simp] theorem State.onDev_nextPub (s : State) (f : Device → Device) : (s.onDev f).nextPub = s.nextPub := rfl
@[simp] theorem State.onDev_tasks (s : State) (f : Device → Device) : (s.onDev f).tasks = s.tasks := rfl
@[simp] theorem State.onDev_nextTask (s : State) (f : Device → Device) : (s.onDev f).nextTask = s.nextTask := rfl
@[simp] theorem State.onDev_mangles (s : State) (f : Device → Device) : (s.onDev f).mangles = s.mangles := rfl
@[simp] theorem State.onDev_grids (s : State) (f : Device → Device) : (s.onDev f).grids = s.grids := rfl
@[simp] theorem State.onDev_nextGrid (s : State) (f : Device → Device) : (s.onDev f).nextGrid = s.nextGrid := rfl
@[simp] theorem State.onDev_queues (s : State) (f : Device → Device) : (s.onDev f).queues = s.queues := rfl
@[simp] theorem State.onDev_fns (s : State) (f : Device → Device) : (s.onDev f).fns = s.fns := rfl
@[simp] theorem State.onDev_ports (s : State) (f : Device → Device) : (s.onDev f).ports = s.ports := rfl
@[simp] theorem State.onDev_sent (s : State) (f : Device → Device) : (s.onDev f).sent = s.sent := rfl
@[simp] theorem State.onDev_nextSent (s : State) (f : Device → Device) : (s.onDev f).nextSent = s.nextSent := rfl
@[simp] theorem State.onDev_received (s : State) (f : Device → Device) : (s.onDev f).received = s.received := rfl
@[simp] theorem State.onDev_nextReceived (s : State) (f : Device → Device) : (s.onDev f).nextReceived = s.nextReceived := rfl
@[simp] theorem State.onDev_replies (s : State) (f : Device → Device) : (s.onDev f).replies = s.replies := rfl
@[simp] theorem State.onDev_sendSeq (s : State) (f : Device → Device) : (s.onDev f).sendSeq = s.sendSeq := rfl
@[simp] theorem State.onDev_moves (s : State) (f : Device → Device) : (s.onDev f).moves = s.moves := rfl
@[simp] theorem State.onDev_nextMove (s : State) (f : Device → Device) : (s.onDev f).nextMove = s.nextMove := rfl
@[simp] theorem State.onDev_agenda (s : State) (f : Device → Device) : (s.onDev f).agenda = s.agenda := rfl
@[simp] theorem State.onDev_tick (s : State) (f : Device → Device) : (s.onDev f).tick = s.tick := rfl
@[simp] theorem State.onDev_cur (s : State) (f : Device → Device) : (s.onDev f).cur = s.cur := rfl
@[simp] theorem State.onDev_freeCtr (s : State) (f : Device → Device) : (s.onDev f).freeCtr = s.freeCtr := rfl
@[simp] theorem State.onDev_ageCtr (s : State) (f : Device → Device) : (s.onDev f).ageCtr = s.ageCtr := rfl

/-! `onPort` changes `ports` alone. -/

@[simp] theorem State.onPort_cores (s : State) (p : Nat) (f : Port → Port) : (s.onPort p f).cores = s.cores := rfl
@[simp] theorem State.onPort_sectors (s : State) (p : Nat) (f : Port → Port) : (s.onPort p f).sectors = s.sectors := rfl
@[simp] theorem State.onPort_slices (s : State) (p : Nat) (f : Port → Port) : (s.onPort p f).slices = s.slices := rfl
@[simp] theorem State.onPort_ranges (s : State) (p : Nat) (f : Port → Port) : (s.onPort p f).ranges = s.ranges := rfl
@[simp] theorem State.onPort_bcasts (s : State) (p : Nat) (f : Port → Port) : (s.onPort p f).bcasts = s.bcasts := rfl
@[simp] theorem State.onPort_nextBcast (s : State) (p : Nat) (f : Port → Port) : (s.onPort p f).nextBcast = s.nextBcast := rfl
@[simp] theorem State.onPort_channels (s : State) (p : Nat) (f : Port → Port) : (s.onPort p f).channels = s.channels := rfl
@[simp] theorem State.onPort_acks (s : State) (p : Nat) (f : Port → Port) : (s.onPort p f).acks = s.acks := rfl
@[simp] theorem State.onPort_nextAck (s : State) (p : Nat) (f : Port → Port) : (s.onPort p f).nextAck = s.nextAck := rfl
@[simp] theorem State.onPort_works (s : State) (p : Nat) (f : Port → Port) : (s.onPort p f).works = s.works := rfl
@[simp] theorem State.onPort_nextWork (s : State) (p : Nat) (f : Port → Port) : (s.onPort p f).nextWork = s.nextWork := rfl
@[simp] theorem State.onPort_mem (s : State) (p : Nat) (f : Port → Port) : (s.onPort p f).mem = s.mem := rfl
@[simp] theorem State.onPort_keys (s : State) (p : Nat) (f : Port → Port) : (s.onPort p f).keys = s.keys := rfl
@[simp] theorem State.onPort_dies (s : State) (p : Nat) (f : Port → Port) : (s.onPort p f).dies = s.dies := rfl
@[simp] theorem State.onPort_pcores (s : State) (p : Nat) (f : Port → Port) : (s.onPort p f).pcores = s.pcores := rfl
@[simp] theorem State.onPort_hbmStacks (s : State) (p : Nat) (f : Port → Port) : (s.onPort p f).hbmStacks = s.hbmStacks := rfl
@[simp] theorem State.onPort_pubs (s : State) (p : Nat) (f : Port → Port) : (s.onPort p f).pubs = s.pubs := rfl
@[simp] theorem State.onPort_nextPub (s : State) (p : Nat) (f : Port → Port) : (s.onPort p f).nextPub = s.nextPub := rfl
@[simp] theorem State.onPort_tasks (s : State) (p : Nat) (f : Port → Port) : (s.onPort p f).tasks = s.tasks := rfl
@[simp] theorem State.onPort_nextTask (s : State) (p : Nat) (f : Port → Port) : (s.onPort p f).nextTask = s.nextTask := rfl
@[simp] theorem State.onPort_mangles (s : State) (p : Nat) (f : Port → Port) : (s.onPort p f).mangles = s.mangles := rfl
@[simp] theorem State.onPort_grids (s : State) (p : Nat) (f : Port → Port) : (s.onPort p f).grids = s.grids := rfl
@[simp] theorem State.onPort_nextGrid (s : State) (p : Nat) (f : Port → Port) : (s.onPort p f).nextGrid = s.nextGrid := rfl
@[simp] theorem State.onPort_queues (s : State) (p : Nat) (f : Port → Port) : (s.onPort p f).queues = s.queues := rfl
@[simp] theorem State.onPort_fns (s : State) (p : Nat) (f : Port → Port) : (s.onPort p f).fns = s.fns := rfl
@[simp] theorem State.onPort_sent (s : State) (p : Nat) (f : Port → Port) : (s.onPort p f).sent = s.sent := rfl
@[simp] theorem State.onPort_nextSent (s : State) (p : Nat) (f : Port → Port) : (s.onPort p f).nextSent = s.nextSent := rfl
@[simp] theorem State.onPort_received (s : State) (p : Nat) (f : Port → Port) : (s.onPort p f).received = s.received := rfl
@[simp] theorem State.onPort_nextReceived (s : State) (p : Nat) (f : Port → Port) : (s.onPort p f).nextReceived = s.nextReceived := rfl
@[simp] theorem State.onPort_replies (s : State) (p : Nat) (f : Port → Port) : (s.onPort p f).replies = s.replies := rfl
@[simp] theorem State.onPort_sendSeq (s : State) (p : Nat) (f : Port → Port) : (s.onPort p f).sendSeq = s.sendSeq := rfl
@[simp] theorem State.onPort_moves (s : State) (p : Nat) (f : Port → Port) : (s.onPort p f).moves = s.moves := rfl
@[simp] theorem State.onPort_nextMove (s : State) (p : Nat) (f : Port → Port) : (s.onPort p f).nextMove = s.nextMove := rfl
@[simp] theorem State.onPort_dev (s : State) (p : Nat) (f : Port → Port) : (s.onPort p f).dev = s.dev := rfl
@[simp] theorem State.onPort_agenda (s : State) (p : Nat) (f : Port → Port) : (s.onPort p f).agenda = s.agenda := rfl
@[simp] theorem State.onPort_tick (s : State) (p : Nat) (f : Port → Port) : (s.onPort p f).tick = s.tick := rfl
@[simp] theorem State.onPort_cur (s : State) (p : Nat) (f : Port → Port) : (s.onPort p f).cur = s.cur := rfl
@[simp] theorem State.onPort_freeCtr (s : State) (p : Nat) (f : Port → Port) : (s.onPort p f).freeCtr = s.freeCtr := rfl
@[simp] theorem State.onPort_ageCtr (s : State) (p : Nat) (f : Port → Port) : (s.onPort p f).ageCtr = s.ageCtr := rfl

/-! `onFn` changes `fns` alone. -/

@[simp] theorem State.onFn_cores (s : State) (n : Nat) (f : HostFn → HostFn) : (s.onFn n f).cores = s.cores := rfl
@[simp] theorem State.onFn_sectors (s : State) (n : Nat) (f : HostFn → HostFn) : (s.onFn n f).sectors = s.sectors := rfl
@[simp] theorem State.onFn_slices (s : State) (n : Nat) (f : HostFn → HostFn) : (s.onFn n f).slices = s.slices := rfl
@[simp] theorem State.onFn_ranges (s : State) (n : Nat) (f : HostFn → HostFn) : (s.onFn n f).ranges = s.ranges := rfl
@[simp] theorem State.onFn_bcasts (s : State) (n : Nat) (f : HostFn → HostFn) : (s.onFn n f).bcasts = s.bcasts := rfl
@[simp] theorem State.onFn_nextBcast (s : State) (n : Nat) (f : HostFn → HostFn) : (s.onFn n f).nextBcast = s.nextBcast := rfl
@[simp] theorem State.onFn_channels (s : State) (n : Nat) (f : HostFn → HostFn) : (s.onFn n f).channels = s.channels := rfl
@[simp] theorem State.onFn_acks (s : State) (n : Nat) (f : HostFn → HostFn) : (s.onFn n f).acks = s.acks := rfl
@[simp] theorem State.onFn_nextAck (s : State) (n : Nat) (f : HostFn → HostFn) : (s.onFn n f).nextAck = s.nextAck := rfl
@[simp] theorem State.onFn_works (s : State) (n : Nat) (f : HostFn → HostFn) : (s.onFn n f).works = s.works := rfl
@[simp] theorem State.onFn_nextWork (s : State) (n : Nat) (f : HostFn → HostFn) : (s.onFn n f).nextWork = s.nextWork := rfl
@[simp] theorem State.onFn_mem (s : State) (n : Nat) (f : HostFn → HostFn) : (s.onFn n f).mem = s.mem := rfl
@[simp] theorem State.onFn_keys (s : State) (n : Nat) (f : HostFn → HostFn) : (s.onFn n f).keys = s.keys := rfl
@[simp] theorem State.onFn_dies (s : State) (n : Nat) (f : HostFn → HostFn) : (s.onFn n f).dies = s.dies := rfl
@[simp] theorem State.onFn_pcores (s : State) (n : Nat) (f : HostFn → HostFn) : (s.onFn n f).pcores = s.pcores := rfl
@[simp] theorem State.onFn_hbmStacks (s : State) (n : Nat) (f : HostFn → HostFn) : (s.onFn n f).hbmStacks = s.hbmStacks := rfl
@[simp] theorem State.onFn_pubs (s : State) (n : Nat) (f : HostFn → HostFn) : (s.onFn n f).pubs = s.pubs := rfl
@[simp] theorem State.onFn_nextPub (s : State) (n : Nat) (f : HostFn → HostFn) : (s.onFn n f).nextPub = s.nextPub := rfl
@[simp] theorem State.onFn_tasks (s : State) (n : Nat) (f : HostFn → HostFn) : (s.onFn n f).tasks = s.tasks := rfl
@[simp] theorem State.onFn_nextTask (s : State) (n : Nat) (f : HostFn → HostFn) : (s.onFn n f).nextTask = s.nextTask := rfl
@[simp] theorem State.onFn_mangles (s : State) (n : Nat) (f : HostFn → HostFn) : (s.onFn n f).mangles = s.mangles := rfl
@[simp] theorem State.onFn_grids (s : State) (n : Nat) (f : HostFn → HostFn) : (s.onFn n f).grids = s.grids := rfl
@[simp] theorem State.onFn_nextGrid (s : State) (n : Nat) (f : HostFn → HostFn) : (s.onFn n f).nextGrid = s.nextGrid := rfl
@[simp] theorem State.onFn_queues (s : State) (n : Nat) (f : HostFn → HostFn) : (s.onFn n f).queues = s.queues := rfl
@[simp] theorem State.onFn_ports (s : State) (n : Nat) (f : HostFn → HostFn) : (s.onFn n f).ports = s.ports := rfl
@[simp] theorem State.onFn_sent (s : State) (n : Nat) (f : HostFn → HostFn) : (s.onFn n f).sent = s.sent := rfl
@[simp] theorem State.onFn_nextSent (s : State) (n : Nat) (f : HostFn → HostFn) : (s.onFn n f).nextSent = s.nextSent := rfl
@[simp] theorem State.onFn_received (s : State) (n : Nat) (f : HostFn → HostFn) : (s.onFn n f).received = s.received := rfl
@[simp] theorem State.onFn_nextReceived (s : State) (n : Nat) (f : HostFn → HostFn) : (s.onFn n f).nextReceived = s.nextReceived := rfl
@[simp] theorem State.onFn_replies (s : State) (n : Nat) (f : HostFn → HostFn) : (s.onFn n f).replies = s.replies := rfl
@[simp] theorem State.onFn_sendSeq (s : State) (n : Nat) (f : HostFn → HostFn) : (s.onFn n f).sendSeq = s.sendSeq := rfl
@[simp] theorem State.onFn_moves (s : State) (n : Nat) (f : HostFn → HostFn) : (s.onFn n f).moves = s.moves := rfl
@[simp] theorem State.onFn_nextMove (s : State) (n : Nat) (f : HostFn → HostFn) : (s.onFn n f).nextMove = s.nextMove := rfl
@[simp] theorem State.onFn_dev (s : State) (n : Nat) (f : HostFn → HostFn) : (s.onFn n f).dev = s.dev := rfl
@[simp] theorem State.onFn_agenda (s : State) (n : Nat) (f : HostFn → HostFn) : (s.onFn n f).agenda = s.agenda := rfl
@[simp] theorem State.onFn_tick (s : State) (n : Nat) (f : HostFn → HostFn) : (s.onFn n f).tick = s.tick := rfl
@[simp] theorem State.onFn_cur (s : State) (n : Nat) (f : HostFn → HostFn) : (s.onFn n f).cur = s.cur := rfl
@[simp] theorem State.onFn_freeCtr (s : State) (n : Nat) (f : HostFn → HostFn) : (s.onFn n f).freeCtr = s.freeCtr := rfl
@[simp] theorem State.onFn_ageCtr (s : State) (n : Nat) (f : HostFn → HostFn) : (s.onFn n f).ageCtr = s.ageCtr := rfl

/-! `onQueue` changes `queues` alone. -/

@[simp] theorem State.onQueue_cores (s : State) (q : Nat) (f : LaunchQ → LaunchQ) : (s.onQueue q f).cores = s.cores := rfl
@[simp] theorem State.onQueue_sectors (s : State) (q : Nat) (f : LaunchQ → LaunchQ) : (s.onQueue q f).sectors = s.sectors := rfl
@[simp] theorem State.onQueue_slices (s : State) (q : Nat) (f : LaunchQ → LaunchQ) : (s.onQueue q f).slices = s.slices := rfl
@[simp] theorem State.onQueue_ranges (s : State) (q : Nat) (f : LaunchQ → LaunchQ) : (s.onQueue q f).ranges = s.ranges := rfl
@[simp] theorem State.onQueue_bcasts (s : State) (q : Nat) (f : LaunchQ → LaunchQ) : (s.onQueue q f).bcasts = s.bcasts := rfl
@[simp] theorem State.onQueue_nextBcast (s : State) (q : Nat) (f : LaunchQ → LaunchQ) : (s.onQueue q f).nextBcast = s.nextBcast := rfl
@[simp] theorem State.onQueue_channels (s : State) (q : Nat) (f : LaunchQ → LaunchQ) : (s.onQueue q f).channels = s.channels := rfl
@[simp] theorem State.onQueue_acks (s : State) (q : Nat) (f : LaunchQ → LaunchQ) : (s.onQueue q f).acks = s.acks := rfl
@[simp] theorem State.onQueue_nextAck (s : State) (q : Nat) (f : LaunchQ → LaunchQ) : (s.onQueue q f).nextAck = s.nextAck := rfl
@[simp] theorem State.onQueue_works (s : State) (q : Nat) (f : LaunchQ → LaunchQ) : (s.onQueue q f).works = s.works := rfl
@[simp] theorem State.onQueue_nextWork (s : State) (q : Nat) (f : LaunchQ → LaunchQ) : (s.onQueue q f).nextWork = s.nextWork := rfl
@[simp] theorem State.onQueue_mem (s : State) (q : Nat) (f : LaunchQ → LaunchQ) : (s.onQueue q f).mem = s.mem := rfl
@[simp] theorem State.onQueue_keys (s : State) (q : Nat) (f : LaunchQ → LaunchQ) : (s.onQueue q f).keys = s.keys := rfl
@[simp] theorem State.onQueue_dies (s : State) (q : Nat) (f : LaunchQ → LaunchQ) : (s.onQueue q f).dies = s.dies := rfl
@[simp] theorem State.onQueue_pcores (s : State) (q : Nat) (f : LaunchQ → LaunchQ) : (s.onQueue q f).pcores = s.pcores := rfl
@[simp] theorem State.onQueue_hbmStacks (s : State) (q : Nat) (f : LaunchQ → LaunchQ) : (s.onQueue q f).hbmStacks = s.hbmStacks := rfl
@[simp] theorem State.onQueue_pubs (s : State) (q : Nat) (f : LaunchQ → LaunchQ) : (s.onQueue q f).pubs = s.pubs := rfl
@[simp] theorem State.onQueue_nextPub (s : State) (q : Nat) (f : LaunchQ → LaunchQ) : (s.onQueue q f).nextPub = s.nextPub := rfl
@[simp] theorem State.onQueue_tasks (s : State) (q : Nat) (f : LaunchQ → LaunchQ) : (s.onQueue q f).tasks = s.tasks := rfl
@[simp] theorem State.onQueue_nextTask (s : State) (q : Nat) (f : LaunchQ → LaunchQ) : (s.onQueue q f).nextTask = s.nextTask := rfl
@[simp] theorem State.onQueue_mangles (s : State) (q : Nat) (f : LaunchQ → LaunchQ) : (s.onQueue q f).mangles = s.mangles := rfl
@[simp] theorem State.onQueue_grids (s : State) (q : Nat) (f : LaunchQ → LaunchQ) : (s.onQueue q f).grids = s.grids := rfl
@[simp] theorem State.onQueue_nextGrid (s : State) (q : Nat) (f : LaunchQ → LaunchQ) : (s.onQueue q f).nextGrid = s.nextGrid := rfl
@[simp] theorem State.onQueue_fns (s : State) (q : Nat) (f : LaunchQ → LaunchQ) : (s.onQueue q f).fns = s.fns := rfl
@[simp] theorem State.onQueue_ports (s : State) (q : Nat) (f : LaunchQ → LaunchQ) : (s.onQueue q f).ports = s.ports := rfl
@[simp] theorem State.onQueue_sent (s : State) (q : Nat) (f : LaunchQ → LaunchQ) : (s.onQueue q f).sent = s.sent := rfl
@[simp] theorem State.onQueue_nextSent (s : State) (q : Nat) (f : LaunchQ → LaunchQ) : (s.onQueue q f).nextSent = s.nextSent := rfl
@[simp] theorem State.onQueue_received (s : State) (q : Nat) (f : LaunchQ → LaunchQ) : (s.onQueue q f).received = s.received := rfl
@[simp] theorem State.onQueue_nextReceived (s : State) (q : Nat) (f : LaunchQ → LaunchQ) : (s.onQueue q f).nextReceived = s.nextReceived := rfl
@[simp] theorem State.onQueue_replies (s : State) (q : Nat) (f : LaunchQ → LaunchQ) : (s.onQueue q f).replies = s.replies := rfl
@[simp] theorem State.onQueue_sendSeq (s : State) (q : Nat) (f : LaunchQ → LaunchQ) : (s.onQueue q f).sendSeq = s.sendSeq := rfl
@[simp] theorem State.onQueue_moves (s : State) (q : Nat) (f : LaunchQ → LaunchQ) : (s.onQueue q f).moves = s.moves := rfl
@[simp] theorem State.onQueue_nextMove (s : State) (q : Nat) (f : LaunchQ → LaunchQ) : (s.onQueue q f).nextMove = s.nextMove := rfl
@[simp] theorem State.onQueue_dev (s : State) (q : Nat) (f : LaunchQ → LaunchQ) : (s.onQueue q f).dev = s.dev := rfl
@[simp] theorem State.onQueue_agenda (s : State) (q : Nat) (f : LaunchQ → LaunchQ) : (s.onQueue q f).agenda = s.agenda := rfl
@[simp] theorem State.onQueue_tick (s : State) (q : Nat) (f : LaunchQ → LaunchQ) : (s.onQueue q f).tick = s.tick := rfl
@[simp] theorem State.onQueue_cur (s : State) (q : Nat) (f : LaunchQ → LaunchQ) : (s.onQueue q f).cur = s.cur := rfl
@[simp] theorem State.onQueue_freeCtr (s : State) (q : Nat) (f : LaunchQ → LaunchQ) : (s.onQueue q f).freeCtr = s.freeCtr := rfl
@[simp] theorem State.onQueue_ageCtr (s : State) (q : Nat) (f : LaunchQ → LaunchQ) : (s.onQueue q f).ageCtr = s.ageCtr := rfl

/-! Reading a part after it has been changed, and the parts that a change leaves alone. -/

@[simp] theorem State.onCore_core (s : State) (c : Nat) (f : Core → Core) (j : Nat) :
    (s.onCore c f).core j = if j = c then f (s.core c) else s.core j := by
  simp [State.core, State.onCore, State.setCore, Tab.getD_set]
@[simp] theorem State.onCore_die (s : State) (c : Nat) (f : Core → Core) (j : Nat) : (s.onCore c f).die j = s.die j := rfl
@[simp] theorem State.onCore_sector (s : State) (c : Nat) (f : Core → Core) (j : Nat) : (s.onCore c f).sector j = s.sector j := rfl
@[simp] theorem State.onCore_slice (s : State) (c : Nat) (f : Core → Core) (j : Nat) : (s.onCore c f).slice j = s.slice j := rfl
@[simp] theorem State.onCore_pcore (s : State) (c : Nat) (f : Core → Core) (j : Nat) : (s.onCore c f).pcore j = s.pcore j := rfl
@[simp] theorem State.onCore_stack (s : State) (c : Nat) (f : Core → Core) (j : Nat) : (s.onCore c f).stack j = s.stack j := rfl
@[simp] theorem State.onCore_port (s : State) (c : Nat) (f : Core → Core) (j : Nat) : (s.onCore c f).port j = s.port j := rfl
@[simp] theorem State.onCore_fn (s : State) (c : Nat) (f : Core → Core) (j : Nat) : (s.onCore c f).fn j = s.fn j := rfl
@[simp] theorem State.onCore_queue (s : State) (c : Nat) (f : Core → Core) (j : Nat) : (s.onCore c f).queue j = s.queue j := rfl

@[simp] theorem State.onDie_die (s : State) (d : Nat) (f : Die → Die) (j : Nat) :
    (s.onDie d f).die j = if j = d then f (s.die d) else s.die j := by
  simp [State.die, State.onDie, Tab.getD_set]
@[simp] theorem State.onDie_core (s : State) (d : Nat) (f : Die → Die) (j : Nat) : (s.onDie d f).core j = s.core j := rfl
@[simp] theorem State.onDie_sector (s : State) (d : Nat) (f : Die → Die) (j : Nat) : (s.onDie d f).sector j = s.sector j := rfl
@[simp] theorem State.onDie_slice (s : State) (d : Nat) (f : Die → Die) (j : Nat) : (s.onDie d f).slice j = s.slice j := rfl
@[simp] theorem State.onDie_pcore (s : State) (d : Nat) (f : Die → Die) (j : Nat) : (s.onDie d f).pcore j = s.pcore j := rfl
@[simp] theorem State.onDie_stack (s : State) (d : Nat) (f : Die → Die) (j : Nat) : (s.onDie d f).stack j = s.stack j := rfl
@[simp] theorem State.onDie_port (s : State) (d : Nat) (f : Die → Die) (j : Nat) : (s.onDie d f).port j = s.port j := rfl
@[simp] theorem State.onDie_fn (s : State) (d : Nat) (f : Die → Die) (j : Nat) : (s.onDie d f).fn j = s.fn j := rfl
@[simp] theorem State.onDie_queue (s : State) (d : Nat) (f : Die → Die) (j : Nat) : (s.onDie d f).queue j = s.queue j := rfl

@[simp] theorem State.onSector_sector (s : State) (n : Nat) (f : Sector → Sector) (j : Nat) :
    (s.onSector n f).sector j = if j = n then f (s.sector n) else s.sector j := by
  simp [State.sector, State.onSector, Tab.getD_set]
@[simp] theorem State.onSector_core (s : State) (n : Nat) (f : Sector → Sector) (j : Nat) : (s.onSector n f).core j = s.core j := rfl
@[simp] theorem State.onSector_die (s : State) (n : Nat) (f : Sector → Sector) (j : Nat) : (s.onSector n f).die j = s.die j := rfl
@[simp] theorem State.onSector_slice (s : State) (n : Nat) (f : Sector → Sector) (j : Nat) : (s.onSector n f).slice j = s.slice j := rfl
@[simp] theorem State.onSector_pcore (s : State) (n : Nat) (f : Sector → Sector) (j : Nat) : (s.onSector n f).pcore j = s.pcore j := rfl
@[simp] theorem State.onSector_stack (s : State) (n : Nat) (f : Sector → Sector) (j : Nat) : (s.onSector n f).stack j = s.stack j := rfl
@[simp] theorem State.onSector_port (s : State) (n : Nat) (f : Sector → Sector) (j : Nat) : (s.onSector n f).port j = s.port j := rfl
@[simp] theorem State.onSector_fn (s : State) (n : Nat) (f : Sector → Sector) (j : Nat) : (s.onSector n f).fn j = s.fn j := rfl
@[simp] theorem State.onSector_queue (s : State) (n : Nat) (f : Sector → Sector) (j : Nat) : (s.onSector n f).queue j = s.queue j := rfl

@[simp] theorem State.onSlice_slice (s : State) (k : Nat) (f : Slice → Slice) (j : Nat) :
    (s.onSlice k f).slice j = if j = k then f (s.slice k) else s.slice j := by
  simp [State.slice, State.onSlice, Tab.getD_set]
@[simp] theorem State.onSlice_core (s : State) (k : Nat) (f : Slice → Slice) (j : Nat) : (s.onSlice k f).core j = s.core j := rfl
@[simp] theorem State.onSlice_die (s : State) (k : Nat) (f : Slice → Slice) (j : Nat) : (s.onSlice k f).die j = s.die j := rfl
@[simp] theorem State.onSlice_sector (s : State) (k : Nat) (f : Slice → Slice) (j : Nat) : (s.onSlice k f).sector j = s.sector j := rfl
@[simp] theorem State.onSlice_pcore (s : State) (k : Nat) (f : Slice → Slice) (j : Nat) : (s.onSlice k f).pcore j = s.pcore j := rfl
@[simp] theorem State.onSlice_stack (s : State) (k : Nat) (f : Slice → Slice) (j : Nat) : (s.onSlice k f).stack j = s.stack j := rfl
@[simp] theorem State.onSlice_port (s : State) (k : Nat) (f : Slice → Slice) (j : Nat) : (s.onSlice k f).port j = s.port j := rfl
@[simp] theorem State.onSlice_fn (s : State) (k : Nat) (f : Slice → Slice) (j : Nat) : (s.onSlice k f).fn j = s.fn j := rfl
@[simp] theorem State.onSlice_queue (s : State) (k : Nat) (f : Slice → Slice) (j : Nat) : (s.onSlice k f).queue j = s.queue j := rfl

@[simp] theorem State.onPCore_pcore (s : State) (p : Nat) (f : PCore → PCore) (j : Nat) :
    (s.onPCore p f).pcore j = if j = p then f (s.pcore p) else s.pcore j := by
  simp [State.pcore, State.onPCore, Tab.getD_set]
@[simp] theorem State.onPCore_core (s : State) (p : Nat) (f : PCore → PCore) (j : Nat) : (s.onPCore p f).core j = s.core j := rfl
@[simp] theorem State.onPCore_die (s : State) (p : Nat) (f : PCore → PCore) (j : Nat) : (s.onPCore p f).die j = s.die j := rfl
@[simp] theorem State.onPCore_sector (s : State) (p : Nat) (f : PCore → PCore) (j : Nat) : (s.onPCore p f).sector j = s.sector j := rfl
@[simp] theorem State.onPCore_slice (s : State) (p : Nat) (f : PCore → PCore) (j : Nat) : (s.onPCore p f).slice j = s.slice j := rfl
@[simp] theorem State.onPCore_stack (s : State) (p : Nat) (f : PCore → PCore) (j : Nat) : (s.onPCore p f).stack j = s.stack j := rfl
@[simp] theorem State.onPCore_port (s : State) (p : Nat) (f : PCore → PCore) (j : Nat) : (s.onPCore p f).port j = s.port j := rfl
@[simp] theorem State.onPCore_fn (s : State) (p : Nat) (f : PCore → PCore) (j : Nat) : (s.onPCore p f).fn j = s.fn j := rfl
@[simp] theorem State.onPCore_queue (s : State) (p : Nat) (f : PCore → PCore) (j : Nat) : (s.onPCore p f).queue j = s.queue j := rfl

@[simp] theorem State.onStack_stack (s : State) (k : Nat) (f : Stack → Stack) (j : Nat) :
    (s.onStack k f).stack j = if j = k then f (s.stack k) else s.stack j := by
  simp [State.stack, State.onStack, Tab.getD_set]
@[simp] theorem State.onStack_core (s : State) (k : Nat) (f : Stack → Stack) (j : Nat) : (s.onStack k f).core j = s.core j := rfl
@[simp] theorem State.onStack_die (s : State) (k : Nat) (f : Stack → Stack) (j : Nat) : (s.onStack k f).die j = s.die j := rfl
@[simp] theorem State.onStack_sector (s : State) (k : Nat) (f : Stack → Stack) (j : Nat) : (s.onStack k f).sector j = s.sector j := rfl
@[simp] theorem State.onStack_slice (s : State) (k : Nat) (f : Stack → Stack) (j : Nat) : (s.onStack k f).slice j = s.slice j := rfl
@[simp] theorem State.onStack_pcore (s : State) (k : Nat) (f : Stack → Stack) (j : Nat) : (s.onStack k f).pcore j = s.pcore j := rfl
@[simp] theorem State.onStack_port (s : State) (k : Nat) (f : Stack → Stack) (j : Nat) : (s.onStack k f).port j = s.port j := rfl
@[simp] theorem State.onStack_fn (s : State) (k : Nat) (f : Stack → Stack) (j : Nat) : (s.onStack k f).fn j = s.fn j := rfl
@[simp] theorem State.onStack_queue (s : State) (k : Nat) (f : Stack → Stack) (j : Nat) : (s.onStack k f).queue j = s.queue j := rfl

@[simp] theorem State.onPort_port (s : State) (p : Nat) (f : Port → Port) (j : Nat) :
    (s.onPort p f).port j = if j = p then f (s.port p) else s.port j := by
  simp [State.port, State.onPort, Tab.getD_set]
@[simp] theorem State.onPort_core (s : State) (p : Nat) (f : Port → Port) (j : Nat) : (s.onPort p f).core j = s.core j := rfl
@[simp] theorem State.onPort_die (s : State) (p : Nat) (f : Port → Port) (j : Nat) : (s.onPort p f).die j = s.die j := rfl
@[simp] theorem State.onPort_sector (s : State) (p : Nat) (f : Port → Port) (j : Nat) : (s.onPort p f).sector j = s.sector j := rfl
@[simp] theorem State.onPort_slice (s : State) (p : Nat) (f : Port → Port) (j : Nat) : (s.onPort p f).slice j = s.slice j := rfl
@[simp] theorem State.onPort_pcore (s : State) (p : Nat) (f : Port → Port) (j : Nat) : (s.onPort p f).pcore j = s.pcore j := rfl
@[simp] theorem State.onPort_stack (s : State) (p : Nat) (f : Port → Port) (j : Nat) : (s.onPort p f).stack j = s.stack j := rfl
@[simp] theorem State.onPort_fn (s : State) (p : Nat) (f : Port → Port) (j : Nat) : (s.onPort p f).fn j = s.fn j := rfl
@[simp] theorem State.onPort_queue (s : State) (p : Nat) (f : Port → Port) (j : Nat) : (s.onPort p f).queue j = s.queue j := rfl

@[simp] theorem State.onFn_fn (s : State) (n : Nat) (f : HostFn → HostFn) (j : Nat) :
    (s.onFn n f).fn j = if j = n then f (s.fn n) else s.fn j := by
  simp [State.fn, State.onFn, Tab.getD_set]
@[simp] theorem State.onFn_core (s : State) (n : Nat) (f : HostFn → HostFn) (j : Nat) : (s.onFn n f).core j = s.core j := rfl
@[simp] theorem State.onFn_die (s : State) (n : Nat) (f : HostFn → HostFn) (j : Nat) : (s.onFn n f).die j = s.die j := rfl
@[simp] theorem State.onFn_sector (s : State) (n : Nat) (f : HostFn → HostFn) (j : Nat) : (s.onFn n f).sector j = s.sector j := rfl
@[simp] theorem State.onFn_slice (s : State) (n : Nat) (f : HostFn → HostFn) (j : Nat) : (s.onFn n f).slice j = s.slice j := rfl
@[simp] theorem State.onFn_pcore (s : State) (n : Nat) (f : HostFn → HostFn) (j : Nat) : (s.onFn n f).pcore j = s.pcore j := rfl
@[simp] theorem State.onFn_stack (s : State) (n : Nat) (f : HostFn → HostFn) (j : Nat) : (s.onFn n f).stack j = s.stack j := rfl
@[simp] theorem State.onFn_port (s : State) (n : Nat) (f : HostFn → HostFn) (j : Nat) : (s.onFn n f).port j = s.port j := rfl
@[simp] theorem State.onFn_queue (s : State) (n : Nat) (f : HostFn → HostFn) (j : Nat) : (s.onFn n f).queue j = s.queue j := rfl

@[simp] theorem State.onQueue_queue (s : State) (q : Nat) (f : LaunchQ → LaunchQ) (j : Nat) :
    (s.onQueue q f).queue j = if j = q then f (s.queue q) else s.queue j := by
  simp [State.queue, State.onQueue, Tab.getD_set]
@[simp] theorem State.onQueue_core (s : State) (q : Nat) (f : LaunchQ → LaunchQ) (j : Nat) : (s.onQueue q f).core j = s.core j := rfl
@[simp] theorem State.onQueue_die (s : State) (q : Nat) (f : LaunchQ → LaunchQ) (j : Nat) : (s.onQueue q f).die j = s.die j := rfl
@[simp] theorem State.onQueue_sector (s : State) (q : Nat) (f : LaunchQ → LaunchQ) (j : Nat) : (s.onQueue q f).sector j = s.sector j := rfl
@[simp] theorem State.onQueue_slice (s : State) (q : Nat) (f : LaunchQ → LaunchQ) (j : Nat) : (s.onQueue q f).slice j = s.slice j := rfl
@[simp] theorem State.onQueue_pcore (s : State) (q : Nat) (f : LaunchQ → LaunchQ) (j : Nat) : (s.onQueue q f).pcore j = s.pcore j := rfl
@[simp] theorem State.onQueue_stack (s : State) (q : Nat) (f : LaunchQ → LaunchQ) (j : Nat) : (s.onQueue q f).stack j = s.stack j := rfl
@[simp] theorem State.onQueue_port (s : State) (q : Nat) (f : LaunchQ → LaunchQ) (j : Nat) : (s.onQueue q f).port j = s.port j := rfl
@[simp] theorem State.onQueue_fn (s : State) (q : Nat) (f : LaunchQ → LaunchQ) (j : Nat) : (s.onQueue q f).fn j = s.fn j := rfl

/-! Teams, groups and paths. -/

@[simp] theorem State.setCore_core (s : State) (c : Nat) (k : Core) (j : Nat) :
    (s.setCore c k).core j = if j = c then k else s.core j := by simp [State.core, State.setCore, Tab.getD_set]

theorem State.team?_def (s : State) (c slot : Nat) : s.team? c slot = (s.core c).slots.find? slot := rfl

theorem State.onTeam_some {s : State} {c slot : Nat} {t : Team} (h : s.team? c slot = some t) (f : Team → Team) :
    s.onTeam c slot f = s.setTeam c slot (f t) := by simp [State.onTeam, h]

theorem State.onTeam_none {s : State} {c slot : Nat} (h : s.team? c slot = none) (f : Team → Team) : s.onTeam c slot f = s := by
  simp [State.onTeam, h]

@[simp] theorem State.setTeam_team? (s : State) (c slot : Nat) (t : Team) (d n : Nat) :
    (s.setTeam c slot t).team? d n = if d = c ∧ n = slot then some t else s.team? d n := by
  by_cases h : d = c
  · subst h; by_cases h2 : n = slot <;> simp [State.team?, State.setTeam, h2, Tab.find?_set]
  · simp [State.team?, State.setTeam, h]

theorem State.group?_some {s : State} {c slot g : Nat} {x : Group} (h : s.group? c slot g = some x) :
    ∃ t, s.team? c slot = some t ∧ t.groups.find? g = some x := by
  simpa [State.group?, Option.bind_eq_some_iff] using h

theorem State.onGroup_some {s : State} {c slot g : Nat} {t : Team} {x : Group} (ht : s.team? c slot = some t)
    (hg : t.groups.find? g = some x) (f : Group → Group) :
    s.onGroup c slot g f = s.setTeam c slot { t with groups := t.groups.set g (f x) } := by
  simp [State.onGroup, State.group?, ht, hg, State.setGroup, State.onTeam]

/-- Changing a group changes no part of the device but its cores. -/
theorem State.onGroup_frame (s : State) (c slot g : Nat) (f : Group → Group) :
    { s.onGroup c slot g f with cores := s.cores } = s := by
  unfold State.onGroup; split
  · unfold State.setGroup State.onTeam; split <;> rfl
  · rfl

/-- Changing a path changes no part of the device but its cores. -/
theorem State.onPath_frame (s : State) (a : Site) (f : Path → Path) : { s.onPath a f with cores := s.cores } = s :=
  s.onGroup_frame _ _ _ _

/-- Changing a quarter changes no part of the device but its cores. -/
theorem State.onQuarter_frame (s : State) (c q : Nat) (f : Quarter → Quarter) : { s.onQuarter c q f with cores := s.cores } = s := rfl

@[simp] theorem Group.setS_s (g : Group) (n : Nat) (x : W32) : (g.setS n x).s = g.s.set n x := rfl
@[simp] theorem Group.setS_sreg (g : Group) (n m : Nat) (x : W32) : (g.setS n x).sreg m = if m = n then x else g.sreg m := by
  simp [Group.sreg, Group.setS, Tab.getD_set]
@[simp] theorem Group.setS_vreg (g : Group) (n m : Nat) (x : W32) : (g.setS n x).vreg m = g.vreg m := rfl

theorem Group.setPair_sreg (g : Group) (n m : Nat) (x : W64) :
    (g.setPair n x).sreg m = if m = n + 1 then x.extractLsb' 32 32 else if m = n then x.extractLsb' 0 32 else g.sreg m := by
  simp [Group.setPair]

theorem concat_halves (x : W64) : (x.extractLsb' 32 32) ++ (x.extractLsb' 0 32) = x := by
  apply BitVec.eq_of_getLsbD_eq
  intro i hi
  rw [BitVec.getLsbD_append]
  by_cases h : i < 32
  · simp [h]
  · have e : 32 + (i - 32) = i := by omega
    have e2 : i - 32 < 32 := by omega
    simp [h, e, e2]

/-- A pair that has been written is read back. -/
@[simp] theorem Group.setPair_spair (g : Group) (n : Nat) (x : W64) : (g.setPair n x).spair n = x := by
  simp [Group.spair, Group.setPair_sreg, concat_halves]

end Sys2Proof.Machine
end

