-- ==== Sys2Proof/Laws/Issue.lean ====
section
/-! SUPPORT. What issuing an instruction comes to, and what retiring one leaves alone: one lemma for each shared operation that an
instruction of a group ends with. -/

namespace Sys2Proof.Machine

/-- The issuing path's view is that of the state. -/
theorem State.ctx_spec {s : State} {x : Ctx} (h : s.ctx? = some x) :
    s.cur = some x.a ∧ s.team? x.a.core x.a.slot = some x.t ∧ x.t.groups.find? x.a.group = some x.g ∧
    x.g.paths.find? x.a.path = some x.p ∧ s.grid? x.t.grid = some x.grid ∧ x.act = activeOf x.p.lanes x.g.nest := by
  simp only [State.ctx?, Option.bind_eq_some_iff] at h
  obtain ⟨a, ha, h⟩ := h
  simp only [State.ctxAt] at h
  split at h
  · cases h
  · rename_i t ht
    split at h
    · cases h
    · rename_i g hg
      split at h
      · rename_i p grid hp hgr
        cases h
        exact ⟨ha, ht, hg, hp, hgr, rfl⟩
      · cases h

/-- An instruction that issues does what it does. -/
theorem State.issue_eq {s : State} {x : Ctx} {regs : List Reg} (h : s.issuesFor x regs) (act : Ctx → State) :
    s.issue regs act = act x := by
  obtain ⟨h1, h2, h3⟩ := h
  simp [State.issue, h1, h2, h3]

/-- A register that does not exist is BADREG (R326). -/
theorem State.issue_badreg {s : State} {x : Ctx} {regs : List Reg} (h : s.ctx? = some x) (hb : regs.all x.regOk = false) (act : Ctx → State) :
    s.issue regs act = s.trapAt x.a 5 0 0 := by
  simp [State.issue, h, hb]

/-- Nothing has changed. -/
theorem Frame.refl {s : State} {x : Ctx} (h : s.ctx? = some x) (v : Bool) : Frame v x s s := by
  obtain ⟨_, ht, _⟩ := State.ctx_spec h
  refine ⟨rfl, fun d => rfl, fun c _ => rfl, by cases v <;> rfl, fun n _ => rfl, ⟨x.t, ht, rfl⟩, fun g _ => rfl⟩

/-- A frame for scalar registers is one for V registers. -/
theorem Frame.weaken {x : Ctx} {s t : State} (h : Frame false x s t) : Frame true x s t := by
  refine ⟨h.device, h.dies, h.cores, ?_, h.teams, h.team, h.groups⟩
  have := h.core
  simp only [Bool.false_eq_true, if_false] at this
  simp only [if_true]
  rw [← this]

/-- Changing the issuing group keeps the frame. -/
theorem Frame.onGroup {v : Bool} {x : Ctx} {s t : State} {g : Group} (h : Frame v x s t)
    (hg : t.group? x.a.core x.a.slot x.a.group = some g) (f : Group → Group) :
    Frame v x s (t.onGroup x.a.core x.a.slot x.a.group f) ∧
    (t.onGroup x.a.core x.a.slot x.a.group f).group? x.a.core x.a.slot x.a.group = some (f g) := by
  obtain ⟨u, hu, hx⟩ := State.group?_some hg
  obtain ⟨u', hu', hr⟩ := h.team
  rw [hu] at hu'; cases hu'
  rw [State.onGroup_some hu hx f]
  refine ⟨⟨?_, h.dies, ?_, ?_, ?_, ?_, ?_⟩, ?_⟩
  · exact h.device
  · intro c hc
    simp only [State.setTeam, State.onCore_core, hc, if_false]
    exact h.cores c hc
  · have := h.core
    cases v <;> simpa [State.setTeam] using this
  · intro n hn
    simp [hn, h.teams n hn]
  · refine ⟨_, by simp; rfl, ?_⟩
    rw [← hr]
  · intro n hn
    simp only [State.group?, State.setTeam_team?, and_self, if_true, Option.bind_some, Tab.find?_set, hn, if_false]
    have := h.groups n hn
    simpa [State.group?, hu] using this
  · simp [State.group?]

/-- Changing the leave of a die keeps the frame. -/
theorem Frame.onDie {v : Bool} {x : Ctx} {s t : State} (h : Frame v x s t) (d : Nat) (f : Die → Die)
    (hf : ∀ k, { f k with grants := k.grants, inUse := k.inUse } = k) : Frame v x s (t.onDie d f) := by
  refine ⟨h.device, ?_, h.cores, h.core, h.teams, h.team, h.groups⟩
  intro e
  have h1 := h.dies e
  simp only [State.onDie_die]
  split
  · rename_i he; subst he
    have h2 := hf (t.die e)
    generalize t.die e = k at h1 h2
    generalize s.die e = k0 at h1
    generalize f k = k2 at h2
    rw [← h1, ← h2]
  · exact h1

theorem Frame.giveBack {v : Bool} {x : Ctx} {s t : State} (h : Frame v x s t) (d : Nat) (p : LeaveAsk → Option Nat) :
    Frame v x s (t.giveBack d p) := h.onDie d _ (fun _ => rfl)

@[simp] theorem State.giveBack_group? (s : State) (d : Nat) (p : LeaveAsk → Option Nat) (c slot g : Nat) :
    (s.giveBack d p).group? c slot g = s.group? c slot g := rfl

/-- Giving the leave of a clause back, or leaving it to the matrix unit, keeps the frame and the groups. -/
theorem Frame.leaveClause {v : Bool} {x : Ctx} {s t : State} (h : Frame v x s t) (a : Site) : Frame v x s (t.leaveClause a) := by
  simp only [State.leaveClause]
  repeat' split
  all_goals first
    | exact h.giveBack _ _
    | exact h.onDie _ _ (fun _ => rfl)

@[simp] theorem State.leaveClause_group? (s : State) (a : Site) (c slot g : Nat) :
    (s.leaveClause a).group? c slot g = s.group? c slot g := by
  simp only [State.leaveClause]
  repeat' split
  all_goals rfl

/-- What the other paths of a group keep when a clause of it retires (R260). -/
theorem retired_view (n k : Nat) (ps : Tab Path) :
    (Tab.find? (ps.map (fun p =>
        if p.1 = k then p else (p.1, match p.2.spin.mark with
          | some _ => { p.2 with spin := p.2.spin.cleared }
          | none => p.2))) n).map Path.view = (Tab.find? ps n).map Path.view := by
  induction ps with
  | nil => rfl
  | cons q ps ih =>
    obtain ⟨m, q⟩ := q
    simp only [List.map, Tab.find?]
    by_cases hk : m = k
    · simp only [hk, if_true]
      split
      · rfl
      · exact ih
    · simp only [hk, if_false]
      split
      · simp only [Option.map]; split <;> rfl
      · exact ih

/-- The end of a clause keeps the frame; the group's paths show what they showed. -/
theorem Frame.endClause {v : Bool} {x : Ctx} {s t : State} {g : Group} (h : Frame v x s t)
    (hg : t.group? x.a.core x.a.slot x.a.group = some g) (r : Bool) :
    Frame v x s (t.endClause x.a r) ∧ ∃ g', (t.endClause x.a r).group? x.a.core x.a.slot x.a.group = some g' ∧
      { g' with paths := g.paths } = g ∧ ∀ n, (g'.paths.find? n).map Path.view = (g.paths.find? n).map Path.view := by
  unfold State.endClause
  cases r
  · refine ⟨h.leaveClause _, g, ?_, rfl, fun _ => rfl⟩
    rw [State.leaveClause_group?]
    exact hg
  · obtain ⟨h1, h2⟩ := h.onGroup hg (fun g =>
      { g with paths := g.paths.map (fun p =>
          if p.1 = x.a.path then p else (p.1, match p.2.spin.mark with
            | some _ => { p.2 with spin := p.2.spin.cleared }
            | none => p.2)) })
    exact ⟨h1.leaveClause _, _, (State.leaveClause_group? ..).trans h2, rfl, fun n => retired_view n x.a.path g.paths⟩

/-- Changing the issuing path keeps the frame. -/
theorem Frame.onPath {v : Bool} {x : Ctx} {s t : State} {g : Group} {p : Path} (h : Frame v x s t)
    (hg : t.group? x.a.core x.a.slot x.a.group = some g) (hp : g.paths.find? x.a.path = some p) (f : Path → Path) :
    Frame v x s (t.onPath x.a f) ∧
    (t.onPath x.a f).group? x.a.core x.a.slot x.a.group = some { g with paths := g.paths.set x.a.path (f p) } := by
  obtain ⟨h1, h2⟩ := h.onGroup hg _
  refine ⟨h1, ?_⟩
  unfold State.onPath
  rw [h2]
  simp only [hp]

/-- What `Retires` says of the paths, from the group that holds them. -/
theorem paths_of_set {ps : Tab Path} {n : Nat} (p : Path) (m : Nat) :
    ((ps.set n p).find? m).map Path.view = if m = n then some p.view else (ps.find? m).map Path.view := by
  rw [Tab.find?_set]; split <;> simp

/-- Stepping past an instruction, from a state in which the group is `g` and its paths are as they were. -/
theorem Frame.stepPast {v : Bool} {x : Ctx} {s t : State} {g : Group} {p : Path} (h : Frame v x s t)
    (r : Bool) (hg : t.group? x.a.core x.a.slot x.a.group = some g) (hp : g.paths.find? x.a.path = some p)
    (hv : p.view = x.p.view)
    (ho : ∀ n, n ≠ x.a.path → (g.paths.find? n).map Path.view = (x.g.paths.find? n).map Path.view) :
    ∃ g', Retires v x s (t.stepPast x.a r) x.past g g' ∧ g'.rest false = g.rest false := by
  have hf : (t.group? x.a.core x.a.slot x.a.group).bind (fun g => g.paths.find? x.a.path) = some p := by rw [hg]; exact hp
  obtain ⟨h1, h2⟩ := h.onPath hg hp (fun p' => { p'.issued (p.words.drop 1) with pc := p'.pc + 8 })
  have hps : ∀ n, ((g.paths.set x.a.path { p.issued (p.words.drop 1) with pc := p.pc + 8 }).find? n).map Path.view
      = if n = x.a.path then some x.past else (x.g.paths.find? n).map Path.view := by
    intro n
    rw [paths_of_set]
    split
    · have e1 : p.lanes = x.p.lanes := congrArg (fun q => q.1) hv
      have e2 : p.pc = x.p.pc := congrArg (fun q => q.2.1) hv
      have e3 : p.fmt = x.p.fmt := congrArg (fun q => q.2.2) hv
      simp [Path.view, Ctx.past, Path.issued, e1, e2, e3]
    · exact ho n ‹_›
  by_cases he : (p.words.drop 1).isEmpty
  · obtain ⟨h3, g', h4, h5, h6⟩ := h1.endClause h2 r
    have e : t.stepPast x.a r = (t.onPath x.a (fun p' => { p'.issued (p.words.drop 1) with pc := p'.pc + 8 })).endClause x.a r := by
      simp only [State.stepPast, hf, he, if_true]
    rw [e]
    have hr : ∀ v, g'.rest v = g.rest v := by
      intro v
      have : g'.rest v = (Group.rest v { g with paths := g.paths.set x.a.path { p.issued (p.words.drop 1) with pc := p.pc + 8 } }) := by
        rw [← h5]; rfl
      rw [this]; rfl
    refine ⟨g', ⟨h3, h4, hr v, ?_⟩, hr false⟩
    intro n; rw [h6]; exact hps n
  · have e : t.stepPast x.a r = t.onPath x.a (fun p' => { p'.issued (p.words.drop 1) with pc := p'.pc + 8 }) := by
      simp only [State.stepPast, hf, he, if_false, Bool.false_eq_true]
    rw [e]
    exact ⟨_, ⟨h1, h2, rfl, hps⟩, rfl⟩

theorem Frame.advance_values {v : Bool} {x : Ctx} {s t : State} {g : Group} {p : Path} (h : Frame v x s t)
    (hg : t.group? x.a.core x.a.slot x.a.group = some g) (hp : g.paths.find? x.a.path = some p)
    (hv : p.view = x.p.view)
    (ho : ∀ n, n ≠ x.a.path → (g.paths.find? n).map Path.view = (x.g.paths.find? n).map Path.view) :
    ∃ g', Retires v x s (t.advance x.a) x.past g g' ∧ g'.rest false = g.rest false :=
  h.stepPast true hg hp hv ho

theorem Frame.advance {v : Bool} {x : Ctx} {s t : State} {g : Group} {p : Path} (h : Frame v x s t)
    (hg : t.group? x.a.core x.a.slot x.a.group = some g) (hp : g.paths.find? x.a.path = some p)
    (hv : p.view = x.p.view)
    (ho : ∀ n, n ≠ x.a.path → (g.paths.find? n).map Path.view = (x.g.paths.find? n).map Path.view) :
    ∃ g', Retires v x s (t.advance x.a) x.past g g' := by
  obtain ⟨g', h', _⟩ := h.advance_values hg hp hv ho
  exact ⟨g', h'⟩

/-- Going on at another clause. -/
theorem Frame.goto {v : Bool} {x : Ctx} {s t : State} {g : Group} {p : Path} (h : Frame v x s t)
    (hg : t.group? x.a.core x.a.slot x.a.group = some g) (hp : g.paths.find? x.a.path = some p)
    (hv : p.view = x.p.view)
    (ho : ∀ n, n ≠ x.a.path → (g.paths.find? n).map Path.view = (x.g.paths.find? n).map Path.view) (target : PcVal) :
    ∃ g', Retires v x s (t.goto x.a target) (x.goesTo target) g g' := by
  obtain ⟨h1, h2⟩ := h.onPath hg hp (fun p => { p.issued [] with pc := target })
  have hps : ∀ n, ((g.paths.set x.a.path { p.issued [] with pc := target }).find? n).map Path.view
      = if n = x.a.path then some (x.goesTo target) else (x.g.paths.find? n).map Path.view := by
    intro n
    rw [paths_of_set]
    split
    · have e1 : p.lanes = x.p.lanes := congrArg (fun q => q.1) hv
      have e3 : p.fmt = x.p.fmt := congrArg (fun q => q.2.2) hv
      simp [Path.view, Ctx.goesTo, Path.issued, e1, e3]
    · exact ho n ‹_›
  obtain ⟨h3, g', h4, h5, h6⟩ := h1.endClause h2 true
  refine ⟨g', h3, h4, ?_, ?_⟩
  · have : g'.rest v = Group.rest v { g' with paths := g.paths.set x.a.path { p.issued [] with pc := target } } := rfl
    rw [this, h5]; rfl
  · intro n; rw [h6]; exact hps n

/-- An instruction that changes its group and steps on. -/
theorem retires_group {s : State} {x : Ctx} (h : s.ctx? = some x) (f : Group → Group) (hf : (f x.g).paths = x.g.paths) :
    ∃ g', Retires false x s ((s.onG x f).advance x.a) x.past (f x.g) g' := by
  obtain ⟨_, ht, hg, hp, _, _⟩ := State.ctx_spec h
  have hg' : s.group? x.a.core x.a.slot x.a.group = some x.g := by simp [State.group?, ht, hg]
  obtain ⟨h1, h2⟩ := (Frame.refl h false).onGroup hg' f
  exact h1.advance h2 (by rw [hf]; exact hp) rfl (fun n _ => by rw [hf])

/-- An instruction that changes nothing and steps on. -/
theorem retires_plain {s : State} {x : Ctx} (h : s.ctx? = some x) : ∃ g', Retires false x s (s.advance x.a) x.past x.g g' := by
  obtain ⟨_, ht, hg, hp, _, _⟩ := State.ctx_spec h
  have hg' : s.group? x.a.core x.a.slot x.a.group = some x.g := by simp [State.group?, ht, hg]
  exact (Frame.refl h false).advance hg' hp rfl (fun n _ => rfl)

/-- An instruction that changes its group and goes elsewhere. -/
theorem retires_goto {s : State} {x : Ctx} (h : s.ctx? = some x) (f : Group → Group) (hf : (f x.g).paths = x.g.paths) (target : PcVal) :
    ∃ g', Retires false x s ((s.onG x f).goto x.a target) (x.goesTo target) (f x.g) g' := by
  obtain ⟨_, ht, hg, hp, _, _⟩ := State.ctx_spec h
  have hg' : s.group? x.a.core x.a.slot x.a.group = some x.g := by simp [State.group?, ht, hg]
  obtain ⟨h1, h2⟩ := (Frame.refl h false).onGroup hg' f
  exact h1.goto h2 (by rw [hf]; exact hp) rfl (fun n _ => by rw [hf]) target

end Sys2Proof.Machine
end

