-- ==== Sys2Proof/Laws/Memory.lean ====
section
/-! SUPPORT. Memory keeps its canonical form (every operation on it), and reads back what was written (R17, R22, R27). -/

namespace Sys2Proof.Machine

theorem Memory.wf_iff (m : Memory) : m.wf = true ↔ m.bytes.rising = true ∧ m.keys.rising = true ∧ m.errors.rising = true := by
  simp [Memory.wf, and_assoc]

theorem Memory.init_wf : Memory.init.wf = true := rfl

/-- One word made ready for a write under a key. -/
def Memory.rekey (key : KeyPair) (m : Memory) (w : Nat) : Memory :=
  match m.keys.find? w with
  | some k =>
    if k = key then m
    else
      let listed := (List.range 32).filter (fun i => (m.bytes.find? (32 * w + i)).isSome)
      let vals := listed.map (fun i => (32 * w + i, m.byteAt key (32 * w + i)))
      { m with bytes := vals.foldl (fun t p => t.set p.1 p.2) m.bytes, keys := m.keys.set w key }
  | none => { m with keys := m.keys.set w key }

theorem Memory.write_eq (m : Memory) (key : KeyPair) (bs : Tab Byte) :
    m.write key bs = let m1 := (dedup (bs.map (fun p => p.1 / 32))).foldl (Memory.rekey key) m
      { m1 with bytes := bs.foldl (fun t p => t.set p.1 p.2) m1.bytes } := rfl

theorem Memory.rekey_wf {m : Memory} (h : m.wf = true) (key : KeyPair) (w : Nat) : (m.rekey key w).wf = true := by
  rw [Memory.wf_iff] at h ⊢
  unfold Memory.rekey
  split
  · split
    · exact h
    · exact ⟨Tab.rising_foldl_set _ _ h.1, Tab.rising_set _ _ _ h.2.1, h.2.2⟩
  · exact ⟨h.1, Tab.rising_set _ _ _ h.2.1, h.2.2⟩

theorem Memory.rekeys_wf (key : KeyPair) (l : List Nat) {m : Memory} (h : m.wf = true) : (l.foldl (Memory.rekey key) m).wf = true := by
  induction l generalizing m with
  | nil => exact h
  | cons w t ih => exact ih (Memory.rekey_wf h key w)

/-- A write keeps the canonical form. -/
theorem Memory.write_wf {m : Memory} (h : m.wf = true) (key : KeyPair) (bs : Tab Byte) : (m.write key bs).wf = true := by
  have h1 := (Memory.wf_iff _).1 (Memory.rekeys_wf key (dedup (bs.map (fun p => p.1 / 32))) h)
  rw [Memory.write_eq, Memory.wf_iff]
  exact ⟨Tab.rising_foldl_set _ _ h1.1, h1.2.1, h1.2.2⟩

/-- Errors, fixes and poison are apart from the bytes. -/
theorem Memory.wf_marks {m : Memory} (h : m.wf = true) {e : Tab Nat} (he : e.rising = true) (p f : List Nat) :
    ({ m with errors := e, poison := p, fixes := f } : Memory).wf = true := by
  rw [Memory.wf_iff] at h ⊢; exact ⟨h.1, h.2.1, he⟩

/-! Reading back. -/

theorem Tab.nodup_of_rising {α : Type} {m : Tab α} (h : m.rising = true) : (m.map (fun p => p.1)).Nodup := by
  induction m with
  | nil => simp
  | cons p t ih =>
    obtain ⟨a, v⟩ := p
    have h' := (Tab.rising_cons a v t).1 h
    simp only [List.map_cons, List.nodup_cons, List.mem_map, not_exists, not_and]
    exact ⟨fun q hq he => by have := Tab.above_all h'.1 h'.2 q hq; omega, ih h'.2⟩

theorem Tab.find?_eq_none {α : Type} {m : Tab α} {a : Nat} (h : a ∉ m.map (fun p => p.1)) : m.find? a = none := by
  induction m with
  | nil => rfl
  | cons p t ih =>
    simp only [List.map_cons, List.mem_cons, not_or] at h
    simp only [Tab.find?]
    rw [if_neg (fun e => h.1 e.symm)]
    exact ih h.2

theorem mem_dedup {α : Type} [DecidableEq α] (l : List α) (a : α) : a ∈ dedup l ↔ a ∈ l := by
  induction l with
  | nil => rfl
  | cons b t ih =>
    simp only [dedup, List.mem_cons, List.mem_filter, ih, decide_eq_true_eq]
    by_cases h : a = b
    · simp [h]
    · simp [h]

/-- Setting a list of entries whose keys differ. -/
theorem Tab.find?_foldl_set {α : Type} (bs : Tab α) (h : (bs.map (fun p => p.1)).Nodup) (m : Tab α) (a : Nat) :
    (bs.foldl (fun t p => t.set p.1 p.2) m).find? a = (bs.find? a).or (m.find? a) := by
  induction bs generalizing m with
  | nil => simp
  | cons p t ih =>
    simp only [List.map_cons, List.nodup_cons] at h
    simp only [List.foldl_cons, ih h.2, Tab.find?_set, Tab.find?]
    by_cases hp : a = p.1
    · subst hp; rw [Tab.find?_eq_none h.1]; simp
    · rw [if_neg hp, if_neg (fun e => hp e.symm)]

theorem Memory.word_congr {m n : Memory} {w : Nat} (h : ∀ i, i < 32 → m.bytes.find? (32 * w + i) = n.bytes.find? (32 * w + i)) : m.word w = n.word w := by
  have : ∀ l : List Nat, (∀ i ∈ l, i < 32) → l.foldr (fun i acc => ((m.bytes.find? (32 * w + i)).getD 0).toNat + 256 * acc) 0 =
      l.foldr (fun i acc => ((n.bytes.find? (32 * w + i)).getD 0).toNat + 256 * acc) 0 := by
    intro l hl
    induction l with
    | nil => rfl
    | cons i t ih => simp only [List.foldr_cons, h i (hl i (List.mem_cons_self ..)), ih (fun j hj => hl j (List.mem_cons_of_mem _ hj))]
  simp only [Memory.word]
  rw [this _ (fun i hi => List.mem_range.1 hi)]

theorem Memory.byteAt_congr {m n : Memory} {key : KeyPair} {a : Nat} (hk : m.keys.find? (a / 32) = n.keys.find? (a / 32))
    (h : ∀ b, b / 32 = a / 32 → m.bytes.find? b = n.bytes.find? b) : m.byteAt key a = n.byteAt key a := by
  have hw : m.word (a / 32) = n.word (a / 32) := Memory.word_congr (fun i hi => h _ (by omega))
  simp only [Memory.byteAt, hk, h a rfl, hw]

theorem Memory.find?_byteAt {α : Type} (f : Nat → α) (l : List Nat) (w a : Nat) :
    Tab.find? (l.map (fun i => (32 * w + i, f (32 * w + i)))) a = if 32 * w ≤ a ∧ a - 32 * w ∈ l then some (f a) else none := by
  induction l with
  | nil => simp
  | cons i t ih =>
    simp only [List.map_cons, Tab.find?, ih, List.mem_cons]
    by_cases h : 32 * w + i = a
    · subst h; simp
    · rw [if_neg h]
      have : ¬ (32 * w ≤ a ∧ a - 32 * w = i) := by omega
      by_cases h2 : 32 * w ≤ a ∧ a - 32 * w ∈ t
      · rw [if_pos h2, if_pos ⟨h2.1, .inr h2.2⟩]
      · rw [if_neg h2, if_neg]
        rintro ⟨h3, h4 | h4⟩
        · exact this ⟨h3, h4⟩
        · exact h2 ⟨h3, h4⟩

theorem Memory.rekeyed {m : Memory} {key : KeyPair} {w : Nat} {bytes : Tab Byte}
    (hb : ∀ b, bytes.find? b = if b / 32 = w ∧ (m.bytes.find? b).isSome = true then some (m.byteAt key b) else m.bytes.find? b) (a : Nat) :
    ({ m with bytes := bytes, keys := m.keys.set w key } : Memory).byteAt key a = m.byteAt key a := by
  by_cases hw : a / 32 = w
  · have hb := hb a
    by_cases hs : (m.bytes.find? a).isSome = true
    · rw [if_pos ⟨hw, hs⟩] at hb
      have : ({ m with bytes := bytes, keys := m.keys.set w key } : Memory).byteAt key a = match bytes.find? a with
          | none => Config.unwrittenByte key a
          | some b => match (m.keys.set w key).find? (a / 32) with
            | some k => if k = key then b else Config.garbledByte k key a
                (({ m with bytes := bytes, keys := m.keys.set w key } : Memory).word (a / 32))
            | none => b := rfl
      rw [this, hb, hw, Tab.find?_set_self]
      exact if_pos rfl
    · have hn := Option.not_isSome_iff_eq_none.1 hs
      rw [if_neg (fun h => hs h.2), hn] at hb
      simp only [Memory.byteAt, hb, hn]
  · refine Memory.byteAt_congr (Tab.find?_set_ne _ _ hw) (fun b hb' => ?_)
    exact (hb b).trans (if_neg (fun h => hw (hb' ▸ h.1)))

/-- Making a word ready changes nothing that the new key reads. -/
theorem Memory.rekey_same (key : KeyPair) (m : Memory) (w a : Nat) : (m.rekey key w).byteAt key a = m.byteAt key a := by
  unfold Memory.rekey
  split
  · split
    · rfl
    · refine Memory.rekeyed (fun b => ?_) a
      rw [Tab.find?_foldl_set, Memory.find?_byteAt (fun x => m.byteAt key x)]
      · by_cases hw : b / 32 = w
        · have e : 32 * w + (b - 32 * w) = b := by omega
          by_cases hs : (m.bytes.find? b).isSome = true
          · rw [if_pos, if_pos ⟨hw, hs⟩]
            · rfl
            · exact ⟨by omega, List.mem_filter.2 ⟨List.mem_range.2 (by omega), by rw [e]; exact hs⟩⟩
          · rw [if_neg, if_neg (fun h => hs h.2)]
            · rfl
            · rintro ⟨_, h2⟩; have := (List.mem_filter.1 h2).2; rw [e] at this; exact hs this
        · rw [if_neg, if_neg (fun h => hw h.1)]
          · rfl
          · rintro ⟨h1, h2⟩; have := List.mem_range.1 (List.mem_filter.1 h2).1; omega
      · rw [List.map_map]
        refine List.Pairwise.map _ ?_ (List.Pairwise.filter _ List.nodup_range)
        intro i j h; simpa using h
  · rename_i hk
    by_cases hw : a / 32 = w
    · simp only [Memory.byteAt, hw, hk, Tab.find?_set_self, if_true]
    · exact Memory.byteAt_congr (Tab.find?_set_ne _ _ hw) (fun b _ => rfl)

theorem Memory.rekeys_same (key : KeyPair) (l : List Nat) (m : Memory) (a : Nat) : (l.foldl (Memory.rekey key) m).byteAt key a = m.byteAt key a := by
  induction l generalizing m with
  | nil => rfl
  | cons w t ih => rw [List.foldl_cons, ih, Memory.rekey_same]

theorem Memory.rekey_key (key : KeyPair) (m : Memory) (w : Nat) : (m.rekey key w).keys.find? w = some key := by
  unfold Memory.rekey
  split
  · rename_i k hk
    split
    · rename_i h; rw [hk, h]
    · exact Tab.find?_set_self ..
  · exact Tab.find?_set_self ..

theorem Memory.rekey_keep (key : KeyPair) (m : Memory) {v w : Nat} (h : m.keys.find? v = some key) : (m.rekey key w).keys.find? v = some key := by
  by_cases e : v = w
  · subst e; exact Memory.rekey_key ..
  · unfold Memory.rekey
    split
    · split
      · exact h
      · exact (Tab.find?_set_ne _ _ e).trans h
    · exact (Tab.find?_set_ne _ _ e).trans h

theorem Memory.rekeys_key (key : KeyPair) (l : List Nat) (m : Memory) {w : Nat} (h : w ∈ l ∨ m.keys.find? w = some key) :
    (l.foldl (Memory.rekey key) m).keys.find? w = some key := by
  induction l generalizing m with
  | nil => simpa using h
  | cons v t ih =>
    rw [List.foldl_cons]
    refine ih _ ?_
    rcases h with h | h
    · rcases List.mem_cons.1 h with rfl | h
      · exact .inr (Memory.rekey_key ..)
      · exact .inl h
    · exact .inr (Memory.rekey_keep key m h)

/-- A read after a write under the same key gives what was written there, and elsewhere what was there. -/
theorem Memory.byteAt_write (m : Memory) (key : KeyPair) (bs : Tab Byte) (h : (bs.map (fun p => p.1)).Nodup) (a : Nat) :
    (m.write key bs).byteAt key a = (bs.find? a).getD (m.byteAt key a) := by
  have hs := Memory.rekeys_same key (dedup (bs.map (fun p => p.1 / 32))) m a
  have hk := Memory.rekeys_key key (dedup (bs.map (fun p => p.1 / 32))) m (w := a / 32)
  rw [Memory.write_eq]
  generalize (dedup (bs.map (fun p => p.1 / 32))).foldl (Memory.rekey key) m = n at hs hk
  show Memory.byteAt { n with bytes := _ } key a = _
  rw [← hs]
  cases hf : bs.find? a with
  | some b =>
    have hm : a / 32 ∈ dedup (bs.map (fun p => p.1 / 32)) := by
      rw [mem_dedup]
      have : a ∈ bs.map (fun p => p.1) := Classical.byContradiction (fun h => by rw [Tab.find?_eq_none h] at hf; cases hf)
      obtain ⟨p, hp, rfl⟩ := List.mem_map.1 this
      exact List.mem_map.2 ⟨p, hp, rfl⟩
    simp only [Memory.byteAt, Tab.find?_foldl_set bs h, hf, Option.some_or, hk (.inl hm), if_true, Option.getD_some]
  | none =>
    rw [Option.getD_none]
    by_cases hm : a / 32 ∈ dedup (bs.map (fun p => p.1 / 32))
    · simp only [Memory.byteAt, Tab.find?_foldl_set bs h, hf, Option.none_or, hk (.inl hm), if_true]
    · refine Memory.byteAt_congr rfl (fun b hb => ?_)
      show Tab.find? (List.foldl (fun t p => Tab.set t p.1 p.2) n.bytes bs) b = _
      rw [Tab.find?_foldl_set bs h, Tab.find?_eq_none, Option.none_or]
      intro hmem
      obtain ⟨p, hp, rfl⟩ := List.mem_map.1 hmem
      exact hm (by rw [mem_dedup, ← hb]; exact List.mem_map.2 ⟨p, hp, rfl⟩)

/-! The memory of a state, and of its checkpoints, through the shared operations. -/

theorem State.sound_of {s t : State} (hm : t.mem = s.mem) (hc : t.dev.checkpoints = s.dev.checkpoints) (h : s.sound) : t.sound := by
  unfold State.sound; rw [hm, hc]; exact h

theorem State.sound_mem {s : State} (h : s.sound) {m : Memory} (hm : m.wf = true) : ({ s with mem := m } : State).sound := ⟨hm, h.2⟩

theorem State.sound_foldl {α : Type} {f : State → α → State} (hf : ∀ s a, s.sound → (f s a).sound) (l : List α) {s : State} (h : s.sound) :
    (l.foldl f s).sound := by
  induction l generalizing s with
  | nil => exact h
  | cons a t ih => exact ih (hf s a h)

theorem State.onCore_sound {s : State} (h : s.sound) (c : Nat) (f : Core → Core) : (s.onCore c f).sound := State.sound_of rfl rfl h
theorem State.onDie_sound {s : State} (h : s.sound) (d : Nat) (f : Die → Die) : (s.onDie d f).sound := State.sound_of rfl rfl h
theorem State.onStack_sound {s : State} (h : s.sound) (k : Nat) (f : Stack → Stack) : (s.onStack k f).sound := State.sound_of rfl rfl h
theorem State.onSector_sound {s : State} (h : s.sound) (n : Nat) (f : Sector → Sector) : (s.onSector n f).sound := State.sound_of rfl rfl h
theorem State.send_sound {s : State} (h : s.sound) (k c : Nat) (m : Msg) : (s.send k c m).sound := State.sound_of rfl rfl h
theorem State.newAck_sound {s : State} (h : s.sound) (n : Nat) (dest : AckTo) : (s.newAck n dest).2.sound := State.sound_of rfl rfl h
theorem State.interrupt_sound {s : State} (h : s.sound) (v : Nat) : (s.interrupt v).sound := State.sound_of rfl rfl h
theorem State.clearSpins_sound {s : State} (h : s.sound) (c line : Nat) : (s.clearSpins c line).sound := State.onCore_sound h ..
theorem State.onL1_sound {s : State} (h : s.sound) (c sec : Nat) (f : L1Sec → L1Sec) : (s.onL1 c sec f).sound := State.onCore_sound h ..

theorem State.sound_ite {p : Prop} [Decidable p] {a b : State} (ha : a.sound) (hb : b.sound) : (if p then a else b).sound := by
  split
  · exact ha
  · exact hb

/-! Storing at a slice (R22, R105, R111): errors and poison apart, memory changes by `Memory.write` alone. -/

theorem Memory.fresh_wf {m : Memory} (h : m.wf = true) (w : Nat) : (m.fresh w).wf = true :=
  Memory.wf_marks h (Tab.rising_erase _ _ ((Memory.wf_iff _).1 h).2.2) _ _

theorem Memory.spoil_wf {m : Memory} (h : m.wf = true) (w : Nat) : (m.spoil w).wf = true :=
  Memory.wf_marks (Memory.fresh_wf h w) ((Memory.wf_iff _).1 (Memory.fresh_wf h w)).2.2 _ _

theorem State.setMem_sound {s : State} (h : s.sound) {m : Memory} (hm : m.wf = true) : (s.setMem m).sound := State.sound_mem h hm

theorem State.storeWord_sound {s : State} (h : s.sound) (key : KeyPair) (w : Nat) (bs : Tab Byte) (pois : Bool) :
    (s.storeWord key w bs pois).sound := by
  refine State.sound_mem h (Memory.write_wf ?_ _ _)
  cases pois
  · exact Memory.fresh_wf h.1 w
  · exact Memory.spoil_wf h.1 w

theorem State.wrote_sound {s : State} (h : s.sound) (line : Nat) : (s.wrote line).sound :=
  State.sound_foldl (f := fun (s : State) (c : Nat × Core) => s.clearSpins c.1 line) (fun _ _ hs => State.clearSpins_sound hs _ _) _ h

theorem State.endWork_sound {s : State} (h : s.sound) (w : Nat) : (s.endWork w).sound := by
  unfold State.endWork
  split
  · exact h
  · exact State.sound_of rfl rfl h

/-- Telling the sharers and the routes writes no memory. -/
theorem State.announce_sound {s : State} (h : s.sound) (k sec : Nat) (bs : Tab Byte) (prod : Option Nat) (dest : AckTo) :
    (s.announce k sec bs prod dest).sound := by
  generalize hf : State.announce = f
  delta State.announce at hf
  subst hf
  dsimp only
  have h1 : ∀ (l : List Nat) (m : Nat → Msg) (home n : Nat) (dest : AckTo) (s : State), s.sound →
      (l.foldl (fun s c => s.send home c (m c)) (s.newAck n dest).2).sound :=
    fun l m home n dest s hs => State.sound_foldl (fun s c hs => State.send_sound hs _ _ _) l (State.newAck_sound hs n dest)
  split
  · exact h1 _ _ _ _ _ _ (State.wrote_sound (State.onSector_sound h _ _) _)
  · exact State.sound_foldl (fun s r hs => State.onSector_sound (State.send_sound hs _ _ _) _ _) _
      (h1 _ _ _ _ _ _ (State.wrote_sound (State.onSector_sound h _ _) _))

/-- Unpinning keeps the canonical form. -/
theorem State.unpin_sound {s : State} (h : s.sound) (sec work : Nat) : (s.unpin sec work).sound := by
  generalize hf : State.unpin = f
  delta State.unpin at hf
  subst hf
  dsimp only
  split
  · exact State.endWork_sound h _
  · have h1 : (s.onSector sec (fun x => { x with pin := none })).sound := State.onSector_sound h _ _
    have hj : ∀ (f : Sector → Sector) (s : State), s.sound → (s.onSector sec f).sound := fun f s hs => State.onSector_sound hs _ _
    have he : ∀ (c : Tab (List Msg)) (f : Sector → Sector) (s : State), s.sound →
        ((State.onSector { s with channels := c } sec f).endWork work).sound :=
      fun c f s hs => State.endWork_sound (State.onSector_sound (s := { s with channels := c }) (State.sound_of (s := s) rfl rfl hs) _ _) _
    split
    · exact he _ _ _ h1
    · split
      · exact he _ _ _ h1
      · split
        · exact State.endWork_sound (hj _ _ (State.onL1_sound h1 _ _ _)) _
        · exact hj _ _ (State.announce_sound (State.storeWord_sound (State.storeWord_sound (State.onL1_sound h1 _ _ _) _ _ _ _) _ _ _ _) _ _ _ _ _)

theorem State.recordAt_sound {s : State} (h : s.sound) (x : Xlat) (key : KeyPair) (bs : List Byte) : (s.recordAt x key bs).sound := by
  unfold State.recordAt
  dsimp only
  generalize x.pa :: _ = l
  refine State.announce_sound (State.sound_foldl (fun s pa hs => ?_) l (State.unpin_sound h _ _)) _ _ _ _ _
  exact State.storeWord_sound hs _ _ _ _

/-- A way to record memory errors keeps the canonical form. -/
abbrev LogWith.keeps (log : LogWith) : Prop := ∀ (s : State) (w : Who) (kind pa : Nat), s.sound → (log s w kind pa).sound

theorem State.checkWordBy_sound {log : LogWith} (hl : log.keeps) {s : State} (h : s.sound) (w : Who) (q : Nat) :
    (s.checkWordBy log w q).sound := by
  have hw := (Memory.wf_iff _).1 h.1
  unfold State.checkWordBy
  split
  · exact h
  · dsimp only
    split
    · exact h
    · split
      · split
        · exact State.setMem_sound h (Memory.wf_marks h.1 (Tab.rising_erase _ _ hw.2.2) _ _)
        · exact hl _ _ _ _ (State.onStack_sound (State.setMem_sound h (Memory.wf_marks h.1 hw.2.2 _ _)) _ _)
      · exact hl _ _ _ _ (State.setMem_sound h (Memory.wf_marks h.1 (Tab.rising_erase _ _ hw.2.2) _ _))

theorem State.tierWordBy_sound {log : LogWith} (hl : log.keeps) {s : State} (h : s.sound) (w : Who) (q : Nat) :
    (s.tierWordBy log w q).sound := by
  unfold State.tierWordBy; split
  · exact hl _ _ _ _ h
  · exact State.checkWordBy_sound hl h _ _

theorem State.fillBy_sound {log : LogWith} (hl : log.keeps) {s : State} (h : s.sound) (w : Who) (sec : Nat) (l : List Nat) :
    (s.fillBy log w sec l).sound := by
  have hq := State.sound_foldl (fun s q hs => State.tierWordBy_sound hl hs w q) ([2 * sec, 2 * sec + 1].filter (fun q => !l.contains q)) h
  unfold State.fillBy; split
  · exact h
  · dsimp only
    split
    · exact State.onSector_sound hq _ _
    · exact hq

theorem State.walkReadsBy_sound {log : LogWith} (hl : log.keeps) {s : State} (h : s.sound) (w : Who) (cache : List WalkEntry) (asid va : Nat) :
    (s.walkReadsBy log w cache asid va).sound :=
  State.sound_foldl (fun s q hs => State.fillBy_sound hl hs w q []) _ h

theorem State.svWrite_sound {s : State} (h : s.sound) (die type : Nat) (w : Who) (a b : Nat) : (s.svWrite die type w a b).sound := by
  unfold State.svWrite
  split
  · exact h
  · dsimp only
    split
    · exact State.onDie_sound (State.onDie_sound h _ _) _ _
    · exact State.interrupt_sound (State.onDie_sound (State.recordAt_sound (State.onDie_sound h _ _) _ _ _) _ _) _

/-- A record of the supervisor channel keeps the canonical form, however many errors its own table reads meet. -/
theorem State.svRecordIn_sound (n : Nat) : ∀ {s : State}, s.sound → ∀ (die type : Nat) (w : Who) (a b : Nat),
    (State.svRecordIn n s die type w a b).sound := by
  induction n with
  | zero => intro s h die type w a b; exact State.svWrite_sound h _ _ _ _ _
  | succ n ih =>
    intro s h die type w a b
    rw [State.svRecordIn]
    split
    · exact State.svWrite_sound (State.walkReadsBy_sound (fun s w k pa hs => ih hs _ _ _ _ _) h _ _ _ _) _ _ _ _ _
    · exact State.svWrite_sound h _ _ _ _ _

theorem State.svRecord_sound {s : State} (h : s.sound) (die type : Nat) (w : Who) (a b : Nat) : (s.svRecord die type w a b).sound :=
  State.svRecordIn_sound 16 h _ _ _ _ _

theorem State.log23_sound {s : State} (h : s.sound) (w : Who) (k pa : Nat) : (s.log23 w k pa).sound := State.svRecord_sound h _ _ _ _ _

theorem log23_keeps : LogWith.keeps State.log23 := fun _ _ _ _ h => State.log23_sound h _ _ _

theorem State.checkWord_sound {s : State} (h : s.sound) (w : Who) (q : Nat) : (s.checkWord w q).sound :=
  State.checkWordBy_sound log23_keeps h _ _
theorem State.tierWord_sound {s : State} (h : s.sound) (w : Who) (q : Nat) : (s.tierWord w q).sound :=
  State.tierWordBy_sound log23_keeps h _ _
theorem State.fillBut_sound {s : State} (h : s.sound) (w : Who) (sec : Nat) (l : List Nat) : (s.fillBut w sec l).sound :=
  State.fillBy_sound log23_keeps h _ _ _
theorem State.fillSector_sound {s : State} (h : s.sound) (w : Who) (sec : Nat) : (s.fillSector w sec).sound := State.fillBut_sound h _ _ _
theorem State.walkFills_sound {s : State} (h : s.sound) (w : Who) (cache : List WalkEntry) (asid va : Nat) : (s.walkFills w cache asid va).sound :=
  State.walkReadsBy_sound log23_keeps h _ _ _ _
theorem State.ringReads_sound {s : State} (h : s.sound) (w : Who) (va : Nat) : (s.ringReads w va).sound := State.walkFills_sound h _ _ _ _

/-- A record is not written, or, once its place has been read from the tables, it is written where its address leads. -/
theorem recordWrite_cases (s : State) (w : Who) (va : Nat) (bs : List Byte) :
    recordWrite s w va bs = (false, s) ∨ ∃ x key, recordWrite s w va bs = (true, (s.ringReads w va).recordAt x key bs) := by
  generalize hf : recordWrite = f
  delta recordWrite at hf
  subst hf
  dsimp only
  generalize ringPlace s va 32 = r
  cases r with
  | none => exact .inl rfl
  | some r => exact .inr ⟨r.1, r.2, rfl⟩

theorem recordWrite_sound {s : State} (h : s.sound) (w : Who) (va : Nat) (bs : List Byte) : (recordWrite s w va bs).2.sound := by
  rcases recordWrite_cases s w va bs with e | ⟨x, k, e⟩
  · rw [e]; exact h
  · rw [e]; exact State.recordAt_sound (State.ringReads_sound h _ _) _ _ _

/-- Merging a store keeps the canonical form. -/
theorem State.mergeStore_sound {s : State} (h : s.sound) (w : Who) (key : KeyPair) (bs : Tab Byte) (pois : Bool) :
    (s.mergeStore w key bs pois).sound := by
  unfold State.mergeStore
  refine State.sound_foldl (fun s q hs => ?_) _ h
  dsimp only
  split
  · exact State.storeWord_sound hs _ _ _ _
  · split
    · split
      · exact State.log23_sound hs _ _ _
      · exact hs
    · split
      · exact State.log23_sound (State.setMem_sound hs (Memory.spoil_wf hs.1 _)) _ _ _
      · have h1 : (if decide ((s.sector (q / 2)).st = SecSt.inv) = true then s.checkWord w q else s).sound :=
          State.sound_ite (State.checkWord_sound hs _ _) hs
        refine State.setMem_sound h1 ?_
        split
        · exact Memory.wf_marks h1.1 ((Memory.wf_iff _).1 h1.1).2.2 _ _
        · exact Memory.write_wf h1.1 _ _

/-- Performing a store keeps the canonical form. -/
theorem State.performAt_sound {s : State} (h : s.sound) (w : Who) (key : KeyPair) (k : Nat) (bs : Tab Byte) (bad : List Nat)
    (prod : Option Nat) (dest : AckTo) : (s.performAt w key k bs bad prod dest).sound := by
  unfold State.performAt
  split
  · exact State.newAck_sound h _ _
  · exact State.announce_sound (State.fillBut_sound (State.mergeStore_sound (State.mergeStore_sound h _ _ _ _) _ _ _ _) _ _ _) _ _ _ _ _

theorem State.ringAt_sound {s : State} (h : s.sound) (w : Who) (x : Xlat) (key : KeyPair) (bs : List Byte) :
    (s.ringAt w x key bs).sound := by
  unfold State.ringAt
  dsimp only
  generalize Option.toList _ = l
  refine State.performAt_sound (State.sound_foldl (fun s pa hs => ?_) l (State.unpin_sound h _ _)) _ _ _ _ _ _ _
  exact State.mergeStore_sound hs _ _ _ _

/-- A ring write stores nothing, or, once its place has been read from the tables, it stores where its address leads. -/
theorem ringWrite_cases (s : State) (w : Who) (va : Nat) (bs : List Byte) :
    ringWrite s w va bs = (false, s) ∨ ∃ x key, ringWrite s w va bs = (true, (s.ringReads w va).ringAt w x key bs) := by
  generalize hf : ringWrite = f
  delta ringWrite at hf
  subst hf
  dsimp only
  generalize ringPlace s va bs.length = r
  cases r with
  | none => exact .inl rfl
  | some r => exact .inr ⟨r.1, r.2, rfl⟩

theorem ringWrite_sound {s : State} (h : s.sound) (w : Who) (va : Nat) (bs : List Byte) : (ringWrite s w va bs).2.sound := by
  rcases ringWrite_cases s w va bs with e | ⟨x, k, e⟩
  · rw [e]; exact h
  · rw [e]; exact State.ringAt_sound (State.ringReads_sound h _ _) _ _ _ _

end Sys2Proof.Machine
end

