-- ==== Sys2Proof/Laws/PerInstr.lean ====
section
/-! SUPPORT. Per instruction: a well-formed instruction is what its word decodes to (R318, R326, R327). -/

namespace Sys2Proof.Laws.Encoding

/-- A well-formed instruction that has a word is what that word decodes to. -/
def Statement (i : Instr) : Prop := i.wf = true → ∀ w, encode i = some w → decode w = .ok i

theorem smov (f : SopF) : Statement (.smov f) := by
  intro h w hw
  have h1 : (f.fits && decide (f.check specSmov = 0)) = true := h
  have h2 : some (BitVec.ofNat 64 (f.toWord 0x001)) = some w := hw
  have h3 : ∀ w, decodeOp 0x001 w = SopF.read specSmov .smov w := fun _ => rfl
  exact SopF.decode_toWord (p := specSmov) (mk := .smov) (by decide) (fun _ _ => h3 _) h1 h2
theorem smovi (f : SimmF) : Statement (.smovi f) := by
  intro h w hw
  have h1 : (f.fits && decide (f.check specSmovi = 0)) = true := h
  have h2 : some (BitVec.ofNat 64 (f.toWord 0x002)) = some w := hw
  have h3 : ∀ w, decodeOp 0x002 w = SimmF.read specSmovi .smovi w := fun _ => rfl
  exact SimmF.decode_toWord (p := specSmovi) (mk := .smovi) (by decide) (fun _ _ => h3 _) h1 h2
theorem sadd (f : SopF) : Statement (.sadd f) := by
  intro h w hw
  have h1 : (f.fits && decide (f.check specSadd = 0)) = true := h
  have h2 : some (BitVec.ofNat 64 (f.toWord 0x003)) = some w := hw
  have h3 : ∀ w, decodeOp 0x003 w = SopF.read specSadd .sadd w := fun _ => rfl
  exact SopF.decode_toWord (p := specSadd) (mk := .sadd) (by decide) (fun _ _ => h3 _) h1 h2
theorem ssub (f : SopF) : Statement (.ssub f) := by
  intro h w hw
  have h1 : (f.fits && decide (f.check specSsub = 0)) = true := h
  have h2 : some (BitVec.ofNat 64 (f.toWord 0x004)) = some w := hw
  have h3 : ∀ w, decodeOp 0x004 w = SopF.read specSsub .ssub w := fun _ => rfl
  exact SopF.decode_toWord (p := specSsub) (mk := .ssub) (by decide) (fun _ _ => h3 _) h1 h2
theorem smul (f : SopF) : Statement (.smul f) := by
  intro h w hw
  have h1 : (f.fits && decide (f.check specSmul = 0)) = true := h
  have h2 : some (BitVec.ofNat 64 (f.toWord 0x005)) = some w := hw
  have h3 : ∀ w, decodeOp 0x005 w = SopF.read specSmul .smul w := fun _ => rfl
  exact SopF.decode_toWord (p := specSmul) (mk := .smul) (by decide) (fun _ _ => h3 _) h1 h2
theorem smulh (f : SopF) : Statement (.smulh f) := by
  intro h w hw
  have h1 : (f.fits && decide (f.check specSmulh = 0)) = true := h
  have h2 : some (BitVec.ofNat 64 (f.toWord 0x006)) = some w := hw
  have h3 : ∀ w, decodeOp 0x006 w = SopF.read specSmulh .smulh w := fun _ => rfl
  exact SopF.decode_toWord (p := specSmulh) (mk := .smulh) (by decide) (fun _ _ => h3 _) h1 h2
theorem sdiv (f : SopF) : Statement (.sdiv f) := by
  intro h w hw
  have h1 : (f.fits && decide (f.check specSdiv = 0)) = true := h
  have h2 : some (BitVec.ofNat 64 (f.toWord 0x007)) = some w := hw
  have h3 : ∀ w, decodeOp 0x007 w = SopF.read specSdiv .sdiv w := fun _ => rfl
  exact SopF.decode_toWord (p := specSdiv) (mk := .sdiv) (by decide) (fun _ _ => h3 _) h1 h2
theorem srem (f : SopF) : Statement (.srem f) := by
  intro h w hw
  have h1 : (f.fits && decide (f.check specSrem = 0)) = true := h
  have h2 : some (BitVec.ofNat 64 (f.toWord 0x008)) = some w := hw
  have h3 : ∀ w, decodeOp 0x008 w = SopF.read specSrem .srem w := fun _ => rfl
  exact SopF.decode_toWord (p := specSrem) (mk := .srem) (by decide) (fun _ _ => h3 _) h1 h2
theorem sand (f : SopF) : Statement (.sand f) := by
  intro h w hw
  have h1 : (f.fits && decide (f.check specSand = 0)) = true := h
  have h2 : some (BitVec.ofNat 64 (f.toWord 0x009)) = some w := hw
  have h3 : ∀ w, decodeOp 0x009 w = SopF.read specSand .sand w := fun _ => rfl
  exact SopF.decode_toWord (p := specSand) (mk := .sand) (by decide) (fun _ _ => h3 _) h1 h2
theorem sor (f : SopF) : Statement (.sor f) := by
  intro h w hw
  have h1 : (f.fits && decide (f.check specSor = 0)) = true := h
  have h2 : some (BitVec.ofNat 64 (f.toWord 0x00A)) = some w := hw
  have h3 : ∀ w, decodeOp 0x00A w = SopF.read specSor .sor w := fun _ => rfl
  exact SopF.decode_toWord (p := specSor) (mk := .sor) (by decide) (fun _ _ => h3 _) h1 h2
theorem sxor (f : SopF) : Statement (.sxor f) := by
  intro h w hw
  have h1 : (f.fits && decide (f.check specSxor = 0)) = true := h
  have h2 : some (BitVec.ofNat 64 (f.toWord 0x00B)) = some w := hw
  have h3 : ∀ w, decodeOp 0x00B w = SopF.read specSxor .sxor w := fun _ => rfl
  exact SopF.decode_toWord (p := specSxor) (mk := .sxor) (by decide) (fun _ _ => h3 _) h1 h2
theorem snot (f : SopF) : Statement (.snot f) := by
  intro h w hw
  have h1 : (f.fits && decide (f.check specSnot = 0)) = true := h
  have h2 : some (BitVec.ofNat 64 (f.toWord 0x00C)) = some w := hw
  have h3 : ∀ w, decodeOp 0x00C w = SopF.read specSnot .snot w := fun _ => rfl
  exact SopF.decode_toWord (p := specSnot) (mk := .snot) (by decide) (fun _ _ => h3 _) h1 h2
theorem sshl (f : SopF) : Statement (.sshl f) := by
  intro h w hw
  have h1 : (f.fits && decide (f.check specSshl = 0)) = true := h
  have h2 : some (BitVec.ofNat 64 (f.toWord 0x00D)) = some w := hw
  have h3 : ∀ w, decodeOp 0x00D w = SopF.read specSshl .sshl w := fun _ => rfl
  exact SopF.decode_toWord (p := specSshl) (mk := .sshl) (by decide) (fun _ _ => h3 _) h1 h2
theorem sshr (f : SopF) : Statement (.sshr f) := by
  intro h w hw
  have h1 : (f.fits && decide (f.check specSshr = 0)) = true := h
  have h2 : some (BitVec.ofNat 64 (f.toWord 0x00E)) = some w := hw
  have h3 : ∀ w, decodeOp 0x00E w = SopF.read specSshr .sshr w := fun _ => rfl
  exact SopF.decode_toWord (p := specSshr) (mk := .sshr) (by decide) (fun _ _ => h3 _) h1 h2
theorem ssar (f : SopF) : Statement (.ssar f) := by
  intro h w hw
  have h1 : (f.fits && decide (f.check specSsar = 0)) = true := h
  have h2 : some (BitVec.ofNat 64 (f.toWord 0x00F)) = some w := hw
  have h3 : ∀ w, decodeOp 0x00F w = SopF.read specSsar .ssar w := fun _ => rfl
  exact SopF.decode_toWord (p := specSsar) (mk := .ssar) (by decide) (fun _ _ => h3 _) h1 h2
theorem smin (f : SopF) : Statement (.smin f) := by
  intro h w hw
  have h1 : (f.fits && decide (f.check specSmin = 0)) = true := h
  have h2 : some (BitVec.ofNat 64 (f.toWord 0x010)) = some w := hw
  have h3 : ∀ w, decodeOp 0x010 w = SopF.read specSmin .smin w := fun _ => rfl
  exact SopF.decode_toWord (p := specSmin) (mk := .smin) (by decide) (fun _ _ => h3 _) h1 h2
theorem smax (f : SopF) : Statement (.smax f) := by
  intro h w hw
  have h1 : (f.fits && decide (f.check specSmax = 0)) = true := h
  have h2 : some (BitVec.ofNat 64 (f.toWord 0x011)) = some w := hw
  have h3 : ∀ w, decodeOp 0x011 w = SopF.read specSmax .smax w := fun _ => rfl
  exact SopF.decode_toWord (p := specSmax) (mk := .smax) (by decide) (fun _ _ => h3 _) h1 h2
theorem scmp (f : SopF) : Statement (.scmp f) := by
  intro h w hw
  have h1 : (f.fits && decide (f.check specScmp = 0)) = true := h
  have h2 : some (BitVec.ofNat 64 (f.toWord 0x012)) = some w := hw
  have h3 : ∀ w, decodeOp 0x012 w = SopF.read specScmp .scmp w := fun _ => rfl
  exact SopF.decode_toWord (p := specScmp) (mk := .scmp) (by decide) (fun _ _ => h3 _) h1 h2
theorem ssel (f : SopF) : Statement (.ssel f) := by
  intro h w hw
  have h1 : (f.fits && decide (f.check specSsel = 0)) = true := h
  have h2 : some (BitVec.ofNat 64 (f.toWord 0x013)) = some w := hw
  have h3 : ∀ w, decodeOp 0x013 w = SopF.read specSsel .ssel w := fun _ => rfl
  exact SopF.decode_toWord (p := specSsel) (mk := .ssel) (by decide) (fun _ _ => h3 _) h1 h2
theorem nop (f : BrF) : Statement (.nop f) := by
  intro h w hw
  have h1 : (f.fits && decide (f.check specNop = 0)) = true := h
  have h2 : some (BitVec.ofNat 64 (f.toWord 0x040)) = some w := hw
  have h3 : ∀ w, decodeOp 0x040 w = BrF.read specNop .nop w := fun _ => rfl
  exact BrF.decode_toWord (p := specNop) (mk := .nop) (by decide) (fun _ _ => h3 _) h1 h2
theorem bra (f : BrF) : Statement (.bra f) := by
  intro h w hw
  have h1 : (f.fits && decide (f.check specBra = 0)) = true := h
  have h2 : some (BitVec.ofNat 64 (f.toWord 0x041)) = some w := hw
  have h3 : ∀ w, decodeOp 0x041 w = BrF.read specBra .bra w := fun _ => rfl
  exact BrF.decode_toWord (p := specBra) (mk := .bra) (by decide) (fun _ _ => h3 _) h1 h2
theorem brc (f : BrF) : Statement (.brc f) := by
  intro h w hw
  have h1 : (f.fits && decide (f.check specBrc = 0)) = true := h
  have h2 : some (BitVec.ofNat 64 (f.toWord 0x042)) = some w := hw
  have h3 : ∀ w, decodeOp 0x042 w = BrF.read specBrc .brc w := fun _ => rfl
  exact BrF.decode_toWord (p := specBrc) (mk := .brc) (by decide) (fun _ _ => h3 _) h1 h2
theorem call (f : BrF) : Statement (.call f) := by
  intro h w hw
  have h1 : (f.fits && decide (f.check specCall = 0)) = true := h
  have h2 : some (BitVec.ofNat 64 (f.toWord 0x043)) = some w := hw
  have h3 : ∀ w, decodeOp 0x043 w = BrF.read specCall .call w := fun _ => rfl
  exact BrF.decode_toWord (p := specCall) (mk := .call) (by decide) (fun _ _ => h3 _) h1 h2
theorem ret (f : BrF) : Statement (.ret f) := by
  intro h w hw
  have h1 : (f.fits && decide (f.check specRet = 0)) = true := h
  have h2 : some (BitVec.ofNat 64 (f.toWord 0x044)) = some w := hw
  have h3 : ∀ w, decodeOp 0x044 w = BrF.read specRet .ret w := fun _ => rfl
  exact BrF.decode_toWord (p := specRet) (mk := .ret) (by decide) (fun _ _ => h3 _) h1 h2
theorem jmpi (f : BrF) : Statement (.jmpi f) := by
  intro h w hw
  have h1 : (f.fits && decide (f.check specJmpi = 0)) = true := h
  have h2 : some (BitVec.ofNat 64 (f.toWord 0x045)) = some w := hw
  have h3 : ∀ w, decodeOp 0x045 w = BrF.read specJmpi .jmpi w := fun _ => rfl
  exact BrF.decode_toWord (p := specJmpi) (mk := .jmpi) (by decide) (fun _ _ => h3 _) h1 h2
theorem exit (f : BrF) : Statement (.exit f) := by
  intro h w hw
  have h1 : (f.fits && decide (f.check specExit = 0)) = true := h
  have h2 : some (BitVec.ofNat 64 (f.toWord 0x046)) = some w := hw
  have h3 : ∀ w, decodeOp 0x046 w = BrF.read specExit .exit w := fun _ => rfl
  exact BrF.decode_toWord (p := specExit) (mk := .exit) (by decide) (fun _ _ => h3 _) h1 h2
theorem waitc (f : WcntF) : Statement (.waitc f) := by
  intro h w hw
  have h1 : (f.fits && decide (f.check = 0)) = true := h
  have h2 : some (BitVec.ofNat 64 (f.toWord 0x047)) = some w := hw
  have h3 : ∀ w, decodeOp 0x047 w = WcntF.read .waitc w := fun _ => rfl
  exact WcntF.decode_toWord (mk := .waitc) (by decide) (fun _ _ => h3 _) h1 h2
theorem yield (f : BrF) : Statement (.yield f) := by
  intro h w hw
  have h1 : (f.fits && decide (f.check specYield = 0)) = true := h
  have h2 : some (BitVec.ofNat 64 (f.toWord 0x048)) = some w := hw
  have h3 : ∀ w, decodeOp 0x048 w = BrF.read specYield .yield w := fun _ => rfl
  exact BrF.decode_toWord (p := specYield) (mk := .yield) (by decide) (fun _ _ => h3 _) h1 h2
theorem srdsr (f : SpcF) : Statement (.srdsr f) := by
  intro h w hw
  have h1 : (f.fits && decide (f.check specSrdsr = 0)) = true := h
  have h2 : some (BitVec.ofNat 64 (f.toWord 0x049)) = some w := hw
  have h3 : ∀ w, decodeOp 0x049 w = SpcF.read specSrdsr .srdsr w := fun _ => rfl
  exact SpcF.decode_toWord (p := specSrdsr) (mk := .srdsr) (by decide) (fun _ _ => h3 _) h1 h2
theorem swrsr (f : SpcF) : Statement (.swrsr f) := by
  intro h w hw
  have h1 : (f.fits && decide (f.check specSwrsr = 0)) = true := h
  have h2 : some (BitVec.ofNat 64 (f.toWord 0x04A)) = some w := hw
  have h3 : ∀ w, decodeOp 0x04A w = SpcF.read specSwrsr .swrsr w := fun _ => rfl
  exact SpcF.decode_toWord (p := specSwrsr) (mk := .swrsr) (by decide) (fun _ _ => h3 _) h1 h2
theorem setfmt (f : SimmF) : Statement (.setfmt f) := by
  intro h w hw
  have h1 : (f.fits && decide (f.check specSetfmt = 0)) = true := h
  have h2 : some (BitVec.ofNat 64 (f.toWord 0x04B)) = some w := hw
  have h3 : ∀ w, decodeOp 0x04B w = SimmF.read specSetfmt .setfmt w := fun _ => rfl
  exact SimmF.decode_toWord (p := specSetfmt) (mk := .setfmt) (by decide) (fun _ _ => h3 _) h1 h2
theorem setpart (f : SimmF) : Statement (.setpart f) := by
  intro h w hw
  have h1 : (f.fits && decide (f.check specSetpart = 0)) = true := h
  have h2 : some (BitVec.ofNat 64 (f.toWord 0x04C)) = some w := hw
  have h3 : ∀ w, decodeOp 0x04C w = SimmF.read specSetpart .setpart w := fun _ => rfl
  exact SimmF.decode_toWord (p := specSetpart) (mk := .setpart) (by decide) (fun _ _ => h3 _) h1 h2
theorem ifLanes (f : BrF) : Statement (.ifLanes f) := by
  intro h w hw
  have h1 : (f.fits && decide (f.check specIfLanes = 0)) = true := h
  have h2 : some (BitVec.ofNat 64 (f.toWord 0x050)) = some w := hw
  have h3 : ∀ w, decodeOp 0x050 w = BrF.read specIfLanes .ifLanes w := fun _ => rfl
  exact BrF.decode_toWord (p := specIfLanes) (mk := .ifLanes) (by decide) (fun _ _ => h3 _) h1 h2
theorem elseLanes (f : BrF) : Statement (.elseLanes f) := by
  intro h w hw
  have h1 : (f.fits && decide (f.check specElseLanes = 0)) = true := h
  have h2 : some (BitVec.ofNat 64 (f.toWord 0x051)) = some w := hw
  have h3 : ∀ w, decodeOp 0x051 w = BrF.read specElseLanes .elseLanes w := fun _ => rfl
  exact BrF.decode_toWord (p := specElseLanes) (mk := .elseLanes) (by decide) (fun _ _ => h3 _) h1 h2
theorem endif (f : BrF) : Statement (.endif f) := by
  intro h w hw
  have h1 : (f.fits && decide (f.check specEndif = 0)) = true := h
  have h2 : some (BitVec.ofNat 64 (f.toWord 0x052)) = some w := hw
  have h3 : ∀ w, decodeOp 0x052 w = BrF.read specEndif .endif w := fun _ => rfl
  exact BrF.decode_toWord (p := specEndif) (mk := .endif) (by decide) (fun _ _ => h3 _) h1 h2
theorem brv (f : BrF) : Statement (.brv f) := by
  intro h w hw
  have h1 : (f.fits && decide (f.check specBrv = 0)) = true := h
  have h2 : some (BitVec.ofNat 64 (f.toWord 0x053)) = some w := hw
  have h3 : ∀ w, decodeOp 0x053 w = BrF.read specBrv .brv w := fun _ => rfl
  exact BrF.decode_toWord (p := specBrv) (mk := .brv) (by decide) (fun _ _ => h3 _) h1 h2
theorem mark (f : BrF) : Statement (.mark f) := by
  intro h w hw
  have h1 : (f.fits && decide (f.check specMark = 0)) = true := h
  have h2 : some (BitVec.ofNat 64 (f.toWord 0x054)) = some w := hw
  have h3 : ∀ w, decodeOp 0x054 w = BrF.read specMark .mark w := fun _ => rfl
  exact BrF.decode_toWord (p := specMark) (mk := .mark) (by decide) (fun _ _ => h3 _) h1 h2
theorem join (f : BrF) : Statement (.join f) := by
  intro h w hw
  have h1 : (f.fits && decide (f.check specJoin = 0)) = true := h
  have h2 : some (BitVec.ofNat 64 (f.toWord 0x055)) = some w := hw
  have h3 : ∀ w, decodeOp 0x055 w = BrF.read specJoin .join w := fun _ => rfl
  exact BrF.decode_toWord (p := specJoin) (mk := .join) (by decide) (fun _ _ => h3 _) h1 h2
theorem kmov (f : KopF) : Statement (.kmov f) := by
  intro h w hw
  have h1 : (f.fits && decide (f.check specKmov = 0)) = true := h
  have h2 : some (BitVec.ofNat 64 (f.toWord 0x056)) = some w := hw
  have h3 : ∀ w, decodeOp 0x056 w = KopF.read specKmov .kmov w := fun _ => rfl
  exact KopF.decode_toWord (p := specKmov) (mk := .kmov) (by decide) (fun _ _ => h3 _) h1 h2
theorem kand (f : KopF) : Statement (.kand f) := by
  intro h w hw
  have h1 : (f.fits && decide (f.check specKand = 0)) = true := h
  have h2 : some (BitVec.ofNat 64 (f.toWord 0x057)) = some w := hw
  have h3 : ∀ w, decodeOp 0x057 w = KopF.read specKand .kand w := fun _ => rfl
  exact KopF.decode_toWord (p := specKand) (mk := .kand) (by decide) (fun _ _ => h3 _) h1 h2
theorem kor (f : KopF) : Statement (.kor f) := by
  intro h w hw
  have h1 : (f.fits && decide (f.check specKor = 0)) = true := h
  have h2 : some (BitVec.ofNat 64 (f.toWord 0x058)) = some w := hw
  have h3 : ∀ w, decodeOp 0x058 w = KopF.read specKor .kor w := fun _ => rfl
  exact KopF.decode_toWord (p := specKor) (mk := .kor) (by decide) (fun _ _ => h3 _) h1 h2
theorem spin (f : BrF) : Statement (.spin f) := by
  intro h w hw
  have h1 : (f.fits && decide (f.check specSpin = 0)) = true := h
  have h2 : some (BitVec.ofNat 64 (f.toWord 0x059)) = some w := hw
  have h3 : ∀ w, decodeOp 0x059 w = BrF.read specSpin .spin w := fun _ => rfl
  exact BrF.decode_toWord (p := specSpin) (mk := .spin) (by decide) (fun _ _ => h3 _) h1 h2
theorem vadd (f : VopF) : Statement (.vadd f) := by
  intro h w hw
  have h1 : (f.fits && decide (f.check specVadd = 0)) = true := h
  have h2 : some (BitVec.ofNat 64 (f.toWord 0x081)) = some w := hw
  have h3 : ∀ w, decodeOp 0x081 w = VopF.read specVadd .vadd w := fun _ => rfl
  exact VopF.decode_toWord (p := specVadd) (mk := .vadd) (by decide) (fun _ _ => h3 _) h1 h2
theorem vsub (f : VopF) : Statement (.vsub f) := by
  intro h w hw
  have h1 : (f.fits && decide (f.check specVsub = 0)) = true := h
  have h2 : some (BitVec.ofNat 64 (f.toWord 0x082)) = some w := hw
  have h3 : ∀ w, decodeOp 0x082 w = VopF.read specVsub .vsub w := fun _ => rfl
  exact VopF.decode_toWord (p := specVsub) (mk := .vsub) (by decide) (fun _ _ => h3 _) h1 h2
theorem vmul (f : VopF) : Statement (.vmul f) := by
  intro h w hw
  have h1 : (f.fits && decide (f.check specVmul = 0)) = true := h
  have h2 : some (BitVec.ofNat 64 (f.toWord 0x083)) = some w := hw
  have h3 : ∀ w, decodeOp 0x083 w = VopF.read specVmul .vmul w := fun _ => rfl
  exact VopF.decode_toWord (p := specVmul) (mk := .vmul) (by decide) (fun _ _ => h3 _) h1 h2
theorem vmulh (f : VopF) : Statement (.vmulh f) := by
  intro h w hw
  have h1 : (f.fits && decide (f.check specVmulh = 0)) = true := h
  have h2 : some (BitVec.ofNat 64 (f.toWord 0x084)) = some w := hw
  have h3 : ∀ w, decodeOp 0x084 w = VopF.read specVmulh .vmulh w := fun _ => rfl
  exact VopF.decode_toWord (p := specVmulh) (mk := .vmulh) (by decide) (fun _ _ => h3 _) h1 h2
theorem vmad (f : VopF) : Statement (.vmad f) := by
  intro h w hw
  have h1 : (f.fits && decide (f.check specVmad = 0)) = true := h
  have h2 : some (BitVec.ofNat 64 (f.toWord 0x085)) = some w := hw
  have h3 : ∀ w, decodeOp 0x085 w = VopF.read specVmad .vmad w := fun _ => rfl
  exact VopF.decode_toWord (p := specVmad) (mk := .vmad) (by decide) (fun _ _ => h3 _) h1 h2
theorem vand (f : VopF) : Statement (.vand f) := by
  intro h w hw
  have h1 : (f.fits && decide (f.check specVand = 0)) = true := h
  have h2 : some (BitVec.ofNat 64 (f.toWord 0x086)) = some w := hw
  have h3 : ∀ w, decodeOp 0x086 w = VopF.read specVand .vand w := fun _ => rfl
  exact VopF.decode_toWord (p := specVand) (mk := .vand) (by decide) (fun _ _ => h3 _) h1 h2
theorem vor (f : VopF) : Statement (.vor f) := by
  intro h w hw
  have h1 : (f.fits && decide (f.check specVor = 0)) = true := h
  have h2 : some (BitVec.ofNat 64 (f.toWord 0x087)) = some w := hw
  have h3 : ∀ w, decodeOp 0x087 w = VopF.read specVor .vor w := fun _ => rfl
  exact VopF.decode_toWord (p := specVor) (mk := .vor) (by decide) (fun _ _ => h3 _) h1 h2
theorem vxor (f : VopF) : Statement (.vxor f) := by
  intro h w hw
  have h1 : (f.fits && decide (f.check specVxor = 0)) = true := h
  have h2 : some (BitVec.ofNat 64 (f.toWord 0x088)) = some w := hw
  have h3 : ∀ w, decodeOp 0x088 w = VopF.read specVxor .vxor w := fun _ => rfl
  exact VopF.decode_toWord (p := specVxor) (mk := .vxor) (by decide) (fun _ _ => h3 _) h1 h2
theorem vnot (f : VopF) : Statement (.vnot f) := by
  intro h w hw
  have h1 : (f.fits && decide (f.check specVnot = 0)) = true := h
  have h2 : some (BitVec.ofNat 64 (f.toWord 0x089)) = some w := hw
  have h3 : ∀ w, decodeOp 0x089 w = VopF.read specVnot .vnot w := fun _ => rfl
  exact VopF.decode_toWord (p := specVnot) (mk := .vnot) (by decide) (fun _ _ => h3 _) h1 h2
theorem vshl (f : VopF) : Statement (.vshl f) := by
  intro h w hw
  have h1 : (f.fits && decide (f.check specVshl = 0)) = true := h
  have h2 : some (BitVec.ofNat 64 (f.toWord 0x08A)) = some w := hw
  have h3 : ∀ w, decodeOp 0x08A w = VopF.read specVshl .vshl w := fun _ => rfl
  exact VopF.decode_toWord (p := specVshl) (mk := .vshl) (by decide) (fun _ _ => h3 _) h1 h2
theorem vshr (f : VopF) : Statement (.vshr f) := by
  intro h w hw
  have h1 : (f.fits && decide (f.check specVshr = 0)) = true := h
  have h2 : some (BitVec.ofNat 64 (f.toWord 0x08B)) = some w := hw
  have h3 : ∀ w, decodeOp 0x08B w = VopF.read specVshr .vshr w := fun _ => rfl
  exact VopF.decode_toWord (p := specVshr) (mk := .vshr) (by decide) (fun _ _ => h3 _) h1 h2
theorem vsar (f : VopF) : Statement (.vsar f) := by
  intro h w hw
  have h1 : (f.fits && decide (f.check specVsar = 0)) = true := h
  have h2 : some (BitVec.ofNat 64 (f.toWord 0x08C)) = some w := hw
  have h3 : ∀ w, decodeOp 0x08C w = VopF.read specVsar .vsar w := fun _ => rfl
  exact VopF.decode_toWord (p := specVsar) (mk := .vsar) (by decide) (fun _ _ => h3 _) h1 h2
theorem vmin (f : VopF) : Statement (.vmin f) := by
  intro h w hw
  have h1 : (f.fits && decide (f.check specVmin = 0)) = true := h
  have h2 : some (BitVec.ofNat 64 (f.toWord 0x08D)) = some w := hw
  have h3 : ∀ w, decodeOp 0x08D w = VopF.read specVmin .vmin w := fun _ => rfl
  exact VopF.decode_toWord (p := specVmin) (mk := .vmin) (by decide) (fun _ _ => h3 _) h1 h2
theorem vmax (f : VopF) : Statement (.vmax f) := by
  intro h w hw
  have h1 : (f.fits && decide (f.check specVmax = 0)) = true := h
  have h2 : some (BitVec.ofNat 64 (f.toWord 0x08E)) = some w := hw
  have h3 : ∀ w, decodeOp 0x08E w = VopF.read specVmax .vmax w := fun _ => rfl
  exact VopF.decode_toWord (p := specVmax) (mk := .vmax) (by decide) (fun _ _ => h3 _) h1 h2
theorem vabs (f : VopF) : Statement (.vabs f) := by
  intro h w hw
  have h1 : (f.fits && decide (f.check specVabs = 0)) = true := h
  have h2 : some (BitVec.ofNat 64 (f.toWord 0x08F)) = some w := hw
  have h3 : ∀ w, decodeOp 0x08F w = VopF.read specVabs .vabs w := fun _ => rfl
  exact VopF.decode_toWord (p := specVabs) (mk := .vabs) (by decide) (fun _ _ => h3 _) h1 h2
theorem vclz (f : VopF) : Statement (.vclz f) := by
  intro h w hw
  have h1 : (f.fits && decide (f.check specVclz = 0)) = true := h
  have h2 : some (BitVec.ofNat 64 (f.toWord 0x090)) = some w := hw
  have h3 : ∀ w, decodeOp 0x090 w = VopF.read specVclz .vclz w := fun _ => rfl
  exact VopF.decode_toWord (p := specVclz) (mk := .vclz) (by decide) (fun _ _ => h3 _) h1 h2
theorem vpopc (f : VopF) : Statement (.vpopc f) := by
  intro h w hw
  have h1 : (f.fits && decide (f.check specVpopc = 0)) = true := h
  have h2 : some (BitVec.ofNat 64 (f.toWord 0x091)) = some w := hw
  have h3 : ∀ w, decodeOp 0x091 w = VopF.read specVpopc .vpopc w := fun _ => rfl
  exact VopF.decode_toWord (p := specVpopc) (mk := .vpopc) (by decide) (fun _ _ => h3 _) h1 h2
theorem vbrev (f : VopF) : Statement (.vbrev f) := by
  intro h w hw
  have h1 : (f.fits && decide (f.check specVbrev = 0)) = true := h
  have h2 : some (BitVec.ofNat 64 (f.toWord 0x092)) = some w := hw
  have h3 : ∀ w, decodeOp 0x092 w = VopF.read specVbrev .vbrev w := fun _ => rfl
  exact VopF.decode_toWord (p := specVbrev) (mk := .vbrev) (by decide) (fun _ _ => h3 _) h1 h2
theorem vcmp (f : VopF) : Statement (.vcmp f) := by
  intro h w hw
  have h1 : (f.fits && decide (f.check specVcmp = 0)) = true := h
  have h2 : some (BitVec.ofNat 64 (f.toWord 0x093)) = some w := hw
  have h3 : ∀ w, decodeOp 0x093 w = VopF.read specVcmp .vcmp w := fun _ => rfl
  exact VopF.decode_toWord (p := specVcmp) (mk := .vcmp) (by decide) (fun _ _ => h3 _) h1 h2
theorem vsel (f : VopF) : Statement (.vsel f) := by
  intro h w hw
  have h1 : (f.fits && decide (f.check specVsel = 0)) = true := h
  have h2 : some (BitVec.ofNat 64 (f.toWord 0x094)) = some w := hw
  have h3 : ∀ w, decodeOp 0x094 w = VopF.read specVsel .vsel w := fun _ => rfl
  exact VopF.decode_toWord (p := specVsel) (mk := .vsel) (by decide) (fun _ _ => h3 _) h1 h2
theorem vmov (f : VopF) : Statement (.vmov f) := by
  intro h w hw
  have h1 : (f.fits && decide (f.check specVmov = 0)) = true := h
  have h2 : some (BitVec.ofNat 64 (f.toWord 0x095)) = some w := hw
  have h3 : ∀ w, decodeOp 0x095 w = VopF.read specVmov .vmov w := fun _ => rfl
  exact VopF.decode_toWord (p := specVmov) (mk := .vmov) (by decide) (fun _ _ => h3 _) h1 h2
theorem viota (f : VopF) : Statement (.viota f) := by
  intro h w hw
  have h1 : (f.fits && decide (f.check specViota = 0)) = true := h
  have h2 : some (BitVec.ofNat 64 (f.toWord 0x096)) = some w := hw
  have h3 : ∀ w, decodeOp 0x096 w = VopF.read specViota .viota w := fun _ => rfl
  exact VopF.decode_toWord (p := specViota) (mk := .viota) (by decide) (fun _ _ => h3 _) h1 h2
theorem vmovs (f : SopF) : Statement (.vmovs f) := by
  intro h w hw
  have h1 : (f.fits && decide (f.check specVmovs = 0)) = true := h
  have h2 : some (BitVec.ofNat 64 (f.toWord 0x097)) = some w := hw
  have h3 : ∀ w, decodeOp 0x097 w = SopF.read specVmovs .vmovs w := fun _ => rfl
  exact SopF.decode_toWord (p := specVmovs) (mk := .vmovs) (by decide) (fun _ _ => h3 _) h1 h2
theorem vfadd (f : VopF) : Statement (.vfadd f) := by
  intro h w hw
  have h1 : (f.fits && decide (f.check specVfadd = 0)) = true := h
  have h2 : some (BitVec.ofNat 64 (f.toWord 0x0C1)) = some w := hw
  have h3 : ∀ w, decodeOp 0x0C1 w = VopF.read specVfadd .vfadd w := fun _ => rfl
  exact VopF.decode_toWord (p := specVfadd) (mk := .vfadd) (by decide) (fun _ _ => h3 _) h1 h2
theorem vfsub (f : VopF) : Statement (.vfsub f) := by
  intro h w hw
  have h1 : (f.fits && decide (f.check specVfsub = 0)) = true := h
  have h2 : some (BitVec.ofNat 64 (f.toWord 0x0C2)) = some w := hw
  have h3 : ∀ w, decodeOp 0x0C2 w = VopF.read specVfsub .vfsub w := fun _ => rfl
  exact VopF.decode_toWord (p := specVfsub) (mk := .vfsub) (by decide) (fun _ _ => h3 _) h1 h2
theorem vfmul (f : VopF) : Statement (.vfmul f) := by
  intro h w hw
  have h1 : (f.fits && decide (f.check specVfmul = 0)) = true := h
  have h2 : some (BitVec.ofNat 64 (f.toWord 0x0C3)) = some w := hw
  have h3 : ∀ w, decodeOp 0x0C3 w = VopF.read specVfmul .vfmul w := fun _ => rfl
  exact VopF.decode_toWord (p := specVfmul) (mk := .vfmul) (by decide) (fun _ _ => h3 _) h1 h2
theorem vfma (f : VopF) : Statement (.vfma f) := by
  intro h w hw
  have h1 : (f.fits && decide (f.check specVfma = 0)) = true := h
  have h2 : some (BitVec.ofNat 64 (f.toWord 0x0C4)) = some w := hw
  have h3 : ∀ w, decodeOp 0x0C4 w = VopF.read specVfma .vfma w := fun _ => rfl
  exact VopF.decode_toWord (p := specVfma) (mk := .vfma) (by decide) (fun _ _ => h3 _) h1 h2
theorem vfmin (f : VopF) : Statement (.vfmin f) := by
  intro h w hw
  have h1 : (f.fits && decide (f.check specVfmin = 0)) = true := h
  have h2 : some (BitVec.ofNat 64 (f.toWord 0x0C5)) = some w := hw
  have h3 : ∀ w, decodeOp 0x0C5 w = VopF.read specVfmin .vfmin w := fun _ => rfl
  exact VopF.decode_toWord (p := specVfmin) (mk := .vfmin) (by decide) (fun _ _ => h3 _) h1 h2
theorem vfmax (f : VopF) : Statement (.vfmax f) := by
  intro h w hw
  have h1 : (f.fits && decide (f.check specVfmax = 0)) = true := h
  have h2 : some (BitVec.ofNat 64 (f.toWord 0x0C6)) = some w := hw
  have h3 : ∀ w, decodeOp 0x0C6 w = VopF.read specVfmax .vfmax w := fun _ => rfl
  exact VopF.decode_toWord (p := specVfmax) (mk := .vfmax) (by decide) (fun _ _ => h3 _) h1 h2
theorem vfminn (f : VopF) : Statement (.vfminn f) := by
  intro h w hw
  have h1 : (f.fits && decide (f.check specVfminn = 0)) = true := h
  have h2 : some (BitVec.ofNat 64 (f.toWord 0x0C7)) = some w := hw
  have h3 : ∀ w, decodeOp 0x0C7 w = VopF.read specVfminn .vfminn w := fun _ => rfl
  exact VopF.decode_toWord (p := specVfminn) (mk := .vfminn) (by decide) (fun _ _ => h3 _) h1 h2
theorem vfmaxn (f : VopF) : Statement (.vfmaxn f) := by
  intro h w hw
  have h1 : (f.fits && decide (f.check specVfmaxn = 0)) = true := h
  have h2 : some (BitVec.ofNat 64 (f.toWord 0x0C8)) = some w := hw
  have h3 : ∀ w, decodeOp 0x0C8 w = VopF.read specVfmaxn .vfmaxn w := fun _ => rfl
  exact VopF.decode_toWord (p := specVfmaxn) (mk := .vfmaxn) (by decide) (fun _ _ => h3 _) h1 h2
theorem vfabs (f : VopF) : Statement (.vfabs f) := by
  intro h w hw
  have h1 : (f.fits && decide (f.check specVfabs = 0)) = true := h
  have h2 : some (BitVec.ofNat 64 (f.toWord 0x0C9)) = some w := hw
  have h3 : ∀ w, decodeOp 0x0C9 w = VopF.read specVfabs .vfabs w := fun _ => rfl
  exact VopF.decode_toWord (p := specVfabs) (mk := .vfabs) (by decide) (fun _ _ => h3 _) h1 h2
theorem vfneg (f : VopF) : Statement (.vfneg f) := by
  intro h w hw
  have h1 : (f.fits && decide (f.check specVfneg = 0)) = true := h
  have h2 : some (BitVec.ofNat 64 (f.toWord 0x0CA)) = some w := hw
  have h3 : ∀ w, decodeOp 0x0CA w = VopF.read specVfneg .vfneg w := fun _ => rfl
  exact VopF.decode_toWord (p := specVfneg) (mk := .vfneg) (by decide) (fun _ _ => h3 _) h1 h2
theorem vfrcp (f : VopF) : Statement (.vfrcp f) := by
  intro h w hw
  have h1 : (f.fits && decide (f.check specVfrcp = 0)) = true := h
  have h2 : some (BitVec.ofNat 64 (f.toWord 0x0CB)) = some w := hw
  have h3 : ∀ w, decodeOp 0x0CB w = VopF.read specVfrcp .vfrcp w := fun _ => rfl
  exact VopF.decode_toWord (p := specVfrcp) (mk := .vfrcp) (by decide) (fun _ _ => h3 _) h1 h2
theorem vfrsq (f : VopF) : Statement (.vfrsq f) := by
  intro h w hw
  have h1 : (f.fits && decide (f.check specVfrsq = 0)) = true := h
  have h2 : some (BitVec.ofNat 64 (f.toWord 0x0CC)) = some w := hw
  have h3 : ∀ w, decodeOp 0x0CC w = VopF.read specVfrsq .vfrsq w := fun _ => rfl
  exact VopF.decode_toWord (p := specVfrsq) (mk := .vfrsq) (by decide) (fun _ _ => h3 _) h1 h2
theorem vfsqrt (f : VopF) : Statement (.vfsqrt f) := by
  intro h w hw
  have h1 : (f.fits && decide (f.check specVfsqrt = 0)) = true := h
  have h2 : some (BitVec.ofNat 64 (f.toWord 0x0CD)) = some w := hw
  have h3 : ∀ w, decodeOp 0x0CD w = VopF.read specVfsqrt .vfsqrt w := fun _ => rfl
  exact VopF.decode_toWord (p := specVfsqrt) (mk := .vfsqrt) (by decide) (fun _ _ => h3 _) h1 h2
theorem vfdiv (f : VopF) : Statement (.vfdiv f) := by
  intro h w hw
  have h1 : (f.fits && decide (f.check specVfdiv = 0)) = true := h
  have h2 : some (BitVec.ofNat 64 (f.toWord 0x0CE)) = some w := hw
  have h3 : ∀ w, decodeOp 0x0CE w = VopF.read specVfdiv .vfdiv w := fun _ => rfl
  exact VopF.decode_toWord (p := specVfdiv) (mk := .vfdiv) (by decide) (fun _ _ => h3 _) h1 h2
theorem vfexp2 (f : VopF) : Statement (.vfexp2 f) := by
  intro h w hw
  have h1 : (f.fits && decide (f.check specVfexp2 = 0)) = true := h
  have h2 : some (BitVec.ofNat 64 (f.toWord 0x0CF)) = some w := hw
  have h3 : ∀ w, decodeOp 0x0CF w = VopF.read specVfexp2 .vfexp2 w := fun _ => rfl
  exact VopF.decode_toWord (p := specVfexp2) (mk := .vfexp2) (by decide) (fun _ _ => h3 _) h1 h2
theorem vflog2 (f : VopF) : Statement (.vflog2 f) := by
  intro h w hw
  have h1 : (f.fits && decide (f.check specVflog2 = 0)) = true := h
  have h2 : some (BitVec.ofNat 64 (f.toWord 0x0D0)) = some w := hw
  have h3 : ∀ w, decodeOp 0x0D0 w = VopF.read specVflog2 .vflog2 w := fun _ => rfl
  exact VopF.decode_toWord (p := specVflog2) (mk := .vflog2) (by decide) (fun _ _ => h3 _) h1 h2
theorem vfsin (f : VopF) : Statement (.vfsin f) := by
  intro h w hw
  have h1 : (f.fits && decide (f.check specVfsin = 0)) = true := h
  have h2 : some (BitVec.ofNat 64 (f.toWord 0x0D1)) = some w := hw
  have h3 : ∀ w, decodeOp 0x0D1 w = VopF.read specVfsin .vfsin w := fun _ => rfl
  exact VopF.decode_toWord (p := specVfsin) (mk := .vfsin) (by decide) (fun _ _ => h3 _) h1 h2
theorem vfcos (f : VopF) : Statement (.vfcos f) := by
  intro h w hw
  have h1 : (f.fits && decide (f.check specVfcos = 0)) = true := h
  have h2 : some (BitVec.ofNat 64 (f.toWord 0x0D2)) = some w := hw
  have h3 : ∀ w, decodeOp 0x0D2 w = VopF.read specVfcos .vfcos w := fun _ => rfl
  exact VopF.decode_toWord (p := specVfcos) (mk := .vfcos) (by decide) (fun _ _ => h3 _) h1 h2
theorem vfclass (f : VopF) : Statement (.vfclass f) := by
  intro h w hw
  have h1 : (f.fits && decide (f.check specVfclass = 0)) = true := h
  have h2 : some (BitVec.ofNat 64 (f.toWord 0x0D3)) = some w := hw
  have h3 : ∀ w, decodeOp 0x0D3 w = VopF.read specVfclass .vfclass w := fun _ => rfl
  exact VopF.decode_toWord (p := specVfclass) (mk := .vfclass) (by decide) (fun _ _ => h3 _) h1 h2
theorem vfrnd (f : VopF) : Statement (.vfrnd f) := by
  intro h w hw
  have h1 : (f.fits && decide (f.check specVfrnd = 0)) = true := h
  have h2 : some (BitVec.ofNat 64 (f.toWord 0x0D4)) = some w := hw
  have h3 : ∀ w, decodeOp 0x0D4 w = VopF.read specVfrnd .vfrnd w := fun _ => rfl
  exact VopF.decode_toWord (p := specVfrnd) (mk := .vfrnd) (by decide) (fun _ _ => h3 _) h1 h2
theorem vfcmp (f : VopF) : Statement (.vfcmp f) := by
  intro h w hw
  have h1 : (f.fits && decide (f.check specVfcmp = 0)) = true := h
  have h2 : some (BitVec.ofNat 64 (f.toWord 0x0D5)) = some w := hw
  have h3 : ∀ w, decodeOp 0x0D5 w = VopF.read specVfcmp .vfcmp w := fun _ => rfl
  exact VopF.decode_toWord (p := specVfcmp) (mk := .vfcmp) (by decide) (fun _ _ => h3 _) h1 h2
theorem vaddmin (f : VopF) : Statement (.vaddmin f) := by
  intro h w hw
  have h1 : (f.fits && decide (f.check specVaddmin = 0)) = true := h
  have h2 : some (BitVec.ofNat 64 (f.toWord 0x0D6)) = some w := hw
  have h3 : ∀ w, decodeOp 0x0D6 w = VopF.read specVaddmin .vaddmin w := fun _ => rfl
  exact VopF.decode_toWord (p := specVaddmin) (mk := .vaddmin) (by decide) (fun _ _ => h3 _) h1 h2
theorem vaddmax (f : VopF) : Statement (.vaddmax f) := by
  intro h w hw
  have h1 : (f.fits && decide (f.check specVaddmax = 0)) = true := h
  have h2 : some (BitVec.ofNat 64 (f.toWord 0x0D7)) = some w := hw
  have h3 : ∀ w, decodeOp 0x0D7 w = VopF.read specVaddmax .vaddmax w := fun _ => rfl
  exact VopF.decode_toWord (p := specVaddmax) (mk := .vaddmax) (by decide) (fun _ _ => h3 _) h1 h2
theorem vshfl (f : VopF) : Statement (.vshfl f) := by
  intro h w hw
  have h1 : (f.fits && decide (f.check specVshfl = 0)) = true := h
  have h2 : some (BitVec.ofNat 64 (f.toWord 0x101)) = some w := hw
  have h3 : ∀ w, decodeOp 0x101 w = VopF.read specVshfl .vshfl w := fun _ => rfl
  exact VopF.decode_toWord (p := specVshfl) (mk := .vshfl) (by decide) (fun _ _ => h3 _) h1 h2
theorem vshup (f : VopF) : Statement (.vshup f) := by
  intro h w hw
  have h1 : (f.fits && decide (f.check specVshup = 0)) = true := h
  have h2 : some (BitVec.ofNat 64 (f.toWord 0x102)) = some w := hw
  have h3 : ∀ w, decodeOp 0x102 w = VopF.read specVshup .vshup w := fun _ => rfl
  exact VopF.decode_toWord (p := specVshup) (mk := .vshup) (by decide) (fun _ _ => h3 _) h1 h2
theorem vshdn (f : VopF) : Statement (.vshdn f) := by
  intro h w hw
  have h1 : (f.fits && decide (f.check specVshdn = 0)) = true := h
  have h2 : some (BitVec.ofNat 64 (f.toWord 0x103)) = some w := hw
  have h3 : ∀ w, decodeOp 0x103 w = VopF.read specVshdn .vshdn w := fun _ => rfl
  exact VopF.decode_toWord (p := specVshdn) (mk := .vshdn) (by decide) (fun _ _ => h3 _) h1 h2
theorem vbcast (f : VopF) : Statement (.vbcast f) := by
  intro h w hw
  have h1 : (f.fits && decide (f.check specVbcast = 0)) = true := h
  have h2 : some (BitVec.ofNat 64 (f.toWord 0x104)) = some w := hw
  have h3 : ∀ w, decodeOp 0x104 w = VopF.read specVbcast .vbcast w := fun _ => rfl
  exact VopF.decode_toWord (p := specVbcast) (mk := .vbcast) (by decide) (fun _ _ => h3 _) h1 h2
theorem vvote (f : VopF) : Statement (.vvote f) := by
  intro h w hw
  have h1 : (f.fits && decide (f.check specVvote = 0)) = true := h
  have h2 : some (BitVec.ofNat 64 (f.toWord 0x105)) = some w := hw
  have h3 : ∀ w, decodeOp 0x105 w = VopF.read specVvote .vvote w := fun _ => rfl
  exact VopF.decode_toWord (p := specVvote) (mk := .vvote) (by decide) (fun _ _ => h3 _) h1 h2
theorem vred (f : VopF) : Statement (.vred f) := by
  intro h w hw
  have h1 : (f.fits && decide (f.check specVred = 0)) = true := h
  have h2 : some (BitVec.ofNat 64 (f.toWord 0x106)) = some w := hw
  have h3 : ∀ w, decodeOp 0x106 w = VopF.read specVred .vred w := fun _ => rfl
  exact VopF.decode_toWord (p := specVred) (mk := .vred) (by decide) (fun _ _ => h3 _) h1 h2
theorem vscan (f : VopF) : Statement (.vscan f) := by
  intro h w hw
  have h1 : (f.fits && decide (f.check specVscan = 0)) = true := h
  have h2 : some (BitVec.ofNat 64 (f.toWord 0x107)) = some w := hw
  have h3 : ∀ w, decodeOp 0x107 w = VopF.read specVscan .vscan w := fun _ => rfl
  exact VopF.decode_toWord (p := specVscan) (mk := .vscan) (by decide) (fun _ _ => h3 _) h1 h2
theorem vcmpx (f : VopF) : Statement (.vcmpx f) := by
  intro h w hw
  have h1 : (f.fits && decide (f.check specVcmpx = 0)) = true := h
  have h2 : some (BitVec.ofNat 64 (f.toWord 0x108)) = some w := hw
  have h3 : ∀ w, decodeOp 0x108 w = VopF.read specVcmpx .vcmpx w := fun _ => rfl
  exact VopF.decode_toWord (p := specVcmpx) (mk := .vcmpx) (by decide) (fun _ _ => h3 _) h1 h2
theorem vmatch (f : VopF) : Statement (.vmatch f) := by
  intro h w hw
  have h1 : (f.fits && decide (f.check specVmatch = 0)) = true := h
  have h2 : some (BitVec.ofNat 64 (f.toWord 0x109)) = some w := hw
  have h3 : ∀ w, decodeOp 0x109 w = VopF.read specVmatch .vmatch w := fun _ => rfl
  exact VopF.decode_toWord (p := specVmatch) (mk := .vmatch) (by decide) (fun _ _ => h3 _) h1 h2
theorem vcompact (f : VopF) : Statement (.vcompact f) := by
  intro h w hw
  have h1 : (f.fits && decide (f.check specVcompact = 0)) = true := h
  have h2 : some (BitVec.ofNat 64 (f.toWord 0x10A)) = some w := hw
  have h3 : ∀ w, decodeOp 0x10A w = VopF.read specVcompact .vcompact w := fun _ => rfl
  exact VopF.decode_toWord (p := specVcompact) (mk := .vcompact) (by decide) (fun _ _ => h3 _) h1 h2
theorem vcvt (f : VcvF) : Statement (.vcvt f) := by
  intro h w hw
  have h1 : (f.fits && decide (f.check specVcvt = 0)) = true := h
  have h2 : some (BitVec.ofNat 64 (f.toWord 0x141)) = some w := hw
  have h3 : ∀ w, decodeOp 0x141 w = VcvF.read specVcvt .vcvt w := fun _ => rfl
  exact VcvF.decode_toWord (p := specVcvt) (mk := .vcvt) (by decide) (fun _ _ => h3 _) h1 h2
theorem vcvts (f : VcvF) : Statement (.vcvts f) := by
  intro h w hw
  have h1 : (f.fits && decide (f.check specVcvts = 0)) = true := h
  have h2 : some (BitVec.ofNat 64 (f.toWord 0x142)) = some w := hw
  have h3 : ∀ w, decodeOp 0x142 w = VcvF.read specVcvts .vcvts w := fun _ => rfl
  exact VcvF.decode_toWord (p := specVcvts) (mk := .vcvts) (by decide) (fun _ _ => h3 _) h1 h2
theorem vpack (f : VcvF) : Statement (.vpack f) := by
  intro h w hw
  have h1 : (f.fits && decide (f.check specVpack = 0)) = true := h
  have h2 : some (BitVec.ofNat 64 (f.toWord 0x143)) = some w := hw
  have h3 : ∀ w, decodeOp 0x143 w = VcvF.read specVpack .vpack w := fun _ => rfl
  exact VcvF.decode_toWord (p := specVpack) (mk := .vpack) (by decide) (fun _ _ => h3 _) h1 h2
theorem vunpack (f : VcvF) : Statement (.vunpack f) := by
  intro h w hw
  have h1 : (f.fits && decide (f.check specVunpack = 0)) = true := h
  have h2 : some (BitVec.ofNat 64 (f.toWord 0x144)) = some w := hw
  have h3 : ∀ w, decodeOp 0x144 w = VcvF.read specVunpack .vunpack w := fun _ => rfl
  exact VcvF.decode_toWord (p := specVunpack) (mk := .vunpack) (by decide) (fun _ _ => h3 _) h1 h2
theorem ld (f : MemF) : Statement (.ld f) := by
  intro h w hw
  have h1 : (f.fits && decide (f.check specLd = 0)) = true := h
  have h2 : some (BitVec.ofNat 64 (f.toWord 0x181)) = some w := hw
  have h3 : ∀ w, decodeOp 0x181 w = MemF.read specLd .ld w := fun _ => rfl
  exact MemF.decode_toWord (p := specLd) (mk := .ld) (by decide) (fun _ _ => h3 _) h1 h2
theorem ldr (f : MemF) : Statement (.ldr f) := by
  intro h w hw
  have h1 : (f.fits && decide (f.check specLdr = 0)) = true := h
  have h2 : some (BitVec.ofNat 64 (f.toWord 0x182)) = some w := hw
  have h3 : ∀ w, decodeOp 0x182 w = MemF.read specLdr .ldr w := fun _ => rfl
  exact MemF.decode_toWord (p := specLdr) (mk := .ldr) (by decide) (fun _ _ => h3 _) h1 h2
theorem st (f : MemF) : Statement (.st f) := by
  intro h w hw
  have h1 : (f.fits && decide (f.check specSt = 0)) = true := h
  have h2 : some (BitVec.ofNat 64 (f.toWord 0x183)) = some w := hw
  have h3 : ∀ w, decodeOp 0x183 w = MemF.read specSt .st w := fun _ => rfl
  exact MemF.decode_toWord (p := specSt) (mk := .st) (by decide) (fun _ _ => h3 _) h1 h2
theorem lds (f : MemF) : Statement (.lds f) := by
  intro h w hw
  have h1 : (f.fits && decide (f.check specLds = 0)) = true := h
  have h2 : some (BitVec.ofNat 64 (f.toWord 0x184)) = some w := hw
  have h3 : ∀ w, decodeOp 0x184 w = MemF.read specLds .lds w := fun _ => rfl
  exact MemF.decode_toWord (p := specLds) (mk := .lds) (by decide) (fun _ _ => h3 _) h1 h2
theorem sts (f : MemF) : Statement (.sts f) := by
  intro h w hw
  have h1 : (f.fits && decide (f.check specSts = 0)) = true := h
  have h2 : some (BitVec.ofNat 64 (f.toWord 0x185)) = some w := hw
  have h3 : ∀ w, decodeOp 0x185 w = MemF.read specSts .sts w := fun _ => rfl
  exact MemF.decode_toWord (p := specSts) (mk := .sts) (by decide) (fun _ _ => h3 _) h1 h2
theorem atom (f : MemaF) : Statement (.atom f) := by
  intro h w hw
  have h1 : (f.fits && decide (f.check = 0)) = true := h
  have h2 : some (BitVec.ofNat 64 (f.toWord 0x1C1)) = some w := hw
  have h3 : ∀ w, decodeOp 0x1C1 w = MemaF.read .atom w := fun _ => rfl
  exact MemaF.decode_toWord (mk := .atom) (by decide) (fun _ _ => h3 _) h1 h2
theorem atoms (f : SatmF) : Statement (.atoms f) := by
  intro h w hw
  have h1 : (f.fits && decide (f.check = 0)) = true := h
  have h2 : some (BitVec.ofNat 64 (f.toWord 0x1C2)) = some w := hw
  have h3 : ∀ w, decodeOp 0x1C2 w = SatmF.read .atoms w := fun _ => rfl
  exact SatmF.decode_toWord (mk := .atoms) (by decide) (fun _ _ => h3 _) h1 h2
theorem sld (f : SmemF) : Statement (.sld f) := by
  intro h w hw
  have h1 : (f.fits && decide (f.check specSld = 0)) = true := h
  have h2 : some (BitVec.ofNat 64 (f.toWord 0x1C3)) = some w := hw
  have h3 : ∀ w, decodeOp 0x1C3 w = SmemF.read specSld .sld w := fun _ => rfl
  exact SmemF.decode_toWord (p := specSld) (mk := .sld) (by decide) (fun _ _ => h3 _) h1 h2
theorem sst (f : SmemF) : Statement (.sst f) := by
  intro h w hw
  have h1 : (f.fits && decide (f.check specSst = 0)) = true := h
  have h2 : some (BitVec.ofNat 64 (f.toWord 0x1C4)) = some w := hw
  have h3 : ∀ w, decodeOp 0x1C4 w = SmemF.read specSst .sst w := fun _ => rfl
  exact SmemF.decode_toWord (p := specSst) (mk := .sst) (by decide) (fun _ _ => h3 _) h1 h2
theorem fence (f : EngF) : Statement (.fence f) := by
  intro h w hw
  have h1 : (f.fits && decide (f.check specFence = 0)) = true := h
  have h2 : some (BitVec.ofNat 64 (f.toWord 0x201)) = some w := hw
  have h3 : ∀ w, decodeOp 0x201 w = EngF.read specFence .fence w := fun _ => rfl
  exact EngF.decode_toWord (p := specFence) (mk := .fence) (by decide) (fun _ _ => h3 _) h1 h2
theorem waitf (f : EngF) : Statement (.waitf f) := by
  intro h w hw
  have h1 : (f.fits && decide (f.check specWaitf = 0)) = true := h
  have h2 : some (BitVec.ofNat 64 (f.toWord 0x202)) = some w := hw
  have h3 : ∀ w, decodeOp 0x202 w = EngF.read specWaitf .waitf w := fun _ => rfl
  exact EngF.decode_toWord (p := specWaitf) (mk := .waitf) (by decide) (fun _ _ => h3 _) h1 h2
theorem phase (f : EngF) : Statement (.phase f) := by
  intro h w hw
  have h1 : (f.fits && decide (f.check specPhase = 0)) = true := h
  have h2 : some (BitVec.ofNat 64 (f.toWord 0x203)) = some w := hw
  have h3 : ∀ w, decodeOp 0x203 w = EngF.read specPhase .phase w := fun _ => rfl
  exact EngF.decode_toWord (p := specPhase) (mk := .phase) (by decide) (fun _ _ => h3 _) h1 h2
theorem publish (f : EngF) : Statement (.publish f) := by
  intro h w hw
  have h1 : (f.fits && decide (f.check specPublish = 0)) = true := h
  have h2 : some (BitVec.ofNat 64 (f.toWord 0x204)) = some w := hw
  have h3 : ∀ w, decodeOp 0x204 w = EngF.read specPublish .publish w := fun _ => rfl
  exact EngF.decode_toWord (p := specPublish) (mk := .publish) (by decide) (fun _ _ => h3 _) h1 h2
theorem sramcfgFifo (f : EngF) : Statement (.sramcfgFifo f) := by
  intro h w hw
  have h1 : (f.fits && decide (f.check specSramcfgFifo = 0)) = true := h
  have h2 : some (BitVec.ofNat 64 (f.toWord 0x205)) = some w := hw
  exact EngF.decode_toWord (p := specSramcfgFifo) (mk := .sramcfgFifo) (by decide) (fun h hc => by
    have hd : ∀ w, (EngF.ofWord w).m3 = 0 → decodeOp 0x205 w = EngF.read specSramcfgFifo .sramcfgFifo w := by
      intro w hw
      show (if (EngF.ofWord w).m3 = 0 then EngF.read specSramcfgFifo .sramcfgFifo w else EngF.read specSramcfgFree .sramcfgFree w) = _
      rw [hw]
      first | rfl | done
    exact hd _ (by rw [EngF.ofWord_toWord h]; exact EngF.m3_of hc rfl)) h1 h2
theorem sramcfgFree (f : EngF) : Statement (.sramcfgFree f) := by
  intro h w hw
  have h1 : (f.fits && decide (f.check specSramcfgFree = 0)) = true := h
  have h2 : some (BitVec.ofNat 64 (f.toWord 0x205)) = some w := hw
  exact EngF.decode_toWord (p := specSramcfgFree) (mk := .sramcfgFree) (by decide) (fun h hc => by
    have hd : ∀ w, (EngF.ofWord w).m3 = 1 → decodeOp 0x205 w = EngF.read specSramcfgFree .sramcfgFree w := by
      intro w hw
      show (if (EngF.ofWord w).m3 = 0 then EngF.read specSramcfgFifo .sramcfgFifo w else EngF.read specSramcfgFree .sramcfgFree w) = _
      rw [hw]
      first | rfl | done
    exact hd _ (by rw [EngF.ofWord_toWord h]; exact EngF.m3_of hc rfl)) h1 h2
theorem qput (f : EngF) : Statement (.qput f) := by
  intro h w hw
  have h1 : (f.fits && decide (f.check specQput = 0)) = true := h
  have h2 : some (BitVec.ofNat 64 (f.toWord 0x206)) = some w := hw
  have h3 : ∀ w, decodeOp 0x206 w = EngF.read specQput .qput w := fun _ => rfl
  exact EngF.decode_toWord (p := specQput) (mk := .qput) (by decide) (fun _ _ => h3 _) h1 h2
theorem qget (f : EngF) : Statement (.qget f) := by
  intro h w hw
  have h1 : (f.fits && decide (f.check specQget = 0)) = true := h
  have h2 : some (BitVec.ofNat 64 (f.toWord 0x207)) = some w := hw
  have h3 : ∀ w, decodeOp 0x207 w = EngF.read specQget .qget w := fun _ => rfl
  exact EngF.decode_toWord (p := specQget) (mk := .qget) (by decide) (fun _ _ => h3 _) h1 h2
theorem barinit (f : BarF) : Statement (.barinit f) := by
  intro h w hw
  have h1 : (f.fits && decide (f.check specBarinit = 0)) = true := h
  have h2 : some (BitVec.ofNat 64 (f.toWord 0x208)) = some w := hw
  have h3 : ∀ w, decodeOp 0x208 w = BarF.read specBarinit .barinit w := fun _ => rfl
  exact BarF.decode_toWord (p := specBarinit) (mk := .barinit) (by decide) (fun _ _ => h3 _) h1 h2
theorem barinv (f : BarF) : Statement (.barinv f) := by
  intro h w hw
  have h1 : (f.fits && decide (f.check specBarinv = 0)) = true := h
  have h2 : some (BitVec.ofNat 64 (f.toWord 0x20B)) = some w := hw
  have h3 : ∀ w, decodeOp 0x20B w = BarF.read specBarinv .barinv w := fun _ => rfl
  exact BarF.decode_toWord (p := specBarinv) (mk := .barinv) (by decide) (fun _ _ => h3 _) h1 h2
theorem bararr (f : BarF) : Statement (.bararr f) := by
  intro h w hw
  have h1 : (f.fits && decide (f.check specBararr = 0)) = true := h
  have h2 : some (BitVec.ofNat 64 (f.toWord 0x209)) = some w := hw
  have h3 : ∀ w, decodeOp 0x209 w = BarF.read specBararr .bararr w := fun _ => rfl
  exact BarF.decode_toWord (p := specBararr) (mk := .bararr) (by decide) (fun _ _ => h3 _) h1 h2
theorem barwait (f : BarF) : Statement (.barwait f) := by
  intro h w hw
  have h1 : (f.fits && decide (f.check specBarwait = 0)) = true := h
  have h2 : some (BitVec.ofNat 64 (f.toWord 0x20A)) = some w := hw
  have h3 : ∀ w, decodeOp 0x20A w = BarF.read specBarwait .barwait w := fun _ => rfl
  exact BarF.decode_toWord (p := specBarwait) (mk := .barwait) (by decide) (fun _ _ => h3 _) h1 h2
theorem yieldw (f : BrF) : Statement (.yieldw f) := by
  intro h w hw
  have h1 : (f.fits && decide (f.check specYieldw = 0)) = true := h
  have h2 : some (BitVec.ofNat 64 (f.toWord 0x20C)) = some w := hw
  have h3 : ∀ w, decodeOp 0x20C w = BrF.read specYieldw .yieldw w := fun _ => rfl
  exact BrF.decode_toWord (p := specYieldw) (mk := .yieldw) (by decide) (fun _ _ => h3 _) h1 h2
theorem recBegin (f : EngF) : Statement (.recBegin f) := by
  intro h w hw
  have h1 : (f.fits && decide (f.check specRecBegin = 0)) = true := h
  have h2 : some (BitVec.ofNat 64 (f.toWord 0x210)) = some w := hw
  have h3 : ∀ w, decodeOp 0x210 w = EngF.read specRecBegin .recBegin w := fun _ => rfl
  exact EngF.decode_toWord (p := specRecBegin) (mk := .recBegin) (by decide) (fun _ _ => h3 _) h1 h2
theorem recEnd (f : EngF) : Statement (.recEnd f) := by
  intro h w hw
  have h1 : (f.fits && decide (f.check specRecEnd = 0)) = true := h
  have h2 : some (BitVec.ofNat 64 (f.toWord 0x211)) = some w := hw
  have h3 : ∀ w, decodeOp 0x211 w = EngF.read specRecEnd .recEnd w := fun _ => rfl
  exact EngF.decode_toWord (p := specRecEnd) (mk := .recEnd) (by decide) (fun _ _ => h3 _) h1 h2
theorem recReplay (f : EngF) : Statement (.recReplay f) := by
  intro h w hw
  have h1 : (f.fits && decide (f.check specRecReplay = 0)) = true := h
  have h2 : some (BitVec.ofNat 64 (f.toWord 0x212)) = some w := hw
  have h3 : ∀ w, decodeOp 0x212 w = EngF.read specRecReplay .recReplay w := fun _ => rfl
  exact EngF.decode_toWord (p := specRecReplay) (mk := .recReplay) (by decide) (fun _ _ => h3 _) h1 h2
theorem recForget (f : EngF) : Statement (.recForget f) := by
  intro h w hw
  have h1 : (f.fits && decide (f.check specRecForget = 0)) = true := h
  have h2 : some (BitVec.ofNat 64 (f.toWord 0x213)) = some w := hw
  have h3 : ∀ w, decodeOp 0x213 w = EngF.read specRecForget .recForget w := fun _ => rfl
  exact EngF.decode_toWord (p := specRecForget) (mk := .recForget) (by decide) (fun _ _ => h3 _) h1 h2
theorem recStat (f : EngF) : Statement (.recStat f) := by
  intro h w hw
  have h1 : (f.fits && decide (f.check specRecStat = 0)) = true := h
  have h2 : some (BitVec.ofNat 64 (f.toWord 0x214)) = some w := hw
  have h3 : ∀ w, decodeOp 0x214 w = EngF.read specRecStat .recStat w := fun _ => rfl
  exact EngF.decode_toWord (p := specRecStat) (mk := .recStat) (by decide) (fun _ _ => h3 _) h1 h2
theorem recSliceApply (bc slice : Nat) : Statement (.recSliceApply bc slice) := fun _ _ h => nomatch h
theorem cpyGs (f : CpyF) : Statement (.cpyGs f) := by
  intro h w hw
  have h1 : (f.fits && decide (f.check specCpyGs = 0)) = true := h
  have h2 : some (BitVec.ofNat 64 (f.toWord 0x241)) = some w := hw
  exact CpyF.decode_toWord (p := specCpyGs) (mk := .cpyGs) (by decide) (fun h hc => by
    have hd : ∀ w, (CpyF.ofWord w).kind = 0 → decodeOp 0x241 w = CpyF.read specCpyGs .cpyGs w := by
      intro w hw
      show (match (CpyF.ofWord w).kind with
      | 0 => CpyF.read specCpyGs .cpyGs w | 1 => CpyF.read specCpySg .cpySg w | 2 => CpyF.read specCpyGg .cpyGg w
      | 3 => CpyF.read specCpySr .cpySr w | _ => CpyF.read specCpyRs .cpyRs w) = _
      rw [hw]
      first | rfl | done
    exact hd _ (by rw [CpyF.ofWord_toWord h]; exact CpyF.kind_of hc rfl)) h1 h2
theorem cpySg (f : CpyF) : Statement (.cpySg f) := by
  intro h w hw
  have h1 : (f.fits && decide (f.check specCpySg = 0)) = true := h
  have h2 : some (BitVec.ofNat 64 (f.toWord 0x241)) = some w := hw
  exact CpyF.decode_toWord (p := specCpySg) (mk := .cpySg) (by decide) (fun h hc => by
    have hd : ∀ w, (CpyF.ofWord w).kind = 1 → decodeOp 0x241 w = CpyF.read specCpySg .cpySg w := by
      intro w hw
      show (match (CpyF.ofWord w).kind with
      | 0 => CpyF.read specCpyGs .cpyGs w | 1 => CpyF.read specCpySg .cpySg w | 2 => CpyF.read specCpyGg .cpyGg w
      | 3 => CpyF.read specCpySr .cpySr w | _ => CpyF.read specCpyRs .cpyRs w) = _
      rw [hw]
      first | rfl | done
    exact hd _ (by rw [CpyF.ofWord_toWord h]; exact CpyF.kind_of hc rfl)) h1 h2
theorem cpyGg (f : CpyF) : Statement (.cpyGg f) := by
  intro h w hw
  have h1 : (f.fits && decide (f.check specCpyGg = 0)) = true := h
  have h2 : some (BitVec.ofNat 64 (f.toWord 0x241)) = some w := hw
  exact CpyF.decode_toWord (p := specCpyGg) (mk := .cpyGg) (by decide) (fun h hc => by
    have hd : ∀ w, (CpyF.ofWord w).kind = 2 → decodeOp 0x241 w = CpyF.read specCpyGg .cpyGg w := by
      intro w hw
      show (match (CpyF.ofWord w).kind with
      | 0 => CpyF.read specCpyGs .cpyGs w | 1 => CpyF.read specCpySg .cpySg w | 2 => CpyF.read specCpyGg .cpyGg w
      | 3 => CpyF.read specCpySr .cpySr w | _ => CpyF.read specCpyRs .cpyRs w) = _
      rw [hw]
      first | rfl | done
    exact hd _ (by rw [CpyF.ofWord_toWord h]; exact CpyF.kind_of hc rfl)) h1 h2
theorem cpySr (f : CpyF) : Statement (.cpySr f) := by
  intro h w hw
  have h1 : (f.fits && decide (f.check specCpySr = 0)) = true := h
  have h2 : some (BitVec.ofNat 64 (f.toWord 0x241)) = some w := hw
  exact CpyF.decode_toWord (p := specCpySr) (mk := .cpySr) (by decide) (fun h hc => by
    have hd : ∀ w, (CpyF.ofWord w).kind = 3 → decodeOp 0x241 w = CpyF.read specCpySr .cpySr w := by
      intro w hw
      show (match (CpyF.ofWord w).kind with
      | 0 => CpyF.read specCpyGs .cpyGs w | 1 => CpyF.read specCpySg .cpySg w | 2 => CpyF.read specCpyGg .cpyGg w
      | 3 => CpyF.read specCpySr .cpySr w | _ => CpyF.read specCpyRs .cpyRs w) = _
      rw [hw]
      first | rfl | done
    exact hd _ (by rw [CpyF.ofWord_toWord h]; exact CpyF.kind_of hc rfl)) h1 h2
theorem cpyRs (f : CpyF) : Statement (.cpyRs f) := by
  intro h w hw
  have h1 : (f.fits && decide (f.check specCpyRs = 0)) = true := h
  have h2 : some (BitVec.ofNat 64 (f.toWord 0x241)) = some w := hw
  exact CpyF.decode_toWord (p := specCpyRs) (mk := .cpyRs) (by decide) (fun h hc => by
    have hd : ∀ w, (CpyF.ofWord w).kind = 4 → decodeOp 0x241 w = CpyF.read specCpyRs .cpyRs w := by
      intro w hw
      show (match (CpyF.ofWord w).kind with
      | 0 => CpyF.read specCpyGs .cpyGs w | 1 => CpyF.read specCpySg .cpySg w | 2 => CpyF.read specCpyGg .cpyGg w
      | 3 => CpyF.read specCpySr .cpySr w | _ => CpyF.read specCpyRs .cpyRs w) = _
      rw [hw]
      first | rfl | done
    exact hd _ (by rw [CpyF.ofWord_toWord h]; exact CpyF.kind_of hc rfl)) h1 h2
theorem pref (f : CpyF) : Statement (.pref f) := by
  intro h w hw
  have h1 : (f.fits && decide (f.check specPref = 0)) = true := h
  have h2 : some (BitVec.ofNat 64 (f.toWord 0x242)) = some w := hw
  have h3 : ∀ w, decodeOp 0x242 w = CpyF.read specPref .pref w := fun _ => rfl
  exact CpyF.decode_toWord (p := specPref) (mk := .pref) (by decide) (fun _ _ => h3 _) h1 h2
theorem cpyrAdd (f : CpyF) : Statement (.cpyrAdd f) := by
  intro h w hw
  have h1 : (f.fits && decide (f.check specCpyrAdd = 0)) = true := h
  have h2 : some (BitVec.ofNat 64 (f.toWord 0x243)) = some w := hw
  have h3 : ∀ w, decodeOp 0x243 w = CpyF.read specCpyrAdd .cpyrAdd w := fun _ => rfl
  exact CpyF.decode_toWord (p := specCpyrAdd) (mk := .cpyrAdd) (by decide) (fun _ _ => h3 _) h1 h2
theorem cpyrMin (f : CpyF) : Statement (.cpyrMin f) := by
  intro h w hw
  have h1 : (f.fits && decide (f.check specCpyrMin = 0)) = true := h
  have h2 : some (BitVec.ofNat 64 (f.toWord 0x244)) = some w := hw
  have h3 : ∀ w, decodeOp 0x244 w = CpyF.read specCpyrMin .cpyrMin w := fun _ => rfl
  exact CpyF.decode_toWord (p := specCpyrMin) (mk := .cpyrMin) (by decide) (fun _ _ => h3 _) h1 h2
theorem cpyrMax (f : CpyF) : Statement (.cpyrMax f) := by
  intro h w hw
  have h1 : (f.fits && decide (f.check specCpyrMax = 0)) = true := h
  have h2 : some (BitVec.ofNat 64 (f.toWord 0x245)) = some w := hw
  have h3 : ∀ w, decodeOp 0x245 w = CpyF.read specCpyrMax .cpyrMax w := fun _ => rfl
  exact CpyF.decode_toWord (p := specCpyrMax) (mk := .cpyrMax) (by decide) (fun _ _ => h3 _) h1 h2
theorem cpyrAnd (f : CpyF) : Statement (.cpyrAnd f) := by
  intro h w hw
  have h1 : (f.fits && decide (f.check specCpyrAnd = 0)) = true := h
  have h2 : some (BitVec.ofNat 64 (f.toWord 0x246)) = some w := hw
  have h3 : ∀ w, decodeOp 0x246 w = CpyF.read specCpyrAnd .cpyrAnd w := fun _ => rfl
  exact CpyF.decode_toWord (p := specCpyrAnd) (mk := .cpyrAnd) (by decide) (fun _ _ => h3 _) h1 h2
theorem cpyrOr (f : CpyF) : Statement (.cpyrOr f) := by
  intro h w hw
  have h1 : (f.fits && decide (f.check specCpyrOr = 0)) = true := h
  have h2 : some (BitVec.ofNat 64 (f.toWord 0x247)) = some w := hw
  have h3 : ∀ w, decodeOp 0x247 w = CpyF.read specCpyrOr .cpyrOr w := fun _ => rfl
  exact CpyF.decode_toWord (p := specCpyrOr) (mk := .cpyrOr) (by decide) (fun _ _ => h3 _) h1 h2
theorem cfence (f : EngF) : Statement (.cfence f) := by
  intro h w hw
  have h1 : (f.fits && decide (f.check specCfence = 0)) = true := h
  have h2 : some (BitVec.ofNat 64 (f.toWord 0x248)) = some w := hw
  have h3 : ∀ w, decodeOp 0x248 w = EngF.read specCfence .cfence w := fun _ => rfl
  exact EngF.decode_toWord (p := specCfence) (mk := .cfence) (by decide) (fun _ _ => h3 _) h1 h2
theorem cstep (f : EngF) : Statement (.cstep f) := by
  intro h w hw
  have h1 : (f.fits && decide (f.check specCstep = 0)) = true := h
  have h2 : some (BitVec.ofNat 64 (f.toWord 0x249)) = some w := hw
  have h3 : ∀ w, decodeOp 0x249 w = EngF.read specCstep .cstep w := fun _ => rfl
  exact EngF.decode_toWord (p := specCstep) (mk := .cstep) (by decide) (fun _ _ => h3 _) h1 h2
theorem mma (f : MtxF) : Statement (.mma f) := by
  intro h w hw
  have h1 : (f.fits && decide (f.check specMma = 0)) = true := h
  have h2 : some (BitVec.ofNat 64 (f.toWord 0x281)) = some w := hw
  have h3 : ∀ w, decodeOp 0x281 w = MtxF.read specMma .mma w := fun _ => rfl
  exact MtxF.decode_toWord (p := specMma) (mk := .mma) (by decide) (fun _ _ => h3 _) h1 h2
theorem mmab (f : MtxF) : Statement (.mmab f) := by
  intro h w hw
  have h1 : (f.fits && decide (f.check specMmab = 0)) = true := h
  have h2 : some (BitVec.ofNat 64 (f.toWord 0x282)) = some w := hw
  have h3 : ∀ w, decodeOp 0x282 w = MtxF.read specMmab .mmab w := fun _ => rfl
  exact MtxF.decode_toWord (p := specMmab) (mk := .mmab) (by decide) (fun _ _ => h3 _) h1 h2
theorem matrixKStep (core : Nat) : Statement (.matrixKStep core) := fun _ _ h => nomatch h
theorem mzero (f : MtxF) : Statement (.mzero f) := by
  intro h w hw
  have h1 : (f.fits && decide (f.check specMzero = 0)) = true := h
  have h2 : some (BitVec.ofNat 64 (f.toWord 0x283)) = some w := hw
  have h3 : ∀ w, decodeOp 0x283 w = MtxF.read specMzero .mzero w := fun _ => rfl
  exact MtxF.decode_toWord (p := specMzero) (mk := .mzero) (by decide) (fun _ _ => h3 _) h1 h2
theorem mlda (f : MtxF) : Statement (.mlda f) := by
  intro h w hw
  have h1 : (f.fits && decide (f.check specMlda = 0)) = true := h
  have h2 : some (BitVec.ofNat 64 (f.toWord 0x284)) = some w := hw
  have h3 : ∀ w, decodeOp 0x284 w = MtxF.read specMlda .mlda w := fun _ => rfl
  exact MtxF.decode_toWord (p := specMlda) (mk := .mlda) (by decide) (fun _ _ => h3 _) h1 h2
theorem msta (f : MtxF) : Statement (.msta f) := by
  intro h w hw
  have h1 : (f.fits && decide (f.check specMsta = 0)) = true := h
  have h2 : some (BitVec.ofNat 64 (f.toWord 0x285)) = some w := hw
  have h3 : ∀ w, decodeOp 0x285 w = MtxF.read specMsta .msta w := fun _ => rfl
  exact MtxF.decode_toWord (p := specMsta) (mk := .msta) (by decide) (fun _ _ => h3 _) h1 h2
theorem mcvt (f : MtxF) : Statement (.mcvt f) := by
  intro h w hw
  have h1 : (f.fits && decide (f.check specMcvt = 0)) = true := h
  have h2 : some (BitVec.ofNat 64 (f.toWord 0x286)) = some w := hw
  have h3 : ∀ w, decodeOp 0x286 w = MtxF.read specMcvt .mcvt w := fun _ => rfl
  exact MtxF.decode_toWord (p := specMcvt) (mk := .mcvt) (by decide) (fun _ _ => h3 _) h1 h2
theorem mprog (f : MtxF) : Statement (.mprog f) := by
  intro h w hw
  have h1 : (f.fits && decide (f.check specMprog = 0)) = true := h
  have h2 : some (BitVec.ofNat 64 (f.toWord 0x287)) = some w := hw
  exact MtxF.decode_toWord (p := specMprog) (mk := .mprog) (by decide) (fun h hc => by
    have hd : ∀ w, (MtxF.ofWord w).mod = 0 → decodeOp 0x287 w = MtxF.read specMprog .mprog w := by
      intro w hw
      show (if (MtxF.ofWord w).mod = 1 then MtxF.read specMprogSet .mprogSet w else MtxF.read specMprog .mprog w) = _
      rw [hw]
      first | rfl | done
    exact hd _ (by rw [MtxF.ofWord_toWord h]; exact MtxF.mod_of hc rfl)) h1 h2
theorem mprogSet (f : MtxF) : Statement (.mprogSet f) := by
  intro h w hw
  have h1 : (f.fits && decide (f.check specMprogSet = 0)) = true := h
  have h2 : some (BitVec.ofNat 64 (f.toWord 0x287)) = some w := hw
  exact MtxF.decode_toWord (p := specMprogSet) (mk := .mprogSet) (by decide) (fun h hc => by
    have hd : ∀ w, (MtxF.ofWord w).mod = 1 → decodeOp 0x287 w = MtxF.read specMprogSet .mprogSet w := by
      intro w hw
      show (if (MtxF.ofWord w).mod = 1 then MtxF.read specMprogSet .mprogSet w else MtxF.read specMprog .mprog w) = _
      rw [hw]
      first | rfl | done
    exact hd _ (by rw [MtxF.ofWord_toWord h]; exact MtxF.mod_of hc rfl)) h1 h2
theorem tmap (f : MtxF) : Statement (.tmap f) := by
  intro h w hw
  have h1 : (f.fits && decide (f.check specTmap = 0)) = true := h
  have h2 : some (BitVec.ofNat 64 (f.toWord 0x288)) = some w := hw
  exact MtxF.decode_toWord (p := specTmap) (mk := .tmap) (by decide) (fun h hc => by
    have hd : ∀ w, (MtxF.ofWord w).mod = 0 → decodeOp 0x288 w = MtxF.read specTmap .tmap w := by
      intro w hw
      show (if (MtxF.ofWord w).mod = 1 then MtxF.read specTmapRd .tmapRd w else MtxF.read specTmap .tmap w) = _
      rw [hw]
      first | rfl | done
    exact hd _ (by rw [MtxF.ofWord_toWord h]; exact MtxF.mod_of hc rfl)) h1 h2
theorem tmapRd (f : MtxF) : Statement (.tmapRd f) := by
  intro h w hw
  have h1 : (f.fits && decide (f.check specTmapRd = 0)) = true := h
  have h2 : some (BitVec.ofNat 64 (f.toWord 0x288)) = some w := hw
  exact MtxF.decode_toWord (p := specTmapRd) (mk := .tmapRd) (by decide) (fun h hc => by
    have hd : ∀ w, (MtxF.ofWord w).mod = 1 → decodeOp 0x288 w = MtxF.read specTmapRd .tmapRd w := by
      intro w hw
      show (if (MtxF.ofWord w).mod = 1 then MtxF.read specTmapRd .tmapRd w else MtxF.read specTmap .tmap w) = _
      rw [hw]
      first | rfl | done
    exact hd _ (by rw [MtxF.ofWord_toWord h]; exact MtxF.mod_of hc rfl)) h1 h2
theorem tside (f : MtxF) : Statement (.tside f) := by
  intro h w hw
  have h1 : (f.fits && decide (f.check specTside = 0)) = true := h
  have h2 : some (BitVec.ofNat 64 (f.toWord 0x289)) = some w := hw
  have h3 : ∀ w, decodeOp 0x289 w = MtxF.read specTside .tside w := fun _ => rfl
  exact MtxF.decode_toWord (p := specTside) (mk := .tside) (by decide) (fun _ _ => h3 _) h1 h2
theorem mngi (f : EngF) : Statement (.mngi f) := by
  intro h w hw
  have h1 : (f.fits && decide (f.check specMngi = 0)) = true := h
  have h2 : some (BitVec.ofNat 64 (f.toWord 0x2C1)) = some w := hw
  have h3 : ∀ w, decodeOp 0x2C1 w = EngF.read specMngi .mngi w := fun _ => rfl
  exact EngF.decode_toWord (p := specMngi) (mk := .mngi) (by decide) (fun _ _ => h3 _) h1 h2
theorem mngu (f : EngF) : Statement (.mngu f) := by
  intro h w hw
  have h1 : (f.fits && decide (f.check specMngu = 0)) = true := h
  have h2 : some (BitVec.ofNat 64 (f.toWord 0x2C2)) = some w := hw
  have h3 : ∀ w, decodeOp 0x2C2 w = EngF.read specMngu .mngu w := fun _ => rfl
  exact EngF.decode_toWord (p := specMngu) (mk := .mngu) (by decide) (fun _ _ => h3 _) h1 h2
theorem mngf (f : EngF) : Statement (.mngf f) := by
  intro h w hw
  have h1 : (f.fits && decide (f.check specMngf = 0)) = true := h
  have h2 : some (BitVec.ofNat 64 (f.toWord 0x2C3)) = some w := hw
  have h3 : ∀ w, decodeOp 0x2C3 w = EngF.read specMngf .mngf w := fun _ => rfl
  exact EngF.decode_toWord (p := specMngf) (mk := .mngf) (by decide) (fun _ _ => h3 _) h1 h2
theorem mngs (f : EngF) : Statement (.mngs f) := by
  intro h w hw
  have h1 : (f.fits && decide (f.check specMngs = 0)) = true := h
  have h2 : some (BitVec.ofNat 64 (f.toWord 0x2C4)) = some w := hw
  have h3 : ∀ w, decodeOp 0x2C4 w = EngF.read specMngs .mngs w := fun _ => rfl
  exact EngF.decode_toWord (p := specMngs) (mk := .mngs) (by decide) (fun _ _ => h3 _) h1 h2
theorem plaunch (f : EngF) : Statement (.plaunch f) := by
  intro h w hw
  have h1 : (f.fits && decide (f.check specPlaunch = 0)) = true := h
  have h2 : some (BitVec.ofNat 64 (f.toWord 0x2C5)) = some w := hw
  have h3 : ∀ w, decodeOp 0x2C5 w = EngF.read specPlaunch .plaunch w := fun _ => rfl
  exact EngF.decode_toWord (p := specPlaunch) (mk := .plaunch) (by decide) (fun _ _ => h3 _) h1 h2
theorem pgo (f : EngF) : Statement (.pgo f) := by
  intro h w hw
  have h1 : (f.fits && decide (f.check specPgo = 0)) = true := h
  have h2 : some (BitVec.ofNat 64 (f.toWord 0x2C6)) = some w := hw
  have h3 : ∀ w, decodeOp 0x2C6 w = EngF.read specPgo .pgo w := fun _ => rfl
  exact EngF.decode_toWord (p := specPgo) (mk := .pgo) (by decide) (fun _ _ => h3 _) h1 h2
theorem pwait (f : EngF) : Statement (.pwait f) := by
  intro h w hw
  have h1 : (f.fits && decide (f.check specPwait = 0)) = true := h
  have h2 : some (BitVec.ofNat 64 (f.toWord 0x2C7)) = some w := hw
  have h3 : ∀ w, decodeOp 0x2C7 w = EngF.read specPwait .pwait w := fun _ => rfl
  exact EngF.decode_toWord (p := specPwait) (mk := .pwait) (by decide) (fun _ _ => h3 _) h1 h2
theorem launch (f : EngF) : Statement (.launch f) := by
  intro h w hw
  have h1 : (f.fits && decide (f.check specLaunch = 0)) = true := h
  have h2 : some (BitVec.ofNat 64 (f.toWord 0x2C8)) = some w := hw
  have h3 : ∀ w, decodeOp 0x2C8 w = EngF.read specLaunch .launch w := fun _ => rfl
  exact EngF.decode_toWord (p := specLaunch) (mk := .launch) (by decide) (fun _ _ => h3 _) h1 h2
theorem leave (f : EngF) : Statement (.leave f) := by
  intro h w hw
  have h1 : (f.fits && decide (f.check specLeave = 0)) = true := h
  have h2 : some (BitVec.ofNat 64 (f.toWord 0x2C9)) = some w := hw
  have h3 : ∀ w, decodeOp 0x2C9 w = EngF.read specLeave .leave w := fun _ => rfl
  exact EngF.decode_toWord (p := specLeave) (mk := .leave) (by decide) (fun _ _ => h3 _) h1 h2
theorem place (f : EngF) : Statement (.place f) := by
  intro h w hw
  have h1 : (f.fits && decide (f.check specPlace = 0)) = true := h
  have h2 : some (BitVec.ofNat 64 (f.toWord 0x2CA)) = some w := hw
  have h3 : ∀ w, decodeOp 0x2CA w = EngF.read specPlace .place w := fun _ => rfl
  exact EngF.decode_toWord (p := specPlace) (mk := .place) (by decide) (fun _ _ => h3 _) h1 h2
theorem trap (f : EngF) : Statement (.trap f) := by
  intro h w hw
  have h1 : (f.fits && decide (f.check specTrap = 0)) = true := h
  have h2 : some (BitVec.ofNat 64 (f.toWord 0x2D0)) = some w := hw
  have h3 : ∀ w, decodeOp 0x2D0 w = EngF.read specTrap .trap w := fun _ => rfl
  exact EngF.decode_toWord (p := specTrap) (mk := .trap) (by decide) (fun _ _ => h3 _) h1 h2
theorem eret (f : EngF) : Statement (.eret f) := by
  intro h w hw
  have h1 : (f.fits && decide (f.check specEret = 0)) = true := h
  have h2 : some (BitVec.ofNat 64 (f.toWord 0x2D1)) = some w := hw
  have h3 : ∀ w, decodeOp 0x2D1 w = EngF.read specEret .eret w := fun _ => rfl
  exact EngF.decode_toWord (p := specEret) (mk := .eret) (by decide) (fun _ _ => h3 _) h1 h2
theorem syscall (f : EngF) : Statement (.syscall f) := by
  intro h w hw
  have h1 : (f.fits && decide (f.check specSyscall = 0)) = true := h
  have h2 : some (BitVec.ofNat 64 (f.toWord 0x2D2)) = some w := hw
  have h3 : ∀ w, decodeOp 0x2D2 w = EngF.read specSyscall .syscall w := fun _ => rfl
  exact EngF.decode_toWord (p := specSyscall) (mk := .syscall) (by decide) (fun _ _ => h3 _) h1 h2
theorem csrr (f : EngF) : Statement (.csrr f) := by
  intro h w hw
  have h1 : (f.fits && decide (f.check specCsrr = 0)) = true := h
  have h2 : some (BitVec.ofNat 64 (f.toWord 0x2D3)) = some w := hw
  have h3 : ∀ w, decodeOp 0x2D3 w = EngF.read specCsrr .csrr w := fun _ => rfl
  exact EngF.decode_toWord (p := specCsrr) (mk := .csrr) (by decide) (fun _ _ => h3 _) h1 h2
theorem csrw (f : EngF) : Statement (.csrw f) := by
  intro h w hw
  have h1 : (f.fits && decide (f.check specCsrw = 0)) = true := h
  have h2 : some (BitVec.ofNat 64 (f.toWord 0x2D4)) = some w := hw
  have h3 : ∀ w, decodeOp 0x2D4 w = EngF.read specCsrw .csrw w := fun _ => rfl
  exact EngF.decode_toWord (p := specCsrw) (mk := .csrw) (by decide) (fun _ _ => h3 _) h1 h2
theorem tlbinvAll (f : EngF) : Statement (.tlbinvAll f) := by
  intro h w hw
  have h1 : (f.fits && decide (f.check specTlbinvAll = 0)) = true := h
  have h2 : some (BitVec.ofNat 64 (f.toWord 0x2D5)) = some w := hw
  exact EngF.decode_toWord (p := specTlbinvAll) (mk := .tlbinvAll) (by decide) (fun h hc => by
    have hd : ∀ w, (EngF.ofWord w).m3 = 0 → decodeOp 0x2D5 w = EngF.read specTlbinvAll .tlbinvAll w := by
      intro w hw
      show (match (EngF.ofWord w).m3 with
      | 0 => EngF.read specTlbinvAll .tlbinvAll w | 1 => EngF.read specTlbinvAsid .tlbinvAsid w | _ => EngF.read specTlbinvPage .tlbinvPage w) = _
      rw [hw]
      first | rfl | done
    exact hd _ (by rw [EngF.ofWord_toWord h]; exact EngF.m3_of hc rfl)) h1 h2
theorem tlbinvAsid (f : EngF) : Statement (.tlbinvAsid f) := by
  intro h w hw
  have h1 : (f.fits && decide (f.check specTlbinvAsid = 0)) = true := h
  have h2 : some (BitVec.ofNat 64 (f.toWord 0x2D5)) = some w := hw
  exact EngF.decode_toWord (p := specTlbinvAsid) (mk := .tlbinvAsid) (by decide) (fun h hc => by
    have hd : ∀ w, (EngF.ofWord w).m3 = 1 → decodeOp 0x2D5 w = EngF.read specTlbinvAsid .tlbinvAsid w := by
      intro w hw
      show (match (EngF.ofWord w).m3 with
      | 0 => EngF.read specTlbinvAll .tlbinvAll w | 1 => EngF.read specTlbinvAsid .tlbinvAsid w | _ => EngF.read specTlbinvPage .tlbinvPage w) = _
      rw [hw]
      first | rfl | done
    exact hd _ (by rw [EngF.ofWord_toWord h]; exact EngF.m3_of hc rfl)) h1 h2
theorem tlbinvPage (f : EngF) : Statement (.tlbinvPage f) := by
  intro h w hw
  have h1 : (f.fits && decide (f.check specTlbinvPage = 0)) = true := h
  have h2 : some (BitVec.ofNat 64 (f.toWord 0x2D5)) = some w := hw
  exact EngF.decode_toWord (p := specTlbinvPage) (mk := .tlbinvPage) (by decide) (fun h hc => by
    have hd : ∀ w, (EngF.ofWord w).m3 = 2 → decodeOp 0x2D5 w = EngF.read specTlbinvPage .tlbinvPage w := by
      intro w hw
      show (match (EngF.ofWord w).m3 with
      | 0 => EngF.read specTlbinvAll .tlbinvAll w | 1 => EngF.read specTlbinvAsid .tlbinvAsid w | _ => EngF.read specTlbinvPage .tlbinvPage w) = _
      rw [hw]
      first | rfl | done
    exact hd _ (by rw [EngF.ofWord_toWord h]; exact EngF.m3_of hc rfl)) h1 h2
theorem tlbinvUnitAct (bc unit : Nat) : Statement (.tlbinvUnitAct bc unit) := fun _ _ h => nomatch h
theorem fltrplAll (f : EngF) : Statement (.fltrplAll f) := by
  intro h w hw
  have h1 : (f.fits && decide (f.check specFltrplAll = 0)) = true := h
  have h2 : some (BitVec.ofNat 64 (f.toWord 0x2D6)) = some w := hw
  have h3 : ∀ w, decodeOp 0x2D6 w = EngF.read specFltrplAll .fltrplAll w := fun _ => rfl
  exact EngF.decode_toWord (p := specFltrplAll) (mk := .fltrplAll) (by decide) (fun _ _ => h3 _) h1 h2
theorem fltrplUnitAct (bc unit : Nat) : Statement (.fltrplUnitAct bc unit) := fun _ _ h => nomatch h
theorem brk (f : EngF) : Statement (.brk f) := by
  intro h w hw
  have h1 : (f.fits && decide (f.check specBrk = 0)) = true := h
  have h2 : some (BitVec.ofNat 64 (f.toWord 0x2D7)) = some w := hw
  have h3 : ∀ w, decodeOp 0x2D7 w = EngF.read specBrk .brk w := fun _ => rfl
  exact EngF.decode_toWord (p := specBrk) (mk := .brk) (by decide) (fun _ _ => h3 _) h1 h2
theorem haltbc (f : EngF) : Statement (.haltbc f) := by
  intro h w hw
  have h1 : (f.fits && decide (f.check specHaltbc = 0)) = true := h
  have h2 : some (BitVec.ofNat 64 (f.toWord 0x2D8)) = some w := hw
  have h3 : ∀ w, decodeOp 0x2D8 w = EngF.read specHaltbc .haltbc w := fun _ => rfl
  exact EngF.decode_toWord (p := specHaltbc) (mk := .haltbc) (by decide) (fun _ _ => h3 _) h1 h2
theorem bundleIssue (pcore : Nat) : Statement (.bundleIssue pcore) := fun _ _ h => nomatch h
theorem taskAdmit (task : Nat) : Statement (.taskAdmit task) := fun _ _ h => nomatch h
theorem taskStart (task : Nat) : Statement (.taskStart task) := fun _ _ h => nomatch h
theorem taskSave (task : Nat) : Statement (.taskSave task) := fun _ _ h => nomatch h
theorem taskResume (task : Nat) : Statement (.taskResume task) := fun _ _ h => nomatch h
theorem completionAdd (task : Nat) : Statement (.completionAdd task) := fun _ _ h => nomatch h
theorem pgoReturn (task : Nat) : Statement (.pgoReturn task) := fun _ _ h => nomatch h
theorem paddockWalk (task : Nat) : Statement (.paddockWalk task) := fun _ _ h => nomatch h
theorem firingWorkLimit (pcore : Nat) : Statement (.firingWorkLimit pcore) := fun _ _ h => nomatch h
theorem passStart (handle : Nat) : Statement (.passStart handle) := fun _ _ h => nomatch h
theorem switchIn (handle : Nat) : Statement (.switchIn handle) := fun _ _ h => nomatch h
theorem performStore (core slot group op sec : Nat) : Statement (.performStore core slot group op sec) := fun _ _ h => nomatch h
theorem serveLoad (core slot group op sec : Nat) : Statement (.serveLoad core slot group op sec) := fun _ _ h => nomatch h
theorem performAtomic (core slot group op sec : Nat) : Statement (.performAtomic core slot group op sec) := fun _ _ h => nomatch h
theorem deliver (slice core : Nat) : Statement (.deliver slice core) := fun _ _ h => nomatch h
theorem acknowledge (ack : Nat) : Statement (.acknowledge ack) := fun _ _ h => nomatch h
theorem pinAgeRecall (sector : Nat) : Statement (.pinAgeRecall sector) := fun _ _ h => nomatch h
theorem resultRetire (core slot group op : Nat) : Statement (.resultRetire core slot group op) := fun _ _ h => nomatch h
theorem sliceFill (sector : Nat) : Statement (.sliceFill sector) := fun _ _ h => nomatch h
theorem ceWriteback (word : Nat) : Statement (.ceWriteback word) := fun _ _ h => nomatch h
theorem cxlResponse (word : Nat) (poisoned : Bool) : Statement (.cxlResponse word poisoned) := fun _ _ h => nomatch h
theorem sliceEvict (sector : Nat) : Statement (.sliceEvict sector) := fun _ _ h => nomatch h
theorem dropNotice (core sector : Nat) : Statement (.dropNotice core sector) := fun _ _ h => nomatch h
theorem publishLine (pub line : Nat) : Statement (.publishLine pub line) := fun _ _ h => nomatch h
theorem engineAccess (core op n : Nat) : Statement (.engineAccess core op n) := fun _ _ h => nomatch h
theorem copyUnitWrite (core op unit : Nat) : Statement (.copyUnitWrite core op unit) := fun _ _ h => nomatch h
theorem engineArrival (core op : Nat) : Statement (.engineArrival core op) := fun _ _ h => nomatch h
theorem blockSwitchDone (core block : Nat) : Statement (.blockSwitchDone core block) := fun _ _ h => nomatch h
theorem mshrRetry (core slot group op : Nat) : Statement (.mshrRetry core slot group op) := fun _ _ h => nomatch h
theorem spinMarkTimeout (core slot group path : Nat) : Statement (.spinMarkTimeout core slot group path) := fun _ _ h => nomatch h
theorem groupStarving (core slot group : Nat) : Statement (.groupStarving core slot group) := fun _ _ h => nomatch h
theorem launchQueueRead (q : Nat) : Statement (.launchQueueRead q) := fun _ _ h => nomatch h
theorem lqptrTailWrite (q tail : Nat) : Statement (.lqptrTailWrite q tail) := fun _ _ h => nomatch h
theorem lqctlErrClear (q : Nat) : Statement (.lqctlErrClear q) := fun _ _ h => nomatch h
theorem clusterAdmit (grid clu die row col : Nat) : Statement (.clusterAdmit grid clu die row col) := fun _ _ h => nomatch h
theorem admissionWaitLimit (die grid clu : Nat) : Statement (.admissionWaitLimit die grid clu) := fun _ _ h => nomatch h
theorem admissionPreemptLimit (die grid clu victimGrid victimClu : Nat) : Statement (.admissionPreemptLimit die grid clu victimGrid victimClu) := fun _ _ h => nomatch h
theorem gridCompletionAdd (grid : Nat) : Statement (.gridCompletionAdd grid) := fun _ _ h => nomatch h
theorem leaveGrant (die : Nat) : Statement (.leaveGrant die) := fun _ _ h => nomatch h
theorem leaveGrantExpiry (core slot group : Nat) : Statement (.leaveGrantExpiry core slot group) := fun _ _ h => nomatch h
theorem pageWalk (core slot group op sec : Nat) : Statement (.pageWalk core slot group op sec) := fun _ _ h => nomatch h
theorem trapEntry (core slot group path : Nat) : Statement (.trapEntry core slot group path) := fun _ _ h => nomatch h
theorem preemptSave (grid clu : Nat) : Statement (.preemptSave grid clu) := fun _ _ h => nomatch h
theorem preemptLimitExpiry (grid clu : Nat) : Statement (.preemptLimitExpiry grid clu) := fun _ _ h => nomatch h
theorem teamctlResume (core slot : Nat) : Statement (.teamctlResume core slot) := fun _ _ h => nomatch h
theorem teamctlKill (core slot : Nat) : Statement (.teamctlKill core slot) := fun _ _ h => nomatch h
theorem screspWrite (die value : Nat) : Statement (.screspWrite die value) := fun _ _ h => nomatch h
theorem ckreplayWrite (ckslot : Nat) : Statement (.ckreplayWrite ckslot) := fun _ _ h => nomatch h
theorem checkpointTimer (die : Nat) : Statement (.checkpointTimer die) := fun _ _ h => nomatch h
theorem replayDiverge (slice : Nat) : Statement (.replayDiverge slice) := fun _ _ h => nomatch h
theorem keyload : Statement (.keyload ) := fun _ _ h => nomatch h
theorem keyclear : Statement (.keyclear ) := fun _ _ h => nomatch h
theorem attest : Statement (.attest ) := fun _ _ h => nomatch h
theorem extendMr : Statement (.extendMr ) := fun _ _ h => nomatch h
theorem plimit : Statement (.plimit ) := fun _ _ h => nomatch h
theorem dumpmap : Statement (.dumpmap ) := fun _ _ h => nomatch h
theorem dbgread : Statement (.dbgread ) := fun _ _ h => nomatch h
theorem mailboxDone : Statement (.mailboxDone ) := fun _ _ h => nomatch h
theorem registerWrite (off value : Nat) : Statement (.registerWrite off value) := fun _ _ h => nomatch h
theorem hostPostedWrite (fn : Nat) : Statement (.hostPostedWrite fn) := fun _ _ h => nomatch h
theorem hostRead (fn index : Nat) : Statement (.hostRead fn index) := fun _ _ h => nomatch h
theorem remoteRequestReceive (index : Nat) : Statement (.remoteRequestReceive index) := fun _ _ h => nomatch h
theorem remoteAck (index : Nat) : Statement (.remoteAck index) := fun _ _ h => nomatch h
theorem flitCrcFail (port : Nat) : Statement (.flitCrcFail port) := fun _ _ h => nomatch h
theorem placementFreeze (asid va target : Nat) : Statement (.placementFreeze asid va target) := fun _ _ h => nomatch h
theorem placementCopy (mv : Nat) : Statement (.placementCopy mv) := fun _ _ h => nomatch h
theorem placementSwitch (mv : Nat) : Statement (.placementSwitch mv) := fun _ _ h => nomatch h
theorem sampleTake (core slot group path : Nat) : Statement (.sampleTake core slot group path) := fun _ _ h => nomatch h
theorem tempLimit (die budget : Nat) : Statement (.tempLimit die budget) := fun _ _ h => nomatch h
theorem dumpWrite (sect : Nat) : Statement (.dumpWrite sect) := fun _ _ h => nomatch h
theorem dumpCoreTimeout (core : Nat) : Statement (.dumpCoreTimeout core) := fun _ _ h => nomatch h
theorem deviceReset : Statement (.deviceReset ) := fun _ _ h => nomatch h
theorem clusterMove (grid clu : Nat) : Statement (.clusterMove grid clu) := fun _ _ h => nomatch h
theorem tempBelowLimit (die : Nat) : Statement (.tempBelowLimit die) := fun _ _ h => nomatch h
theorem portRetrain (port : Nat) : Statement (.portRetrain port) := fun _ _ h => nomatch h
theorem eligibilityCount (core : Nat) : Statement (.eligibilityCount core) := fun _ _ h => nomatch h
theorem paddockTaskKill (task : Nat) : Statement (.paddockTaskKill task) := fun _ _ h => nomatch h
theorem asidSuspend (asid : Nat) : Statement (.asidSuspend asid) := fun _ _ h => nomatch h

end Sys2Proof.Laws.Encoding
end

