-- ==== Sys2Proof/Laws/Scalar.lean ====
section
/-! SUPPORT. The integer operations of the scalar and vector units as operations on bit vectors (R200, R201), and what a scalar
instruction comes to (R336 to R338). -/

namespace Sys2Proof.Machine

theorem signed_eq_toInt (w x : Nat) (hw : 0 < w) : signed w x = (BitVec.ofNat w x).toInt := by
  have h2 : 2 ^ w = 2 * 2 ^ (w - 1) := by
    obtain ⟨k, rfl⟩ : ∃ k, w = k + 1 := ⟨w - 1, by omega⟩
    simp [Nat.pow_succ, Nat.mul_comm]
  simp only [signed, BitVec.toInt_eq_toNat_cond, BitVec.toNat_ofNat]
  by_cases h : x % 2 ^ w < 2 ^ (w - 1)
  · have : 2 * (x % 2 ^ w) < 2 ^ w := by omega
    simp [h, this]
  · have : ¬ 2 * (x % 2 ^ w) < 2 ^ w := by omega
    simp [h, this]

theorem wrap_eq_toNat (w : Nat) (x : Int) : wrap w x = (BitVec.ofInt w x).toNat := by
  simp [wrap, BitVec.toNat_ofInt]

/-- A type is 32 or 64 bits wide in a register. -/
theorem tyBits_cases (ty : Ty) : tyBits ty = 32 ∨ tyBits ty = 64 := by cases ty <;> decide

theorem tyRegs_mul (ty : Ty) : 32 * tyRegs ty = tyBits ty := by cases ty <;> rfl

theorem setSval_paths (g : Group) (w r n : Nat) : (g.setSval w r n).paths = g.paths := by
  unfold Group.setSval; split <;> rfl

/-- What a scalar ALU instruction comes to. -/
theorem scalarOp_done {f : SopF} {s : State} {x : Ctx} (one b32 : Bool) (r : Nat → Nat → Nat → Nat → Nat)
    (h : s.issuesFor x (sopRegs f (if one then 1 else tyRegs f.ty) (if b32 then .b32 else f.ty))) :
    ∃ g', Retires false x s (s.scalarOp f one b32 true r) x.past
      (x.g.setSval (32 * (if one then 1 else tyRegs f.ty)) f.sd
        (r (tyBits f.ty) (x.sval f.ty f.a) (x.sval (if b32 then .b32 else f.ty) f.b) (x.sval .b32 f.c))) g' := by
  have e : s.scalarOp f one b32 true r = (s.onG x (fun g => g.setSval (32 * (if one then 1 else tyRegs f.ty)) f.sd
        (r (tyBits f.ty) (x.sval f.ty f.a) (x.sval (if b32 then .b32 else f.ty) f.b) (x.sval .b32 f.c)))).advance x.a := by
    exact State.issue_eq h _
  rw [e]
  exact retires_group h.1 _ (setSval_paths _ _ _ _)

theorem setSval_eq {g : Group} {ty : Ty} (r n : Nat) (v : BitVec (tyBits ty)) (h : n % 2 ^ tyBits ty = v.toNat) :
    g.setSval (32 * tyRegs ty) r n = if tyBits ty = 64 then g.setPair r (v.setWidth 64) else g.setS r (v.setWidth 32) := by
  rw [tyRegs_mul]
  generalize hq : tyBits ty = q at v h
  have hc := hq ▸ tyBits_cases ty
  rcases hc with hw | hw <;> subst hw
  · simp only [Group.setSval]
    rw [if_neg (by decide), if_neg (by decide)]
    congr 1
    apply BitVec.eq_of_toNat_eq
    simp [← h]
  · simp only [Group.setSval, if_true]
    congr 1
    apply BitVec.eq_of_toNat_eq
    simp [← h]

end Sys2Proof.Machine
end

