-- ==== Sys2Proof/Laws/Vector.lean ====
section
/-! SUPPORT. What the shared operations of the vector instructions do: reading and merging lanes, writing V registers, and
retiring an instruction that no fold retires. -/

namespace Sys2Proof.Machine

theorem digits_at (f : Nat → W32) (n i : Nat) (hi : i < n) :
    ((List.range n).foldr (fun i acc => (f i).toNat + 2 ^ 32 * acc) 0) / 2 ^ (32 * i) % 2 ^ 32 = (f i).toNat := by
  induction n generalizing i f with
  | zero => omega
  | succ n ih =>
    rw [List.range_succ_eq_map, List.foldr_cons, List.foldr_map]
    have h0 : (f 0).toNat < 2 ^ 32 := (f 0).isLt
    cases i with
    | zero => simp; omega
    | succ i =>
      have := ih (fun k => f (k + 1)) i (by omega)
      rw [Nat.mul_add, Nat.mul_one, Nat.pow_add, Nat.mul_comm (2 ^ (32 * i)), ← Nat.div_div_eq_div_mul,
        Nat.add_mul_div_left _ _ (by decide), Nat.div_eq_of_lt h0, Nat.zero_add]
      exact this

theorem digits_lt (f : Nat → W32) (n : Nat) :
    ((List.range n).foldr (fun i acc => (f i).toNat + 2 ^ 32 * acc) 0) < 2 ^ (32 * n) := by
  induction n generalizing f with
  | zero => simp
  | succ n ih =>
    rw [List.range_succ_eq_map, List.foldr_cons, List.foldr_map]
    have h0 : (f 0).toNat < 2 ^ 32 := (f 0).isLt
    have := ih (fun k => f (k + 1))
    rw [Nat.mul_add, Nat.mul_one, Nat.pow_add]
    generalize (List.range n).foldr (fun x y => (f x.succ).toNat + 2 ^ 32 * y) 0 = z at *
    change z < _ at this
    generalize 2 ^ (32 * n) = m at *
    have h1 : 2 ^ 32 * (z + 1) ≤ 2 ^ 32 * m := Nat.mul_le_mul_left _ this
    omega

/-- Reading a lane of packed lanes. -/
@[simp] theorem laneOf_packLanes (f : Nat → W32) (i : Nat) (hi : i < 32) : laneOf (packLanes f) i = f i := by
  apply BitVec.eq_of_toNat_eq
  have h : ∀ k, k = 32 * 32 → ((List.range 32).foldr (fun i acc => (f i).toNat + 2 ^ 32 * acc) 0) % 2 ^ k =
      (List.range 32).foldr (fun i acc => (f i).toNat + 2 ^ 32 * acc) 0 := by
    intro k hk; subst hk; exact Nat.mod_eq_of_lt (digits_lt f 32)
  simp only [laneOf, packLanes, BitVec.extractLsb'_toNat, BitVec.toNat_ofNat, Nat.shiftRight_eq_div_pow]
  rw [h 1024 rfl]
  exact digits_at f 32 i hi

/-- Reading a lane of merged lanes (R167). -/
theorem laneOf_mergeLanes (m : LaneSet) (a b : VReg) (i : Nat) (hi : i < 32) :
    laneOf (mergeLanes m a b) i = if m.getLsbD i then laneOf a i else laneOf b i := by
  rw [mergeLanes, laneOf_packLanes _ _ hi]

/-- Changing a quarter of the issuing core keeps the frame for V registers. -/
theorem Frame.onQuarter {x : Ctx} {s t : State} (h : Frame true x s t) (q : Nat) (f : Quarter → Quarter) :
    Frame true x s (t.onQuarter x.a.core q f) := by
  have hs : ∀ c n, (t.onQuarter x.a.core q f).team? c n = t.team? c n := by
    intro c n
    simp only [State.team?, State.onQuarter, State.onCore_core]
    split
    · rename_i hc; subst hc; rfl
    · rfl
  refine ⟨h.device, h.dies, ?_, ?_, ?_, ?_, ?_⟩
  · intro c hc
    rw [← h.cores c hc]
    simp [State.onQuarter, hc]
  · have := h.core
    simp only [if_true] at this ⊢
    rw [← this]
    simp [State.onQuarter]
  · intro n hn; rw [hs]; exact h.teams n hn
  · obtain ⟨u, h1, h2⟩ := h.team
    exact ⟨u, by rw [hs]; exact h1, h2⟩
  · intro g hg
    simp only [State.group?, hs]
    exact h.groups g hg

@[simp] theorem State.onQuarter_group? (s : State) (c q : Nat) (f : Quarter → Quarter) (d n g : Nat) :
    (s.onQuarter c q f).group? d n g = s.group? d n g := by
  simp only [State.group?, State.team?, State.onQuarter, State.onCore_core]
  split
  · rename_i hc; subst hc; rfl
  · rfl

/-- Writing a V register (R167): its value, and some name. -/
theorem Frame.writeV {x : Ctx} {s t : State} {g : Group} (h : Frame true x s t)
    (hg : t.group? x.a.core x.a.slot x.a.group = some g) (r : Nat) (v : VReg) :
    ∃ n, Frame true x s (t.writeV x.a.core x.a.slot x.a.group r v) ∧
      (t.writeV x.a.core x.a.slot x.a.group r v).group? x.a.core x.a.slot x.a.group =
        some { g with v := g.v.set r v, names := g.names.set r n } := by
  obtain ⟨u, hu, _⟩ := State.group?_some hg
  unfold State.writeV
  rw [hu, hg]
  refine ⟨_, (Frame.onGroup (h.onQuarter _ _) (by simpa using hg) _)⟩

/-- A V register after one has been set. -/
theorem Group.vreg_set (g : Group) (r q : Nat) (v : VReg) (names : Tab Nat) :
    ({ g with v := g.v.set r v, names := names } : Group).vreg q = if q = r then v else g.vreg q := by
  simp [Group.vreg, Tab.getD_set]

/-- Writing lanes of registers: every register of the list takes the lanes of the set, and no other changes. -/
theorem Frame.putV {x : Ctx} {s t : State} {g : Group} (vals : List VReg) (vd k : Nat) (h : Frame true x s t)
    (hg : t.group? x.a.core x.a.slot x.a.group = some g) :
    ∃ g', Frame true x s ((vals.zipIdx k).foldl (fun s p => s.writeLanes x.a.core x.a.slot x.a.group x.act (vd + p.2) p.1) t) ∧
      ((vals.zipIdx k).foldl (fun s p => s.writeLanes x.a.core x.a.slot x.a.group x.act (vd + p.2) p.1) t).group?
        x.a.core x.a.slot x.a.group = some g' ∧
      { g' with v := g.v, names := g.names } = g ∧
      ∀ q, g'.vreg q = if vd + k ≤ q ∧ q < vd + k + vals.length then mergeLanes x.act (vals.getD (q - vd - k) 0) (g.vreg q) else g.vreg q := by
  induction vals generalizing t g k with
  | nil => exact ⟨g, h, hg, rfl, fun q => by simp <;> (intro h1 h2; omega)⟩
  | cons v vals ih =>
    simp only [List.zipIdx_cons, List.foldl_cons]
    have hw : t.writeLanes x.a.core x.a.slot x.a.group x.act (vd + k) v =
        t.writeV x.a.core x.a.slot x.a.group (vd + k) (mergeLanes x.act v (g.vreg (vd + k))) := by
      simp [State.writeLanes, hg]
    rw [hw]
    obtain ⟨n, h1, h2⟩ := h.writeV hg (vd + k) (mergeLanes x.act v (g.vreg (vd + k)))
    obtain ⟨g', h3, h4, h5, h6⟩ := ih (k + 1) h1 h2
    refine ⟨g', h3, h4, ?_, ?_⟩
    · have := congrArg (fun (z : Group) => { z with v := g.v, names := g.names }) h5
      exact this
    · intro q
      rw [h6 q, Group.vreg_set]
      by_cases hq : q = vd + k
      · subst hq; simp <;> (intro h7; omega)
      · have : q - vd - k = (q - vd - (k + 1)) + 1 ∨ q < vd + k := by omega
        rcases this with h7 | h7
        · simp only [h7, List.getD_cons_succ, hq, if_false, List.length_cons]
          by_cases h8 : vd + (k + 1) ≤ q ∧ q < vd + (k + 1) + vals.length
          · rw [if_pos h8, if_pos (by omega)]; 
          · rw [if_neg h8, if_neg (by omega)]
        · rw [if_neg (by omega), if_neg hq, if_neg (by omega)]

/-- The lane of the k-th packed register. -/
theorem laneOf_packRegs (n : Nat) (f : Nat → Nat) (k l : Nat) (hk : k < n) (hl : l < 32) :
    (laneOf ((packRegs n f).getD k 0) l).toNat = f l / 2 ^ (32 * k) % 2 ^ 32 := by
  simp [packRegs, hk, laneOf_packLanes _ _ hl]

/-- The digits of a number, put together. -/
theorem digits_sum (y n : Nat) :
    (List.range n).foldr (fun k acc => y / 2 ^ (32 * k) % 2 ^ 32 + 2 ^ 32 * acc) 0 = y % 2 ^ (32 * n) := by
  induction n generalizing y with
  | zero => simp [Nat.mod_one]
  | succ n ih =>
    rw [List.range_succ_eq_map, List.foldr_cons, List.foldr_map]
    have := ih (y / 2 ^ 32)
    have h1 : ∀ k, y / 2 ^ 32 / 2 ^ (32 * k) = y / 2 ^ (32 * (k + 1)) := by
      intro k; rw [Nat.div_div_eq_div_mul, ← Nat.pow_add, Nat.mul_add, Nat.mul_one, Nat.add_comm]
    simp only [h1] at this
    simp only [Nat.succ_eq_add_one, this]
    have h2 : (2:Nat) ^ (32 * (n + 1)) = 2 ^ 32 * 2 ^ (32 * n) := by rw [← Nat.pow_add]; congr 1; omega
    rw [h2, Nat.mod_mul]; simp

/-- What the lanes of a register range hold when each lane is either new or old. -/
theorem laneVal_congr {g g' : Group} {r n l : Nat} (h : ∀ k, k < n → (laneOf (g'.vreg (r + k)) l) = (laneOf (g.vreg (r + k)) l)) :
    g'.laneVal r n l = g.laneVal r n l := by
  unfold Group.laneVal
  have : ∀ (ks : List Nat), (∀ k ∈ ks, k < n) → ks.foldr (fun k acc => (laneOf (g'.vreg (r + k)) l).toNat + 2 ^ 32 * acc) 0 =
      ks.foldr (fun k acc => (laneOf (g.vreg (r + k)) l).toNat + 2 ^ 32 * acc) 0 := by
    intro ks hks
    induction ks with
    | nil => rfl
    | cons k ks ih =>
      simp only [List.foldr_cons]
      rw [ih (fun k hk => hks k (List.mem_cons_of_mem _ hk)), h k (hks k (List.mem_cons_self ..))]
  exact this _ (fun k hk => List.mem_range.mp hk)

theorem laneVal_digits {g : Group} {r n l y : Nat} (h : ∀ k, k < n → (laneOf (g.vreg (r + k)) l).toNat = y / 2 ^ (32 * k) % 2 ^ 32) :
    g.laneVal r n l = y % 2 ^ (32 * n) := by
  rw [← digits_sum y n]
  unfold Group.laneVal
  have : ∀ (ks : List Nat), (∀ k ∈ ks, k < n) → ks.foldr (fun k acc => (laneOf (g.vreg (r + k)) l).toNat + 2 ^ 32 * acc) 0 =
      ks.foldr (fun k acc => y / 2 ^ (32 * k) % 2 ^ 32 + 2 ^ 32 * acc) 0 := by
    intro ks hks
    induction ks with
    | nil => rfl
    | cons k ks ih =>
      simp only [List.foldr_cons]
      rw [ih (fun k hk => hks k (List.mem_cons_of_mem _ hk)), h k (hks k (List.mem_cons_self ..))]
  exact this _ (fun k hk => List.mem_range.mp hk)

/-- An instruction that no fold retires executes (R173, R174). -/
theorem retireV_unfolded {s : State} {x : Ctx} {word : Nat} {srcs : List Src} {vd n : Nat} (vals : List VReg) (flags : Nat)
    (hn : vals.length = n) (hu : s.unfolded x word srcs vd n) :
    s.retireV x word srcs vd vals flags =
      match trappingFlag x.g.gstat flags with
      | some i => (s.missed x).trapAt x.a 1 i 0
      | none =>
        let s := ((s.missed x).putV x vd vals).onG x (fun g => g.raise flags)
        (if x.p.hdr.nofold then s
          else match s.group? x.a.core x.a.slot x.a.group with
            | none => s
            | some g => s.onQuarter x.a.core x.g.quarter (fun q =>
                q.enter { key := x.foldKey word srcs vd n, names := (List.range n).map (fun i => g.nameOf (vd + i)),
                          vals := (List.range n).map (fun i => g.vreg (vd + i)), flags := BitVec.ofNat 6 flags, secs := [] })).advance x.a := by
  subst hn
  unfold State.retireV
  dsimp only
  split
  · rename_i e q heq
    rcases hu with hu | hu <;> simp [hu] at heq
  · rfl

/-- Retiring an instruction that no fold retires (R167, R174, R203). -/
theorem retireV_done {s : State} {x : Ctx} (h : s.ctx? = some x) (word : Nat) (srcs : List Src) (vd n : Nat) (f : Nat → Nat) (flags : Nat)
    (hu : s.unfolded x word srcs vd n) :
    (trappingFlag x.g.gstat flags = none →
      ∃ g', Retires true x s (s.retireV x word srcs vd (packRegs n f) flags) x.past { x.g with flags := x.g.flags ||| BitVec.ofNat 6 flags } g' ∧
      (∀ l, l < 32 → g'.laneVal vd n l = if x.act.getLsbD l then f l % 2 ^ (32 * n) else x.g.laneVal vd n l) ∧
      ∀ q, (q < vd ∨ vd + n ≤ q) → g'.vreg q = x.g.vreg q) ∧
    ∀ b, trappingFlag x.g.gstat flags = some b → s.retireV x word srcs vd (packRegs n f) flags = (s.missed x).trapAt x.a 1 b 0 := by
  obtain ⟨_, ht, hg, hp, _, _⟩ := State.ctx_spec h
  have hg' : s.group? x.a.core x.a.slot x.a.group = some x.g := by simp [State.group?, ht, hg]
  have hlen : (packRegs n f).length = n := by simp [packRegs]
  rw [retireV_unfolded _ flags hlen hu]
  constructor
  · intro hf
    simp only [hf]
    have hmiss : Frame true x s (s.missed x) := by
      unfold State.missed
      split
      · exact Frame.refl h true
      · exact (Frame.refl h true).onQuarter _ _
    have hmg : (s.missed x).group? x.a.core x.a.slot x.a.group = some x.g := by
      unfold State.missed
      split
      · exact hg'
      · simpa using hg'
    obtain ⟨g1, h1, h2, h3, h4⟩ := Frame.putV (packRegs n f) vd 0 hmiss hmg
    obtain ⟨h5, h6⟩ := h1.onGroup h2 (fun g => g.raise flags)
    have hrest : ∀ (t : State), Frame true x s t → t.group? x.a.core x.a.slot x.a.group = some (g1.raise flags) →
        ∃ g', Retires true x s (t.advance x.a) x.past { x.g with flags := x.g.flags ||| BitVec.ofNat 6 flags } g' ∧
        (∀ l, l < 32 → g'.laneVal vd n l = if x.act.getLsbD l then f l % 2 ^ (32 * n) else x.g.laneVal vd n l) ∧
        ∀ q, (q < vd ∨ vd + n ≤ q) → g'.vreg q = x.g.vreg q := by
      intro t hT hG
      have hpaths : (g1.raise flags).paths = x.g.paths := by
        have : g1.paths = x.g.paths := by rw [← h3]
        exact this
      have hr : ({ g1.raise flags with v := x.g.v, names := x.g.names } : Group) = { x.g with flags := x.g.flags ||| BitVec.ofNat 6 flags } :=
        congrArg (fun (z : Group) => { z with flags := z.flags ||| BitVec.ofNat 6 flags }) h3
      obtain ⟨g', hR, hV⟩ := hT.advance_values hG (by rw [hpaths]; exact hp) rfl (fun m _ => by rw [hpaths])
      have hq : ∀ q, g'.vreg q = g1.vreg q := fun q => by
        have h7 : (g'.rest false).v = ((g1.raise flags).rest false).v := by rw [hV]
        have : g'.v = g1.v := h7
        simp [Group.vreg, this]
      refine ⟨g', ⟨hR.frame, hR.group, ?_, hR.paths⟩, ?_, ?_⟩
      · rw [hR.rest]
        have h7 : ({ g1.raise flags with v := x.g.v, names := x.g.names } : Group).rest true =
            ({ x.g with flags := x.g.flags ||| BitVec.ofNat 6 flags } : Group).rest true := by rw [hr]
        exact h7
      · intro l hl
        split
        · rename_i ha
          refine laneVal_digits (fun k hk => ?_)
          rw [hq, h4, if_pos (by rw [hlen]; omega), laneOf_mergeLanes _ _ _ _ hl, if_pos ha,
            show vd + k - vd - 0 = k by omega, laneOf_packRegs n f k l hk hl]
        · rename_i ha
          refine laneVal_congr (fun k hk => ?_)
          rw [hq, h4, if_pos (by rw [hlen]; omega), laneOf_mergeLanes _ _ _ _ hl, if_neg ha]
      · intro q hq'
        rw [hq, h4, if_neg (by rw [hlen]; omega)]
    apply hrest
    · split
      · exact h5
      · split
        · exact h5
        · exact h5.onQuarter _ _
    · split
      · exact h6
      · split
        · exact h6
        · rw [State.onQuarter_group?]; exact h6
  · intro b hb
    simp only [hb]

end Sys2Proof.Machine
end

