-- ==== Sys2Proof/Tests/Slice0.lean ====
section
/-! SUPPORT. Small checks of the model: terms that WellFormed refuses, one for each check; words written out bit by bit from the
formats of R318 to R325, and what they decode to; and for each statement of Certificates/Slice0/Obligations.lean a state and operands
that meet its hypotheses. Expected values come from the manual's tables. -/

set_option maxRecDepth 100000

open Sys2Proof Sys2Proof.Machine

namespace Sys2Proof.Tests

/-! Words of each family, one field after another as R318 places them, and the instructions that they stand for. -/

theorem test_decode_sadd : decode 0x00CC015031FE8000 = .ok (.sadd { ty := .i64, mod := 0, sd := 10, a := .s 12, b := .imm 509, c := .v 0, la := 0 }) := by rfl
theorem test_decode_smovi : decode 0x00A0100DEADBEEF0 = .ok (.smovi { sd := 513, imm := 3735928559 }) := by rfl
theorem test_decode_brc : decode 0x109800043FFFFFFE = .ok (.brc { cc := 3, kn := 0, vc := 0, sc := 33, off := 536870910 }) := by rfl
theorem test_decode_kmov : decode 0x1580E85000000000 = .ok (.kmov { kd := 0, ks := 3, fld := 2, dir := true, sr := 40 }) := by rfl
theorem test_decode_srdsr : decode 0x124101C000000000 = .ok (.srdsr { dv := false, sreg := 1, reg := 7 }) := by rfl
theorem test_decode_waitc : decode 0x11C48FD000000000 = .ok (.waitc { vm := 1, sm := 2, mx := 3, cp := 15, st := 4 }) := by rfl
theorem test_decode_vadd : decode 0x205A00A01A048000 = .ok (.vadd { ty := .n32, mod := 16, vd := 5, a := .v 6, b := .s 9, c := .v 0, la := 0 }) := by rfl
theorem test_decode_vfma : decode 0x313B990005010FF0 = .ok (.vfma { ty := .f32, mod := 28, vd := 200, a := .v 1, b := .imm 2, c := .v 255, la := 0 }) := by rfl
theorem test_decode_vred : decode 0x418900200C000000 = .ok (.vred { ty := .i32, mod := 8, vd := 1, a := .v 3, b := .v 0, c := .v 0, la := 0 }) := by rfl
theorem test_decode_ld : decode 0x606800801827FFC0 = .ok (.ld { ty := .b32, scope := 0, ord := 0, ofr := false, vr := 8, sb := 6, vx := 9, xv := true, off := 8188, la := 0 }) := by rfl
theorem test_decode_sld : decode 0x70D6A01002000103 = .ok (.sld { ty := .n16, scope := 5, ord := 1, ofr := false, sd := 4, sb := 2, off := 16, la := 3 }) := by rfl
theorem test_decode_atom : decode 0x706E5C2804000A00 = .ok (.atom { ty := .b64, scope := 4, ord := 2, aop := 7, vd := 10, sb := 4, vx := 0, xv := false, va := 20, la := 0 }) := by rfl
theorem test_decode_vcvt : decode 0x505C201004003800 = .ok (.vcvt { dfmt := 14, sfmt := 2, vd := 1, a := .v 2, b := .v 0, rmo := true, rm := 3, sat := false, ps := 0 }) := by rfl
theorem test_decode_bararr : decode 0x824010081FFE0001 = .ok (.bararr { sd := 1, sa := 2, rank := 0, rmt := false, n := 4095, sg := 0, la := 1 }) := by rfl
theorem test_decode_cpyGs : decode 0x90780080481004C0 = .ok (.cpyGs { qn := 7, kind := 0, sa := 2, sb := 4, sz := .s 8, so := 9, bv := true, la := 0 }) := by rfl
theorem test_decode_mma : decode 0xA07C3E0000000000 = .ok (.mma { ad := 15, ta := 1, tb := 30, mod := 0, sa := 0, fmtc := 0, rm := 0, sat := false, la := 0 }) := by rfl
theorem test_decode_trap : decode 0xB400000000C80000 = .ok (.trap { sd := 0, sa := 0, sb := 0, x8 := 200, n4 := 0, n2 := 0, fn := 0, m3 := 0, la := 0 }) := by rfl
theorem test_decode_launch : decode 0xB200001800000280 = .ok (.launch { sd := 0, sa := 6, sb := 0, x8 := 0, n4 := 0, n2 := 0, fn := 5, m3 := 0, la := 0 }) := by rfl
theorem test_decode_ifl : decode 0x1400268000000000 = .ok (.ifLanes { cc := 0, kn := 0, vc := 77, sc := 0, off := 0 }) := by rfl
theorem test_decode_reserved_group : decode 0xC000000000000000 = .error 1 := by rfl
theorem test_decode_unassigned_opcode : decode 0x0FC0000000000000 = .error 1 := by rfl
theorem test_decode_unused_field : decode 0x0080000000000008 = .error 2 := by rfl
theorem test_decode_bad_code : decode 0x10A0000000000000 = .error 3 := by rfl
theorem test_decode_bad_operand_kind : decode 0x00C8000000000000 = .error 4 := by rfl
theorem test_decode_table_word : decodeTableWord 64 0x00A0100DEADBEEF0 = some (.smovi { sd := 513, imm := 0xDEADBEEF }) := by rfl

/-! One term that each check of WellFormed refuses. -/

theorem test_wf_accepts_vadd : (Instr.vadd { ty := .n32, mod := 0, vd := 0, a := .v 0, b := .v 0, c := .v 0, la := 0 }).wf = true := by rfl
theorem test_wf_refuses_vop_mod_width : (Instr.vadd { ty := .n32, mod := 32, vd := 0, a := .v 0, b := .v 0, c := .v 0, la := 0 }).wf = false := by rfl
theorem test_wf_refuses_vop_register_width : (Instr.vadd { ty := .n32, mod := 0, vd := 256, a := .v 0, b := .v 0, c := .v 0, la := 0 }).wf = false := by rfl
theorem test_wf_refuses_vop_operand_width : (Instr.vadd { ty := .n32, mod := 0, vd := 0, a := .v 256, b := .v 0, c := .v 0, la := 0 }).wf = false := by rfl
theorem test_wf_refuses_vop_immediate_width : (Instr.vadd { ty := .n32, mod := 0, vd := 0, a := .v 0, b := .imm 512, c := .v 0, la := 0 }).wf = false := by rfl
theorem test_wf_refuses_vop_unused_operand : (Instr.vadd { ty := .n32, mod := 0, vd := 0, a := .v 0, b := .v 0, c := .v 1, la := 0 }).wf = false := by rfl
theorem test_wf_refuses_vop_type : (Instr.vadd { ty := .b32, mod := 0, vd := 0, a := .v 0, b := .v 0, c := .v 0, la := 0 }).wf = false := by rfl
theorem test_wf_refuses_vop_mod : (Instr.vadd { ty := .n32, mod := 8, vd := 0, a := .v 0, b := .v 0, c := .v 0, la := 0 }).wf = false := by rfl
theorem test_wf_refuses_vop_la : (Instr.vadd { ty := .n32, mod := 0, vd := 0, a := .v 0, b := .v 0, c := .v 0, la := 1 }).wf = false := by rfl
theorem test_wf_refuses_vop_operand_kind : (Instr.vred { ty := .i32, mod := 0, vd := 0, a := .s 0, b := .v 0, c := .v 0, la := 0 }).wf = false := by rfl
theorem test_wf_refuses_vop_condition_code : (Instr.vcmp { ty := .n32, mod := 24, vd := 0, a := .v 0, b := .v 0, c := .v 0, la := 0 }).wf = false := by rfl
theorem test_wf_refuses_vop_vote_code : (Instr.vvote { ty := .b32, mod := 12, vd := 0, a := .v 0, b := .v 0, c := .v 0, la := 0 }).wf = false := by rfl
theorem test_wf_refuses_vop_reduction_of_bits : (Instr.vred { ty := .b32, mod := 0, vd := 0, a := .v 0, b := .v 0, c := .v 0, la := 0 }).wf = false := by rfl
theorem test_wf_accepts_sadd : (Instr.sadd { ty := .n32, mod := 0, sd := 0, a := .s 0, b := .s 0, c := .v 0, la := 0 }).wf = true := by rfl
theorem test_wf_refuses_sop_register_width : (Instr.sadd { ty := .n32, mod := 0, sd := 1024, a := .s 0, b := .s 0, c := .v 0, la := 0 }).wf = false := by rfl
theorem test_wf_refuses_sop_type : (Instr.sadd { ty := .i16, mod := 0, sd := 0, a := .s 0, b := .s 0, c := .v 0, la := 0 }).wf = false := by rfl
theorem test_wf_refuses_sop_vector_operand : (Instr.sadd { ty := .n32, mod := 0, sd := 0, a := .v 3, b := .s 0, c := .v 0, la := 0 }).wf = false := by rfl
theorem test_wf_refuses_sop_unused_operand : (Instr.sadd { ty := .n32, mod := 0, sd := 0, a := .s 0, b := .s 0, c := .v 1, la := 0 }).wf = false := by rfl
theorem test_wf_refuses_sop_condition_code : (Instr.scmp { ty := .n32, mod := 6, sd := 0, a := .s 0, b := .s 0, c := .v 0, la := 0 }).wf = false := by rfl
theorem test_wf_accepts_smovi : (Instr.smovi { sd := 0, imm := 0 }).wf = true := by rfl
theorem test_wf_refuses_simm_immediate_width : (Instr.smovi { sd := 0, imm := 4294967296 }).wf = false := by rfl
theorem test_wf_refuses_simm_unused_sd : (Instr.setfmt { sd := 1, imm := 0 }).wf = false := by rfl
theorem test_wf_accepts_brc : (Instr.brc { cc := 3, kn := 0, vc := 0, sc := 0, off := 0 }).wf = true := by rfl
theorem test_wf_refuses_br_offset_width : (Instr.bra { cc := 0, kn := 0, vc := 0, sc := 0, off := 536870912 }).wf = false := by rfl
theorem test_wf_refuses_br_condition_code : (Instr.brc { cc := 4, kn := 0, vc := 0, sc := 0, off := 0 }).wf = false := by rfl
theorem test_wf_refuses_br_unused_register : (Instr.bra { cc := 0, kn := 0, vc := 0, sc := 1, off := 0 }).wf = false := by rfl
theorem test_wf_refuses_br_unused_kn : (Instr.nop { cc := 0, kn := 1, vc := 0, sc := 0, off := 0 }).wf = false := by rfl
theorem test_wf_refuses_br_unused_vc : (Instr.nop { cc := 0, kn := 0, vc := 1, sc := 0, off := 0 }).wf = false := by rfl
theorem test_wf_refuses_br_unused_off : (Instr.ret { cc := 0, kn := 0, vc := 0, sc := 0, off := 1 }).wf = false := by rfl
theorem test_wf_refuses_br_yieldw_token : (Instr.yieldw { cc := 1, kn := 8, vc := 0, sc := 0, off := 0 }).wf = false := by rfl
theorem test_wf_accepts_kmov : (Instr.kmov { kd := 0, ks := 0, fld := 0, dir := false, sr := 0 }).wf = true := by rfl
theorem test_wf_refuses_kop_register_width : (Instr.kmov { kd := 16, ks := 0, fld := 0, dir := false, sr := 0 }).wf = false := by rfl
theorem test_wf_refuses_kop_unused_field : (Instr.kmov { kd := 0, ks := 1, fld := 1, dir := false, sr := 0 }).wf = false := by rfl
theorem test_wf_refuses_kop_field : (Instr.kand { kd := 0, ks := 0, fld := 2, dir := false, sr := 0 }).wf = false := by rfl
theorem test_wf_accepts_srdsr : (Instr.srdsr { dv := false, sreg := 1, reg := 0 }).wf = true := by rfl
theorem test_wf_refuses_spc_register : (Instr.srdsr { dv := false, sreg := 12, reg := 0 }).wf = false := by rfl
theorem test_wf_refuses_spc_dv : (Instr.srdsr { dv := false, sreg := 0, reg := 0 }).wf = false := by rfl
theorem test_wf_refuses_spc_read_only : (Instr.swrsr { dv := false, sreg := 1, reg := 0 }).wf = false := by rfl
theorem test_wf_refuses_spc_register_width : (Instr.srdsr { dv := true, sreg := 7, reg := 256 }).wf = false := by rfl
theorem test_wf_accepts_waitc : (Instr.waitc { vm := 0, sm := 0, mx := 0, cp := 0, st := 0 }).wf = true := by rfl
theorem test_wf_refuses_wcnt_threshold : (Instr.waitc { vm := 16, sm := 0, mx := 0, cp := 0, st := 0 }).wf = false := by rfl
theorem test_wf_accepts_ld : (Instr.ld { ty := .b32, scope := 0, ord := 0, ofr := false, vr := 0, sb := 0, vx := 0, xv := false, off := 0, la := 0 }).wf = true := by rfl
theorem test_wf_refuses_mem_offset_width : (Instr.ld { ty := .b32, scope := 0, ord := 0, ofr := false, vr := 0, sb := 0, vx := 0, xv := false, off := 8192, la := 0 }).wf = false := by rfl
theorem test_wf_refuses_mem_unused_index : (Instr.ld { ty := .b32, scope := 0, ord := 0, ofr := false, vr := 0, sb := 0, vx := 1, xv := false, off := 0, la := 0 }).wf = false := by rfl
theorem test_wf_refuses_mem_of : (Instr.ld { ty := .b32, scope := 0, ord := 0, ofr := true, vr := 0, sb := 0, vx := 0, xv := false, off := 0, la := 0 }).wf = false := by rfl
theorem test_wf_refuses_mem_release_load : (Instr.ld { ty := .b32, scope := 4, ord := 2, ofr := false, vr := 0, sb := 0, vx := 0, xv := false, off := 0, la := 0 }).wf = false := by rfl
theorem test_wf_refuses_mem_acquire_store : (Instr.st { ty := .b32, scope := 4, ord := 1, ofr := false, vr := 0, sb := 0, vx := 0, xv := false, off := 0, la := 0 }).wf = false := by rfl
theorem test_wf_refuses_mem_scope_without_order : (Instr.ld { ty := .b32, scope := 4, ord := 0, ofr := false, vr := 0, sb := 0, vx := 0, xv := false, off := 0, la := 0 }).wf = false := by rfl
theorem test_wf_refuses_mem_scope : (Instr.ld { ty := .b32, scope := 6, ord := 1, ofr := false, vr := 0, sb := 0, vx := 0, xv := false, off := 0, la := 0 }).wf = false := by rfl
theorem test_wf_refuses_mem_scratch_scope : (Instr.lds { ty := .b32, scope := 2, ord := 1, ofr := false, vr := 0, sb := 0, vx := 0, xv := false, off := 0, la := 0 }).wf = false := by rfl
theorem test_wf_refuses_mem_type : (Instr.ldr { ty := .f16, scope := 0, ord := 0, ofr := false, vr := 0, sb := 0, vx := 0, xv := false, off := 0, la := 0 }).wf = false := by rfl
theorem test_wf_accepts_sld : (Instr.sld { ty := .b32, scope := 0, ord := 0, ofr := false, sd := 0, sb := 0, off := 0, la := 0 }).wf = true := by rfl
theorem test_wf_refuses_smem_of : (Instr.sld { ty := .b32, scope := 0, ord := 0, ofr := true, sd := 0, sb := 0, off := 0, la := 0 }).wf = false := by rfl
theorem test_wf_refuses_smem_offset_width : (Instr.sld { ty := .b32, scope := 0, ord := 0, ofr := false, sd := 0, sb := 0, off := 1048576, la := 0 }).wf = false := by rfl
theorem test_wf_accepts_atom : (Instr.atom { ty := .n32, scope := 4, ord := 0, aop := 0, vd := 0, sb := 0, vx := 0, xv := false, va := 0, la := 0 }).wf = true := by rfl
theorem test_wf_refuses_mema_no_scope : (Instr.atom { ty := .n32, scope := 0, ord := 0, aop := 0, vd := 0, sb := 0, vx := 0, xv := false, va := 0, la := 0 }).wf = false := by rfl
theorem test_wf_refuses_mema_type : (Instr.atom { ty := .b32, scope := 4, ord := 0, aop := 0, vd := 0, sb := 0, vx := 0, xv := false, va := 0, la := 0 }).wf = false := by rfl
theorem test_wf_refuses_mema_unused_index : (Instr.atom { ty := .n32, scope := 4, ord := 0, aop := 0, vd := 0, sb := 0, vx := 1, xv := false, va := 0, la := 0 }).wf = false := by rfl
theorem test_wf_accepts_atoms : (Instr.atoms { ty := .n32, scope := 4, ord := 0, aop := 0, sd := 0, sb := 0, sa := 0, la := 0 }).wf = true := by rfl
theorem test_wf_refuses_satm_type : (Instr.atoms { ty := .n32, scope := 4, ord := 0, aop := 7, sd := 0, sb := 0, sa := 0, la := 0 }).wf = false := by rfl
theorem test_wf_accepts_vcvt : (Instr.vcvt { dfmt := 0, sfmt := 1, vd := 0, a := .v 1, b := .v 0, rmo := false, rm := 0, sat := false, ps := 0 }).wf = true := by rfl
theorem test_wf_refuses_vcv_unread_operand : (Instr.vcvt { dfmt := 0, sfmt := 1, vd := 0, a := .v 0, b := .v 1, rmo := false, rm := 0, sat := false, ps := 0 }).wf = false := by rfl
theorem test_wf_refuses_vcv_rounding : (Instr.vcvt { dfmt := 1, sfmt := 0, vd := 0, a := .v 0, b := .v 1, rmo := false, rm := 1, sat := false, ps := 0 }).wf = false := by rfl
theorem test_wf_refuses_vcv_part : (Instr.vcvt { dfmt := 0, sfmt := 0, vd := 0, a := .v 0, b := .v 0, rmo := false, rm := 0, sat := false, ps := 2 }).wf = false := by rfl
theorem test_wf_refuses_vcv_immediate : (Instr.vcvt { dfmt := 0, sfmt := 1, vd := 0, a := .imm 1, b := .v 0, rmo := false, rm := 0, sat := false, ps := 0 }).wf = false := by rfl
theorem test_wf_refuses_vcv_vcvts_rounding : (Instr.vcvts { dfmt := 1, sfmt := 0, vd := 0, a := .v 0, b := .v 1, rmo := true, rm := 0, sat := false, ps := 0 }).wf = false := by rfl
theorem test_wf_accepts_mma : (Instr.mma { ad := 0, ta := 0, tb := 0, mod := 0, sa := 0, fmtc := 0, rm := 0, sat := false, la := 0 }).wf = true := by rfl
theorem test_wf_refuses_mtx_mod : (Instr.mma { ad := 0, ta := 0, tb := 0, mod := 1, sa := 0, fmtc := 0, rm := 0, sat := false, la := 0 }).wf = false := by rfl
theorem test_wf_refuses_mtx_unused_field : (Instr.mzero { ad := 0, ta := 0, tb := 0, mod := 0, sa := 1, fmtc := 0, rm := 0, sat := false, la := 0 }).wf = false := by rfl
theorem test_wf_refuses_mtx_block : (Instr.mma { ad := 16, ta := 0, tb := 0, mod := 0, sa := 0, fmtc := 0, rm := 0, sat := false, la := 0 }).wf = false := by rfl
theorem test_wf_refuses_mtx_sat : (Instr.mcvt { ad := 0, ta := 0, tb := 0, mod := 0, sa := 0, fmtc := 0, rm := 0, sat := true, la := 0 }).wf = false := by rfl
theorem test_wf_accepts_cpyGs : (Instr.cpyGs { qn := 0, kind := 0, sa := 0, sb := 0, sz := .imm 1, so := 0, bv := false, la := 0 }).wf = true := by rfl
theorem test_wf_refuses_cpy_size_kind : (Instr.cpyGs { qn := 0, kind := 0, sa := 0, sb := 0, sz := .v 1, so := 0, bv := false, la := 0 }).wf = false := by rfl
theorem test_wf_refuses_cpy_unused_object : (Instr.cpyGs { qn := 0, kind := 0, sa := 0, sb := 0, sz := .imm 1, so := 1, bv := false, la := 0 }).wf = false := by rfl
theorem test_wf_refuses_cpy_kind : (Instr.cpyrAdd { qn := 0, kind := 7, sa := 0, sb := 0, sz := .imm 1, so := 0, bv := false, la := 0 }).wf = false := by rfl
theorem test_wf_refuses_cpy_pref_token : (Instr.pref { qn := 0, kind := 0, sa := 8, sb := 0, sz := .imm 1, so := 0, bv := false, la := 0 }).wf = false := by rfl
theorem test_wf_accepts_bararr : (Instr.bararr { sd := 0, sa := 0, rank := 0, rmt := false, n := 1, sg := 0, la := 0 }).wf = true := by rfl
theorem test_wf_refuses_bar_count_width : (Instr.bararr { sd := 0, sa := 0, rank := 0, rmt := false, n := 4096, sg := 0, la := 0 }).wf = false := by rfl
theorem test_wf_refuses_bar_rank : (Instr.bararr { sd := 0, sa := 0, rank := 1, rmt := false, n := 1, sg := 0, la := 0 }).wf = false := by rfl
theorem test_wf_refuses_bar_unused : (Instr.barinv { sd := 0, sa := 0, rank := 0, rmt := false, n := 1, sg := 0, la := 0 }).wf = false := by rfl
theorem test_wf_accepts_fence : (Instr.fence { sd := 0, sa := 0, sb := 0, x8 := 0, n4 := 0, n2 := 0, fn := 0, m3 := 1, la := 0 }).wf = true := by rfl
theorem test_wf_refuses_eng_code : (Instr.fence { sd := 0, sa := 0, sb := 0, x8 := 0, n4 := 0, n2 := 0, fn := 0, m3 := 0, la := 0 }).wf = false := by rfl
theorem test_wf_refuses_eng_unused : (Instr.fence { sd := 0, sa := 1, sb := 0, x8 := 0, n4 := 0, n2 := 0, fn := 0, m3 := 1, la := 0 }).wf = false := by rfl
theorem test_wf_refuses_eng_pair_code : (Instr.fence { sd := 0, sa := 0, sb := 0, x8 := 0, n4 := 0, n2 := 3, fn := 0, m3 := 1, la := 0 }).wf = false := by rfl
theorem test_wf_refuses_eng_token_width : (Instr.waitf { sd := 0, sa := 0, sb := 0, x8 := 0, n4 := 0, n2 := 0, fn := 8, m3 := 0, la := 0 }).wf = false := by rfl
theorem test_wf_refuses_eng_x8 : (Instr.launch { sd := 0, sa := 0, sb := 0, x8 := 1, n4 := 0, n2 := 0, fn := 0, m3 := 0, la := 0 }).wf = false := by rfl
theorem test_wf_refuses_eng_class : (Instr.leave { sd := 0, sa := 0, sb := 0, x8 := 0, n4 := 0, n2 := 0, fn := 0, m3 := 5, la := 0 }).wf = false := by rfl


/-! ## States for the witnesses -/

/-- A supervisor's team on slot 0 of core 0, with one group and one path of 32 lanes, which is about to issue. -/
def base : State := { State.reset.placeWord 0 with cur := some ⟨0, 0, 0, 0⟩, agenda := [] }

/-- The same with the group, the team or the path changed. -/
def grp (f : Group → Group) : State := base.onGroup 0 0 0 f
/-- See `grp`. -/
def team (f : Team → Team) : State := base.onTeam 0 0 f
/-- See `grp`. -/
def path (f : Path → Path) : State := base.onPath ⟨0, 0, 0, 0⟩ f
/-- The same with values in S registers. -/
def sregs (r : Tab W32) : State := grp (fun g => { g with s := r })
/-- A state in which no lane of the path is active (R244). -/
def idle (s : State) : State := s.onGroup 0 0 0 (fun g => { g with nest := BitVec.allOnes 128 })
/-- A state in which no register that is named exists. -/
def bareRegs (s : State) : State := s.onGrid 0 (fun g => { g with v := 1, s := 1, a := 0 })

/-- An instruction issues in a state, whose context meets a condition. -/
theorem meets {s : State} {regs : List Reg} {P : Ctx → Prop} [DecidablePred P]
    (h : (match s.ctx? with
      | some x => decide (regs.all x.regOk = true ∧ x.stall s regs = none ∧ P x)
      | none => false) = true) : ∃ x, s.issuesFor x regs ∧ P x := by
  cases hx : s.ctx? with
  | none => simp [hx] at h
  | some x => simp only [hx, decide_eq_true_eq] at h; exact ⟨x, ⟨hx, h.1, h.2.1⟩, h.2.2⟩

/-- One without a condition. -/
theorem issues {s : State} {regs : List Reg} (h : (match s.ctx? with
      | some x => decide (regs.all x.regOk = true ∧ x.stall s regs = none)
      | none => false) = true) : ∃ x, s.issuesFor x regs := by
  cases hx : s.ctx? with
  | none => simp [hx] at h
  | some x => simp only [hx, decide_eq_true_eq] at h; exact ⟨x, hx, h.1, h.2⟩

/-- No team is being halted. -/
def unhalted (s : State) : Bool :=
  s.cores.all (fun c => c.2.slots.all (fun t => match t.2.run with
    | .halting _ _ _ _ => false
    | _ => true))
/-- See `unhalted`. -/
theorem noHalting_of {s : State} (h : unhalted s = true) : s.noHalting := by
  intro c slot t ht cause trap g pc hr
  have mem {α : Type} {m : Tab α} {k : Nat} {v : α} (h : m.find? k = some v) : (k, v) ∈ m := by
    induction m with
    | nil => cases h
    | cons p m ih =>
      rw [Tab.find?] at h
      split at h
      · rename_i he; cases h; exact List.mem_cons.2 (.inl (by cases p; simp_all))
      · exact List.mem_cons_of_mem _ (ih h)
  cases hc : s.cores.find? c with
  | none =>
    rw [State.team?, State.core, Tab.getD, hc] at ht; cases ht
  | some k =>
    rw [State.team?, State.core, Tab.getD, hc] at ht
    have h1 := List.all_eq_true.1 (List.all_eq_true.1 h _ (mem hc)) _ (mem ht)
    simp [hr] at h1


/-! ## Witnesses: states and operands that meet the hypotheses of the statements -/

/-- A scalar instruction that reads S12, S14 and S16 and writes S10. -/
def sopW (ty : Ty) (mod : Nat) : SopF := { ty := ty, mod := mod, sd := 10, a := .s 12, b := .s 14, c := .s 16, la := 0 }

theorem witness_ScalarAddMultiplyLogic :
    (∃ x, base.issuesFor x (sopRegs (sopW .i64 0) 2 .i64)) ∧
    ∃ x, base.issuesFor x (sopRegs { sopW .i32 0 with sd := 1023, a := .imm 511, b := .imm 256 } 1 .i32) :=
  ⟨issues (by decide +kernel), issues (by decide +kernel)⟩

theorem witness_ScalarDivideHighProduct :
    let f := sopW .i32 0
    (∃ x, (sregs [(12, 7), (14, 2)]).issuesFor x (sopRegs f 1 .i32) ∧ x.opnd .i32 f.b ≠ 0) ∧
    (∃ x, base.issuesFor x (sopRegs f 1 .i32) ∧ x.opnd .i32 f.b = 0) ∧
    (∃ x, (sregs [(12, 0x80000000), (14, 0xFFFFFFFF)]).issuesFor x (sopRegs f 1 .i32) ∧
      x.opnd .i32 f.a = BitVec.intMin (tyBits .i32) ∧ x.opnd .i32 f.b = BitVec.allOnes (tyBits .i32)) ∧
    ∃ x, (sregs [(12, 0), (13, 0x80000000), (14, 0xFFFFFFFF), (15, 0xFFFFFFFF)]).issuesFor x (sopRegs (sopW .i64 0) 2 .i64) ∧
      x.opnd .i64 f.a = BitVec.intMin (tyBits .i64) ∧ x.opnd .i64 f.b = BitVec.allOnes (tyBits .i64) :=
  ⟨meets (by decide +kernel), meets (by decide +kernel), meets (by decide +kernel), meets (by decide +kernel)⟩

theorem witness_ScalarShiftCompareSelect :
    (∃ x, (sregs [(14, 64)]).issuesFor x (sopRegs (sopW .i64 0) 2 .b32) ∧ (x.opnd .b32 (.s 14)).toNat = 64) ∧
    (∃ x, (sregs [(16, 1)]).issuesFor x (sopRegs (sopW .n64 0) 2 .n64) ∧ x.opnd .b32 (.s 16) ≠ 0) ∧
    (∃ x, base.issuesFor x (sopRegs (sopW .i64 0) 1 .i64)) ∧ (sopW .i64 5).mod < 6 :=
  ⟨meets (by decide +kernel), meets (by decide +kernel), issues (by decide +kernel), by decide⟩

theorem witness_MoveImmediate :
    (1023 < 2 ^ 10 ∧ 2 ^ 32 - 1 < 2 ^ 32) ∧
    (bits (0x0080000000000008 : W64).toNat 63 54 = 2 ∧ bits (0x0080000000000008 : W64).toNat 3 0 ≠ 0) ∧
    (bits (0x0080008000000000 : W64).toNat 63 54 = 2 ∧ bits (0x0080008000000000 : W64).toNat 43 36 ≠ 0) ∧
    ∃ x, base.issuesFor x [.s 513 1] :=
  ⟨by decide, by decide, by decide, issues (by decide +kernel)⟩

theorem witness_BranchCallReturn :
    (∃ x, base.issuesFor x []) ∧ (∃ x, (sregs [(33, 0x80000000)]).issuesFor x [.s 33 1] ∧ (x.g.sreg 33).toInt < 0) ∧
    (∃ x, base.issuesFor x [.s 33 1] ∧ x.g.sreg 33 = 0) ∧ ∃ x, base.issuesFor x [.s 1022 2] :=
  ⟨issues (by decide +kernel), meets (by decide +kernel), meets (by decide +kernel), issues (by decide +kernel)⟩

/-- A team with a scratchpad of 64 KiB, and values in its group's S registers. -/
def padded (r : Tab W32) : State := (sregs r).onTeam 0 0 (fun t => { t with scratchSize := 65536 })

/-- An access of lane 0: four bytes at an address; a part of it alone. -/
def laneW (addr : Nat) : LaneAcc := { lane := 0, addr := addr, width := 4, data := 0x01020304, data2 := 0, got := 0 }
/-- See `laneW`. -/
def partW (st : PartSt) (xl : Option Xlat) : Part := { lanes := [laneW 0x1000], st := st, xl := xl }

/-- An operation of lane 0. -/
def opW (k : Machine.OpKind) (sp : OpSpace) (ord : Nat) (d : Dst) (parts : List Part) : Op :=
  { kind := k, space := sp, count := 0, path := 0, lanes := 1, pc := 8, scope := if ord = 0 then 0 else 5, ord := ord, ofr := false, dst := d,
    parts := parts, rejects := 0, fold := none, spoiled := false, touched := [], waits := [], closes := false, parkedAt := 0 }

/-- A state in which token 0 waits for an operation. -/
def fenced : State := grp (fun g => { g with tokens := [(0, .filled [{ op := 0, remote := false, lanes := 1 }] [])], ops := [(0, opW .load .global 0 .none [partW .ready none])], nextOp := 1 })

/-- A scratchpad with a valid object of generation 0 in its last 16 bytes. -/
def validObject : State := (padded [(4, 65520), (5, 0)]).onTeam 0 0 (fun t => { t with scratch := [(65520, 0x10)] })

theorem witness_NopWaitsAndYields :
    (∃ x, base.issuesFor x []) ∧
    (∃ x, (padded [(4, 65520), (5, 0)]).issuesFor x [.s 4 2] ∧ (x.g.sreg 4).toNat % 16 = 0 ∧ (x.g.sreg 4).toNat + 16 ≤ x.t.scratchSize ∧
      bits ((padded [(4, 65520), (5, 0)]).object x.a.core x.a.slot (x.g.sreg 4).toNat) 3 0 = (x.g.sreg 5).toNat % 16 ∧ x.whole = true ∧
      bits ((padded [(4, 65520), (5, 0)]).object x.a.core x.a.slot (x.g.sreg 4).toNat) 4 4 = 0) ∧
    (∃ x, validObject.issuesFor x [.s 4 2] ∧ (x.g.sreg 4).toNat % 16 = 0 ∧ (x.g.sreg 4).toNat + 16 ≤ x.t.scratchSize ∧
      bits (validObject.object x.a.core x.a.slot (x.g.sreg 4).toNat) 3 0 = (x.g.sreg 5).toNat % 16 ∧
      bits (validObject.object x.a.core x.a.slot (x.g.sreg 4).toNat) 4 4 = 1) ∧
    (∃ x, (padded [(4, 16), (5, 1)]).issuesFor x [.s 4 2] ∧ (x.g.sreg 4).toNat % 16 = 0 ∧ (x.g.sreg 4).toNat + 16 ≤ x.t.scratchSize ∧
      bits ((padded [(4, 16), (5, 1)]).object x.a.core x.a.slot (x.g.sreg 4).toNat) 3 0 ≠ (x.g.sreg 5).toNat % 16) ∧
    (∃ x, base.issuesFor x [] ∧ base.tokenDone x.g (0 % 8) = true) ∧ ∃ x, fenced.issuesFor x [] ∧ fenced.tokenDone x.g (0 % 8) = false := by
  refine ⟨?_, ?_, ?_, ?_, ?_, ?_⟩
  all_goals first | exact meets (by decide +kernel) | exact issues (by decide +kernel)

/-- A group of two paths, lanes 0 to 15 and 16 to 31. -/
def split : State := grp (fun g => { g with paths := [(0, Path.start 0xFFFF 8 0), (1, Path.start 0xFFFF0000 64 0)], nextPath := 2 })

theorem witness_SpecialRegisters :
    (∃ x, base.issuesFor x [.v 255 1]) ∧ (∃ x, base.issuesFor x [.s 6 2]) ∧
    (∃ x, base.issuesFor x [.s 3 1] ∧ (8, x.g.part) = ((8, 5) : Nat × Nat)) ∧ (∃ x, base.issuesFor x [] ∧ x.whole = true) ∧
    (∃ x, split.issuesFor x [] ∧ x.whole = false) ∧
    (∃ x, (sregs [(3, 0x1FFFF)]).issuesFor x [.s 3 1] ∧ (x.g.sreg 3).toNat < 2 ^ 17) ∧
    (∃ x, (sregs [(3, 0x20000)]).issuesFor x [.s 3 1] ∧ 2 ^ 17 ≤ (x.g.sreg 3).toNat) ∧
    (∃ x, (sregs [(3, 5)]).issuesFor x [.s 3 1] ∧ 1 ≤ (x.g.sreg 3).toNat ∧ (x.g.sreg 3).toNat ≤ 5 ∧ x.whole = true) ∧
    ∃ x, (sregs [(3, 6)]).issuesFor x [.s 3 1] ∧ 5 < (x.g.sreg 3).toNat := by
  refine ⟨?_, ?_, ?_, ?_, ?_, ?_, ?_, ?_, ?_⟩
  all_goals first | exact meets (by decide +kernel) | exact issues (by decide +kernel)

theorem witness_NestMovesToAndFromV : ∃ x, base.issuesFor x [.v 255 1] := issues (by decide +kernel)

/-- A group with a condition in V0: lane 0 alone is not zero. -/
def cond0 : State := grp (fun g => { g with v := [(0, 1)] })

theorem witness_IfElseEndifAndBrv :
    (∃ x, cond0.issuesFor x [.v 0 1] ∧ ∀ lane, lane < 32 → x.p.lanes.getLsbD lane = true → nestOf x.g.nest lane ≠ 15) ∧
    (∃ x, (grp (fun g => { g with nest := 15 })).issuesFor x [.v 0 1] ∧
      ∃ lane, lane < 32 ∧ x.p.lanes.getLsbD lane = true ∧ nestOf x.g.nest lane = 15) ∧
    (∃ x, base.issuesFor x []) ∧
    (∃ x, base.issuesFor x [.v 0 1] ∧ ∀ lane, lane < 32 → (0 : LaneSet).getLsbD lane = (x.act.getLsbD lane && decide (laneOf (x.g.vreg 0) lane ≠ 0))) ∧
    (∃ x, (cond0.onPath ⟨0, 0, 0, 0⟩ (fun p => { p with lanes := 1 })).issuesFor x [.v 0 1] ∧
      (∀ lane, lane < 32 → (1 : LaneSet).getLsbD lane = (x.act.getLsbD lane && decide (laneOf (x.g.vreg 0) lane ≠ 0))) ∧ x.p.lanes &&& ~~~1 = 0) ∧
    ∃ x, cond0.issuesFor x [.v 0 1] ∧
      (∀ lane, lane < 32 → (1 : LaneSet).getLsbD lane = (x.act.getLsbD lane && decide (laneOf (x.g.vreg 0) lane ≠ 0))) ∧
      x.p.lanes &&& ~~~1 ≠ 0 ∧ x.g.paths.find? x.g.nextPath = none := by
  refine ⟨?_, ?_, ?_, ?_, ?_, ?_⟩
  all_goals first | exact meets (by decide +kernel) | exact issues (by decide +kernel)

theorem witness_MarkWritesRejoinRegister : ∃ x, base.issuesFor x [] ∧ x.g.waiting 15 = [] ∧ x.p.lanes &&& x.g.exited = 0 :=
  meets (by decide +kernel)

theorem witness_EditRejoinRegisters :
    (∃ x, base.issuesFor x [] ∧ x.g.waiting 15 = []) ∧ (∃ x, base.issuesFor x [.s 1022 2] ∧ x.g.waiting 15 = []) ∧
    ∃ x, (sregs [(3, 0x1FFFF)]).issuesFor x [.s 3 1] ∧ x.g.waiting 0 = [] ∧ (x.g.sreg 3).toNat < 2 ^ 17 :=
  ⟨meets (by decide +kernel), meets (by decide +kernel), meets (by decide +kernel)⟩

/-- K0 names all lanes; in `joined`, the other path waits on it. -/
def joining : State := split.onGroup 0 0 0 (fun g => { g with k := [(0, { fmt := 0, pc := 128, mask := BitVec.allOnes 32 })] })
/-- See `joining`. -/
def joined : State := joining.onPath ⟨0, 0, 0, 1⟩ (fun p => { p with wait := .join 0 })

theorem witness_JoinAndExit :
    let here := fun (x : Ctx) => (x.g.paths.filter (fun p => p.1 = x.a.path || decide (p.2.wait = .join 0))).foldl (fun m p => m ||| p.2.lanes) (0 : LaneSet)
    (∃ x, joining.issuesFor x [] ∧ (x.g.kreg 0).mask &&& ~~~(here x) ≠ 0) ∧
    (∃ x, joined.issuesFor x [] ∧ (x.g.kreg 0).mask &&& ~~~(here x) = 0 ∧ x.g.paths.rising = true ∧ ∀ p ∈ x.g.paths, p.2.pend = none) ∧
    (∃ x, (idle base).issuesFor x [] ∧ x.act = 0) ∧
    (∃ x, (grp (fun g => { g with nest := 1 })).issuesFor x [] ∧ x.act ≠ 0 ∧ x.p.lanes &&& ~~~x.act ≠ 0 ∧ x.g.waiting 0 = []) ∧
    ∃ x, split.issuesFor x [] ∧ x.act ≠ 0 ∧ x.p.lanes &&& ~~~x.act = 0 ∧ x.g.paths.length ≠ 1 ∧ x.g.paths.rising = true ∧ x.g.waiting 0 = [] := by
  refine ⟨?_, ?_, ?_, ?_, ?_⟩
  all_goals exact meets (by decide +kernel)


/-- A translation of the first 2 MiB of memory for address space 0. -/
def page0 : TlbEntry :=
  { asid := 0, lg := 21, vpn := 0, pa := 0, key := 0, nomove := false, mng := false, uc := false, x := true, w := true, rd := true, u := true }
/-- A number as bytes of memory. -/
def bytesW (pa n v : Nat) : Tab Byte := (leBytes n v).zipIdx.map (fun p => (pa + p.2, p.1))
/-- The state with those bytes in memory, key slot 0 filled, and the translation of `page0` in the lookaside table of core 0. -/
def mapped (m : Tab Byte) (s : State) : State :=
  { s with mem := { s.mem with bytes := m }, keys := [(0, 0)] }.onCore 0 (fun k => { k with tlb := [page0] })
/-- Safe-point table at 0x1000: the handler at 0x2000, the frames at 0 of the scratchpad. -/
def trapping : State := (mapped (bytesW 0x1000 64 0x2000) (padded [])).onGrid 0 (fun g => { g with sptab := 0x1000 })
/-- A trap that is pending on the path. -/
def trapW : TrapReq := { cause := 0x12, detail := 200, addr := 0, pc := 16, inst := some 8, debug := 0 }

theorem witness_TrapEntry :
    (∃ s1 u g p h ord, canEnter ⟨0, 0, 0, 0⟩ trapW (trapping.pend ⟨0, 0, 0, 0⟩ trapW) s1 u g p h ∧ s1.trapOrd ⟨0, 0, 0, 0⟩ u p trapW = some ord) ∧
    ∃ x, trapping.issuesFor x [] ∧
      (let tr : TrapReq := { cause := 0x12, detail := 200, addr := 0, pc := x.p.pc + 8, inst := some x.p.pc, debug := 0 }
       ∃ s1 u g p h ord, canEnter x.a tr ((trapping.advance x.a).pend x.a tr) s1 u g p h ∧ s1.trapOrd x.a u p tr = some ord) ∧
      (let tr : TrapReq := { cause := 0x13, detail := 200, addr := 0, pc := x.p.pc, inst := none, debug := 1 }
       ∃ s1 u g p h ord, canEnter x.a tr (trapping.pend x.a tr) s1 u g p h ∧ s1.trapOrd x.a u p tr = some ord) :=
  ⟨⟨_, _, _, _, _, _, ⟨rfl, rfl, rfl, rfl, by decide +kernel, by decide +kernel, by decide +kernel, ⟨_, rfl, rfl⟩, by decide +kernel, ⟨rfl, rfl⟩, .inl rfl⟩, rfl⟩,
   _, ⟨rfl, rfl, rfl⟩,
   ⟨_, _, _, _, _, _, ⟨rfl, rfl, rfl, rfl, by decide +kernel, by decide +kernel, by decide +kernel, ⟨_, rfl, rfl⟩, by decide +kernel, ⟨rfl, rfl⟩, .inl rfl⟩, rfl⟩,
   _, _, _, _, _, _, ⟨rfl, rfl, rfl, rfl, by decide +kernel, by decide +kernel, by decide +kernel, ⟨_, rfl, rfl⟩, by decide +kernel, ⟨rfl, rfl⟩, .inl rfl⟩, rfl⟩

/-- A vector instruction that reads V6, V8 and V10 and writes V4. -/
def vopW (ty : Ty) (mod : Nat) : VopF := { ty := ty, mod := mod, vd := 4, a := .v 6, b := .v 8, c := .v 10, la := 0 }

theorem witness_VectorAddMultiply :
    let f := vopW .i64 16
    (∃ x, base.issuesFor x (Reg.v f.vd (tyRegs f.ty) :: srcRegs (vopSrcs f 3)) ∧ base.unfolded x x.vopWord (vopSrcs f 3) f.vd (tyRegs f.ty)) ∧
    ∃ x, base.issuesFor x (Reg.v 255 1 :: srcRegs (vopSrcs (vopW .i32 0) 2)) ∧ base.unfolded x x.vopWord (vopSrcs (vopW .i32 0) 2) 255 1 :=
  ⟨⟨_, ⟨rfl, rfl, rfl⟩, .inr rfl⟩, _, ⟨rfl, rfl, rfl⟩, .inr rfl⟩

theorem witness_VectorBitOperations :
    let f := vopW .n32 0
    let shift : List Src := [(f.a, f.ty), (f.b, .b32)]
    (∃ x, base.issuesFor x (Reg.v f.vd 1 :: srcRegs shift) ∧ base.unfolded x x.vopWord shift f.vd 1) ∧
    ∃ x, base.issuesFor x (Reg.v f.vd 1 :: srcRegs (vopSrcs f 1)) ∧ base.unfolded x x.vopWord (vopSrcs f 1) f.vd 1 :=
  ⟨⟨_, ⟨rfl, rfl, rfl⟩, .inr rfl⟩, _, ⟨rfl, rfl, rfl⟩, .inr rfl⟩

theorem witness_VectorCompareSelectIota :
    let f := vopW .i32 20
    (f.mod / 4 < 6 ∧ (vopW .i32 0).mod / 4 < 6) ∧
    (∃ x, base.issuesFor x (Reg.v f.vd 1 :: srcRegs (vopSrcs f 2)) ∧ base.unfolded x x.vopWord (vopSrcs f 2) f.vd 1) ∧
    ∃ x, base.issuesFor x (Reg.s 10 1 :: acrossRegs .i32 (.v 6) ++ uniRegs .i32 (.imm 31)) :=
  ⟨by decide, ⟨_, ⟨rfl, rfl, rfl⟩, .inr rfl⟩, _, rfl, rfl, rfl⟩

theorem witness_FloatOperations :
    let f := vopW .f64 0
    (tyFloat f.ty = true ∧ tyFloat .i32 = false) ∧
    (∃ x, base.issuesFor x (Reg.v f.vd 2 :: srcRegs (vopSrcs f 3)) ∧ base.unfolded x x.vopWord (vopSrcs f 3) f.vd 2) ∧
    ∃ x, base.issuesFor x (Reg.v 4 1 :: srcRegs (vopSrcs (vopW .i32 0) 3)) ∧ base.unfolded x x.vopWord (vopSrcs (vopW .i32 0) 3) 4 1 :=
  ⟨by decide, ⟨_, ⟨rfl, rfl, rfl⟩, .inr rfl⟩, _, ⟨rfl, rfl, rfl⟩, .inr rfl⟩

theorem witness_NumberFormats :
    let md : RMode := { ftz := false, rm := 0, satn := false }
    md.ftz = false ∧ 0x7F7FFFFF < 2 ^ fF32.width ∧ (fF32.decode false 0x7F7FFFFF).isNan = false ∧
      (fE5M2.decode false 0x7C).isNan = false ∧ (13 < 14 ∧ 3 < 4) := by decide +kernel

theorem witness_CrossLaneMoves :
    let f := { vopW .i32 8 with a := .v 6 }
    (f.mod / 4 < 3 ∧ (vopW .i32 0).mod / 4 < 3) ∧
    (∃ x, base.issuesFor x ([Reg.v f.vd 1] ++ srcRegs [(f.a, f.ty), (f.b, .b32), (f.c, f.ty)] ++ acrossRegs f.ty f.a) ∧
      base.unfolded x x.vopWord [(f.a, f.ty), (f.b, .b32), (f.c, f.ty)] f.vd 1) ∧
    ∃ x, base.issuesFor x (Reg.v f.vd 1 :: srcRegs [(f.a, .b32)]) ∧ base.unfolded x x.vopWord [(f.a, .b32)] f.vd 1 :=
  ⟨by decide, ⟨_, ⟨rfl, rfl, rfl⟩, .inr rfl⟩, _, ⟨rfl, rfl, rfl⟩, .inr rfl⟩

theorem witness_CrossLaneReduceScanCompareExchange :
    let f := vopW .i32 0
    (∃ x, base.issuesFor x (Reg.v f.vd 1 :: opRegs f.ty f.a) ∧ base.unfolded x x.vopWord (vopSrcs f 1) f.vd 1) ∧
    ∃ x, base.issuesFor x (Reg.v f.vd 2 :: srcRegs [(f.a, .b64), (f.b, .b32), (f.c, .b32)]) ∧
      base.unfolded x x.vopWord [(f.a, .b64), (f.b, .b32), (f.c, .b32)] f.vd 2 :=
  ⟨⟨_, ⟨rfl, rfl, rfl⟩, .inr rfl⟩, _, ⟨rfl, rfl, rfl⟩, .inr rfl⟩

/-- A quarter whose fold table holds VADD of `vopW` with zeros, and its context. -/
def folding : State :=
  match base.ctx? with
  | some x => base.onQuarter 0 0 (fun q => { q with folds := [{
      key := x.foldKey x.vopWord (vopSrcs (vopW .i32 0) 2) 4 1, names := [0], vals := [0], flags := 1, secs := [] }] })
  | none => base

theorem witness_FoldRetiresFromEntry :
    let f := vopW .i32 0
    ∃ x e q v, folding.issuesFor x (Reg.v f.vd 1 :: srcRegs (vopSrcs f 2)) ∧ tyRegs f.ty = 1 ∧ x.p.hdr.nofold = false ∧
      ((folding.core x.a.core).quarter x.g.quarter).lookup (x.foldKey x.vopWord (vopSrcs f 2) f.vd 1) = some (e, q) ∧
      (e.flags ≠ 0 ∧ trappingFlag x.g.gstat e.flags.toNat = none ∧ e.flags.getLsbD 5 = false) ∧ e.vals = [v] ∧ e.names.length = 1 ∧
      e.names.all (fun r => (q.share r).isSome) = true :=
  ⟨_, _, _, _, ⟨rfl, rfl, rfl⟩, rfl, rfl, rfl, by decide +kernel, rfl, rfl, rfl⟩

/-- VCVT.F32.F16, VUNPACK.I8.I4, a conversion to a block format, and one from it. -/
def vcvW (d s ps : Nat) : VcvF := { dfmt := d, sfmt := s, vd := 4, a := .v 6, b := .v 8, rmo := false, rm := 0, sat := false, ps := ps }

theorem witness_Conversions :
    (let srcs : List Src := [(.v 6, fmtTy 1)]
     (∃ x, base.issuesFor x (vcvRegs (vcvW 0 1 0) srcs 1 (x.p.fmt.getLsbD 4)) ∧ base.unfolded x x.vcvWord srcs 4 1 ∧ VcvSpec.pairOk .vcvt 0 1 = true) ∧
     (∃ x, base.issuesFor x (vcvRegs (vcvW 0 1 0) srcs 1 true) ∧ base.unfolded x x.vcvWord srcs 4 1) ∧
     ∃ x, base.issuesFor x (vcvRegs (vcvW 0 1 0) srcs 1 false) ∧ base.unfolded x x.vcvWord srcs 4 1) ∧
    (VcvSpec.pairOk .vcvt 12 1 = false ∧ VcvSpec.pairOk .vcvts 0 12 = false ∧ VcvSpec.pairOk .vpack 12 10 = true ∧ VcvSpec.pairOk .vpack 12 0 = false) ∧
    (∃ d s, d ≠ 12 ∧ isBlock d = true ∧ VcvSpec.pairOk .vpack d s = true) ∧
    (∃ d s, s ≠ 12 ∧ isBlock s = true ∧ VcvSpec.pairOk .vunpack d s = true) ∧
    (VcvSpec.pairOk .vpack 0 1 = false ∧ VcvSpec.pairOk .vunpack 0 1 = false) ∧
    (∃ x, base.issuesFor x (vcvRegs (vcvW 6 0 0) [(.v 6, .f32)] 2 true) ∧ base.unfolded x x.vcvWord [(.v 6, .f32)] 4 2) ∧
    ∃ x, base.issuesFor x (vcvRegs (vcvW 0 6 0) [(.v 6, .b64)] 1 false) ∧ base.unfolded x x.vcvWord [(.v 6, .b64)] 4 1 :=
  ⟨⟨⟨_, ⟨rfl, rfl, rfl⟩, .inr rfl, rfl⟩, ⟨_, ⟨rfl, rfl, rfl⟩, .inr rfl⟩, _, ⟨rfl, rfl, rfl⟩, .inr rfl⟩, by decide, ⟨6, 0, by decide⟩, ⟨0, 6, by decide⟩, by decide, ⟨_, ⟨rfl, rfl, rfl⟩, .inr rfl⟩,
    _, ⟨rfl, rfl, rfl⟩, .inr rfl⟩


/-- LD or ST of V8, base S6; LDS or STS with base S6. -/
def memW (ord : Nat) : MemF :=
  { ty := .b32, scope := if ord = 0 then 0 else 4, ord := ord, ofr := false, vr := 8, sb := 6, vx := 9, xv := true, off := 8188, la := 0 }
/-- A phase region over the first 4 KiB. -/
def phaseW : Phase := { base := 0, size := 4096, bytes := [], written := [], pois := [] }
/-- A state with that region. -/
def phased (r : Tab W32) : State := (padded r).onTeam 0 0 (fun t => { t with phases := [phaseW] })

theorem witness_GlobalAccessesBegin :
    let acc := fun (x : Ctx) l => laneAccess l (x.base 6 9 true l + (BitVec.ofNat 13 8188).toInt) 4 0 0
    let active := fun (x : Ctx) l => l < 32 ∧ x.act.getLsbD l = true
    (∃ x, (idle base).issuesFor x (memRegs (memW 0) true) ∧ x.act = 0) ∧
    (∃ x, base.issuesFor x (memRegs (memW 0) true) ∧ x.act ≠ 0 ∧ (∀ l, l < 32 → x.act.getLsbD l = true → (acc x l).addr % (acc x l).width = 0)) ∧
    (∃ x, (sregs [(6, 1)]).issuesFor x (memRegs (memW 0) true) ∧ active x 0 ∧ (acc x 0).addr % (acc x 0).width ≠ 0) ∧
    (∃ x, (phased [(6, 4)]).issuesFor x (memRegs (memW 1) true) ∧ active x 0 ∧ (memW 1).ord ≠ 0 ∧ 3 ≤ (memW 1).scope ∧
      (x.t.phaseAt (acc x 0).addr).isSome = true ∧ (acc x 0).addr % (acc x 0).width = 0) ∧
    (∃ x, base.issuesFor x [.s 10 2, .s 6 2]) ∧
    (∃ x, base.issuesFor x ([Reg.v 4 1, Reg.s 6 2] ++ [Reg.v 9 1] ++ casRegs 7 1 8 Reg.v)) ∧
    ∃ x, base.issuesFor x ([Reg.s 10 2, Reg.s 6 2] ++ casRegs 7 2 8 Reg.s) :=
  ⟨meets (by decide +kernel), meets (by decide +kernel), meets (by decide +kernel), meets (by decide +kernel), issues (by decide),
    issues (by decide), issues (by decide)⟩

/-- A fold table that holds LDR of `memW` at 0 as loaded. -/
def ldrFold : State :=
  match (sregs [(6, 4)]).ctx? with
  | some x => (sregs [(6, 4)]).onQuarter 0 0 (fun q => { q with folds := [{ key := x.ldrKey (memW 0), names := [0], vals := [0], flags := 0, secs := [] }] })
  | none => base

theorem witness_LdrBeginsOrFolds :
    let acc := fun (x : Ctx) l => laneAccess l (x.base 6 9 true l + (BitVec.ofNat 13 8188).toInt) 4 0 0
    let aligned := fun (x : Ctx) => ∀ l, l < 32 → x.act.getLsbD l = true → (acc x l).addr % 4 = 0
    (∃ x, (idle base).issuesFor x (memRegs (memW 0) true) ∧ x.act = 0) ∧
    (∃ x, (sregs [(6, 1)]).issuesFor x (memRegs (memW 0) true) ∧ x.act.getLsbD 0 = true ∧ (acc x 0).addr % 4 ≠ 0) ∧
    (∃ x, base.issuesFor x (memRegs (memW 1) true) ∧ (memW 1).ord ≠ 0) ∧
    (∃ x, base.issuesFor x (memRegs { memW 0 with ty := .f64 } true) ∧ 2 < regsOf (memWidth .f64) ∧ regsOf (memWidth .b64) ≤ 2) ∧
    (∃ x, (phased [(6, 4)]).issuesFor x (memRegs (memW 0) true) ∧ ∃ l, l < 32 ∧ x.act.getLsbD l = true ∧ (x.t.phaseAt (acc x l).addr).isSome = true) ∧
    (∃ x, (sregs [(6, 4)]).issuesFor x (memRegs (memW 0) true) ∧ x.p.hdr.nofold = false ∧ x.act ≠ 0 ∧ aligned x ∧
      (∀ l, l < 32 → ¬(x.act.getLsbD l = true ∧ (x.t.phaseAt (acc x l).addr).isSome = true)) ∧
      (x.ldrHit (sregs [(6, 4)]) (x.loadOp (memW 0)) (x.ldrKey (memW 0))).isNone = true) ∧
    ∃ x, ldrFold.issuesFor x (memRegs (memW 0) true) ∧ x.p.hdr.nofold = false ∧ x.act ≠ 0 ∧ aligned x ∧
      (∀ l, l < 32 → ¬(x.act.getLsbD l = true ∧ (x.t.phaseAt (acc x l).addr).isSome = true)) ∧
      (x.ldrHit ldrFold (x.loadOp (memW 0)) (x.ldrKey (memW 0))).map (fun p => (p.1.vals, p.1.names.length)) = some ([0], 1) := by
  refine ⟨?_, ?_, ?_, ?_, ?_, ?_, ?_⟩
  all_goals exact meets (by decide +kernel)

theorem witness_ScratchpadAccessesBegin :
    let f := { memW 0 with off := 0 }
    let addr := fun (x : Ctx) l => (((x.g.sreg 6).toNat : Int) + (laneOf (x.g.vreg 9) l).toNat + 0) % 2 ^ 32
    let is := fun (s : State) (P : Ctx → Prop) => ∃ x c sl u, s.issuesFor x (memRegs f false) ∧ x.pad s f = some (c, sl) ∧ s.team? c sl = some u ∧
      u.scratchSize = x.t.scratchSize ∧ P x
    is (idle (padded [])) (fun x => x.act = 0) ∧
    is (padded [(6, 65532)]) (fun x => x.act ≠ 0 ∧ ∀ l, l < 32 → (addr x l).toNat % 4 = 0 ∧ (addr x l).toNat + 4 ≤ x.t.scratchSize) ∧
    is (padded [(6, 65533)]) (fun x => x.act.getLsbD 0 = true ∧ (addr x 0).toNat % 4 ≠ 0) ∧
    is (padded [(6, 65536)]) (fun x => x.act.getLsbD 0 = true ∧ (addr x 0).toNat % 4 = 0 ∧ ¬(addr x 0).toNat + 4 ≤ x.t.scratchSize) :=
  ⟨⟨_, _, _, _, ⟨rfl, rfl, rfl⟩, rfl, rfl, rfl, by decide +kernel⟩, ⟨_, _, _, _, ⟨rfl, rfl, rfl⟩, rfl, rfl, rfl, by decide +kernel⟩,
    ⟨_, _, _, _, ⟨rfl, rfl, rfl⟩, rfl, rfl, rfl, by decide +kernel⟩, ⟨_, _, _, _, ⟨rfl, rfl, rfl⟩, rfl, rfl, rfl, by decide +kernel⟩⟩

/-- A copy engine with 256 copies, and one with none. -/
def copyW : CopyOp :=
  { kind := .gs, q := 0, slot := 0, group := 0, asid := 0, sup := true, src := 0, dst := 0, peer := (0, 0), size := 16, tag := none, work := 1,
    units := [], arrived := 0, counted := 0, parked := false, err := false, leave := 0, staleSent := false, stores := [] }
/-- See `copyW`. -/
def queued (o : CopyOp) (n : Nat) : State := { base with nextWork := 2 }.onCore 0 (fun k => { k with copies := (List.range n).map (fun i => (i, o)), nextCopy := n })

/-- Token 0 covers what is over. -/
def done_ : State := grp (fun g => { g with tokens := [(0, .filled [{ op := 7, remote := true, lanes := 1 }] [1])] })
/-- One in which it waits for tasks. -/
def tasking : State := grp (fun g => { g with tokens := [(0, .tasks 1)] })

theorem witness_FencesAndTokens :
    (∃ x, (idle base).issuesFor x [] ∧ x.act = 0) ∧
    (∃ x, fenced.issuesFor x [] ∧ x.act ≠ 0 ∧ x.g.ops.rising = true) ∧
    (∃ x, base.issuesFor x [] ∧ x.act ≠ 0 ∧ x.g.token 7 = .free) ∧
    (∃ x, fenced.issuesFor x [] ∧ x.g.token 0 = .filled [{ op := 0, remote := false, lanes := 1 }] [] ∧
      (x.g.ops.find? 0).map (fun o => o.parts.any (fun p => decide (p.laneSet &&& 1 ≠ 0) && !o.completed p)) = some true) ∧
    (∃ x, done_.issuesFor x [] ∧ x.g.token 0 = .filled [{ op := 7, remote := true, lanes := 1 }] [1] ∧ x.g.ops.find? 7 = none ∧
      done_.workDone 1 = true) ∧
    (∃ x, tasking.issuesFor x [] ∧ x.g.token 0 = .tasks 1 ∧ tasking.workDone 1 = true) ∧
    (∃ x, { tasking with works := [(1, 1)] }.issuesFor x [] ∧ x.g.token 0 = .tasks 1 ∧ { tasking with works := [(1, 1)] }.workDone 1 = false) ∧
    (∃ x, (queued copyW 256).issuesFor x [] ∧ x.act ≠ 0 ∧ (queued copyW 256).mayCopy x.a = false) ∧
    (∃ x, (queued copyW 255).issuesFor x [] ∧ x.act ≠ 0 ∧ (queued copyW 255).mayCopy x.a = true ∧
      ((queued copyW 255).core x.a.core).copies.rising = true ∧
      ((queued copyW 255).core x.a.core).copies.all (fun e => decide (e.2.work ≠ (queued copyW 255).nextWork)) = true ∧
      ((queued copyW 255).core x.a.core).copies.any (fun e => decide (e.1 < ((queued copyW 255).core x.a.core).nextCopy) && bit 1 e.2.q) = true) ∧
    ∃ x, base.issuesFor x [] ∧ x.act ≠ 0 ∧ base.mayCopy x.a = true ∧ (base.core x.a.core).copies = [] := by
  refine ⟨?_, ?_, ?_, ?_, ?_, ?_, ?_, ?_, ?_, ?_⟩
  all_goals exact meets (by decide +kernel)

/-- A team with eight regions from 1 MiB up, or with one of 16 MiB less 256 bytes there. -/
def regions (n size : Nat) (r : Tab W32) : State :=
  (padded r).onTeam 0 0 (fun t => { t with phases := (List.range n).map (fun i => { phaseW with base := 2 ^ 20 + i * size, size := size }) })

/-- A move of the page at 0 is under way. -/
def moved (s : State) : State :=
  { s with moves := [(0, { asid := 0, va := 0, lg := 12, old := 0, new := 0x100000000, key := 0, piece := 0, map := 0, frozen := false, copied := false })] }

theorem witness_PhaseAndPublish :
    let is := fun (s : State) (P : Ctx → Nat → Nat → Nat → Prop) => ∃ x, s.issuesFor x [.s 10 1, .s 4 2, .s 6 1] ∧
      P x ((x.g.spair 4).toNat % 2 ^ 57) (x.g.sreg 6).toNat (((s.core x.a.core).slots.map (fun t => (t.2.phases.map (fun p => p.size)).sum)).sum)
    let ok := fun (base size : Nat) => base % 256 = 0 ∧ size % 256 = 0 ∧ size ≠ 0
    let meet := fun (x : Ctx) (base size : Nat) => ∃ p ∈ x.t.phases, base < p.base + p.size ∧ p.base < base + size
    let s := mapped [] (regions 0 0 [(4, 512), (6, 256)])
    is (idle base) (fun x _ _ _ => x.act = 0) ∧
    is (sregs [(4, 512), (6, 128)]) (fun x b z _ => x.act ≠ 0 ∧ ¬ok b z) ∧
    is (regions 8 256 [(4, 0), (6, 256)]) (fun x b z _ => x.act ≠ 0 ∧ ok b z ∧ 8 ≤ x.t.phases.length) ∧
    is (regions 7 256 [(4, 0x100600), (6, 256)]) (fun x b z _ => x.act ≠ 0 ∧ ok b z ∧ x.t.phases.length < 8 ∧ meet x b z) ∧
    is (regions 1 (2 ^ 24 - 256) [(4, 0), (6, 512)]) (fun x b z u => x.act ≠ 0 ∧ ok b z ∧ x.t.phases.length < 8 ∧ ¬meet x b z ∧ 2 ^ 24 < u + z) ∧
    is (moved s) (fun x b z u => x.act ≠ 0 ∧ ok b z ∧ x.t.phases.length < 8 ∧ ¬meet x b z ∧ u + z ≤ 2 ^ 24 ∧
      onMove (moved s) x.t.asid b z = true) ∧
    is s (fun x b z u => x.act ≠ 0 ∧ ok b z ∧ x.t.phases.length < 8 ∧ ¬meet x b z ∧ u + z ≤ 2 ^ 24 ∧ onMove s x.t.asid b z = false ∧
      (s.rangeFault x.a x.t.asid x.t.sup (ceilDiv (b % 4096 + z) 4096) (b / 4096 * 4096)).1 = none) ∧
    (∃ x, base.issuesFor x [.s 4 2] ∧ ∀ p ∈ x.t.phases, p.base ≠ (x.g.spair 4).toNat % 2 ^ 57) ∧
    ∃ x, (phased []).issuesFor x [.s 4 2] ∧ x.act ≠ 0 ∧ ∃ p ∈ x.t.phases, p.base = (x.g.spair 4).toNat % 2 ^ 57 ∧
      ∀ q ∈ x.t.phases, q.base = (x.g.spair 4).toNat % 2 ^ 57 → q = p := by
  refine ⟨?_, ?_, ?_, ?_, ?_, ?_, ?_, ?_, ?_⟩
  all_goals exact meets (by decide +kernel)


/-- A team whose scratchpad holds a barrier object at 0: VALID, GEN 15, EXP and PEND n, and `busy` units to come. -/
def barred (n busy : Nat) (r : Tab W32) : State :=
  (padded r).onTeam 0 0 (fun t => { t with scratch := bytesW 0 16 (15 + 2 ^ 4 + 2 ^ 8 * n + 2 ^ 20 * n + 2 ^ 32 * busy) })

theorem witness_BarrierInstructions :
    let okAt := fun (x : Ctx) => (x.g.sreg 4).toNat % 16 = 0 ∧ (x.g.sreg 4).toNat + 16 ≤ x.t.scratchSize
    let is := fun (s : State) (regs : List Reg) (P : Ctx → Nat → Prop) => ∃ x, s.issuesFor x regs ∧
      x.objAt s (x.g.sreg 4).toNat none = .ok x.a.core x.a.slot (x.g.sreg 4).toNat ∧ P x (s.object x.a.core x.a.slot (x.g.sreg 4).toNat)
    (∃ x, (idle base).issuesFor x [.s 4 1] ∧ x.act = 0) ∧
    (∃ x, (padded [(4, 8)]).issuesFor x [.s 4 1] ∧ x.act ≠ 0 ∧ (x.g.sreg 4).toNat % 16 ≠ 0) ∧
    (∃ x, (padded [(4, 65536)]).issuesFor x [.s 4 1] ∧ x.act ≠ 0 ∧ (x.g.sreg 4).toNat % 16 = 0 ∧ x.t.scratchSize < (x.g.sreg 4).toNat + 16) ∧
    (∃ x, (padded [(4, 65520)]).issuesFor x [.s 4 1] ∧ x.act ≠ 0 ∧ okAt x ∧ 4095 < 2 ^ 12 ∧ ((padded [(4, 65520)]).core x.a.core).waiters = []) ∧
    is (barred 1 0 []) [.s 10 1, .s 4 1] (fun x o => x.act ≠ 0 ∧ x.settled = true ∧ bit o 4 = true ∧ 1 = bits o 31 20 ∧ bits o 63 32 = 0 ∧ bits o 95 64 = 0) ∧
    is (barred 4095 1 []) [.s 10 1, .s 4 1] (fun x o => x.act ≠ 0 ∧ x.settled = true ∧ bit o 4 = true ∧ 4095 = bits o 31 20 ∧ bits o 63 32 ≠ 0) ∧
    is (fenced.onTeam 0 0 (fun t => { t with scratchSize := 16 })) [.s 10 1, .s 4 1] (fun x _ => x.act ≠ 0 ∧ x.settled = false) ∧
    is (barred 1 0 [(5, 31)]) [.s 4 1, .s 5 1] (fun x o => bits o 3 0 = (x.g.sreg 5).toNat % 16) ∧
    is (barred 1 0 [(5, 0)]) [.s 4 1, .s 5 1] (fun x o => bits o 3 0 ≠ (x.g.sreg 5).toNat % 16) :=
  ⟨meets (by decide +kernel), meets (by decide +kernel), meets (by decide +kernel), meets (by decide +kernel),
    ⟨_, ⟨rfl, rfl, rfl⟩, by rfl, by decide +kernel⟩, ⟨_, ⟨rfl, rfl, rfl⟩, by rfl, by decide +kernel⟩, ⟨_, ⟨rfl, rfl, rfl⟩, by rfl, by decide +kernel⟩,
    ⟨_, ⟨rfl, rfl, rfl⟩, by rfl, by decide +kernel⟩, ⟨_, ⟨rfl, rfl, rfl⟩, by rfl, by decide +kernel⟩⟩

/-- A core with n cache blocks beside its FIFO block 15, which holds k entries; a block that is on its way to another mode. -/
def fifoW (n k : Nat) : State :=
  (sregs [(4, 15)]).onCore 0 (fun c => { c with
    blocks := (List.range 15).filterMap (fun b => if b < n then none else some (b, .scratch)) ++ [(15, .fifo)],
    fifos := [(15, { owner := 0, entries := List.replicate k (1, false), waiting := [] })] })
/-- The group of path 0 has an instruction in flight that will write S register `sd` once a work is over. -/
def waiting (sd w : Nat) (s : State) : State :=
  s.onGroup 0 0 0 (fun g => { g with ops := [(0, { opW .mangle .global 0 (.s sd .b32) [partW .acked none] with waits := [w] })], nextOp := 1 })
/-- See `fifoW`. -/
def switchW (w : Switching) : State := base.onCore 0 (fun c => { c with blocks := [(14, .switching)], switching := [(14, w)] })

/-- An instruction of a FIFO that nothing waits for issues in a state, whose context and FIFO meet a condition. -/
theorem meetsFifo {s : State} {regs : List Reg} {sa : Nat} {P : Ctx → Nat → Fifo → Prop} [∀ x b, DecidablePred (P x b)]
    (h : (match s.ctx? with
      | some x => match x.fifo s sa with
        | some (b, q) => decide (regs.all x.regOk = true ∧ x.stall s regs = none ∧ q.waiting = [] ∧ P x b q)
        | none => false
      | none => false) = true) : ∃ x b q, s.issuesFor x regs ∧ x.fifo s sa = some (b, q) ∧ q.waiting = [] ∧ P x b q := by
  cases hx : s.ctx? with
  | none => simp [hx] at h
  | some x =>
    cases hf : x.fifo s sa with
    | none => simp [hx, hf] at h
    | some v =>
      simp only [hx, hf, decide_eq_true_eq] at h
      exact ⟨x, v.1, v.2, ⟨hx, h.1, h.2.1⟩, hf, h.2.2.1, h.2.2.2⟩

theorem witness_SramBlocksAndFifos :
    let is := fun (s : State) (P : Ctx → Nat → Fifo → Prop) => ∃ x b q, s.issuesFor x [.v 8 2, .s 4 1] ∧ x.fifo s 4 = some (b, q) ∧ q.waiting = [] ∧ P x b q
    (∃ x, (idle base).issuesFor x [.s 10 1] ∧ x.act = 0) ∧
    (∃ x, (fifoW 2 0).issuesFor x [.s 10 1] ∧ x.act ≠ 0 ∧ ((fifoW 2 0).core x.a.core).cacheBlocks.length ≤ ((fifoW 2 0).core x.a.core).cacheMin) ∧
    (∃ x, (fifoW 3 0).issuesFor x [.s 10 1] ∧ x.act ≠ 0 ∧ ((fifoW 3 0).core x.a.core).cacheMin < ((fifoW 3 0).core x.a.core).cacheBlocks.length ∧
      ((fifoW 3 0).core x.a.core).cacheBlocks.getLast? = some 2) ∧
    (∃ x, base.issuesFor x [.s 4 1] ∧ x.act ≠ 0 ∧ (x.fifo base 4).isNone = true) ∧
    (∃ x, base.issuesFor x [.v 8 2, .s 4 1] ∧ (x.fifo base 4).isNone = true) ∧
    is (fifoW 2 382) (fun x _ q => x.act ≠ 0 ∧ q.entries.length + 2 ≤ 384) ∧ is (fifoW 2 383) (fun _ _ q => 384 < q.entries.length + 2) ∧
    is (fifoW 2 2) (fun _ _ q => 2 ≤ q.entries.length ∧ ∀ e ∈ q.entries.take 2, e.2 = false) ∧ is (fifoW 2 1) (fun _ _ q => q.entries.length < 2) ∧
    (∃ w, ((switchW { toFifo := false, released := false, waits := [], asker := none }).core 0).switching.find? 14 = some w ∧ w.released = false) ∧
    (∃ w, ((switchW { toFifo := false, released := true, waits := [], asker := none }).core 0).switching.find? 14 = some w ∧ w.released = true ∧
      w.waits.all base.workDone = true ∧ w.toFifo = false ∧
      ((switchW { toFifo := false, released := true, waits := [], asker := none }).core 0).shrinkDue = false) ∧
    (let s := (waiting 10 5 (switchW { toFifo := true, released := true, waits := [], asker := some (⟨0, 0, 0, 0⟩, 5) })).onPath ⟨0, 0, 0, 0⟩ (fun p => { p with wait := .work 5 })
     ∃ w a v g id o, (s.core 0).switching.find? 14 = some w ∧ w.released = true ∧ w.waits.all s.workDone = true ∧ w.toFifo = true ∧
      w.asker = some (a, v) ∧ s.waitedWork a = some v ∧ s.group? a.core a.slot a.group = some g ∧ s.pendingOf a v = some (id, o) ∧
      o.dst = .s 10 .b32 ∧ a.core = 0 ∧ (s.core 0).switching.all (fun p => decide (p.1 ≤ 14)) = true) := by
  refine ⟨meets (by decide +kernel), meets (by decide +kernel), meets (by decide +kernel), meets (by decide +kernel), meets (by decide +kernel),
    meetsFifo (by decide +kernel), meetsFifo (by decide +kernel), ?_, meetsFifo (by decide +kernel),
    ⟨_, rfl, rfl⟩, ⟨_, rfl, rfl, rfl, rfl, rfl⟩, ⟨_, _, _, _, _, _, rfl, rfl, rfl, rfl, rfl, rfl, rfl, rfl, rfl, rfl, by decide +kernel⟩⟩
  obtain ⟨x, b, q, h1, h2, h3, h4, h5⟩ := meetsFifo (s := fifoW 2 2) (regs := [.v 8 2, .s 4 1]) (sa := 4)
    (P := fun _ _ q => 2 ≤ q.entries.length ∧ (q.entries.take 2).all (fun e => !e.2) = true) (by decide +kernel)
  exact ⟨x, b, q, h1, h2, h3, h4, fun e he => by simpa using List.all_eq_true.mp h5 e he⟩

/-- CPY.GS, SG and SR with a size in S8 and the object that S9 names. -/
def cpyW (bv : Bool) : CpyF := { qn := 7, kind := 0, sa := 2, sb := 4, sz := .s 8, so := 9, bv := bv, la := 0 }
/-- A second team of the same cluster on core 1, rank 1. -/
def cluster (s : State) : State :=
  match s.team? 0 0 with
  | some t => s.onCore 1 (fun k => { k with slots := [(0, { t with rank := 1 })] })
  | none => s

theorem witness_CopyInstructionsEnterQueue :
    let size := fun (x : Ctx) => (x.g.sreg 8).toNat
    (∃ x, (idle base).issuesFor x (cpyRegs (cpyW true) 1 2) ∧ x.act = 0) ∧
    (∃ x, (barred 1 0 [(2, 64), (8, 2 ^ 15), (9, 0)]).issuesFor x (cpyRegs (cpyW true) 1 2) ∧ x.act ≠ 0 ∧
      x.copyable (barred 1 0 [(2, 64), (8, 2 ^ 15), (9, 0)]) .gs 0 64 (size x) (x.a.core, x.a.slot) (some 0)) ∧
    (∃ x, (padded [(8, 16)]).issuesFor x (cpyRegs (cpyW false) 2 2) ∧ x.act ≠ 0 ∧ x.copyable (padded [(8, 16)]) .gg 0 0 (size x) (x.a.core, x.a.slot) none) ∧
    (∃ x, (padded [(8, 2 ^ 24)]).issuesFor x (cpyRegs (cpyW false) 0 2) ∧ x.act ≠ 0 ∧
      x.copyable (padded [(8, 2 ^ 24)]) .pref 0 0 (size x) (x.a.core, x.a.slot) none) ∧
    (∃ x, (padded [(8, 2 ^ 24 + 16)]).issuesFor x (cpyRegs (cpyW false) 1 2) ∧ x.act ≠ 0 ∧ 2 ^ 24 < size x) ∧
    (∃ x, (padded [(8, 8)]).issuesFor x (cpyRegs (cpyW false) 1 2) ∧ x.act ≠ 0 ∧ size x % 16 ≠ 0) ∧
    (∃ x, (padded [(4, 8), (8, 16)]).issuesFor x (cpyRegs (cpyW false) 1 2) ∧ x.act ≠ 0 ∧ (x.g.sreg 4).toNat % 16 ≠ 0) ∧
    ∃ x peer, (cluster (padded [(5, 1), (8, 16)])).issuesFor x (cpyRegs (cpyW false) 1 2) ∧ x.act ≠ 0 ∧ (x.g.sreg 5).toNat ≠ x.t.rank ∧
      clusterPeer (cluster (padded [(5, 1), (8, 16)])) x.t.grid x.t.cluster (x.g.sreg 5).toNat = some peer ∧
      x.copyable (cluster (padded [(5, 1), (8, 16)])) .sr 0 0 (size x) peer none ∧ x.copyable (cluster (padded [(5, 1), (8, 16)])) .rs 0 0 (size x) peer none := by
  refine ⟨meets (by decide +kernel), ⟨_, ⟨rfl, rfl, rfl⟩, by decide +kernel, ?_⟩, ⟨_, ⟨rfl, rfl, rfl⟩, by decide +kernel, ?_⟩,
    ⟨_, ⟨rfl, rfl, rfl⟩, by decide +kernel, ?_⟩, meets (by decide +kernel), meets (by decide +kernel), meets (by decide +kernel),
    ⟨_, (1, 0), ⟨rfl, rfl, rfl⟩, by decide +kernel, by decide +kernel, rfl, ?_, ?_⟩⟩
  · refine ⟨?_, ?_, ?_, ?_, ?_, ?_, ?_, fun off h => ?_, ?_⟩
    case refine_8 => cases h; decide +kernel
    all_goals decide +kernel
  all_goals
    refine ⟨?_, ?_, ?_, ?_, ?_, ?_, ?_, fun off h => ?_, ?_⟩
    case refine_8 => cases h
    all_goals decide +kernel


theorem witness_CopyEngineSteps :
    (∃ x, (idle base).issuesFor x [] ∧ x.act = 0) ∧
    (∃ x, base.issuesFor x [] ∧ x.act ≠ 0 ∧ x.p.wait = .none ∧ x.grid.sched.zipIdx.any (fun _ => true) = false) ∧
    (∃ x, ((base.onTeam 0 0 (fun t => { t with stage := 0xFFFF })).onGrid 0 (fun g => { g with sched := [2 ^ 200 * 1 + 2 ^ 216 * 1] })).issuesFor x [] ∧
      x.t.stage = 0xFFFF ∧ x.act ≠ 0) ∧
    (∃ o u, ((queued { copyW with kind := .sg, src := 16 } 1).core 0).copies.find? 0 = some o ∧
      canStart ((queued { copyW with kind := .sg, src := 16 } 1).core 0) 0 o = true ∧ o.kind.fromScratch = true ∧
      (queued { copyW with kind := .sg, src := 16 } 1).team? (o.srcPad 0).1 (o.srcPad 0).2 = some u ∧ (o.srcSpan 0).1 < o.size ∧ (o.srcSpan 0).2 ≠ 0 ∧
      o.stores = []) ∧
    (let s := queued { copyW with units := [(0, .held (bytesW 0 16 5) [])] } 1
     ∃ o d u, (s.core 0).copies.find? 0 = some o ∧ canStart (s.core 0) 0 o = true ∧ o.kind.toScratch = true ∧
      o.units.find? 0 = some (.held d []) ∧ (o.unitSpan 0).2 ≤ d.length ∧ d.rising = true ∧ s.team? (o.dstPad 0).1 (o.dstPad 0).2 = some u) ∧
    (∃ o, ((queued { copyW with arrived := 1 } 1).core 0).copies.find? 0 = some o ∧ o.arrived ≠ 0 ∧ o.total ≤ o.counted + o.arrived) ∧
    ∃ o, ((queued { copyW with arrived := 1, size := 80 } 1).core 0).copies.find? 0 = some o ∧ o.arrived ≠ 0 ∧ ¬o.total ≤ o.counted + o.arrived :=
  ⟨meets (by decide +kernel), meets (by decide +kernel), meets (by decide +kernel), ⟨_, _, rfl, rfl, rfl, rfl, by decide +kernel, by decide +kernel, rfl⟩,
    ⟨_, _, _, rfl, rfl, rfl, rfl, by decide +kernel, rfl, rfl⟩, ⟨_, rfl, by decide +kernel⟩, ⟨_, rfl, by decide +kernel⟩⟩

/-- A record of route range 63 of address space 0 in a state, with a base at S4 and a size in S6. -/
def ranged (n st : Nat) (r : Tab W32) : State :=
  { sregs r with ranges := (List.range n).map (fun i => (62 + i, { base := 2 ^ 20 + 256 * i, size := 256, state := if i = 1 then st else 1, bySlice := [] })) }
/-- Its broadcast, with these slices left. -/
def schooled (op : Nat) (l : List Nat) : State :=
  { (ranged 2 1 []).onPath ⟨0, 0, 0, 0⟩ (fun p => { p with wait := .work 9 }) with
    bcasts := [(0, { what := .school op 63 0 512 256 10 ⟨0, 0, 0, 0⟩ (List.replicate 7 0), work := 9, left := l, waits := [] })], works := [(9, 1)] }

theorem witness_RecordInstructions :
    let regs : List Reg := [.s 10 1, .s 4 2, .s 6 1]
    let is := fun (s : State) (P : Ctx → Nat → Nat → Prop) => ∃ x, s.issuesFor x regs ∧ x.act ≠ 0 ∧ s.recBusy x.t.asid 63 = none ∧
      P x ((x.g.spair 4).toNat % 2 ^ 57) (x.g.sreg 6).toNat
    let ok := fun (base size : Nat) => base % 256 = 0 ∧ size % 256 = 0 ∧ size ≠ 0
    let meet := fun (s : State) (base size : Nat) => ∃ r ∈ s.liveRanges 0 63, base < r.1 + r.2 ∧ r.1 < base + size
    let at0 := [(4, 512), (6, 256)]
    (∃ x, (idle base).issuesFor x regs ∧ x.act = 0) ∧ (∃ x, base.issuesFor x [.s 8 8]) ∧
    is base (fun _ b z => ¬ok b z) ∧
    is (ranged 2 0 [(4, 0x100000), (6, 256)]) (fun _ b z => ok b z ∧ meet (ranged 2 0 []) b z) ∧
    is (ranged 1025 0 at0) (fun _ b z => ok b z ∧ ¬meet (ranged 1025 0 at0) b z ∧ 1024 ≤ (ranged 1025 0 at0).liveCount ∧ (ranged 1025 0 at0).rangeState 63 = 0) ∧
    is (ranged 1024 1 at0) (fun _ b z => ok b z ∧ ¬meet (ranged 1024 1 at0) b z ∧ (ranged 1024 1 at0).rangeState 63 ≠ 0) ∧
    is (ranged 1024 0 at0) (fun _ b z => ok b z ∧ ¬meet (ranged 1024 0 at0) b z ∧ (ranged 1024 0 at0).liveCount < 1024) ∧
    (∃ x, (ranged 2 3 []).issuesFor x [.s 10 1] ∧ x.act ≠ 0 ∧ (ranged 2 3 []).rangeState (x.t.asid * 64 + 63) = 3) ∧
    (∃ x, (ranged 2 2 []).issuesFor x [.s 10 1] ∧ x.act ≠ 0 ∧ (ranged 2 2 []).rangeState (x.t.asid * 64 + 63) = 2) ∧
    (∃ b, (schooled 1 [3, 4]).bcasts.find? 0 = some b ∧ 3 ∈ b.left ∧ ∃ k ∈ b.left, k ≠ 3) ∧
    ∃ b, (schooled 1 [3]).bcasts.find? 0 = some b ∧ b.what = .school 1 63 0 512 256 10 ⟨0, 0, 0, 0⟩ (List.replicate 7 0) ∧ 3 ∈ b.left ∧
      (∀ k ∈ b.left, k = 3) ∧ (schooled 1 [3]).rangeState (0 * 64 + 63) = 1 ∧ (schooled 1 [3]).waitedWork ⟨0, 0, 0, 0⟩ = some b.work := by
  refine ⟨?_, ?_, ?_, ?_, ?_, ?_, ?_, ?_, ?_, ⟨_, rfl, by decide +kernel⟩, ⟨_, rfl, rfl, by decide +kernel⟩⟩
  all_goals first | exact meets (by decide +kernel) | exact issues (by decide +kernel)

/-- A matrix operation under way. -/
def matW (ta tb : BitVec 128) (step steps : Nat) (binary : Bool) (fmt : W32) : MatOp :=
  { slot := 0, group := 0, op := 0, binary := binary, andMode := false, ad := 0, ta := ta, tb := tb, fmt := fmt, step := step, first := step, steps := steps, word := 0,
    hdr := Header.plain, hdrPc := 0, base := [], late := [] }
/-- A state in which the matrix unit is taken by it. -/
def matrixed (m : MatOp) : State := (padded [(4, 0)]).onCore 0 (fun k => { k with matrix := some m })
/-- A path whose FMT is `f`. -/
def fmtd (f : W32) : State := (padded [(4, 0)]).onPath ⟨0, 0, 0, 0⟩ (fun p => { p with fmt := f })

theorem witness_AccumulatorsAndTileRegisters :
    let free := fun (s : State) (x : Ctx) => x.act ≠ 0 ∧ (s.core x.a.core).matrix = none ∧ x.scratchOpen = none
    let f64 : W32 := 0x8000
    (∃ x, (idle base).issuesFor x [.acc 15, .s 4 1] ∧ x.act = 0) ∧
    (∃ x, (matrixed (matW 0 0 0 1 false 0)).issuesFor x [.acc 15] ∧ x.act ≠ 0 ∧ ((matrixed (matW 0 0 0 1 false 0)).core x.a.core).matrix.isSome = true) ∧
    (∃ x, (padded [(4, 8)]).issuesFor x [.acc 15, .s 4 1] ∧ free (padded []) x ∧ (x.g.sreg 4).toNat % 16 ≠ 0) ∧
    (∃ x, (padded [(4, 49168)]).issuesFor x [.acc 15, .s 4 1] ∧ free (padded []) x ∧ (x.g.sreg 4).toNat % 16 = 0 ∧ x.t.scratchSize < (x.g.sreg 4).toNat + 16384) ∧
    (∃ x, (padded [(4, 49152)]).issuesFor x [.acc 15, .s 4 1] ∧ free (padded []) x ∧ (x.g.sreg 4).toNat % 16 = 0 ∧
      (x.g.sreg 4).toNat + 16384 ≤ x.t.scratchSize ∧ x.t.scratchPois = [] ∧ (padded [(4, 49152)]).openChunks x.a = []) ∧
    (∃ x, base.issuesFor x [.s 4 1] ∧ x.accOk 16 false = false) ∧
    (∃ x, (fmtd f64).issuesFor x [.s 4 1] ∧ accOf x.p.fmt = 1 ∧ x.accOk 14 true = true ∧ mstaOk 1 3 = true ∧ mstaOk 1 4 = false ∧ mcvtOk 1 10 = true ∧ x.accOk 15 true = false) ∧
    (∃ x, (padded [(4, 65536 - 512 * 32)]).issuesFor x [.s 4 1] ∧ accOf x.p.fmt = 0 ∧ x.accOk 15 false = true ∧ mstaOk 0 0 = true ∧ free (padded []) x ∧
      (x.g.sreg 4).toNat + 512 * fmtBits 0 ≤ x.t.scratchSize) ∧
    (∃ x, base.issuesFor x [] ∧ x.accOk 15 false = true ∧ x.accOk 14 true = true ∧ mcvtOk 0 3 = true ∧ mcvtOk 0 6 = false ∧ free base x) ∧
    ∃ x, base.issuesFor x [.s 1020 4] :=
  by
  refine ⟨?_, ?_, ?_, ?_, ?_, ?_, ?_, ?_, ?_, issues ?_⟩
  case refine_10 => decide +kernel
  all_goals exact meets (by decide +kernel)


/-- A tile of one row and one block of F16 at 0 of the scratchpad, and one of one row and eight blocks of B1. -/
def tileF : BitVec 128 := 1 + 2 ^ 21 + 4 * 2 ^ 56
/-- See `tileF`. -/
def tileB : BitVec 128 := 1 + 13 * 2 ^ 21 + 7 * 2 ^ 32 + 2 * 2 ^ 56
/-- A group whose T1 and T2 hold tiles, under a FMT. -/
def tiled (a b : BitVec 128) (fmt : W32) : State :=
  ((padded []).onGroup 0 0 0 (fun g => { g with t := [(1, a), (2, b)] })).onPath ⟨0, 0, 0, 0⟩ (fun p => { p with fmt := fmt })

theorem witness_MatrixMultiplySteps :
    let f : MtxF := { ad := 15, ta := 1, tb := 2, mod := 0, sa := 0, fmtc := 0, rm := 0, sat := false, la := 0 }
    let step := fun (m : MatOp) (P : MatOp → Team → Prop) => ∃ n t, ((matrixed m).core 0).matrix = some n ∧ (matrixed m).team? 0 n.slot = some t ∧ n.step < n.steps ∧
      (∀ w ∈ (tileOf n.ta).words (fun a => t.scratch.getD a 0) n.step (if n.binary then 8 else 1) ++ (tileOf n.tb).words (fun a => t.scratch.getD a 0) n.step (if n.binary then 8 else 1),
        w ∉ t.scratchPois) ∧ n.base = [] ∧ n.late = [] ∧ P n t
    (∃ x, (tiled 0 tileF 0x420).issuesFor x [] ∧ x.mmaCheck f false = some 6) ∧ (∃ x, (tiled tileF tileF 0x1420).issuesFor x [] ∧ x.mmaCheck f true = some 6) ∧
    (∃ x, (idle (tiled tileF tileF 0x420)).issuesFor x [] ∧ x.mmaCheck f false = none ∧ x.act = 0) ∧
    (∃ x, (tiled tileF tileF 0x420).issuesFor x [] ∧ x.mmaCheck f false = none ∧ x.act ≠ 0 ∧ ((tiled tileF tileF 0x420).core x.a.core).matrix = none ∧ x.scratchOpen = none) ∧
    (∃ x, (tiled tileB tileB 0x135A0).issuesFor x [] ∧ x.mmaCheck f true = none ∧ x.act ≠ 0 ∧ ((tiled tileB tileB 0x135A0).core x.a.core).matrix = none ∧ x.scratchOpen = none) ∧
    (∃ x, ((tiled tileF tileF 0x420).onCore 0 (fun k => { k with matrix := some (matW 0 0 0 1 false 0) })).issuesFor x [] ∧ x.mmaCheck f false = none ∧ x.act ≠ 0) ∧
    step (matW tileF tileF 0 1 false 0x420) (fun m _ => accOf m.fmt ≠ 1 ∧ m.steps ≤ m.step + 1) ∧
    step (matW (tileF + 2 * 2 ^ 21) (tileF + 2 * 2 ^ 21) 0 2 false 0x8C60) (fun m _ => accOf m.fmt = 1 ∧ ¬m.steps ≤ m.step + 1) ∧
    step (matW tileB tileB 0 1 true 0x135A0) (fun m _ => m.binary = true) :=
  by
  refine ⟨?_, ?_, ?_, ?_, ?_, ?_, ⟨_, _, rfl, rfl, ?_⟩, ⟨_, _, rfl, rfl, ?_⟩, ⟨_, _, rfl, rfl, ?_⟩⟩
  all_goals first | exact meets (by decide +kernel) | decide +kernel

/-- A descriptor of a mangle of 32 by 1 F16 weights, its windows at 2 MiB and its matrix behind them, under a key slot. -/
def mangleW (key : Nat) : Nat :=
  0x220000 + 0x210000 * 2 ^ 192 + 0x200000 * 2 ^ 256 + 0x21001f00000000000000000000000000000000000000000000000000000000000000000000000000000000000000000000 + key * 0x400000000000000000000000000000000000000000000000000000000000000000000000000000000000000000000000000000
/-- A page of 64 KiB. -/
def page64 (va pa : Nat) (mng : Bool) : TlbEntry := { page0 with lg := 16, vpn := va / 65536, pa := pa, mng := mng }
/-- The descriptor at 0x1000 of memory, and translations for it. -/
def mangling (key : Nat) : State :=
  (mapped (bytesW 0x1000 64 (mangleW key)) (sregs [(4, 0x1000)])).onCore 0 (fun k => { k with
    tlb := [page0, page64 0x200000 0x300000 true, page64 0x210000 0x310000 true, page64 0x220000 0x320000 false] })

/-- A state after MNGI has touched what it reads of the matrix. -/
def touched (s : State) (m : Mangle) (data : List Machine.Span) : State := s.mangleTouch (m.escWords s data)
/-- What MNGI reads of a descriptor, and what it finds, meet a condition. -/
def mngiFinds (s : State) (P : State → Mangle → Option Nat → Bool → Bool) : Prop :=
  ∃ x bs s1 m data s2 sides s3 wins s4, s.issuesFor x [.s 10 1, .s 4 2] ∧ x.act ≠ 0 ∧ (x.g.spair 4).toNat % 2 ^ 57 % 64 = 0 ∧
    s.readDesc (whoLane x.a) x.a.core x.t.asid .load x.t.sup ((x.g.spair 4).toNat % 2 ^ 57) 64 = (.ok bs, s1) ∧ mangleDesc (leNat bs) = some m ∧
    s1.spansOf x m.asid m.dataSpans = (.ok data, s2) ∧ s2.spansOf x m.asid [(m.xbase, 2 * m.xcount)] = (.ok sides, s3) ∧
    s3.spansOf x m.asid m.winSpans = (.ok wins, s4) ∧
    P (touched s4 m data) m (mngiCause (touched s4 m data) m x.t.sup x.t.asid wins data sides)
      (misplaced (touched s4 m data) m data || onTheMove (touched s4 m data) (wins ++ data ++ sides)) = true

/-- What a read gives, where it gives bytes. -/
def readOf : Machine.ReadOut × State → Option (List Byte × State)
  | (.ok bs, s) => some (bs, s)
  | _ => none
theorem readOf_some {r : Machine.ReadOut × State} {v : List Byte × State} (h : readOf r = some v) : r = (.ok v.1, v.2) := by
  obtain ⟨_ | _ | _ | _, _⟩ := r <;> cases h; rfl
/-- What a search for pages gives, where it finds them. -/
def spanned : Except (Nat × Nat) (List Machine.Span) × State → Option (List Machine.Span × State)
  | (.ok l, s) => some (l, s)
  | _ => none
theorem spanned_some {r : Except (Nat × Nat) (List Machine.Span) × State} {v : List Machine.Span × State} (h : spanned r = some v) :
    r = (.ok v.1, v.2) := by
  obtain ⟨_ | _, _⟩ := r <;> cases h; rfl
/-- What `mngiFinds` asks, as it is computed. -/
def mngiProbe (s : State) (P : State → Mangle → Option Nat → Bool → Bool) : Option Bool :=
  s.ctx?.bind (fun x =>
  (readOf (s.readDesc (whoLane x.a) x.a.core x.t.asid .load x.t.sup ((x.g.spair 4).toNat % 2 ^ 57) 64)).bind (fun b =>
  (mangleDesc (leNat b.1)).bind (fun m =>
  (spanned (b.2.spansOf x m.asid m.dataSpans)).bind (fun d =>
  (spanned (d.2.spansOf x m.asid [(m.xbase, 2 * m.xcount)])).bind (fun e =>
  (spanned (e.2.spansOf x m.asid m.winSpans)).map (fun w =>
    decide ([Reg.s 10 1, .s 4 2].all x.regOk = true ∧ x.stall s [.s 10 1, .s 4 2] = none ∧ x.act ≠ 0 ∧ (x.g.spair 4).toNat % 2 ^ 57 % 64 = 0 ∧
      P (touched w.2 m d.1) m (mngiCause (touched w.2 m d.1) m x.t.sup x.t.asid w.1 d.1 e.1)
        (misplaced (touched w.2 m d.1) m d.1 || onTheMove (touched w.2 m d.1) (w.1 ++ d.1 ++ e.1)) = true)))))))
/-- See `mngiProbe`. -/
theorem mngiFinds_of {s : State} {P : State → Mangle → Option Nat → Bool → Bool} (h : mngiProbe s P = some true) : mngiFinds s P := by
  simp only [mngiProbe, Option.bind_eq_some_iff, Option.map_eq_some_iff, decide_eq_true_eq] at h
  rcases h with ⟨x, hx, b, hb, m, hm, d, hd, e, he, w, hw, h1, h2, h3, h4, h5⟩
  exact ⟨x, b.1, b.2, m, d.1, d.2, e.1, e.2, w.1, w.2, ⟨hx, h1, h2⟩, h3, h4, readOf_some hb, hm, spanned_some hd, spanned_some he,
    spanned_some hw, h5⟩

/-- The mangle of `mangleW` as installed, its matrix in page 0x32 of stack 0. -/
def mangle0 : Mangle :=
  { asid := 0, key := 0, batch := 1, mode := false, nslots := 1, ofmt := 0, ifmt := 1, wfmt := 1, n := 32, m := 1, xcount := 0, owin := 0x200000,
    iwin := 0x210000, xbase := 0, sbase := 0, mbase := 0x220000, home := 0, slots := [], pass := false, asked := false, passes := 0xFFFFFFFF, firings := 0,
    removing := none, badLanes := [], dataPages := [0x32], sidePages := [], winPages := [(0x30, 0x20), (0x31, 0x21)], loads := [] }
/-- A slot of it that has fired. -/
def slot0 : MSlot :=
  { bytes := [], pois := [], gen := 0, fire := false, latch := some { gen := 0, bytes := [], pois := false, miss := false, filled := 64, forced := false, carried := true },
    held := [], out := [], outPois := [], outGen := 0, outMiss := false, outPoisFlag := false, outForced := false, outFilled := 0 }
/-- A state in which it is installed under handle 0, with key slot 0 filled. -/
def installed (m : Mangle) (r : Tab W32) : State := { sregs r with mangles := [(0, m)], keys := [(0, 0)] }

theorem witness_MangleInstructionsAndPasses :
    let look := fun (s : State) (P : Ctx → Nat → Prop) => ∃ x bs, s.issuesFor x [.s 10 1, .s 4 2] ∧ (x.g.spair 4).toNat % 2 ^ 57 % 64 = 0 ∧
      (s.readDesc (whoLane x.a) x.a.core x.t.asid .load x.t.sup ((x.g.spair 4).toNat % 2 ^ 57) 64).1 = .ok bs ∧ P x (leNat bs)
    (mngiFinds (mangling 0) (fun s _ c p => c.isNone && !p && decide (s.mangles.length < 4096)) ∧ mngiFinds (mangling 5) (fun _ _ c _ => c = some 5)) ∧
    (look (idle (mangling 0)) (fun x b => x.act = 0 ∧ (mangleDesc b).isSome = true) ∧ look (idle (mangling 512)) (fun x b => x.act = 0 ∧ mangleDesc b = none) ∧
     (∃ x, (sregs [(4, 32)]).issuesFor x [.s 10 1, .s 4 2] ∧ x.act ≠ 0 ∧ (x.g.spair 4).toNat % 2 ^ 57 % 64 ≠ 0) ∧
     ∃ x bs s1, (mangling 512).issuesFor x [.s 10 1, .s 4 2] ∧
      (mangling 512).readDesc (whoLane x.a) x.a.core x.t.asid .load x.t.sup ((x.g.spair 4).toNat % 2 ^ 57) 64 = (.ok bs, s1) ∧ mangleDesc (leNat bs) = none) ∧
    ((∃ x, base.issuesFor x [.s 8 4, .s 4 1] ∧ x.act ≠ 0 ∧ base.mangles.find? (x.g.sreg 4).toNat = none) ∧
     (∃ x h m, (installed mangle0 []).issuesFor x [.s 10 1, .s 4 1] ∧ x.act ≠ 0 ∧ mangleOf (installed mangle0 []) x (x.g.sreg 4) = .ok (h, m) ∧ m.removing = none ∧ m.asked = false ∧
       (∀ p ∈ m.slots, p.2.latch = none ∧ p.2.held = []) ∧ windowWaits (installed mangle0 []) m = false ∧
       ∀ e ∈ x.g.ops, e.2.waits ≠ [(installed mangle0 []).nextWork]) ∧
     (∃ x h m, (installed { mangle0 with asked := true } []).issuesFor x [.s 10 1, .s 4 1] ∧ x.act ≠ 0 ∧
       mangleOf (installed { mangle0 with asked := true } []) x (x.g.sreg 4) = .ok (h, m) ∧ m.removing = none ∧ m.asked = true ∧ ∀ p ∈ m.slots, p.2.held = []) ∧
     (∃ x h m, (installed mangle0 [(5, 1)]).issuesFor x [.s 4 1, .s 5 1] ∧ x.act ≠ 0 ∧ mangleOf (installed mangle0 [(5, 1)]) x (x.g.sreg 4) = .ok (h, m) ∧ m.nslots ≤ (x.g.sreg 5).toNat) ∧
     (∃ x h m, (installed mangle0 []).issuesFor x [.s 4 1, .s 5 1] ∧ x.act ≠ 0 ∧ mangleOf (installed mangle0 []) x (x.g.sreg 4) = .ok (h, m) ∧ (x.g.sreg 5).toNat < m.nslots ∧
       m.removing = none ∧ (m.slot (x.g.sreg 5).toNat).latch = none ∧ x.g.ops = [] ∧ (installed mangle0 []).dev.replay = none) ∧
     (∃ x m, (installed { mangle0 with asid := 3 } []).ctx? = some x ∧ (installed { mangle0 with asid := 3 } []).mangles.find? (x.g.sreg 4).toNat = some m ∧ m.asid ≠ x.t.asid) ∧
     ∃ x, ((installed { mangle0 with asid := 3 } []).onTeam 0 0 (fun t => { t with sup := false })).ctx? = some x ∧ x.t.sup = false) ∧
    (let s := (installed { mangle0 with asked := true } []).onDie 0 (fun d => { d with grants := [.pass 0 64] })
     ∃ m, s.mangles.find? 0 = some m ∧ m.asked = true ∧ m.pass = false ∧ ∀ d ∈ m.weights, (s.die d.1).grants.any (fun a => (passLeave 0 a).isSome) = true) ∧
    (let s := { installed { mangle0 with asked := true, pass := true, slots := [(0, slot0)] } [] with
                 pcores := (List.range 64).map (fun p => (p, { PCore.init with busy := [0] })) }
     ∃ m key, s.mangles.find? 0 = some m ∧ m.pass = true ∧ m.removing = none ∧ s.dev.halt = none ∧ s.keys.find? m.key = some key ∧
      m.lanes.all (fun p => !s.owes p && (s.pcore p).busy.head? = some 0) = true ∧ (∀ n, (s.sector n).pin = none) ∧
      ∃ k l, m.slots.find? 0 = some k ∧ k.latch = some l ∧ l.carried = true) :=
  ⟨⟨mngiFinds_of (by decide +kernel), mngiFinds_of (by decide +kernel)⟩,
   ⟨⟨_, _, ⟨rfl, rfl, rfl⟩, by decide +kernel, rfl, by decide +kernel⟩, ⟨_, _, ⟨rfl, rfl, rfl⟩, by decide +kernel, rfl, by decide +kernel⟩,
    meets (by decide +kernel), _, _, _, ⟨rfl, rfl, rfl⟩, rfl, by decide +kernel⟩,
   ⟨meets (by decide +kernel), ⟨_, _, _, ⟨rfl, rfl, rfl⟩, by decide +kernel, rfl, rfl, rfl, by decide +kernel, by decide +kernel, by decide +kernel⟩,
    ⟨_, _, _, ⟨rfl, rfl, rfl⟩, by decide +kernel, rfl, rfl, rfl, by decide +kernel⟩,
    ⟨_, _, _, ⟨rfl, rfl, rfl⟩, by decide +kernel, rfl, by decide +kernel⟩,
    ⟨_, _, _, ⟨rfl, rfl, rfl⟩, by decide +kernel, rfl, by decide +kernel, rfl, rfl, rfl, rfl⟩, ⟨_, _, rfl, rfl, by decide +kernel⟩, _, rfl, rfl⟩,
   ⟨_, rfl, rfl, rfl, by decide +kernel⟩, _, _, rfl, rfl, rfl, rfl, rfl, by decide +kernel, fun _ => rfl, _, _, rfl, rfl, rfl⟩


/-- Page tables that map the first 2 MiB of address space 0 to themselves, under key slot 0 (R283, R284). -/
def tables : Tab Byte :=
  bytesW 0x100000 16 (2 ^ 64 + 2 ^ 70 + 0x101000) ++ bytesW 0x101000 8 0x102001 ++ bytesW 0x102000 8 0x103001 ++
    bytesW 0x103000 8 0x104001 ++ bytesW 0x104000 16 0xBD
/-- The state with those bytes in memory and the page tables `tables`. -/
def paged (m : Tab Byte) (s : State) : State :=
  { s with
    mem := { s.mem with bytes := m ++ tables },
    keys := [(0, 0)], dev := { s.dev with asidtb := 0x100000, devstat := 1 } }

/-- A task's record of R36 at 0x1000: a bundle at 0x2000, one task. -/
def plaunchW (n : Nat) : Tab Byte := bytesW 0x1000 64 (0x2000 + 0x3000 * 2 ^ 64 + n * 0x1000000000000000000000000000000000000000000000000000000000000000000000000)
/-- A page at 2 MiB that names no memory. -/
def far : TlbEntry := { page0 with vpn := 1, pa := 0x8000000000 }

/-- What an instruction looks at with no lane active: a record of `n` bytes. -/
def looks (s : Nat → State) (n : Nat) (P : State → Ctx → Nat → Prop) (k : Nat) : Prop :=
  ∃ x bs, (s k).issuesFor x [.s 4 2] ∧ (x.g.spair 4).toNat % 2 ^ 57 % n = 0 ∧
    ((s k).readDesc (whoLane x.a) x.a.core x.t.asid .load x.t.sup ((x.g.spair 4).toNat % 2 ^ 57) n).1 = .ok bs ∧ P (s k) x (leNat bs)

theorem witness_PaddockLaunchInstructions :
    let f : EngF := { sd := 0, sa := 4, sb := 8, x8 := 16, n4 := 15, n2 := 3, fn := 7, m3 := 0, la := 0 }
    let regs := (List.range 16).map (fun j => Reg.v (16 + j) 1) ++ [Reg.s 4 2, Reg.s 8 4]
    let reads := fun (n : Nat) (P : Nat → State → Prop) => ∃ x bs s1, (mapped (plaunchW n) (sregs [(4, 0x1000)])).issuesFor x [.s 4 2] ∧ x.act ≠ 0 ∧ x.settled = true ∧
      pinsOf (mapped (plaunchW n) (sregs [(4, 0x1000)])) x.a.core x.a.slot = [] ∧ (x.g.spair 4).toNat % 2 ^ 57 % 64 = 0 ∧
      (mapped (plaunchW n) (sregs [(4, 0x1000)])).readDesc (whoLane x.a) x.a.core x.t.asid .load x.t.sup ((x.g.spair 4).toNat % 2 ^ 57) 64 = (.ok bs, s1) ∧ P (leNat bs) s1
    looks (fun n => idle (mapped (plaunchW n) (sregs [(4, 0x1000)]))) 64 (fun _ x r => x.act = 0 ∧ bits r 303 288 = 0) 0 ∧
    looks (fun n => idle (mapped (plaunchW n) (sregs [(4, 0x1000)]))) 64 (fun _ x r => x.act = 0 ∧ bits r 303 288 ≠ 0 ∧ bits r 317 313 ≤ 16 ∧ bits r 56 0 % 16 = 0 ∧
      bits r 317 313 = 0 ∧ bits r 248 192 % 4 = 0 ∧ bits r 511 320 = 0 ∧ bits r 255 249 = 0 ∧ bits r 191 185 = 0 ∧ bits r 127 121 = 0 ∧ bits r 63 57 = 0) 1 ∧
    (∃ x, fenced.issuesFor x [.s 4 2] ∧ x.act ≠ 0 ∧ x.settled = false) ∧
    (∃ x, (sregs [(4, 32)]).issuesFor x [.s 4 2] ∧ x.act ≠ 0 ∧ x.settled = true ∧ pinsOf (sregs [(4, 32)]) x.a.core x.a.slot = [] ∧ (x.g.spair 4).toNat % 2 ^ 57 % 64 ≠ 0) ∧
    reads 1 (fun r s1 => bits r 303 288 ≠ 0 ∧ bits r 317 313 ≤ 16 ∧ bits r 56 0 % 16 = 0 ∧ bits r 317 313 = 0 ∧ bits r 248 192 % 4 = 0 ∧ bits r 511 320 = 0 ∧
      bits r 255 249 = 0 ∧ bits r 191 185 = 0 ∧ bits r 127 121 = 0 ∧ bits r 63 57 = 0 ∧ s1.tasks = []) ∧
    reads 0 (fun r _ => bits r 303 288 = 0) ∧
    (∃ x, (sregs [(8, 0x2000), (10, 512)]).issuesFor x regs ∧ 2 ^ 9 ≤ (x.g.sreg 10).toNat) ∧
    (∃ x, (idle (sregs [(8, 0x2000), (10, 511)])).issuesFor x regs ∧ (x.g.spair 8).toNat % 2 ^ 57 % 16 = 0 ∧ (x.g.sreg 10).toNat < 2 ^ 9 ∧ x.act = 0) ∧
    (let s := (mapped [] (sregs [(4, 0x200000), (8, 0x2000), (10, 511)])).onCore 0 (fun k => { k with tlb := [far] })
     ∃ x xl s1, s.issuesFor x regs ∧ x.act ≠ 0 ∧ s.xlate (whoLane x.a) x.a.core x.t.asid ((x.g.spair 4).toNat % 2 ^ 57) .load x.t.sup false = (.ok xl, s1) ∧ pinCore x.a.core xl.pa = none) ∧
    (let s := mapped [] (sregs [(4, 0x3000), (8, 0x2000), (10, 511)])
     ∃ x xl s1 p s2, s.issuesFor x regs ∧ x.act ≠ 0 ∧ s.xlate (whoLane x.a) x.a.core x.t.asid ((x.g.spair 4).toNat % 2 ^ 57) .load x.t.sup false = (.ok xl, s1) ∧
      pinCore x.a.core xl.pa = some p ∧ s1.codeFault x ((x.g.spair 8).toNat % 2 ^ 57) (16 * ((x.g.sreg 10).toNat + 1)) = (none, s2) ∧ x.landed = true) ∧
    (∃ x, base.issuesFor x [] ∧ base.tokenDone x.g f.fn = true) ∧ ∃ x, fenced.issuesFor x [] ∧ fenced.tokenDone x.g 0 = false :=
  ⟨⟨_, _, ⟨rfl, rfl, rfl⟩, by decide +kernel, rfl, by decide +kernel⟩, ⟨_, _, ⟨rfl, rfl, rfl⟩, by decide +kernel, rfl, by decide +kernel⟩,
    meets (by decide +kernel), meets (by decide +kernel),
    ⟨_, _, _, ⟨rfl, rfl, rfl⟩, by decide +kernel, by decide +kernel, rfl, by decide +kernel, rfl, by decide +kernel⟩,
    ⟨_, _, _, ⟨rfl, rfl, rfl⟩, by decide +kernel, by decide +kernel, rfl, by decide +kernel, rfl, by decide +kernel⟩,
    meets (by decide +kernel), meets (by decide +kernel), ⟨_, _, _, ⟨rfl, rfl, rfl⟩, by decide +kernel, rfl, by decide +kernel⟩,
    ⟨_, _, _, _, _, ⟨rfl, rfl, rfl⟩, by decide +kernel, rfl, rfl, rfl, by decide +kernel⟩, meets (by decide +kernel), meets (by decide +kernel)⟩

/-- A grid record of R262 at 0x1000 with one argument at 0x2000, and `x` added to it. -/
def launchW (x : Nat) : Tab Byte :=
  bytesW 0x1000 128 (0x10500000000000000000000000000000000000000000000000000000000002000000000000000000000000000000000400000000000000008 + x) ++ bytesW 0x2000 4 7
/-- Launch queue 255 over a ring at 0x1000, with one record that waits and a PMAX of 1. -/
def queueW (s : State) : State := s.onQueue 255 (fun _ => { base := 0x1000, ctl := 0x4500000000, ptr := 0x100000000 })

/-- What LAUNCH and a launch queue read of a record, its arguments and its schedule. -/
def launchReads (s : State) (P : State → Grid → Prop) : Prop :=
  ∃ x bs s1 g argva argn csched csn args s2 sched s3 full, s.issuesFor x [.s 4 2] ∧ x.act ≠ 0 ∧ x.settled = true ∧ pinsOf s x.a.core x.a.slot = [] ∧
    (x.g.spair 4).toNat % 2 ^ 57 % 128 = 0 ∧ s.readDesc (whoLane x.a) x.a.core x.t.asid .load x.t.sup ((x.g.spair 4).toNat % 2 ^ 57) 128 = (.ok bs, s1) ∧
    launchRecord (leNat bs) s1.leastCacheMin x.t.asid x.t.sup = some (g, argva, argn, csched, csn) ∧
    s1.readDesc (whoLane x.a) x.a.core x.t.asid .load x.t.sup argva (4 * argn) = (.ok args, s2) ∧
    s2.readDesc (whoLane x.a) x.a.core x.t.asid .load x.t.sup csched (32 * csn) = (.ok sched, s3) ∧ g.withData args sched argn csn = some full ∧ P s3 full

theorem witness_GridLaunchAndQueues :
    let w : Who := { agent := 7, die := 0, core := 0, slot := 0, group := 0, id := 0 }
    let live := fun (s : State) => s.dev.devstat.getLsbD 0 = true ∧ s.dev.halt = none ∧ bit (s.queue 255).ctl.toNat 32 = true ∧ bit (s.queue 255).ctl.toNat 33 = false ∧
      bits (s.queue 255).ptr.toNat 47 32 ≠ bits (s.queue 255).ptr.toNat 15 0
    let va := fun (s : State) => (bits (s.queue 255).base.toNat 56 7 * 128 + bits (s.queue 255).ptr.toNat 15 0 % 2 ^ bits (s.queue 255).ctl.toNat 39 36 * 128) % 2 ^ 57
    looks (fun n => idle (mapped (launchW n) (sregs [(4, 0x1000)]))) 128 (fun s x r => x.act = 0 ∧ (launchRecord r s.leastCacheMin x.t.asid x.t.sup).isSome = true) 0 ∧
    looks (fun n => idle (mapped (launchW n) (sregs [(4, 0x1000)]))) 128 (fun s x r => x.act = 0 ∧ launchRecord r s.leastCacheMin x.t.asid x.t.sup = none) 1 ∧
    (∃ x, (sregs [(4, 64)]).issuesFor x [.s 4 2] ∧ x.act ≠ 0 ∧ x.settled = true ∧ pinsOf (sregs [(4, 64)]) x.a.core x.a.slot = [] ∧ (x.g.spair 4).toNat % 2 ^ 57 % 128 ≠ 0) ∧
    (∃ x bs s1, (mapped (launchW 1) (sregs [(4, 0x1000)])).issuesFor x [.s 4 2] ∧
      (mapped (launchW 1) (sregs [(4, 0x1000)])).readDesc (whoLane x.a) x.a.core x.t.asid .load x.t.sup ((x.g.spair 4).toNat % 2 ^ 57) 128 = (.ok bs, s1) ∧
      launchRecord (leNat bs) s1.leastCacheMin x.t.asid x.t.sup = none) ∧
    launchReads (mapped (launchW 0) (sregs [(4, 0x1000)])) (fun _ g => g.nclu = 1) ∧
    ¬live (paged [] base) ∧
    (let s := { queueW (paged [] base) with keys := [] }
     live s ∧ ∃ kind a s1, s.queueRead w 0 (supOf s 0) 80 (va s) 128 = (.fault kind a, s1) ∨ s.queueRead w 0 (supOf s 0) 80 (va s) 128 = (.bad kind a, s1)) ∧
    (let s := queueW (paged (launchW 1) base)
     live s ∧ ∃ bs s1, s.queueRead w 0 (supOf s 0) 80 (va s) 128 = (.ok bs, s1) ∧ s1.queues = s.queues ∧ launchRecord (leNat bs) s1.leastCacheMin 0 (supOf s 0) = none) ∧
    (let s := queueW (paged (launchW 0) base)
     live s ∧ ∃ bs s1 g argva argn csched csn args s2 sched s3 full, s.queueRead w 0 (supOf s 0) 80 (va s) 128 = (.ok bs, s1) ∧
      launchRecord (leNat bs) s1.leastCacheMin 0 (supOf s 0) = some (g, argva, argn, csched, csn) ∧ s1.queueRead w 0 (supOf s 0) 80 argva (4 * argn) = (.ok args, s2) ∧
      s2.queueRead w 0 (supOf s 0) 80 csched (32 * csn) = (.ok sched, s3) ∧ g.withData args sched argn csn = some full ∧ s3.queues = s.queues) := by
  refine ⟨⟨_, _, ⟨rfl, rfl, rfl⟩, by decide +kernel, rfl, by decide +kernel, rfl⟩, ⟨_, _, ⟨rfl, rfl, rfl⟩, by decide +kernel, rfl, by decide +kernel, rfl⟩,
    meets (by decide +kernel), ⟨_, _, _, ⟨rfl, rfl, rfl⟩, rfl, rfl⟩,
    ⟨_, _, _, _, _, _, _, _, _, _, _, _, _, ⟨rfl, rfl, rfl⟩, by decide +kernel, by decide +kernel, rfl, by decide +kernel, rfl, rfl, rfl, rfl, rfl, rfl⟩,
    by decide +kernel, ⟨by decide +kernel, _, _, _, .inl rfl⟩, ⟨by decide +kernel, _, _, rfl, rfl, rfl⟩,
    ⟨by decide +kernel, _, _, _, _, _, _, _, _, _, _, _, _, rfl, rfl, rfl, rfl, rfl, rfl⟩⟩


/-- Grid 1, whose cluster 0 waits; it takes all that a team may. -/
def gridW (prio n : Nat) : Grid :=
  { Grid.bare with prio := prio, v := 256, s := 1024, g := 16, waiting := [(0, (n, n, false))], order := 1, nclu := 1, scratch := 0 }
/-- A device in which it waits, beside grid 0 of `base`. -/
def admitting (prio n : Nat) : State := { base with grids := [(0, Grid.bare), (1, gridW prio n)] }

theorem witness_ClusterAdmission :
    (let s := admitting 0 0
     ∃ g a b, s.grid? 1 = some g ∧ g.waiting.find? 0 = some (a, b, false) ∧ s.dev.halt = none ∧ s.dev.ckTaking = false ∧ s.dev.replay = none ∧
      s.rectRoom g 1 11 7 = true ∧ s.mayAdmit 1 0 1 g = true ∧ s.affAgrees g 1 11 = true ∧ (∀ r, r < g.cw * g.ch → ((s.core (rectCore g 1 11 7 r)).padBase g.scratch).isSome = true) ∧ g.sched = []) ∧
    (∃ g a b r, (admitting 0 (2 ^ 20 - 1)).grid? 1 = some g ∧ g.waiting.find? 0 = some (a, b, r)) ∧
    (let s := admitting 1 (2 ^ 20)
     ∃ g v w, s.grid? 1 = some g ∧ s.grid? 0 = some v ∧ g.waiting.find? 0 = some w ∧ 2 ^ 20 ≤ w.1 ∧ v.prio < g.prio ∧ s.dev.halt = none ∧
      (clusterSites s 0 0).any (fun c => decide (dieOf c.1 = 0) && s.holdsNeeded g c.1) = true) :=
  ⟨⟨_, _, _, rfl, rfl, rfl, rfl, rfl, by decide +kernel, by decide +kernel, by decide +kernel, by decide +kernel, rfl⟩, ⟨_, _, _, _, rfl, rfl⟩,
    ⟨_, _, _, rfl, rfl, rfl, by decide +kernel, by decide +kernel, rfl, by decide +kernel⟩⟩

/-- A grid whose teams have ended. -/
def ended (compl : Nat) (s : State) : State := s.onGrid 0 (fun g => { g with teamsLeft := 0, compl := compl })
/-- A team that a pre-emption saves, or has asked to stop. -/
def stoppingW (r : TeamRun) : State :=
  (team (fun t => { t with run := r })).onGroup 0 0 0 (fun g => { g with routine := some { restore := false, left := [], pending := false } })

theorem witness_GridEndAndPreemption :
    (∃ g, (ended 0 base).grid? 0 = some g ∧ g.teamsLeft = 0 ∧ g.addParked = false ∧ (ended 0 base).dev.halt = none ∧ g.compl = 0) ∧
    (let s := paged (bytesW 0x3000 4 0) (ended 0x3000 base)
     ∃ g, s.grid? 0 = some g ∧ g.teamsLeft = 0 ∧ g.addParked = false ∧ s.dev.halt = none ∧ g.compl ≠ 0 ∧
      (match s.completionAdd { agent := 7, die := dieOf g.lastCore, core := g.lastCore, slot := 0, group := 0, id := 0 } g.lastCore g.asid g.compl g.sup
        (if g.forced then 0x10000 else 1) g.work with | .done _ => true | _ => false) = true) ∧
    (base.dev.halt = none ∧ clusterSites base 0 0 = [(0, 0)]) ∧
    (let s := stoppingW (.saving 2)
     ∃ u, clusterSites s 0 0 = [(0, 0)] ∧ s.dev.halt = none ∧ s.team? 0 0 = some u ∧ u.run = .saving 2 ∧ u.groups.all (fun g => g.2.routinesDone) = true ∧
      s.quiet 0 0 u = true ∧ s.cores.rising = true ∧ (s.core 0).slots.rising = true) ∧
    (let s := stoppingW (.stopping 0x100000 1)
     unhalted s = true ∧ ∃ c ∈ clusterSites s 0 0, ∃ u n r, s.team? c.1 c.2 = some u ∧ u.run = .stopping n r ∧ (s.die (dieOf c.1)).prelim.toNat ≤ n) :=
  ⟨⟨_, rfl, rfl, rfl, rfl, rfl⟩, ⟨_, rfl, rfl, rfl, rfl, by decide +kernel, by decide +kernel⟩, by decide +kernel,
    ⟨_, rfl, rfl, rfl, rfl, rfl, rfl, rfl, rfl⟩, rfl, (0, 0), by decide +kernel, _, _, _, rfl, rfl, by decide +kernel⟩

/-- A die's governor with a budget, and one request of a weight. -/
def asking (budget weight : Nat) : State := base.onDie 0 (fun d => { d with budget := budget, asks := [.hint 0 0 0 3 weight] })

theorem witness_LeaveAndPlaceHints :
    (∃ x, (grp (fun g => { g with leave := .asked 3 })).issuesFor x [] ∧ x.g.leave ≠ .none) ∧ (∃ x, base.issuesFor x [] ∧ x.g.leave = .none) ∧
    (∃ x, base.issuesFor x [.s 4 2, .s 6 1] ∧ (x.g.sreg 6).toNat ≠ 2 ^ 30) ∧
    (∃ x, (sregs [(6, 2 ^ 30)]).issuesFor x [.s 4 2, .s 6 1] ∧ (x.g.sreg 6).toNat = 2 ^ 30 ∧
      translate (sregs [(6, 2 ^ 30)]) x.t.asid ((x.g.spair 4).toNat % 2 ^ 57) .load x.t.sup false = .fault 2) ∧
    (∃ x, (paged [] (sregs [(6, 2 ^ 30)])).issuesFor x [.s 4 2, .s 6 1] ∧ (x.g.sreg 6).toNat = 2 ^ 30 ∧
      translate (paged [] (sregs [(6, 2 ^ 30)])) x.t.asid ((x.g.spair 4).toNat % 2 ^ 57) .load x.t.sup false =
        .ok { pa := 0, key := 0, uc := false, mng := false }) ∧
    (∃ a rest, ((asking 64 65).die 0).asks = a :: rest ∧ ((asking 64 65).die 0).budget < ((asking 64 65).die 0).inUse + a.weight) ∧
    (∃ a rest, ((asking 64 64).die 0).asks = a :: rest ∧ ((asking 64 64).die 0).inUse + a.weight ≤ ((asking 64 64).die 0).budget) ∧
    (let s := (grp (fun g => { g with leave := .granted 3 0 })).onCore 0 (fun k => { k with clock := 65536 })
     ∃ g, s.group? 0 0 0 = some g ∧ g.leave = .granted 3 0 ∧ 0 + 2 ^ 16 ≤ (s.core 0).clock) := by
  refine ⟨?_, ?_, ?_, ?_, ?_, ⟨_, _, rfl, by decide +kernel⟩, ⟨_, _, rfl, by decide +kernel⟩, _, rfl, rfl, ?_⟩
  all_goals first | exact meets (by decide +kernel) | decide +kernel

theorem witness_SchedulingMeasures :
    (let s := (path (fun p => { p with spin := { p.spin with mark := some (0, []) } })).onCore 0 (fun k => { k with clock := 4096 })
     ∃ g p, s.group? 0 0 0 = some g ∧ g.paths.find? 0 = some p ∧ p.spin.mark = some (0, []) ∧ 0 + 4096 ≤ (s.core 0).clock) ∧
    ∃ g, (grp (fun g => { g with readyFor := 64 })).group? 0 0 0 = some g ∧ 64 ≤ g.readyFor ∧ g.starvingSince = none :=
  ⟨⟨_, _, rfl, rfl, rfl, by decide +kernel⟩, _, rfl, by decide +kernel, rfl⟩

theorem witness_SupervisorInstructionsTrapAtUserLevel : ∃ x, (team (fun t => { t with sup := false })).ctx? = some x ∧ x.t.sup = false :=
  ⟨_, rfl, rfl⟩

/-- A group in its handler, with the frame at 0 of the scratchpad; the frame gives a PC. -/
def inHandler (pc debug : Nat) : State :=
  (mapped (bytesW 0x4000 16 0xC500000000000000) (padded [])).onTeam 0 0 (fun t => { t with
    scratch := bytesW 0 8 pc,
    groups := t.groups.map (fun g => (g.1, { g.2 with gstat := 0x80000000, handling := some {
      path := 0, born := 1, frame := 0, pc := 16, debug := debug, words := [], hdr := Header.plain, hdrPc := 0 } })) })

theorem witness_EretReturnsFromHandler :
    let is := fun (pc debug : Nat) (P : Handling → Prop) => ∃ x h, (inHandler pc debug).issuesFor x [] ∧ x.g.routine = none ∧ x.g.handling = some h ∧ x.t.scratchPois = [] ∧
      leNat (x.t.bytesAt (h.frame + 0) 8) = pc ∧ P h
    (∃ x, base.issuesFor x [] ∧ x.g.routine = none ∧ x.g.handling.isNone = true) ∧
    is 16 1 (fun h => 16 = h.pc.toNat ∧ h.debug = 1) ∧ is 16 0 (fun h => 16 = h.pc.toNat ∧ h.debug ≠ 1) ∧
    is 0x4000 0 (fun h => 0x4000 ≠ h.pc.toNat) ∧
    is 12 0 (fun h => 12 ≠ h.pc.toNat ∧ 12 % 8 ≠ 0) ∧ unhalted (inHandler 12 0) = true ∧
    (∃ x hb s1, (inHandler 0x4008 0).issuesFor x [] ∧
      (inHandler 0x4008 0).readDesc (whoLane x.a) x.a.core x.t.asid .fetch x.t.sup 0x4008 8 = (.ok hb, s1) ∧ s1.team? x.a.core x.a.slot = some x.t ∧
      bits (leNat hb) 63 56 ≠ 0xC5) ∧
    ∃ x hb s1, (inHandler 0x4000 0).issuesFor x [] ∧
      (inHandler 0x4000 0).readDesc (whoLane x.a) x.a.core x.t.asid .fetch x.t.sup 0x4000 8 = (.ok hb, s1) ∧ x.now s1 = some x.g ∧ bits (leNat hb) 63 56 = 0xC5 :=
  ⟨meets (by decide +kernel), ⟨_, _, ⟨rfl, rfl, rfl⟩, rfl, rfl, rfl, by decide +kernel, by decide +kernel⟩,
    ⟨_, _, ⟨rfl, rfl, rfl⟩, rfl, rfl, rfl, by decide +kernel, by decide +kernel⟩, ⟨_, _, ⟨rfl, rfl, rfl⟩, rfl, rfl, rfl, by decide +kernel, by decide +kernel⟩,
    ⟨_, _, ⟨rfl, rfl, rfl⟩, rfl, rfl, rfl, by decide +kernel, by decide +kernel⟩, rfl, ⟨_, _, _, ⟨rfl, rfl, rfl⟩, rfl, rfl, by decide +kernel⟩,
    _, _, _, ⟨rfl, rfl, rfl⟩, rfl, rfl, by decide +kernel⟩

theorem witness_ControlRegisterAccess :
    (∃ x, base.issuesFor x [.s 10 2] ∧ x.t.sup = true) ∧ (∃ x, base.issuesFor x [.s 4 2] ∧ x.t.sup = true) ∧
    (16 * 0x32 + 15 ∉ [0x318, 0x342] ∧ 0x320 ≤ 16 * 0x32 + 15 ∧ 16 * 0x32 + 15 < 0x330) ∧ 16 * 0x34 + 2 ∈ [0x318, 0x342] ∧
    (∃ u, base.team? 0 0 = some u) ∧ 2 ^ 64 - 1 < 2 ^ 64 ∧ (0x200 ≤ 0x2F8 ∧ 0x2F8 < 0x300 ∧ 0x2F8 % 8 = 0) ∧ (0x41FF8 % 8 = 0 ∧ 0x40000 ≤ 0x41FF8 ∧ 0x41FF8 < 0x42000) ∧
    (0x10000 ≤ 0x10100 ∧ 0x10100 < 0x10200 ∧ 0x10100 % 0x100 = 0) ∧ 0x41FFF % 8 ≠ 0 ∧
    (base.dev.mbxCtl.getLsbD 63 = false ∧ (base.onDev (fun d => { d with mbxCtl := 0x8000000000000000 })).dev.mbxCtl.getLsbD 63 = true) ∧
    (unhalted base = true ∧ base.pubs = [] ∧ (base.team? 0 0).map (fun u => u.groups.all (fun g => g.2.ops.isEmpty)) = some true) :=
  ⟨meets (by decide +kernel), meets (by decide +kernel), by decide, by decide, ⟨_, rfl⟩, by decide, by decide, by decide, by decide, by decide,
    by decide +kernel, rfl, rfl, rfl⟩

/-- A broadcast with these units left. -/
def casting (w : Broadcast) (l : List Nat) : State := { base with bcasts := [(0, { what := w, work := 1, left := l, waits := [] })] }

theorem witness_SupervisorBroadcasts :
    ((∃ x, base.issuesFor x [] ∧ x.t.sup = true ∧ base.dev.halt = none) ∧ (∃ x, base.issuesFor x [.s 4 1, .s 6 2] ∧ x.t.sup = true) ∧
      (base.onDev (fun d => { d with halt := some 0 })).dev.halt.isSome = true) ∧
    (let s := casting (.tlbinv 2 3 4096) [191]
     ∃ b, s.bcasts.find? 0 = some b ∧ (∀ u ∈ b.left, u = 191) ∧ b.waits = [] ∧ s.engineWaits 2 3 4096 = [] ∧ s.invWaits 191 2 3 4096 = [] ∧
       s.works.getD b.work 0 ≤ 1 ∧ invBehind b.left 191 = false) ∧
    (let s := casting (.tlbinv 2 3 4096) [705]
     ∃ b, s.bcasts.find? 0 = some b ∧ (∀ u ∈ b.left, u = 705) ∧ b.waits = [] ∧ s.engineWaits 2 3 4096 = [] ∧ s.padWaits (705 - 194) 2 3 4096 = [] ∧
       s.works.getD b.work 0 ≤ 1 ∧ invBehind b.left 705 = false) ∧
    (∃ b, (casting .replay [191, 201, 200]).bcasts.find? 0 = some b ∧ b.what = .replay ∧ 191 ∈ b.left ∧ (200 + 191 / 96) ∈ b.left) ∧
    (∃ b, (casting (.tlbinv 2 3 4096) [191, 193, 705, 706]).bcasts.find? 0 = some b ∧ b.what = .tlbinv 2 3 4096 ∧ 191 ∈ b.left ∧ 193 ∈ b.left ∧ 705 ∈ b.left ∧ 706 ∈ b.left ∧
      invBehind b.left 191 = true ∧ invBehind b.left 193 = false ∧ invBehind b.left 705 = true ∧ invBehind b.left 706 = false) ∧
    base.cores.all (fun c => c.2.slots.all (fun tm => tm.2.groups.all (fun g => g.2.ops.all (fun o => o.2.parts.all (fun p => decide (p.st ≠ .parked)))))) = true ∧
    (∃ b, (casting .replay [191, 199]).bcasts.find? 0 = some b ∧ b.what = .replay ∧ 191 ∈ b.left ∧ (200 + 191 / 96) ∉ b.left ∧
      199 ∈ b.left ∧ (200 + dieOfStack (199 - 192)) ∉ b.left) ∧
    ∃ b, (casting .replay [191, 201]).bcasts.find? 0 = some b ∧ b.what = .replay ∧ 201 ∈ b.left :=
  ⟨⟨meets (by decide +kernel), meets (by decide +kernel), rfl⟩, ⟨_, rfl, by decide +kernel⟩, ⟨_, rfl, by decide +kernel⟩, ⟨_, rfl, rfl, by decide +kernel⟩,
    ⟨_, rfl, rfl, by decide +kernel⟩, rfl, ⟨_, rfl, rfl, by decide +kernel⟩, _, rfl, rfl, by decide +kernel⟩


/-- A task of the paddock core on the pseudo-channel of address 0: one bundle at 0x2000, its base at 0x3000. -/
def taskW (st : TaskSt) (pgo : Bool) : Task :=
  { st := st, pgo := pgo, site := ⟨0, 0, 0, 0⟩, asid := 0, sup := true, prio := 0, t := 0, order := 0, pcore := 0, entry := 0x2000, nbund := 0,
    base := 0x3000, argva := 0, argn := 0, pin := 0, stride := 0, compl := 0, work := 0, vb := 0, n := 1, q := 0, lanes := 0xFF, shipped := [0],
    regs := PadRegs.init, code := [(0, 0)], parity := [], zpar := none, got := [], sent := false, team := (0, 0), flight := none, refetch := [], save := none, forced := false }
/-- It reads a word at its base before it does anything else. -/
def reading (st : TaskSt) : Task :=
  { taskW st false with regs := { PadRegs.init with gCount := [(0, 1)] }, code := [(0, 2 ^ 116)] }
/-- A device in which it is task 0, its core with a translation, leave, and, where it is loaded, it as the current task. -/
def tasked (t : Task) (e : TlbEntry) (cur : Option Nat) : State :=
  { (mapped (bytesW 0x2000 16 0 ++ bytesW 0x3000 32 0) base) with
    tasks := [(0, t)], pcores := [(0, { PCore.init with tlb := [e], current := cur })], dies := [(0, { Die.init with grants := [.paddock 0] })] }
/-- With a task of its core that outranks it. -/
def outranked (t : Task) : State := { tasked t page0 (some 0) with tasks := [(0, t), (1, taskW .admitted true)] }

theorem witness_PaddockTasks :
    let one := fun (s : State) (P : Task → Prop) => ∃ t, s.tasks.find? 0 = some t ∧ P t
    let b := fun (t : Task) => (t.code.getD t.regs.pc 0).toNat
    let accs := fun (t : Task) => fetchAccs (b t) t.regs t.base ++ wbAccs (b t) t.regs t.base
    let issues := fun (s : State) (t : Task) => (s.pcore t.pcore).current = some 0 ∧ t.st = .running ∧ t.flight = none ∧ t.sent = false ∧ t.forced = false ∧ t.refetch = [] ∧
      s.best 0 t = true ∧ s.padFree t.pcore = true ∧ s.dev.suspended.contains t.asid = false
    let runs := fun (t : Task) => t.regs.pc ≤ t.nbund ∧ t.zpar = none ∧ bundleLegal (b t) = true ∧ poisonUse (b t) t.regs = false
    let free := fun (s : State) (t : Task) => s.mayLoad 0 t = true ∧ t.got = [] ∧ t.sent = false ∧ t.forced = false
    let code := fun (t : Task) => t.codeWords 0 (t.nbund + 1)
    let pad := fun (t : Task) => tasked t page0 none
    let run := fun (t : Task) => tasked t page0 (some 0)
    one (pad (taskW .waiting true)) (fun t => t.st = .waiting ∧ (pad (taskW .waiting true)).queuedBehind t = false ∧ t.pgo = true ∧ (pad (taskW .waiting true)).padCount t.pcore true < 4) ∧
    (∃ x s1 p, (pad (taskW .waiting false)).xlate { agent := 2, die := 0, core := 0, slot := 0, group := 0, id := 0 } 0 0 0 .load true false = (.ok x, s1) ∧ pinCore 0 x.pa = some p ∧
      s1.padCount p false < 12) ∧
    (let s := (pad (taskW .waiting false)).onCore 0 (fun k => { k with tlb := [{ far with vpn := 0 }] })
     ∃ x s1, s.xlate { agent := 2, die := 0, core := 0, slot := 0, group := 0, id := 0 } 0 0 0 .load true false = (.ok x, s1) ∧ pinCore 0 x.pa = none) ∧
    (∃ t ws s1, (pad (taskW .saved false)).tasks.find? 0 = some t ∧ free (pad (taskW .saved false)) t ∧ (pad (taskW .saved false)).padLoad 0 t (code t) [] = .ok ws s1 ∧
      t.st = .saved) ∧
    (∃ t ws s1, (pad (taskW .admitted true)).tasks.find? 0 = some t ∧ free (pad (taskW .admitted true)) t ∧ (pad (taskW .admitted true)).padLeave t.pcore = true ∧
      (pad (taskW .admitted true)).padLoad 0 t (code t ++ t.argWords) [] = .ok ws s1) ∧
    (let s := pad { taskW .admitted false with argva := 0x3000, argn := 1 }
     ∃ t ws s1, s.tasks.find? 0 = some t ∧ free s t ∧ s.padLoad 0 t (code t ++ t.argWords) [] = .ok ws s1) ∧
    one (outranked (taskW .running false)) (fun t => t.atBoundary = true ∧ (outranked (taskW .running false)).best 0 t = false) ∧
    one (run { taskW .running false with regs := { PadRegs.init with pc := 1 } }) (fun t => issues (run { taskW .running false with regs := { PadRegs.init with pc := 1 } }) t ∧ ¬runs t) ∧
    one (tasked (reading .running) { page0 with rd := false } (some 0)) (fun t => issues (tasked (reading .running) { page0 with rd := false } (some 0)) t ∧ runs t ∧
      (tasked (reading .running) { page0 with rd := false } (some 0)).padCheck t (accs t) = .fault 1 0x3000) ∧
    one { run (reading .running) with keys := [] } (fun t => issues { run (reading .running) with keys := [] } t ∧ runs t ∧
      { run (reading .running) with keys := [] }.padCheck t (accs t) = .hole 5 0x3000) ∧
    (∃ t xs k, (run (reading .running)).tasks.find? 0 = some t ∧ issues (run (reading .running)) t ∧ runs t ∧ (run (reading .running)).padCheck t (accs t) = .go xs ∧ (∀ x ∈ xs, x.2.isSome = true) ∧
      padBarred ((run (reading .running)).onTask 0 (fun t => { t with flight := some xs })) t.asid (((accs t).zip xs).drop t.got.length) = none ∧
      (((run (reading .running)).onTask 0 (fun t => { t with flight := some xs })).padPerform 0 (((accs t).zip xs).drop t.got.length)).tasks.find? 0 = some k ∧
      k.st = .running ∧ k.got.length = (accs t).length ∧ k.forced = false ∧
      (((run (reading .running)).onTask 0 (fun t => { t with flight := some xs })).padPerform 0 (((accs t).zip xs).drop t.got.length)).dev.suspended.contains k.asid = false) ∧
    one (run { reading .running with flight := some [] }) (fun t => t.st = .running ∧ t.flight = some []) ∧
    (let xs : List (Xlat × Option KeyPair) := [({ pa := 0x300000, key := 0, uc := false, mng := true }, some 0)]
     let s := { run { reading .running with flight := some xs } with mangles := [(0, { mangle0 with asid := 3 })] }
     one s (fun t => t.st = .running ∧ t.flight = some xs ∧ t.sent = false ∧ t.got = [] ∧ (padBarred s t.asid (((accs t).zip xs).drop t.got.length)).isSome = true)) ∧
    (let s := { paged [] (tasked (reading .running) far (some 0)) with tasks := [(0, reading .running)] }
     ∃ t a, s.tasks.find? 0 = some t ∧ t.atBoundary = true ∧ t.refetch = [] ∧ bundleLegal (b t) = true ∧ poisonUse (b t) t.regs = false ∧ (accs t).find? (fun a => (s.padEntry t a.va).isNone) = some a ∧
      frozenAt s t.asid a.va = false ∧ (s.padWalk t a.va).1.isNone = true) ∧
    (let s := { tasked (reading .running) far (some 0) with keys := [] }
     ∃ t a, s.tasks.find? 0 = some t ∧ (accs t).find? (fun a => (s.padEntry t a.va).isNone) = some a ∧ frozenAt s t.asid a.va = false ∧
      (s.padWalk t a.va).1.isSome = true) ∧
    (one (pad (taskW .parked false)) (fun t => t.st = .parked) ∧ one (pad (taskW .parkedLoad true)) (fun t => t.st = .parkedLoad)) ∧
    one (pad (taskW (.ending 1) false)) (fun t => t.st = .ending 1 ∧ t.compl = 0) ∧
    (let s := paged (bytesW 0x3000 4 0) (pad { taskW (.ending 0) false with compl := 0x3000 })
     ∃ t, s.tasks.find? 0 = some t ∧ t.st = .ending 0 ∧ t.compl ≠ 0 ∧ t.pcore < 512 ∧
      (match s.completionAdd t.who (1000 + t.pcore / 64) t.asid t.compl t.sup 1 t.work with | .done _ => true | _ => false) = true) ∧
    (let s := pad { taskW (.ending 0) false with compl := 0x3000 }
     ∃ t, s.tasks.find? 0 = some t ∧
      (match { s with keys := [] }.completionAdd t.who (1000 + t.pcore / 64) t.asid t.compl t.sup 1 t.work with | .parked _ => true | _ => false) = true) ∧
    ∀ how, how < 3 → ∃ t g, ((pad (taskW (.returning how) true)).onGroup 0 0 0 (fun g => { g with pgo := some 0 })).tasks.find? 0 = some t ∧ t.st = .returning how ∧
      ((pad (taskW (.returning how) true)).onGroup 0 0 0 (fun g => { g with pgo := some 0 })).group? 0 0 0 = some g ∧ g.pgo = some 0 ∧ g.paths ≠ [] ∧ t.n = 1 ∧ t.regs.wp 0 = false := by
  refine ⟨⟨_, rfl, by decide +kernel⟩, ⟨_, _, _, rfl, rfl, by decide +kernel⟩, ⟨_, _, rfl, rfl⟩, ⟨_, _, _, rfl, by decide +kernel, rfl, rfl⟩,
    ⟨_, _, _, rfl, by decide +kernel, by decide +kernel, rfl⟩, ⟨_, _, _, rfl, by decide +kernel, rfl⟩,
    ⟨_, rfl, by decide +kernel⟩, ⟨_, rfl, by decide +kernel⟩, ⟨_, rfl, by decide +kernel⟩, ⟨_, rfl, by decide +kernel⟩,
    ⟨_, _, _, rfl, by decide +kernel, by decide +kernel, rfl, by decide +kernel, rfl, rfl, rfl, rfl, rfl, rfl⟩, ⟨_, rfl, rfl, rfl⟩, ⟨_, rfl, rfl, rfl, rfl, rfl, by decide +kernel⟩,
    ⟨_, _, rfl, rfl, rfl, by decide +kernel, by decide +kernel, rfl, by decide +kernel, by decide +kernel⟩, ⟨_, _, rfl, rfl, by decide +kernel, by decide +kernel⟩,
    ⟨⟨_, rfl, rfl⟩, _, rfl, rfl⟩, ⟨_, rfl, rfl, rfl⟩, ⟨_, rfl, rfl, by decide +kernel, by decide +kernel, by decide +kernel⟩,
    ⟨_, rfl, by decide +kernel⟩, ?_⟩
  intro how hh
  exact ⟨_, _, rfl, rfl, rfl, rfl, by decide +kernel, rfl, rfl⟩





/-- An operation is under way in a group of a team, one part of it meets a condition. -/
theorem opens {s : State} {P : Team → Group → Op → Part → Prop} [∀ t g o p, Decidable (P t g o p)]
    (h : (match s.team? 0 0, s.group? 0 0 0 with
      | some t, some g => match g.ops.find? 0 with
        | some o => match o.parts[0]? with
          | some p => decide (g.paths ≠ [] ∧ unhalted s = true ∧ P t g o p)
          | none => false
        | none => false
      | _, _ => false) = true) :
    ∃ t g o p, s.team? 0 0 = some t ∧ s.group? 0 0 0 = some g ∧ g.ops.find? 0 = some o ∧ o.parts[0]? = some p ∧ g.paths ≠ [] ∧ s.noHalting ∧
      P t g o p := by
  cases ht : s.team? 0 0 with
  | none => simp [ht] at h
  | some t =>
    cases hg : s.group? 0 0 0 with
    | none => simp [ht, hg] at h
    | some g =>
      cases ho : g.ops.find? 0 with
      | none => simp [ht, hg, ho] at h
      | some o =>
        cases hp : o.parts[0]? with
        | none => simp [ht, hg, ho, hp] at h
        | some p =>
          simp only [ht, hg, ho, hp, decide_eq_true_eq] at h
          exact ⟨t, g, o, p, rfl, rfl, ho, hp, h.1, noHalting_of h.2.1, h.2.2⟩

/-- The state with an operation of its group under way. -/
def opened (s : State) (o : Op) : State := s.onGroup 0 0 0 (fun g => { g with ops := [(0, o)], nextOp := 1 })
/-- A part of an access whose address is translated. -/
def atPa (st : PartSt) (pa : Nat) : Part := partW st (some { pa := pa, key := 0, uc := false, mng := false })
/-- An ordinary access, and a synchronising one, of memory at 0x1000. -/
def loadW (ps : List Part) : Op := opW .load .global 0 (.v 4 .b32) ps
/-- See `loadW`. -/
def atomW (scope : Nat) : Op := { opW (.atomic 0 .n32) .global 1 (.v 4 .n32) [atPa .ready 0x1000] with scope := scope }
/-- A sector in the L1 of core 0, and its line. -/
def cachedW (pinned : Bool) (s : State) : State :=
  s.onCore 0 (fun k => { k with l1 := [(0x10, { way := 0, used := 0, secs := [(0, { data := 5, pois := 0, key := 0, pushed := none, pinned := pinned, writers := [] })] })] })
/-- A sector that core 0 has pinned for a team. -/
def pinnedW (clock : Nat) : State :=
  (cachedW true (mapped (bytesW 0x1000 64 0) base)).onSector 0x40 (fun x => { x with st := .clean, pin := some (0, 0, 0, some (0, 0)), scope := 2, scopeCore := 0 })
    |>.onCore 0 (fun k => { k with clock := clock })

/-- The first part of an operation may take its step. -/
def ready (s : State) (g : Group) (o : Op) (p : Part) : Bool :=
  let u := opened s o
  let at_ := u.physAt ((u.team? 0 0).map (fun t => t.asid)).get!
  decide (p.st = .ready) && g.allows at_ 0 0 && g.inOrder at_ 0 0 0 o p && o.waits.all u.workDone && u.hasRoom 0 0 0 0 0
/-- It is an access of ordinary local memory that nothing keeps back. -/
def plain (s : State) (o : Op) (p : Part) (pa : Nat) : Bool :=
  decide (p.xl = some { pa := pa, key := 0, uc := false, mng := false }) && decide (region pa = .hbm) && decide (s.keys.find? 0 = some 0) &&
    (windowAt s pa).isNone && !matrixPage s pa && !s.pubWaits 0 0 0x1000 && (o.stopper s).isNone && (match s.team? 0 0 with
      | some t => (o.barred t).isNone
      | none => false) && s.mem.errors.isEmpty && s.mem.poison.isEmpty

theorem witness_AccessesTakeTheirStep :
    let is := fun (s : State) (P : Team → Group → Op → Part → Prop) =>
      ∃ t g o p, s.team? 0 0 = some t ∧ s.group? 0 0 0 = some g ∧ g.ops.find? 0 = some o ∧ o.parts[0]? = some p ∧ g.paths ≠ [] ∧ s.noHalting ∧ P t g o p
    let mem := mapped (bytesW 0x1000 64 9) base
    let pad := fun (k : Machine.OpKind) (bad : List Nat) => opened ((padded []).onTeam 0 0 (fun t => { t with scratchPois := bad })) (opW k (.scratch 0 0) 0 .none [partW .ready none])
    is (pad .store []) (fun _ g o p => ready (pad .store []) g o p = true ∧ o.kind = .store) ∧ is (pad .load []) (fun t g o p => ready (pad .load []) g o p = true ∧ t.scratchPois = []) ∧
    is (pad .load [0x80]) (fun t g o p => ready (pad .load [0x80]) g o p = true ∧ ∃ l ∈ p.lanes, ∃ w ∈ wordsOf l.addr l.width, w ∈ t.scratchPois) ∧
    is (opened mem (loadW [atPa .ready (Config.devBase + 0x1000)])) (fun t g o p => ready mem g o p = true ∧ (p.xl.map (fun x => region x.pa)) = some .regs ∧
      o.stopper mem = none ∧ o.barred t = none ∧ ¬∀ l ∈ p.lanes, l.width = 8) ∧
    is (opened mem (loadW [{ atPa .ready (Config.devBase + 0x1000) with lanes := [{ laneW 0x1000 with width := 8 }] }])) (fun t g o p => ready mem g o p = true ∧ o.stopper mem = none ∧ o.barred t = none ∧
      (p.xl.map (fun x => region x.pa)) = some .regs ∧ ∀ l ∈ p.lanes, l.width = 8) ∧
    is (opened mem (loadW [atPa .ready 0x8000000000])) (fun _ g o p => ready mem g o p = true ∧ (p.xl.map (fun x => region x.pa)) = some .hole ∧ p.lanes ≠ [] ∧ mem.pubWaits 0 0 0x1000 = false) ∧
    is (opened base (loadW [atPa .ready 0x1000])) (fun _ g o p => ready base g o p = true ∧ (p.xl.map (fun x => region x.pa)) = some .hbm ∧ p.lanes ≠ [] ∧ base.keys.find? 0 = none) ∧
    is (opened (cachedW false mem) (loadW [atPa .ready 0x1000])) (fun t g o p => ready (cachedW false mem) g o p = true ∧ plain (cachedW false mem) o p 0x1000 = true ∧ o.ord = 0 ∧ t.phaseAt 0x1000 = none ∧
      ((cachedW false mem).sector 0x40).pin = none ∧ (((cachedW false mem).core 0).l1Sec 0x40).map (fun d => d.pois) = some 0) ∧
    is (opened mem (loadW [atPa .ready 0x1000])) (fun t g o p => ready mem g o p = true ∧ plain mem o p 0x1000 = true ∧ o.ord = 0 ∧ t.phaseAt 0x1000 = none ∧ (mem.sector 0x40).pin = none ∧
      (mem.core 0).l1Sec 0x40 = none) ∧
    is (opened mem (opW .store .global 0 .none [atPa .ready 0x1000])) (fun t g o p => ready mem g o p = true ∧ plain mem o p 0x1000 = true ∧ o.kind = .store ∧ t.phaseAt 0x1000 = none) ∧
    (let s := mem.onTeam 0 0 (fun t => { t with phases := [{ phaseW with base := 0x1000, bytes := bytesW 0x1000 256 0 }] })
     is (opened s (opW .store .global 0 .none [atPa .ready 0x1000])) (fun t g o p => ready s g o p = true ∧ plain s o p 0x1000 = true ∧ t.phaseAt 0x1000 = some 0 ∧ t.hasLine 0 0x1000 = true) ∧
     is (opened s (atomW 1)) (fun t g o p => ready s g o p = true ∧ plain s o p 0x1000 = true ∧ o.kind = .atomic 0 .n32 ∧ p.lanes = [laneW 0x1000] ∧ o.parts.length = 1 ∧ t.hasLine 0 0x1000 = true ∧ t.phaseBad 0 0x1000 1 = false) ∧
     is (opened s (atomW 3)) (fun t g o p => ready s g o p = true ∧ p.xl.isSome = true ∧ o.stopper s = none ∧ o.barred t = some 0x1000 ∧ p.lanes ≠ [] ∧
       (g.paths.find? o.path).map (fun q => q.pend.isNone) = some true)) ∧
    is (opened mem (atomW 3)) (fun t g o p => ready mem g o p = true ∧ plain mem o p 0x1000 = true ∧ t.phaseAt 0x1000 = none ∧ mem.mayLog (mem.home 0x1000) (logId t 0 0 0) = true ∧ 3 ≤ o.scope ∧ mem.atomBad 0 t o = [] ∧
      (mem.sector 0x40).pin = none) ∧
    is (opened (pinnedW 0) (atomW 2)) (fun t g o p => (ready (pinnedW 0) g o p && plain (pinnedW 0) o p 0x1000 && decide (o.scope ≤ 2) && decide (o.ord ≠ 2) &&
      decide (((pinnedW 0).sector 0x40).pin = some (0, 0, 0, some (0, 0))) && decide ((((pinnedW 0).core 0).l1Sec 0x40).map (fun d => (d.pois, d.pinned)) = some (0, true)) &&
      !(pinnedW 0).invalsOut 0x40 && !scopeClash ((pinnedW 0).sector 0x40) 0 o.scope (clusterCores (pinnedW 0) 0 t)) = true) ∧
    is (opened mem (loadW [atPa .done 0x1000])) (fun _ _ o _ => o.kind.isRead = true ∧ (∀ q ∈ o.parts, q.returned o.kind = true) ∧ o.fold = none ∧ o.spoiled = false) ∧
    is (opened mem (loadW [partW .walk none])) (fun t _ o p => p.st = .walk ∧ frozenAt (opened mem (loadW [partW .walk none])) t.asid p.addr = false ∧
      ((opened mem (loadW [partW .walk none])).xlate (whoLane ⟨0, 0, 0, o.path⟩) 0 t.asid p.addr o.kind.acc t.sup true).1 = .ok { pa := 0x1000, key := 0, uc := false, mng := false }) ∧
    is (opened base (loadW [partW .walk none])) (fun t _ o p => p.st = .walk ∧ o.parts = [p] ∧ frozenAt (opened base (loadW [partW .walk none])) t.asid p.addr = false ∧
      ((opened base (loadW [partW .walk none])).xlate (whoLane ⟨0, 0, 0, o.path⟩) 0 t.asid p.addr o.kind.acc t.sup true).1 = .fault 2) ∧
    (let o := loadW [atPa .rejected 0x1000]
     let many : State := (opened mem o).onGroup 0 0 0 (fun g => { g with ops := g.ops ++ [(1, loadW ((List.range 256).map (fun i => atPa .ready (0x10000 + 64 * i))))] })
     is (opened mem o) (fun t _ o p => o.coalesced = true ∧ p.st = .rejected ∧ o.rejects < 16 ∧ o.parts.all (fun q => decide (q.st ≠ .walk ∧ q.st ≠ .parked)) = true ∧
       heldEntries ((opened mem o).core 0) 0 0 0 + (o.parts.filter (fun q => q.misses ((opened mem o).core 0) 0 t)).length ≤ 256) ∧
     is many (fun t _ o p => o.coalesced = true ∧ p.st = .rejected ∧ (o.parts.filter (fun q => q.misses (many.core 0) 0 t)).length ≠ 0 ∧
      256 < heldEntries (many.core 0) 0 0 0 + (o.parts.filter (fun q => q.misses (many.core 0) 0 t)).length)) := by
  refine ⟨opens (by decide +kernel), opens (by decide +kernel), opens (by decide +kernel), opens (by decide +kernel), opens (by decide +kernel), opens (by decide +kernel),
    opens (by decide +kernel), opens (by decide +kernel), opens (by decide +kernel), opens (by decide +kernel), ⟨opens (by decide +kernel), opens (by decide +kernel), opens (by decide +kernel)⟩,
    opens (by decide +kernel), opens (by decide +kernel), opens (by decide +kernel), opens (by decide +kernel), opens (by decide +kernel),
    opens (by decide +kernel), opens (by decide +kernel)⟩


/-- A device with one message at the head of the channel from slice 0 to core 0. -/
def sentW (body : MsgBody) (s : State) : State :=
  { s with channels := [(0, [{ sec := 0x40, body := body, ack := some 0 }])], acks := [(0, { left := 1, dest := .nobody none, held := false })] }
/-- A counter of acknowledgements that has reached zero. -/
def ackW (dest : AckTo) (s : State) : State := { s with acks := [(0, { left := 0, dest := dest, held := false })] }
/-- A published line of the page of `page0`. -/
def pubW : Pub := { core := 0, slot := 0, group := 0, asid := 0, sup := true, lines := [(0x10, bytesW 0x1000 4 1)], pois := [], work := 1, parked := false }
/-- A request that another device has sent. -/
def remoteW (what off : Nat) : Remote :=
  { what := what, device := 3, offset := off, key := 0, aop := 0, ty := .n32, acc := laneW off, bytes := [(off, 7)], pois := [], path := 0, seq := 1, port := 0,
    origin := whoLane ⟨0, 0, 0, 0⟩, answer := .nobody none, ofr := false, grp := (0, 0, 0), performed := false }
/-- A core all of whose cache blocks are gone, so that no line can be placed. -/
def noWay (s : State) : State := s.onCore 0 (fun k => { k with blocks := (List.range 16).map (fun b => (b, .scratch)) })

theorem witness_SlicesAndChannels :
    let mem := mapped (bytesW 0x1000 64 9) base
    let damaged := fun (n : Nat) => { mem with mem := { mem.mem with errors := [(0x80, n)] } }
    let clean := mem.onSector 0x40 (fun x => { x with st := .clean })
    let dirty := clean.onSector 0x40 (fun x => { x with st := .dirty, sharers := [0] })
    (cacheable 0x40 = true ∧ (mem.sector 0x40).st = .inv ∧ mem.roomFor 0x40 = true ∧ ∀ d, bit (mem.die d).svqCtl.toNat 0 = false) ∧ (clean.sector 0x40).st ≠ .inv ∧
    (∀ n, n = 1 ∨ n = 2 → (damaged n).mem.errors.find? 0x80 = some n ∧ 0x80 / 2 = 0x40 ∧ region (32 * 0x80) = .hbm ∧ 0x80 ∉ (damaged n).mem.fixes) ∧
    (region (32 * 0x80) ≠ .tier) ∧
    ((clean.sector 0x40).st ≠ .inv ∧ (clean.sector 0x40).pin = none ∧ (clean.sector 0x40).evicting = false ∧ (clean.sector 0x40).reach = []) ∧
    ((dirty.sector 0x40).st = .dirty ∧ (dirty.sector 0x40).pin = none ∧ (dirty.sector 0x40).evicting = false ∧ (dirty.sector 0x40).reach ≠ []) ∧
    ((∃ d, ((cachedW true mem).core 0).l1Sec 0x40 = some d ∧ d.pinned = true) ∧ ∃ d, ((cachedW false mem).core 0).l1Sec 0x40 = some d ∧ d.pinned = false) ∧
    (((pinnedW 8192).sector 0x40).pin = some (0, 0, 0, some (0, 0)) ∧ ((pinnedW 8192).core 0).clock - 0 ≤ 8192) ∧
    (∃ d key g, ((pinnedW 8193).sector 0x40).pin = some (0, 0, 0, some (0, 0)) ∧ 8192 < ((pinnedW 8193).core 0).clock - 0 ∧ ((pinnedW 8193).core 0).l1Sec 0x40 = some d ∧
      (pinnedW 8193).keys.find? d.key = some key ∧ d.pois = 0 ∧ (pinnedW 8193).group? 0 0 0 = some g) ∧
    (∃ x s1 key, ({ mem with pubs := [(0, pubW)] } : State).pubs.find? 0 = some pubW ∧ pubW.lines.find? 0x10 = some (bytesW 0x1000 4 1) ∧ pubW.parked = false ∧ frozenAt mem 0 0x1000 = false ∧
      ({ mem with pubs := [(0, pubW)] } : State).xlate (whoLane ⟨0, 0, 0, 0⟩) 0 0 0x1000 .store true false = (.ok x, s1) ∧ region x.pa = .hbm ∧ mem.keys.find? x.key = some key ∧
      (bytesW 0x1000 4 1).rising = true ∧ (∀ b ∈ bytesW 0x1000 4 1, b.1 / 256 = 0x10) ∧ mem.mem.errors = [] ∧ mem.mem.poison = [] ∧ mem.sectors = []) ∧
    (∃ s1, ({ base with pubs := [(0, pubW)] } : State).xlate (whoLane ⟨0, 0, 0, 0⟩) 0 0 0x1000 .store true false = (.fault 2, s1)) ∧
    (∀ m ∈ [MsgBody.fill 1 0 0, .pin 1 0 0, .update [(0, 1)] 0, .inval, .push 1 0 0 0 0 0], ∃ k, (sentW m mem).channels.getD (0 * 192 + 0) [] = [k] ∧ k.body = m ∧
      (wayFor ((sentW m mem).core 0) (k.sec / 4)).isSome = true ∧ ((sentW m (noWay mem)).core 0).l1Sec 0x40 = none ∧ (wayFor ((sentW m (noWay mem)).core 0) (k.sec / 4)).isSome = false ∧
      ((mem.sector 0x40).evicting = false ∧ ((mem.core 0).epoch 0).toNat = 0 ∧ ((mem.core 0).slots.find? 0).isSome = true)) ∧
    (∃ k, (ackW (.work 1 none) base).acks.find? 0 = some k ∧ k.left = 0 ∧ k.held = false ∧ k.dest = .work 1 none ∧ base.pubs = [] ∧ unhalted base = true) ∧
    (∀ d ∈ [AckTo.task 0, .host 0 0, .nobody none], ∃ k, (ackW d base).acks.find? 0 = some k ∧ k.left = 0 ∧ k.held = false ∧ k.dest = d) ∧
    (∃ k r, (ackW (.remote 0) { base with received := [(0, remoteW 1 0x1000)] }).acks.find? 0 = some k ∧ k.dest = .remote 0 ∧
      ({ base with received := [(0, remoteW 1 0x1000)] } : State).received.find? 0 = some r) ∧
    ((0 < Config.cxlBytes → region (32 * (2 ^ 43 / 32)) = .tier) ∧ (base.sector (2 ^ 43 / 64)).st = .inv ∧ base.roomFor (2 ^ 43 / 64) = true ∧ base.mem.errors = [] ∧ base.mem.poison = []) ∧
    ((mem.core 0).l1.find? 0x10 = none) ∧
    (∃ o k, (ackW (.unit 0 0 0) (queued copyW 1)).acks.find? 0 = some k ∧ k.dest = .unit 0 0 0 ∧ ((ackW (.unit 0 0 0) (queued copyW 1)).core 0).copies.find? 0 = some o) ∧
    (let s := ackW (.part 0 0 0 0 0) (opened mem (opW .store .global 0 .none [atPa .done 0x1000]))
     ∃ k g o p, s.acks.find? 0 = some k ∧ k.dest = .part 0 0 0 0 0 ∧ s.group? 0 0 0 = some g ∧ g.paths ≠ [] ∧ g.ops.find? 0 = some o ∧ o.parts[0]? = some p ∧ o.kind = .store) := by
  refine ⟨⟨by decide +kernel, by decide +kernel, by decide +kernel, fun _ => (by decide +kernel : bit Die.init.svqCtl.toNat 0 = false)⟩, by decide +kernel, ?_, by decide +kernel, by decide +kernel, by decide +kernel,
    ⟨⟨_, rfl, rfl⟩, _, rfl, rfl⟩, by decide +kernel,
    ⟨_, _, _, rfl, by decide +kernel, rfl, rfl, rfl, rfl⟩,
    ⟨_, _, _, rfl, rfl, rfl, rfl, rfl, by decide +kernel, rfl, by decide +kernel, by decide +kernel, rfl, rfl, rfl⟩, ⟨_, rfl⟩, ?_, ⟨_, rfl, rfl, rfl, rfl, rfl, rfl⟩, ?_, ⟨_, _, rfl, rfl, rfl⟩,
    ⟨?_, by decide +kernel⟩, rfl, ⟨_, _, rfl, rfl, rfl⟩, _, _, _, _, rfl, rfl, rfl, by decide +kernel, rfl, rfl, rfl⟩
  case refine_4 => -- the tier's size is left open (log 13): it holds an address as soon as it is not empty
    intro h
    have hs : 32 * (2 ^ 43 / 32) < Config.tierBase + Config.cxlBytes := Nat.lt_add_of_pos_right (n := 32 * (2 ^ 43 / 32)) h
    rw [region, if_neg (by decide), if_pos ⟨by decide, by decide, hs⟩]
  · rintro n (rfl | rfl) <;> decide +kernel
  · intro m hm
    simp only [List.mem_cons, List.not_mem_nil, or_false] at hm
    rcases hm with rfl | rfl | rfl | rfl | rfl <;> exact ⟨_, rfl, rfl, by decide +kernel⟩
  · intro d hd
    simp only [List.mem_cons, List.not_mem_nil, or_false] at hd
    rcases hd with rfl | rfl | rfl <;> exact ⟨_, rfl, rfl, rfl, rfl⟩

/-- The function that answers the host, with a write of register 0x200 or of BAR2, or a read; its space is mapped by the page tables. -/
def hosted (bar off : Nat) (wr rd : Bool) : State :=
  let h : HostAcc := { bar := bar, off := off, bytes := leBytes 8 5, len := 8, ack := none, seq := 0 }
  (paged (bytesW 0x1000 64 9) base).onFn 0 (fun f => { f with pf := true, writes := if wr then [h] else [], reads := if rd then [{ h with bytes := [], seq := 1 }] else [], nextSeq := 2 })
/-- A state that has received it, with device 3 as a peer. -/
def receivedW (r : Remote) : State :=
  { (mapped (bytesW 0x1000 64 9) base) with received := [(0, r)], dev := { base.dev with dlpeer := [(0, 8)] } }
/-- The answer that it gave. -/
def replyW : Reply := { device := 3, path := 0, seq := 1, refused := false, pois := false, value := 0 }

/-- A device with a path to device 3 over port 0, and a store that it has sent there. -/
def linked (queue : List Nat) : State :=
  { base with sent := [(0, { remoteW 1 0x1000 with answer := .work 1 none })], ports := [(0, { up := true, queue := queue, fails := 0 })],
              dev := { base.dev with dlrt := [(3, 0x8000)] } }

theorem witness_HostAndLinkAccesses :
    let fn := fun (s : State) => (s.hostTidy 0).fn 0
    (∃ h r, (fn (hosted 0 0x200 true false)).writes.find? (fun h => !h.bytes.isEmpty) = some h ∧ h.bar = 0 ∧ (fn (hosted 0 0x200 true false)).register h.off = some r ∧
      h.bytes.length = 8 ∧ h.off % 8 = 0) ∧
    (let s := (hosted 2 0x1000 true false).hostTidy 0
     ∃ h, (fn (hosted 2 0x1000 true false)).writes.find? (fun h => !h.bytes.isEmpty) = some h ∧ h.bar ≠ 0 ∧ frozenAt s 0 0x1000 = false ∧
      (s.xlateDie (fn s).who 0 0x1000 .store (supOf s 0)).1 = .ok { pa := 0x1000, key := 0, uc := false, mng := false } ∧ region 0x1000 = .hbm ∧
      (s.xlateDie (fn s).who 0 0x1000 .store (supOf s 0)).2.hostRetry 0x1000 = false ∧ windowAt (s.xlateDie (fn s).who 0 0x1000 .store (supOf s 0)).2 0x1000 = none ∧
      s.keys.find? 0 = some 0 ∧ s.mem.errors = [] ∧ s.mem.poison = []) ∧
    (let s := (hosted 2 0x200000 true false).hostTidy 0
     (s.xlateDie (fn s).who 0 0x200000 .store (supOf s 0)).1 = .fault 0) ∧
    (fn base).writes.find? (fun h => !h.bytes.isEmpty) = none ∧
    (∃ h, (fn (hosted 0 0x200 true true)).reads[0]? = some h ∧ ∃ w ∈ (fn (hosted 0 0x200 true true)).writes, w.seq < h.seq) ∧
    (∃ h r, (fn (hosted 0 0x200 false true)).reads[0]? = some h ∧ h.bar = 0 ∧ (fn (hosted 0 0x200 false true)).writes = [] ∧ (fn (hosted 0 0x200 false true)).register h.off = some r ∧ h.len = 8) ∧
    (∃ h, (fn (hosted 0 0x204 false true)).reads[0]? = some h ∧ h.off % 8 ≠ 0) ∧
    (let s := (hosted 2 0x1000 false true).hostTidy 0
     ∃ h, (fn s).reads[0]? = some h ∧ h.bar ≠ 0 ∧ h.ack = none ∧ h.len ≤ h.bytes.length + min (64 - (0 + 0x1000) % 64) 8 ∧ s.mappedDump 0x1000 = none ∧ frozenAt s 0 0x1000 = false ∧
      (s.xlateDie (fn s).who 0 0x1000 .load (supOf s 0)).1 = .ok { pa := 0x1000, key := 0, uc := false, mng := false }) ∧
    (let s := (hosted 2 0x200000 false true).hostTidy 0
     ∃ h, (fn s).reads[0]? = some h ∧ h.bar ≠ 0 ∧ h.ack = none ∧ s.mappedDump 0x200000 = none ∧ frozenAt s 0 0x200000 = false ∧
      (s.xlateDie (fn s).who 0 0x200000 .load (supOf s 0)).1 = .fault 0) ∧
    (∀ what, what < 3 → ∃ r, (receivedW (remoteW what 0x1000)).received.find? 0 = some r ∧ r.performed = false ∧
      ¬((receivedW r).dev.halt ≠ none ∨ ((receivedW r).dev.dlpeer.getD (r.device / 64) 0).getLsbD (r.device % 64) = false ∨ 0x8000000000 ≤ r.offset ∨ saveArea r.offset = true) ∧
      frozenPa (receivedW r) r.offset = false ∧ (receivedW r).keys.find? r.key = some 0 ∧ windowAt (receivedW r) r.offset = none ∧ (receivedW r).remoteBarred r = none ∧ r.offset % 64 + r.acc.width ≤ 64 ∧
      (∀ b ∈ r.bytes, b.1 / 64 = r.offset / 64) ∧ r.bytes.rising = true) ∧
    (∃ v, atomWrite 0 .n32 (laneW 0x1000) 5 = some v) ∧
    ((let r := remoteW 1 0x1000
      let s := { receivedW r with mangles := [(0, { mangle0 with dataPages := [0] })] }
      r.performed = false ∧ s.remoteBarred r ≠ none) ∧
     ({ hosted 2 0x1000 true false with sent := [(0, { remoteW 1 0 with grp := (3000, 0, 0) })] } : State).hostAway 0 = true) ∧
    (0x8000000000 ≤ (remoteW 0 0x8000000000).offset) ∧
    ({ receivedW (remoteW 0 0x1000) with replies := [replyW] } : State).replies.find? (fun a => a.device = 3 && a.path = 0 && a.seq = 1) = some replyW ∧
    (let s : State := { opened (mapped [] base) (opW .store .global 0 .none [partW .sent none]) with sent := [(0, { remoteW 1 0x1000 with answer := .part 0 0 0 0 0 })] }
     pathsTo s 3 = [] ∧ unhalted s = true ∧ ∃ r g o p, s.sent.find? 0 = some r ∧ r.answer = .part 0 0 0 0 0 ∧ s.group? 0 0 0 = some g ∧ g.paths ≠ [] ∧ g.ops.find? 0 = some o ∧ o.parts[0]? = some p) ∧
    (∀ q ∈ [[0], []], pathsTo (linked q) 3 ≠ [] ∧ (linked q).sent.find? 0 = some { remoteW 1 0x1000 with answer := .work 1 none } ∧ ((linked q).port 0).queue = q ∧
      unhalted (linked q) = true ∧ (linked q).pubs = []) ∧
    (let s := base.onPort 11 (fun _ => { up := true, queue := [], fails := 7 })
     unhalted s = true ∧ (s.port 11).up = true ∧ 8 ≤ (s.port 11).fails + 1 ∧ s.sent.rising = true) ∧
    (let s := base.onPort 11 (fun _ => { up := true, queue := [], fails := 6 })
     (s.port 11).up = true ∧ (s.port 11).fails + 1 < 8) ∧
    ((base.port 11).up = false ∧ (base.onDev (fun d => { d with devstat := 8 })).dev.devstat.getLsbD 3 = true) := by
  refine ⟨⟨_, _, rfl, rfl, rfl, by decide +kernel⟩, ⟨_, rfl, by decide +kernel⟩, by decide +kernel, rfl, ⟨_, rfl, by decide +kernel⟩, ⟨_, _, rfl, rfl, rfl, rfl, by decide +kernel⟩,
    ⟨_, rfl, by decide +kernel⟩, ⟨_, rfl, by decide +kernel⟩, ⟨_, rfl, by decide +kernel⟩, ?_, ⟨_, rfl⟩, by decide +kernel, by decide +kernel, by decide +kernel,
    ⟨rfl, rfl, _, _, _, _, rfl, rfl, rfl, by decide +kernel, rfl, rfl⟩, by decide +kernel, by decide +kernel, by decide +kernel, by decide +kernel⟩
  intro what h
  have hw : what = 0 ∨ what = 1 ∨ what = 2 := by omega
  rcases hw with rfl | rfl | rfl <;> exact ⟨_, rfl, by decide +kernel⟩


/-- The ASID-table entry of space n, beside page tables that map its first 2 MiB to themselves. -/
def ringTables (n : Nat) : Tab Byte :=
  bytesW 0x101000 8 0x102001 ++ bytesW 0x102000 8 0x103001 ++ bytesW 0x103000 8 0x104001 ++ bytesW 0x104000 8 0xBD ++
    bytesW (0x300000 + 16 * n) 16 (2 ^ 64 + 2 ^ 70 + 0x101000)
/-- A state with those of the supervisor's space, which only the model's constant names (log 19). -/
def ringed (s : State) : State :=
  { s with
    mem := { s.mem with bytes := ringTables Config.supervisorAsid.toNat }, keys := [(0, 0)], dev := { s.dev with asidtb := 0x300000, devstat := 1 } }

/-- A byte of it. -/
theorem ring_byte (n i : Nat) (b : Byte) (hi : (leBytes 16 (2 ^ 64 + 2 ^ 70 + 0x101000))[i]? = some b) :
    (ringTables n).find? (0x300000 + 16 * n + i) = some b := by
  have hlt : i < 16 := by
    rcases Nat.lt_or_ge i 16 with h | h
    · exact h
    · rw [List.getElem?_eq_none (by simpa [leBytes] using h)] at hi; cases hi
  have key : ∀ (l : Tab Byte) (t : Tab Byte) (k : Nat), (∀ p ∈ l, p.1 ≠ k) → Tab.find? (l ++ t) k = Tab.find? t k := by
    intro l t k h
    induction l with
    | nil => rfl
    | cons a l ih => simp only [List.cons_append, Tab.find?, if_neg (h a (by simp)), ih (fun p hp => h p (by simp [hp]))]
  rw [ringTables, key]
  · have : ∀ j, j < 16 → Tab.find? (bytesW (0x300000 + 16 * n) 16 (2 ^ 64 + 2 ^ 70 + 0x101000)) (0x300000 + 16 * n + j) =
        (leBytes 16 (2 ^ 64 + 2 ^ 70 + 0x101000))[j]? := by
      intro j hj
      have hj' : j = 0 ∨ j = 1 ∨ j = 2 ∨ j = 3 ∨ j = 4 ∨ j = 5 ∨ j = 6 ∨ j = 7 ∨ j = 8 ∨ j = 9 ∨ j = 10 ∨ j = 11 ∨ j = 12 ∨ j = 13 ∨ j = 14 ∨ j = 15 := by omega
      rcases hj' with rfl | rfl | rfl | rfl | rfl | rfl | rfl | rfl | rfl | rfl | rfl | rfl | rfl | rfl | rfl | rfl <;>
        simp [bytesW, leBytes, Tab.find?, List.zipIdx_cons]
    rw [this i hlt, hi]
  · intro p hp
    have : p.1 < 0x300000 := by
      have h : ∀ p ∈ bytesW 0x101000 8 0x102001 ++ bytesW 0x102000 8 0x103001 ++ bytesW 0x103000 8 0x104001 ++ bytesW 0x104000 8 0xBD, p.1 < 0x300000 := by
        decide +kernel
      exact h p hp
    omega

/-- The entry is live. -/
theorem ring_asid (s : State) (n : Nat) (hn : n < 65536) (hb : s.mem.bytes = ringTables n) (hk : s.mem.keys = []) (hp : s.mem.poison = [])
    (he : s.mem.errors = []) (hs : s.keys = [(0, 0)]) (ht : s.dev.asidtb = 0x300000) :
    asidEntry s n = .ok { dkey := 0, sup := true, noplace := false, root := 0x101000 } := by
  have hbad : ∀ w, s.badWord w = false := by
    intro w; simp [State.badWord, hp, he, Tab.getD]
  have hkey : s.tkey = 0 := by rw [State.tkey, ht]; decide +kernel
  have hpa : bits s.dev.asidtb.toNat 51 20 * 2 ^ 20 + 16 * n = 0x300000 + 16 * n := by
    have : bits s.dev.asidtb.toNat 51 20 * 2 ^ 20 = 0x300000 := by rw [ht]; decide +kernel
    rw [this]
  have hreg : region (0x300000 + 16 * n) = .hbm := by
    have : 0x300000 + 16 * n < Config.hbmBytes := by show _ < 549755813888; omega
    rw [region, if_pos this]
  have hread : s.mem.read 0 (0x300000 + 16 * n) 16 = leBytes 16 (2 ^ 64 + 2 ^ 70 + 0x101000) := by
    rw [Memory.read]
    apply List.ext_getElem?
    intro i
    rcases Nat.lt_or_ge i 16 with h | h
    · have hl : i < (leBytes 16 (2 ^ 64 + 2 ^ 70 + 0x101000)).length := by simpa [leBytes] using h
      have hf := ring_byte n i _ (List.getElem?_eq_getElem hl)
      simp only [List.getElem?_map, List.getElem?_range h, Option.map_some, Memory.byteAt, hb, hf, hk, Tab.find?, List.getElem?_eq_getElem hl]
    · rw [List.getElem?_eq_none (by simpa using h), List.getElem?_eq_none (by simpa [leBytes] using h)]
  have hraw : rawRead s s.tkey (bits s.dev.asidtb.toNat 51 20 * 2 ^ 20 + 16 * n) 16 = .ok (leBytes 16 (2 ^ 64 + 2 ^ 70 + 0x101000)) := by
    rw [hpa, rawRead, stored, hreg, hkey, hs, if_neg (by simp)]
    simp only [Tab.find?, if_true, hread]
    rw [if_neg, if_neg]
    all_goals simp [hbad, hp]
  have hx : leNat (leBytes 16 (2 ^ 64 + 2 ^ 70 + 0x101000)) = 2 ^ 64 + 2 ^ 70 + 0x101000 := by decide +kernel
  have hc : (bit (2 ^ 64 + 2 ^ 70 + 0x101000) 64 && decide (bits (2 ^ 64 + 2 ^ 70 + 0x101000) 127 80 = 0) && decide (bits (2 ^ 64 + 2 ^ 70 + 0x101000) 68 65 = 0) &&
      decide (bits (2 ^ 64 + 2 ^ 70 + 0x101000) 63 52 = 0) && decide (bits (2 ^ 64 + 2 ^ 70 + 0x101000) 11 0 = 0)) = true := by decide +kernel
  have h1 : bits (2 ^ 64 + 2 ^ 70 + 0x101000) 79 71 = 0 := by decide +kernel
  have h2 : bit (2 ^ 64 + 2 ^ 70 + 0x101000) 70 = true := by decide +kernel
  have h3 : bit (2 ^ 64 + 2 ^ 70 + 0x101000) 69 = false := by decide +kernel
  have h4 : bits (2 ^ 64 + 2 ^ 70 + 0x101000) 51 12 * 4096 = 0x101000 := by decide +kernel
  generalize hf : @asidEntry = f; delta asidEntry at hf; subst hf
  simp only [hraw, hx, hc, if_true, h1, h2, h3, h4]

/-- A write of the supervisor's rings in the first 2 MiB of its space has its place, where no word of it is bad. -/
theorem ring_place {s : State} {va n : Nat}
    (hb : s.mem.bytes = ringTables Config.supervisorAsid.toNat) (hk : s.mem.keys = []) (hp : s.mem.poison = []) (he : s.mem.errors = [])
    (hs : s.keys = [(0, 0)]) (ht : s.dev.asidtb = 0x300000)
    (hw : (match walkFrom s Config.supervisorAsid.toNat va 0 5 4 0x101000 [] with
      | .ok e => match applyEntry s e.1 va .store true false with
        | .ok x => decide (stored x.pa = true ∧ windowAt s x.pa = none ∧ x.key = 0)
        | .fault _ => false
      | .error _ => false) = true) : ∃ p, ringPlace s va n = some p := by
  have ha := ring_asid s _ Config.supervisorAsid.isLt hb hk hp he hs ht
  cases hf : walkFrom s Config.supervisorAsid.toNat va 0 5 4 0x101000 [] with
  | error _ => simp [hf] at hw
  | ok e =>
    cases hx : applyEntry s e.1 va .store true false with
    | fault _ => simp [hf, hx] at hw
    | ok x =>
      simp only [hf, hx, decide_eq_true_eq] at hw
      have hwalk : walk s [] Config.supervisorAsid.toNat va = .ok e := by
        generalize hg : @walk = g; delta walk at hg; subst hg
        simp only [ha, walkCached, List.find?_nil, Option.or_none, hf]
      have htr : Machine.translate s Config.supervisorAsid.toNat va .store true false = .ok x := by
        generalize hg : @Machine.translate = g; delta Machine.translate at hg; subst hg
        simp only [hwalk, hx]
      have hany : (wordsOf x.pa n).any s.mem.poison.contains = false := by simp [hp]
      generalize hg : @ringPlace = g; delta ringPlace at hg; subst hg
      simp only [htr, hw.1, hw.2.1, hw.2.2, hs, Tab.find?, hany]
      exact ⟨_, rfl⟩

/-- And so a record is written there. -/
theorem record_writes {s : State} {w : Who} {va : Nat} {bs : List Byte} (h : ∃ p, ringPlace s va 32 = some p) : ∃ s1, recordWrite s w va bs = (true, s1) := by
  obtain ⟨p, h⟩ := h
  generalize hf : @recordWrite = f; delta recordWrite at hf; subst hf
  simp only [h]
  exact ⟨_, rfl⟩
/-- And so bytes are written there. -/
theorem ring_writes {s : State} {w : Who} {va : Nat} {bs : List Byte} (h : ∃ p, ringPlace s va bs.length = some p) : ∃ s1, ringWrite s w va bs = (true, s1) := by
  obtain ⟨p, h⟩ := h
  generalize hf : @ringWrite = f; delta ringWrite at hf; subst hf
  simp only [h]
  exact ⟨_, rfl⟩

/-- A call ring at 0x5000 of the supervisor's space, of 16 records, and where it stands. -/
def calling (ptr : W64) : State := (ringed base).onDie 0 (fun d => { d with scqCtl := 0x5001, scqPtr := ptr })

theorem witness_SupervisorCalls :
    let ctl := fun (s : State) => (s.die 0).scqCtl.toNat
    let tail := fun (s : State) => bits (s.die 0).scqPtr.toNat 15 0
    let head := fun (s : State) => bits (s.die 0).scqPtr.toNat 47 32
    (∃ x, base.issuesFor x [.s 0 2, .s 2 2] ∧ dieOf x.a.core = 0 ∧ bit (ctl base) 0 = false) ∧
    (∃ x, (calling 16).issuesFor x [.s 0 2, .s 2 2] ∧ ringSize (ctl (calling 16)) ≤ (tail (calling 16) + 2 ^ 16 - head (calling 16)) % 2 ^ 16) ∧
    (∃ x, (calling 15).issuesFor x [.s 0 2, .s 2 2] ∧ bit (ctl (calling 15)) 0 = true ∧
      ¬ringSize (ctl (calling 15)) ≤ (tail (calling 15) + 2 ^ 16 - head (calling 15)) % 2 ^ 16 ∧
      ∃ s1, recordWrite ((calling 15).changed x.a) (whoLane x.a) (bits (ctl (calling 15)) 56 5 * 32 + tail (calling 15) % ringSize (ctl (calling 15)) * 32) (callRecord (calling 15) x 200) = (true, s1)) ∧
    (∃ g, (grp (fun g => { g with hold := some .syscall })).group? (bits 0x500000000 31 24) (bits 0x500000000 23 18) (bits 0x500000000 17 13) = some g ∧ g.hold = some .syscall) :=
  ⟨meets (by decide +kernel), meets (by decide +kernel),
    ⟨_, ⟨rfl, rfl, rfl⟩, by decide +kernel, by decide +kernel, record_writes (ring_place rfl rfl rfl rfl rfl rfl (by decide +kernel))⟩, _, rfl, rfl⟩

/-- A sample ring at 0x6000 of it, which is due at once. -/
def sampling (ptr : W64) : State := (ringed base).onDie 0 (fun d => { d with smpCtl := 0x8000000000000000, smpBase := 0x6000, smpPtr := ptr })
/-- A device that keeps checkpoint 15, takes one, replays, or has halted. -/
def devW (f : Device → Device) : State := base.onDev f

theorem witness_SamplesCheckpointsAndDumps :
    let due := fun (s : State) => bit (s.die 0).smpCtl.toNat 63 = true ∧ bits (s.die 0).smpCtl.toNat 55 32 ≤ ((s.core 0).quarter 0).sinceSample
    let at_ := fun (s : State) => ∃ t g p, s.team? 0 0 = some t ∧ s.group? 0 0 0 = some g ∧ g.paths.find? 0 = some p ∧ g.quarter = 0
    let full := fun (s : State) => (bits (s.die 0).smpPtr.toNat 15 0 + 65536 - bits (s.die 0).smpPtr.toNat 47 32) % 65536 = 65535
    let taken := fun (s : State) => (s.onQuarter 0 0 (fun q => { q with sinceSample := 0 })).onDie 0 (fun d => { d with smpSeq := (d.smpSeq + 1) % 2 ^ 32 })
    let k : Checkpoint := { mem := Memory.init, grids := [], order := [], log := [], mangles := [] }
    (at_ base ∧ ¬due base) ∧ (at_ (sampling 65535) ∧ due (sampling 65535) ∧ full (sampling 65535)) ∧
    (∃ t g p, (sampling 0).team? 0 0 = some t ∧ (sampling 0).group? 0 0 0 = some g ∧ g.paths.find? 0 = some p ∧ g.quarter = 0 ∧ due (sampling 0) ∧ ¬full (sampling 0) ∧
      ∃ s1, ringWrite (taken (sampling 0)) { agent := 0, die := 0, core := 0, slot := 0, group := 0, id := 0 } (bits ((sampling 0).die 0).smpBase.toNat 56 6 * 64 + 16 * bits ((sampling 0).die 0).smpPtr.toNat 15 0)
        (leBytes 16 (((sampling 0).die 0).smpSeq % 2 ^ 32 * 2 ^ 96 + sampleRecord (sampling 0) ⟨0, 0, 0, 0⟩ t g p)) = (true, s1)) ∧
    ((devW (fun d => { d with checkpoints := [(15, k)] })).dev.checkpoints.find? (31 % 16) = some k ∧ (devW (fun d => { d with checkpoints := [(15, k)] })).dev.replay = none) ∧
    base.dev.checkpoints.find? (0 % 16) = none ∧ base.dev.ckctl.getLsbD 63 = false ∧
    (let s := devW (fun d => { d with ckctl := 0x8000000000000000 })
     s.dev.ckctl.getLsbD 63 = true ∧ s.dev.halt = none ∧ s.dev.ckTaking = false ∧ ∃ t, s.team? 0 0 = some t ∧ t.run = .running) ∧
    (let s := devW (fun d => { d with ckctl := 0x8000000000000000, ckTaking := true })
     s.dev.ckTaking = true ∧ residentClusters s ≠ [] ∧ residentClusters { s with cores := [] } = [] ∧ s.moves = []) ∧
    (let s := devW (fun d => { d with replay := some 0, replayLog := [(3, [1])] })
     s.dev.replay ≠ none ∧ s.dev.replayLog.getD 3 [] ≠ []) ∧
    base.dumping 0 = false ∧ ∃ n, (devW (fun d => { d with halt := some 0 })).dumping n = true :=
  ⟨⟨⟨_, _, _, rfl, rfl, rfl, rfl⟩, by decide +kernel⟩, ⟨⟨_, _, _, rfl, rfl, rfl, rfl⟩, by decide +kernel, by decide +kernel⟩,
    ⟨_, _, _, rfl, rfl, rfl, rfl, by decide +kernel, by decide +kernel, ring_writes (ring_place rfl rfl rfl rfl rfl rfl (by decide +kernel))⟩,
    by decide +kernel, rfl, rfl, ⟨by decide +kernel, rfl, rfl, _, rfl, rfl⟩, by decide +kernel, by decide +kernel, by decide +kernel, 0, by decide +kernel⟩


/-- A device whose mailbox holds a command, with these doublewords in MBXARG. -/
def mailed (c : Nat) (args : List Nat) (s : State) : State :=
  s.onDev (fun d => { d with mailbox := some c, mbxArg := (args.flatMap (leBytes 8)).zipIdx.map (fun b => (b.2, b.1)) })

/-- A frozen move of the page that holds the last bytes of ASID 65535's space. -/
def freezeW : Nat × Move :=
  (0, { asid := 2 ^ 16 - 1, va := 2 ^ 57 - 4096, lg := 12, old := 0, new := 0, key := 0, piece := 0, map := 0, frozen := true, copied := false })
/-- A stretch of a frozen page stands under the freeze, however long the stretch is. -/
theorem frozen_span {s : State} {m : Nat × Move} {va n : Nat} (h : s.moves = [m]) (hf : m.2.frozen = true)
    (hb : m.2.va + (m.2.from_ - m.2.old) ≤ va ∧ va < m.2.va + (m.2.from_ - m.2.old) + m.2.unit) (hn : 0 < n) : frozenSpan s m.2.asid va n = true := by
  have h1 : m.2.va + (m.2.from_ - m.2.old) < va + n := by omega
  simp [frozenSpan, h, hf, h1, hb.2]

theorem witness_FirmwareCommands :
    let z := fun (s : State) (n : Nat) => s.dev.zeroFrom n
    (base.dev.mailbox ≠ some 1) ∧
    ((mailed 1 [511] base).dev.mailbox = some 1 ∧ (mailed 1 [511] base).dev.arg 0 < 512 ∧ z (mailed 1 [511] base) 72 = true) ∧ 512 ≤ (mailed 1 [512] base).dev.arg 0 ∧
    (z (mailed 1 [0, 0, 0, 0, 0, 0, 0, 0, 0, 1] base) 72 = false) ∧
    ((mailed 2 [511] base).dev.mailbox = some 2 ∧ z (mailed 2 [511] base) 8 = true) ∧
    (let s := mailed 0x10 [0, 0, 0, 0, 2 ^ 57 - 1, 2 ^ 16 - 1] base
     s.dev.mailbox = some 0x10 ∧ ¬(2 ^ 57 ≤ s.dev.arg 4 ∨ 2 ^ 16 ≤ s.dev.arg 5 ∨ z s 48 = false) ∧ frozenSpan s (s.dev.arg 5) (s.dev.arg 4) (30416 + Config.certificateLen) = false ∧
      frozenSpan { s with moves := [freezeW] } (s.dev.arg 5) (s.dev.arg 4) (30416 + Config.certificateLen) = true) ∧ 2 ^ 57 ≤ (mailed 0x10 [0, 0, 0, 0, 2 ^ 57] base).dev.arg 4 ∧
    (∀ n ∈ [3, 7], (mailed 0x11 [n] base).dev.mailbox = some 0x11 ∧ 3 ≤ (mailed 0x11 [n] base).dev.arg 0 ∧ (mailed 0x11 [n] base).dev.arg 0 ≤ 7 ∧ z (mailed 0x11 [n] base) 72 = true) ∧
    ((mailed 0x11 [2] base).dev.arg 0 < 3 ∧ 7 < (mailed 0x11 [8] base).dev.arg 0) ∧
    (∀ n ∈ [300, 1800], (mailed 0x20 [n] base).dev.mailbox = some 0x20 ∧ 300 ≤ (mailed 0x20 [n] base).dev.arg 0 ∧ (mailed 0x20 [n] base).dev.arg 0 ≤ 1800 ∧ z (mailed 0x20 [n] base) 8 = true) ∧
    ((mailed 0x20 [299] base).dev.arg 0 < 300 ∧ 1800 < (mailed 0x20 [1801] base).dev.arg 0) ∧
    ((base.die 0).hotBudget = none ∧ ((base.onDie 0 (fun d => { d with hotBudget := some 1280 })).die 0).hotBudget ≠ none) ∧
    (let s := mailed 0x30 [1] (devW (fun d => { d with dumps := [(1, [0])] }))
     s.dev.mailbox = some 0x30 ∧ s.dev.arg 0 < 2 ∧ z s 8 = true ∧ s.dev.dumps.find? (s.dev.arg 0) = some [0]) ∧ 2 ≤ (mailed 0x30 [2] base).dev.arg 0 ∧
    (let bad := fun (s : State) => 192 ≤ s.dev.arg 0 ∨ 64 ≤ s.dev.arg 1 ∨ 2 ^ 57 ≤ s.dev.arg 2 ∨ 2 ^ 16 ≤ s.dev.arg 3 ∨ z s 32 = false
     bad (mailed 0x31 [192] base) ∧ (¬bad (mailed 0x31 [191, 63] base) ∧ (mailed 0x31 [191, 63] base).team? 191 63 = none) ∧
     (∃ t, ¬bad (mailed 0x31 [0, 0, 0x3000] base) ∧ (mailed 0x31 [0, 0, 0x3000] base).team? 0 0 = some t ∧ ¬∀ g ∈ t.groups, g.2.hold ≠ none ∨ g.2.handling ≠ none) ∧
     ∃ t g, (mailed 0x31 [0, 0, 0x3000] (grp (fun g => { g with hold := some .machineCheck }))).team? 0 0 = some t ∧ (∀ g ∈ t.groups, g.2.hold ≠ none ∨ g.2.handling ≠ none) ∧
      (mailed 0x31 [0, 0, 0x3000] (grp (fun g => { g with hold := some .machineCheck }))).grid? t.grid = some g) ∧
    ((mailed (0x10000 + 2) [] base).dev.mailbox = some (0x10000 + 2) ∧ (mailed 3 [] base).dev.mailbox = some 3 ∧ 3 ∉ [1, 2, 0x10, 0x11, 0x20, 0x30, 0x31]) :=
  by
  refine ⟨?_, ?_, ?_, ?_, ?_, ?_, ?_, ?_, ?_, ?_, ?_, ?_, ?_, ?_, ⟨?_, ?_, ⟨_, ?_, rfl, ?_⟩, _, _, rfl, ?_, rfl⟩, ?_⟩
  case refine_6 => exact ⟨rfl, by decide +kernel, rfl, frozen_span (m := freezeW) rfl rfl (by decide +kernel) (by omega)⟩
  all_goals decide +kernel

theorem witness_OpcodesAndReservedGroups :
    decode 0x00A0100DEADBEEF0 = .ok (.smovi { sd := 513, imm := 0xDEADBEEF }) ∧ 0xC ≤ (0xC000000000000000 : W64).toNat / 2 ^ 60 ∧ 0xC ≤ (0xFFFFFFFFFFFFFFFF : W64).toNat / 2 ^ 60 :=
  ⟨rfl, by decide, by decide⟩

/-- A clause at 0x2000 of one SMOVI, which the group's only path has yet to fetch. -/
def fetching : State :=
  { (mapped (bytesW 0x2000 8 0xC501000000000000 ++ bytesW 0x2008 8 0x00A0100DEADBEEF0) (path (fun p => { p with words := [], pc := 0x2000, fresh := true }))) with
    agenda := [.issue 0 0] }
/-- The path is about to run a word. -/
def running (w : W64) : State := State.reset.placeWord w

theorem witness_StepRunsDecodedInstruction :
    let s0 := fun (s : State) => { s with agenda := [] }
    State.reset.agenda = [] ∧ ({ base with agenda := [.event .deviceReset] } : State).agenda = [.event .deviceReset] ∧
    (∃ c s2 t, (running 0x00A0100DEADBEEF0).agenda = [.issue 0 0] ∧ (s0 (running 0x00A0100DEADBEEF0)).candidates 0 0 = [c] ∧
      ((s0 (running 0x00A0100DEADBEEF0)).clearYield 0 0).approach c.site = .run 0x00A0100DEADBEEF0 s2 ∧
      decode 0x00A0100DEADBEEF0 = .ok (.smovi { sd := 513, imm := 0xDEADBEEF }) ∧
      exec (.smovi { sd := 513, imm := 0xDEADBEEF }) ({ s2 with cur := some c.site }.book c.site) = .next t ∧
      t.polls c.site ({ s2 with cur := some c.site }.pcAt c.site) = false) ∧
    (∃ c s2, (s0 (running 0xC000000000000000)).candidates 0 0 = [c] ∧ ((s0 (running 0xC000000000000000)).clearYield 0 0).approach c.site = .run 0xC000000000000000 s2 ∧
      decode 0xC000000000000000 = .error 1) ∧
    (∃ c t g p hb s2 h bs s3, (s0 fetching).candidates 0 0 = [c] ∧ ((s0 fetching).clearYield 0 0).team? c.site.core c.site.slot = some t ∧
      ((s0 fetching).clearYield 0 0).group? c.site.core c.site.slot c.site.group = some g ∧ g.paths.find? c.site.path = some p ∧ p.wait = .none ∧ p.words = [] ∧
      g.routine = none ∧ g.lateFor c.site.path p = none ∧
      ((s0 fetching).clearYield 0 0).readDesc (whoLane c.site) 0 t.asid .fetch t.sup p.pc.toNat 8 = (.ok hb, s2) ∧ decodeHeader (BitVec.ofNat 64 (leNat hb)) = .ok h ∧
      s2.readDesc (whoLane c.site) 0 t.asid .fetch t.sup ((p.pc.toNat + 8) % 2 ^ 57) (8 * h.count) = (.ok bs, s3) ∧
      clauseError h ((List.range h.count).map (fun i => BitVec.ofNat 64 (leNat ((bs.drop (8 * i)).take 8)))) = 0 ∧ c.site.core = 0) := by
  refine ⟨rfl, rfl, ⟨_, _, _, rfl, rfl, rfl, rfl, rfl, by decide +kernel⟩, ⟨_, _, rfl, rfl, rfl⟩,
    _, _, _, _, _, _, _, _, _, rfl, rfl, rfl, rfl, rfl, rfl, rfl, rfl, rfl, rfl, rfl, by decide +kernel, rfl⟩

theorem witness_MissingRegistersTrap :
    let lacks := fun (regs : List Reg) => ∃ x, (bareRegs base).ctx? = some x ∧ regs.all x.regOk = false
    lacks (sopRegs (sopW .i32 0) 1 .i32) ∧ lacks (Reg.v 4 1 :: srcRegs (vopSrcs (vopW .i32 0) 2)) ∧ lacks (memRegs (memW 0) true) ∧ lacks [.s 1023 1] ∧ lacks [.s 4 2] ∧
    lacks [.s 4 4] ∧ lacks [.s 4 8] ∧ lacks [.v 4 1] ∧ lacks [.v 4 2] ∧ lacks [.acc 1] ∧ lacks [.acc 1, .s 4 1] ∧ lacks [.s 4 1, .s 8 2, .s 12 1] ∧
    lacks (cpyRegs (cpyW false) 2 2) ∧ (∃ x, (bareRegs base).ctx? = some x ∧ x.t.sup = true) ∧
    ∃ x, base.ctx? = some x ∧ [Reg.s 1024 1].all x.regOk = false :=
  by refine ⟨?_, ?_, ?_, ?_, ?_, ?_, ?_, ?_, ?_, ?_, ?_, ?_, ?_, ?_, ?_⟩ <;> exact ⟨_, rfl, rfl⟩

theorem witness_EveryStepKeepsSoundness : (running 0x00A0100DEADBEEF0).sound ∧ ∃ t, step (running 0x00A0100DEADBEEF0) = .next t :=
  ⟨⟨rfl, by intro k hk; cases hk⟩, _, rfl⟩


/-- A walk finds a leaf that meets a condition. -/
theorem walks {r : Except WalkFail (TlbEntry × List WalkEntry)} {P : TlbEntry → Prop} [DecidablePred P]
    (h : (match r with
      | .ok e => decide (P e.1)
      | .error _ => false) = true) : ∃ e seen, r = .ok (e, seen) ∧ P e := by
  cases r with
  | error _ => simp at h
  | ok e => exact ⟨e.1, e.2, rfl, by simpa using h⟩

/-- Page tables that map the page at 0x3000 alone, by a leaf of 4 KiB. -/
def tables4 : Tab Byte :=
  bytesW 0x3000 8 9 ++ bytesW 0x100000 16 (2 ^ 64 + 2 ^ 70 + 0x101000) ++ bytesW 0x101000 8 0x102001 ++ bytesW 0x102000 8 0x103001 ++
    bytesW 0x103000 8 0x104001 ++ bytesW 0x104000 8 0x105001 ++ bytesW 0x105018 8 0x30BD
/-- A device with them, and a move of that page, or of one of 2 MiB, to stack 1. -/
def moving (ms : Tab Move) : State :=
  { base with mem := { base.mem with bytes := tables4 }, keys := [(0, 0)], dev := { base.dev with asidtb := 0x100000, devstat := 1 }, moves := ms }
/-- See `moving`. -/
def moveW (lg piece : Nat) (frozen copied : Bool) : Move :=
  { asid := 0, va := if lg = 12 then 0x3000 else 0, lg := lg, old := if lg = 12 then 0x3000 else 0, new := 2 ^ 36, key := 0, piece := piece, map := 0,
    frozen := frozen, copied := copied }

/-- What the ASID table holds there. -/
theorem entry_of_tables4 : asidEntry (moving [(0, moveW 12 0 true true)]) 0 = .ok { dkey := 0, sup := true, noplace := false, root := 0x101000 } := by
  have h : (match asidEntry (moving [(0, moveW 12 0 true true)]) 0 with
    | .ok a => decide (a = { dkey := 0, sup := true, noplace := false, root := 0x101000 })
    | .error _ => false) = true := by decide +kernel
  revert h
  cases asidEntry (moving [(0, moveW 12 0 true true)]) 0 with
  | ok a => intro h; rw [of_decide_eq_true h]
  | error _ => intro h; cases h

theorem witness_PlacementMoves :
    ((moving [(4, moveW 12 0 false false)]).moveOf 0 0x3000 = some (4, moveW 12 0 false false) ∧
      (moveW 12 0 false false).barred (moving [(4, moveW 12 0 false false)]) = false ∧
      (moveW 12 0 false false).barred { moving [(4, moveW 12 0 false false)] with keys := [] } = true) ∧
    (let s := (moving []).walkFills (placementAt (moving []) 0 0x3000 (2 ^ 36)) [] 0 0x3000
     (moving []).moveOf 0 0x3000 = none ∧ s.moves.find? s.nextMove = none ∧ ∃ e seen, walk s [] 0 0x3000 = .ok (e, seen) ∧
      immovable s 0 0x3000 e = false ∧ spare s (2 ^ 36) (2 ^ e.lg) = true ∧ placeOf (2 ^ 36) ≠ placeOf e.pa ∧ s.keys.find? e.key ≠ none) ∧
    (let s := (moving []).walkFills (placementAt (moving []) 0 0x3000 0x3000) [] 0 0x3000
     ∃ e seen, walk s [] 0 0x3000 = .ok (e, seen) ∧ spare s 0x3000 (2 ^ e.lg) = false) ∧
    -- a move whose entry cannot be reached (the tables' key slot is empty), and one whose entry is reached
    (let last := fun (s : State) (m : Move) => ((s.logAt (s.home m.from_) ((m.asid * 2 ^ 57 + m.va) * 64 + m.piece + 2 ^ 80)).walkFills m.who [] m.asid m.va).rewrite m
     let m := moveW 12 0 true true
     (last { moving [(0, m)] with keys := [] } m).isNone = true ∧ (last (moving [(0, m)]) m).isSome = true) ∧
    (moveW 12 0 false false).frozen = false ∧
    (let m := moveW 12 0 true false
     m.busy (moving [(0, m)]) = false ∧ (moving [(0, m)]).keys.find? m.key = some 0 ∧ (moving [(0, m)]).sectors = [] ∧ (moving [(0, m)]).mem.errors = [] ∧
      (moving [(0, m)]).mem.poison = [] ∧ ({ moving [(0, m)] with keys := [] } : State).keys.find? m.key = none) ∧
    ((moveW 21 30 true true).lg = 21 ∧ (moveW 21 30 true true).piece < 31 ∧ 31 ≤ (moveW 21 31 true true).piece ∧ (moving []).dev.replay = none) ∧
    (let m := moveW 12 0 true true
     let s := moving [(0, m)]
     let inside := fun a => m.from_ ≤ a ∧ a < m.from_ + m.unit
     ∃ a, asidEntry s m.asid = .ok a ∧ s.keys.find? s.tkey = some 0 ∧ leafAt s m.va 5 4 a.root = some 0x105018 ∧ m.lg = 12 ∧ (s.sector (0x105018 / 64)).pin = none ∧ 0x105018 % 8 = 0 ∧ m.new % 4096 = 0 ∧
      ¬inside (0x105018 / 64 * 64) ∧ ¬inside (0x105018 / 64 * 64 + 63) ∧ 64 ≤ m.unit ∧ s.mem.errors = [] ∧ s.mem.poison = []) := by
  refine ⟨by decide +kernel, ⟨rfl, by decide +kernel, walks (by decide +kernel)⟩, walks (by decide +kernel), ?_, rfl, ?_, ?_,
    { dkey := 0, sup := true, noplace := false, root := 0x101000 }, ?_, rfl, ?_⟩
  case refine_4 => exact entry_of_tables4
  · exact ⟨by decide +kernel, by decide +kernel⟩
  · decide +kernel
  · decide +kernel
  · decide +kernel

end Sys2Proof.Tests
end

section
namespace Sys2Proof.Machine

/-! What a write to a line does to the paths (R260), and what every group shows through the shared operations of memory. -/

/-- A path after a write to a line: its mark is gone where it had recorded the line (R260). -/
def Path.unmarked (line : Nat) (p : Path) : Path :=
  match p.spin.mark with
  | some (_, ls) => if ls.contains line then { p with spin := p.spin.cleared } else p
  | none => p

/-- A group after a write to a line. -/
def Group.unmarked (line : Nat) (g : Group) : Group := { g with paths := g.paths.map (fun p => (p.1, p.2.unmarked line)) }

@[simp] theorem Path.unmarked_view (line : Nat) (p : Path) : (p.unmarked line).view = p.view := by
  unfold Path.unmarked
  split
  · split <;> rfl
  · rfl

/-- A team after a write to a line. -/
def Team.unmarked (line : Nat) (t : Team) : Team := { t with groups := t.groups.map (fun g => (g.1, g.2.unmarked line)) }

/-- `clearSpins` changes the paths of its core as `Path.unmarked` says, and no other group. -/
theorem State.clearSpins_group? (s : State) (c line d slot g : Nat) :
    (s.clearSpins c line).group? d slot g = if d = c then (s.group? d slot g).map (Group.unmarked line) else s.group? d slot g := by
  have hteams : ((s.clearSpins c line).core c).slots = (s.core c).slots.map (fun t => (t.1, t.2.unmarked line)) := by
    simp only [State.clearSpins, State.onCore_core, if_true]
    rfl
  split
  · rename_i e
    subst e
    simp only [State.group?, State.team?, hteams]
    rw [Tab.find?_map (s.core d).slots (fun _ t => t.unmarked line)]
    cases (s.core d).slots.find? slot with
    | none => rfl
    | some t => exact Tab.find?_map t.groups (fun _ g => g.unmarked line) g
  · rename_i e
    simp [State.group?, State.team?, State.clearSpins, e]

/-- What a group shows of its paths: the lanes, PC and FMT of each. -/
def Group.shown (g : Group) (n : Nat) : Option (LaneSet × PcVal × W32) := (g.paths.find? n).map Path.view

@[simp] theorem Group.unmarked_shown (line : Nat) (g : Group) : (g.unmarked line).shown = g.shown := by
  funext n
  unfold Group.shown Group.unmarked
  rw [Tab.find?_map g.paths (fun _ p => p.unmarked line)]
  cases g.paths.find? n <;> simp

/-- Every group that stands in `s` stands in `t`, no other one does, and each shows the same paths there. -/
def State.keepsPaths (s t : State) : Prop :=
  ∀ c slot g, (t.group? c slot g).map Group.shown = (s.group? c slot g).map Group.shown

namespace State.keepsPaths

theorem refl (s : State) : s.keepsPaths s := fun _ _ _ => rfl

theorem trans {s t u : State} (h : s.keepsPaths t) (k : t.keepsPaths u) : s.keepsPaths u :=
  fun c slot g => (k c slot g).trans (h c slot g)

/-- A step that leaves the cores alone. -/
theorem of_cores {s t u : State} (h : s.keepsPaths t) (hc : u.cores = t.cores) : s.keepsPaths u := by
  refine h.trans (fun c slot g => ?_)
  simp only [State.group?, State.team?, State.core, hc]

theorem foldl {α : Type} {f : State → α → State} (hf : ∀ s a, State.keepsPaths s (f s a)) (l : List α) {s t : State}
    (h : s.keepsPaths t) : s.keepsPaths (l.foldl f t) := by
  induction l generalizing t with
  | nil => exact h
  | cons a l ih => exact ih (h.trans (hf t a))

theorem ite {p : Prop} [Decidable p] {s t u : State} (ht : s.keepsPaths t) (hu : s.keepsPaths u) : s.keepsPaths (if p then t else u) := by
  split
  · exact ht
  · exact hu

/-- A core changes apart from its teams. -/
theorem onCore {s t : State} (h : s.keepsPaths t) (c : Nat) {f : Core → Core} (hf : ∀ k, (f k).slots = k.slots) :
    s.keepsPaths (t.onCore c f) := by
  refine h.trans (fun d slot g => ?_)
  simp only [State.group?, State.team?, State.onCore_core]
  split
  · rename_i e; subst e; rw [hf]
  · rfl

theorem onSector {s t : State} (h : s.keepsPaths t) (n : Nat) (f : Sector → Sector) : s.keepsPaths (t.onSector n f) := h.of_cores rfl
theorem onDie {s t : State} (h : s.keepsPaths t) (d : Nat) (f : Die → Die) : s.keepsPaths (t.onDie d f) := h.of_cores rfl
theorem onStack {s t : State} (h : s.keepsPaths t) (k : Nat) (f : Stack → Stack) : s.keepsPaths (t.onStack k f) := h.of_cores rfl
theorem setMem {s t : State} (h : s.keepsPaths t) (m : Memory) : s.keepsPaths (t.setMem m) := h.of_cores rfl
theorem storeWord {s t : State} (h : s.keepsPaths t) (key : KeyPair) (w : Nat) (bs : Tab Byte) (pois : Bool) :
    s.keepsPaths (t.storeWord key w bs pois) := h.of_cores rfl
theorem send {s t : State} (h : s.keepsPaths t) (k c : Nat) (m : Msg) : s.keepsPaths (t.send k c m) := h.of_cores rfl
theorem newAck {s t : State} (h : s.keepsPaths t) (n : Nat) (dest : AckTo) : s.keepsPaths (t.newAck n dest).2 := h.of_cores rfl
theorem interrupt {s t : State} (h : s.keepsPaths t) (v : Nat) : s.keepsPaths (t.interrupt v) := h.of_cores rfl
theorem channels {s t : State} (h : s.keepsPaths t) (c : Tab (List Msg)) : s.keepsPaths { t with channels := c } := h.of_cores rfl

theorem clearSpins {s t : State} (h : s.keepsPaths t) (c line : Nat) : s.keepsPaths (t.clearSpins c line) := by
  refine h.trans (fun d slot g => ?_)
  rw [State.clearSpins_group?]
  split
  · cases t.group? d slot g <;> simp
  · rfl

theorem wrote {s t : State} (h : s.keepsPaths t) (line : Nat) : s.keepsPaths (t.wrote line) :=
  foldl (f := fun (s : State) (c : Nat × Core) => s.clearSpins c.1 line) (fun s _ => (refl s).clearSpins _ _) _ h

theorem endWork {s t : State} (h : s.keepsPaths t) (w : Nat) : s.keepsPaths (t.endWork w) := by
  unfold State.endWork
  split
  · exact h
  · exact h.of_cores rfl

theorem onL1 {s t : State} (h : s.keepsPaths t) (c sec : Nat) (f : L1Sec → L1Sec) : s.keepsPaths (t.onL1 c sec f) := by
  refine h.onCore c (fun k => ?_)
  split
  · rfl
  · split <;> rfl

theorem announce {s t : State} (h : s.keepsPaths t) (k sec : Nat) (bs : Tab Byte) (prod : Option Nat) (dest : AckTo) :
    s.keepsPaths (t.announce k sec bs prod dest) := by
  have sends : ∀ (l : List Nat) (m : Nat → Msg) (home n : Nat) (f : Sector → Sector),
      s.keepsPaths (l.foldl (fun s c => s.send home c (m c)) ((((t.onSector sec f).wrote (sec / 4)).newAck n dest).2)) :=
    fun l m home n f => foldl (fun s c => (refl s).send _ _ _) l (((h.onSector sec f).wrote _).newAck n dest)
  unfold State.announce
  dsimp only
  split
  · exact sends _ _ _ _ _
  · exact foldl (fun s r => ((refl s).send _ _ _).onSector _ _) _ (sends _ _ _ _ _)

theorem unpin {s t : State} (h : s.keepsPaths t) (sec work : Nat) : s.keepsPaths (t.unpin sec work) := by
  unfold State.unpin
  dsimp only
  split
  · exact h.endWork _
  · have h1 : s.keepsPaths (t.onSector sec (fun x => { x with pin := none })) := h.onSector _ _
    split
    · exact ((h1.channels _).onSector _ _).endWork _
    · split
      · exact ((h1.channels _).onSector _ _).endWork _
      · split
        · exact ((h1.onL1 _ _ _).onSector _ _).endWork _
        · exact ((((h1.onL1 _ _ _).storeWord _ _ _ _).storeWord _ _ _ _).announce _ _ _ _ _).onSector _ _

theorem recordAt {s t : State} (h : s.keepsPaths t) (x : Xlat) (key : KeyPair) (bs : List Byte) : s.keepsPaths (t.recordAt x key bs) := by
  unfold State.recordAt
  dsimp only
  generalize x.pa :: _ = l
  exact (foldl (fun s pa => (refl s).storeWord _ _ _ _) l (h.unpin _ _)).announce _ _ _ _ _

theorem svWrite {s t : State} (h : s.keepsPaths t) (die type : Nat) (w : Who) (a b : Nat) : s.keepsPaths (t.svWrite die type w a b) := by
  unfold State.svWrite
  split
  · exact h
  · dsimp only
    split
    · exact (h.onDie _ _).onDie _ _
    · exact (((h.onDie _ _).recordAt _ _ _).onDie _ _).interrupt _

end State.keepsPaths

/-- A way to record memory errors leaves what the groups show. -/
abbrev LogWith.keepsPaths (log : LogWith) : Prop := ∀ (s : State) (w : Who) (kind pa : Nat), s.keepsPaths (log s w kind pa)

namespace State.keepsPaths

theorem checkWordBy {log : LogWith} (hl : log.keepsPaths) {s t : State} (h : s.keepsPaths t) (w : Who) (q : Nat) :
    s.keepsPaths (t.checkWordBy log w q) := by
  unfold State.checkWordBy
  split
  · exact h
  · dsimp only
    split
    · exact h
    · split
      · split
        · exact h.setMem _
        · exact ((h.setMem _).onStack _ _).trans (hl _ _ _ _)
      · exact (h.setMem _).trans (hl _ _ _ _)

theorem tierWordBy {log : LogWith} (hl : log.keepsPaths) {s t : State} (h : s.keepsPaths t) (w : Who) (q : Nat) :
    s.keepsPaths (t.tierWordBy log w q) := by
  unfold State.tierWordBy
  split
  · exact h.trans (hl _ _ _ _)
  · exact h.checkWordBy hl _ _

theorem fillBy {log : LogWith} (hl : log.keepsPaths) {s t : State} (h : s.keepsPaths t) (w : Who) (sec : Nat) (done : List Nat) :
    s.keepsPaths (t.fillBy log w sec done) := by
  have words : ∀ l : List Nat, s.keepsPaths (l.foldl (fun s q => s.tierWordBy log w q) t) :=
    fun l => foldl (fun s q => (refl s).tierWordBy hl w q) l h
  unfold State.fillBy
  split
  · exact h
  · dsimp only
    split
    · exact (words _).onSector _ _
    · exact words _

theorem walkReadsBy {log : LogWith} (hl : log.keepsPaths) {s t : State} (h : s.keepsPaths t) (w : Who) (cache : List WalkEntry) (asid va : Nat) :
    s.keepsPaths (t.walkReadsBy log w cache asid va) :=
  foldl (fun s q => (refl s).fillBy hl w q []) _ h

theorem svRecordIn (n : Nat) : ∀ {s t : State}, s.keepsPaths t → ∀ (die type : Nat) (w : Who) (a b : Nat),
    s.keepsPaths (State.svRecordIn n t die type w a b) := by
  induction n with
  | zero => intro s t h die type w a b; exact h.svWrite _ _ _ _ _
  | succ n ih =>
    intro s t h die type w a b
    rw [State.svRecordIn]
    split
    · exact (h.walkReadsBy (fun s w k pa => ih (refl s) _ _ _ _ _) _ _ _ _).svWrite _ _ _ _ _
    · exact h.svWrite _ _ _ _ _

theorem log23 {s t : State} (h : s.keepsPaths t) (w : Who) (kind pa : Nat) : s.keepsPaths (t.log23 w kind pa) := h.svRecordIn 16 _ _ _ _ _

theorem walkFills {s t : State} (h : s.keepsPaths t) (w : Who) (cache : List WalkEntry) (asid va : Nat) :
    s.keepsPaths (t.walkFills w cache asid va) := h.walkReadsBy (fun s _ _ _ => (refl s).log23 _ _ _) _ _ _ _

theorem fillSector {s t : State} (h : s.keepsPaths t) (w : Who) (sec : Nat) : s.keepsPaths (t.fillSector w sec) :=
  h.fillBy (fun s _ _ _ => (refl s).log23 _ _ _) _ _ _

theorem logWalk {s t : State} (h : s.keepsPaths t) (w : Who) (f : WalkFail) : s.keepsPaths (t.logWalk w f) := by
  unfold State.logWalk
  split
  · exact h.log23 _ _ _
  · exact h

end State.keepsPaths

/-- The walk stays a variable of a lemma of its own: the kernel would try to evaluate it on the unknown state. -/
theorem State.xlate_keepsPaths (s : State) (w : Who) (core asid va : Nat) (a : Acc) (sup device : Bool) :
    s.keepsPaths (s.xlate w core asid va a sup device).2 := by
  have enter : ∀ {t : State} (e : TlbEntry), s.keepsPaths t →
      s.keepsPaths (if movingPage t asid va then t else t.onCore core (fun k => { k with tlb := tlbPut k.tlb 64 e })) :=
    fun e h => .ite h (h.onCore core (fun _ => rfl))
  have fills := fun c => (State.keepsPaths.refl s).walkFills w c asid va
  unfold State.xlate
  generalize walk = walked
  as_aux_lemma =>
    dsimp only
    split
    · exact .refl s
    · split
      · exact enter _ (.refl s)
      · split
        · exact (fills _).logWalk _ _
        · exact enter _ ((fills _).onDie _ _)

theorem State.readSector_keepsPaths (s : State) (w : Who) (core : Option Nat) (x : Xlat) (n : Nat) :
    s.keepsPaths (s.readSector w core x n).2 := by
  have unpinned := ((State.keepsPaths.refl s).unpin (x.pa / 64) 0).fillSector w (x.pa / 64)
  unfold State.readSector
  dsimp only
  split
  · exact .of_cores (.refl s) rfl
  · split
    · exact .refl s
    · split
      · exact .refl s
      · split
        · split
          · exact .refl s
          · exact .refl s
        · split
          · split
            · split
              · exact .refl s
              · exact .refl s
            · exact .refl s
          · exact unpinned

theorem State.readVirt_keepsPaths (w : Who) (core asid : Nat) (a : Acc) (sup : Bool) (fuel : Nat) :
    ∀ (s : State) (va n : Nat), s.keepsPaths (s.readVirt w core asid a sup fuel va n).2 := by
  induction fuel with
  | zero => exact fun s _ _ => .refl s
  | succ fuel ih =>
    intro s va n
    have hx := s.xlate_keepsPaths w core asid va a sup false
    rw [State.readVirt]
    dsimp only
    split
    · exact .refl s
    · split
      · exact .refl s
      · split
        · rename_i e; rw [e] at hx; exact hx
        · rename_i x s1 e
          rw [e] at hx
          have hr := hx.trans (s1.readSector_keepsPaths w (some core) x (if 64 - va % 64 < n then 64 - va % 64 else n))
          split
          · rename_i bs s2 e2
            rw [e2] at hr
            have hv := hr.trans (ih s2 ((va + if 64 - va % 64 < n then 64 - va % 64 else n) % 2 ^ 57) (n - if 64 - va % 64 < n then 64 - va % 64 else n))
            split
            · rename_i e3; rw [e3] at hv; exact hv
            · exact hv
          · exact hr

theorem State.readDesc_keepsPaths (s : State) (w : Who) (core asid : Nat) (a : Acc) (sup : Bool) (va n : Nat) :
    s.keepsPaths (s.readDesc w core asid a sup va n).2 := State.readVirt_keepsPaths w core asid a sup 80 s va n

theorem State.codeFault_keepsPaths (s : State) (x : Ctx) (va n : Nat) : s.keepsPaths (s.codeFault x va n).2 := by
  unfold State.codeFault
  generalize List.range (ceilDiv (va % 4096 + n) 4096) = l
  have step : ∀ (l : List Nat) (o : Option (Nat × Nat)) (t : State), s.keepsPaths t → s.keepsPaths (l.foldl (fun (r : Option (Nat × Nat) × State) i =>
      match r with
      | (some e, s) => (some e, s)
      | (none, s) =>
        let at_ := (va / 4096 * 4096 + 4096 * i) % 2 ^ 57
        match s.xlate (whoLane x.a) x.a.core x.t.asid at_ .fetch x.t.sup false with
        | (.fault kind, s) => (some (kind, at_), s)
        | (.ok _, s) => (none, s)) (o, t)).2 := by
    intro l
    induction l with
    | nil => exact fun _ _ h => h
    | cons i l ih =>
      intro o t h
      rw [List.foldl_cons]
      cases o with
      | some e => exact ih _ _ h
      | none =>
        have hx := h.trans (t.xlate_keepsPaths (whoLane x.a) x.a.core x.t.asid ((va / 4096 * 4096 + 4096 * i) % 2 ^ 57) .fetch x.t.sup false)
        dsimp only
        split
        · rename_i e; rw [e] at hx; exact ih _ _ hx
        · rename_i e; rw [e] at hx; exact ih _ _ hx
  exact step l none s (.refl s)

end Sys2Proof.Machine
end

section
namespace Sys2Proof.Machine

/-! Sparse tables that are laid end to end. -/

theorem Tab.find?_append {α : Type} (l m : Tab α) (k : Nat) : Tab.find? (l ++ m) k = (Tab.find? l k).or (Tab.find? m k) := by
  induction l with
  | nil => simp
  | cons p l ih =>
    simp only [List.cons_append, Tab.find?]
    split
    · rfl
    · exact ih

/-- A table of consecutive keys from `b`. -/
theorem Tab.find?_range {α : Type} (b n i : Nat) (f : Nat → α) :
    Tab.find? ((List.range n).map (fun j => (b + j, f j))) (b + i) = if i < n then some (f i) else none := by
  induction n with
  | zero => simp
  | succ n ih =>
    rw [List.range_succ, List.map_append, Tab.find?_append, ih]
    by_cases h : i < n
    · simp [h, Nat.lt_succ_of_lt h]
    · by_cases e : i = n
      · simp [e, Tab.find?]
      · have : ¬ i < n + 1 := by omega
        simp [h, this, Tab.find?, Ne.symm e]

/-! The issuing path in a state whose groups show the paths that they showed: it traps, waits and steps on there. -/

/-- The issuing path of `x` stands in `t` as group `g` of team `u` and path `p`, which shows what it showed at issue. -/
structure Ctx.standsIn (x : Ctx) (t : State) (u : Team) (g : Group) (p : Path) : Prop where
  team : t.team? x.a.core x.a.slot = some u
  group : u.groups.find? x.a.group = some g
  path : g.paths.find? x.a.path = some p
  view : p.view = x.p.view

theorem Ctx.standsIn.group? {x : Ctx} {t : State} {u : Team} {g : Group} {p : Path} (h : x.standsIn t u g p) :
    t.group? x.a.core x.a.slot x.a.group = some g := by
  simp [State.group?, h.team, h.group]

/-- It stands in the state of the issue. -/
theorem State.ctx_stands {s : State} {x : Ctx} (h : s.ctx? = some x) : x.standsIn s x.t x.g x.p := by
  obtain ⟨_, ht, hg, hp, _, _⟩ := State.ctx_spec h
  exact ⟨ht, hg, hp, rfl⟩

/-- It stands in every state that keeps what the groups show. -/
theorem State.keepsPaths.stands {s t : State} {x : Ctx} (h : s.keepsPaths t) (hx : s.ctx? = some x) :
    ∃ u g p, x.standsIn t u g p := by
  have hs := State.ctx_stands hx
  have hk := h x.a.core x.a.slot x.a.group
  rw [hs.group?, Option.map_some, Option.map_eq_some_iff] at hk
  obtain ⟨g, hg, hshown⟩ := hk
  obtain ⟨u, hu, hug⟩ := State.group?_some hg
  have hv := congrFun hshown x.a.path
  rw [Group.shown, Group.shown, hs.path, Option.map_some, Option.map_eq_some_iff] at hv
  obtain ⟨p, hp, hpv⟩ := hv
  exact ⟨u, g, p, hu, hug, hp, hpv⟩

/-- An instruction that traps at its own PC raises the trap. -/
theorem raises_of_trapAt {i : Instr} {s t : State} {x : Ctx} {u : Team} {g : Group} {p : Path} {cause detail addr : Nat}
    (hx : x.standsIn t u g p) (h : exec i s = .next (t.trapAt x.a cause detail addr)) : raises i x s t (x.trapReq cause detail addr) := by
  have hpath : (t.group? x.a.core x.a.slot x.a.group).bind (fun g => g.paths.find? x.a.path) = some p := by
    rw [hx.group?]; exact hx.path
  have hpc : p.pc = x.p.pc := congrArg (fun v => v.2.1) hx.view
  rw [raises, h, State.trapAt, hpath]
  simp only [hpc]
  rfl

/-- An instruction whose path only takes a stall reason waits. -/
theorem waits_of_stallOn {i : Instr} {s : State} {x : Ctx} {reason : Nat} (hx : s.ctx? = some x)
    (h : exec i s = .next (s.stallOn x.a reason)) : waits i x s reason := by
  have hs := State.ctx_stands hx
  obtain ⟨hframe, hgroup⟩ := (Frame.refl hx false).onPath hs.group? hs.path (fun p => { p with stall := some reason })
  refine ⟨_, _, h, ⟨hframe, hgroup, rfl, fun n => ?_⟩, by simp⟩
  exact paths_of_set _ n

/-- A group that changes apart from its paths, as a spin detector sees, and whose path then steps on. -/
theorem Ctx.standsIn.advances {x : Ctx} {t : State} {u : Team} {g : Group} {p : Path} (hx : x.standsIn t u g p)
    (f : Group → Group) (hf : (f g).paths = g.paths) :
    ∃ g', x.now (((t.onG x f).changed x.a).advance x.a) = some g' ∧ g'.rest false = (f g).rest false ∧
      (g'.paths.find? x.a.path).map Path.view = some x.past ∧
      { ((t.onG x f).changed x.a).advance x.a with cores := t.cores, dies := t.dies } = t := by
  let y : Ctx := { x with t := u, g := g, p := p }
  have self : Frame false y t t := ⟨rfl, fun _ => rfl, fun _ _ => rfl, rfl, fun _ _ => rfl, ⟨u, hx.team, rfl⟩, fun _ _ => rfl⟩
  obtain ⟨frame1, group1⟩ := self.onGroup hx.group? f
  obtain ⟨frame2, group2⟩ := frame1.onPath group1 (hf ▸ hx.path) (fun p => { p with spin := { p.spin with changed := true } })
  have others : ∀ n, n ≠ y.a.path → (((f g).paths.set y.a.path { p with spin := { p.spin with changed := true } }).find? n).map Path.view
      = (y.g.paths.find? n).map Path.view := fun n hn => by rw [Tab.find?_set_ne _ _ hn, hf]
  obtain ⟨g', done, hrest⟩ := frame2.advance_values group2 (Tab.find?_set_self ..) rfl others
  refine ⟨g', done.group, hrest, ?_, done.frame.device⟩
  have hpast : y.past = x.past := by
    have hl := congrArg (fun v => v.1) hx.view
    have hpc := congrArg (fun v => v.2.1) hx.view
    have hfmt := congrArg (fun v => v.2.2) hx.view
    simp only [Path.view] at hl hpc hfmt
    simp [Ctx.past, y, hl, hpc, hfmt]
  rw [← hpast]
  simpa [y] using done.paths x.a.path

/-! Launch records (R36, R37, R421). -/

/-- The checks of R37 on a paddock launch record. -/
def padLegal (r : Nat) : Prop :=
  bits r 303 288 ≠ 0 ∧ bits r 317 313 ≤ 16 ∧ bits r 56 0 % 16 = 0 ∧ (bits r 317 313 = 0 ∨ bits r 184 128 % 32 = 0) ∧
    bits r 248 192 % 4 = 0 ∧ bits r 511 320 = 0 ∧ bits r 255 249 = 0 ∧ bits r 191 185 = 0 ∧ bits r 127 121 = 0 ∧ bits r 63 57 = 0

/-- What a record gives its tasks, the same for each: state, entry, bundles, base, stride, arguments, completion word and PRIO. -/
def Task.ofRecord (t : Task) (r asid : Nat) : Prop :=
  t.st = .waiting ∧ t.entry = bits r 56 0 ∧ t.nbund = bits r 312 304 ∧ t.base = bits r 120 64 ∧ t.stride = bits r 287 256 ∧
    t.argva = bits r 184 128 ∧ t.argn = bits r 317 313 ∧ t.compl = bits r 248 192 ∧ t.prio = bits r 319 318 ∧ t.asid = asid

/-- A record that fails a check makes no task. -/
theorem padRecord_illegal {r : Nat} (h : ¬padLegal r) (site : Site) (team : Nat × Nat) (asid : Nat) (sup : Bool) :
    padRecord r site team asid sup = none := by
  simp only [padRecord]
  refine if_pos ?_
  simp only [padLegal] at h
  omega

/-- A legal record makes as many tasks as it says. -/
theorem padRecord_legal {r : Nat} (h : padLegal r) (site : Site) (team : Nat × Nat) (asid : Nat) (sup : Bool) :
    ∃ t, padRecord r site team asid sup = some (bits r 303 288, t) ∧ t.ofRecord r asid := by
  simp only [padRecord]
  rw [if_neg]
  · exact ⟨_, rfl, rfl, rfl, rfl, rfl, rfl, rfl, rfl, rfl, rfl, rfl⟩
  · simp only [padLegal] at h
    omega

/-- The `n` tasks of a launch enter the device under one work. -/
def State.launchTasks (s : State) (n work : Nat) (t : Task) : State :=
  { s with
    tasks := s.tasks ++ (List.range n).map (fun i => (s.nextTask + i, { t with t := i, order := s.ageCtr + i, work := work })),
    nextTask := s.nextTask + n, ageCtr := s.ageCtr + n }

theorem State.launchTasks_find? {s : State} {n i : Nat} (work : Nat) (t : Task) (hfree : ∀ k, s.nextTask ≤ k → s.tasks.find? k = none)
    (hi : i < n) : (s.launchTasks n work t).tasks.find? (s.nextTask + i) = some { t with t := i, order := s.ageCtr + i, work := work } := by
  simp only [State.launchTasks]
  rw [Tab.find?_append, hfree _ (Nat.le_add_right ..), Option.none_or]
  exact (Tab.find?_range s.nextTask n i (fun j => { t with t := j, order := s.ageCtr + j, work := work })).trans (if_pos hi)

section Plaunch

variable {f : EngF} {s : State} {x : Ctx} (h : s.issuesFor x [.s f.sa 2])
include h

theorem plaunch_misaligned (hva : x.pairVA f.sa % 64 ≠ 0) : exec (.plaunch f) s = .next (s.trapAt x.a 6 0 0) := by
  show Host.Outcome.next (s.issue _ _) = _
  rw [State.issue_eq h, if_pos hva]

theorem plaunch_looks (hva : x.pairVA f.sa % 64 = 0) (hact : x.act = 0) : exec (.plaunch f) s = .next (s.lookOperand x (x.pairVA f.sa) 64
      (fun bs => (padRecord (leNat bs) x.a (s.teamName x.t) x.t.asid x.t.sup).isSome) ((s.onG x (fun g => g.fill f.fn [] [])).advance x.a)) := by
  show Host.Outcome.next (s.issue _ _) = _
  rw [State.issue_eq h, if_neg (not_not_intro hva), if_pos hact]

theorem plaunch_unsettled (hva : x.pairVA f.sa % 64 = 0) (hact : x.act ≠ 0) (hset : x.settled = false) :
    exec (.plaunch f) s = .next (s.stallOn x.a 4) := by
  show Host.Outcome.next (s.issue _ _) = _
  rw [State.issue_eq h, if_neg (not_not_intro hva), if_neg hact, State.release, hset]
  rfl

variable (hva : x.pairVA f.sa % 64 = 0) (hact : x.act ≠ 0) (hset : x.settled = true) (hpins : pinsOf s x.a.core x.a.slot = [])
  {bs : List Byte} {s1 : State}
  (hread : s.readDesc (whoLane x.a) x.a.core x.t.asid .load x.t.sup (x.pairVA f.sa) 64 = (.ok bs, s1))
include hva hact hset hpins hread

theorem plaunch_refuses (hrec : padRecord (leNat bs) x.a (s1.teamName x.t) x.t.asid x.t.sup = none) :
    exec (.plaunch f) s = .next (s1.trapAt x.a 6 0 0) := by
  show Host.Outcome.next (s.issue _ _) = _
  rw [State.issue_eq h, if_neg (not_not_intro hva), if_neg hact, State.release, hset, hpins, State.readOperand, hread]
  simp [hrec]

theorem plaunch_launches {n : Nat} {t : Task} (hrec : padRecord (leNat bs) x.a (s1.teamName x.t) x.t.asid x.t.sup = some (n, t)) :
    exec (.plaunch f) s = .next (((((s1.newWork n).2.launchTasks n s1.nextWork t).onG x
      (fun g => { g with tokens := g.tokens.set f.fn (.tasks s1.nextWork) })).changed x.a).advance x.a) := by
  show Host.Outcome.next (s.issue _ _) = _
  rw [State.issue_eq h, if_neg (not_not_intro hva), if_neg hact, State.release, hset, hpins, State.readOperand, hread]
  simp only [hrec]
  rfl

end Plaunch

end Sys2Proof.Machine
end

section
namespace Sys2Proof.Machine

/-- The look at a record with no lane active, which no wait stops: a record that is not as `ok` says traps; else the path goes on. -/
theorem State.lookOperand_cases {i : Instr} {s go : State} {x : Ctx} {va n : Nat} {ok : List Byte → Bool} (hx : s.ctx? = some x)
    (hexec : exec i s = .next (s.lookOperand x va n ok go)) :
    let look := (s.readDesc (whoLane x.a) x.a.core x.t.asid .load x.t.sup va n).1
    (∀ bs, look = .ok bs → ok bs = false → raises i x s s (x.trapReq 6 0 0)) ∧
    (look ≠ .wait → (∀ bs, look = .ok bs → ok bs = true) → exec i s = .next go) := by
  rw [State.lookOperand] at hexec
  constructor
  · intro bs hbs hno
    rw [hbs] at hexec
    simp only [hno] at hexec
    exact raises_of_trapAt (State.ctx_stands hx) hexec
  · intro hwait hok
    rw [hexec]
    split
    · rename_i bs hbs
      rw [hok bs hbs, if_pos rfl]
    · contradiction
    · rfl

/-- Whether a record makes tasks is whether it passes the checks of R37. -/
theorem padRecord_isSome_iff (r : Nat) (site : Site) (team : Nat × Nat) (asid : Nat) (sup : Bool) :
    (padRecord r site team asid sup).isSome = true ↔ padLegal r := by
  by_cases h : padLegal r
  · obtain ⟨t, ht, -⟩ := padRecord_legal h site team asid sup
    simp [ht, h]
  · simp [padRecord_illegal h, h]

/-- A group that keeps its rest keeps its tokens and its PGO task. -/
theorem Group.of_rest {g g' : Group} (h : g'.rest false = g.rest false) : g'.tokens = g.tokens ∧ g'.pgo = g.pgo := by
  have tokens := congrArg Group.tokens h
  have pgo := congrArg Group.pgo h
  exact ⟨tokens, pgo⟩

/-- A device that is as before but for cores and dies has its tasks and works as before. -/
theorem State.of_device {s t : State} (h : { t with cores := s.cores, dies := s.dies } = s) : t.tasks = s.tasks ∧ t.works = s.works := by
  have tasks := congrArg State.tasks h
  have works := congrArg State.works h
  exact ⟨tasks, works⟩

/-- A new work that has parts is not finished. -/
theorem State.newWork_open (s : State) {n : Nat} (hn : n ≠ 0) : (s.newWork n).2.workDone s.nextWork = false := by
  simp [State.newWork, State.workDone, hn]

section Plaunch

variable {f : EngF} {s : State} {x : Ctx} (h : s.issuesFor x [.s f.sa 2])
include h

/-- With no active lane the record is looked at, and the token is filled with nothing. -/
theorem plaunch_with_no_lane (hva : x.pairVA f.sa % 64 = 0) (hact : x.act = 0) :
    let look := (s.readDesc (whoLane x.a) x.a.core x.t.asid .load x.t.sup (x.pairVA f.sa) 64).1
    (∀ bs, look = .ok bs → ¬padLegal (leNat bs) → raises (.plaunch f) x s s (x.trapReq 6 0 0)) ∧
    (look ≠ .wait → (∀ bs, look = .ok bs → padLegal (leNat bs)) → doneAs (.plaunch f) x s x.past (x.g.fill f.fn [] [])) := by
  obtain ⟨bad, good⟩ := State.lookOperand_cases h.1 (plaunch_looks h hva hact)
  constructor
  · intro bs hbs hno
    exact bad bs hbs (Bool.not_eq_true _ ▸ mt (padRecord_isSome_iff ..).mp hno)
  · intro hwait hok
    obtain ⟨g', done⟩ := retires_group h.1 (fun g => g.fill f.fn [] []) rfl
    exact ⟨_, g', good hwait (fun bs hbs => (padRecord_isSome_iff ..).mpr (hok bs hbs)), done⟩

/-- The record has been read: the path stands where it stood. -/
theorem plaunch_stands {bs : List Byte} {s1 : State}
    (hread : s.readDesc (whoLane x.a) x.a.core x.t.asid .load x.t.sup (x.pairVA f.sa) 64 = (.ok bs, s1)) : ∃ u g p, x.standsIn s1 u g p := by
  have hk := s.readDesc_keepsPaths (whoLane x.a) x.a.core x.t.asid .load x.t.sup (x.pairVA f.sa) 64
  rw [hread] at hk
  exact hk.stands h.1

variable (hva : x.pairVA f.sa % 64 = 0) (hact : x.act ≠ 0) (hset : x.settled = true) (hpins : pinsOf s x.a.core x.a.slot = [])
  {bs : List Byte} {s1 : State}
  (hread : s.readDesc (whoLane x.a) x.a.core x.t.asid .load x.t.sup (x.pairVA f.sa) 64 = (.ok bs, s1))
include hva hact hset hpins hread

theorem plaunch_raises (hrec : ¬padLegal (leNat bs)) : raises (.plaunch f) x s s1 (x.trapReq 6 0 0) := by
  obtain ⟨u, g, p, hx⟩ := plaunch_stands h hread
  exact raises_of_trapAt hx (plaunch_refuses h hva hact hset hpins hread (padRecord_illegal hrec ..))

theorem plaunch_leads (hrec : padLegal (leNat bs)) (hfree : ∀ k, s1.nextTask ≤ k → s1.tasks.find? k = none) :
    leads (.plaunch f) s (fun t =>
      (x.now t).map (fun g => (g.token f.fn, (g.paths.find? x.a.path).map Path.view)) = some (.tasks s1.nextWork, some x.past) ∧
      t.workDone s1.nextWork = false ∧
      ∀ i, i < bits (leNat bs) 303 288 → ∃ k, t.tasks.find? (s1.nextTask + i) = some k ∧ k.ofRecord (leNat bs) x.t.asid ∧
        k.t = i ∧ k.work = s1.nextWork) := by
  obtain ⟨u, g, p, hx⟩ := plaunch_stands h hread
  obtain ⟨t, hrecord, hfields⟩ := padRecord_legal hrec x.a (s1.teamName x.t) x.t.asid x.t.sup
  have hcount : bits (leNat bs) 303 288 ≠ 0 := hrec.1
  generalize bits (leNat bs) 303 288 = n at hrecord hcount ⊢
  have hlaunch : x.standsIn ((s1.newWork n).2.launchTasks n s1.nextWork t) u g p := ⟨hx.team, hx.group, hx.path, hx.view⟩
  obtain ⟨g', hnow, hrest, hview, hdevice⟩ := hlaunch.advances (fun g => { g with tokens := g.tokens.set f.fn (.tasks s1.nextWork) }) rfl
  obtain ⟨htasks, hworks⟩ := State.of_device hdevice
  refine ⟨_, plaunch_launches h hva hact hset hpins hread hrecord, ?_, ?_, fun i hi => ?_⟩
  · rw [hnow, Option.map_some, hview, Group.token, (Group.of_rest hrest).1]
    simp [Tab.getD]
  · rw [State.workDone, hworks]
    exact s1.newWork_open hcount
  · have hfind := State.launchTasks_find? (s := (s1.newWork n).2) s1.nextWork t hfree hi
    exact ⟨{ t with t := i, order := (s1.newWork n).2.ageCtr + i, work := s1.nextWork }, htasks ▸ hfind, hfields, rfl, rfl⟩

end Plaunch

/-- The task that PGO ships from `s` to core `p` (R422). -/
def Ctx.pgoTask (x : Ctx) (f : EngF) (s : State) (p : Nat) : Task :=
  { st := .waiting, pgo := true, site := x.a, team := s.teamName x.t, asid := x.t.asid, sup := x.t.sup, prio := 0, t := 0, order := s.ageCtr,
    pcore := p, entry := x.pairVA f.sb, nbund := (x.g.sreg (f.sb + 2)).toNat, base := x.pairVA f.sa, argva := 0, argn := 0,
    pin := x.pairVA f.sa, stride := 0, compl := 0, work := s.nextWork, vb := f.x8, n := f.n4 + 1, q := f.n2, lanes := x.act,
    shipped := (List.range (f.n4 + 1)).map (fun j => (x.g.vreg (f.x8 + j)).extractLsb' (256 * f.n2) 256), regs := PadRegs.init,
    code := [], parity := [], zpar := none, got := [], sent := false, flight := none, refetch := [], save := none, forced := false }

/-- A task enters the device under a work of its own. -/
def State.shipTask (s : State) (t : Task) : State :=
  { (s.newWork 1).2 with tasks := s.tasks.set s.nextTask t, nextTask := s.nextTask + 1, ageCtr := s.ageCtr + 1 }

section Pgo

/-- A word of 32 bits has a bit from `n` up exactly where it is no number of `n` bits. -/
theorem bits_high_eq_zero_iff (w : W32) (n : Nat) (hn : n ≤ 31) : bits w.toNat 31 n = 0 ↔ w.toNat < 2 ^ n := by
  have hw : w.toNat / 2 ^ n < 2 ^ (31 + 1 - n) := by
    rw [Nat.div_lt_iff_lt_mul (Nat.two_pow_pos n), ← Nat.pow_add, Nat.sub_add_cancel (by omega)]
    exact w.isLt
  rw [bits, Nat.mod_eq_of_lt hw, Nat.div_eq_zero_iff_lt (Nat.two_pow_pos n)]

/-- The entry and the bundles are as R422 asks. -/
theorem pgo_accepts {f : EngF} {x : Ctx} (halign : x.pairVA f.sb % 16 = 0) (hn : (x.g.sreg (f.sb + 2)).toNat < 2 ^ 9) :
    ¬(x.pairVA f.sb % 16 ≠ 0 ∨ bits (x.s (f.sb + 2)).toNat 31 9 ≠ 0) := by
  rintro (hbad | hbad)
  · exact hbad halign
  · exact hbad ((bits_high_eq_zero_iff _ 9 (by decide)).mpr hn)

variable {f : EngF} {s : State} {x : Ctx}
  (h : s.issuesFor x ((List.range (f.n4 + 1)).map (fun j => Reg.v (f.x8 + j) 1) ++ [.s f.sa 2, .s f.sb 4]))
include h

theorem pgo_refuses (hbad : x.pairVA f.sb % 16 ≠ 0 ∨ 2 ^ 9 ≤ (x.g.sreg (f.sb + 2)).toNat) :
    exec (.pgo f) s = .next (s.trapAt x.a 6 0 0) := by
  show Host.Outcome.next (s.issue _ _) = _
  rw [State.issue_eq h]
  refine congrArg _ (if_pos (hbad.imp_right fun hn => ?_))
  rw [Ctx.s, Ne, bits_high_eq_zero_iff _ 9 (by decide)]
  exact Nat.not_lt.mpr hn

variable (halign : x.pairVA f.sb % 16 = 0) (hn : (x.g.sreg (f.sb + 2)).toNat < 2 ^ 9)
include halign hn

theorem pgo_with_no_lane (hact : x.act = 0) : exec (.pgo f) s = .next (s.advance x.a) := by
  show Host.Outcome.next (s.issue _ _) = _
  rw [State.issue_eq h]
  exact congrArg _ ((if_neg (pgo_accepts halign hn)).trans (if_pos hact))

variable (hact : x.act ≠ 0) {xl : Xlat} {s1 : State}
  (hpin : s.xlate (whoLane x.a) x.a.core x.t.asid (x.pairVA f.sa) .load x.t.sup false = (.ok xl, s1))
include hact hpin

/-- A pin that lies nowhere. -/
theorem pgo_unpinned (hnone : pinCore x.a.core xl.pa = none) : exec (.pgo f) s = .next (s1.trapAt x.a 0x11 0 0) := by
  show Host.Outcome.next (s.issue _ _) = _
  rw [State.issue_eq h]
  refine congrArg _ ((if_neg (pgo_accepts halign hn)).trans ((if_neg hact).trans ?_))
  simp only [hpin, hnone]

variable {p : Nat} {s2 : State} (hcore : pinCore x.a.core xl.pa = some p)
  (hcode : s1.codeFault x (x.pairVA f.sb) (16 * ((x.g.sreg (f.sb + 2)).toNat + 1)) = (none, s2)) (hland : x.landed = true)
include hcore hcode hland

/-- The check of the code's pages stays a variable of a lemma of its own: the kernel would try to evaluate it on the unknown state. -/
theorem pgo_ships : exec (.pgo f) s = .next ((((s2.shipTask (x.pgoTask f s2 p)).onG x
    (fun g => { g with pgo := some s2.nextTask })).changed x.a).advance x.a) := by
  show Host.Outcome.next (s.issue _ _) = _
  rw [State.issue_eq h]
  refine congrArg _ ((if_neg (pgo_accepts halign hn)).trans ((if_neg hact).trans ?_))
  revert hcode
  generalize State.codeFault = code
  as_aux_lemma =>
    intro hcode
    simp only [hpin, hcore, Ctx.s, hcode, hland]
    rfl

end Pgo

section Pgo

variable {f : EngF} {s : State} {x : Ctx}
  (h : s.issuesFor x ((List.range (f.n4 + 1)).map (fun j => Reg.v (f.x8 + j) 1) ++ [.s f.sa 2, .s f.sb 4]))
  (halign : x.pairVA f.sb % 16 = 0) (hn : (x.g.sreg (f.sb + 2)).toNat < 2 ^ 9)
  (hact : x.act ≠ 0) {xl : Xlat} {s1 : State}
  (hpin : s.xlate (whoLane x.a) x.a.core x.t.asid (x.pairVA f.sa) .load x.t.sup false = (.ok xl, s1))
include h halign hn hact hpin

theorem pgo_raises (hnone : pinCore x.a.core xl.pa = none) : raises (.pgo f) x s s1 (x.trapReq 0x11 0 0) := by
  have hk := s.xlate_keepsPaths (whoLane x.a) x.a.core x.t.asid (x.pairVA f.sa) .load x.t.sup false
  rw [hpin] at hk
  obtain ⟨u, g, p, hx⟩ := hk.stands h.1
  exact raises_of_trapAt hx (pgo_unpinned h halign hn hact hpin hnone)

theorem pgo_leads {p : Nat} {s2 : State} (hcore : pinCore x.a.core xl.pa = some p)
    (hcode : s1.codeFault x (x.pairVA f.sb) (16 * ((x.g.sreg (f.sb + 2)).toNat + 1)) = (none, s2)) (hland : x.landed = true) :
    leads (.pgo f) s (fun t =>
      (x.now t).map (fun g => (g.pgo, (g.paths.find? x.a.path).map Path.view)) = some (some s2.nextTask, some x.past) ∧
      t.tasks.find? s2.nextTask = some (x.pgoTask f s2 p)) := by
  have hk := s.xlate_keepsPaths (whoLane x.a) x.a.core x.t.asid (x.pairVA f.sa) .load x.t.sup false
  have hk2 := s1.codeFault_keepsPaths x (x.pairVA f.sb) (16 * ((x.g.sreg (f.sb + 2)).toNat + 1))
  rw [hpin] at hk
  rw [hcode] at hk2
  obtain ⟨u, g, q, hx⟩ := (hk.trans hk2).stands h.1
  have hship : x.standsIn (s2.shipTask (x.pgoTask f s2 p)) u g q := ⟨hx.team, hx.group, hx.path, hx.view⟩
  obtain ⟨g', hnow, hrest, hview, hdevice⟩ := hship.advances (fun g => { g with pgo := some s2.nextTask }) rfl
  refine ⟨_, pgo_ships h halign hn hact hpin hcore hcode hland, ?_, ?_⟩
  · rw [hnow, Option.map_some, hview, (Group.of_rest hrest).2]
  · rw [(State.of_device hdevice).1]
    exact Tab.find?_set_self ..

end Pgo

section Pwait

variable {f : EngF} {s : State} {x : Ctx} (h : s.issuesFor x [])
include h

theorem pwait_goes_on (hdone : s.tokenDone x.g f.fn = true) : doneAs (.pwait f) x s x.past x.g := by
  obtain ⟨g', done⟩ := retires_plain h.1
  refine ⟨_, g', ?_, done⟩
  show Host.Outcome.next (s.issue _ _) = _
  rw [State.issue_eq h, if_pos hdone]

theorem pwait_waits (hopen : s.tokenDone x.g f.fn = false) : waits (.pwait f) x s 10 := by
  refine waits_of_stallOn h.1 ?_
  show Host.Outcome.next (s.issue _ _) = _
  rw [State.issue_eq h, hopen]
  rfl

end Pwait

/-- Settles O36: an operand read, a translation and a look leave what every group shows, so the path traps, waits or steps on where it
issued. -/
theorem paddockLaunchInstructions : Obligations.PaddockLaunchInstructions := by
  intro f s x
  refine ⟨fun h => ⟨fun hva => ?_, fun hact hva => plaunch_with_no_lane h hva hact,
      fun hact hva hset => waits_of_stallOn h.1 (plaunch_unsettled h hva hact hset), ?_⟩,
    fun h => ⟨fun hbad => raises_of_trapAt (State.ctx_stands h.1) (pgo_refuses h hbad), fun halign hn hact => ?_, ?_⟩,
    fun h => ⟨pwait_goes_on h, pwait_waits h⟩⟩
  · exact raises_of_trapAt (State.ctx_stands h.1) (plaunch_misaligned h hva)
  · rintro bs s1 ⟨hact, hset, hpins⟩ hva hread
    refine ⟨plaunch_raises h hva hact hset hpins hread, fun hlegal hfree => ?_⟩
    obtain ⟨t, hexec, hgroup, hopen, htasks⟩ := plaunch_leads h hva hact hset hpins hread hlegal hfree
    refine ⟨t, hexec, hgroup, hopen, fun i hi => ?_⟩
    obtain ⟨k, hk, ⟨hst, hentry, hnbund, hbase, hstride, hargva, hargn, hcompl, hprio, hasid⟩, ht, hwork⟩ := htasks i hi
    rw [hk, Option.map_some, hst, ht, hentry, hnbund, hbase, hstride, hargva, hargn, hcompl, hprio, hasid, hwork]
  · obtain ⟨g', done⟩ := retires_plain h.1
    exact ⟨_, g', pgo_with_no_lane h halign hn hact, done⟩
  · intro xl s1 halign hn hact hpin
    refine ⟨pgo_raises h halign hn hact hpin, fun p s2 hcore hcode hland => ?_⟩
    obtain ⟨t, hexec, hgroup, htask⟩ := pgo_leads h halign hn hact hpin hcore hcode hland
    refine ⟨t, hexec, hgroup, ?_⟩
    rw [htask]
    rfl

end Sys2Proof.Machine
end

section
namespace Sys2Proof.Machine

/-! The supervisor's ring of die 0 stands at virtual address 2^30, which its tables map to address 0. -/

/-- The bytes of a number that stands at `b`. -/
def laidAt (b n x : Nat) : Tab Byte := (List.range n).map (fun i => (b + i, BitVec.ofNat 8 (x / 256 ^ i)))

/-- A page table at 0, whose entry 0 points to itself and whose entry 1 maps 1 GiB, to be read and written, to address 0, under the
entry of ASID `a` in an ASID table at 1 MiB. -/
def ringBytes (a : Nat) : Tab Byte := laidAt 0 16 (1 + 0x91 * 2 ^ 64) ++ laidAt (0x100000 + 16 * a) 16 (2 ^ 64 + 2 ^ 70)

theorem laidAt_find? {b n k : Nat} (x : Nat) (hlo : b ≤ k) (hhi : k < b + n) :
    (laidAt b n x).find? k = some (BitVec.ofNat 8 (x / 256 ^ (k - b))) := by
  obtain ⟨i, rfl⟩ := Nat.exists_eq_add_of_le hlo
  rw [Nat.add_sub_cancel_left]
  exact (Tab.find?_range b n i (fun i => BitVec.ofNat 8 (x / 256 ^ i))).trans (if_pos (by omega))

theorem laidAt_find?_above {b n k : Nat} (x : Nat) (h : b + n ≤ k) : (laidAt b n x).find? k = none := by
  obtain ⟨i, rfl⟩ := Nat.exists_eq_add_of_le (Nat.le_trans (Nat.le_add_right b n) h)
  exact (Tab.find?_range b n i (fun i => BitVec.ofNat 8 (x / 256 ^ i))).trans (if_neg (by omega))

/-- What a state has when a record of die 0 goes to its ring: the tables, in memory without an error, and a ring with room. -/
structure State.ringReady (s : State) : Prop where
  bytes : s.mem.bytes = ringBytes Config.supervisorAsid.toNat
  plain : s.mem.keys = []
  poison : s.mem.poison = []
  errors : s.mem.errors = []
  keys : s.keys = [(0, 0)]
  table : s.dev.asidtb = 0x100000
  ready : s.dev.devstat.getLsbD 0 = true
  moves : s.moves = []
  mangles : s.mangles = []
  ring : (s.die 0).svNext = some (2 ^ 30)
  pins : ∀ n, (s.sector n).pin = none

/-- Bytes that stand in a memory that no key has changed are read as they stand. -/
theorem Memory.read_plain {m : Memory} (hplain : m.keys = []) (key : KeyPair) {pa n : Nat} (f : Nat → Byte)
    (h : ∀ i, i < n → m.bytes.find? (pa + i) = some (f i)) : m.read key pa n = (List.range n).map f := by
  refine List.map_congr_left fun i hi => ?_
  simp [Memory.byteAt, h i (List.mem_range.mp hi), hplain]

namespace State.ringReady

variable {s : State} (h : s.ringReady)
include h

theorem badWord (w : Nat) : s.badWord w = false := by
  simp [State.badWord, h.poison, h.errors, Tab.getD]

/-- A table read below 2 MiB gets what stands there. -/
theorem rawRead {pa n : Nat} (hpa : pa < 2 ^ 21) (f : Nat → Byte)
    (hf : ∀ i, i < n → (ringBytes Config.supervisorAsid.toNat).find? (pa + i) = some (f i)) :
    Machine.rawRead s s.tkey pa n = .ok ((List.range n).map f) := by
  have hregion : region pa = .hbm := if_pos (Nat.lt_trans hpa (by decide))
  have hslot : s.tkey = 0 := by rw [State.tkey, h.table]; decide
  have hbad : (wordsOf pa n).any s.badWord = false := by simp [h.badWord]
  have hread : s.mem.read 0 pa n = (List.range n).map f := Memory.read_plain h.plain 0 f (h.bytes ▸ hf)
  simpa [Machine.rawRead, stored, hregion, hslot, h.keys, Tab.find?, hbad] using hread

end State.ringReady

/-- The entry of an ASID, from what is read of it. The definition is opened as the value of a variable: the kernel would evaluate the read
to see that both sides agree. -/
theorem asidEntry_of_read {s : State} {asid x : Nat} {bs : List Byte}
    (hread : rawRead s s.tkey (bits s.dev.asidtb.toNat 51 20 * 2 ^ 20 + 16 * asid) 16 = .ok bs) (hx : leNat bs = x)
    (hlive : bit x 64 = true ∧ bits x 127 80 = 0 ∧ bits x 68 65 = 0 ∧ bits x 63 52 = 0 ∧ bits x 11 0 = 0) :
    asidEntry s asid = .ok { dkey := bits x 79 71, sup := bit x 70, noplace := bit x 69, root := bits x 51 12 * 4096 } := by
  obtain ⟨h64, h127, h68, h63, h11⟩ := hlive
  generalize hentry : @asidEntry = entry
  delta asidEntry at hentry
  subst hentry
  simp only [hread, hx, h64, h127, h68, h63, h11]
  rfl

/-- A level of a walk whose entry points to a table goes on there. -/
theorem walkFrom_pointer {s : State} {bs : List Byte} {x level table : Nat} (asid va dkey fuel : Nat) (seen : List WalkEntry)
    (hread : rawRead s s.tkey (table + 8 * vaIndex va level) 8 = .ok bs) (hx : leNat bs = x)
    (hbits : bit x 0 = true ∧ bits x 9 8 = 0 ∧ bit x 6 = false ∧ bit x 1 = false ∧ bit x 11 = false ∧ bit x 7 = false) (hlevel : level ≠ 0) :
    walkFrom s asid va dkey (fuel + 1) level table seen = walkFrom s asid va dkey fuel (level - 1) (bits x 51 12 * 4096)
      ({ asid := asid, level := level, prefixBits := va / 2 ^ (12 + 9 * level), table := bits x 51 12 * 4096 } :: seen) := by
  obtain ⟨h0, h98, h6, h1, h11, h7⟩ := hbits
  rw [walkFrom]
  simp only [hread, hx, h0, h98, h6, h1, h11, h7, if_neg hlevel]
  rfl

/-- A level of a walk whose entry is a leaf of 4 KiB, 2 MiB or 1 GiB ends it. -/
theorem walkFrom_leaf {s : State} {bs : List Byte} {x level table : Nat} (asid va dkey fuel : Nat) (seen : List WalkEntry)
    (hread : rawRead s s.tkey (table + 8 * vaIndex va level) 8 = .ok bs) (hx : leNat bs = x)
    (hbits : bit x 0 = true ∧ bits x 9 8 = 0 ∧ bit x 6 = false ∧ bit x 1 = false ∧ bit x 11 = false ∧ bit x 7 = true) (hlevel : level < 3)
    (hbase : bits x 51 12 * 4096 % 2 ^ (12 + 9 * level) = 0) :
    walkFrom s asid va dkey (fuel + 1) level table seen = .ok (leafEntry asid va dkey level x, seen) := by
  obtain ⟨h0, h98, h6, h1, h11, h7⟩ := hbits
  rw [walkFrom]
  simp only [hread, hx, h0, h98, h6, h1, h11, h7, if_neg (Nat.not_le.mpr hlevel), hbase]
  rfl

/-- A walk without a cache. -/
theorem walk_uncached {s : State} {asid va : Nat} {a : AsidEntry} (hasid : asidEntry s asid = .ok a) :
    walk s [] asid va = walkFrom s asid va a.dkey 5 4 a.root [] := by
  generalize hwalk : @walk = walked
  delta walk at hwalk
  subst hwalk
  simp only [hasid, walkCached, List.find?_nil, Option.or_none]

/-- The place in a ring of a record whose page holds no window, no poison and no move. -/
theorem ringPlace_of_walk {s : State} {va n pa : Nat} {e : TlbEntry} {seen : List WalkEntry} {key : KeyPair}
    (hwalk : walk s [] Config.supervisorAsid.toNat va = .ok (e, seen)) (hmoves : s.moves = []) (hmangles : s.mangles = []) (hpoison : s.mem.poison = [])
    (hpage : e.w = true ∧ e.mng = false) (hbase : e.pa + va % 2 ^ e.lg = pa) (hpa : pa < 2 ^ 36 - 2 ^ 21) (hkey : s.keys.find? e.key = some key) :
    ringPlace s va n = some ({ pa := pa, key := e.key, uc := e.uc, mng := false }, key) := by
  have hat : e.at s va = pa := by simpa [TlbEntry.at, movedBase, hmoves] using hbase
  have hwindow : ∀ pa, windowAt s pa = none := fun pa => by simp [windowAt, hmangles]
  have hregion : region pa = .hbm := if_pos (Nat.lt_trans hpa (by decide))
  have hsave : saveArea pa = false := by
    rw [saveArea, Nat.mod_eq_of_lt (Nat.lt_of_lt_of_le hpa (Nat.sub_le ..)), decide_eq_false (Nat.not_le.mpr hpa), Bool.and_false]
  have happly : applyEntry s e va .store true false = .ok { pa := pa, key := e.key, uc := e.uc, mng := false } := by
    simp [applyEntry, hat, TlbEntry.permits, hpage.1, hpage.2, hsave, hregion, mangleFault, hwindow, matrixPage, hmangles]
  have htranslate : translate s Config.supervisorAsid.toNat va .store true false =
      .ok { pa := pa, key := e.key, uc := e.uc, mng := false } := by
    generalize hopen : @translate = translated
    delta translate at hopen
    subst hopen
    simp only [hwalk, happly]
  generalize hopen : @ringPlace = placed
  delta ringPlace at hopen
  subst hopen
  simp [htranslate, stored, hregion, hwindow, hpoison, hkey]

namespace State.ringReady

variable {s : State} (h : s.ringReady)
include h

/-- The supervisor's ASID is live, and its root is the table at 0. -/
theorem asidEntry : Machine.asidEntry s Config.supervisorAsid.toNat = .ok { dkey := 0, sup := true, noplace := false, root := 0 } := by
  have hasid := Config.supervisorAsid.isLt
  have hbase : bits s.dev.asidtb.toNat 51 20 * 2 ^ 20 = 0x100000 := by rw [h.table]; decide
  have hread := h.rawRead (pa := 0x100000 + 16 * Config.supervisorAsid.toNat) (n := 16) (by omega)
    (fun i => BitVec.ofNat 8 ((2 ^ 64 + 2 ^ 70) / 256 ^ i)) (fun i hi => by
      rw [ringBytes, Tab.find?_append, laidAt_find?_above _ (by omega), laidAt_find? _ (by omega) (by omega), Nat.add_sub_cancel_left,
        Option.none_or])
  rw [← hbase] at hread
  exact asidEntry_of_read hread (x := 2 ^ 64 + 2 ^ 70) (by decide +kernel) (by decide +kernel)

/-- The two entries of the table. -/
theorem readEntry (i : Nat) (hi : i < 2) : Machine.rawRead s s.tkey (0 + 8 * i) 8 =
    .ok ((List.range 8).map (fun j => BitVec.ofNat 8 ((1 + 0x91 * 2 ^ 64) / 256 ^ (8 * i + j)))) :=
  h.rawRead (by omega) _ (fun j hj => by
    rw [ringBytes, Tab.find?_append, laidAt_find? _ (by omega) (by omega), Nat.sub_zero, Nat.zero_add, Option.some_or])

/-- The walk of the ring's address reads entry 0, entry 0 and entry 1. -/
theorem walk : ∃ seen, Machine.walk s [] Config.supervisorAsid.toNat (2 ^ 30) =
    .ok (leafEntry Config.supervisorAsid.toNat (2 ^ 30) 0 2 0x91, seen) := by
  have hpointer : leNat ((List.range 8).map (fun j => BitVec.ofNat 8 ((1 + 0x91 * 2 ^ 64) / 256 ^ (8 * 0 + j)))) = 1 := by decide +kernel
  have hleaf : leNat ((List.range 8).map (fun j => BitVec.ofNat 8 ((1 + 0x91 * 2 ^ 64) / 256 ^ (8 * 1 + j)))) = 0x91 := by decide +kernel
  have level4 := walkFrom_pointer (level := 4) Config.supervisorAsid.toNat (2 ^ 30) 0 4 [] (h.readEntry 0 (by decide)) hpointer (by decide) (by decide)
  have level3 := fun seen => walkFrom_pointer (level := 3) Config.supervisorAsid.toNat (2 ^ 30) 0 3 seen (h.readEntry 0 (by decide)) hpointer
    (by decide) (by decide)
  have level2 := fun seen => walkFrom_leaf (level := 2) Config.supervisorAsid.toNat (2 ^ 30) 0 2 seen (h.readEntry 1 (by decide)) hleaf
    (by decide) (by decide) (by decide)
  exact ⟨_, (walk_uncached h.asidEntry).trans (level4.trans ((level3 _).trans (level2 _)))⟩

/-- The record has its place at address 0. -/
theorem place : ringPlace s (2 ^ 30) 32 = some ({ pa := 0, key := 0, uc := false, mng := false }, 0) := by
  obtain ⟨seen, hwalk⟩ := h.walk
  have hkey : s.keys.find? 0 = some 0 := by rw [h.keys]; rfl
  exact ringPlace_of_walk hwalk h.moves h.mangles h.poison (by decide) (by decide) (by decide) hkey

end State.ringReady

end Sys2Proof.Machine
end

section
namespace Sys2Proof.Machine

/-! A record that is written to the ring clears the marks of the paths that recorded its line. -/

theorem State.group?_of_cores {s t : State} (h : t.cores = s.cores) (c slot g : Nat) : t.group? c slot g = s.group? c slot g := by
  simp only [State.group?, State.team?, State.core, h]

theorem State.onDie_group? (s : State) (d : Nat) (f : Die → Die) (c slot g : Nat) : (s.onDie d f).group? c slot g = s.group? c slot g := rfl

theorem State.interrupt_group? (s : State) (v c slot g : Nat) : (s.interrupt v).group? c slot g = s.group? c slot g := rfl

/-- Steps that leave the cores alone, one after another. -/
theorem foldl_cores {α : Type} {f : State → α → State} (hf : ∀ s a, (f s a).cores = s.cores) (l : List α) (s : State) :
    (l.foldl f s).cores = s.cores := by
  induction l generalizing s with
  | nil => rfl
  | cons a l ih => exact (ih _).trans (hf s a)

theorem State.endWork_cores (s : State) (w : Nat) : (s.endWork w).cores = s.cores := by
  unfold State.endWork
  split
  · rfl
  · rfl

theorem State.unpin_unpinned {s : State} {sec : Nat} (h : (s.sector sec).pin = none) (work : Nat) : s.unpin sec work = s.endWork work := by
  simp only [State.unpin, h]

/-- A write on a device of one core. -/
theorem State.wrote_group? {s : State} {k : Core} (hcores : s.cores = [(0, k)]) (line slot g : Nat) :
    (s.wrote line).group? 0 slot g = (s.group? 0 slot g).map (Group.unmarked line) := by
  rw [State.wrote, hcores]
  exact s.clearSpins_group? 0 line 0 slot g

/-- A store that is announced has performed, and does no more to the groups. -/
theorem State.announce_group? {s : State} {k : Core} (hcores : s.cores = [(0, k)]) (key sec : Nat) (bs : Tab Byte) (prod : Option Nat) (dest : AckTo)
    (slot g : Nat) : (s.announce key sec bs prod dest).group? 0 slot g = (s.group? 0 slot g).map (Group.unmarked (sec / 4)) := by
  have sends : ∀ (l : List Nat) (home : Nat) (m : Nat → Msg) (t : State), (l.foldl (fun s c => s.send home c (m c)) t).cores = t.cores :=
    fun l home m t => foldl_cores (f := fun s c => s.send home c (m c)) (fun _ _ => rfl) l t
  have marked : ∀ f : Sector → Sector, ((s.onSector sec f).wrote (sec / 4)).group? 0 slot g = (s.group? 0 slot g).map (Group.unmarked (sec / 4)) :=
    fun f => State.wrote_group? (s := s.onSector sec f) hcores (sec / 4) slot g
  unfold State.announce
  dsimp only
  split
  · exact (State.group?_of_cores (sends ..) ..).trans (marked _)
  · refine (State.group?_of_cores ((foldl_cores ?_ ..).trans (sends ..)) ..).trans (marked _)
    exact fun _ _ => rfl

namespace State.ringReady

variable {s : State} {k : Core}

/-- What a step may change that goes before a record. -/
theorem of_eq {t : State} (h : s.ringReady) (hmem : t.mem = s.mem) (hkeys : t.keys = s.keys) (hdev : t.dev = s.dev) (hmoves : t.moves = s.moves)
    (hmangles : t.mangles = s.mangles) (hring : (t.die 0).svNext = (s.die 0).svNext) (hpins : ∀ n, (t.sector n).pin = (s.sector n).pin) :
    t.ringReady where
  bytes := hmem ▸ h.bytes
  plain := hmem ▸ h.plain
  poison := hmem ▸ h.poison
  errors := hmem ▸ h.errors
  keys := hkeys ▸ h.keys
  table := hdev ▸ h.table
  ready := hdev ▸ h.ready
  moves := hmoves ▸ h.moves
  mangles := hmangles ▸ h.mangles
  ring := hring.trans h.ring
  pins n := (hpins n).trans (h.pins n)

/-- A word without an error is read without effect. -/
theorem tierWordBy (h : s.ringReady) (log : LogWith) (w : Who) (q : Nat) : s.tierWordBy log w q = s := by
  simp [State.tierWordBy, State.checkWordBy, h.poison, h.errors]

/-- A sector without an error is filled without a record. -/
theorem fillBy (h : s.ringReady) (log : LogWith) (w : Who) (sec : Nat) :
    (s.fillBy log w sec []).ringReady ∧ (s.fillBy log w sec []).cores = s.cores := by
  have words : ∀ l : List Nat, l.foldl (fun s q => s.tierWordBy log w q) s = s := fun l => by
    induction l with
    | nil => rfl
    | cons q l ih => rw [List.foldl_cons, h.tierWordBy, ih]
  unfold State.fillBy
  dsimp only
  rw [words]
  split
  · exact ⟨h, rfl⟩
  · split
    · refine ⟨h.of_eq rfl rfl rfl rfl rfl rfl (fun n => ?_), rfl⟩
      rw [State.onSector_sector]
      split
      · rename_i e; rw [e]
      · rfl
    · exact ⟨h, rfl⟩

/-- And so are the sectors of a walk. -/
theorem walkReadsBy (h : s.ringReady) (log : LogWith) (w : Who) (cache : List WalkEntry) (asid va : Nat) :
    (s.walkReadsBy log w cache asid va).ringReady ∧ (s.walkReadsBy log w cache asid va).cores = s.cores := by
  unfold State.walkReadsBy
  generalize walkReads s cache asid va = l
  induction l generalizing s with
  | nil => exact ⟨h, rfl⟩
  | cons q l ih =>
    obtain ⟨ready, cores⟩ := h.fillBy log w q
    obtain ⟨ready', cores'⟩ := ih ready
    exact ⟨ready', cores'.trans cores⟩

/-- A record at address 0 clears the marks of line 0. -/
theorem recordAt (h : s.ringReady) (hcores : s.cores = [(0, k)]) (bs : List Byte) (slot g : Nat) :
    (s.recordAt { pa := 0, key := 0, uc := false, mng := false } 0 bs).group? 0 slot g = (s.group? 0 slot g).map (Group.unmarked 0) := by
  have hunpin : (s.unpin 0 0).cores = s.cores := by
    rw [State.unpin_unpinned (h.pins 0), State.endWork_cores]
  unfold State.recordAt
  dsimp only
  have stored := (foldl_cores (f := fun s pa => s.storeWord 0 (pa / 32) (bs.zipIdx.map (fun p => (pa / 32 * 32 + p.2, p.1))) false)
    (fun _ _ => rfl) (0 :: (mirrorOf (s.unpin 0 0) 0).toList) (s.unpin 0 0)).trans hunpin
  rw [State.announce_group? (stored.trans hcores), State.group?_of_cores stored]

/-- The writing of a record on die 0. -/
theorem svWrite (h : s.ringReady) (hcores : s.cores = [(0, k)]) (type : Nat) (w : Who) (a b slot g : Nat) :
    (s.svWrite 0 type w a b).group? 0 slot g = (s.group? 0 slot g).map (Group.unmarked 0) := by
  have hnumbered : (s.onDie 0 (fun d => { d with seq := (d.seq + 1) % 65536 })).ringReady :=
    h.of_eq rfl rfl rfl rfl rfl (by rw [State.onDie_die, if_pos rfl]; rfl) (fun _ => rfl)
  unfold State.svWrite
  rw [h.ready]
  dsimp only
  rw [h.ring, Option.bind_some, hnumbered.place]
  dsimp only
  rw [if_neg (by decide), State.interrupt_group?, State.onDie_group?, hnumbered.recordAt hcores, State.onDie_group?]

/-- A record of die 0, with the walk that places it. -/
theorem svRecordIn (h : s.ringReady) (hcores : s.cores = [(0, k)]) (n type : Nat) (w : Who) (a b slot g : Nat) :
    (State.svRecordIn (n + 1) s 0 type w a b).group? 0 slot g = (s.group? 0 slot g).map (Group.unmarked 0) := by
  have written : ∀ log, ((s.walkReadsBy log w [] Config.supervisorAsid.toNat (2 ^ 30)).svWrite 0 type w a b).group? 0 slot g =
      (s.group? 0 slot g).map (Group.unmarked 0) := by
    intro log
    obtain ⟨ready, cores⟩ := h.walkReadsBy log w [] Config.supervisorAsid.toNat (2 ^ 30)
    rw [← State.group?_of_cores cores]
    exact ready.svWrite (cores.trans hcores) ..
  have hplace : (s.die 0).svNext.bind (fun va => (ringPlace s va 32).map (fun _ => va)) = some (2 ^ 30) := by
    rw [h.ring, Option.bind_some, h.place, Option.map_some]
  rw [State.svRecordIn, h.ready, if_pos rfl, hplace]
  exact written _

/-- A memory-error record of an agent of die 0 clears the marks of line 0. -/
theorem log23 (h : s.ringReady) (hcores : s.cores = [(0, k)]) (w : Who) (hdie : w.die = 0) (kind pa slot g : Nat) :
    (s.log23 w kind pa).group? 0 slot g = (s.group? 0 slot g).map (Group.unmarked 0) := by
  rw [State.log23, State.svRecord, hdie]
  exact h.svRecordIn hcores 15 ..

end State.ringReady

end Sys2Proof.Machine
end

section
namespace Sys2Proof.Machine

/-! The counterexample to O47: a PGO task returns a poisoned word to a group that holds a path marked spinning on the line of the ring. -/

/-- A path that is marked spinning and has recorded line 0. -/
def spinningPath : Path := { Path.start 1 0 0 with spin := { Spin.init with lines := [0], mark := some (0, [0]) } }

/-- Its group, which waits for task 0. -/
def spinningGroup : Group := { Group.start 0 0 0 0 [] 0 with paths := [(0, spinningPath)], pgo := some 0 }

/-- A team of that group. -/
def spinningTeam : Team :=
  { grid := 0, cluster := 0, rank := 0, asid := 0, sup := false, groups := [(0, spinningGroup)], scratchBase := 0, scratchSize := 0, scratch := [],
    scratchPois := [], acc := [], prog := [], phases := [], stage := 0, issued := [], run := .running, forced := false }

/-- A PGO task that has ended normally and returns one word, which is poisoned. -/
def poisonedTask : Task :=
  { st := .returning 0, pgo := true, site := ⟨0, 0, 0, 0⟩, team := (0, 0), asid := 0, sup := false, prio := 0, t := 0, order := 0, pcore := 0,
    entry := 0, nbund := 0, base := 0, argva := 0, argn := 0, pin := 0, stride := 0, compl := 0, work := 0, vb := 0, n := 1, q := 0, lanes := 1,
    shipped := [0], regs := { PadRegs.init with wPois := [0] }, code := [], parity := [], zpar := none, got := [], sent := false, flight := none,
    refetch := [], save := none, forced := false }

/-- The device of both, whose die 0 has a ring of records at virtual address 2^30. -/
def poisonedReturn : State :=
  { State.reset with
    cores := [(0, { Core.init with slots := [(0, spinningTeam)] })], tasks := [(0, poisonedTask)], keys := [(0, 0)],
    mem := { Memory.init with bytes := ringBytes Config.supervisorAsid.toNat },
    dev := { Device.init with devstat := 1, asidtb := 0x100000 },
    dies := [(0, { Die.init with svqBase := 2 ^ 30, svqCtl := 1 })] }

/-- It once the task is gone and its group waits for it no more. -/
def poisonedReturned : State :=
  { poisonedReturn with
    cores := [(0, { Core.init with slots := [(0, { spinningTeam with groups := [(0, { spinningGroup with pgo := none })] })] })], tasks := [] }

theorem poisonedReturned_ringReady : poisonedReturned.ringReady where
  bytes := rfl
  plain := rfl
  poison := rfl
  errors := rfl
  keys := rfl
  table := rfl
  ready := by decide
  moves := rfl
  mangles := rfl
  ring := by decide
  pins _ := rfl

/-- The return of the word records the poison and holds the group. -/
theorem poisonedReturn_step :
    exec (.pgoReturn 0) poisonedReturn = .next ((poisonedReturned.log23 (whoLane ⟨0, 0, 0, 0⟩) 3 0).holdGroup 0 0 0) := by
  show execPgoReturn 0 poisonedReturn = _
  unfold execPgoReturn
  generalize State.log23 = log
  as_aux_lemma => rfl

/-- A group that is changed where it stands. -/
theorem State.onGroup_group?_self {s : State} {c slot g : Nat} {x : Group} (h : s.group? c slot g = some x) (f : Group → Group) :
    (s.onGroup c slot g f).group? c slot g = some (f x) := by
  obtain ⟨t, ht, hx⟩ := State.group?_some h
  rw [State.onGroup_some ht hx]
  simp [State.group?]

/-- After that step no path of the group is marked. -/
theorem poisonedReturn_clears_mark :
    ∃ g, ((poisonedReturned.log23 (whoLane ⟨0, 0, 0, 0⟩) 3 0).holdGroup 0 0 0).group? 0 0 0 = some g ∧
      (g.paths.find? 0).map (fun p => p.spin.mark) = some none := by
  have hlogged : (poisonedReturned.log23 (whoLane ⟨0, 0, 0, 0⟩) 3 0).group? 0 0 0 = some (Group.unmarked 0 { spinningGroup with pgo := none }) :=
    poisonedReturned_ringReady.log23 rfl _ rfl 3 0 0 0
  exact ⟨_, State.onGroup_group?_self hlogged _, rfl⟩

/-- Refutes O47: where a PGO task returns a poisoned word, its group is said to change in `pgo`, `hold` and `gstat` alone. The record of
the poison is a write to the supervisor's ring, though, and a path of the group that is marked spinning on the ring's line loses its mark
(R260), as `poisonedReturn` shows. -/
theorem not_paddockTasks : ¬ Obligations.PaddockTasks := by
  rintro ⟨tasks, -⟩
  obtain ⟨-, -, -, -, -, -, -, -, -, returns⟩ := tasks poisonedReturn 0 poisonedTask rfl
  obtain ⟨-, -, poisoned⟩ := returns 0 spinningGroup rfl (by decide) rfl rfl
  obtain ⟨u, hstep, -, hgroup⟩ := poisoned (.inr ⟨rfl, 0, by decide, by decide⟩)
  rw [poisonedReturn_step] at hstep
  cases hstep
  obtain ⟨g, hnow, hmark⟩ := poisonedReturn_clears_mark
  cases hnow.symm.trans hgroup
  exact absurd hmark (by decide)

end Sys2Proof.Machine
end

section
namespace Sys2Proof.Machine

/-- What REC.FORGET, of work 1, leaves in the tables of its group until S0 is written (R336, R399). -/
def forgetPending : Op :=
  { kind := .mangle, space := .global, count := 5, path := 0, lanes := 1, pc := 0, scope := 0, ord := 0, ofr := false, dst := .s 0 .b32,
    parts := [{ lanes := [{ LaneAcc.zero with width := 4 }], st := .acked, xl := none }], rejects := 0, fold := none, spoiled := false,
    touched := [], waits := [1], closes := false, parkedAt := 0 }

/-- A group whose paths have exited since (R247). -/
def leftGroup : Group :=
  { Group.start 0 0 0 0 [] 0 with paths := [], exited := BitVec.allOnes 32, ops := [(0, forgetPending)], nextOp := 1 }

/-- A team that has this group alone left. -/
def leftTeam : Team :=
  { grid := 0, cluster := 0, rank := 0, asid := 0, sup := false, groups := [(0, leftGroup)], scratchBase := 0, scratchSize := 0, scratch := [],
    scratchPois := [], acc := [], prog := [], phases := [], stage := 0, issued := [], run := .running, forced := false }

/-- A sector of zeros that a core holds pinned. -/
def pinnedZeros : L1Sec := { data := 0, pois := 0, key := 0, pushed := none, pinned := true, writers := [] }

/-- Its device: the team holds sector 0 pinned, and slice 0 is the last one that has yet to apply the instruction. -/
def leftForget : State :=
  { State.reset with
    cores := [(0, { Core.init with slots := [(0, leftTeam)], l1 := [(0, { way := 0, used := 0, secs := [(0, pinnedZeros)] })] })],
    sectors := [(0, { Sector.init with st := .clean, pin := some (0, 0, 0, none) })],
    bcasts := [(0, { what := .school 3 0 0 0 0 0 ⟨0, 0, 0, 0⟩ (List.replicate 7 0), work := 1, left := [0], waits := [] })],
    works := [(1, 1)], nextWork := 2, keys := [(0, 0)] }

/-- The bytes of memory that stand written after a step. -/
def writtenAfter (o : Out) : Nat :=
  match o with
  | .next t => t.mem.bytes.length
  | _ => 0

theorem leftForget_writes_back : writtenAfter (exec (.recSliceApply 0 0) leftForget) = 64 := by decide +kernel

/-- Refutes O32: the last slice applies a REC.FORGET whose path has exited meanwhile (R247), the last one of its team; the team's end frees its
pinned sector, whose write-back changes memory, which the statement keeps. -/
theorem not_recordInstructions : ¬ Obligations.RecordInstructions := by
  rintro ⟨-, -, applied⟩
  obtain ⟨-, last⟩ := applied 0 0 leftForget _ 3 0 0 0 0 0 ⟨0, 0, 0, 0⟩ (List.replicate 7 0) rfl rfl (by decide)
  obtain ⟨t, hstep, hmem, -⟩ := last (by decide)
  have hwritten := leftForget_writes_back
  rw [hstep, writtenAfter, hmem] at hwritten
  exact absurd hwritten (by decide)

end Sys2Proof.Machine
end

section
namespace Sys2Proof.Machine

/-! What a record that the device writes to its ring does to the works: the write ends the pin of the ring's sector under work 0, and where
there is no pin, a part of work 0 ends at once. -/

/-- A write on a device without cores. -/
theorem State.wrote_of_no_cores {s : State} (h : s.cores = []) (line : Nat) : s.wrote line = s := by
  rw [State.wrote, h, List.foldl_nil]

/-- Steps that leave the cores and the works alone, one after another. -/
theorem foldl_cores_works {α : Type} {f : State → α → State} (hf : ∀ s a, (f s a).cores = s.cores ∧ (f s a).works = s.works) (l : List α)
    (s : State) : (l.foldl f s).cores = s.cores ∧ (l.foldl f s).works = s.works := by
  induction l generalizing s with
  | nil => exact ⟨rfl, rfl⟩
  | cons a l ih => exact ⟨(ih _).1.trans (hf s a).1, (ih _).2.trans (hf s a).2⟩

/-- Telling the sharers and the routes of a store changes no work. -/
theorem State.announce_of_no_cores {s : State} (h : s.cores = []) (key sec : Nat) (bs : Tab Byte) (prod : Option Nat) (dest : AckTo) :
    (s.announce key sec bs prod dest).cores = [] ∧ (s.announce key sec bs prod dest).works = s.works := by
  have sends : ∀ (l : List Nat) (home : Nat) (m : Nat → Msg) (t : State),
      (l.foldl (fun s c => s.send home c (m c)) t).cores = t.cores ∧ (l.foldl (fun s c => s.send home c (m c)) t).works = t.works :=
    fun l home m t => foldl_cores_works (f := fun s c => s.send home c (m c)) (fun _ _ => ⟨rfl, rfl⟩) l t
  have marked : ∀ f : Sector → Sector, (s.onSector sec f).wrote (sec / 4) = s.onSector sec f :=
    fun f => State.wrote_of_no_cores (s := s.onSector sec f) h _
  unfold State.announce
  dsimp only
  rw [marked]
  split
  · obtain ⟨hcores, hworks⟩ := sends _ _ _ _
    exact ⟨hcores.trans h, hworks⟩
  · obtain ⟨hcores, hworks⟩ := sends _ _ _ _
    refine And.imp (fun e => e.trans (hcores.trans h)) (fun e => e.trans hworks) (foldl_cores_works ?_ _ _)
    exact fun _ _ => ⟨rfl, rfl⟩

theorem State.interrupt_cores (s : State) (v : Nat) : (s.interrupt v).cores = s.cores := rfl

theorem State.interrupt_works (s : State) (v : Nat) : (s.interrupt v).works = s.works := rfl

/-- The end of a part of a work looks at the works alone. -/
theorem State.endWork_works_congr {s t : State} (h : t.works = s.works) (w : Nat) : (t.endWork w).works = (s.endWork w).works := by
  unfold State.endWork
  rw [h]
  cases s.works.find? w with
  | none => exact h
  | some n => rfl

/-- On a device without cores, no team retires. -/
theorem State.reapTeam_of_no_cores {s : State} (h : s.cores = []) (c slot : Nat) : s.reapTeam c slot = s := by
  have hteam : s.team? c slot = none := by
    rw [State.team?, State.core, h]
    rfl
  rw [State.reapTeam, hteam]

/-- Nor does one with the end of a part of a work. -/
theorem State.endPart_of_no_cores {s : State} (h : s.cores = []) (w : Nat) :
    (s.endPart w).cores = [] ∧ (s.endPart w).works = (s.endWork w).works := by
  have hcores : (s.endWork w).cores = [] := (s.endWork_cores w).trans h
  have reaps : ∀ (pubs : Tab Pub) (c slot : Nat), State.reapTeam { s.endWork w with pubs := pubs } c slot = { s.endWork w with pubs := pubs } :=
    fun pubs => State.reapTeam_of_no_cores (s := { s.endWork w with pubs := pubs }) hcores
  unfold State.endPart
  dsimp only
  split
  · split
    · rw [reaps]
      exact ⟨hcores, rfl⟩
    · exact ⟨hcores, rfl⟩
  · exact ⟨hcores, rfl⟩

/-- And no halt ends. -/
theorem State.endHalts_of_no_cores {s : State} (h : s.cores = []) : s.endHalts = s := by
  rw [State.endHalts, h, List.foldl_nil]

namespace State.ringReady

variable {s : State}

/-- A sector without an error is filled under no work. -/
theorem fillBy_works (h : s.ringReady) (log : LogWith) (w : Who) (sec : Nat) : (s.fillBy log w sec []).works = s.works := by
  have words : ∀ l : List Nat, l.foldl (fun s q => s.tierWordBy log w q) s = s := fun l => by
    induction l with
    | nil => rfl
    | cons q l ih => rw [List.foldl_cons, h.tierWordBy, ih]
  unfold State.fillBy
  dsimp only
  rw [words]
  split
  · rfl
  · split
    · rfl
    · rfl

/-- And so are the sectors of a walk. -/
theorem walkReadsBy_works (h : s.ringReady) (log : LogWith) (w : Who) (cache : List WalkEntry) (asid va : Nat) :
    (s.walkReadsBy log w cache asid va).works = s.works := by
  unfold State.walkReadsBy
  generalize walkReads s cache asid va = l
  induction l generalizing s with
  | nil => rfl
  | cons q l ih => exact (ih (h.fillBy log w q).1).trans (h.fillBy_works log w q)

/-- A record at address 0 ends a part of work 0. -/
theorem recordAt_works (h : s.ringReady) (hcores : s.cores = []) (bs : List Byte) :
    (s.recordAt { pa := 0, key := 0, uc := false, mng := false } 0 bs).cores = [] ∧
      (s.recordAt { pa := 0, key := 0, uc := false, mng := false } 0 bs).works = (s.endWork 0).works := by
  have hunpin : s.unpin 0 0 = s.endWork 0 := State.unpin_unpinned (h.pins 0) 0
  unfold State.recordAt
  dsimp only
  obtain ⟨cores, works⟩ := foldl_cores_works
    (f := fun s pa => s.storeWord 0 (pa / 32) (bs.zipIdx.map (fun p => (pa / 32 * 32 + p.2, p.1))) false)
    (fun _ _ => ⟨rfl, rfl⟩) (0 :: (mirrorOf (s.unpin 0 0) 0).toList) (s.unpin 0 0)
  obtain ⟨told, kept⟩ := State.announce_of_no_cores (cores.trans (hunpin ▸ (s.endWork_cores 0).trans hcores)) 0 0
    (bs.zipIdx.map (fun p => (0 / 32 * 32 + p.2, p.1))) none (.nobody none)
  exact ⟨told, kept.trans (works.trans (hunpin ▸ rfl))⟩

/-- The writing of a record on die 0. -/
theorem svWrite_works (h : s.ringReady) (hcores : s.cores = []) (type : Nat) (w : Who) (a b : Nat) :
    (s.svWrite 0 type w a b).cores = [] ∧ (s.svWrite 0 type w a b).works = (s.endWork 0).works := by
  have hnumbered : (s.onDie 0 (fun d => { d with seq := (d.seq + 1) % 65536 })).ringReady :=
    h.of_eq rfl rfl rfl rfl rfl (by rw [State.onDie_die, if_pos rfl]; rfl) (fun _ => rfl)
  unfold State.svWrite
  rw [h.ready]
  dsimp only
  rw [h.ring, Option.bind_some, hnumbered.place]
  dsimp only
  rw [if_neg (by decide), State.interrupt_cores, State.interrupt_works, State.onDie_cores, State.onDie_works]
  obtain ⟨cores, works⟩ := hnumbered.recordAt_works hcores (leBytes 8 (svHeader (s.die 0).seq type w) ++ leBytes 8 a ++ leBytes 8 b ++ leBytes 8 0)
  exact ⟨cores, works.trans (State.endWork_works_congr (State.onDie_works ..) 0)⟩

/-- A memory-error record of an agent of die 0 ends a part of work 0, once the walk has placed it. -/
theorem log23_works (h : s.ringReady) (hcores : s.cores = []) (w : Who) (hdie : w.die = 0) (kind pa : Nat) :
    (s.log23 w kind pa).cores = [] ∧ (s.log23 w kind pa).works = (s.endWork 0).works := by
  have written : ∀ log, ((s.walkReadsBy log w [] Config.supervisorAsid.toNat (2 ^ 30)).svWrite 0 0 w (r23 kind pa) 0).cores = [] ∧
      ((s.walkReadsBy log w [] Config.supervisorAsid.toNat (2 ^ 30)).svWrite 0 0 w (r23 kind pa) 0).works = (s.endWork 0).works := by
    intro log
    obtain ⟨ready, cores⟩ := h.walkReadsBy log w [] Config.supervisorAsid.toNat (2 ^ 30)
    obtain ⟨kept, works⟩ := ready.svWrite_works (cores.trans hcores) 0 w (r23 kind pa) 0
    exact ⟨kept, works.trans (State.endWork_works_congr (h.walkReadsBy_works ..) 0)⟩
  have hplace : (s.die 0).svNext.bind (fun va => (ringPlace s va 32).map (fun _ => va)) = some (2 ^ 30) := by
    rw [h.ring, Option.bind_some, h.place, Option.map_some]
  rw [State.log23, State.svRecord, hdie, State.svRecordIn, h.ready, if_pos rfl, hplace]
  exact written _

end State.ringReady

/-- A part of a published line that this device has sent to device 0 under work 1. -/
def lostRequest : Remote :=
  { what := 1, device := 0, offset := 0, key := 0, aop := 0, ty := .b32, acc := LaneAcc.zero, bytes := [], pois := [], path := 0, seq := 0,
    port := 0, origin := whoLane ⟨0, 0, 0, 0⟩, answer := .work 1 none, ofr := false, grp := (0, 0, 0), performed := false }

/-- A device from which no path leads to device 0, whose die 0 has a ring of records; a write-back under work 0 is still to be acknowledged. -/
def lostAnswer : State :=
  { State.reset with
    sent := [(0, lostRequest)], nextSent := 1, works := [(0, 1), (1, 1)], nextWork := 2, keys := [(0, 0)],
    mem := { Memory.init with bytes := ringBytes Config.supervisorAsid.toNat },
    dev := { Device.init with devstat := 1, asidtb := 0x100000 },
    dies := [(0, { Die.init with svqBase := 2 ^ 30, svqCtl := 1 })] }

/-- It once the request is gone. -/
def lostAnswered : State := { lostAnswer with sent := [], ports := [(0, Port.init)], freeCtr := 1 }

theorem lostAnswered_ringReady : lostAnswered.ringReady where
  bytes := rfl
  plain := rfl
  poison := rfl
  errors := rfl
  keys := rfl
  table := rfl
  ready := by decide
  moves := rfl
  mangles := rfl
  ring := by decide
  pins _ := rfl

/-- The request comes to a hole: a record, and a part of its work has ended. -/
theorem lostAnswer_step : exec (.remoteAck 0) lostAnswer = .next ((lostAnswered.log23 (whoLane ⟨0, 0, 0, 0⟩) 6 0).endPart 1).endHalts := by
  show execRemoteAck 0 lostAnswer = _
  unfold execRemoteAck State.remoteHole
  generalize State.log23 = log
  as_aux_lemma => rfl

/-- Refutes O50: an answer that ends a part of a published line's work is said to end that part alone. Where the request comes to a hole,
the write of its memory-error record also ends a part of work 0, though, as `lostAnswer` shows. -/
theorem not_hostAndLinkAccesses : ¬ Obligations.HostAndLinkAccesses := by
  rintro ⟨-, -, ack, -⟩
  obtain ⟨-, answered⟩ := ack lostAnswer 0 lostRequest rfl
  obtain ⟨u, hstep, -, -, hwork, -⟩ := answered (.inl rfl) (fun c slot t ht => by cases ht)
  have hworks := hwork 1 none rfl (fun p hp => by cases hp)
  obtain ⟨cores, logged⟩ := lostAnswered_ringReady.log23_works rfl (whoLane ⟨0, 0, 0, 0⟩) rfl 6 0
  obtain ⟨ended, works⟩ := State.endPart_of_no_cores cores 1
  rw [lostAnswer_step, State.endHalts_of_no_cores ended] at hstep
  cases hstep
  rw [works, State.endWork_works_congr logged] at hworks
  exact absurd hworks (by decide)

end Sys2Proof.Machine
end

section
namespace Sys2Proof.Machine

/-- The one part of a store of lane 0 to 4 bytes at address 0. -/
def privatePart : Part := { lanes := [{ LaneAcc.zero with width := 4 }], st := .ready, xl := some { pa := 0, key := 0, uc := false, mng := false } }

/-- That store. -/
def privateStore : Op :=
  { kind := .store, space := .global, count := 0, path := 0, lanes := 1, pc := 0, scope := 0, ord := 0, ofr := false, dst := .none,
    parts := [privatePart], rejects := 0, fold := none, spoiled := false, touched := [], waits := [], closes := false, parkedAt := 0 }

/-- Its group. -/
def privateGroup : Group := { Group.start 0 0 0 0 [] 0 with ops := [(0, privateStore)], nextOp := 1 }

/-- A phase region of one line, which has been fetched. -/
def fetchedPhase : Phase := { base := 0, size := 256, bytes := [(0, 0)], written := [], pois := [] }

/-- A team of that group, with that region. -/
def privateTeam : Team :=
  { grid := 0, cluster := 0, rank := 0, asid := 0, sup := false, groups := [(0, privateGroup)], scratchBase := 0, scratchSize := 0, scratch := [],
    scratchPois := [], acc := [], prog := [], phases := [fetchedPhase], stage := 0, issued := [], run := .running, forced := false }

/-- Its core: the team's copy of the line stands in a way of a block that is a scratchpad's, with a pinned sector. -/
def strandedCore : Core :=
  { Core.init with
    slots := [(0, privateTeam)], blocks := [(0, .scratch)], l1 := [(privKey 0 0, { way := 0, used := 0, secs := [(0, pinnedZeros)] })] }

/-- The device of that core. -/
def strandedLine : State :=
  { State.reset with
    cores := [(0, strandedCore)], sectors := [(4 * privKey 0 0, { Sector.init with st := .clean, pin := some (0, 0, 0, none) })], keys := [(0, 0)] }

/-- Its team runs. -/
theorem strandedLine_runs : strandedLine.noHalting := by
  intro c slot t ht cause trap g pc hrun
  simp only [State.team?, State.core, strandedLine, Tab.getD, Tab.find?] at ht
  split at ht
  · simp only [Option.getD_some, strandedCore, Tab.find?] at ht
    split at ht
    · cases ht
      cases hrun
    · cases ht
  · cases ht

theorem strandedLine_writes_back : writtenAfter (exec (.performStore 0 0 0 0 0) strandedLine) = 64 := by decide +kernel

/-- Refutes O48: a store to a fetched line of a phase region is said to leave memory as it is. Where the way of the team's copy lies in a
block that is not in CACHE mode, the store first releases the line, and a pinned sector of it is written back, as `strandedLine` shows. The statement
speaks of every state and does not leave this one out; that a run reaches it is not claimed. -/
theorem not_accessesTakeTheirStep : ¬ Obligations.AccessesTakeTheirStep := by
  intro h
  obtain ⟨-, global, -⟩ := h strandedLine 0 0 0 0 0 privateTeam privateGroup privateStore privatePart rfl rfl rfl rfl (by decide) strandedLine_runs
  obtain ⟨-, -, -, memory⟩ := global _ ⟨rfl, by decide +kernel, by decide +kernel, rfl, by decide +kernel⟩ rfl rfl
  obtain ⟨-, lines, -⟩ := memory 0 (by decide +kernel) rfl rfl rfl rfl rfl (by decide +kernel) (by decide +kernel)
  obtain ⟨store, -⟩ := lines 0 rfl rfl
  obtain ⟨u, hstep, -, hmem, -⟩ := store rfl
  have hwritten := strandedLine_writes_back
  rw [hstep, writtenAfter, hmem] at hwritten
  exact absurd hwritten (by decide)

end Sys2Proof.Machine
end

section
namespace Sys2Proof.Machine

/-! A translation, with all that its walk fills and records, changes of the teams at most the spin marks of their paths. -/

/-- `s` has come to `t` by steps that leave the teams as they are and by writes that clear spin marks (R260). -/
inductive State.respins (s : State) : State → Prop where
  | refl : s.respins s
  | slots {t u : State} (h : s.respins t) (hs : ∀ c, (u.core c).slots = (t.core c).slots) : s.respins u
  | clearSpins {t : State} (h : s.respins t) (c line : Nat) : s.respins (t.clearSpins c line)

namespace State.respins

variable {s t : State}

theorem trans {u : State} (h : s.respins t) (k : t.respins u) : s.respins u := by
  induction k with
  | refl => exact h
  | slots _ hs ih => exact ih.slots hs
  | clearSpins _ c line ih => exact ih.clearSpins c line

/-- A step that leaves the cores alone. -/
theorem of_cores {u : State} (h : s.respins t) (hc : u.cores = t.cores) : s.respins u :=
  h.slots (fun c => by simp only [State.core, hc])

theorem foldl {α : Type} {f : State → α → State} (hf : ∀ s a, State.respins s (f s a)) (l : List α) (h : s.respins t) :
    s.respins (l.foldl f t) := by
  induction l generalizing t with
  | nil => exact h
  | cons a l ih => exact ih (h.trans (hf t a))

theorem onSector (h : s.respins t) (n : Nat) (f : Sector → Sector) : s.respins (t.onSector n f) := h.of_cores rfl
theorem onDie (h : s.respins t) (d : Nat) (f : Die → Die) : s.respins (t.onDie d f) := h.of_cores rfl
theorem interrupt (h : s.respins t) (v : Nat) : s.respins (t.interrupt v) := h.of_cores rfl
theorem channels (h : s.respins t) (c : Tab (List Msg)) : s.respins { t with channels := c } := h.of_cores rfl
theorem storeWord (h : s.respins t) (key : KeyPair) (w : Nat) (bs : Tab Byte) (pois : Bool) : s.respins (t.storeWord key w bs pois) :=
  h.of_cores rfl

/-- A core changes apart from its teams. -/
theorem onCore (h : s.respins t) (c : Nat) {f : Core → Core} (hf : ∀ k, (f k).slots = k.slots) : s.respins (t.onCore c f) := by
  refine h.slots (fun d => ?_)
  rw [State.onCore_core]
  split
  · rename_i e
    rw [hf, e]
  · rfl

theorem wrote (h : s.respins t) (line : Nat) : s.respins (t.wrote line) :=
  foldl (f := fun (s : State) (c : Nat × Core) => s.clearSpins c.1 line) (fun _ _ => refl.clearSpins _ _) _ h

theorem endWork (h : s.respins t) (w : Nat) : s.respins (t.endWork w) := h.of_cores (t.endWork_cores w)

theorem onL1 (h : s.respins t) (c sec : Nat) (f : L1Sec → L1Sec) : s.respins (t.onL1 c sec f) := by
  refine h.onCore c (fun k => ?_)
  split
  · rfl
  · split <;> rfl

/-- The messages that tell of a store leave the cores alone. -/
theorem announce (h : s.respins t) (key sec : Nat) (bs : Tab Byte) (prod : Option Nat) (dest : AckTo) :
    s.respins (t.announce key sec bs prod dest) := by
  have sends : ∀ (f : Sector → Sector) (n home : Nat) (m : Nat → Msg) (l : List Nat),
      s.respins (l.foldl (fun s c => s.send home c (m c)) ((((t.onSector sec f).wrote (sec / 4)).newAck n dest).2)) :=
    fun f n home m l => foldl (f := fun s c => s.send home c (m c)) (fun _ _ => refl.of_cores rfl) l
      (((h.onSector sec f).wrote _).of_cores rfl)
  unfold State.announce
  dsimp only
  split
  · exact sends _ _ _ _ _
  · refine foldl ?_ _ (sends _ _ _ _ _)
    exact fun _ _ => refl.of_cores rfl

theorem unpin (h : s.respins t) (sec work : Nat) : s.respins (t.unpin sec work) := by
  have untied : s.respins (t.onSector sec (fun x => { x with pin := none })) := h.onSector _ _
  unfold State.unpin
  dsimp only
  split
  · exact h.endWork _
  · split
    · exact ((untied.channels _).onSector _ _).endWork _
    · split
      · exact ((untied.channels _).onSector _ _).endWork _
      · split
        · exact ((untied.onL1 _ _ _).onSector _ _).endWork _
        · exact ((((untied.onL1 _ _ _).storeWord _ _ _ _).storeWord _ _ _ _).announce _ _ _ _ _).onSector _ _

theorem recordAt (h : s.respins t) (x : Xlat) (key : KeyPair) (bs : List Byte) : s.respins (t.recordAt x key bs) := by
  unfold State.recordAt
  dsimp only
  generalize x.pa :: _ = l
  exact (foldl (fun _ _ => refl.storeWord _ _ _ _) l (h.unpin _ _)).announce _ _ _ _ _

theorem svWrite (h : s.respins t) (die type : Nat) (w : Who) (a b : Nat) : s.respins (t.svWrite die type w a b) := by
  unfold State.svWrite
  split
  · exact h
  · dsimp only
    split
    · exact (h.onDie _ _).onDie _ _
    · exact (((h.onDie _ _).recordAt _ _ _).onDie _ _).interrupt _

end State.respins

/-- A way to record memory errors changes at most spin marks. -/
abbrev LogWith.respins (log : LogWith) : Prop := ∀ (s : State) (w : Who) (kind pa : Nat), s.respins (log s w kind pa)

namespace State.respins

variable {s t : State}

theorem tierWordBy {log : LogWith} (hl : log.respins) (h : s.respins t) (w : Who) (q : Nat) : s.respins (t.tierWordBy log w q) := by
  have logged : ∀ {u : State} (kind pa : Nat), s.respins u → s.respins (log u w kind pa) := fun _ _ k => k.trans (hl _ _ _ _)
  unfold State.tierWordBy
  split
  · exact logged _ _ h
  · unfold State.checkWordBy
    split
    · exact h
    · dsimp only
      split
      · exact h
      · split
        · split
          · exact h.of_cores rfl
          · exact logged _ _ (h.of_cores rfl)
        · exact logged _ _ (h.of_cores rfl)

theorem fillBy {log : LogWith} (hl : log.respins) (h : s.respins t) (w : Who) (sec : Nat) (done : List Nat) :
    s.respins (t.fillBy log w sec done) := by
  have words : ∀ l : List Nat, s.respins (l.foldl (fun s q => s.tierWordBy log w q) t) := fun l => foldl (fun _ _ => refl.tierWordBy hl _ _) l h
  unfold State.fillBy
  split
  · exact h
  · dsimp only
    split
    · exact (words _).onSector _ _
    · exact words _

theorem walkReadsBy {log : LogWith} (hl : log.respins) (h : s.respins t) (w : Who) (cache : List WalkEntry) (asid va : Nat) :
    s.respins (t.walkReadsBy log w cache asid va) := foldl (fun _ _ => refl.fillBy hl _ _ _) _ h

theorem svRecordIn (n : Nat) : ∀ {t : State}, s.respins t → ∀ (die type : Nat) (w : Who) (a b : Nat),
    s.respins (State.svRecordIn n t die type w a b) := by
  induction n generalizing s with
  | zero => intro t h die type w a b; exact h.svWrite _ _ _ _ _
  | succ n ih =>
    intro t h die type w a b
    rw [State.svRecordIn]
    split
    · exact (h.walkReadsBy (fun _ _ _ _ => ih refl _ _ _ _ _) _ _ _ _).svWrite _ _ _ _ _
    · exact h.svWrite _ _ _ _ _

theorem log23 (h : s.respins t) (w : Who) (kind pa : Nat) : s.respins (t.log23 w kind pa) := h.svRecordIn 16 _ _ _ _ _

theorem walkFills (h : s.respins t) (w : Who) (cache : List WalkEntry) (asid va : Nat) : s.respins (t.walkFills w cache asid va) :=
  h.walkReadsBy (fun _ _ _ _ => refl.log23 _ _ _) _ _ _ _

theorem logWalk (h : s.respins t) (w : Who) (f : WalkFail) : s.respins (t.logWalk w f) := by
  unfold State.logWalk
  split
  · exact h.log23 _ _ _
  · exact h

/-- The walk stays a variable of a lemma of its own: the kernel would try to evaluate it on the unknown state. -/
theorem xlate (h : s.respins t) (w : Who) (core asid va : Nat) (a : Acc) (sup device : Bool) :
    s.respins (t.xlate w core asid va a sup device).2 := by
  have enter : ∀ {u : State} (e : TlbEntry), s.respins u →
      s.respins (if movingPage u asid va then u else u.onCore core (fun k => { k with tlb := tlbPut k.tlb 64 e })) := by
    intro u e k
    split
    · exact k
    · exact k.onCore core (fun _ => rfl)
  have fills := fun c => h.walkFills w c asid va
  unfold State.xlate
  generalize walk = walked
  as_aux_lemma =>
    dsimp only
    split
    · exact h
    · split
      · exact enter _ h
      · split
        · exact (fills _).logWalk _ _
        · exact enter _ ((fills _).onDie _ _)

theorem rangeFault (a : Site) (asid : Nat) (sup : Bool) (n : Nat) :
    ∀ {t : State} (va : Nat), s.respins t → s.respins (t.rangeFault a asid sup n va).2 := by
  induction n with
  | zero => exact fun _ h => h
  | succ n ih =>
    intro t va h
    have hx := h.xlate (whoLane a) a.core asid va .store sup false
    rw [State.rangeFault]
    split
    · rename_i e; rw [e] at hx; exact hx
    · rename_i e
      rw [e] at hx
      split
      · exact hx
      · exact ih _ hx

/-- The teams stand as before but for their groups. -/
theorem team (h : s.respins t) (c slot : Nat) :
    (t.team? c slot).map (fun u => { u with groups := [] }) = (s.team? c slot).map (fun u => { u with groups := [] }) := by
  induction h with
  | refl => rfl
  | slots _ hs ih => rw [← ih, State.team?, State.team?, hs]
  | @clearSpins t _ d line ih =>
    have hteam : (t.clearSpins d line).team? c slot = if c = d then (t.team? c slot).map (Team.unmarked line) else t.team? c slot := by
      simp only [State.team?, State.clearSpins, State.onCore_core]
      split
      · rename_i e
        rw [e]
        exact Tab.find?_map (t.core d).slots (fun _ u => u.unmarked line) slot
      · rfl
    rw [← ih, hteam]
    split
    · rw [Option.map_map]; rfl
    · rfl

theorem keepsPaths (h : s.respins t) : s.keepsPaths t := by
  induction h with
  | refl => exact .refl s
  | slots _ hs ih => exact ih.trans (fun c slot g => by simp only [State.group?, State.team?, hs])
  | clearSpins _ c line ih => exact ih.clearSpins c line

end State.respins

end Sys2Proof.Machine
end

section
namespace Sys2Proof.Machine

/-! The issuing path in a state in which it stands: what its group becomes there, as of an instruction issued in that state. -/

/-- The issue as it would be in a state in which the path stands. -/
def Ctx.standing (x : Ctx) (u : Team) (g : Group) (p : Path) : Ctx := { x with t := u, g := g, p := p }

namespace Ctx.standsIn

variable {x : Ctx} {t : State} {u : Team} {g : Group} {p : Path} (h : x.standsIn t u g p)
include h

theorem frame (v : Bool) : Frame v (x.standing u g p) t t :=
  ⟨rfl, fun _ => rfl, fun _ _ => rfl, by cases v <;> rfl, fun _ _ => rfl, ⟨u, h.team, rfl⟩, fun _ _ => rfl⟩

theorem past : (x.standing u g p).past = x.past := by
  obtain ⟨hl, hpc, hfmt⟩ := Prod.mk.inj h.view |>.imp_right Prod.mk.inj
  simp only [Ctx.past, Ctx.standing, hl, hpc, hfmt]

/-- Its group changes apart from its paths, as a spin detector sees, and the path steps on. -/
theorem changes (f : Group → Group) (hf : (f g).paths = g.paths) :
    ∃ g', Retires false (x.standing u g p) t (((t.onG x f).changed x.a).advance x.a) x.past (f g) g' := by
  obtain ⟨frame1, group1⟩ := (h.frame false).onGroup h.group? f
  obtain ⟨frame2, group2⟩ := frame1.onPath group1 (hf ▸ h.path) (fun p => { p with spin := { p.spin with changed := true } })
  rw [← h.past]
  refine (frame2.advance group2 (Tab.find?_set_self ..) rfl (fun n hn => ?_)).imp (fun g' done => ⟨done.frame, done.group, done.rest, done.paths⟩)
  exact (congrArg _ (Tab.find?_set_ne _ _ hn)).trans (by rw [hf]; rfl)

/-- Its group changes apart from its paths, and the path steps on. -/
theorem steps (f : Group → Group) (hf : (f g).paths = g.paths) :
    ∃ g', Retires false (x.standing u g p) t ((t.onG x f).advance x.a) x.past (f g) g' := by
  obtain ⟨frame, group⟩ := (h.frame false).onGroup h.group? f
  rw [← h.past]
  exact frame.advance group (hf ▸ h.path) rfl (fun n _ => by rw [hf]; rfl)

/-- The spin detector sees a change. -/
theorem changed : ∃ v, x.standsIn (t.changed x.a) v
      { g with paths := g.paths.set x.a.path { p with spin := { p.spin with changed := true } } }
      { p with spin := { p.spin with changed := true } } ∧
    v.phases = u.phases ∧ { t.changed x.a with cores := t.cores, dies := t.dies } = t := by
  obtain ⟨frame, group⟩ := (h.frame false).onPath h.group? h.path (fun p => { p with spin := { p.spin with changed := true } })
  obtain ⟨v, hv, hkept⟩ := frame.team
  obtain ⟨w, hw, hgroup⟩ := State.group?_some group
  cases hv.symm.trans hw
  have hphases := congrArg Team.phases hkept
  exact ⟨v, ⟨hv, hgroup, Tab.find?_set_self .., h.view⟩, hphases, frame.device⟩

/-- The team changes apart from its groups. -/
theorem onTeam (f : Team → Team) (hf : (f u).groups = u.groups) : x.standsIn (t.onTeam x.a.core x.a.slot f) (f u) g p := by
  refine ⟨?_, hf ▸ h.group, h.path, h.view⟩
  rw [State.onTeam_some h.team, State.setTeam_team?, if_pos ⟨rfl, rfl⟩]

/-- The teams of its core stay as they are. -/
theorem of_slots {s : State} (hs : (s.core x.a.core).slots = (t.core x.a.core).slots) : x.standsIn s u g p := by
  refine ⟨?_, h.group, h.path, h.view⟩
  rw [State.team?, hs]
  exact h.team

end Ctx.standsIn

/-- The team of a state that an instruction has retired in has the phase regions that it had. -/
theorem Frame.phases {v : Bool} {x : Ctx} {s t : State} (h : Frame v x s t) :
    (t.team? x.a.core x.a.slot).map (fun u => u.phases) = some x.t.phases := by
  obtain ⟨u, hu, hkept⟩ := h.team
  have hphases := congrArg Team.phases hkept
  rw [hu]
  exact congrArg some hphases

end Sys2Proof.Machine
end

section
namespace Sys2Proof.Machine

/-! PHASE (R117, R387). -/

/-- The sizes of phase regions, added one by one. -/
theorem foldl_sizes (ps : List Phase) (n : Nat) : ps.foldl (fun n p => n + p.size) n = n + (ps.map (fun p => p.size)).sum := by
  induction ps generalizing n with
  | nil => rfl
  | cons p ps ih => rw [List.foldl_cons, ih, List.map_cons, List.sum_cons, Nat.add_assoc]

/-- The sizes of the phase regions of some teams. -/
theorem foldl_teamSizes (ts : Tab Team) (n : Nat) :
    ts.foldl (fun n t => t.2.phases.foldl (fun n p => n + p.size) n) n = n + (ts.map (fun t => (t.2.phases.map (fun p => p.size)).sum)).sum := by
  induction ts generalizing n with
  | nil => rfl
  | cons t ts ih => rw [List.foldl_cons, ih, foldl_sizes, List.map_cons, List.sum_cons, Nat.add_assoc]

/-- What PHASE makes of its answer. -/
def Ctx.phaseAnswer (x : Ctx) (f : EngF) (s : State) (v : Nat) : State :=
  ((s.onG x (fun g => g.setS f.sd (BitVec.ofNat 32 v))).changed x.a).advance x.a

section Phase

variable {f : EngF} {s : State} {x : Ctx} (h : s.issuesFor x [.s f.sd 1, .s f.sa 2, .s f.sb 1])
include h

/-- With no active lane it does nothing. -/
theorem phase_idle (hact : x.act = 0) : doneAs (.phase f) x s x.past x.g := by
  obtain ⟨g', done⟩ := retires_plain h.1
  refine ⟨_, g', ?_, done⟩
  show Host.Outcome.next (s.issue _ _) = _
  rw [State.issue_eq h, if_pos hact]

/-- An answer alone changes Sd. -/
theorem phase_answers {v : Nat} (hexec : exec (.phase f) s = .next (x.phaseAnswer f s v)) :
    doneAs (.phase f) x s x.past (x.g.setS f.sd (BitVec.ofNat 32 v)) := by
  obtain ⟨g', done⟩ := (State.ctx_stands h.1).changes (fun g => g.setS f.sd (BitVec.ofNat 32 v)) rfl
  exact ⟨_, g', hexec, done⟩

/-- A region that passes its checks joins the team's. -/
theorem phase_joins {s1 : State} {r : Phase} (h1 : s.respins s1) (hexec : exec (.phase f) s = .next (x.phaseAnswer f
      (s1.onTeam x.a.core x.a.slot (fun t => { t with phases := t.phases ++ [r] })) 0)) :
    leads (.phase f) s (fun t => (x.now t).map (fun g => g.sreg f.sd) = some 0 ∧
      (t.team? x.a.core x.a.slot).map (fun u => u.phases) = some (x.t.phases ++ [r])) := by
  obtain ⟨u, g, p, stands⟩ := h1.keepsPaths.stands h.1
  have hphases : u.phases = x.t.phases := by
    have hteam := h1.team x.a.core x.a.slot
    rw [stands.team, (State.ctx_stands h.1).team, Option.map_some, Option.map_some, Option.some_inj] at hteam
    have := congrArg Team.phases hteam
    exact this
  have joined := stands.onTeam (fun t => { t with phases := t.phases ++ [r] }) rfl
  obtain ⟨g', done⟩ := joined.changes (fun g => g.setS f.sd (BitVec.ofNat 32 0)) rfl
  have hsd : g'.sreg f.sd = (g.setS f.sd 0).sreg f.sd := by
    have hs := congrArg Group.s done.rest
    exact congrArg (fun r => Tab.getD r f.sd 0) hs
  refine ⟨_, hexec, ?_, ?_⟩
  · rw [Group.setS_sreg, if_pos rfl] at hsd
    exact (congrArg (Option.map _) done.group).trans (congrArg some hsd)
  · exact done.frame.phases.trans (by rw [Ctx.standing, hphases])

/-- PHASE by its checks, in their order. -/
theorem phase_checks {base size : Nat} (hbase : x.pairVA f.sa = base) (hsize : (x.s f.sb).toNat = size) :
    let bad := base % 256 ≠ 0 ∨ size % 256 ≠ 0 ∨ size = 0
    let overlaps := ∃ p ∈ x.t.phases, base < p.base + p.size ∧ p.base < base + size
    let used := ((s.core x.a.core).slots.map (fun t => (t.2.phases.map (fun p => p.size)).sum)).sum
    x.act ≠ 0 →
      (bad → exec (.phase f) s = .next (x.phaseAnswer f s 4)) ∧
      (¬bad → 8 ≤ x.t.phases.length → exec (.phase f) s = .next (x.phaseAnswer f s 1)) ∧
      (¬bad → x.t.phases.length < 8 → overlaps → exec (.phase f) s = .next (x.phaseAnswer f s 2)) ∧
      (¬bad → x.t.phases.length < 8 → ¬overlaps → 2 ^ 24 < used + size → exec (.phase f) s = .next (x.phaseAnswer f s 3)) ∧
      (¬bad → x.t.phases.length < 8 → ¬overlaps → used + size ≤ 2 ^ 24 → onMove s x.t.asid base size = true →
        exec (.phase f) s = .next (s.stallOn x.a 1)) ∧
      (¬bad → x.t.phases.length < 8 → ¬overlaps → used + size ≤ 2 ^ 24 → onMove s x.t.asid base size = false →
        let r := s.rangeFault x.a x.t.asid x.t.sup (ceilDiv (base % 4096 + size) 4096) (base / 4096 * 4096)
        r.1 = none → exec (.phase f) s = .next (x.phaseAnswer f (r.2.onTeam x.a.core x.a.slot (fun t =>
          { t with phases := t.phases ++ [{ base := base, size := size, bytes := [], written := [], pois := [] }] })) 0)) := by
  intro bad overlaps used hact
  have hbad : (base % 256 ≠ 0 ∨ size % 256 ≠ 0 ∨ size < 256) ↔ bad := by omega
  have hover : (x.t.phases.any (fun p => decide (base < p.base + p.size) && decide (p.base < base + size))) = true ↔ overlaps := by
    simp only [List.any_eq_true, Bool.and_eq_true, decide_eq_true_eq, overlaps]
  have hused : (s.core x.a.core).slots.foldl (fun n t => t.2.phases.foldl (fun n p => n + p.size) n) 0 = used :=
    (foldl_teamSizes _ 0).trans (Nat.zero_add _)
  have body : exec (.phase f) s = .next _ := congrArg Host.Outcome.next ((State.issue_eq h _).trans (if_neg hact))
  rw [body]
  dsimp only
  rw [hbase, hsize, hused, show 0x1000000 = 2 ^ 24 from rfl]
  refine ⟨fun a => ?_, fun a b => ?_, fun a b c => ?_, fun a b c d => ?_, fun a b c d e => ?_, fun a b c d e hrange => ?_⟩
  · rw [if_pos (hbad.2 a)]; rfl
  · rw [if_neg (mt hbad.1 a), if_pos b]; rfl
  · rw [if_neg (mt hbad.1 a), if_neg (Nat.not_le.2 b), if_pos (hover.2 c)]; rfl
  · rw [if_neg (mt hbad.1 a), if_neg (Nat.not_le.2 b), if_neg (mt hover.1 c), if_pos d]; rfl
  · rw [if_neg (mt hbad.1 a), if_neg (Nat.not_le.2 b), if_neg (mt hover.1 c), if_neg (Nat.not_lt.2 d), if_pos e]
  · rw [if_neg (mt hbad.1 a), if_neg (Nat.not_le.2 b), if_neg (mt hover.1 c), if_neg (Nat.not_lt.2 d), if_neg (Bool.eq_false_iff.1 e)]
    split
    · rename_i hr
      rw [hr] at hrange
      cases hrange
    · rename_i hr
      rw [hr]
      rfl

end Phase

/-! PUBLISH (R119, R388). -/

/-- The lines that a published region has changed, with the bytes changed. -/
def Phase.changedLines (p : Phase) : Tab (Tab Byte) :=
  p.written.foldl (fun m va => m.set (va / 256) ((m.getD (va / 256) []).set va (p.bytes.getD va 0))) []

/-- The team of the path loses its region of a base, and the core what it held of the region's lines. -/
def Ctx.endRegion (x : Ctx) (s : State) (base : Nat) (p : Phase) : State :=
  let s := (s.onTeam x.a.core x.a.slot (fun t => { t with phases := t.phases.filter (fun q => q.base ≠ base) })).changed x.a
  s.dropPrivate x.a.core x.a.slot (((p.bytes.filter (fun b => b.1 % 256 = 0)).filterMap (fun b =>
    (vaToPa s x.t.asid b.1).map (fun pa => pa / 256))).contains)

/-- A published range whose `n` lines are a new work. -/
def State.publishing (s : State) (n : Nat) (pub : Pub) : State :=
  { (s.newWork n).2 with pubs := s.pubs.set s.nextPub pub, nextPub := s.nextPub + 1 }

theorem State.publishing_cores (s : State) (n : Nat) (pub : Pub) : (s.publishing n pub).cores = s.cores := rfl

theorem State.publishing_mem (s : State) (n : Nat) (pub : Pub) : (s.publishing n pub).mem = s.mem := rfl

/-- Entries set one after another leave a table empty only where there are none. -/
theorem Tab.foldl_set_eq_nil {α β : Type} (key : Tab α → β → Nat) (val : Tab α → β → α) (l : List β) (m : Tab α) :
    l.foldl (fun m b => m.set (key m b) (val m b)) m = [] ↔ l = [] ∧ m = [] := by
  induction l generalizing m with
  | nil => simp
  | cons b l ih =>
    have hset : m.set (key m b) (val m b) ≠ [] := by
      intro e
      have hfind := Tab.find?_set_self m (key m b) (val m b)
      rw [e] at hfind
      cases hfind
    rw [List.foldl_cons, ih]
    simp [hset]

theorem Phase.changedLines_eq_nil (p : Phase) : p.changedLines = [] ↔ p.written = [] := by
  rw [Phase.changedLines, Tab.foldl_set_eq_nil (fun _ va => va / 256)]
  simp

section Publish

variable {f : EngF} {s : State} {x : Ctx} (h : s.issuesFor x [.s f.sa 2])
include h

/-- With no active lane, or no region of its base, it fills its token. -/
theorem publish_idle (hidle : x.act = 0 ∨ ∀ p ∈ x.t.phases, p.base ≠ x.pairVA f.sa) :
    doneAs (.publish f) x s x.past (x.g.fill f.fn [] []) := by
  obtain ⟨g', done⟩ := (State.ctx_stands h.1).steps (fun g => g.fill f.fn [] []) rfl
  refine ⟨_, g', ?_, done⟩
  show Host.Outcome.next (s.issue _ _) = _
  rw [State.issue_eq h]
  rcases hidle with hact | hnone
  · rw [if_pos hact]
  · have hfind : x.t.phases.find? (fun p => p.base = x.pairVA f.sa) = none := by simpa using hnone
    dsimp only
    rw [hfind]
    exact congrArg _ (ite_self _)

/-- Once the region has ended, the path stands as it stood, in a team without the region. -/
theorem endRegion_spec (base : Nat) (p : Phase) : ∃ v g q, x.standsIn (x.endRegion s base p) v g q ∧
    v.phases = x.t.phases.filter (fun r => r.base ≠ base) ∧ { g with paths := x.g.paths } = x.g ∧
    (∀ n, n ≠ x.a.path → g.paths.find? n = x.g.paths.find? n) ∧ { x.endRegion s base p with cores := s.cores, dies := s.dies } = s := by
  have stands := State.ctx_stands h.1
  have ended := stands.onTeam (fun t => { t with phases := t.phases.filter (fun q => q.base ≠ base) }) rfl
  obtain ⟨v, seen, hphases, hdevice⟩ := ended.changed
  refine ⟨v, _, _, seen.of_slots ?_, hphases, rfl, fun n hn => Tab.find?_set_ne _ _ hn, ?_⟩
  · rw [Ctx.endRegion, State.dropPrivate, State.onCore_core, if_pos rfl]
  · have hteam : ∀ f, { s.onTeam x.a.core x.a.slot f with cores := s.cores, dies := s.dies } = s := fun f => by
      rw [State.onTeam_some stands.team]
      rfl
    have hseen := congrArg (fun t : State => { t with cores := s.cores, dies := s.dies }) hdevice
    exact hseen.trans (hteam _)

/-- What the instruction that ends a region leaves where only its token is still to be filled. -/
theorem publish_fills {base : Nat} {p : Phase} {t : State} {ws : List Nat}
    (hcores : t.cores = (x.endRegion s base p).cores) (hmem : t.mem = (x.endRegion s base p).mem)
    (hexec : exec (.publish f) s = .next ((t.onG x (fun g => g.fill f.fn [] ws)).advance x.a)) :
    stepsOn (.publish f) x s x.g (fun u g' => u.mem = s.mem ∧
      (u.team? x.a.core x.a.slot).map (fun u => u.phases) = some (x.t.phases.filter (fun q => q.base ≠ base)) ∧
      g'.token f.fn = .filled [] ws ∧ u.pubs = t.pubs ∧ u.works = t.works) := by
  obtain ⟨v, g, q, stands, hphases, hgroup, hothers, hdevice⟩ := endRegion_spec h base p
  obtain ⟨g', done⟩ := (stands.of_slots (s := t) (by simp only [State.core, hcores])).steps (fun g => g.fill f.fn [] ws) rfl
  have hbefore := congrArg State.mem hdevice
  have hafter := congrArg State.mem done.frame.device
  have hpubs := congrArg State.pubs done.frame.device
  have hworks := congrArg State.works done.frame.device
  obtain ⟨htokens, -⟩ := Group.of_rest done.rest
  refine ⟨_, g', hexec, done.group, ?_, fun n => ?_, hafter.trans (hmem.trans hbefore), done.frame.phases.trans (congrArg some hphases), ?_,
    hpubs, hworks⟩
  · have hkept := congrArg Group.kept done.rest
    have hissued := congrArg Group.kept hgroup
    exact hkept.trans hissued
  · exact (done.paths n).trans (ite_congr rfl (fun _ => rfl) (fun e => congrArg _ (hothers n e)))
  · rw [Group.token, htokens]
    exact Tab.getD_set_self ..

/-- PUBLISH of the one region of its base ends it; the lines that it has changed, if any, are a new work. -/
theorem publish_found {p : Phase} (hact : x.act ≠ 0) (hp : p ∈ x.t.phases) (hbase : p.base = x.pairVA f.sa)
    (hone : ∀ q ∈ x.t.phases, q.base = x.pairVA f.sa → q = p) :
    let ended := x.endRegion s (x.pairVA f.sa) p
    (p.written = [] → exec (.publish f) s = .next ((ended.onG x (fun g => g.fill f.fn [] [])).advance x.a)) ∧
    (p.written ≠ [] → ∃ pub, exec (.publish f) s = .next
      (((ended.publishing p.changedLines.length pub).onG x (fun g => g.fill f.fn [] [ended.nextWork])).advance x.a)) := by
  have hfind : x.t.phases.find? (fun q => q.base = x.pairVA f.sa) = some p := by
    cases hf : x.t.phases.find? (fun q => q.base = x.pairVA f.sa) with
    | none => exact absurd hbase (by simpa using List.find?_eq_none.1 hf p hp)
    | some q => rw [hone q (List.mem_of_find?_eq_some hf) (by simpa using List.find?_some hf)]
  have body : exec (.publish f) s = .next _ := congrArg Host.Outcome.next ((State.issue_eq h _).trans (if_neg hact))
  rw [body, hfind]
  dsimp only
  constructor
  · intro hnone
    exact congrArg _ (if_pos (List.isEmpty_iff.2 (p.changedLines_eq_nil.2 hnone)))
  · intro hsome
    exact ⟨_, congrArg _ (if_neg (mt List.isEmpty_iff.1 (mt p.changedLines_eq_nil.1 hsome)))⟩

end Publish

/-- Settles O27: PHASE by its checks in their order; a translation leaves the team's regions as they are, so the new one joins them.
PUBLISH takes the region out, and opens a work where it has changed lines. -/
theorem phaseAndPublish : Obligations.PhaseAndPublish := by
  intro f s x base size bad overlaps used answer
  refine ⟨fun h => ?_, fun h => ⟨publish_idle h, fun p hp hact hbase hone => ?_⟩⟩
  · have checks := phase_checks h (base := base) (size := size) rfl rfl
    refine ⟨phase_idle h, fun hact hbad => ?_, fun hact hgood hcount => ?_, fun hact hgood hcount hover => ?_,
      fun hact hgood hcount hapart hroom => ?_, fun hact hgood hcount hapart hroom hmove => ?_,
      fun hact hgood hcount hapart hroom hstay hrange => ?_⟩
    · obtain ⟨four, -⟩ := checks hact
      exact phase_answers h (four hbad)
    · obtain ⟨-, one, -⟩ := checks hact
      exact phase_answers h (one hgood hcount)
    · obtain ⟨-, -, two, -⟩ := checks hact
      exact phase_answers h (two hgood hcount hover)
    · obtain ⟨-, -, -, three, -⟩ := checks hact
      exact phase_answers h (three hgood hcount hapart hroom)
    · obtain ⟨-, -, -, -, wait, -⟩ := checks hact
      exact waits_of_stallOn h.1 (wait hgood hcount hapart hroom hmove)
    · obtain ⟨-, -, -, -, -, join⟩ := checks hact
      exact phase_joins h (State.respins.rangeFault x.a x.t.asid x.t.sup _ _ .refl) (join hgood hcount hapart hroom hstay hrange)
  · obtain ⟨unchanged, changed⟩ := publish_found h hact hp hbase hone
    obtain ⟨-, -, -, -, -, -, -, hdevice⟩ := endRegion_spec h base p
    by_cases hwritten : p.written = []
    · obtain ⟨t, g', hexec, hnow, hkept, hpaths, hmem, hphases, htoken, hpubs, -⟩ := publish_fills h rfl rfl (unchanged hwritten)
      have hbefore := congrArg State.pubs hdevice
      exact ⟨t, g', hexec, hnow, hkept, hpaths, hmem, hphases, by rw [if_pos hwritten]; exact ⟨htoken, hpubs.trans hbefore⟩⟩
    · obtain ⟨pub, hexec⟩ := changed hwritten
      obtain ⟨t, g', hexec, hnow, hkept, hpaths, hmem, hphases, htoken, -, hworks⟩ := 
        publish_fills h (State.publishing_cores ..) (State.publishing_mem ..) hexec
      have hwork := congrArg State.nextWork hdevice
      have hopen := State.newWork_open (x.endRegion s base p) (n := p.changedLines.length)
        (mt List.length_eq_zero_iff.1 (mt p.changedLines_eq_nil.1 hwritten))
      refine ⟨t, g', hexec, hnow, hkept, hpaths, hmem, hphases, ?_⟩
      rw [if_neg hwritten, ← hwork]
      refine ⟨htoken, ?_⟩
      rw [State.workDone, hworks]
      exact hopen

end Sys2Proof.Machine
end
